-- ==== Sys2Proof/Word.lean ====
section
/-! DEFINITION. The words of the 7402: a byte of a frame and a Time Base value. -/

namespace Sys2Proof

/-- One byte of a frame or record (Chapter 11). -/
abbrev Byte := BitVec 8

/-- A Time Base value: a 32-bit count of milliseconds that wraps (0.5, R178). -/
abbrev Time := BitVec 32

/-- A CRC-16 register or load digest (R180). -/
abbrev Crc := BitVec 16

end Sys2Proof
end

