-- ==== Sys2Proof/Config.lean ====
section
/-! DEFINITION. What the part fixes (the capacities of 0.6) and the one value its manual leaves free. -/

namespace Sys2Proof.Config

/-- Route slots (R55). -/
def slotCount : Nat := 48
/-- Stored request queue entries (R63). -/
def storedCapacity : Nat := 16
/-- Pending list entries for each lane (R172). -/
def pendingCapacity : Nat := 8
/-- Report queue entries for each lane (R170). -/
def reportCapacity : Nat := 32
/-- Pending throw list orders (R96). -/
def orderCapacity : Nat := 32
/-- Power groups (R99). -/
def powerGroups : Nat := 4
/-- Area-stop groups (R130). -/
def stopGroups : Nat := 8
/-- Neighbour links (R149). -/
def linkCount : Nat := 4
/-- Receive queue frames of a link (R149). -/
def receiveCapacity : Nat := 8
/-- Transmit queue frames of a link (R149). -/
def transmitCapacity : Nat := 16
/-- The agreement window, in ms, while no timing set stands (R172). -/
def loadWindow : Nat := 250
/-- The deepest chain of flank records (R27). -/
def chainDepth : Nat := 4

/-- FREE VALUE (log 8): the operand a REFUSED report carries for a valid frame of unknown kind or
unsuitable payload length. R181 gives the operand as "the request's first operand"; for a payload
that no layout reads, the spec states none. It may depend on the kind byte and the payload. -/
opaque unknownOperand : Nat → List Byte → Nat

end Sys2Proof.Config
end

