-- ==== Sys2Proof/Syntax.lean ====
section
/-! DEFINITION. The commands of the 7402, one constructor for each row of the operation table, and
the names their operands are made of. Numbers that the manual never adds or masks (element, route,
slot, link, boundary, group numbers) are plain naturals; operands stand as the frame carries them,
and the block that owns the request judges them (R171). -/

namespace Sys2Proof

/-- The two lane processors (0.3). -/
inductive LaneId | a | b
  deriving DecidableEq, Repr

/-- The area-stop inputs (0.8). -/
inductive AreaInput | as0 | as1
  deriving DecidableEq, Repr

/-- A point position (0.5). -/
inductive Position | normal | reverse
  deriving DecidableEq, Repr

/-- A detection value a lane may report (R6). -/
inductive Detection | clear | occupied | normal | reverse | none | proved | notProved
  deriving DecidableEq, Repr

/-- A signal aspect (0.5). -/
inductive Aspect | stop | shunt | caution | clear
  deriving DecidableEq, Repr

/-- The way one end of a boundary holds the line (R154). -/
inductive Direction | neutral | outward | inward
  deriving DecidableEq, Repr

/-- An end's permission to send a train out (R154). -/
inductive Acceptance | none | requested | held
  deriving DecidableEq, Repr

/-- Which end decides a direction contest (R29, R160). -/
inductive Seniority | senior | junior
  deriving DecidableEq, Repr

/-- The reason codes of 11.5. -/
inductive Reason
  | badOperand | notConfigured | starting | laneDegraded | queueFull | agreementTimeout | noSlot
  | alreadySet | busy | stored | storedRemoved | expired | notSet | entered | cancelling | setting
  | conflict | blocked | faulted | flankHeld | pointOccupied | flankUnavailable | locked
  | boundaryUnavailable | linkBusy | direction | berthLocked | berthOccupied
  | stillAsserted | notActive | active | noFault | settingTimeout | throwFailed
  | digest | invalidDefinition | clamped
  deriving DecidableEq, Repr

/-- One boundary's entry in a STATUS frame (R155). -/
structure StatusEntry where
  number : Nat
  direction : Direction
  restricted : Bool
  acceptance : Acceptance
  waiting : Bool
  berthLocked : Bool
  berthEntered : Bool
  berthOccupied : Bool
  berthReady : Bool
  home : Aspect
  deriving DecidableEq, Repr

/-- A neighbour frame (R183). The numbers are link boundary numbers; the reason of an ACCEPT_REFUSE
is the reason byte as it arrives. -/
inductive NFrame
  | status (areaStop : Bool) (entries : List StatusEntry)
  | dirRequest (number : Nat) (seniority : Seniority)
  | dirGrant (number : Nat)
  | dirRefuse (number : Nat)
  | dirOffer (number : Nat)
  | acceptRequest (number : Nat)
  | acceptGrant (number : Nat) (home : Aspect)
  | acceptRefuse (number : Nat) (reason : Nat)
  | acceptCancel (number : Nat)
  deriving DecidableEq, Repr

/-- A configuration record as its payload carries it (11.4), before any check. `track` is the
ELEMENT_DEF of a SECTION, whose own name is a Lean word. -/
inductive Record
  | point (element reaction sectionElem group limit slow units mask : Nat)
  | signal (element reaction cls units mask passed : Nat)
  | track (element reaction pickUp : Nat)
  | boundary (element reaction number : Nat)
  | oddElement (element kind : Nat)
  | routeHead (route cls entry exit pathLength overlapLength flankCount options : Nat)
  | routePath (route first : Nat) (entries : List (Nat × Nat))
  | routeOverlap (route first : Nat) (entries : List (Nat × Nat))
  | routeFlank (route first : Nat) (requirements : List (Nat × Nat))
  | flankDef (index : Nat) (options : List (Nat × Nat × Nat))
  | approachDef (signal : Nat) (entries : List (Nat × Nat))
  | boundaryDef (number link linkNumber seniority home : Nat) (berth : List Nat)
  | powerGroupDef (group budget stagger pacing : Nat)
  | stopGroupDef (group sources hold propagate : Nat)
  | linkDef (link start interval : Nat)
  | timingDef (parameter value : Nat)
  deriving DecidableEq, Repr

/-- One exchange on a lane link (R169): the lane that clocks it, and whether the whole report frame
was shifted out before select was released. -/
structure Exchange where
  lane : LaneId
  whole : Bool
  deriving DecidableEq, Repr

/-- A voted request with every operand as received (R171, R172). -/
inductive Request
  | setRoute (route priority store : Nat)
  | cancelRoute (route : Nat)
  | releaseEmergency (route : Nat)
  | throwPoint (element position : Nat)
  | block (element : Nat)
  | unblock (element : Nat)
  | ackFault (element kind : Nat)
  | stopSet (group : Nat)
  | stopRelease (group : Nat)
  | boundaryReset (boundary : Nat)
  | linkEnable (link : Nat)
  | linkDisable (link : Nat)
  | rejoin (lane : Nat)
  | restart (operand : Nat)
  | loadBegin
  | loadRecord (payload : List Byte)
  | loadEnd (digest : Nat)
  deriving DecidableEq, Repr

/-- The commands: one constructor for each row of the operation table, in its order. A lane command
carries its `Exchange`. An expiry names the record whose timer it is. A frame that the Handover
Controller takes from a receive queue names only the link: the frame itself stands at the head of
that queue (R151). -/
inductive Instr
  | powerOn
  | reset
  | laneFrameError (x : Exchange)
  | unknownRequest (x : Exchange) (kind : Nat) (payload : List Byte)
  | emptyRequest (x : Exchange)
  | detect (x : Exchange) (pairs : List (Nat × Nat))
  | readElement (x : Exchange) (element : Nat)
  | readSlot (x : Exchange) (slot : Nat)
  | readRoute (x : Exchange) (route : Nat)
  | readBoundary (x : Exchange) (boundary : Nat)
  | readGroups (x : Exchange) (start : Nat)
  | readStatus (x : Exchange)
  | readFaults (x : Exchange) (start : Nat)
  | setRoute (x : Exchange) (route priority store : Nat)
  | cancelRoute (x : Exchange) (route : Nat)
  | releaseEmergency (x : Exchange) (route : Nat)
  | throwPoint (x : Exchange) (element position : Nat)
  | block (x : Exchange) (element : Nat)
  | unblock (x : Exchange) (element : Nat)
  | ackFault (x : Exchange) (element kind : Nat)
  | stopSet (x : Exchange) (group : Nat)
  | stopRelease (x : Exchange) (group : Nat)
  | boundaryReset (x : Exchange) (boundary : Nat)
  | linkEnable (x : Exchange) (link : Nat)
  | linkDisable (x : Exchange) (link : Nat)
  | rejoin (x : Exchange) (lane : Nat)
  /-- RESTART with any operand byte but 1: 0 names KEEP, another value neither KEEP nor UNLOAD (R177). -/
  | restartKeep (x : Exchange) (operand : Nat)
  /-- RESTART with operand byte 1, UNLOAD (R178). -/
  | restartUnload (x : Exchange)
  | loadBegin (x : Exchange)
  | loadRecord (x : Exchange) (payload : List Byte)
  | loadEnd (x : Exchange) (digest : Nat)
  | agreementWindowExpiry (lane : LaneId)
  | laneSilenceExpiry (lane : LaneId)
  | startHoldExpiry
  | discrepancyExpiry (element : Nat)
  | pickUpExpiry (element : Nat)
  | occupationTimeAged (element : Nat)
  | settingTimerExpiry (slot : Nat)
  | storedExpiry (route : Nat)
  | overlapExpiry (slot : Nat)
  | holdExpiry (slot : Nat)
  | speedRecordStale (element : Nat)
  | staggerExpiry (group : Nat)
  | settleExpiry (point : Nat)
  | throwExpiry (point : Nat)
  | confirmationExpiry (element : Nat)
  | areaStopInputChange (input : AreaInput) (asserted : Bool)
  | neighbourFrameError (link : Nat) (bytes : List Byte)
  | neighbourFrameReceived (link : Nat) (frame : NFrame)
  | status (link : Nat)
  | dirRequest (link : Nat)
  | dirGrant (link : Nat)
  | dirRefuse (link : Nat)
  | dirOffer (link : Nat)
  | acceptRequest (link : Nat)
  | acceptGrant (link : Nat)
  | acceptRefuse (link : Nat)
  | acceptCancel (link : Nat)
  | statusIntervalExpiry (link : Nat)
  | linkSilenceExpiry (link : Nat)
  | dirRequestExpiry (boundary : Nat)
  | acceptanceExpiry (boundary : Nat)
  | consistencyExpiry (boundary : Nat)
  | resetExpiry (boundary : Nat)
  | queuedFrameSent (link : Nat)
  deriving DecidableEq, Repr

end Sys2Proof
end

