-- ==== Sys2Proof/WellFormed.lean ====
section
/-! DEFINITION. Which commands a lane frame, a neighbour frame or the part itself can produce: every
operand within the width its layout gives it (R181, R183) and every index within the records that
exist (0.5, 0.6). The meanings are total and do not rely on it. -/

namespace Sys2Proof

/-- A one-byte operand. -/
def byteOk (n : Nat) : Bool := n < 256
/-- A two-byte operand. -/
def wordOk (n : Nat) : Bool := n < 65536

/-- A DETECT names 1 to 20 pairs of a two-byte element and a one-byte value (R181). -/
def pairsOk (ps : List (Nat × Nat)) : Bool :=
  1 ≤ ps.length && ps.length ≤ 20 && ps.all (fun p => wordOk p.1 && byteOk p.2)

/-- A frame a neighbour link can carry: link boundary numbers and reasons of one byte, and at most
four STATUS entries (R183). -/
def NFrame.wellFormed : NFrame → Bool
  | .status _ es => es.length ≤ 4 && es.all (fun e => byteOk e.number)
  | .dirRequest n _ => byteOk n
  | .dirGrant n => byteOk n
  | .dirRefuse n => byteOk n
  | .dirOffer n => byteOk n
  | .acceptRequest n => byteOk n
  | .acceptGrant n _ => byteOk n
  | .acceptRefuse n r => byteOk n && byteOk r
  | .acceptCancel n => byteOk n

/-- The payload length a request frame of each kind must have (R181); `none` where the kind is
unknown or the length is not one fixed number. -/
def fixedLength : Nat → Option Nat
  | 0x00 => some 0
  | 0x10 => some 2 | 0x11 => some 1 | 0x12 => some 2 | 0x13 => some 1 | 0x14 => some 1
  | 0x15 => some 0 | 0x16 => some 2
  | 0x20 => some 4 | 0x21 => some 2 | 0x22 => some 2 | 0x23 => some 3 | 0x24 => some 2
  | 0x25 => some 2 | 0x26 => some 3 | 0x27 => some 1 | 0x28 => some 1 | 0x29 => some 1
  | 0x2A => some 1 | 0x2B => some 1 | 0x2C => some 1 | 0x2D => some 1
  | 0x30 => some 0 | 0x32 => some 2
  | _ => none

/-- A request frame of this kind and payload length is well formed (R181). -/
def lengthSuits (kind n : Nat) : Bool :=
  if kind = 0x01 then 3 ≤ n && n ≤ 60 && n % 3 = 0
  else if kind = 0x31 then 2 ≤ n && n ≤ 60
  else fixedLength kind = some n

/-- The command can arise. -/
def Instr.wellFormed : Instr → Bool
  | .powerOn => true
  | .reset => true
  | .laneFrameError _ => true
  | .unknownRequest _ k p => byteOk k && p.length ≤ 60 && !lengthSuits k p.length
  | .emptyRequest _ => true
  | .detect _ ps => pairsOk ps
  | .readElement _ n => wordOk n
  | .readSlot _ n => byteOk n
  | .readRoute _ n => wordOk n
  | .readBoundary _ n => byteOk n
  | .readGroups _ n => byteOk n
  | .readStatus _ => true
  | .readFaults _ n => wordOk n
  | .setRoute _ r p st => wordOk r && byteOk p && byteOk st
  | .cancelRoute _ r => wordOk r
  | .releaseEmergency _ r => wordOk r
  | .throwPoint _ n p => wordOk n && byteOk p
  | .block _ n => wordOk n
  | .unblock _ n => wordOk n
  | .ackFault _ n k => wordOk n && byteOk k
  | .stopSet _ g => byteOk g
  | .stopRelease _ g => byteOk g
  | .boundaryReset _ b => byteOk b
  | .linkEnable _ l => byteOk l
  | .linkDisable _ l => byteOk l
  | .rejoin _ l => byteOk l
  | .restartKeep _ o => byteOk o && o != 1
  | .restartUnload _ => true
  | .loadBegin _ => true
  | .loadRecord _ p => 2 ≤ p.length && p.length ≤ 60
  | .loadEnd _ g => wordOk g
  | .agreementWindowExpiry _ => true
  | .laneSilenceExpiry _ => true
  | .startHoldExpiry => true
  | .discrepancyExpiry n => n < 512
  | .pickUpExpiry n => n < 512
  | .occupationTimeAged n => n < 512
  | .settingTimerExpiry i => i < 48
  | .storedExpiry r => r < 384
  | .overlapExpiry i => i < 48
  | .holdExpiry i => i < 48
  | .speedRecordStale n => n < 512
  | .staggerExpiry g => g < 4
  | .settleExpiry n => n < 512
  | .throwExpiry n => n < 512
  | .confirmationExpiry n => n < 512
  | .areaStopInputChange _ _ => true
  | .neighbourFrameError l bs => l < 4 && bs.length ≤ 64
  | .neighbourFrameReceived l f => l < 4 && f.wellFormed
  | .status l => l < 4
  | .dirRequest l => l < 4
  | .dirGrant l => l < 4
  | .dirRefuse l => l < 4
  | .dirOffer l => l < 4
  | .acceptRequest l => l < 4
  | .acceptGrant l => l < 4
  | .acceptRefuse l => l < 4
  | .acceptCancel l => l < 4
  | .statusIntervalExpiry l => l < 4
  | .linkSilenceExpiry l => l < 4
  | .dirRequestExpiry b => b < 16
  | .acceptanceExpiry b => b < 16
  | .consistencyExpiry b => b < 16
  | .resetExpiry b => b < 16
  | .queuedFrameSent l => l < 4

end Sys2Proof
end

