-- ==== Sys2Proof/Decode.lean ====
section
/-! DEFINITION. The byte layouts that come into the part: the CRC-16 (R180), lane request frames
(R169, R181), neighbour frames (R183), configuration records (11.4) and the code tables (11.5) they
use. The operation table gives no row any bits, so `decodeTableWord` answers `none`. -/

namespace Sys2Proof

/-! ### CRC-16 (R180) -/

/-- One data bit taken into the register: shift left by one, and XOR with 1021h when the bit shifted
out differs from the data bit. -/
def crcBit (c : Crc) (bit : Bool) : Crc :=
  if c.getLsbD 15 != bit then (c <<< 1) ^^^ 0x1021#16 else c <<< 1

/-- One byte, most significant bit first. -/
def crcByte (c : Crc) (b : Byte) : Crc :=
  [7, 6, 5, 4, 3, 2, 1, 0].foldl (fun c i => crcBit c (b.getLsbD i)) c

/-- The register run on over some bytes (R180, R176). -/
def crcFrom (c : Crc) (bs : List Byte) : Crc := bs.foldl crcByte c

/-- The frame check over some bytes: initial value FFFFh, no final inversion. -/
def crc16 (bs : List Byte) : Crc := crcFrom 0xFFFF#16 bs

/-! ### Numbers and codes -/

/-- A byte of a number. -/
def byteOf (n : Nat) : Byte := BitVec.ofNat 8 n
/-- Two bytes, high byte first (Chapter 11). -/
def wordBytes (n : Nat) : List Byte := [byteOf (n / 256), byteOf n]
/-- Four bytes of a Time Base value, high byte first. -/
def timeBytes (t : Time) : List Byte :=
  [byteOf (t.toNat / 16777216), byteOf (t.toNat / 65536), byteOf (t.toNat / 256), byteOf t.toNat]
/-- The number two bytes carry, high byte first. -/
def wordOf (hi lo : Byte) : Nat := hi.toNat * 256 + lo.toNat

/-- The aspect codes of 11.5. -/
def Aspect.code : Aspect → Nat
  | .stop => 0 | .shunt => 1 | .caution => 2 | .clear => 3
/-- The aspect a code names. -/
def Aspect.ofCode : Nat → Option Aspect
  | 0 => some .stop | 1 => some .shunt | 2 => some .caution | 3 => some .clear | _ => none
/-- The direction codes of 11.5. -/
def Direction.code : Direction → Nat
  | .neutral => 0 | .outward => 1 | .inward => 2
/-- The direction a code names. -/
def Direction.ofCode : Nat → Option Direction
  | 0 => some .neutral | 1 => some .outward | 2 => some .inward | _ => none
/-- The acceptance codes of 11.5. -/
def Acceptance.code : Acceptance → Nat
  | .none => 0 | .requested => 1 | .held => 2
/-- The acceptance a code names. -/
def Acceptance.ofCode : Nat → Option Acceptance
  | 0 => some .none | 1 => some .requested | 2 => some .held | _ => none
/-- The seniority codes of 11.5. -/
def Seniority.code : Seniority → Nat
  | .senior => 0 | .junior => 1
/-- The seniority a code names. -/
def Seniority.ofCode : Nat → Option Seniority
  | 0 => some .senior | 1 => some .junior | _ => none

/-! ### Lane request frames (R169, R171, R181) -/

/-- The number at the head of a payload: its one byte, or its first two bytes. -/
def operand1 (p : List Byte) : Nat := match p with | b :: _ => b.toNat | [] => 0
/-- The two-byte number at the head of a payload. -/
def operand2 (p : List Byte) : Nat := match p with | h :: l :: _ => wordOf h l | _ => 0

/-- The pairs of a DETECT payload: element (2), value (1). -/
def pairsOf : List Byte → List (Nat × Nat)
  | h :: l :: v :: rest => (wordOf h l, v.toNat) :: pairsOf rest
  | _ => []

/-- The request a payload of suitable length spells for its kind (R171, R181). -/
def requestOf (x : Exchange) (kind : Nat) (p : List Byte) : Instr :=
  if !lengthSuits kind p.length then .unknownRequest x kind p
  else match kind with
    | 0x00 => .emptyRequest x
    | 0x01 => .detect x (pairsOf p)
    | 0x10 => .readElement x (operand2 p)
    | 0x11 => .readSlot x (operand1 p)
    | 0x12 => .readRoute x (operand2 p)
    | 0x13 => .readBoundary x (operand1 p)
    | 0x14 => .readGroups x (operand1 p)
    | 0x15 => .readStatus x
    | 0x16 => .readFaults x (operand2 p)
    | 0x20 => .setRoute x (operand2 p) (operand1 (p.drop 2)) (operand1 (p.drop 3))
    | 0x21 => .cancelRoute x (operand2 p)
    | 0x22 => .releaseEmergency x (operand2 p)
    | 0x23 => .throwPoint x (operand2 p) (operand1 (p.drop 2))
    | 0x24 => .block x (operand2 p)
    | 0x25 => .unblock x (operand2 p)
    | 0x26 => .ackFault x (operand2 p) (operand1 (p.drop 2))
    | 0x27 => .stopSet x (operand1 p)
    | 0x28 => .stopRelease x (operand1 p)
    | 0x29 => .boundaryReset x (operand1 p)
    | 0x2A => .linkEnable x (operand1 p)
    | 0x2B => .linkDisable x (operand1 p)
    | 0x2C => .rejoin x (operand1 p)
    | 0x2D => if operand1 p = 1 then .restartUnload x else .restartKeep x (operand1 p)
    | 0x30 => .loadBegin x
    | 0x31 => .loadRecord x p
    | 0x32 => .loadEnd x (operand2 p)
    | _ => .unknownRequest x kind p

/-- The command a lane exchange makes of the bytes clocked in before select was released (R169): a
frame error when the frame is incomplete, its length exceeds 60 or its CRC is wrong. Bytes after the
end of the frame are ignored. -/
def decodeLaneFrame (x : Exchange) (bytes : List Byte) : Instr :=
  match bytes with
  | kind :: len :: rest =>
    let n := len.toNat
    let p := rest.take n
    match rest.drop n with
    | c1 :: c0 :: _ =>
      if n ≤ 60 && (crc16 (kind :: len :: p)).toNat == wordOf c1 c0 then requestOf x kind.toNat p
      else .laneFrameError x
    | _ => .laneFrameError x
  | _ => .laneFrameError x

/-! ### Neighbour frames (R183) -/

/-- Bit `i` of a number. -/
def flagBit (b : Bool) (i : Nat) : Nat := if b then 2 ^ i else 0

/-- The five bytes of a STATUS entry. -/
def StatusEntry.bytes (e : StatusEntry) : List Byte :=
  [byteOf e.number, byteOf e.direction.code, byteOf e.acceptance.code, byteOf e.home.code,
   byteOf (flagBit e.restricted 0 + flagBit e.waiting 1 + flagBit e.berthLocked 2
     + flagBit e.berthEntered 3 + flagBit e.berthOccupied 4 + flagBit e.berthReady 5)]

/-- The kind code and payload of a neighbour frame. -/
def NFrame.body : NFrame → Nat × List Byte
  | .status a es => (0x01, byteOf (flagBit a 0) :: byteOf es.length :: es.flatMap StatusEntry.bytes)
  | .dirRequest n s => (0x02, [byteOf n, byteOf s.code])
  | .dirGrant n => (0x03, [byteOf n])
  | .dirRefuse n => (0x04, [byteOf n])
  | .dirOffer n => (0x05, [byteOf n])
  | .acceptRequest n => (0x06, [byteOf n])
  | .acceptGrant n a => (0x07, [byteOf n, byteOf a.code])
  | .acceptRefuse n r => (0x08, [byteOf n, byteOf r])
  | .acceptCancel n => (0x09, [byteOf n])

/-- A whole neighbour frame as it goes out on NkTX: start byte, kind, length, payload, CRC over kind,
length and payload (R180, R183). -/
def NFrame.bytes (f : NFrame) : List Byte :=
  let covered := byteOf f.body.1 :: byteOf f.body.2.length :: f.body.2
  0xA5#8 :: (covered ++ wordBytes (crc16 covered).toNat)

/-- A STATUS entry from its five bytes; a code outside the code tables makes none, and
bits 6 and 7 of the flag byte, to which the layout gives no meaning, are ignored (DESIGN CHOICE, log 22). -/
def statusEntryOf (n d a h f : Byte) : Option StatusEntry := do
  let dir ← Direction.ofCode d.toNat
  let acc ← Acceptance.ofCode a.toNat
  let home ← Aspect.ofCode h.toNat
  return { number := n.toNat, direction := dir, restricted := f.getLsbD 0, acceptance := acc,
           waiting := f.getLsbD 1, berthLocked := f.getLsbD 2, berthEntered := f.getLsbD 3,
           berthOccupied := f.getLsbD 4, berthReady := f.getLsbD 5, home := home }

/-- The entries of a STATUS payload, five bytes each. -/
def statusEntriesOf : List Byte → Option (List StatusEntry)
  | [] => some []
  | n :: d :: a :: h :: f :: rest => do
    let e ← statusEntryOf n d a h f
    let es ← statusEntriesOf rest
    return e :: es
  | _ => none

/-- The frame a kind and payload spell; `none` for an unknown kind or an unsuitable length (R183). -/
def nframeOf (kind : Nat) (p : List Byte) : Option NFrame :=
  match kind, p with
  | 0x01, a :: c :: es =>
    if c.toNat ≤ 4 && es.length == 5 * c.toNat then
      (statusEntriesOf es).map (fun l => .status (a.toNat != 0) l)
    else none
  | 0x02, [n, s] => (Seniority.ofCode s.toNat).map (fun q => .dirRequest n.toNat q)
  | 0x03, [n] => some (.dirGrant n.toNat)
  | 0x04, [n] => some (.dirRefuse n.toNat)
  | 0x05, [n] => some (.dirOffer n.toNat)
  | 0x06, [n] => some (.acceptRequest n.toNat)
  | 0x07, [n, a] => (Aspect.ofCode a.toNat).map (fun q => .acceptGrant n.toNat q)
  | 0x08, [n, r] => some (.acceptRefuse n.toNat r.toNat)
  | 0x09, [n] => some (.acceptCancel n.toNat)
  | _, _ => none

/-- A frame read from the bytes after a start byte, with the bytes that follow it; `none` where the
frame is discarded (R151, R183). -/
def nframeAt (bytes : List Byte) : Option (NFrame × List Byte) :=
  match bytes with
  | kind :: len :: rest =>
    let n := len.toNat
    let p := rest.take n
    match rest.drop n with
    | c1 :: c0 :: after =>
      if n ≤ 59 && (crc16 (kind :: len :: p)).toNat == wordOf c1 c0 then
        (nframeOf kind.toNat p).map (fun f => (f, after))
      else none
    | _ => none
  | _ => none

/-- The frames a receiver takes from a run of bytes, hunting from each start byte: after a discarded
frame it hunts from the byte after that frame's start byte (R183). The first argument bounds the
hunt; the number of bytes is enough. -/
def huntFrames : Nat → List Byte → List NFrame
  | 0, _ => []
  | _ + 1, [] => []
  | k + 1, b :: bs =>
    if b = 0xA5#8 then
      match nframeAt bs with
      | some (f, rest) => f :: huntFrames k rest
      | none => huntFrames k bs
    else huntFrames k bs

/-- The frames found in some bytes. -/
def framesIn (bytes : List Byte) : List NFrame := huntFrames bytes.length bytes

/-- The bytes after a start byte are not yet a whole frame: its length, payload or CRC has not come. A
length above 59 discards the frame as soon as it is read (R183). -/
def nframeBreaksOff : List Byte → Bool
  | _ :: len :: rest => len.toNat ≤ 59 && rest.length < len.toNat + 2
  | _ => true

/-- The frames a receiver takes from a run of bytes that goes on, with the bytes, from a start byte on, of a
frame that is not yet whole at their end (R183). The first argument bounds the hunt. -/
def huntOn : Nat → List Byte → List NFrame × List Byte
  | 0, _ => ([], [])
  | _ + 1, [] => ([], [])
  | k + 1, b :: bs =>
    if b = 0xA5#8 then
      if nframeBreaksOff bs then ([], b :: bs)
      else match nframeAt bs with
        | some (f, rest) => let q := huntOn k rest; (f :: q.1, q.2)
        | none => huntOn k bs
    else huntOn k bs

/-- The frames found in bytes that go on, and the frame begun at their end. -/
def huntIn (bytes : List Byte) : List NFrame × List Byte := huntOn bytes.length bytes

/-! ### Configuration records (11.4) -/

/-- The entries of a ROUTE_PATH or ROUTE_OVERLAP body: element (2), position (1). -/
def entriesOf : List Byte → Option (List (Nat × Nat))
  | [] => some []
  | h :: l :: p :: rest => (entriesOf rest).map (fun es => (wordOf h l, p.toNat) :: es)
  | _ => none

/-- The requirements of a ROUTE_FLANK body: flank record (1), path index (1). -/
def requirementsOf : List Byte → Option (List (Nat × Nat))
  | [] => some []
  | f :: i :: rest => (requirementsOf rest).map (fun rs => (f.toNat, i.toNat) :: rs)
  | _ => none

/-- The options of a FLANK_DEF body: form (1), element or record (2), position (1). -/
def optionsOf : List Byte → Option (List (Nat × Nat × Nat))
  | [] => some []
  | f :: h :: l :: p :: rest => (optionsOf rest).map (fun os => (f.toNat, wordOf h l, p.toNat) :: os)
  | _ => none

/-- The entries of an APPROACH_DEF body: element (2), length (2). -/
def approachesOf : List Byte → Option (List (Nat × Nat))
  | [] => some []
  | h :: l :: mh :: ml :: rest =>
    (approachesOf rest).map (fun es => (wordOf h l, wordOf mh ml) :: es)
  | _ => none

/-- The berth sections of a BOUNDARY_DEF body, two bytes each. -/
def sectionsOf : List Byte → Option (List Nat)
  | [] => some []
  | h :: l :: rest => (sectionsOf rest).map (fun es => wordOf h l :: es)
  | _ => none

/-- A list whose length a run allows: 1 to 12 (R24, R25). -/
def runOk {α : Type} (l : List α) : Bool := 1 ≤ l.length && l.length ≤ 12

/-- The fields of an ELEMENT_DEF after its kind and reaction. -/
def elementOf (n k r : Nat) (body : List Byte) : Option Record :=
  match k, body with
  | 0, [sh, sl, g, th, tl, wh, wl, u, m] =>
    some (.point n r (wordOf sh sl) g.toNat (wordOf th tl) (wordOf wh wl) u.toNat m.toNat)
  | 1, [c, u, m, p] => some (.signal n r c.toNat u.toNat m.toNat p.toNat)
  | 2, [ph, pl] => some (.track n r (wordOf ph pl))
  | 3, [b] => some (.boundary n r b.toNat)
  | _, _ => if k ≤ 3 then none else some (.oddElement n k)

/-- The record a LOAD_RECORD payload carries; `none` for an unknown kind or a body of the wrong
length, which check 1 of R34 marks. -/
def recordOf (payload : List Byte) : Option Record :=
  match payload with
  | [] => none
  | kind :: body =>
    match kind.toNat, body with
    | 0x01, h :: l :: k :: r :: rest => elementOf (wordOf h l) k.toNat r.toNat rest
    | 0x02, [rh, rl, c, nh, nl, xh, xl, pl, ol, fc, op] =>
      some (.routeHead (wordOf rh rl) c.toNat (wordOf nh nl) (wordOf xh xl) pl.toNat ol.toNat
        fc.toNat op.toNat)
    | 0x03, rh :: rl :: f :: rest =>
      (entriesOf rest).bind (fun es =>
        if runOk es then some (.routePath (wordOf rh rl) f.toNat es) else none)
    | 0x04, rh :: rl :: f :: rest =>
      (entriesOf rest).bind (fun es =>
        if runOk es then some (.routeOverlap (wordOf rh rl) f.toNat es) else none)
    | 0x05, rh :: rl :: f :: rest =>
      (requirementsOf rest).bind (fun rs =>
        if runOk rs then some (.routeFlank (wordOf rh rl) f.toNat rs) else none)
    | 0x06, i :: c :: rest =>
      (optionsOf rest).bind (fun os =>
        if os.length = c.toNat then some (.flankDef i.toNat os) else none)
    | 0x07, sh :: sl :: c :: rest =>
      (approachesOf rest).bind (fun es =>
        if es.length = c.toNat then some (.approachDef (wordOf sh sl) es) else none)
    | 0x08, b :: k :: n :: s :: hh :: hl :: c :: rest =>
      (sectionsOf rest).bind (fun es =>
        if es.length = c.toNat then
          some (.boundaryDef b.toNat k.toNat n.toNat s.toNat (wordOf hh hl) es)
        else none)
    | 0x09, [g, b, sh, sl, p] => some (.powerGroupDef g.toNat b.toNat (wordOf sh sl) p.toNat)
    | 0x0A, [g, s, h, p] => some (.stopGroupDef g.toNat s.toNat h.toNat p.toNat)
    | 0x0B, [k, s, ih, il] => some (.linkDef k.toNat s.toNat (wordOf ih il))
    | 0x0C, [i, vh, vl] => some (.timingDef i.toNat (wordOf vh vl))
    | _, _ => none

/-! ### The host's question -/

/-- The command a word spells by the table's bits. The operation table gives no row any bits (its
fixed bits and fields are all empty), so no word spells a command (log 3). -/
def decodeTableWord (_nbits _w : Nat) : Option Instr := none

end Sys2Proof
end

