-- ==== Sys2Proof/Machine/State.lean ====
section
/-! DEFINITION. The state of the 7402 as plain data. `Env` is what the hand-ons of one event read and
never change (Time Base, input levels, Definition Store, Element Table, lane presence); `Live` is
what they change (report queues, locks, slots, throws, groups, links, boundaries); `State` adds the
queue of commands that wait. -/

namespace Sys2Proof.Machine

open Sys2Proof

/-! ### Definitions of the standing set (Chapter 2) -/

/-- The fields of an element definition that depend on its kind (R2 to R4); `track` is a SECTION. -/
inductive KindDef
  | point (containing group limit slow units : Nat) (mask : BitVec 8)
  | signal (main : Bool) (units : Nat) (mask : BitVec 8) (passed : Option Nat)
  | track (pickUp : Nat)
  | boundary (number : Nat)
  deriving DecidableEq, Repr

/-- An element definition: the fault reaction (a group, or NONE) and the fields of its kind (R1). -/
structure ElementDef where
  reaction : Option Nat
  kind : KindDef
  deriving DecidableEq, Repr

/-- An entry of a path or overlap list: a section, or a point with its required position (R24). -/
structure Entry where
  element : Nat
  position : Option Position
  deriving DecidableEq, Repr

/-- The exit of a route: a SIGNAL element, or a BOUNDARY element with its boundary number (R23). -/
inductive Exit
  | signal (element : Nat)
  | boundary (element number : Nat)
  deriving DecidableEq, Repr

/-- A flank requirement: a flank record and the protected path index (R25). -/
structure Requirement where
  record : Nat
  index : Nat
  deriving DecidableEq, Repr

/-- A route definition (R23 to R25). -/
structure RouteDef where
  number : Nat
  main : Bool
  entry : Nat
  exit : Exit
  path : List Entry
  overlap : List Entry
  flank : List Requirement
  autoReclear : Bool
  storable : Bool
  deriving DecidableEq, Repr

/-- An option of a flank record (R26). -/
inductive FlankOption
  | point (element : Nat) (position : Position)
  | signal (element : Nat)
  | chain (record : Nat)
  deriving DecidableEq, Repr

/-- A flank record (R26). -/
structure FlankRecord where
  index : Nat
  options : List FlankOption
  deriving DecidableEq, Repr

/-- An entry of an approach zone: a section with its length in metres, or a remote approach (R28). -/
inductive ApproachEntry
  | track (element length : Nat)
  | remote (element number : Nat)
  deriving DecidableEq, Repr

/-- The approach zone of a MAIN signal, outward from the signal (R28). -/
structure ApproachDef where
  signal : Nat
  entries : List ApproachEntry
  deriving DecidableEq, Repr

/-- A boundary definition with its BOUNDARY element (R29). -/
structure BoundaryDef where
  number : Nat
  element : Nat
  link : Nat
  linkNumber : Nat
  seniority : Seniority
  berth : List Nat
  home : Nat
  deriving DecidableEq, Repr

/-- A power group definition (R31). -/
structure PowerDef where
  budget : Nat
  stagger : Nat
  separated : Bool
  deriving DecidableEq, Repr

/-- An area-stop group definition; the source mask's bits are those of 11.4 (R32). -/
structure StopDef where
  sources : BitVec 8
  holdThrows : Bool
  propagate : BitVec 8
  deriving DecidableEq, Repr

/-- A link definition (R30). -/
structure LinkDef where
  number : Nat
  enabled : Bool
  interval : Nat
  deriving DecidableEq, Repr

/-- The timing set, each parameter in the unit the table of R33 states. -/
structure Timing where
  settingLimit : Nat := 30
  storedLifetime : Nat := 0
  overlapTime : Nat := 60
  react : Nat := 8
  braking : Nat := 50
  holdMin : Nat := 30
  holdMax : Nat := 180
  speedValid : Nat := 60
  settle : Nat := 100
  discrepancy : Nat := 2000
  laneTimeout : Nat := 1500
  window : Nat := 250
  linkTimeout : Nat := 2000
  response : Nat := 5000
  deriving DecidableEq, Repr

/-- The standing set, with the digest and the number of records it was loaded from (R21). The element
definitions stand in the element records (R5). -/
structure Defs where
  routes : List RouteDef := []
  flanks : List FlankRecord := []
  approaches : List ApproachDef := []
  boundaries : List BoundaryDef := []
  power : List PowerDef := []
  stops : List StopDef := []
  links : List LinkDef := []
  timing : Timing := {}
  digest : Crc := 0
  records : Nat := 0
  deriving DecidableEq, Repr

/-- A record taken into the staged set: its payload, what it decodes to, and whether it was filed by
its kind and key or marked as offending (R22). -/
structure StagedRecord where
  payload : List Byte
  record : Option Record
  filed : Bool
  deriving DecidableEq, Repr

/-- The staged set, its records in arrival order, and the load digest (R21, R22, R176). -/
structure Staged where
  records : List StagedRecord
  digest : Crc
  deriving DecidableEq, Repr

/-- The Definition Store holds at most one of the two sets (R21): nothing while UNCONFIGURED, a
staged set while LOADING, a standing set while OPERATING. -/
inductive Store
  | empty
  | staged (set : Staged)
  | standing (set : Defs)
  deriving DecidableEq, Repr

/-- The part states (R21, R176 to R178). -/
inductive PartState | unconfigured | loading | operating
  deriving DecidableEq, Repr

/-! ### The Element Table (Chapter 1) -/

/-- An element record's definition and the fields the Element Table owns (R5). A view of `none` is
UNREPORTED. -/
structure Element where
  num : Nat
  dfn : ElementDef
  viewA : Option Detection
  viewB : Option Detection
  agreed : Detection
  discExpiry : Option Time
  discrepant : Bool
  occupied : Bool
  pickUp : Option Time
  occTime : Option Time
  blocked : Bool
  deriving DecidableEq, Repr

/-! ### The fields of the other blocks in an element record (R5) -/

/-- The holder of a lock (R36). -/
inductive Holder
  | slot (i : Nat)
  | berth (b : Nat)
  deriving DecidableEq, Repr

/-- The mode of a lock (R36). -/
inductive LockMode | path | overlap | berth
  deriving DecidableEq, Repr

/-- A lock: its holder and its mode (R36, R37). -/
structure Lock where
  holder : Holder
  mode : LockMode
  deriving DecidableEq, Repr

/-- A throw in flight (R95). -/
structure Flight where
  position : Position
  start : Time
  expiry : Time
  measured : Option Nat
  settle : Option Time
  deriving DecidableEq, Repr

/-- A speed record: dm/s and the time of the measurement (R126). -/
structure Speed where
  v : Nat
  time : Time
  deriving DecidableEq, Repr

/-- The fault kinds, in the order of the table of R139. -/
inductive FaultKind
  | discrepant | lostDetection | throwFail | slowThrow | lampFail | passedAtStop | linkLost
  | contest | restricted
  deriving DecidableEq, Repr

/-- A fault entry (R137). -/
structure FaultEntry where
  kind : FaultKind
  active : Bool
  first : Time
  last : Time
  count : Nat
  deriving DecidableEq, Repr

/-- The fields LKU, PTS, RSU, ATU and SVU keep in an element record (R36, R95, R78, R126, R137, R140).
`condition` says whether the lost-detection or lamp condition holds as last handed on (log 24). -/
structure Control where
  num : Nat
  lock : Option Lock
  normalCount : Nat
  reverseCount : Nat
  holdCount : Nat
  commanded : Option Position
  flight : Option Flight
  failed : Bool
  aspect : Aspect
  speed : Option Speed
  faults : List FaultEntry
  condition : Bool
  confirm : Option Time
  deriving DecidableEq, Repr

/-! ### Route slots, the stored queue, throws -/

/-- The slot states (R56). -/
inductive SlotState | free | setting | clear | held | entered | cancelling
  deriving DecidableEq, Repr

/-- The release marks of a path, overlap or berth entry (R55, R154). -/
structure Mark where
  occ : Bool
  released : Bool
  transferred : Bool
  deriving DecidableEq, Repr

/-- A protector (R81). -/
inductive Protector
  | point (element : Nat) (position : Position)
  | signal (element : Nat)
  deriving DecidableEq, Repr

/-- One record of a flank set (R81): HELD while a protector is present, RELEASED otherwise. -/
structure FlankHold where
  protector : Option Protector
  position : List (Nat × Nat)
  excluded : List (Nat × Position)
  deriving DecidableEq, Repr

/-- A route slot with its flank set (R55, R81). -/
structure Slot where
  state : SlotState
  route : Option Nat
  priority : Option Nat
  everCleared : Bool
  reclear : Bool
  setting : Option Time
  pathMarks : List Mark
  overlapMarks : List Mark
  overlapExpiry : Option Time
  hold : Option Time
  dirNeed : Bool
  accNeed : Bool
  flank : List FlankHold
  deriving DecidableEq, Repr

/-- A stored request (R63). -/
structure Stored where
  route : Nat
  priority : Nat
  arrival : Time
  expiry : Option Time
  deriving DecidableEq, Repr

/-- The origin of a throw order (R96). -/
inductive Origin
  | route (slot : Nat)
  | flank (slot : Nat)
  | lane
  deriving DecidableEq, Repr

/-- A pending throw order (R96). -/
structure ThrowOrder where
  point : Nat
  position : Position
  origin : Origin
  arrival : Time
  deriving DecidableEq, Repr

/-- A power group record (R99); its budget, stagger and pacing stand in the definitions. -/
structure PowerGroup where
  flights : Nat
  lastStart : Option Time
  lastEnd : Option Time
  stagger : Option Time
  deriving DecidableEq, Repr

/-! ### Area-stop groups, links, boundaries -/

/-- The sources of an area-stop group (R32, R131). -/
inductive Source | as0 | as1 | link (n : Nat) | lane | fault
  deriving DecidableEq, Repr

/-- An area-stop group record (R130). -/
structure StopGroup where
  active : Bool
  since : Option Time
  source : Option Source
  deriving DecidableEq, Repr

/-- The link states (R149). -/
inductive LinkState | disabled | connecting | up | lost
  deriving DecidableEq, Repr

/-- A link record (R149). The head of the transmit queue is the frame being sent; `deferred` says a
STATUS waits behind it; `lastStatus` is the last STATUS sent (R150, log 6). `hunt` holds the bytes of a
frame begun inside a discarded one and not yet whole, its start byte first (R183, log 7). -/
structure Link where
  state : LinkState
  rx : List NFrame
  tx : List NFrame
  silence : Option Time
  nextStatus : Option Time
  remoteStop : Bool
  deferred : Bool
  lastStatus : Option NFrame
  hunt : List Byte
  deriving DecidableEq, Repr

/-- A boundary record (R154). `home` is the neighbour's home aspect as last given (R157); `awaiting`
says the acceptance was left HELD by R163 and awaits consumption (log 16). -/
structure Boundary where
  num : Nat
  direction : Direction
  restricted : Bool
  reqExpiry : Option Time
  waiting : Bool
  acceptance : Acceptance
  accExpiry : Option Time
  exitSlot : Option Nat
  exitEntered : Bool
  awaiting : Bool
  berthLocked : Bool
  marks : List Mark
  resetExpiry : Option Time
  consExpiry : Option Time
  views : Option StatusEntry
  home : Aspect
  deriving DecidableEq, Repr

/-! ### Reports and lane ports -/

/-- The lane modes (R146). -/
inductive LaneMode | normal | degraded | isolated
  deriving DecidableEq, Repr

/-- The state a FAULT report carries (11.5). -/
inductive FaultState | active | gone | removed
  deriving DecidableEq, Repr

/-- What a LOAD_RESULT carries (R34, R181): a digest failure, the offending record with its check, or
success with the number of adjustments and the first eight of them. -/
inductive LoadOutcome
  | digestFailed
  | invalid (index kind check : Nat)
  | loaded (count : Nat) (adjustments : List (Nat × Nat × Nat))
  deriving DecidableEq, Repr

/-- The reports (R175, R181). A read answer carries its report code and its body bytes. -/
inductive Report
  | orderPoint (point : Nat) (position : Position)
  | orderAspect (signal : Nat) (aspect : Aspect)
  | routeState (route : Nat) (slot : Option Nat) (state : SlotState) (reason : Option Reason)
  | refused (kind operand : Nat) (reason : Reason)
  | fault (element : Nat) (kind : FaultKind) (state : FaultState) (count : Nat)
      (first last : Time) (measured : Option Nat)
  | groupState (group : Nat) (active : Bool) (source : Option Source)
  | linkState (link : Nat) (state : LinkState)
  | boundaryState (boundary : Nat) (direction : Direction) (acceptance : Acceptance)
      (berthLocked restricted : Bool) (reason : Option Nat)
  | laneMode (mode : LaneMode) (presentA presentB : Bool)
  | loadResult (outcome : LoadOutcome)
  | answer (code : Nat) (body : List Byte)
  deriving DecidableEq, Repr

/-- An entry of a pending list (R172). -/
structure PendingEntry where
  request : Request
  arrival : Time
  expiry : Time
  deriving DecidableEq, Repr

/-- A lane port and its pending list (R170, R172). `out` is the last report frame shifted out whole
(log 20). -/
structure LanePort where
  reports : List Report
  reportsLost : Bool
  requests : List PendingEntry
  out : List Byte
  deriving DecidableEq, Repr

/-! ### The whole state -/

/-- What the hand-ons of one event read and never change. -/
structure Env where
  now : Time
  as0 : Bool
  as1 : Bool
  store : Store
  startHold : Option Time
  presentA : Bool
  presentB : Bool
  silenceA : Option Time
  silenceB : Option Time
  elements : List Element
  deriving DecidableEq, Repr

/-- What the hand-ons of one event change. `reeval` is set while a re-evaluation of the stored request
queue is asked for and not yet made (R64, log 9); it is clear between commands. -/
structure Live where
  laneA : LanePort
  laneB : LanePort
  controls : List Control
  slots : List Slot
  stored : List Stored
  orders : List ThrowOrder
  power : List PowerGroup
  groups : List StopGroup
  links : List Link
  boundaries : List Boundary
  reeval : Bool
  deriving DecidableEq, Repr

/-- The machine: what hand-ons read, what they change, and the commands that wait, first in first
out. -/
structure State where
  env : Env
  live : Live
  pending : List Instr
  deriving DecidableEq, Repr

/-- The part never stops: "the part does not halt. It withdraws permission." (Chapter 8.) No command
raises a fault, so there is no constructor. -/
inductive Fault
  deriving DecidableEq, Repr

/-- Why a command has no meaning in the model. -/
inductive Refusal
  /-- Raised by an arm of `exec` for a command not modelled yet; safe. No arm raises it now. -/
  | notModelled (mnemonic : String)
  deriving DecidableEq, Repr

/-! ### The state right after reset (R178, R20, R36, R55, R95, R130, R149, R154) -/

/-- A lane port with nothing in it. -/
def LanePort.empty : LanePort := { reports := [], reportsLost := false, requests := [], out := [] }

/-- A link as it stands while it is not configured (R149). -/
def Link.off : Link :=
  { state := .disabled, rx := [], tx := [], silence := none, nextStatus := none,
    remoteStop := false, deferred := false, lastStatus := none, hunt := [] }

/-- The part with no definitions: no element records, slots, groups or boundaries, every link
DISABLED. -/
def Live.bare : Live :=
  { laneA := LanePort.empty, laneB := LanePort.empty, controls := [], slots := [], stored := [],
    orders := [], power := [], groups := [], links := List.replicate Config.linkCount Link.off,
    boundaries := [], reeval := false }

/-- UNCONFIGURED at Time Base 0 with given input levels (R178). -/
def Env.bare (as0 as1 : Bool) : Env :=
  { now := 0, as0 := as0, as1 := as1, store := .empty, startHold := none, presentA := false,
    presentB := false, silenceA := none, silenceB := none, elements := [] }

/-- The machine right after power-on (R178), both area-stop inputs not asserted (DESIGN CHOICE, log
5), no command waiting. -/
def State.reset : State := { env := Env.bare false false, live := Live.bare, pending := [] }

end Sys2Proof.Machine
end

