-- ==== Sys2Proof/Machine/Ops.lean ====
section
/-! DEFINITION. The named operations over the state: looking up and updating each table, Time Base
arithmetic, and placing reports. Every later definition reads and writes the tables through these. -/

namespace Sys2Proof

/-- The detection value a position shows as (R10). -/
def Position.detection : Position → Detection
  | .normal => .normal
  | .reverse => .reverse
/-- The other position. -/
def Position.opposite : Position → Position
  | .normal => .reverse
  | .reverse => .normal

/-- The other lane. -/
def LaneId.other : LaneId → LaneId
  | .a => .b
  | .b => .a

end Sys2Proof

namespace Sys2Proof.Machine

open Sys2Proof

/-! ### Time Base arithmetic (0.5) -/

/-- The Time Base value some milliseconds after another; it wraps at 2^32. -/
def after (t : Time) (ms : Nat) : Time := t + BitVec.ofNat 32 ms

/-- The interval from one count to a later one, modulo 2^32. -/
def elapsed (t now : Time) : Nat := (now - t).toNat

/-- An expiry has been reached: the interval since it is less than half the range of the count
(log 1). -/
def reached (now e : Time) : Bool := elapsed e now < 2147483648

/-- A running timer whose expiry has been reached. -/
def due (now : Time) : Option Time → Bool
  | some e => reached now e
  | none => false

/-! ### The part state and the definitions -/

/-- The part state is read off the Definition Store (R21). -/
def Env.part (v : Env) : PartState :=
  match v.store with
  | .empty => .unconfigured
  | .staged _ => .loading
  | .standing _ => .operating

/-- The part is OPERATING. -/
def Env.operating (v : Env) : Bool := v.part = .operating

/-- The standing set every block reads its definitions from (R21); an empty one outside OPERATING. -/
def Env.defs (v : Env) : Defs :=
  match v.store with
  | .standing d => d
  | _ => {}

/-- The timing set (R33). -/
def Env.timing (v : Env) : Timing := v.defs.timing

/-- The definition of a route (R23). -/
def Env.route? (v : Env) (r : Nat) : Option RouteDef := v.defs.routes.find? (fun x => x.number = r)
/-- A flank record (R26). -/
def Env.flank? (v : Env) (f : Nat) : Option FlankRecord := v.defs.flanks.find? (fun x => x.index = f)
/-- The approach zone of a signal; a signal with no APPROACH_DEF has a zone of no entries (R28). -/
def Env.zone (v : Env) (sig : Nat) : List ApproachEntry :=
  match v.defs.approaches.find? (fun x => x.signal = sig) with
  | some a => a.entries
  | none => []
/-- A boundary definition (R29). -/
def Env.boundary? (v : Env) (b : Nat) : Option BoundaryDef :=
  v.defs.boundaries.find? (fun x => x.number = b)
/-- A link definition; a link with none is not configured (R30). -/
def Env.link? (v : Env) (l : Nat) : Option LinkDef := v.defs.links.find? (fun x => x.number = l)
/-- A power group definition; budget 1, stagger 0, OVERLAPPED when none is loaded (R31). -/
def Env.power (v : Env) (g : Nat) : PowerDef :=
  v.defs.power.getD g { budget := 1, stagger := 0, separated := false }
/-- An area-stop group definition; empty sets and HOLD_THROWS clear when none is loaded (R32). -/
def Env.stop (v : Env) (g : Nat) : StopDef :=
  v.defs.stops.getD g { sources := 0, holdThrows := false, propagate := 0 }

/-! ### Elements (R1 to R5) -/

/-- The record of a defined element. -/
def Env.element? (v : Env) (n : Nat) : Option Element := v.elements.find? (fun e => e.num = n)

/-- The element is a POINT. -/
def Element.isPoint (e : Element) : Bool := match e.dfn.kind with | .point .. => true | _ => false
/-- The element is a SIGNAL. -/
def Element.isSignal (e : Element) : Bool := match e.dfn.kind with | .signal .. => true | _ => false
/-- The element is a MAIN signal. -/
def Element.isMain (e : Element) : Bool := match e.dfn.kind with | .signal m .. => m | _ => false
/-- The element is a SECTION. -/
def Element.isSection (e : Element) : Bool := match e.dfn.kind with | .track _ => true | _ => false
/-- The element is a BOUNDARY. -/
def Element.isBoundary (e : Element) : Bool := match e.dfn.kind with | .boundary _ => true | _ => false

/-- A test of an element that is false for an undefined one. -/
def Env.elementIs (v : Env) (n : Nat) (f : Element → Bool) : Bool :=
  match v.element? n with
  | some e => f e
  | none => false

/-- The containing section of a point (R2). -/
def Element.containing (e : Element) : Option Nat :=
  match e.dfn.kind with | .point c .. => some c | _ => none
/-- The power group of a point (R2). -/
def Element.group (e : Element) : Option Nat :=
  match e.dfn.kind with | .point _ g .. => some g | _ => none
/-- The throw limit of a point, ms (R2). -/
def Element.limit (e : Element) : Nat :=
  match e.dfn.kind with | .point _ _ t .. => t | _ => 0
/-- The slow threshold of a point, ms (R2). -/
def Element.slow (e : Element) : Nat :=
  match e.dfn.kind with | .point _ _ _ t .. => t | _ => 0
/-- The confirmation time of a point or signal, ms: units of 250 ms (R2, R3). -/
def Element.confirmation (e : Element) : Nat :=
  match e.dfn.kind with
  | .point _ _ _ _ u _ => 250 * u
  | .signal _ u _ _ => 250 * u
  | _ => 0
/-- The pick-up time of a section, ms (R4). -/
def Element.pickUpTime (e : Element) : Nat :=
  match e.dfn.kind with | .track t => t | _ => 0
/-- A point or signal is a member of an area-stop group (R2, R3). -/
def Element.member (e : Element) (g : Nat) : Bool :=
  match e.dfn.kind with
  | .point _ _ _ _ _ m => m.getLsbD g
  | .signal _ _ m _ => m.getLsbD g
  | _ => false
/-- The PASSED_AT_STOP reaction of a signal (R3). -/
def Element.passedReaction (e : Element) : Option Nat :=
  match e.dfn.kind with | .signal _ _ _ p => p | _ => none

/-- The value of a kind that grants no permission (R5). -/
def KindDef.safe : KindDef → Detection
  | .point .. => .none
  | .signal .. => .notProved
  | .track _ => .occupied
  | .boundary _ => .none

/-- The agreed value of an element (R8, R9); NONE for an undefined one. -/
def Env.agreed (v : Env) (n : Nat) : Detection :=
  match v.element? n with
  | some e => e.agreed
  | none => .none
/-- A section is filtered OCCUPIED; an undefined one counts so. -/
def Env.occupied (v : Env) (n : Nat) : Bool :=
  match v.element? n with
  | some e => e.occupied
  | none => true
/-- The blocked flag (R16). -/
def Env.blocked (v : Env) (n : Nat) : Bool := v.elementIs n Element.blocked
/-- The containing section of a point is filtered OCCUPIED. -/
def Env.pointOccupied (v : Env) (p : Nat) : Bool :=
  v.elementIs p (fun e => match e.containing with | some c => v.occupied c | none => true)
/-- Change one element record. -/
def Env.setElement (v : Env) (n : Nat) (f : Element → Element) : Env :=
  { v with elements := v.elements.map (fun e => if e.num = n then f e else e) }

/-- A point is agreed detected in a position. -/
def Env.detected (v : Env) (p : Nat) (pos : Position) : Bool := v.agreed p = pos.detection

/-! ### Control records -/

/-- The control record an element starts with (R36, R78, R95, R126, R137). -/
def Control.fresh (n : Nat) : Control :=
  { num := n, lock := none, normalCount := 0, reverseCount := 0, holdCount := 0, commanded := none,
    flight := none, failed := false, aspect := .stop, speed := none, faults := [],
    condition := false, confirm := none }

/-- The control record of an element; a fresh one where there is none. -/
def Live.control (d : Live) (n : Nat) : Control :=
  match d.controls.find? (fun c => c.num = n) with
  | some c => c
  | none => Control.fresh n

/-- Change one control record. -/
def Live.setControl (d : Live) (n : Nat) (f : Control → Control) : Live :=
  { d with controls := d.controls.map (fun c => if c.num = n then f c else c) }

/-- The flank count of a point for a position (R38). -/
def Control.count (c : Control) : Position → Nat
  | .normal => c.normalCount
  | .reverse => c.reverseCount
/-- Change the flank count of a point for a position. -/
def Control.setCount (c : Control) (pos : Position) (k : Nat) : Control :=
  match pos with
  | .normal => { c with normalCount := k }
  | .reverse => { c with reverseCount := k }

/-! ### Slots -/

/-- A FREE slot with its fields discarded (R55). -/
def Slot.free : Slot :=
  { state := .free, route := none, priority := none, everCleared := false, reclear := false,
    setting := none, pathMarks := [], overlapMarks := [], overlapExpiry := none, hold := none,
    dirNeed := false, accNeed := false, flank := [] }

/-- An entry with no release mark. -/
def Mark.none : Mark := { occ := false, released := false, transferred := false }

/-- A slot by its number; FREE where there is none. -/
def Live.slot (d : Live) (i : Nat) : Slot := d.slots.getD i Slot.free
/-- Change one slot. -/
def Live.setSlot (d : Live) (i : Nat) (f : Slot → Slot) : Live :=
  { d with slots := d.slots.modify i f }
/-- The slot numbers, in order. -/
def Live.slotIds (d : Live) : List Nat := List.range d.slots.length
/-- Apply something to every slot in slot number order. -/
def Live.eachSlot (f : Nat → Live → Live) (d : Live) : Live :=
  d.slotIds.foldl (fun d i => f i d) d
/-- A slot is active in every state other than FREE (R55). -/
def Slot.active (s : Slot) : Bool := s.state != .free
/-- The route definition a slot holds. -/
def Live.routeOf (d : Live) (v : Env) (i : Nat) : Option RouteDef :=
  if (d.slot i).active then (d.slot i).route.bind v.route? else none
/-- The lowest-numbered FREE slot (R62). -/
def Live.freeSlot (d : Live) : Option Nat := d.slotIds.find? (fun i => (d.slot i).state = .free)

/-! ### The other tables -/

/-- Change the stored request queue. -/
def Live.setStored (d : Live) (l : List Stored) : Live := { d with stored := l }
/-- Change the pending throw list. -/
def Live.setOrders (d : Live) (l : List ThrowOrder) : Live := { d with orders := l }
/-- The pending order for a point (R96). -/
def Live.order? (d : Live) (p : Nat) : Option ThrowOrder := d.orders.find? (fun o => o.point = p)
/-- A power group record with nothing in flight and no times (R99). -/
def PowerGroup.idle : PowerGroup :=
  { flights := 0, lastStart := none, lastEnd := none, stagger := none }
/-- A power group record. -/
def Live.powerGroup (d : Live) (g : Nat) : PowerGroup := d.power.getD g PowerGroup.idle
/-- Change one power group record. -/
def Live.setPower (d : Live) (g : Nat) (f : PowerGroup → PowerGroup) : Live :=
  { d with power := d.power.modify g f }
/-- An INACTIVE group (R130). -/
def StopGroup.inactive : StopGroup := { active := false, since := none, source := none }
/-- An area-stop group record. -/
def Live.group (d : Live) (g : Nat) : StopGroup := d.groups.getD g StopGroup.inactive
/-- Change one area-stop group record. -/
def Live.setGroup (d : Live) (g : Nat) (f : StopGroup → StopGroup) : Live :=
  { d with groups := d.groups.modify g f }
/-- A link record. -/
def Live.link (d : Live) (l : Nat) : Link := d.links.getD l Link.off
/-- Change one link record. -/
def Live.setLink (d : Live) (l : Nat) (f : Link → Link) : Live :=
  { d with links := d.links.modify l f }
/-- The boundary record a load or restart gives a defined boundary (R154). -/
def Boundary.fresh (b : Nat) : Boundary :=
  { num := b, direction := .neutral, restricted := false, reqExpiry := none, waiting := false,
    acceptance := .none, accExpiry := none, exitSlot := none, exitEntered := false,
    awaiting := false, berthLocked := false, marks := [], resetExpiry := none, consExpiry := none,
    views := none, home := .stop }
/-- A boundary record. -/
def Live.boundary (d : Live) (b : Nat) : Boundary :=
  match d.boundaries.find? (fun x => x.num = b) with
  | some x => x
  | none => Boundary.fresh b
/-- Change one boundary record. -/
def Live.setBoundary (d : Live) (b : Nat) (f : Boundary → Boundary) : Live :=
  { d with boundaries := d.boundaries.map (fun x => if x.num = b then f x else x) }
/-- Ask for, or take back, a re-evaluation of the stored request queue (R64). -/
def Live.setReeval (d : Live) (r : Bool) : Live := { d with reeval := r }

/-! ### Lane ports and reports (R170) -/

/-- A lane's port. -/
def Live.lane (d : Live) : LaneId → LanePort
  | .a => d.laneA
  | .b => d.laneB
/-- Change a lane's port. -/
def Live.setLane (d : Live) (l : LaneId) (f : LanePort → LanePort) : Live :=
  match l with
  | .a => { d with laneA := f d.laneA }
  | .b => { d with laneB := f d.laneB }
/-- A report placed in a report queue: discarded, with REPORTS_LOST set, when 32 reports stand in it
(R170). -/
def LanePort.place (r : Report) (p : LanePort) : LanePort :=
  if p.reports.length < Config.reportCapacity then { p with reports := p.reports ++ [r] }
  else { p with reportsLost := true }

/-- A report for one lane alone (R170). -/
def Live.reportTo (d : Live) (l : LaneId) (r : Report) : Live := d.setLane l (LanePort.place r)
/-- A report for both lanes (R170). -/
def Live.report (d : Live) (r : Report) : Live := (d.reportTo .a r).reportTo .b r

end Sys2Proof.Machine
end

