-- ==== Sys2Proof/Machine/Operands.lean ====
section
/-! DEFINITION. What the operands of requests name (the code tables of 11.5), and the request kind and
operand a REFUSED report carries (R181). -/

namespace Sys2Proof

/-- The codes of 11.5. -/
def Detection.code : Detection → Nat
  | .clear => 0 | .occupied => 1 | .normal => 2 | .reverse => 3 | .none => 4 | .proved => 5
  | .notProved => 6
/-- The codes of 11.5. -/
def Position.code : Position → Nat
  | .normal => 0 | .reverse => 1
/-- The reason codes of 11.5. -/
def Reason.code : Reason → Nat
  | .badOperand => 0x01 | .notConfigured => 0x02 | .starting => 0x03 | .laneDegraded => 0x04
  | .queueFull => 0x05 | .agreementTimeout => 0x06 | .noSlot => 0x07 | .alreadySet => 0x08
  | .busy => 0x09 | .stored => 0x0A | .storedRemoved => 0x0B | .expired => 0x0C | .notSet => 0x0D
  | .entered => 0x0E | .cancelling => 0x0F | .setting => 0x10
  | .conflict => 0x20 | .blocked => 0x21 | .faulted => 0x22 | .flankHeld => 0x23
  | .pointOccupied => 0x24 | .flankUnavailable => 0x25 | .locked => 0x26
  | .boundaryUnavailable => 0x30 | .linkBusy => 0x31 | .direction => 0x32 | .berthLocked => 0x33
  | .berthOccupied => 0x34 | .stillAsserted => 0x40 | .notActive => 0x41 | .active => 0x42
  | .noFault => 0x43 | .settingTimeout => 0x50 | .throwFailed => 0x51 | .digest => 0x60
  | .invalidDefinition => 0x61 | .clamped => 0x62

end Sys2Proof

namespace Sys2Proof.Machine

open Sys2Proof

/-- The detection value a code names; 7 (UNREPORTED) is no value a lane can report (R6, R181). -/
def detectionOf : Nat → Option Detection
  | 0 => some .clear | 1 => some .occupied | 2 => some .normal | 3 => some .reverse
  | 4 => some .none | 5 => some .proved | 6 => some .notProved | _ => none

/-- The values a lane may report for each kind (R6). -/
def KindDef.takes : KindDef → Detection → Bool
  | .track _, x => x = .clear || x = .occupied
  | .point .., x => x = .normal || x = .reverse || x = .none
  | .signal .., x => x = .proved || x = .notProved
  | .boundary _, _ => false

/-- The position a code names. -/
def positionOf : Nat → Option Position
  | 0 => some .normal | 1 => some .reverse | _ => none

/-- The fault kind a code names. -/
def faultKindOf : Nat → Option FaultKind
  | 1 => some .discrepant | 2 => some .lostDetection | 3 => some .throwFail | 4 => some .slowThrow
  | 5 => some .lampFail | 6 => some .passedAtStop | 7 => some .linkLost | 8 => some .contest
  | 9 => some .restricted | _ => none

/-- The lane a REJOIN operand names (R181). -/
def laneOf : Nat → Option LaneId
  | 0 => some .a | 1 => some .b | _ => none

/-- The codes of 11.5. -/
def FaultKind.code : FaultKind → Nat
  | .discrepant => 1 | .lostDetection => 2 | .throwFail => 3 | .slowThrow => 4 | .lampFail => 5
  | .passedAtStop => 6 | .linkLost => 7 | .contest => 8 | .restricted => 9
/-- The codes of 11.5. -/
def FaultState.code : FaultState → Nat
  | .active => 1 | .gone => 2 | .removed => 3
/-- The codes of 11.5. -/
def SlotState.code : SlotState → Nat
  | .free => 0 | .setting => 1 | .clear => 2 | .held => 3 | .entered => 4 | .cancelling => 5
/-- The codes of 11.5; `Source` bit numbers of the source mask are the same (11.4). -/
def Source.code : Source → Nat
  | .as0 => 0 | .as1 => 1 | .link n => 2 + n | .lane => 6 | .fault => 7
/-- The codes of 11.5. -/
def LinkState.code : LinkState → Nat
  | .disabled => 0 | .connecting => 1 | .up => 2 | .lost => 3
/-- The codes of R181. -/
def PartState.code : PartState → Nat
  | .unconfigured => 0 | .loading => 1 | .operating => 2
/-- The codes of R181. -/
def LaneMode.code : LaneMode → Nat
  | .normal => 0 | .degraded => 1 | .isolated => 2
/-- The codes of 11.5. -/
def LockMode.code : LockMode → Nat
  | .path => 0 | .overlap => 1 | .berth => 2
/-- The kind code of a voted request (R181). -/
def requestKind : Request → Nat
  | .setRoute .. => 0x20 | .cancelRoute _ => 0x21 | .releaseEmergency _ => 0x22
  | .throwPoint .. => 0x23 | .block _ => 0x24 | .unblock _ => 0x25 | .ackFault .. => 0x26
  | .stopSet _ => 0x27 | .stopRelease _ => 0x28 | .boundaryReset _ => 0x29 | .linkEnable _ => 0x2A
  | .linkDisable _ => 0x2B | .rejoin _ => 0x2C | .restart _ => 0x2D | .loadBegin => 0x30
  | .loadRecord _ => 0x31 | .loadEnd _ => 0x32

/-- The first operand of a voted request, 0 for a request with none (R181). -/
def requestOperand : Request → Nat
  | .setRoute r _ _ => r | .cancelRoute r => r | .releaseEmergency r => r
  | .throwPoint n _ => n | .block n => n | .unblock n => n | .ackFault n _ => n
  | .stopSet g => g | .stopRelease g => g | .boundaryReset b => b | .linkEnable l => l
  | .linkDisable l => l | .rejoin l => l | .restart o => o | .loadBegin => 0
  | .loadRecord p => operand1 p | .loadEnd g => g

/-- The REFUSED report of a voted request (R175, R181). -/
def refusal (q : Request) (r : Reason) : Report := .refused (requestKind q) (requestOperand q) r

/-- The requests taken from the PRESENT lane alone while DEGRADED (R147, R174). -/
def takenAlone : Request → Bool
  | .cancelRoute _ => true | .releaseEmergency _ => true | .ackFault .. => true
  | .block _ => true | .stopSet _ => true | _ => false

/-- The request is a REJOIN. -/
def isRejoin : Request → Bool
  | .rejoin _ => true
  | _ => false

end Sys2Proof.Machine
end

