-- ==== Sys2Proof/Machine/Flags.lean ====
section
/-! DEFINITION. The conditions the blocks read off the state: lane mode, source levels, own area-stop
flags, blocking faults, throw states, the occupation of an approach zone. -/

namespace Sys2Proof.Machine

open Sys2Proof

/-! ### Lanes (R145, R146) -/

/-- A lane's presence mark. -/
def Env.present (v : Env) : LaneId → Bool
  | .a => v.presentA
  | .b => v.presentB
/-- A lane's silence timer. -/
def Env.silence (v : Env) : LaneId → Option Time
  | .a => v.silenceA
  | .b => v.silenceB
/-- Change a lane's silence timer. -/
def Env.setSilence (v : Env) (l : LaneId) (t : Option Time) : Env :=
  match l with
  | .a => { v with silenceA := t }
  | .b => { v with silenceB := t }
/-- Change a lane's presence mark. -/
def Env.setPresent (v : Env) (l : LaneId) (p : Bool) : Env :=
  match l with
  | .a => { v with presentA := p }
  | .b => { v with presentB := p }

/-- NORMAL while both lanes are PRESENT, DEGRADED while one is LOST, ISOLATED while both are (R146). -/
def Env.mode (v : Env) : LaneMode :=
  match v.presentA, v.presentB with
  | true, true => .normal
  | false, false => .isolated
  | _, _ => .degraded

/-- The agreed value of an element under the lane mode (R8, R9). -/
def Env.deriveAgreed (v : Env) (e : Element) : Detection :=
  match v.presentA, v.presentB with
  | true, true =>
    match e.viewA, e.viewB with
    | some x, some y => if x = y then x else e.dfn.kind.safe
    | _, _ => e.dfn.kind.safe
  | true, false => e.viewA.getD e.dfn.kind.safe
  | false, true => e.viewB.getD e.dfn.kind.safe
  | false, false => e.dfn.kind.safe

/-- The discrepancy timer of an element runs while this holds (R11). -/
def Env.discrepancyHolds (v : Env) (e : Element) : Bool :=
  v.mode = .normal && e.viewA.isSome && e.viewB.isSome && e.viewA != e.viewB

/-! ### Area-stop groups (R130 to R136) -/

/-- The LINKn level (R131). -/
def Live.linkAsserted (d : Live) (l : Nat) : Bool :=
  match (d.link l).state with
  | .up => (d.link l).remoteStop
  | .lost => true
  | _ => false

/-- The level of a source; pulse sources have none (R131). -/
def levelOf (v : Env) (d : Live) : Source → Bool
  | .as0 => v.as0
  | .as1 => v.as1
  | .link n => d.linkAsserted n
  | _ => false

/-- The level sources, in the order of the start-up latch (R132). -/
def levelSources : List Source := [.as0, .as1, .link 0, .link 1, .link 2, .link 3]

/-- A source is in a group's source set (R32). -/
def Env.hasSource (v : Env) (g : Nat) (src : Source) : Bool := (v.stop g).sources.getLsbD src.code

/-- The asserted level sources of a group's source set. -/
def assertedSources (v : Env) (d : Live) (g : Nat) : List Source :=
  levelSources.filter (fun src => v.hasSource g src && levelOf v d src)

/-- The own area-stop flag of a link (R136). -/
def ownStopFlag (v : Env) (d : Live) (l : Nat) : Bool :=
  v.operating && (v.link? l).isSome &&
    (v.mode = .isolated ||
      (List.range d.groups.length).any (fun g => (d.group g).active && (v.stop g).propagate.getLsbD l))

/-- An element is a member of some active area-stop group. -/
def inActiveGroup (v : Env) (d : Live) (n : Nat) : Bool :=
  (List.range d.groups.length).any (fun g => (d.group g).active && v.elementIs n (fun e => e.member g))

/-- A point's throw starts are held by an active group whose HOLD_THROWS is set (R110). -/
def throwHeld (v : Env) (d : Live) (p : Nat) : Bool :=
  (List.range d.groups.length).any
    (fun g => (d.group g).active && (v.stop g).holdThrows && v.elementIs p (fun e => e.member g))

/-! ### Faults (R139) -/

/-- SLOW_THROW alone does not block (R139). -/
def FaultKind.blocking (k : FaultKind) : Bool := k != .slowThrow
/-- SLOW_THROW and PASSED_AT_STOP turn GONE at their raise (R138, R139). -/
def FaultKind.goneAtRaise (k : FaultKind) : Bool := k = .slowThrow || k = .passedAtStop
/-- An entry of a blocking kind stands, ACTIVE or GONE (R141). -/
def Control.faulted (c : Control) : Bool := c.faults.any (fun f => f.kind.blocking)
/-- An element carries an entry of a blocking kind. -/
def Live.faulted (d : Live) (n : Nat) : Bool := (d.control n).faulted
/-- A LAMP_FAIL entry stands on a signal, ACTIVE or GONE (R78). -/
def Live.lampFailed (d : Live) (n : Nat) : Bool :=
  (d.control n).faults.any (fun f => f.kind = .lampFail)

/-! ### Throw states and conditions (R95, R111, R140) -/

/-- STANDING: no order pending and no throw in flight (R95). -/
def Live.standing (d : Live) (p : Nat) : Bool :=
  (d.control p).flight.isNone && (d.order? p).isNone

/-- The lost-detection condition of a point (R111). -/
def lostCondition (v : Env) (d : Live) (p : Nat) : Bool :=
  match (d.control p).commanded with
  | some pos =>
    (d.control p).flight.isNone && !(d.control p).failed && !v.detected p pos && v.mode != .isolated
  | none => false

/-- The lamp condition of a signal (R140): agreed NOT_PROVED, and a view that takes part in the agreed
value holds the reported value NOT_PROVED. -/
def lampCondition (v : Env) (e : Element) : Bool :=
  e.agreed = .notProved &&
    ((v.presentA && e.viewA = some .notProved) || (v.presentB && e.viewB = some .notProved))

/-- The condition of an element that a confirmation watches (R140). -/
def watchedCondition (v : Env) (d : Live) (n : Nat) : Bool :=
  match v.element? n with
  | some e => if e.isPoint then lostCondition v d n else e.isSignal && lampCondition v e
  | none => false

/-! ### Boundaries (R154, R157) -/

/-- The link of a boundary is UP. -/
def linkUp (v : Env) (d : Live) (b : Nat) : Bool :=
  match v.boundary? b with
  | some bd => (d.link bd.link).state = .up
  | none => false

/-- The neighbour's home aspect as the Route Setter reads it (R157). -/
def neighbourHome (v : Env) (d : Live) (b : Nat) : Aspect :=
  if linkUp v d b && (d.boundary b).views.isSome then (d.boundary b).home else .stop

/-- Remote approach occupancy as the Approach Timing Unit reads it (R157). -/
def remoteOccupied (v : Env) (d : Live) (b : Nat) : Bool :=
  if linkUp v d b then
    match (d.boundary b).views with
    | some e => e.berthOccupied
    | none => true
  else true

/-- A slot needs the boundary it exits at: SETTING, CLEAR or HELD (R154). -/
def Slot.needsExit (s : Slot) : Bool := s.state = .setting || s.state = .clear || s.state = .held

/-- The boundary is busy (R154). -/
def boundaryBusy (d : Live) (b : Nat) : Bool :=
  let x := d.boundary b
  (match x.exitSlot with | some i => (d.slot i).needsExit | none => false)
    || x.acceptance != .none
    || (match x.views with | some e => e.berthLocked | none => true)

/-- The boundary is waiting on the neighbour: an exit slot with its direction need set (R154). -/
def waitingOnNeighbour (d : Live) (b : Nat) : Bool :=
  match (d.boundary b).exitSlot with
  | some i => (d.slot i).dirNeed
  | none => false

/-! ### Approach zones (R128) -/

/-- The approach zone of a signal is occupied: any entry counts, whatever its length. -/
def zoneOccupied (v : Env) (d : Live) (sig : Nat) : Bool :=
  (v.zone sig).any (fun a => match a with
    | .track n _ => v.occupied n
    | .remote _ b => remoteOccupied v d b)

end Sys2Proof.Machine
end

