-- ==== Sys2Proof/Machine/Layout.lean ====
section
/-! DEFINITION. The byte layouts that go out on a lane link: report bodies (R181, R182, 11.5), the
report frame header (R170, R181) and the report frame. -/

namespace Sys2Proof.Machine

open Sys2Proof

/-! ### Fields (R182) -/

/-- A flag: 1 when set, 0 when clear. -/
def flagByte (b : Bool) : Byte := if b then 1 else 0
/-- An optional one-byte field; absent it reads FFh. -/
def optByte : Option Nat → Byte
  | some n => byteOf n
  | none => 0xFF
/-- An optional element or route; absent it reads FFFFh. A two-byte count is sent the same way
(log 17). -/
def optWord : Option Nat → List Byte
  | some n => wordBytes n
  | none => [0xFF, 0xFF]
/-- An optional time: a presence byte, then the time, four zero bytes when absent. -/
def optTime : Option Time → List Byte
  | some t => 1 :: timeBytes t
  | none => [0, 0, 0, 0, 0]
/-- A count in one byte saturates at 255. -/
def countByte (n : Nat) : Byte := byteOf (min n 255)
/-- A flag that is absent where it does not apply. -/
def optFlag : Option Bool → Byte
  | some b => flagByte b
  | none => 0xFF

/-- A holder in two bytes: its kind and its number (R182). -/
def holderBytes : Option Lock → List Byte
  | some { holder := .slot i, .. } => [0, byteOf i]
  | some { holder := .berth b, .. } => [1, byteOf b]
  | none => [0xFF, 0xFF]

/-- A set of release marks (11.5). -/
def markByte (m : Mark) : Byte :=
  byteOf (flagBit m.occ 0 + flagBit m.released 1 + flagBit m.transferred 2)

/-- A view: a reported value, or UNREPORTED as 7 (11.5). -/
def viewByte : Option Detection → Byte
  | some x => byteOf x.code
  | none => 7

/-- The code of an element kind. -/
def KindDef.code : KindDef → Nat
  | .point .. => 0 | .signal .. => 1 | .track _ => 2 | .boundary _ => 3

/-- The berth state in one byte. -/
def berthByte (locked : Bool) : Byte := flagByte locked

/-! ### Reports (R181) -/

/-- The body of a LOAD_RESULT. -/
def LoadOutcome.bytes : LoadOutcome → List Byte
  | .digestFailed => [1, byteOf Reason.digest.code]
  | .invalid i k c => [1, byteOf Reason.invalidDefinition.code] ++ wordBytes i ++ [byteOf k, byteOf c]
  | .loaded n as =>
    if n = 0 then [0, 0] ++ wordBytes 0
    else [0, byteOf Reason.clamped.code] ++ wordBytes n
      ++ as.flatMap (fun a => wordBytes a.1 ++ [byteOf a.2.1, byteOf a.2.2])

/-- The code and body of a report. -/
def Report.content : Report → Nat × List Byte
  | .orderPoint n p => (0x81, wordBytes n ++ [byteOf p.code])
  | .orderAspect n a => (0x82, wordBytes n ++ [byteOf a.code])
  | .routeState r i st re =>
    (0x83, wordBytes r ++ [optByte i, byteOf st.code, byteOf ((re.map Reason.code).getD 0)])
  | .refused k o re => (0x84, byteOf k :: wordBytes o ++ [byteOf re.code])
  | .fault n k st c f l m =>
    (0x85, wordBytes n ++ [byteOf k.code, byteOf st.code, byteOf c] ++ timeBytes f ++ timeBytes l
      ++ (match m with | some t => wordBytes t | none => []))
  | .groupState g a src => (0x86, [byteOf g, flagByte a, optByte (src.map Source.code)])
  | .linkState l st => (0x87, [byteOf l, byteOf st.code])
  | .boundaryState b dir acc locked restr re =>
    (0x88, [byteOf b, byteOf dir.code, byteOf acc.code, berthByte locked, flagByte restr,
      byteOf (re.getD 0)])
  | .laneMode m pa pb => (0x89, [byteOf m.code, flagByte (!pa), flagByte (!pb)])
  | .loadResult o => (0x8A, o.bytes)
  | .answer c body => (c, body)

/-- The two header bytes (R170, R181), for a number of reports left in the queue. -/
def headerBytes (v : Env) (lost : Bool) (left : Nat) : List Byte :=
  [byteOf (flagBit lost 7 + v.part.code * 32
      + (if v.operating then v.mode.code * 8 else 0) + flagBit v.startHold.isSome 2),
   byteOf left]

/-- A whole report frame: kind, length, header and body, and the CRC (R169, R181). -/
def reportFrame (v : Env) (p : LanePort) : List Byte :=
  let kb : Nat × List Byte :=
    match p.reports with
    | [] => (0x80, headerBytes v p.reportsLost 0)
    | r :: rest => (r.content.1, headerBytes v p.reportsLost rest.length ++ r.content.2)
  let covered := byteOf kb.1 :: byteOf kb.2.length :: kb.2
  covered ++ wordBytes (crc16 covered).toNat

/-- The report frame goes out; shifted out whole, its report leaves the queue and REPORTS_LOST is
cleared (R169, R170). -/
def LanePort.shiftOut (v : Env) (p : LanePort) : LanePort :=
  { p with reports := p.reports.drop 1, reportsLost := false, out := reportFrame v p }

end Sys2Proof.Machine
end

