-- ==== Sys2Proof/Machine/Aspects.lean ====
section
/-! DEFINITION. The Route Setter's judgements of a slot: its entries and points, proving (R73 to R76),
the positioning condition (R68), and the commanded aspects (R78, R79). -/

namespace Sys2Proof.Machine

open Sys2Proof

/-! ### What a slot holds -/

/-- The path entries with their marks that are still the slot's. -/
def ownPath (r : RouteDef) (s : Slot) : List Entry :=
  ((r.path.zip s.pathMarks).filter (fun x => !x.2.released)).map Prod.fst
/-- The overlap entries that are still the slot's: neither released nor transferred (R73). -/
def ownOverlap (r : RouteDef) (s : Slot) : List Entry :=
  ((r.overlap.zip s.overlapMarks).filter (fun x => !x.2.released && !x.2.transferred)).map Prod.fst
/-- The protectors a slot holds (R81). -/
def protectors (s : Slot) : List Protector := s.flank.filterMap FlankHold.protector

/-- The element of a protector. -/
def Protector.element : Protector → Nat
  | .point n _ => n
  | .signal n => n

/-- The points of some entries with their required positions. -/
def entryPoints (es : List Entry) : List (Nat × Position) :=
  es.filterMap (fun e => e.position.map (fun p => (e.element, p)))
/-- The sections of some entries. -/
def entrySections (es : List Entry) : List Nat :=
  es.filterMap (fun e => match e.position with | none => some e.element | some _ => none)
/-- The flank points of a slot with their chosen positions. -/
def flankPoints (s : Slot) : List (Nat × Position) :=
  (protectors s).filterMap (fun p => match p with | .point n q => some (n, q) | .signal _ => none)
/-- The flank signals of a slot. -/
def flankSignals (s : Slot) : List Nat :=
  (protectors s).filterMap (fun p => match p with | .signal n => some n | .point .. => none)

/-- The path and overlap points of a slot (R68). -/
def slotPoints (r : RouteDef) (s : Slot) : List (Nat × Position) :=
  entryPoints (ownPath r s ++ ownOverlap r s)
/-- Every point of a slot: path, overlap and flank (R68). -/
def allPoints (r : RouteDef) (s : Slot) : List (Nat × Position) := slotPoints r s ++ flankPoints s

/-- Every element of the path, the overlap and the flank set of a slot (R73). -/
def slotElements (r : RouteDef) (s : Slot) : List Nat :=
  (ownPath r s ++ ownOverlap r s).map Entry.element ++ (protectors s).map Protector.element

/-- An event on this element concerns the slot: the element is in its path, overlap or flank set, or
is its entry signal (R74). -/
def concerns (v : Env) (d : Live) (n i : Nat) : Bool :=
  match d.routeOf v i with
  | some r => r.entry = n || (slotElements r (d.slot i)).contains n
  | none => false

/-- The slot has this point in its path, overlap or flank set. -/
def hasPoint (v : Env) (d : Live) (p i : Nat) : Bool :=
  match d.routeOf v i with
  | some r => (allPoints r (d.slot i)).any (fun x => x.1 = p)
  | none => false
/-- The slot has this point in its path or overlap. -/
def hasRoutePoint (v : Env) (d : Live) (p i : Nat) : Bool :=
  match d.routeOf v i with
  | some r => (slotPoints r (d.slot i)).any (fun x => x.1 = p)
  | none => false

/-! ### Proving (R73) -/

/-- The exit boundary's conditions of R73, with the acceptance as R157 reads it. -/
def exitProves (v : Env) (d : Live) : Exit → Bool
  | .signal _ => true
  | .boundary _ b =>
    (d.boundary b).direction = .outward && linkUp v d b && (d.boundary b).acceptance = .held
      && !(d.boundary b).restricted

/-- The sections that must be filtered CLEAR: all of a MAIN route's, and a SHUNT route's path sections
but the last (R73). -/
def sectionsToProve (r : RouteDef) (s : Slot) : List Nat :=
  if r.main then entrySections (ownPath r s ++ ownOverlap r s)
  else (entrySections (ownPath r s)).dropLast

/-- Proving holds for a slot holding this route (R73). -/
def provesRoute (v : Env) (d : Live) (r : RouteDef) (s : Slot) : Bool :=
  (slotPoints r s).all (fun x => v.detected x.1 x.2 && (d.control x.1).flight.isNone)
    && (flankPoints s).all (fun x => v.detected x.1 x.2)
    && (flankSignals s).all (fun n => (d.control n).aspect = .stop && v.agreed n = .proved)
    && (sectionsToProve r s).all (fun n => !v.occupied n)
    && exitProves v d r.exit
    && !v.blocked r.entry && !d.faulted r.entry && !inActiveGroup v d r.entry
    && (slotElements r s).all (fun n => !v.blocked n && !d.faulted n)
    && v.mode = .normal

/-- Proving holds for a slot. -/
def proves (v : Env) (d : Live) (i : Nat) : Bool :=
  match d.routeOf v i with
  | some r => provesRoute v d r (d.slot i)
  | none => false

/-! ### Aspects (R78, R79) -/

/-- The route of the slot in CLEAR whose entry signal this is (R78). -/
def clearedFrom (v : Env) (d : Live) (sig : Nat) : Option RouteDef :=
  d.slotIds.findSome? (fun i =>
    if (d.slot i).state = .clear then
      match d.routeOf v i with
      | some r => if r.entry = sig then some r else none
      | none => none
    else none)

/-- One of the five forcings of R78 fails: the signal is commanded STOP whatever its slots. -/
def forcedStop (v : Env) (d : Live) (sig : Nat) : Bool :=
  v.mode != .normal || inActiveGroup v d sig || 0 < (d.control sig).holdCount || v.blocked sig

/-- The aspect a route in CLEAR gives its entry signal (R78). -/
def routeAspect (v : Env) (d : Live) (r : RouteDef) : Aspect :=
  if !r.main then .shunt
  else match r.exit with
    | .signal x =>
      if (d.control x).aspect = .stop || d.lampFailed x then .caution else .clear
    | .boundary _ b =>
      if !linkUp v d b || neighbourHome v d b = .stop then .caution else .clear

/-- The aspect R78 gives a signal. -/
def wantedAspect (v : Env) (d : Live) (sig : Nat) : Aspect :=
  match clearedFrom v d sig with
  | some r => if forcedStop v d sig then .stop else routeAspect v d r
  | none => .stop

/-- The slot in CLEAR holds a MAIN route ending at this signal (R79). -/
def clearEndsAt (v : Env) (d : Live) (sig i : Nat) : Option Nat :=
  if (d.slot i).state = .clear then
    match d.routeOf v i with
    | some r => if r.main && r.exit = .signal sig then some r.entry else none
    | none => none
  else none

/-- A signal's aspect computed again, with the chain of R79: a change is ordered, and then computes
the entry signals of the slots in CLEAR whose MAIN route ends here, in slot number order. The first
argument bounds the chain (log 25). -/
def computeChain (v : Env) : Nat → Nat → Live → Live
  | 0, _, d => d
  | k + 1, sig, d =>
    let a := wantedAspect v d sig
    if a = (d.control sig).aspect then d
    else
      let d1 := (d.setControl sig (fun c => { c with aspect := a })).report (.orderAspect sig a)
      d1.eachSlot (fun i d2 =>
        match clearEndsAt v d2 sig i with
        | some e => computeChain v k e d2
        | none => d2)

/-! ### Slot states (R56, R75, R76) -/

/-- The ROUTE_STATE of a slot as it stands (R56). -/
def slotReport (d : Live) (i : Nat) (reason : Option Reason) : Report :=
  .routeState ((d.slot i).route.getD 0) (some i) (d.slot i).state reason

/-- Change a slot's state and report it, then compute its entry signal's aspect (R56, R79). `aspect`
computes the aspect of a signal again. -/
def changeSlotBy (aspect : Nat → Live → Live) (v : Env) (i : Nat) (f : Slot → Slot) (d : Live) : Live :=
  let d1 := d.setSlot i f
  let d2 := d1.report (slotReport d1 i none)
  match d2.routeOf v i with
  | some r => aspect r.entry d2
  | none => d2

/-- CLEAR, with ever cleared set and re-clear permitted cleared (R75, R76). -/
def Slot.toClear (s : Slot) : Slot :=
  { s with state := .clear, everCleared := true, reclear := false, setting := none }
/-- HELD (R75). -/
def Slot.toHeld (s : Slot) : Slot := { s with state := .held, setting := none }

/-- A HELD slot may clear when proving holds (R76). -/
def mayClear (v : Env) (d : Live) (i : Nat) : Bool :=
  match d.routeOf v i with
  | some r => !(d.slot i).everCleared || r.autoReclear || (d.slot i).reclear
  | none => false

/-- Proving evaluated for a slot in CLEAR or HELD (R74 to R76). `aspect` computes the aspect of a signal
again. -/
def evaluateBy (aspect : Nat → Live → Live) (v : Env) (i : Nat) (d : Live) : Live :=
  match (d.slot i).state with
  | .clear =>
    if proves v d i then
      match d.routeOf v i with
      | some r => aspect r.entry d
      | none => d
    else changeSlotBy aspect v i Slot.toHeld d
  | .held => if proves v d i && mayClear v d i then changeSlotBy aspect v i Slot.toClear d else d
  | _ => d

/-- The commanded aspect of a flank signal of a slot differs between two states (R74). -/
def flankTurned (before after_ : Live) (i : Nat) : Bool :=
  (flankSignals (after_.slot i)).any
    (fun n => (before.control n).aspect != (after_.control n).aspect)

/-- A signal's aspect computed again with its chain (R79); then every slot a flank signal of which has
changed its commanded aspect is evaluated, in slot number order (R74, log 23). The first argument bounds
the evaluations inside evaluations (log 25). -/
def computeTurns (v : Env) : Nat → Nat → Live → Live
  | 0, sig, d => computeChain v 50 sig d
  | k + 1, sig, d =>
    let d1 := computeChain v 50 sig d
    d1.eachSlot (fun i e =>
      if flankTurned d d1 i then evaluateBy (fun n x => computeTurns v k n x) v i e else e)

/-- A signal's aspect computed again (R79). -/
def computeAspect (v : Env) (sig : Nat) (d : Live) : Live := computeTurns v 50 sig d

/-- The entry signals of the slots in CLEAR whose MAIN route ends at a signal, computed again: its
LAMP_FAIL entry was raised or removed (R79, R141). -/
def computeRear (v : Env) (sig : Nat) (d : Live) : Live :=
  d.eachSlot (fun i d1 =>
    match clearEndsAt v d1 sig i with
    | some e => computeAspect v e d1
    | none => d1)

/-- Change a slot's state and report it, then compute its entry signal's aspect (R56, R79). -/
def changeSlot (v : Env) (i : Nat) (f : Slot → Slot) (d : Live) : Live :=
  changeSlotBy (computeAspect v) v i f d

/-- Proving evaluated for a slot in CLEAR or HELD (R74 to R76). -/
def evaluate (v : Env) (i : Nat) (d : Live) : Live := evaluateBy (computeAspect v) v i d

/-- Every slot an event on this element concerns, evaluated in slot number order (R74). -/
def evaluateElement (v : Env) (n : Nat) (d : Live) : Live :=
  d.eachSlot (fun i d1 => if concerns v d1 n i then evaluate v i d1 else d1)

/-- Every slot whose flank set has this signal, evaluated in slot number order (R10, R74). -/
def evaluateFlank (v : Env) (n : Nat) (d : Live) : Live :=
  d.eachSlot (fun i d1 => if (flankSignals (d1.slot i)).contains n then evaluate v i d1 else d1)

/-- Every slot whose entry signal is a member of a group, evaluated (R132, R135). -/
def evaluateMembers (v : Env) (g : Nat) (d : Live) : Live :=
  d.eachSlot (fun i d1 =>
    match d1.routeOf v i with
    | some r => if v.elementIs r.entry (fun e => e.member g) then evaluate v i d1 else d1
    | none => d1)

/-- Every member signal of a group, its aspect computed in signal number order (R132, R135). -/
def computeMembers (v : Env) (g : Nat) (d : Live) : Live :=
  v.elements.foldl (fun d1 e => if e.isSignal && e.member g then computeAspect v e.num d1 else d1) d

/-! ### Positioning (R68) -/

/-- A point is positioned: commanded as required, no order pending, no throw in flight (R68). -/
def positioned (d : Live) (p : Nat) (pos : Position) : Bool :=
  (d.control p).commanded = some pos && d.standing p

/-- The points of a slot not yet positioned, each once (R80). -/
def unpositioned (v : Env) (d : Live) (i : Nat) : List Nat :=
  match d.routeOf v i with
  | some r =>
    (((allPoints r (d.slot i)).filter (fun x => !positioned d x.1 x.2)).map Prod.fst).eraseDups
  | none => []

/-- The positioning condition of a slot (R68). -/
def positioningHolds (v : Env) (d : Live) (i : Nat) : Bool :=
  match d.routeOf v i with
  | some r =>
    (allPoints r (d.slot i)).all (fun x => positioned d x.1 x.2)
      && (match r.exit with
          | .signal _ => true
          | .boundary _ b => (d.boundary b).acceptance = .held)
  | none => false

/-- The positioning condition tested for a slot in SETTING whose setting timer runs; when it holds,
the timer is cancelled and the slot becomes CLEAR or HELD by proving (R68, R75). A slot still under
take-up is tested only by its own step 7 (log 10). -/
def testPositioning (v : Env) (i : Nat) (d : Live) : Live :=
  if (d.slot i).state = .setting && (d.slot i).setting.isSome && positioningHolds v d i then
    changeSlot v i (if proves v d i then Slot.toClear else Slot.toHeld) d
  else d

/-- The positioning condition tested for every slot that has a point, in slot number order (R68). -/
def testPoint (v : Env) (p : Nat) (d : Live) : Live :=
  d.eachSlot (fun i d1 => if hasPoint v d1 p i then testPositioning v i d1 else d1)

end Sys2Proof.Machine
end

