-- ==== Sys2Proof/Machine/Supervision.lean ====
section
/-! DEFINITION. The Supervision Unit: the fault map (R137 to R142), area-stop groups (R132, R135),
the confirmation of lost detection and of lamps (R140). -/

namespace Sys2Proof.Machine

open Sys2Proof

/-! ### Area-stop groups (R132, R135) -/

/-- A group reached by an event of a source: an INACTIVE group with the source in its source set
becomes ACTIVE, and the change is handed on (R132). -/
def latch (v : Env) (src : Source) (g : Nat) (d : Live) : Live :=
  if g < d.groups.length && v.hasSource g src && !(d.group g).active then
    let d1 := d.setGroup g (fun _ => { active := true, since := some v.now, source := some src })
    let d2 := d1.report (.groupState g true (some src))
    computeMembers v g (evaluateMembers v g d2)
  else d

/-- One event of a source applied to every group in group number order (R132). -/
def latchAll (v : Env) (src : Source) (d : Live) : Live :=
  (List.range d.groups.length).foldl (fun d1 g => latch v src g d1) d

/-- A group set INACTIVE and its release handed to the Route Setter (R135); the arbiters are run by
the caller. -/
def unlatch (v : Env) (g : Nat) (d : Live) : Live :=
  let d1 := d.setGroup g (fun _ => StopGroup.inactive)
  let d2 := d1.report (.groupState g false none)
  (evaluateMembers v g (computeMembers v g d2)).setReeval true

/-- An asserting edge of a level source, judged by its level before and after (R131, R132). -/
def edge (v : Env) (src : Source) (was : Bool) (d : Live) : Live :=
  if !was && levelOf v d src then latchAll v src d else d

/-! ### The fault map (R137, R138) -/

/-- The entry of a kind in a fault map. -/
def Control.fault? (c : Control) (k : FaultKind) : Option FaultEntry :=
  c.faults.find? (fun f => f.kind = k)

/-- An entry put in its place by kind, in the order of the table of R139, replacing one of its kind. -/
def insertFault (f : FaultEntry) : List FaultEntry → List FaultEntry
  | [] => [f]
  | x :: xs =>
    if x.kind = f.kind then f :: xs
    else if f.kind.code < x.kind.code then f :: x :: xs
    else x :: insertFault f xs

/-- The entry a raise leaves: a new one, or a recurrence (R138); SLOW_THROW and PASSED_AT_STOP turn
GONE at their raise. -/
def raisedEntry (now : Time) (k : FaultKind) (old : Option FaultEntry) : FaultEntry :=
  match old with
  | some f => { f with active := !k.goneAtRaise, last := now, count := min (f.count + 1) 255 }
  | none => { kind := k, active := !k.goneAtRaise, first := now, last := now, count := 1 }

/-- The FAULT report of an entry (R138). -/
def faultReport (n : Nat) (f : FaultEntry) (st : FaultState) (measured : Option Nat) : Report :=
  .fault n f.kind st f.count f.first f.last measured

/-- The state an entry is in. -/
def FaultEntry.state (f : FaultEntry) : FaultState := if f.active then .active else .gone

/-- A change of an entry handed to the Route Setter: proving for the slots concerned, and for LAMP_FAIL
the aspects of the routes ending at the signal (R141). -/
def faultHandOn (v : Env) (n : Nat) (k : FaultKind) (d : Live) : Live :=
  let d1 := if k.blocking then evaluateElement v n d else d
  if k = .lampFail then computeRear v n d1 else d1

/-- The group a raise pulses: the PASSED_AT_STOP reaction at every such raise, the fault reaction when
an entry of another blocking kind becomes ACTIVE (R142). -/
def pulsed (v : Env) (n : Nat) (k : FaultKind) (becameActive : Bool) : Option Nat :=
  match v.element? n with
  | some e =>
    if k = .passedAtStop then e.passedReaction
    else if k.blocking && becameActive then e.dfn.reaction
    else none
  | none => none

/-- A raise of a kind on an element, with the measured time of a SLOW_THROW (R138, R141, R142). -/
def raise (v : Env) (n : Nat) (k : FaultKind) (measured : Option Nat) (d : Live) : Live :=
  let old := (d.control n).fault? k
  let f := raisedEntry v.now k old
  let wasActive := match old with | some x => x.active | none => false
  let d1 := d.setControl n (fun c => { c with faults := insertFault f c.faults })
  let d2 := d1.report (faultReport n f f.state measured)
  let d3 := match pulsed v n k (!wasActive) with | some g => latch v .fault g d2 | none => d2
  faultHandOn v n k d3

/-- An event that ends a fault: an ACTIVE entry turns GONE (R138, R139). -/
def endFault (v : Env) (n : Nat) (k : FaultKind) (d : Live) : Live :=
  match (d.control n).fault? k with
  | some f =>
    if f.active then
      let g := { f with active := false }
      let d1 := d.setControl n (fun c => { c with faults := insertFault g c.faults })
      faultHandOn v n k (d1.report (faultReport n g .gone none))
    else d
  | none => d

/-- An acknowledged entry removed and handed on (R141, R143). The report has no measured time, for a SLOW_THROW
too: R138 gives one to a raise, and the layout of R181 does not say that a removal has none (DESIGN CHOICE,
log 14). -/
def removeFault (v : Env) (n : Nat) (f : FaultEntry) (d : Live) : Live :=
  let d1 := d.setControl n (fun c => { c with faults := c.faults.filter (fun x => x.kind != f.kind) })
  let d2 := d1.report (faultReport n f .removed none)
  let d3 := faultHandOn v n f.kind d2
  if f.kind.blocking then d3.setReeval true else d3

/-! ### Confirmations (R140) -/

/-- The lost-detection or lamp condition of an element judged again: its beginning starts the
confirmation, its end cancels it (R111, R140). -/
def reconsider (v : Env) (n : Nat) (d : Live) : Live :=
  let holds := watchedCondition v d n
  let c := d.control n
  if holds && !c.condition then
    match v.element? n with
    | some e =>
      d.setControl n (fun c =>
        { c with condition := true, confirm := some (after v.now e.confirmation) })
    | none => d
  else if !holds && c.condition then
    d.setControl n (fun c => { c with condition := false, confirm := none })
  else d

/-- A point found STANDING with agreed detection equal to its commanded position: an ACTIVE
LOST_DETECTION entry turns GONE (R10, R139). -/
def foundInPosition (v : Env) (p : Nat) (d : Live) : Live :=
  match (d.control p).commanded with
  | some pos => if d.standing p && v.detected p pos then endFault v p .lostDetection d else d
  | none => d

end Sys2Proof.Machine
end

