-- ==== Sys2Proof/Machine/Throws.lean ====
section
/-! DEFINITION. The Point Throw Sequencer: orders (R96, R97), the arbiter (R99 to R103), throws in
flight (R104 to R107), withdrawal (R109). -/

namespace Sys2Proof.Machine

open Sys2Proof

/-- The power group of a point. -/
def Env.groupOf (v : Env) (p : Nat) : Nat := ((v.element? p).bind Element.group).getD 0

/-! ### Power groups (R99) -/

/-- The stagger condition of a group is met (R99). -/
def staggerMet (v : Env) (d : Live) (g : Nat) : Bool :=
  let def_ := v.power g
  let ref := if def_.separated then (d.powerGroup g).lastEnd else (d.powerGroup g).lastStart
  def_.stagger = 0 || (match ref with | some t => def_.stagger ≤ elapsed t v.now | none => true)

/-- Both group conditions of R100. -/
def groupReady (v : Env) (d : Live) (g : Nat) : Bool :=
  (d.powerGroup g).flights < (v.power g).budget && staggerMet v d g

/-- The point conditions of R100. -/
def pointReady (v : Env) (d : Live) (p : Nat) : Bool :=
  !v.pointOccupied p && !v.blocked p && !throwHeld v d p && v.mode = .normal

/-- A throw start counted in its group (R99, R102). -/
def PowerGroup.start (def_ : PowerDef) (now : Time) (x : PowerGroup) : PowerGroup :=
  { x with
    flights := x.flights + 1, lastStart := some now
    stagger := if !def_.separated && 0 < def_.stagger then some (after now def_.stagger) else x.stagger }

/-- A throw end counted in its group (R99, R105, R106). -/
def PowerGroup.finish (def_ : PowerDef) (now : Time) (x : PowerGroup) : PowerGroup :=
  { x with
    flights := x.flights - 1, lastEnd := some now
    stagger := if def_.separated && 0 < def_.stagger then some (after now def_.stagger) else x.stagger }

/-! ### Completion (R104, R105) -/

/-- What a completion does with the stored request queue at its place in step 4 of R105. The number is the
group whose arbiter's run is being made, if one is. -/
abbrev Requeue := Env → Option Nat → Live → Live

/-- The re-evaluation stays asked for: inside a re-evaluation (R64), a take-up (R62) or the hand-on of a
release (R53, R64), at whose end it is made (log 9). -/
def Requeue.later : Requeue := fun _ _ d => d

/-- The hand-ons of a completion that come before the stored request queue: THROW_FAIL and
LOST_DETECTION turn GONE, in this order (DESIGN CHOICE, log 38), the condition is judged again, positioning
is tested (R105, steps 3 and 4, R139). -/
def completionFirst (v : Env) (p : Nat) (d : Live) : Live :=
  let d1 := foundInPosition v p (endFault v p .throwFail d)
  (testPoint v p (reconsider v p d1)).setReeval true

/-- A completion handed on in full: positioning is tested, the stored request queue is re-evaluated, proving
is evaluated (R105, steps 3 and 4). -/
def completion (q : Requeue) (v : Env) (run : Option Nat) (p : Nat) (d : Live) : Live :=
  evaluateElement v p (q v run (completionFirst v p d))

/-- Steps 1 and 2 of R105 for a throw in flight: the record is discarded, the group counts the end, a
slow throw is raised. -/
def endFlight (v : Env) (p : Nat) (f : Flight) (d : Live) : Live :=
  let g := v.groupOf p
  let d1 := d.setControl p (fun c => { c with flight := none })
  let d2 := d1.setPower g (PowerGroup.finish (v.power g) v.now)
  match f.measured with
  | some m => if v.elementIs p (fun e => e.slow < m) then raise v p .slowThrow (some m) d2 else d2
  | none => d2

/-- Agreed detection stands in the ordered position of a throw in flight: the first arrival records the
measured time, and the settle timer starts afresh (R104). -/
def Flight.arrive (now : Time) (settle : Nat) (f : Flight) : Flight :=
  { f with
    measured := match f.measured with | some m => some m | none => some (elapsed f.start now)
    settle := some (after now settle) }

/-- The first arrival or a return to the position applied to a point's throw in flight. With a settle
time of 0 the throw ends at once, and the answer says that it has (R104). -/
def arrival (v : Env) (p : Nat) (d : Live) : Live × Option Flight :=
  match (d.control p).flight with
  | some f =>
    if v.detected p f.position then
      let f1 := f.arrive v.now v.timing.settle
      let d1 := d.setControl p (fun c => { c with flight := some f1 })
      if v.timing.settle = 0 then (d1, some f1) else (d1, none)
    else (d, none)
  | none => (d, none)

/-! ### Starts and immediate completions (R102, R103) -/

/-- The order for a point leaves the list. -/
def Live.dropOrder (d : Live) (p : Nat) : Live := d.setOrders (d.orders.filter (fun o => o.point != p))

/-- A throw starts (R102). The answer says whether a throw of the group also ended, which takes a
settle time of 0 and detection already in position. -/
def startThrow (q : Requeue) (v : Env) (g : Nat) (o : ThrowOrder) (d : Live) : Live × Bool :=
  let p := o.point
  let limit := match v.element? p with | some e => e.limit | none => 0
  let f : Flight :=
    { position := o.position, start := v.now, expiry := after v.now limit, measured := none,
      settle := none }
  let d1 := (d.dropOrder p).setControl p
    (fun c => { c with flight := some f, commanded := some o.position, failed := false })
  let d2 := d1.setPower g (PowerGroup.start (v.power g) v.now)
  let d3 := d2.report (.orderPoint p o.position)
  let d4 := reconsider v p (evaluateElement v p d3)
  match arrival v p d4 with
  | (d5, some f1) => (completion q v (some g) p (endFlight v p f1 d5), true)
  | (d5, none) => (d5, false)

/-- An order completes at once, without a throw (R103). -/
def completeAtOnce (q : Requeue) (v : Env) (g : Nat) (o : ThrowOrder) (d : Live) : Live :=
  let p := o.point
  let d1 := (d.dropOrder p).setControl p
    (fun c => { c with commanded := some o.position, failed := false })
  completion q v (some g) p (d1.report (.orderPoint p o.position))

/-- One order judged in an arbiter's run (R101, steps 1 to 4). -/
def arbitrate (q : Requeue) (v : Env) (g : Nat) (o : ThrowOrder) (d : Live) : Live × Bool :=
  if !pointReady v d o.point then (d, false)
  else if v.detected o.point o.position then (completeAtOnce q v g o d, false)
  else if groupReady v d g then startThrow q v g o d
  else (d, false)

/-- The order that stands for a point when a run comes to it, judged. -/
def arbitrateAt (q : Requeue) (v : Env) (g : Nat) (acc : Live × Bool) (p : Nat) : Live × Bool :=
  match acc.1.order? p with
  | some o => ((arbitrate q v g o acc.1).1, acc.2 || (arbitrate q v g o acc.1).2)
  | none => acc

/-- One run through the group's pending orders in list order (R101). -/
def arbiterRun (q : Requeue) (v : Env) (g : Nat) (d : Live) : Live × Bool :=
  ((d.orders.filter (fun o => v.groupOf o.point = g)).map ThrowOrder.point).foldl (arbitrateAt q v g)
    (d, false)

/-- The arbiter of a group: a run, and one further run while in it a throw of the group ended, or a stored
request was taken up, which may have handed an order to the group (R101). The first argument bounds the
runs (log 25). -/
def arbiterRuns (q : Requeue) (v : Env) (g : Nat) : Nat → Live → Live
  | 0, d => d
  | k + 1, d =>
    let r := arbiterRun q v g d
    if r.2 || r.1.stored.length < d.stored.length then arbiterRuns q v g k r.1 else r.1

/-- The arbiter of a group runs (R101). -/
def runArbiter (q : Requeue) (v : Env) (g : Nat) (d : Live) : Live :=
  arbiterRuns q v g ((Config.orderCapacity + 1) * (d.stored.length + 1)) d

/-- The arbiter of a group runs unless a run of it is being made, which is followed by a further run
(R101). -/
def callArbiter (q : Requeue) (v : Env) (run : Option Nat) (g : Nat) (d : Live) : Live :=
  if run = some g then d else runArbiter q v g d

/-- The arbiters of the groups that one event reaches, in ascending group number (DESIGN CHOICE,
log 37). -/
def runArbiters (q : Requeue) (v : Env) (which : Nat → Live → Bool) (d : Live) : Live :=
  (List.range d.power.length).foldl (fun d1 g => if which g d1 then runArbiter q v g d1 else d1) d

/-- The group has a pending order for a point that passes a test. -/
def hasOrder (v : Env) (test : Nat → Bool) (g : Nat) (d : Live) : Bool :=
  d.orders.any (fun o => v.groupOf o.point = g && test o.point)

/-! ### Orders (R96, R97, R107) -/

/-- A throw in flight re-targeted (R107). With a settle time of 0 and detection already in position the
throw completes, and the arbiter of its group runs. -/
def retarget (q : Requeue) (v : Env) (run : Option Nat) (p : Nat) (pos : Position) (d : Live) : Live :=
  let limit := match v.element? p with | some e => e.limit | none => 0
  let f : Flight :=
    { position := pos, start := v.now, expiry := after v.now limit, measured := none, settle := none }
  let d1 := d.setControl p (fun c => { c with flight := some f, commanded := some pos })
  let r := arrival v p (d1.report (.orderPoint p pos))
  let d3 := evaluateElement v p r.1
  match r.2 with
  | some f1 => callArbiter q v run (v.groupOf p) (completion q v run p (endFlight v p f1 d3))
  | none => d3

/-- An order handed to the Point Throw Sequencer (R96, R97). -/
def applyOrder (q : Requeue) (v : Env) (run : Option Nat) (p : Nat) (pos : Position) (org : Origin)
    (d : Live) : Live :=
  match (d.control p).flight with
  | some f => if f.position = pos then d else retarget q v run p pos d
  | none =>
    match d.order? p with
    | some _ =>
      let d1 := d.setOrders (d.orders.map (fun o =>
        if o.point = p then { o with position := pos, origin := org } else o))
      callArbiter q v run (v.groupOf p) d1
    | none =>
      if d.orders.length < Config.orderCapacity then
        let d1 := d.setOrders (d.orders ++
          [{ point := p, position := pos, origin := org, arrival := v.now }])
        callArbiter q v run (v.groupOf p) d1
      else d

/-- A point needs an order toward a position: it is not commanded there, or an order toward the other
position stands pending. None is handed where one toward the position already stands (R47, R84). -/
def needsOrder (d : Live) (p : Nat) (pos : Position) : Bool :=
  match d.order? p with
  | some o => o.position != pos
  | none => (d.control p).commanded != some pos

/-! ### Throw ends at the timers and at detection (R104 to R106, R10) -/

/-- The agreed detection of a point has changed: a throw in flight takes it (R104), the lost-detection
condition is judged again (R111), LOST_DETECTION may turn GONE (R139). The answer is the throw that
ended, with a settle time of 0. -/
def detectionChanged (v : Env) (p : Nat) (d : Live) : Live × Option Flight :=
  match (d.control p).flight with
  | some f =>
    if v.detected p f.position then arrival v p d
    else (d.setControl p (fun c => { c with flight := some { f with settle := none } }), none)
  | none => (foundInPosition v p (reconsider v p d), none)

/-- Step 1 of R106: the throw is discarded as failed and its group counts the end. -/
def failFlight (v : Env) (p : Nat) (d : Live) : Live :=
  let g := v.groupOf p
  let d1 := d.setControl p (fun c => { c with flight := none, failed := true })
  reconsider v p (d1.setPower g (PowerGroup.finish (v.power g) v.now))

/-! ### Withdrawal (R109) -/

/-- The position a slot's route requires of a point. -/
def requiredBy (v : Env) (d : Live) (i p : Nat) : Option Position :=
  match d.routeOf v i with
  | some r => ((entryPoints (r.path ++ r.overlap)).find? (fun x => x.1 = p)).map Prod.snd
  | none => none

/-- The position in which a point is locked: that its holder's route requires (R83). -/
def lockedPosition (v : Env) (d : Live) (p : Nat) : Option Position :=
  match (d.control p).lock with
  | some { holder := .slot i, .. } => requiredBy v d i p
  | _ => none

/-- The position that a lock or a nonzero flank count requires of a point (R109). -/
def requiredPosition (v : Env) (d : Live) (p : Nat) : Option Position :=
  match lockedPosition v d p with
  | some pos => some pos
  | none =>
    if 0 < (d.control p).normalCount then some .normal
    else if 0 < (d.control p).reverseCount then some .reverse
    else none

/-- A slot holds a point: by its lock, or as a protector (R109). -/
def slotHolds (d : Live) (i p : Nat) : Bool :=
  (match (d.control p).lock with | some l => l.holder = .slot i | none => false)
    || (flankPoints (d.slot i)).any (fun x => x.1 = p)

/-- The slot an order came from. -/
def Origin.slot : Origin → Option Nat
  | .route i => some i
  | .flank i => some i
  | .lane => none

/-- A pending order no longer stands after a release (R109). -/
def orderFalls (v : Env) (d : Live) (o : ThrowOrder) : Bool :=
  match o.origin.slot with
  | none => false
  | some i =>
    match requiredPosition v d o.point with
    | none => true
    | some pos =>
      pos != o.position
        || (!slotHolds d i o.point && (d.control o.point).commanded = some o.position)

/-- A point handed on after a release: its pending order is withdrawn, which may complete the positioning
of slots, or stays (R53, R109). -/
def withdrawOrder (v : Env) (p : Nat) (d : Live) : Live :=
  match d.order? p with
  | some o => if orderFalls v d o then testPoint v p (d.dropOrder p) else d
  | none => d

/-- The points of one release handed on. Every order that no longer stands is withdrawn before the arbiter
of any point's group runs, so that no run starts a throw that no lock or count requires (R53, R101, R109).
The points are taken in the order in which their locks and counts were removed (log 35). -/
def pointsReleased (v : Env) (ps : List Nat) (d : Live) : Live :=
  let d1 := ps.foldl (fun d p => withdrawOrder v p d) d
  ps.foldl (fun d p => runArbiter .later v (v.groupOf p) d) d1

end Sys2Proof.Machine
end

