-- ==== Sys2Proof/Machine/Locking.lean ====
section
/-! DEFINITION. The Locking Unit and the Flank Search Unit: removals and give-ups gathered into one
release (R48 to R53), the flank search (R82 to R86), taking and excluding protectors (R84, R89). -/

namespace Sys2Proof.Machine

open Sys2Proof

/-! ### Releases (R48 to R53) -/

/-- What one release has removed so far: the state, the points it concerns, the signals whose count
fell to 0, and whether it removed anything that the stored request queue is told of (R53). -/
structure Release where
  live : Live
  points : List Nat
  signals : List Nat
  any : Bool
  deriving DecidableEq, Repr

/-- A release that has removed nothing yet. -/
def Release.start (d : Live) : Release := { live := d, points := [], signals := [], any := false }

/-- An element added to a list that names each once. -/
def addOnce (n : Nat) (l : List Nat) : List Nat := if l.contains n then l else l ++ [n]

/-- A removal request: the lock goes when the present holder is the one named (R48). -/
def Release.removeLock (v : Env) (h : Holder) (n : Nat) (r : Release) : Release :=
  match (r.live.control n).lock with
  | some l =>
    if l.holder = h then
      { r with
        live := r.live.setControl n (fun c => { c with lock := none })
        points := if v.elementIs n Element.isPoint then addOnce n r.points else r.points
        any := true }
    else r
  | none => r

/-- Several removal requests of one holder. -/
def Release.removeLocks (v : Env) (h : Holder) (ns : List Nat) (r : Release) : Release :=
  ns.foldl (fun r n => r.removeLock v h n) r

/-- A protector given up: its count falls by one, and a count that reaches 0 is noted (R51). -/
def Release.giveUp (q : Protector) (r : Release) : Release :=
  match q with
  | .point n pos =>
    let k := (r.live.control n).count pos
    let r1 := { r with live := r.live.setControl n (fun c => c.setCount pos (k - 1)) }
    if k = 1 then { r1 with points := addOnce n r1.points, any := true } else r1
  | .signal n =>
    let k := (r.live.control n).holdCount
    let r1 := { r with live := r.live.setControl n (fun c => { c with holdCount := k - 1 }) }
    if k = 1 then { r1 with signals := addOnce n r1.signals, any := true } else r1

/-- A flank record RELEASED (R81). -/
def FlankHold.released : FlankHold := { protector := none, position := [], excluded := [] }

/-- One flank requirement of a slot given up, once (R94). -/
def Release.giveUpRecord (i k : Nat) (r : Release) : Release :=
  match (r.live.slot i).flank[k]? with
  | some h =>
    let r1 := { r with live := r.live.setSlot i (fun s =>
      { s with flank := s.flank.set k FlankHold.released }) }
    match h.protector with
    | some q => r1.giveUp q
    | none => r1
  | none => r

/-- Several flank requirements given up, in requirement order. -/
def Release.giveUpRecords (i : Nat) (ks : List Nat) (r : Release) : Release :=
  ks.foldl (fun r k => r.giveUpRecord i k) r

/-- A release handed on: its points to the Point Throw Sequencer, its signals to the Route Setter, one
re-evaluation to the stored request queue (R51, R53). R53 gives the points no order; the model's is that
of their removal (log 35). -/
def Release.handOn (v : Env) (r : Release) : Live :=
  let d1 := pointsReleased v r.points r.live
  let d2 := r.signals.foldl (fun d n => computeAspect v n d) d1
  if r.any then d2.setReeval true else d2

/-- The whole-slot release up to the slot becoming FREE: every lock and protector still held goes
(R50, R94). -/
def wholeRelease (v : Env) (i : Nat) (r : Release) : Release :=
  let r1 :=
    match r.live.routeOf v i with
    | some rt =>
      let s := r.live.slot i
      let r0 := r.removeLocks v (.slot i) ((ownPath rt s ++ ownOverlap rt s).map Entry.element)
      r0.giveUpRecords i (List.range s.flank.length)
    | none => r
  { r1 with live := (r1.live.setSlot i (fun _ => Slot.free)).setReeval true }

/-! ### The flank search (R82 to R86) -/

/-- A protector stands in an excluded set. -/
def excludes (ex : List (Nat × Position)) (p : Nat) (pos : Position) : Bool := ex.contains (p, pos)

/-- A point must move to be in a position: it is not commanded there (R42, R83). -/
def mustMove (d : Live) (p : Nat) (pos : Position) : Bool := (d.control p).commanded != some pos

/-- A POINT option, which names a defined POINT (R26), is takeable (R83). -/
def pointTakeable (v : Env) (d : Live) (ex : List (Nat × Position)) (p : Nat) (pos : Position) : Bool :=
  v.elementIs p Element.isPoint && !v.blocked p && !d.faulted p
    && (d.control p).count pos.opposite = 0
    && lockedPosition v d p != some pos.opposite
    && (!mustMove d p pos || lockedPosition v d p = some pos
        || ((d.control p).lock.isNone && !v.pointOccupied p))
    && !excludes ex p pos

/-- The signal is the entry signal of an active slot. -/
def entersSlot (v : Env) (d : Live) (sig : Nat) : Bool :=
  d.slotIds.any (fun i => match d.routeOf v i with | some r => r.entry = sig | none => false)

/-- A SIGNAL option, which names a defined SIGNAL (R26), is takeable (R85). -/
def signalTakeable (v : Env) (d : Live) (sig : Nat) : Bool :=
  v.elementIs sig Element.isSignal && !entersSlot v d sig && !v.blocked sig && !d.faulted sig

/-- The search of a flank record from one of its options on; chains are searched depth first (R82,
R86). The first argument bounds the depth: no loaded record is deeper than four (R27). -/
def searchFrom (v : Env) (d : Live) (ex : List (Nat × Position)) :
    Nat → Nat → Nat → Option (Protector × List (Nat × Nat))
  | 0, _, _ => none
  | k + 1, f, start =>
    match v.flank? f with
    | none => none
    | some rec =>
      (rec.options.zipIdx.drop start).findSome? (fun oj =>
        match oj.1 with
        | .point p pos =>
          if pointTakeable v d ex p pos then some (.point p pos, [(f, oj.2)]) else none
        | .signal n => if signalTakeable v d n then some (.signal n, [(f, oj.2)]) else none
        | .chain g => (searchFrom v d ex k g 0).map (fun q => (q.1, (f, oj.2) :: q.2)))

/-- A search continued past the failed option, the last step first and then back up the way (R89). The
steps stand in reverse order. -/
def continueSearch (v : Env) (d : Live) (ex : List (Nat × Position)) :
    List (Nat × Nat) → Option (Protector × List (Nat × Nat))
  | [] => none
  | (f, j) :: up =>
    match searchFrom v d ex (Config.chainDepth - up.length) f (j + 1) with
    | some q => some (q.1, up.reverse ++ q.2)
    | none => continueSearch v d ex up

/-- A protector taken: its count rises by one (R84, R85); a signal whose count rises from 0 has its
aspect computed (R46, R85). -/
def takeProtector (v : Env) (q : Protector) (d : Live) : Live :=
  match q with
  | .point n pos => d.setControl n (fun c => c.setCount pos (c.count pos + 1))
  | .signal n =>
    let k := (d.control n).holdCount
    let d1 := d.setControl n (fun c => { c with holdCount := k + 1 })
    if k = 0 then computeAspect v n d1 else d1

/-! ### The availability of an element (R40 to R44) -/

/-- The entry signal step (R40). -/
def entryRefusal (v : Env) (d : Live) (sig : Nat) : Option Reason :=
  if v.blocked sig then some .blocked
  else if d.faulted sig then some .faulted
  else if 0 < (d.control sig).holdCount then some .flankHeld
  else none

/-- The slot an element passes from by overlap transfer to a route. X's route is another route than the new
one: "No route number is held by two active slots" (R45, R63). -/
def transfersFrom (v : Env) (d : Live) (r : RouteDef) (e : Entry) : Option Nat :=
  match (d.control e.element).lock with
  | some { holder := .slot x, mode := .overlap } =>
    match d.routeOf v x with
    | some rx =>
      if rx.number != r.number && rx.exit = .signal r.entry
          && (match e.position with
              | none => true
              | some pos => rx.overlap.any (fun y => y.element = e.element && y.position = some pos))
      then some x else none
    | none => none
  | _ => none

/-- The reason a path or overlap entry fails with (R41, R42). -/
def entryFails (v : Env) (d : Live) (r : RouteDef) (e : Entry) : Option Reason :=
  let n := e.element
  if (d.control n).lock.isSome && (transfersFrom v d r e).isNone then some .conflict
  else if v.blocked n then some .blocked
  else if d.faulted n then some .faulted
  else match e.position with
    | none => none
    | some pos =>
      if 0 < (d.control n).count pos.opposite then some .conflict
      else if mustMove d n pos && v.pointOccupied n then some .pointOccupied
      else none

/-- The exit step for a boundary, for a route to be taken into slot `i` (R44). -/
def exitRefusal (v : Env) (d : Live) (i : Nat) : Exit → Option Reason
  | .signal _ => none
  | .boundary n b =>
    if (d.boundary b).restricted || !linkUp v d b
        || ((d.boundary b).direction = .inward && (d.boundary b).berthLocked)
        || d.slotIds.any (fun j =>
            j != i && (match d.routeOf v j with | some r => r.exit = .boundary n b | none => false))
    then some .boundaryUnavailable
    else if d.faulted n then some .faulted
    else none

/-! ### Placement (R46) -/

/-- Change the marks of the entries of a list that pass a test. -/
def markEntries (test : Entry → Bool) (f : Mark → Mark) (es : List Entry) (ms : List Mark) :
    List Mark :=
  List.zipWith (fun e m => if test e then f m else m) es ms

/-- A path or overlap entry placed for slot `i`, with the transfer mark where it passes by transfer
(R46). -/
def placeEntry (v : Env) (i : Nat) (r : RouteDef) (mode : LockMode) (e : Entry) (d : Live) : Live :=
  let d1 :=
    match transfersFrom v d r e with
    | some x =>
      match d.routeOf v x with
      | some rx =>
        let give := fun ms => markEntries (fun y => y.element = e.element)
          (fun m => { m with transferred := true }) rx.overlap ms
        d.setSlot x (fun s => { s with overlapMarks := give s.overlapMarks })
      | none => d
    | none => d
  d1.setControl e.element (fun c => { c with lock := some { holder := .slot i, mode := mode } })

/-- The entries of one list tested and placed in order; the first that fails gives the reason (R39). -/
def placeEntries (v : Env) (i : Nat) (r : RouteDef) (mode : LockMode) :
    List Entry → Live → Except Reason Live
  | [], d => .ok d
  | e :: es, d =>
    match entryFails v d r e with
    | some x => .error x
    | none => placeEntries v i r mode es (placeEntry v i r mode e d)

/-- The flank requirements searched and taken in order (R43, R46). -/
def placeFlanks (v : Env) (i : Nat) : List Requirement → Live → Except Reason Live
  | [], d => .ok d
  | q :: qs, d =>
    match searchFrom v d [] Config.chainDepth q.record 0 with
    | none => .error .flankUnavailable
    | some (p, way) =>
      let d1 := takeProtector v p d
      placeFlanks v i qs (d1.setSlot i (fun s =>
        { s with flank := s.flank ++ [{ protector := some p, position := way, excluded := [] }] }))

/-- The slot a take-up allocates: SETTING, with every field afresh (R55, R62). -/
def Slot.taken (r : RouteDef) (priority : Nat) : Slot :=
  { Slot.free with
    state := .setting, route := some r.number, priority := some priority
    pathMarks := r.path.map (fun _ => Mark.none)
    overlapMarks := r.overlap.map (fun _ => Mark.none) }

/-- The availability test of a route for slot `i`, made as a placement in a state that is kept only
when every step passes, since "the placed state is exactly the provisional view of the test that
passed" (R39 to R46). -/
def place (v : Env) (i : Nat) (r : RouteDef) (priority : Nat) (d : Live) : Except Reason Live :=
  match entryRefusal v d r.entry with
  | some x => .error x
  | none => do
    let d1 := d.setSlot i (fun _ => Slot.taken r priority)
    let d2 ← placeEntries v i r .path r.path d1
    let d3 ← placeEntries v i r .overlap r.overlap d2
    let d4 ← placeFlanks v i r.flank d3
    match exitRefusal v d4 i r.exit with
    | some x => .error x
    | none => .ok d4

end Sys2Proof.Machine
end

