-- ==== Sys2Proof/Machine/Handover.lean ====
section
/-! DEFINITION. The Handover Controller: links and STATUS (R149 to R155), direction and acceptance at
the outward end (R157 to R163), the berth (R165), and the reports of a boundary (R168). -/

namespace Sys2Proof.Machine

open Sys2Proof

/-! ### STATUS (R155) -/

/-- The boundaries defined on a link, in boundary number order (R156). -/
def Env.linkBoundaries (v : Env) (l : Nat) : List BoundaryDef :=
  v.defs.boundaries.filter (fun x => x.link = l)

/-- The boundary a link boundary number names on a link (R151). -/
def Env.namedBoundary (v : Env) (l n : Nat) : Option BoundaryDef :=
  (v.linkBoundaries l).find? (fun x => x.linkNumber = n)

/-- A berth section is free for a grant: it holds no lock, is not blocked, carries no entry of a
blocking kind (R52, R155, R164). -/
def berthFree (v : Env) (d : Live) (n : Nat) : Bool :=
  (d.control n).lock.isNone && !v.blocked n && !d.faulted n

/-- A boundary's entry in a STATUS (R155). -/
def statusEntry (v : Env) (d : Live) (bd : BoundaryDef) : StatusEntry :=
  let x := d.boundary bd.number
  { number := bd.linkNumber
    direction := if x.restricted then .neutral else x.direction
    restricted := x.restricted
    acceptance := x.acceptance
    waiting := waitingOnNeighbour d bd.number
    berthLocked := x.berthLocked
    berthEntered := x.berthLocked && x.marks.any Mark.occ
    berthOccupied := bd.berth.any (fun n => v.occupied n)
    berthReady := bd.berth.all (fun n => berthFree v d n && !v.occupied n)
    home := (d.control bd.home).aspect }

/-- The STATUS of a link as it stands (R155). -/
def buildStatus (v : Env) (d : Live) (l : Nat) : NFrame :=
  .status (ownStopFlag v d l) ((v.linkBoundaries l).map (statusEntry v d))

/-- A STATUS built and sent now (R150). -/
def sendStatus (v : Env) (l : Nat) (d : Live) : Live :=
  d.setLink l (fun k => { k with lastStatus := some (buildStatus v d l), deferred := false })

/-! ### Reports of a boundary (R168) -/

/-- The BOUNDARY_STATE of a boundary as it stands (R168). -/
def boundaryReport (d : Live) (b : Nat) (reason : Option Nat) : Report :=
  let x := d.boundary b
  .boundaryState b x.direction x.acceptance x.berthLocked x.restricted reason

/-- The fields whose change is reported differ (R168). -/
def Boundary.differs (x y : Boundary) : Bool :=
  x.direction != y.direction || x.acceptance != y.acceptance || x.berthLocked != y.berthLocked
    || x.restricted != y.restricted

/-- A BOUNDARY_STATE when the boundary has changed since the event began (R168). -/
def reportChange (b : Nat) (before : Boundary) (reason : Option Nat) (d : Live) : Live :=
  if before.differs (d.boundary b) then d.report (boundaryReport d b reason) else d

/-- Evaluate the exit slot of a boundary (R74, R157). -/
def evaluateExit (v : Env) (b : Nat) (d : Live) : Live :=
  match (d.boundary b).exitSlot with
  | some i => evaluate v i d
  | none => d

/-- The exit slots of some boundaries evaluated, in slot number order (R74, R152). -/
def evaluateExits (v : Env) (bs : List BoundaryDef) (d : Live) : Live :=
  d.eachSlot (fun i e =>
    if bs.any (fun b => (e.boundary b.number).exitSlot = some i) then evaluate v i e else e)

/-- A boundary's change handed to the Route Setter: proving, the positioning condition at a change to
HELD, and the stored request queue (R157). -/
def handOnBoundary (v : Env) (b : Nat) (before : Boundary) (d : Live) : Live :=
  let x := d.boundary b
  let moved := before.direction != x.direction || before.acceptance != x.acceptance
  let d1 := if moved || before.restricted != x.restricted then evaluateExit v b d else d
  let d2 :=
    if before.acceptance != .held && x.acceptance = .held then
      match x.exitSlot with
      | some i => testPositioning v i d1
      | none => d1
    else d1
  if moved then d2.setReeval true else d2

/-- An event at a boundary: its changes, one report after the last of them, then the hand-ons (R157,
R168). -/
def boundaryEvent (v : Env) (b : Nat) (reason : Option Nat) (f : Live → Live) (d : Live) : Live :=
  let before := d.boundary b
  handOnBoundary v b before (reportChange b before reason (f d))

/-! ### Links (R150, R152) -/

/-- What leaving UP clears in a boundary record (R152, step 2). -/
def Boundary.leaveUp (x : Boundary) : Boundary :=
  { x with
    reqExpiry := none
    acceptance := if x.acceptance = .requested then .none else x.acceptance
    accExpiry := none, consExpiry := none, views := none, waiting := false }

/-- A link leaves UP for LOST or DISABLED (R152). A STATUS that waited behind a frame of the emptied
queue goes out at the end when the link goes on sending (log 6). -/
def leaveUp (v : Env) (l : Nat) (st : LinkState) (d : Live) : Live :=
  let was := d.linkAsserted l
  let bs := v.linkBoundaries l
  let waits := (d.link l).deferred
  let d1 := d.setLink l (fun k =>
    { k with
      state := st, rx := [], tx := [], silence := none, deferred := false
      nextStatus := if st = .disabled then none else k.nextStatus
      hunt := if st = .disabled then [] else k.hunt })
  let d2 := bs.foldl (fun d b => d.setBoundary b.number Boundary.leaveUp) d1
  let d3 := if st = .lost then bs.foldl (fun d b => raise v b.element .linkLost none d) d2 else d2
  let d4 := d3.report (.linkState l st)
  let d5 := bs.foldl (fun e b => reportChange b.number (d.boundary b.number) none e) d4
  let d6 := evaluateExits v bs d5
  let moved := bs.any (fun b => (d.boundary b.number).acceptance = .requested)
  let d7 := if moved then d6.setReeval true else d6
  let d8 := edge v (.link l) was d7
  if waits && st = .lost then sendStatus v l d8 else d8

/-- A link becomes UP (R152). The level of its source is compared by the caller, once the STATUS that
brought it UP has set the flag (R131). -/
def becomeUp (v : Env) (l : Nat) (d : Live) : Live :=
  let bs := v.linkBoundaries l
  let d1 := d.setLink l (fun k =>
    { k with state := .up, silence := some (after v.now v.timing.linkTimeout) })
  let d2 := d1.report (.linkState l .up)
  let d3 := bs.foldl (fun d b => endFault v b.element .linkLost d) d2
  (evaluateExits v bs d3).setReeval true

/-- A frame queued on an UP link; a full transmit queue discards it and loses the link (R150). -/
def enqueue (v : Env) (l : Nat) (f : NFrame) (d : Live) : Live :=
  if (d.link l).state = .up then
    if (d.link l).tx.length < Config.transmitCapacity then
      d.setLink l (fun k => { k with tx := k.tx ++ [f] })
    else leaveUp v l .lost d
  else d

/-- A frame about a boundary queued on its link. -/
def sendFrom (v : Env) (b : Nat) (f : Nat → NFrame) (d : Live) : Live :=
  match v.boundary? b with
  | some bd => enqueue v bd.link (f bd.linkNumber) d
  | none => d

/-- A received frame placed in a link's receive queue (R149, R151). -/
def receive (v : Env) (l : Nat) (f : NFrame) (d : Live) : Live :=
  if (v.link? l).isNone || (d.link l).state = .disabled then d
  else if (d.link l).rx.length < Config.receiveCapacity then
    d.setLink l (fun k => { k with rx := k.rx ++ [f] })
  else if (d.link l).state = .up then leaveUp v l .lost d
  else d

/-- Bytes that arrive while a frame is discarded, or after one has been: with the bytes of a frame begun
inside a discarded one they are hunted for frames, which are received in order, and a frame that is not
whole waits for the bytes that come next. When the discarded frame broke off, what was begun inside it
broke off too (R151, R183, log 7). -/
def receiveBytes (v : Env) (l : Nat) (brokeOff : Bool) (bytes : List Byte) (d : Live) : Live :=
  if (v.link? l).isNone || (d.link l).state = .disabled then d
  else
    let all := (d.link l).hunt ++ bytes
    let found := if brokeOff then (framesIn all, []) else huntIn all
    (found.1.foldl (fun d f => receive v l f d) d).setLink l (fun k => { k with hunt := found.2 })

/-! ### Direction and acceptance (R158, R161 to R163) -/

/-- The needs of a boundary's exit slot changed (R69). -/
def setNeeds (b : Nat) (f : Slot → Slot) (d : Live) : Live :=
  match (d.boundary b).exitSlot with
  | some i => d.setSlot i f
  | none => d

/-- A change of direction; a change to OUTWARD clears the exit slot's direction need (R69, R157). -/
def setDirection (b : Nat) (dir : Direction) (d : Live) : Live :=
  let d1 := d.setBoundary b (fun x => { x with direction := dir })
  if dir = .outward then setNeeds b (fun s => { s with dirNeed := false }) d1 else d1

/-- A change of the acceptance: to HELD it clears the exit slot's acceptance need; from HELD to NONE
while the slot is SETTING it sets the need again (R69, R157). -/
def setAcceptance (b : Nat) (acc : Acceptance) (expiry : Option Time) (d : Live) : Live :=
  let was := (d.boundary b).acceptance
  let d1 := d.setBoundary b (fun x =>
    { x with
      acceptance := acc, accExpiry := expiry
      awaiting := if acc = .none then false else x.awaiting })
  if acc = .held then setNeeds b (fun s => { s with accNeed := false }) d1
  else if acc = .none && was = .held then
    setNeeds b (fun s => if s.state = .setting then { s with accNeed := true } else s) d1
  else d1

/-- The exit slot of a boundary needs it, with one of its needs set (R154, R158, R162). -/
def exitNeeds (d : Live) (b : Nat) (need : Slot → Bool) : Bool :=
  match (d.boundary b).exitSlot with
  | some i => (d.slot i).needsExit && need (d.slot i)
  | none => false

/-- A DIR_REQUEST queued where the conditions of R158 hold. -/
def trySeek (v : Env) (b : Nat) (d : Live) : Live :=
  match v.boundary? b with
  | some bd =>
    let x := d.boundary b
    if exitNeeds d b Slot.dirNeed && x.reqExpiry.isNone && !x.restricted && !x.berthLocked
        && linkUp v d b then
      enqueue v bd.link (.dirRequest bd.linkNumber bd.seniority)
        (d.setBoundary b (fun x => { x with reqExpiry := some (after v.now v.timing.response) }))
    else d
  | none => d

/-- An ACCEPT_REQUEST queued where the conditions of R162 hold. -/
def tryAccept (v : Env) (b : Nat) (d : Live) : Live :=
  let x := d.boundary b
  if exitNeeds d b Slot.accNeed && x.direction = .outward && x.acceptance = .none && !x.restricted
      && linkUp v d b then
    sendFrom v b .acceptRequest
      (setAcceptance b .requested (some (after v.now v.timing.response)) d)
  else d

/-- The offer of R161: an OUTWARD boundary with neighbour waiting set, idle, its link UP, offers the
direction and becomes INWARD. -/
def tryOffer (v : Env) (b : Nat) (d : Live) : Live :=
  let x := d.boundary b
  if x.direction = .outward && x.waiting && !boundaryBusy d b && linkUp v d b then
    sendFrom v b .dirOffer
      (setDirection b .inward (d.setBoundary b (fun x => { x with waiting := false })))
  else d

/-- The direction becomes OUTWARD and an outstanding request ends; at a change to OUTWARD the acceptance
is requested at once where the slot needs one (R161). -/
def becomeOutward (v : Env) (b : Nat) (d : Live) : Live :=
  let d1 := d.setBoundary b (fun x => { x with reqExpiry := none })
  if (d.boundary b).direction = .outward then d1
  else tryAccept v b (setDirection b .outward d1)

/-- The exit slot removed from the record, and the acceptance treated by the table of R163. -/
def dropExit (v : Env) (b : Nat) (d : Live) : Live :=
  let x := d.boundary b
  let d1 := d.setBoundary b (fun x =>
    { x with exitSlot := none, exitEntered := false, reqExpiry := none })
  let d2 :=
    if x.acceptance = .none then d1
    else if x.acceptance = .held && x.exitEntered then
      d1.setBoundary b (fun x => { x with awaiting := true })
    else sendFrom v b .acceptCancel (setAcceptance b .none none d1)
  tryOffer v b d2

/-- The Handover Controller told that slot `i` no longer needs the boundary it exits at (R163). Inside
a BOUNDARY_RESET the one report is left to the reset (R168, log 15). -/
def releaseExit (v : Env) (i : Nat) (quiet : Bool) (d : Live) : Live :=
  match d.routeOf v i with
  | some r =>
    match r.exit with
    | .signal _ => d
    | .boundary _ b =>
      if (d.boundary b).exitSlot = some i then
        if quiet then dropExit v b d else boundaryEvent v b none (dropExit v b) d
      else d
  | none => d

/-- A take-up records its exit slot and asks for what the boundary lacks (R69, R154, R158, R162). -/
def askBoundary (v : Env) (i b : Nat) (d : Live) : Live :=
  boundaryEvent v b none
    (fun d =>
      let d1 := d.setBoundary b (fun x => { x with exitSlot := some i, exitEntered := false })
      let out := (d1.boundary b).direction = .outward
      let d2 := d1.setSlot i (fun s => { s with dirNeed := !out, accNeed := true })
      if out then tryAccept v b d2 else trySeek v b d2)
    d

/-! ### The berth (R165, R167) -/

/-- A reset completes: NEUTRAL, RESTRICTED cleared (R167). -/
def Boundary.resetDone (x : Boundary) : Boundary :=
  { x with resetExpiry := none, direction := .neutral, restricted := false }

/-- The berth becomes FREE; a reset in progress completes (R165, R167). -/
def Boundary.berthGone (x : Boundary) : Boundary :=
  let y := { x with berthLocked := false, marks := [] }
  if x.resetExpiry.isSome then y.resetDone else y

/-- A berth released whole: every section still held is removed (R52, R165). -/
def berthWhole (v : Env) (b : Nat) (r : Release) : Release :=
  match v.boundary? b with
  | some bd =>
    let r1 := r.removeLocks v (.berth b) bd.berth
    { r1 with live := r1.live.setBoundary b Boundary.berthGone }
  | none => r

/-- The berth sections that a change to CLEAR releases, with the marks it leaves: in berth order, each
marked "occupied since locking", now CLEAR, and every section before it released (R165). -/
def berthSweep (v : Env) : List Nat → List Mark → List Nat × List Mark
  | n :: ns, m :: ms =>
    if m.released then
      let q := berthSweep v ns ms
      (q.1, m :: q.2)
    else if m.occ && !v.occupied n then
      let q := berthSweep v ns ms
      (n :: q.1, { m with released := true } :: q.2)
    else ([], m :: ms)
  | _, ms => ([], ms)

/-- A reset that was in progress has completed (R167). -/
def resetEnded (before : Boundary) (b : Nat) (d : Live) : Bool :=
  before.resetExpiry.isSome && (d.boundary b).resetExpiry.isNone

/-- The CONTEST and RESTRICTED entries of a boundary turn GONE (R139, R167). -/
def clearBoundaryFaults (v : Env) (b : Nat) (d : Live) : Live :=
  match v.boundary? b with
  | some bd => endFault v bd.element .restricted (endFault v bd.element .contest d)
  | none => d

/-- The end of an event at a berth: the entries of a completed reset turn GONE, the boundary is reported
and handed on, then the removals (R53, R167, R168). -/
def finishBerth (v : Env) (b : Nat) (before : Boundary) (done : Bool) (r : Release) : Live :=
  let d := r.live
  let d1 := if done then clearBoundaryFaults v b d else d
  let d2 := handOnBoundary v b before (reportChange b before none d1)
  { r with live := d2 }.handOn v

/-- A berth section marked "occupied since locking" (R165). -/
def berthMark (n : Nat) (berth : List Nat) (ms : List Mark) : List Mark :=
  List.zipWith (fun k m => if k = n then { m with occ := true } else m) berth ms

/-- A change of a berth section's filtered value while the berth is LOCKED (R165). -/
def berthChanged (v : Env) (n : Nat) (occ movement : Bool) (b : Nat) (d : Live) : Live :=
  match v.boundary? b with
  | none => d
  | some bd =>
    let x := d.boundary b
    if !x.berthLocked || !bd.berth.contains n then d
    else if occ then
      if movement then
        d.setBoundary b (fun x => { x with marks := berthMark n bd.berth x.marks })
      else d
    else
      let q := berthSweep v bd.berth x.marks
      let r := (Release.start (d.setBoundary b (fun x => { x with marks := q.2 }))).removeLocks v
        (.berth b) q.1
      let r1 :=
        if q.2.all Mark.released then
          { r with live := r.live.setBoundary b Boundary.berthGone }
        else r
      finishBerth v b x (resetEnded x b r1.live) r1

end Sys2Proof.Machine
end

