-- ==== Sys2Proof/Machine/Passage.lean ====
section
/-! DEFINITION. Train passage and the giving up of slots: entry (R113, R114), sectional release (R115
to R118), the end of a passage (R120), approach speed and hold (R127 to R129), and whole releases (R50,
R72, R123). -/

namespace Sys2Proof.Machine

open Sys2Proof

/-! ### Marks and units -/

/-- The indices of the section entries of a list, in order: its release units (R115). -/
def sectionIndices (es : List Entry) : List Nat :=
  (es.zipIdx.filter (fun x => x.1.position.isNone)).map Prod.snd

/-- A mark of a list; none where there is no entry. -/
def markAt (ms : List Mark) (k : Nat) : Mark := ms.getD k Mark.none

/-- The overlap of a slot is complete: every entry released or transferred (R117). -/
def Slot.overlapDone (s : Slot) : Bool := s.overlapMarks.all (fun m => m.released || m.transferred)

/-- Every path unit is released: its section, and with it each of its points (R115). -/
def pathDone (s : Slot) : Bool := s.pathMarks.all Mark.released

/-- The indices of a unit: its section and the points whose containing section it is (R115). -/
def unitIndices (v : Env) (es : List Entry) (k : Nat) : List Nat :=
  match es[k]? with
  | some sec =>
    (es.zipIdx.filter (fun x =>
      x.2 = k || (x.1.position.isSome
        && v.elementIs x.1.element (fun e => e.containing = some sec.element)))).map Prod.snd
  | none => []

/-- Marks set "released" at some indices. -/
def markReleased (ks : List Nat) (ms : List Mark) : List Mark :=
  ms.zipIdx.map (fun x => if ks.contains x.2 then { x.1 with released := true } else x.1)

/-- The elements at some indices of a list. -/
def elementsAt (es : List Entry) (ks : List Nat) : List Nat :=
  ks.filterMap (fun k => (es[k]?).map Entry.element)

/-- One path unit released: its entries are marked, the locks removed, the flank requirements that
protect them given up (R49, R94, R116). -/
def releasePathUnit (v : Env) (i k : Nat) (rt : RouteDef) (r : Release) : Release :=
  let ks := unitIndices v rt.path k
  let r1 := { r with live := r.live.setSlot i (fun s =>
    { s with pathMarks := markReleased ks s.pathMarks }) }
  let r2 := r1.removeLocks v (.slot i) (elementsAt rt.path ks)
  r2.giveUpRecords i
    ((rt.flank.zipIdx.filter (fun q => ks.contains q.1.index)).map Prod.snd)

/-- Path units tested in path order from the lowest unreleased one, up to the first that does not meet
R115 (R116). -/
def sweepPath (v : Env) (i : Nat) (rt : RouteDef) : List Nat → Release → Release
  | [], r => r
  | k :: ks, r =>
    let ms := (r.live.slot i).pathMarks
    if (markAt ms k).released then sweepPath v i rt ks r
    else if (markAt ms k).occ && (rt.path[k]?).any (fun e => !v.occupied e.element)
        && (match ks with | j :: _ => (markAt ms j).occ | [] => true) then
      sweepPath v i rt ks (releasePathUnit v i k rt r)
    else r

/-- One overlap unit released; its transferred entries are passed over (R49, R118). -/
def releaseOverlapUnit (v : Env) (i k : Nat) (rt : RouteDef) (r : Release) : Release :=
  let ms := (r.live.slot i).overlapMarks
  let ks := (unitIndices v rt.overlap k).filter (fun j => !(markAt ms j).transferred)
  let r1 := { r with live := r.live.setSlot i (fun s =>
    { s with overlapMarks := markReleased ks s.overlapMarks }) }
  r1.removeLocks v (.slot i) (elementsAt rt.overlap ks)

/-- Overlap units tested in overlap order (R118). A unit whose section is transferred is passed over whole,
with a point of it that is not transferred (DESIGN CHOICE, log 33). -/
def sweepOverlap (v : Env) (i : Nat) (rt : RouteDef) : List Nat → Release → Release
  | [], r => r
  | k :: ks, r =>
    let ms := (r.live.slot i).overlapMarks
    if (markAt ms k).released || (markAt ms k).transferred then sweepOverlap v i rt ks r
    else if (markAt ms k).occ && (rt.overlap[k]?).any (fun e => !v.occupied e.element)
        && (match ks.find? (fun j => !(markAt ms j).transferred) with
            | some j => (markAt ms j).occ
            | none => true) then
      sweepOverlap v i rt ks (releaseOverlapUnit v i k rt r)
    else r

/-! ### The end of a passage (R120) -/

/-- A slot becomes FREE after its boundary has been told; reported with a reason (R72, R120). -/
def freeReport (rt : RouteDef) (i : Nat) (reason : Option Reason) : Report :=
  .routeState rt.number (some i) .free reason

/-- The test of R120 and what follows when it holds. -/
def endPassage (v : Env) (i : Nat) (d : Live) : Live :=
  match d.routeOf v i with
  | some rt =>
    let s := d.slot i
    if s.state = .entered && pathDone s && s.overlapDone
        && s.flank.all (fun h => h.protector.isNone) then
      let d1 := releaseExit v i false d
      let d2 := d1.setSlot i (fun _ => Slot.free)
      (d2.report (freeReport rt i none)).setReeval true
    else d
  | none => d

/-- The release test of a slot in ENTERED at a change of a section's filtered value: path units at a
change of a path section, overlap units at a change of a section of the overlap that is still the slot's
or once the last path unit is released; handed on as one release, then the end of the passage (R116,
R118, R120). -/
def releaseTest (v : Env) (i n : Nat) (d : Live) : Live :=
  match d.routeOf v i with
  | some rt =>
    let s := d.slot i
    if s.state = .entered then
      let r1 :=
        if (entrySections rt.path).contains n then
          sweepPath v i rt (sectionIndices rt.path) (Release.start d)
        else Release.start d
      let r2 :=
        if pathDone (r1.live.slot i)
            && (!pathDone s || (entrySections (ownOverlap rt s)).contains n) then
          sweepOverlap v i rt (sectionIndices rt.overlap) r1
        else r1
      endPassage v i (r2.handOn v)
    else d
  | none => d

/-- The overlap released whole at the overlap expiry, then the test of R120 (R117). -/
def overlapWhole (v : Env) (i : Nat) (d : Live) : Live :=
  match d.routeOf v i with
  | some rt =>
    let own := (ownOverlap rt (d.slot i)).map Entry.element
    let d1 := d.setSlot i (fun s =>
      { s with
        overlapExpiry := none
        overlapMarks := s.overlapMarks.map (fun m =>
          if m.transferred then m else { m with released := true }) })
    endPassage v i (((Release.start d1).removeLocks v (.slot i) own).handOn v)
  | none => d

/-! ### Entry and marks (R113 to R118) -/

/-- The overlap timer started where the conditions of R117 hold. -/
def startOverlapTimer (v : Env) (i : Nat) (d : Live) : Live :=
  let s := d.slot i
  if !s.overlapDone && s.overlapExpiry.isNone && s.overlapMarks.all (fun m => !m.occ) then
    d.setSlot i (fun s =>
      { s with overlapExpiry := some (after v.now (1000 * v.timing.overlapTime)) })
  else d

/-- The last path section of a route (R117). -/
def lastSection (rt : RouteDef) : Option Nat := (entrySections rt.path).getLast?

/-- The marks an entry sets: the first entry, and every other section of the slot that is filtered
OCCUPIED (R114, step 2). -/
def entryMarks (v : Env) (rt : RouteDef) (s : Slot) : Slot :=
  let path := markEntries (fun e => e.position.isNone && v.occupied e.element)
    (fun m => { m with occ := true }) rt.path s.pathMarks
  let lap := markEntries (fun e => e.position.isNone && v.occupied e.element)
    (fun m => if m.released || m.transferred then m else { m with occ := true }) rt.overlap
    s.overlapMarks
  { s with pathMarks := path.modify 0 (fun m => { m with occ := true }), overlapMarks := lap }

/-- The entry of a train into a slot (R114). -/
def enterSlot (v : Env) (i : Nat) (rt : RouteDef) (d : Live) : Live :=
  let was := (d.slot i).state
  let d1 := d.setSlot i (fun s =>
    entryMarks v rt { s with state := .entered, reclear := false, hold := none })
  let d2 := computeAspect v rt.entry (d1.report (slotReport d1 i none))
  let d3 := if was = .clear then d2 else raise v rt.entry .passedAtStop none d2
  let d4 :=
    match rt.exit with
    | .boundary _ b =>
      if (d3.boundary b).exitSlot = some i then
        d3.setBoundary b (fun x => { x with exitEntered := true })
      else d3
    | .signal _ => d3
  let last := (sectionIndices rt.path).getLast?.any (fun k =>
    (markAt (d4.slot i).pathMarks k).occ)
  if last then startOverlapTimer v i d4 else d4

/-- A movement to OCCUPIED of a section, marked in a slot in ENTERED; a movement into the overlap cancels
the overlap timer, one of the last path section may start it (R115, R117, R118). -/
def markMovement (v : Env) (n i : Nat) (rt : RouteDef) (d : Live) : Live :=
  let inLap := (ownOverlap rt (d.slot i)).any (fun e => e.position.isNone && e.element = n)
  let here := fun (e : Entry) => e.position.isNone && e.element = n
  let d1 := d.setSlot i (fun s =>
    let path := markEntries here (fun m => { m with occ := true }) rt.path s.pathMarks
    let lap := markEntries here
      (fun m => if m.released || m.transferred then m else { m with occ := true }) rt.overlap
      s.overlapMarks
    { s with
      pathMarks := path, overlapMarks := lap
      overlapExpiry := if inLap then none else s.overlapExpiry })
  if lastSection rt = some n then startOverlapTimer v i d1 else d1

/-- The section is in the slot's path, or in its overlap. -/
def hasSection (rt : RouteDef) (n : Nat) : Bool :=
  (entrySections (rt.path ++ rt.overlap)).contains n

/-- A change of a section's filtered value applied to a slot by its state: an entry, an evaluation, or
the marks and releases of a passage (R74, R113, R115, R116, R118, R124). -/
def sectionAtSlot (v : Env) (n : Nat) (occ movement : Bool) (i : Nat) (d : Live) : Live :=
  match d.routeOf v i with
  | some rt =>
    let s := d.slot i
    let enters := occ && movement && (rt.path.head?).any (fun e => e.element = n)
      && !(markAt s.pathMarks 0).occ
    match s.state with
    | .clear => if enters then enterSlot v i rt d else if concerns v d n i then evaluate v i d else d
    | .held => if enters then enterSlot v i rt d else if concerns v d n i then evaluate v i d else d
    | .cancelling => if enters then enterSlot v i rt d else d
    | .entered =>
      if hasSection rt n then
        releaseTest v i n (if occ && movement then markMovement v n i rt d else d)
      else d
    | _ => d
  | none => d

/-! ### Approach speed and hold (R126 to R129) -/

/-- Division rounded up. -/
def ceilDiv (a b : Nat) : Nat := (a + b - 1) / b

/-- The speed over a length in a time, in dm/s, within its range (R127). -/
def approachSpeed (length dt : Nat) : Nat := max 1 (min 999 (ceilDiv (length * 10000) (max dt 100)))

/-- The measurement a section gives as entry A_k of a zone (R127). -/
def measureAt (v : Env) (zone : List ApproachEntry) (n k : Nat) : Option Nat :=
  match zone[k]?, zone[k + 1]? with
  | some (.track m _), some (.track outer length) =>
    if m = n && 0 < length && v.occupied outer then
      match (v.element? outer).bind Element.occTime with
      | some t => some (approachSpeed length (elapsed t v.now))
      | none => none
    else none
  | _, _ => none

/-- A movement of a section measured for every MAIN signal whose zone it stands in (R127). -/
def measure (v : Env) (n : Nat) (d : Live) : Live :=
  v.elements.foldl (fun d e =>
    if e.isMain then
      let zone := v.zone e.num
      match (measureAt v zone n 0).orElse (fun _ => measureAt v zone n 1) with
      | some q => d.setControl e.num (fun c => { c with speed := some { v := q, time := v.now } })
      | none => d
    else d) d

/-- The age of a speed record exceeds its validity (R126, R129). -/
def speedStale (v : Env) (s : Speed) : Bool := 1000 * v.timing.speedValid < elapsed s.time v.now

/-- The approach hold of a slot in CLEAR or HELD, in seconds, by the first step of R129 that applies. For a
SHUNT route in DEGRADED with its zone occupied that is step 2, Hmin, where R147 and the closing text of R129
say Hmax (DESIGN CHOICE, log 39). -/
def approachHold (v : Env) (d : Live) (rt : RouteDef) : Nat :=
  let t := v.timing
  if !zoneOccupied v d rt.entry then 0
  else if !rt.main then t.holdMin
  else
    match (d.control rt.entry).speed with
    | none => t.holdMax
    | some s =>
      if v.mode != .normal || speedStale v s then t.holdMax
      else min t.holdMax (max t.holdMin (t.react + ceilDiv (s.v * 10) t.braking))

/-! ### Slots given up whole (R50, R72, R123, R124) -/

/-- A slot given up whole: the Handover Controller is told, every lock and protector goes, the slot is
FREE and reported; the stored request queue is asked for (R50, R72, R123, R124). -/
def giveUpSlot (v : Env) (i : Nat) (reason : Option Reason) (quiet : Bool) (d : Live) : Live :=
  match d.routeOf v i with
  | some rt =>
    let d1 := releaseExit v i quiet d
    let d2 := (wholeRelease v i (Release.start d1)).handOn v
    (d2.report (freeReport rt i reason)).setReeval true
  | none => d

/-- A slot set CANCELLING with a hold expiry (R123, R125, R167). -/
def Slot.toCancelling (expiry : Time) (s : Slot) : Slot :=
  { s with state := .cancelling, hold := some expiry, reclear := false, overlapExpiry := none }

/-- The hold of Hmax for a RELEASE_EMERGENCY or a BOUNDARY_RESET (R125, R167). -/
def holdFull (v : Env) (i : Nat) (d : Live) : Live :=
  changeSlot v i (Slot.toCancelling (after v.now (1000 * v.timing.holdMax))) d

end Sys2Proof.Machine
end

