-- ==== Sys2Proof/Machine/TakeUp.lean ====
section
/-! DEFINITION. Take-ups (R62), the stored request queue (R63 to R65) and the setting release (R72),
which re-evaluates it. -/

namespace Sys2Proof.Machine

open Sys2Proof

/-! ### Take-ups (R47, R62, R119) -/

/-- The orders a take-up may hand on, each point once: path points, overlap points, then flank points in
requirement order (R47). -/
def takeUpOrders (i : Nat) (r : RouteDef) (s : Slot) : List (Nat × Position × Origin) :=
  let all := (entryPoints (r.path ++ r.overlap)).map (fun x => (x.1, x.2, Origin.route i))
    ++ (flankPoints s).map (fun x => (x.1, x.2, Origin.flank i))
  all.foldl (fun acc x => if acc.any (fun y => y.1 = x.1) then acc else acc ++ [x]) []

/-- Orders handed on one by one, each where its point needs one (R47, R84). -/
def handOrders (q : Requeue) (v : Env) (run : Option Nat) (os : List (Nat × Position × Origin))
    (d : Live) : Live :=
  os.foldl (fun d o => if needsOrder d o.1 o.2.1 then applyOrder q v run o.1 o.2.1 o.2.2 d else d) d

/-- The slots whose overlap a placement completed: their timer is cancelled, and a slot in ENTERED is
tested for its end (R119). Several such slots are taken in slot number order (DESIGN CHOICE, log 10). -/
def transfersDone (v : Env) (before : Live) (d : Live) : Live :=
  d.eachSlot (fun x d =>
    if !(before.slot x).overlapDone && (d.slot x).overlapDone then
      endPassage v x (d.setSlot x (fun s => { s with overlapExpiry := none }))
    else d)

/-- A take-up completed, from the state before its placement and the placed state (R62, steps 1 to 7). The
entry signal is computed after the ROUTE_STATE of the change to SETTING (R56, R79). `run` is the group whose
arbiter's run the take-up is made in, if it is made in one. -/
def takeUp (v : Env) (run : Option Nat) (i : Nat) (r : RouteDef) (before placed : Live) : Live :=
  let d1 := transfersDone v before placed
  let d2 := handOrders .later v run (takeUpOrders i r (d1.slot i)) d1
  let d3 := match r.exit with | .boundary _ b => askBoundary v i b d2 | .signal _ => d2
  let d4 := d3.setSlot i (fun s =>
    { s with setting := some (after v.now (1000 * v.timing.settingLimit)) })
  let d5 := d4.report (slotReport d4 i none)
  testPositioning v i (computeAspect v r.entry d5)

/-- The availability test and, when it passes, the take-up of a route into slot `i` (R39, R62). -/
def tryTakeUp (v : Env) (run : Option Nat) (i : Nat) (r : RouteDef) (priority : Nat) (d : Live) :
    Except Reason Live :=
  match place v i r priority d with
  | .error x => .error x
  | .ok p => .ok (takeUp v run i r d p)

/-! ### The stored request queue (R63 to R65) -/

/-- An entry comes before another: higher priority, or the same with an earlier arrival (R63). -/
def Stored.before (now : Time) (x y : Stored) : Bool :=
  x.priority < y.priority
    || (x.priority = y.priority && elapsed y.arrival now < elapsed x.arrival now)

/-- An entry added at the place its priority and arrival time give (R63), behind those of equal priority and
equal arrival time (DESIGN CHOICE, log 36). -/
def insertStored (now : Time) (x : Stored) : List Stored → List Stored
  | [] => [x]
  | y :: ys => if x.before now y then x :: y :: ys else y :: insertStored now x ys

/-- The stored entry of a route. -/
def Live.stored? (d : Live) (r : Nat) : Option Stored := d.stored.find? (fun x => x.route = r)
/-- A stored entry removed. -/
def Live.dropStored (d : Live) (r : Nat) : Live := d.setStored (d.stored.filter (fun x => x.route != r))

/-- The ROUTE_STATE of a stored entry's fate (R56, R60). -/
def storedReport (r : Nat) (reason : Reason) : Report := .routeState r none .free (some reason)

/-- The entries tried once each in queue order; the first that finds no FREE slot ends the
re-evaluation (R65). -/
def tryEntries (v : Env) (run : Option Nat) : List Stored → Live → Live
  | [], d => d
  | e :: es, d =>
    match d.freeSlot with
    | none => d
    | some i =>
      match v.route? e.route with
      | none => tryEntries v run es d
      | some r =>
        match tryTakeUp v run i r e.priority d with
        | .error _ => tryEntries v run es d
        | .ok d1 => tryEntries v run es (d1.dropStored e.route)

/-- The re-evaluations asked for, one after another until none is asked for. An event inside one causes
one further re-evaluation after it (R64). The first argument bounds them (log 25). -/
def serveRuns (v : Env) (run : Option Nat) : Nat → Live → Live
  | 0, d => d.setReeval false
  | k + 1, d =>
    if d.reeval then
      let d1 := d.setReeval false
      serveRuns v run k (tryEntries v run d1.stored d1)
    else d

/-- The stored request queue re-evaluated where an event has asked for it (R64, R65), in the run of a group's
arbiter if one is being made. -/
def serveIn (v : Env) (run : Option Nat) (d : Live) : Live := serveRuns v run (d.stored.length + 2) d

/-- The stored request queue re-evaluated where an event has asked for it (R64, R65). -/
def serve (v : Env) (d : Live) : Live := serveIn v none d

/-- A completion re-evaluates the stored request queue at its place (R105, step 4). -/
def Requeue.now : Requeue := serveIn

/-! ### The setting release (R71, R72), and a cancel (R123) -/

/-- A slot given up whole with a reason and the stored request queue re-evaluated once; then its entry
signal is computed (R72, R79, R123, log 31). -/
def settingRelease (v : Env) (i : Nat) (reason : Option Reason) (quiet : Bool) (d : Live) : Live :=
  let d1 := serve v (giveUpSlot v i reason quiet d)
  match d.routeOf v i with
  | some rt => computeAspect v rt.entry d1
  | none => d1

/-- A slot in CLEAR or HELD cancelled (R123). -/
def cancelSlot (v : Env) (i : Nat) (rt : RouteDef) (d : Live) : Live :=
  let h := approachHold v d rt
  if h = 0 then settingRelease v i none false d
  else changeSlot v i (Slot.toCancelling (after v.now (1000 * h))) d

/-- A slot fails on an event of R71 while it is SETTING. -/
def failSetting (v : Env) (i : Nat) (reason : Reason) (d : Live) : Live :=
  if (d.slot i).state = .setting then settingRelease v i (some reason) false d else d

end Sys2Proof.Machine
end

