-- ==== Sys2Proof/Machine/Detection.lean ====
section
/-! DEFINITION. The Element Table: views, agreed values, discrepancy timing and the section filter (R6 to
R14), and each change handed on (R10, R12, R15). -/

namespace Sys2Proof.Machine

open Sys2Proof

/-! ### One element record -/

/-- A lane's view (R5). -/
def Element.view (e : Element) : LaneId → Option Detection
  | .a => e.viewA
  | .b => e.viewB
/-- A lane's view written. -/
def Element.setView (e : Element) (l : LaneId) (x : Option Detection) : Element :=
  match l with
  | .a => { e with viewA := x }
  | .b => { e with viewB := x }

/-- The section filter at a change of agreed value (R13, R14). -/
def Element.filter (now : Time) (e : Element) : Element :=
  if !e.isSection then e
  else if e.agreed = .occupied then
    if e.occupied then { e with pickUp := none }
    else { e with occupied := true, occTime := some now }
  else if e.pickUpTime = 0 then { e with occupied := false, pickUp := none }
  else { e with pickUp := some (after now e.pickUpTime) }

/-- A new agreed value, with the filter of a section (R8, R9, R13, R14). -/
def Element.agree (now : Time) (x : Detection) (e : Element) : Element :=
  if x = e.agreed then e else { e with agreed := x }.filter now

/-- The discrepant condition has ended: both views are reported and equal (R12). -/
def Element.viewsAgree (e : Element) : Bool := e.viewA.isSome && e.viewA = e.viewB

/-- The discrepancy timer reconsidered, and the end of a condition that has expired (R11, R12). -/
def Env.timeDiscrepancy (v : Env) (e : Element) : Element :=
  { e with
    discExpiry :=
      if v.discrepancyHolds e then
        if e.discExpiry.isSome || e.discrepant then e.discExpiry
        else some (after v.now v.timing.discrepancy)
      else none
    discrepant := e.discrepant && !e.viewsAgree }

/-- An element derived again from its views and the lane mode (R8, R9, R11). -/
def Env.derive (v : Env) (e : Element) : Element :=
  v.timeDiscrepancy (e.agree v.now (v.deriveAgreed e))

/-- The dynamic fields an element takes at a load or restart; the blocked flag is given (R5, R20). -/
def Element.restart (blocked : Bool) (e : Element) : Element :=
  { e with
    viewA := none, viewB := none, agreed := e.dfn.kind.safe, discExpiry := none
    discrepant := false, occupied := e.isSection, pickUp := none, occTime := none
    blocked := blocked }

/-! ### Changes handed on (R10, R12, R15) -/

/-- A throw in flight completes: steps 1 to 5 of R105, the stored request queue re-evaluated at its
place in step 4. -/
def flightDone (v : Env) (p : Nat) (f : Flight) (d : Live) : Live :=
  runArbiter .now v (v.groupOf p) (completion .now v none p (endFlight v p f d))

/-- A change of a point's agreed detection (R10). -/
def pointChanged (v : Env) (p : Nat) (d : Live) : Live :=
  match detectionChanged v p d with
  | (d1, some f) => flightDone v p f d1
  | (d1, none) => evaluateElement v p d1

/-- A change of a signal's agreed lamp value: LAMP_FAIL may turn GONE, proving is evaluated for the slots
whose flank set has the signal (R10, R74, R139). -/
def lampChanged (v : Env) (n : Nat) (d : Live) : Live :=
  evaluateFlank v n (if v.agreed n = .proved then endFault v n .lampFail d else d)

/-- A change of a section's filtered value handed to the Route Setter, the Point Throw Sequencer, the
Approach Timing Unit and the Handover Controller (R15, R112). -/
def sectionChanged (v : Env) (n : Nat) (occ movement : Bool) (d : Live) : Live :=
  let d1 := d.eachSlot (sectionAtSlot v n occ movement)
  let d2 :=
    if occ then d1
    else runArbiters .now v (hasOrder v (fun p => v.elementIs p (fun e => e.containing = some n))) d1
  let d3 := if occ && movement then measure v n d2 else d2
  let d4 := v.defs.boundaries.foldl (fun d bd => berthChanged v n occ movement bd.number d) d3
  if occ then d4 else d4.setReeval true

/-- What has changed in an element record handed on to the blocks that use it (R10, R12, R15). Within one
update a DISCREPANT entry turns GONE last (DESIGN CHOICE, log 34). -/
def handOnElement (v : Env) (movement : Bool) (old new : Element) (d : Live) : Live :=
  let n := new.num
  let d1 := if new.isSignal then reconsider v n d else d
  let d2 :=
    if old.agreed = new.agreed then d1
    else if new.isPoint then pointChanged v n d1
    else if new.isSignal then lampChanged v n d1
    else d1
  let d3 := if old.occupied = new.occupied then d2 else sectionChanged v n new.occupied movement d2
  let d4 := if old.discrepant && !new.discrepant then endFault v n .discrepant d3 else d3
  serve v d4

/-! ### Updates of the whole state -/

/-- An event's effect on the live state, with the re-evaluation it asked for. -/
def State.act (f : Env → Live → Live) (s : State) : State :=
  { s with live := serve s.env (f s.env s.live) }

/-- One element record changed and the change handed on. -/
def State.updateElement (n : Nat) (f : Element → Element) (s : State) : State :=
  match s.env.element? n with
  | some e =>
    let v := s.env.setElement n f
    { s with env := v, live := handOnElement v true e (f e) s.live }
  | none => s

/-- A pair belongs to its element: the element is defined and takes the value (R6). -/
def Env.pairValue (v : Env) (pair : Nat × Nat) : Option Detection :=
  match v.element? pair.1, detectionOf pair.2 with
  | some e, some x => if e.dfn.kind.takes x then some x else none
  | _, _ => none

/-- One pair of a DETECT applied to a lane's view (R6, R7). -/
def State.applyPair (l : LaneId) (s : State) (pair : Nat × Nat) : State :=
  match s.env.pairValue pair with
  | some x =>
    if s.env.elementIs pair.1 (fun e => e.view l = some x) then s
    else s.updateElement pair.1 (fun e => s.env.derive (e.setView l (some x)))
  | none => s

/-- The pairs of a DETECT applied in list order; the list is discarded outside OPERATING and from a lane
that is held lost (R7). -/
def State.applyPairs (l : LaneId) (pairs : List (Nat × Nat)) (s : State) : State :=
  if s.env.operating && s.env.present l then pairs.foldl (State.applyPair l) s else s

end Sys2Proof.Machine
end

