-- ==== Sys2Proof/Machine/LaneModes.lean ====
section
/-! DEFINITION. A change of lane mode reported and handed on (R9, R77, R146). -/

namespace Sys2Proof.Machine

open Sys2Proof

/-- The stored request queue emptied in queue order (R67, R77). -/
def emptyStored (d : Live) : Live :=
  (d.stored.foldl (fun d x => d.report (storedReport x.route .laneDegraded)) d).setStored []

/-- What the Route Setter does when lane mode leaves NORMAL (R77). -/
def leaveNormal (v : Env) (d : Live) : Live :=
  let d1 := emptyStored d
  let d2 := d1.eachSlot (fun i d => failSetting v i .laneDegraded d)
  d2.eachSlot (fun i d => if (d.slot i).state = .clear then evaluate v i d else d)

/-- What a return to NORMAL does: every HELD slot is evaluated, every group's arbiter runs (R77,
R101). -/
def returnNormal (v : Env) (d : Live) : Live :=
  runArbiters .now v (fun _ _ => true)
    (d.eachSlot (fun i d => if (d.slot i).state = .held then evaluate v i d else d))

/-- A change of lane mode, from the environment in which only the marks, timers and views have been
changed: it is reported, every agreed value is derived again, and the change is handed on. The Route
Setter's acts on leaving NORMAL come before the changes of agreed values are passed on (R9, R77, R146,
log 13). -/
def State.changeMode (before : LaneMode) (s : State) : State :=
  let v := { s.env with elements := s.env.elements.map s.env.derive }
  let d0 := s.live.report (.laneMode v.mode v.presentA v.presentB)
  let d1 := if before = .normal then leaveNormal v d0 else d0
  let d2 := (s.env.elements.zip v.elements).foldl
    (fun d x => handOnElement v false x.1 x.2 d) d1
  let d3 := if v.mode = .normal then returnNormal v d2 else d2
  let d4 := v.elements.foldl (fun d e => reconsider v e.num d) d3
  { s with env := v, live := serve v d4 }

end Sys2Proof.Machine
end

