-- ==== Sys2Proof/Machine/Agreement.lean ====
section
/-! DEFINITION. The frame exchange (R169, R145), the Agreement Unit's pairing (R172, R174) and the part
state's gate (R175). -/

namespace Sys2Proof.Machine

open Sys2Proof

/-- The report frame shifted out in an exchange; its report leaves the queue when the frame went out
whole (R169, R170). -/
def State.shiftOut (x : Exchange) (s : State) : State :=
  if x.whole then { s with live := s.live.setLane x.lane (LanePort.shiftOut s.env) } else s

/-- A valid frame from a PRESENT lane restarts its silence timer while OPERATING (R145). -/
def Env.heard (v : Env) (l : LaneId) : Env :=
  if v.operating && v.present l then v.setSilence l (some (after v.now v.timing.laneTimeout)) else v

/-- What every valid frame does before it is routed: the report frame goes out, then the silence timer
restarts (R145, R169). -/
def State.exchange (x : Exchange) (s : State) : State :=
  let s1 := s.shiftOut x
  { s1 with env := s1.env.heard x.lane }

/-- The agreement window of an entry made now: the timing set's while OPERATING, 250 ms otherwise
(R172). -/
def Env.window (v : Env) : Nat := if v.operating then v.timing.window else Config.loadWindow

/-- The first entry equal to a request removed from a pending list (R172). -/
def dropFirst (q : Request) : List PendingEntry → List PendingEntry
  | [] => []
  | e :: es => if e.request = q then es else e :: dropFirst q es

/-- A voted request compared with the other lane's list: taken at the first match, or appended, or
refused with QUEUE_FULL to the sender alone (R172). The answer says whether it is taken. -/
def pairOrWait (v : Env) (l : LaneId) (q : Request) (d : Live) : Live × Bool :=
  if (d.lane l.other).requests.any (fun e => e.request = q) then
    (d.setLane l.other (fun p => { p with requests := dropFirst q p.requests }), true)
  else if (d.lane l).requests.length < Config.pendingCapacity then
    let e : PendingEntry := { request := q, arrival := v.now, expiry := after v.now v.window }
    (d.setLane l (fun p => { p with requests := p.requests ++ [e] }), false)
  else (d.reportTo l (refusal q .queueFull), false)

/-- The Agreement Unit's handling of a voted request by lane mode and presence (R172, R174). -/
def vote (v : Env) (l : LaneId) (q : Request) (d : Live) : Live × Bool :=
  if v.operating && v.mode != .normal then
    if isRejoin q then pairOrWait v l q d
    else if v.present l && takenAlone q then (d, true)
    else (d.reportTo l (refusal q .laneDegraded), false)
  else pairOrWait v l q d

/-- The reason the part state refuses a taken request with (R175). -/
def gate (v : Env) (q : Request) : Option Reason :=
  match v.part, q with
  | .operating, .loadBegin => some .busy
  | .operating, .loadRecord _ => some .busy
  | .operating, .loadEnd _ => some .busy
  | .operating, _ => none
  | _, .loadBegin => none
  | _, .restart o => if o = 1 then none else some .notConfigured
  | .loading, .loadRecord _ => none
  | .loading, .loadEnd _ => none
  | _, _ => some .notConfigured

/-- A refusal to both lanes. -/
def State.refuse (q : Request) (r : Reason) (s : State) : State :=
  { s with live := s.live.report (refusal q r) }

/-- A taken request handed to its owner, or refused by the part state (R175). -/
def State.hand (q : Request) (own : State → State) (s : State) : State :=
  match gate s.env q with
  | some r => s.refuse q r
  | none => own s

/-- A voted request's whole frame: the exchange, the agreement, and its owner when it is taken. -/
def State.voted (x : Exchange) (q : Request) (own : State → State) (s : State) : State :=
  let s1 := s.exchange x
  let r := vote s1.env x.lane q s1.live
  let s2 := { s1 with live := r.1 }
  if r.2 then s2.hand q own else s2

/-- A read: the exchange, then its answer or refusal to the asking lane alone (R171). -/
def State.answered (x : Exchange) (f : Env → Live → Report) (s : State) : State :=
  let s1 := s.exchange x
  { s1 with live := s1.live.reportTo x.lane (f s1.env s1.live) }

end Sys2Proof.Machine
end

