-- ==== Sys2Proof/Machine/NeighbourFrames.lean ====
section
/-! DEFINITION. What the Handover Controller does with each neighbour frame it takes (R151, R156, R159
to R166). -/

namespace Sys2Proof.Machine

open Sys2Proof

/-! ### Taking a frame (R151) -/

/-- The silence timer of a link restarted (R151). -/
def restartSilence (v : Env) (l : Nat) (d : Live) : Live :=
  d.setLink l (fun k => { k with silence := some (after v.now v.timing.linkTimeout) })

/-- The head of the receive queue removed. -/
def popFrame (l : Nat) (d : Live) : Live := d.setLink l (fun k => { k with rx := k.rx.drop 1 })

/-- A frame other than STATUS taken from the head of a receive queue: on an UP link the silence timer
restarts and the frame is applied to the boundary it names; otherwise it is discarded (R151). A frame
of another kind at the head, or none, is left (log 1). -/
def takeFrame {α : Type} (v : Env) (l : Nat) (pick : NFrame → Option (Nat × α))
    (apply : Nat → α → Live → Live) (d : Live) : Live :=
  match (d.link l).rx.head?.bind pick with
  | some (n, a) =>
    let d1 := popFrame l d
    if (d.link l).state = .up then
      let d2 := restartSilence v l d1
      match v.namedBoundary l n with
      | some bd => apply bd.number a d2
      | none => d2
    else d1
  | none => d

/-! ### STATUS (R156) -/

/-- Step 3 of R156: the acceptance has been used. -/
def consumes (x : Boundary) (e : StatusEntry) : Bool :=
  x.acceptance = .held && (x.exitEntered || x.awaiting) && (e.berthEntered || !e.berthLocked)

/-- Step 4 of R156: the neighbour holds nothing for a berth that no train has entered. -/
def abandons (x : Boundary) (e : StatusEntry) : Bool :=
  x.berthLocked && x.marks.all (fun m => !m.occ) && e.acceptance = .none

/-- Step 5 of R156: the re-requests, where the STATUS conditions of R158 and R162 hold. -/
def reRequest (v : Env) (b : Nat) (prev : Option StatusEntry) (e : StatusEntry) (first : Bool)
    (d : Live) : Live :=
  let rising := e.berthReady && prev.any (fun p => !p.berthReady)
  let d1 := if e.direction != .outward then trySeek v b d else d
  if first || rising then tryAccept v b d1 else d1

/-- Step 6 of R156: neighbour waiting, and the offer of R161 after it. -/
def waitingStep (v : Env) (b : Nat) (e : StatusEntry) (d : Live) : Live :=
  if !linkUp v d b then d
  else if e.waiting then
    if (d.boundary b).direction = .outward then
      tryOffer v b (d.setBoundary b (fun x => { x with waiting := true }))
    else d
  else d.setBoundary b (fun x => { x with waiting := false })

/-- The boundary agrees with what the STATUS shows (R166). -/
def consistent (x : Boundary) : Option StatusEntry → Bool
  | none => false
  | some e =>
    ((x.direction = .outward && e.direction = .inward)
      || (x.direction = .inward && e.direction = .outward)
      || (x.direction = .neutral && e.direction = .neutral))
    && (x.acceptance != .held || e.berthLocked || x.exitEntered || x.awaiting)
    && (e.acceptance != .held || x.berthLocked)

/-- Step 7 of R156: the consistency timer started or cancelled (R166). -/
def consistencyStep (v : Env) (b : Nat) (e : Option StatusEntry) (d : Live) : Live :=
  if (d.boundary b).restricted || !linkUp v d b then d
  else if consistent (d.boundary b) e then d.setBoundary b (fun x => { x with consExpiry := none })
  else if (d.boundary b).consExpiry.isSome then d
  else d.setBoundary b (fun x => { x with consExpiry := some (after v.now v.timing.response) })

/-- The entry signal of a boundary's exit slot in CLEAR, its aspect computed (R79, R157). -/
def exitAspect (v : Env) (b : Nat) (d : Live) : Live :=
  match (d.boundary b).exitSlot with
  | some i =>
    match d.routeOf v i with
    | some r => if (d.slot i).state = .clear then computeAspect v r.entry d else d
    | none => d
  | none => d

/-- Steps 3 to 6 of R156, for an entry of the frame: consumption, an abandoned berth, the re-requests, and
neighbour waiting, with one report after the last change (R168, log 15). `prev` is the entry before. -/
def applyViews (v : Env) (b : Nat) (prev : Option StatusEntry) (e : StatusEntry) (first : Bool)
    (d : Live) : Live :=
  let before := d.boundary b
  let d1 := if consumes before e then tryOffer v b (setAcceptance b .none none d) else d
  let r := if abandons (d1.boundary b) e then berthWhole v b (Release.start d1) else Release.start d1
  let d2 := waitingStep v b e (reRequest v b prev e first r.live)
  finishBerth v b before (resetEnded before b d2) { r with live := d2 }

/-- A STATUS applied to one boundary of its link (R156). Where the frame has no entry for the boundary, the
views become absent, and only the acceptance request that the first STATUS of a link makes is left of
steps 3 to 6 (R162). A link that a full transmit queue has taken out of UP on the way takes no further
step (log 15). -/
def applyEntry (v : Env) (b : Nat) (e : Option StatusEntry) (first : Bool) (d : Live) : Live :=
  if !linkUp v d b then d
  else
    let prev := (d.boundary b).views
    let home := neighbourHome v d b
    let d1 := d.setBoundary b (fun x =>
      { x with views := e, home := match e with | some y => y.home | none => x.home })
    let d2 := if neighbourHome v d1 b != home then exitAspect v b d1 else d1
    let d3 :=
      match e with
      | some y => applyViews v b prev y first d2
      | none => if first then boundaryEvent v b none (tryAccept v b) d2 else d2
    consistencyStep v b e d3

/-- A STATUS applied on an UP link: the area-stop flag, then each boundary in number order (R156). `was`
is the level of the link's source before the STATUS was taken (R131). Of two entries with one link boundary
number the first is taken and the other ignored (DESIGN CHOICE, log 40). -/
def applyStatus (v : Env) (l : Nat) (stop : Bool) (es : List StatusEntry) (first was : Bool)
    (d : Live) : Live :=
  let d1 := edge v (.link l) was (d.setLink l (fun k => { k with remoteStop := stop }))
  (v.linkBoundaries l).foldl
    (fun d bd => applyEntry v bd.number (es.find? (fun e => e.number = bd.linkNumber)) first d) d1

/-- A STATUS taken from the head of a receive queue (R151, R152, R156). -/
def takeStatus (v : Env) (l : Nat) (d : Live) : Live :=
  match (d.link l).rx.head? with
  | some (.status stop es) =>
    let was := d.linkAsserted l
    let d1 := popFrame l d
    match (d.link l).state with
    | .up => applyStatus v l stop es false was (restartSilence v l d1)
    | .disabled => d1
    | _ => applyStatus v l stop es true was (serve v (becomeUp v l d1))
  | _ => d

/-! ### Direction frames (R159 to R161) -/

/-- A contest between equal seniorities (R160): restricted and NEUTRAL, CONTEST raised, the exit slot in
SETTING failed (R71). -/
def contestEqual (v : Env) (b : Nat) (d : Live) : Live :=
  let before := d.boundary b
  let d1 := d.setBoundary b (fun x =>
    { x with restricted := true, direction := .neutral, reqExpiry := none, consExpiry := none })
  let d2 := sendFrom v b .dirRefuse d1
  let d3 := match v.boundary? b with | some bd => raise v bd.element .contest none d2 | none => d2
  let d4 := reportChange b before (some Reason.boundaryUnavailable.code) d3
  let d5 :=
    match (d4.boundary b).exitSlot with
    | some i => failSetting v i .boundaryUnavailable d4
    | none => d4
  (evaluateExit v b d5).setReeval true

/-- A DIR_REQUEST met by an own request outstanding (R160); a change it causes is reported with
BOUNDARY_UNAVAILABLE (R168). -/
def contest (v : Env) (b : Nat) (sender : Seniority) (d : Live) : Live :=
  let own := match v.boundary? b with | some bd => bd.seniority | none => sender
  match own, sender with
  | .senior, .junior =>
    boundaryEvent v b none (fun d =>
      tryOffer v b (sendFrom v b .dirRefuse
        (d.setBoundary b (fun x => { x with waiting := true })))) d
  | .junior, .senior =>
    boundaryEvent v b (some Reason.boundaryUnavailable.code) (fun d =>
      sendFrom v b .dirGrant
        (setDirection b .inward (d.setBoundary b (fun x => { x with reqExpiry := none })))) d
  | _, _ => contestEqual v b d

/-- A DIR_REQUEST applied (R159). -/
def applyDirRequest (v : Env) (b : Nat) (sender : Seniority) (d : Live) : Live :=
  let x := d.boundary b
  if x.restricted then boundaryEvent v b none (sendFrom v b .dirRefuse) d
  else if x.reqExpiry.isSome then contest v b sender d
  else
    match x.direction with
    | .outward =>
      if boundaryBusy d b then
        boundaryEvent v b none (fun d =>
          tryOffer v b (sendFrom v b .dirRefuse
            (d.setBoundary b (fun x => { x with waiting := true })))) d
      else
        boundaryEvent v b none (fun d =>
          sendFrom v b .dirGrant
            (setDirection b .inward (d.setBoundary b (fun x => { x with waiting := false })))) d
    | _ => boundaryEvent v b none (fun d => sendFrom v b .dirGrant (setDirection b .inward d)) d

/-- The guard of R161 on DIR_GRANT and DIR_OFFER: not RESTRICTED, the berth FREE. -/
def directionFree (d : Live) (b : Nat) : Bool :=
  !(d.boundary b).restricted && !(d.boundary b).berthLocked

/-- A DIR_GRANT applied (R161). -/
def applyDirGrant (v : Env) (b : Nat) (d : Live) : Live :=
  if (d.boundary b).reqExpiry.isSome && directionFree d b then
    boundaryEvent v b none (becomeOutward v b) d
  else d

/-- A DIR_REFUSE applied (R158, R161). -/
def applyDirRefuse (b : Nat) (d : Live) : Live :=
  d.setBoundary b (fun x => { x with reqExpiry := none })

/-- A DIR_OFFER applied (R161). -/
def applyDirOffer (v : Env) (b : Nat) (d : Live) : Live :=
  if directionFree d b then boundaryEvent v b none (becomeOutward v b) d else d

/-! ### Acceptance frames (R162, R164, R165) -/

/-- The answer to an ACCEPT_REQUEST: the reason it is refused with, or a grant (R164). -/
def berthRefusal (v : Env) (d : Live) (bd : BoundaryDef) : Option Reason :=
  let x := d.boundary bd.number
  if x.direction != .inward || x.restricted then some .direction
  else if x.berthLocked || !bd.berth.all (berthFree v d) then some .berthLocked
  else if bd.berth.any (fun n => v.occupied n) then some .berthOccupied
  else none

/-- BERTH locks placed on every berth section (R52). -/
def lockBerth (bd : BoundaryDef) (d : Live) : Live :=
  bd.berth.foldl (fun d n => d.setControl n (fun c =>
    { c with lock := some { holder := .berth bd.number, mode := .berth } })) d

/-- An ACCEPT_REQUEST applied (R164). -/
def applyAcceptRequest (v : Env) (b : Nat) (d : Live) : Live :=
  match v.boundary? b with
  | some bd =>
    match berthRefusal v d bd with
    | some r => boundaryEvent v b none (sendFrom v b (fun n => .acceptRefuse n r.code)) d
    | none =>
      boundaryEvent v b none (fun d =>
        let d1 := (lockBerth bd d).setBoundary b (fun x =>
          { x with berthLocked := true, marks := bd.berth.map (fun _ => Mark.none) })
        sendFrom v b (fun n => .acceptGrant n (d1.control bd.home).aspect) d1) d
  | none => d

/-- An ACCEPT_GRANT applied (R162). The home aspect of one that comes while the acceptance is not REQUESTED is
ignored: R162 takes it in the REQUESTED case, where R78 and R157 speak of the last ACCEPT_GRANT (DESIGN CHOICE,
log 41). -/
def applyAcceptGrant (v : Env) (b : Nat) (home : Aspect) (d : Live) : Live :=
  if (d.boundary b).acceptance = .requested then
    let was := neighbourHome v d b
    let d1 := boundaryEvent v b none (fun d =>
      setAcceptance b .held none (d.setBoundary b (fun x => { x with home := home }))) d
    if neighbourHome v d1 b != was then exitAspect v b d1 else d1
  else boundaryEvent v b none (sendFrom v b .acceptCancel) d

/-- An ACCEPT_REFUSE applied; its reason is reported (R162). -/
def applyAcceptRefuse (v : Env) (b : Nat) (reason : Nat) (d : Live) : Live :=
  if (d.boundary b).acceptance = .requested then
    boundaryEvent v b (some reason) (fun d => tryOffer v b (setAcceptance b .none none d)) d
  else d

/-- A berth released whole on the neighbour's word, when no train has entered it (R165). -/
def applyAcceptCancel (v : Env) (b : Nat) (d : Live) : Live :=
  let before := d.boundary b
  if before.berthLocked && before.marks.all (fun m => !m.occ) then
    let r := berthWhole v b (Release.start d)
    finishBerth v b before (resetEnded before b r.live) r
  else d

end Sys2Proof.Machine
end

