-- ==== Sys2Proof/Machine/Loading.lean ====
section
/-! DEFINITION. The Definition Store: filing a record (R22), the fourteen checks (R34), the adjustments
(R2, R4, R28, R30, R31, R33) and the standing set they leave. -/

namespace Sys2Proof.Machine

open Sys2Proof

/-! ### Filing (R22) -/

/-- The element number of an ELEMENT_DEF. -/
def elementKey : Record → Option Nat
  | .point n .. => some n
  | .signal n .. => some n
  | .track n .. => some n
  | .boundary n .. => some n
  | .oddElement n _ => some n
  | _ => none

/-- The key of a record lies within its range (R22). -/
def keyOk : Record → Bool
  | .point n .. => n < 512
  | .signal n .. => n < 512
  | .track n .. => n < 512
  | .boundary n .. => n < 512
  | .oddElement n _ => n < 512
  | .routeHead r .. => r < 384
  | .routePath r .. => r < 384
  | .routeOverlap r .. => r < 384
  | .routeFlank r .. => r < 384
  | .flankDef i _ => i < 256
  | .approachDef n _ => n < 512
  | .boundaryDef b .. => b < 16
  | .powerGroupDef g .. => g < 4
  | .stopGroupDef g .. => g < 8
  | .linkDef l .. => l < 4
  | .timingDef p _ => p < 14

/-- Two runs of indices meet. -/
def runsMeet (f m g n : Nat) : Bool := f < g + n && g < f + m

/-- A record's key, or one of a run's indices, is already filed by another of its kind (R22, R24, R25). -/
def clashes : Record → Record → Bool
  | .routeHead r .., .routeHead q .. => r = q
  | .routePath r f es, .routePath q g xs => r = q && runsMeet f es.length g xs.length
  | .routeOverlap r f es, .routeOverlap q g xs => r = q && runsMeet f es.length g xs.length
  | .routeFlank r f es, .routeFlank q g xs => r = q && runsMeet f es.length g xs.length
  | .flankDef i _, .flankDef j _ => i = j
  | .approachDef n _, .approachDef m _ => n = m
  | .boundaryDef b .., .boundaryDef c .. => b = c
  | .powerGroupDef g .., .powerGroupDef h .. => g = h
  | .stopGroupDef g .., .stopGroupDef h .. => g = h
  | .linkDef l .., .linkDef k .. => l = k
  | .timingDef p _, .timingDef q _ => p = q
  | x, y => match elementKey x, elementKey y with | some n, some m => n = m | _, _ => false

/-- The filed records of a staged set, in arrival order, with their arrival indices. -/
def Staged.filed (s : Staged) : List (Nat × Record) :=
  s.records.zipIdx.filterMap (fun x =>
    if x.1.filed then x.1.record.map (fun r => (x.2, r)) else none)

/-- A LOAD_RECORD taken into the staged set: its payload enters the digest, and it is filed or marked
(R22, R176). -/
def Staged.take (payload : List Byte) (s : Staged) : Staged :=
  let rec? := recordOf payload
  let ok := match rec? with
    | some r => keyOk r && !(s.filed.any (fun x => clashes x.2 r))
    | none => false
  { records := s.records ++ [{ payload := payload, record := rec?, filed := ok }]
    digest := crcFrom s.digest payload }

/-- An empty staged set, its digest all ones (R21, R176). -/
def Staged.open : Staged := { records := [], digest := 0xFFFF }

/-! ### What the filed records define -/

/-- The ELEMENT_DEF of an element. -/
def recElement (rs : List (Nat × Record)) (n : Nat) : Option Record :=
  (rs.find? (fun x => elementKey x.2 = some n)).map Prod.snd
/-- The element is defined a SECTION. -/
def recSection (rs : List (Nat × Record)) (n : Nat) : Bool :=
  match recElement rs n with | some (.track ..) => true | _ => false
/-- The element is defined a POINT. -/
def recPoint (rs : List (Nat × Record)) (n : Nat) : Bool :=
  match recElement rs n with | some (.point ..) => true | _ => false
/-- The element is defined a SIGNAL. -/
def recSignal (rs : List (Nat × Record)) (n : Nat) : Bool :=
  match recElement rs n with | some (.signal ..) => true | _ => false
/-- The element is defined a MAIN signal. -/
def recMain (rs : List (Nat × Record)) (n : Nat) : Bool :=
  match recElement rs n with | some (.signal _ _ c ..) => c = 0 | _ => false
/-- The boundary number of a BOUNDARY element. -/
def recBoundary (rs : List (Nat × Record)) (n : Nat) : Option Nat :=
  match recElement rs n with | some (.boundary _ _ b) => some b | _ => none
/-- The containing section a point's definition names. -/
def recContaining (rs : List (Nat × Record)) (n : Nat) : Option Nat :=
  match recElement rs n with | some (.point _ _ c ..) => some c | _ => none
/-- A link has a LINK_DEF. -/
def recLink (rs : List (Nat × Record)) (l : Nat) : Bool :=
  rs.any (fun x => match x.2 with | .linkDef k .. => k = l | _ => false)
/-- A boundary number has a BOUNDARY_DEF. -/
def recBoundaryDef (rs : List (Nat × Record)) (b : Nat) : Bool :=
  rs.any (fun x => match x.2 with | .boundaryDef c .. => c = b | _ => false)
/-- The options of a flank record. -/
def recFlank (rs : List (Nat × Record)) (f : Nat) : Option (List (Nat × Nat × Nat)) :=
  rs.findSome? (fun x => match x.2 with
    | .flankDef i os => if i = f then some os else none
    | _ => none)
/-- The path length, overlap length and flank count of a route's head. -/
def recHead (rs : List (Nat × Record)) (r : Nat) : Option (Nat × Nat × Nat) :=
  rs.findSome? (fun x => match x.2 with
    | .routeHead q _ _ _ pl ol fc _ => if q = r then some (pl, ol, fc) else none
    | _ => none)

/-- The entries of a run placed at their indices, each with the arrival index of its run. -/
def placeRun {α : Type} (arrival first : Nat) (es : List α) : List (Nat × Nat × α) :=
  es.zipIdx.map (fun x => (first + x.2, arrival, x.1))

/-- The path entries filed for a route: index, arrival of the run, element and position. -/
def recPath (rs : List (Nat × Record)) (r : Nat) : List (Nat × Nat × Nat × Nat) :=
  rs.flatMap (fun x => match x.2 with
    | .routePath q f es => if q = r then placeRun x.1 f es else []
    | _ => [])
/-- The overlap entries filed for a route. -/
def recOverlap (rs : List (Nat × Record)) (r : Nat) : List (Nat × Nat × Nat × Nat) :=
  rs.flatMap (fun x => match x.2 with
    | .routeOverlap q f es => if q = r then placeRun x.1 f es else []
    | _ => [])
/-- The flank requirements filed for a route. -/
def recFlanks (rs : List (Nat × Record)) (r : Nat) : List (Nat × Nat × Nat × Nat) :=
  rs.flatMap (fun x => match x.2 with
    | .routeFlank q f es => if q = r then placeRun x.1 f es else []
    | _ => [])

/-- Every index below a length is filled. -/
def filled (n : Nat) (es : List (Nat × Nat × Nat × Nat)) : Bool :=
  (List.range n).all (fun k => es.any (fun e => e.1 = k))

/-- A list names nothing twice. -/
def allDistinct : List Nat → Bool
  | [] => true
  | x :: xs => !xs.contains x && allDistinct xs

/-! ### The fourteen checks (R34) -/

/-- A reaction byte: a group 0 to 7, or FFh for NONE (11.4). -/
def reactionOk (r : Nat) : Bool := r < 8 || r = 255
/-- A confirmation time of 1, 2, 4 or 6 units (R2, R3). -/
def unitsOk (u : Nat) : Bool := u = 1 || u = 2 || u = 4 || u = 6

/-- Check 2: every field value within its enumeration, every confirmation time one of the four. The model
counts a number above its range, other than a key, as outside its enumeration, reads bit k of the
propagate mask as link k and fails its bits 4 to 7, and ignores the position byte of a SIGNAL or CHAIN
option (DESIGN CHOICE, log 19). -/
def check2 : Record → Bool
  | .point _ r _ g _ _ u _ => reactionOk r && g < 4 && unitsOk u
  | .signal _ r c u _ p => reactionOk r && c < 2 && unitsOk u && reactionOk p
  | .track _ r _ => reactionOk r
  | .boundary _ r b => reactionOk r && b < 16
  | .oddElement _ _ => false
  | .routeHead _ c .. => c < 2
  | .routePath _ _ es => es.all (fun e => e.2 < 2 || e.2 = 255)
  | .routeOverlap _ _ es => es.all (fun e => e.2 < 2 || e.2 = 255)
  | .routeFlank .. => true
  | .flankDef _ os => os.all (fun o => o.1 < 3 && (o.1 != 0 || o.2.2 < 2))
  | .approachDef .. => true
  | .boundaryDef _ l n s _ _ => l < 4 && n < 4 && s < 2
  | .powerGroupDef _ _ _ p => p < 2
  | .stopGroupDef _ _ h p => h < 2 && p < 16
  | .linkDef _ s _ => s < 2
  | .timingDef .. => true

/-- The kind of an ELEMENT_DEF as its code, and the per-kind limit (0.6). -/
def elementLimit : Record → Option (Nat × Nat)
  | .point .. => some (0, 128)
  | .signal .. => some (1, 128)
  | .track .. => some (2, 256)
  | .boundary .. => some (3, 16)
  | _ => none

/-- Check 3: the per-kind limit is not exceeded by this record, in arrival order. -/
def check3 (rs : List (Nat × Record)) (i : Nat) (r : Record) : Bool :=
  match elementLimit r with
  | some (k, limit) =>
    (rs.filter (fun x => x.1 < i && (elementLimit x.2).map Prod.fst = some k)).length < limit
  | none => true

/-- Check 4: a point's containing section is a defined SECTION. -/
def check4 (rs : List (Nat × Record)) : Record → Bool
  | .point _ _ c .. => recSection rs c
  | _ => true

/-- The BOUNDARY elements with a boundary number, by arrival index. -/
def boundaryElements (rs : List (Nat × Record)) (b : Nat) : List Nat :=
  rs.filterMap (fun x => match x.2 with
    | .boundary _ _ c => if c = b then some x.1 else none
    | _ => none)

/-- Check 5: BOUNDARY elements and BOUNDARY_DEFs match one to one (R29). Where several elements carry one
boundary number, all but the last of them and the BOUNDARY_DEF offend, so that the first of all of them to
arrive is named (DESIGN CHOICE, log 18). -/
def check5 (rs : List (Nat × Record)) (i : Nat) : Record → Bool
  | .boundary _ _ b => recBoundaryDef rs b && (boundaryElements rs b).all (fun j => j ≤ i)
  | .boundaryDef b .. => (boundaryElements rs b).length = 1
  | _ => true

/-- Check 6: a ROUTE_HEAD is valid (R23). -/
def check6 (rs : List (Nat × Record)) : Record → Bool
  | .routeHead _ c entry exit pl ol fc _ =>
    let toSignal := recSignal rs exit
    let toBoundary := (recBoundary rs exit).isSome
    recSignal rs entry && ((toSignal && exit != entry) || toBoundary)
      && (c != 0 || (recMain rs entry && (!toSignal || recMain rs exit)))
      && (c = 0 || ol = 0) && (!toBoundary || ol = 0)
      && 1 ≤ pl && pl ≤ 24 && ol ≤ 6 && fc ≤ 12
  | _ => true

/-- Check 7: no run orphaned or in excess, no index unfilled (R24, R25). -/
def check7 (rs : List (Nat × Record)) : Record → Bool
  | .routeHead r _ _ _ pl ol fc _ =>
    filled pl (recPath rs r) && filled ol (recOverlap rs r) && filled fc (recFlanks rs r)
  | .routePath r f es => (recHead rs r).any (fun h => f + es.length ≤ h.1)
  | .routeOverlap r f es => (recHead rs r).any (fun h => f + es.length ≤ h.2.1)
  | .routeFlank r f es => (recHead rs r).any (fun h => f + es.length ≤ h.2.2)
  | _ => true

/-- The entries of a route in one order, path before overlap, with their list (0 or 1), index, arrival
of their run, element and position. The entries of a run that goes beyond its list are among them (DESIGN
CHOICE, log 18). -/
def routeEntries (rs : List (Nat × Record)) (r : Nat) : List (Nat × Nat × Nat × Nat × Nat) :=
  (recPath rs r).map (fun e => (0, e)) ++ (recOverlap rs r).map (fun e => (1, e))

/-- The runs that offend check 8 through one entry: a wrong form, a point whose containing section does
not stand before it in its list, an element that stands earlier too. The run named holds the later of
the entries concerned (R24, R34). -/
def entryOffends (rs : List (Nat × Record)) (all : List (Nat × Nat × Nat × Nat × Nat))
    (e : Nat × Nat × Nat × Nat × Nat) : List Nat :=
  let (lst, idx, arrival, n, pos) := e
  let form := if pos = 255 then recSection rs n else recPoint rs n
  let twice := all.any (fun x => x.2.2.2.1 = n && (x.1 < lst || (x.1 = lst && x.2.1 < idx)))
  let order :=
    if pos = 255 then []
    else match recContaining rs n with
      | some c =>
        let places := all.filter (fun x => x.1 = lst && x.2.2.2.1 = c)
        if places.any (fun x => x.2.1 < idx) then []
        else match places with
          | x :: _ => [x.2.2.1]
          | [] => [arrival]
      | none => []
  (if form && !twice then [] else [arrival]) ++ order

/-- Check 8: no path or overlap rule is broken by an entry this run must answer for (R24). -/
def check8 (rs : List (Nat × Record)) (i : Nat) (r : Record) : Bool :=
  let ok := fun (route : Nat) =>
    let all := routeEntries rs route
    !(all.any (fun e => (entryOffends rs all e).contains i))
  match r with
  | .routePath q .. => ok q
  | .routeOverlap q .. => ok q
  | _ => true

/-- Check 9: a flank requirement names a loaded flank record and an index of the path (R25). -/
def check9 (rs : List (Nat × Record)) : Record → Bool
  | .routeFlank r _ qs =>
    qs.all (fun q => (recFlank rs q.1).isSome && (recHead rs r).any (fun h => q.2 < h.1))
  | _ => true

/-- Check 10: a FLANK_DEF has 1 to 4 options, each of its form (R26). -/
def check10 (rs : List (Nat × Record)) : Record → Bool
  | .flankDef _ os =>
    1 ≤ os.length && os.length ≤ 4 && os.all (fun o =>
      if o.1 = 0 then recPoint rs o.2.1
      else if o.1 = 1 then recSignal rs o.2.1
      else (recFlank rs o.2.1).isSome)
  | _ => true

/-- A way of `k` CHAIN options leads from a loaded flank record to a loaded flank record. A target that is
not loaded ends the way (log 18); check 10 names it. -/
def chainsOn (rs : List (Nat × Record)) : Nat → Nat → Bool
  | 0, f => (recFlank rs f).isSome
  | k + 1, f =>
    match recFlank rs f with
    | some os => os.any (fun o => o.1 = 2 && chainsOn rs k o.2.1)
    | none => false

/-- Check 11: a flank record is at most four deep and stands on no cycle: no way of four CHAIN options
leads on from it (R27). A record that chains into a cycle without standing on it has no depth by R27; the
model charges it too (DESIGN CHOICE, log 18). -/
def check11 (rs : List (Nat × Record)) : Record → Bool
  | .flankDef f _ => !chainsOn rs Config.chainDepth f
  | _ => true

/-- Check 12: an approach zone is valid (R28). -/
def check12 (rs : List (Nat × Record)) : Record → Bool
  | .approachDef n es =>
    recMain rs n && es.length ≤ 3 && allDistinct (es.map Prod.fst)
      && es.all (fun e => recSection rs e.1
          || (recBoundary rs e.1).any (fun b => recBoundaryDef rs b))
  | _ => true

/-- The link, link boundary number and berth of every other BOUNDARY_DEF. -/
def otherBoundaries (rs : List (Nat × Record)) (i : Nat) : List (Nat × Nat × List Nat) :=
  rs.filterMap (fun x => match x.2 with
    | .boundaryDef _ l n _ _ berth => if x.1 = i then none else some (l, n, berth)
    | _ => none)

/-- Check 13: a boundary definition is valid (R29). -/
def check13 (rs : List (Nat × Record)) (i : Nat) : Record → Bool
  | .boundaryDef _ l n _ home berth =>
    let others := otherBoundaries rs i
    recLink rs l && others.all (fun o => o.1 != l || o.2.1 != n)
      && 1 ≤ berth.length && berth.length ≤ 4 && berth.all (recSection rs) && allDistinct berth
      && others.all (fun o => berth.all (fun k => !o.2.2.contains k)) && recSignal rs home
  | _ => true

/-- Check 14: every link a STOP_GROUP_DEF names has a LINK_DEF (R32). -/
def check14 (rs : List (Nat × Record)) : Record → Bool
  | .stopGroupDef _ src _ prop =>
    (List.range 4).all (fun l => (!(src.testBit (l + 2)) && !(prop.testBit l)) || recLink rs l)
  | _ => true

/-- The checks from the second on, in order; the answers say which hold. -/
def checks (rs : List (Nat × Record)) (i : Nat) (r : Record) : List Bool :=
  [check2 r, check3 rs i r, check4 rs r, check5 rs i r, check6 rs r, check7 rs r, check8 rs i r,
   check9 rs r, check10 rs r, check11 rs r, check12 rs r, check13 rs i r, check14 rs r]

/-- The lowest check a record fails (R34). -/
def lowestFailed (rs : List (Nat × Record)) (i : Nat) (x : StagedRecord) : Option Nat :=
  match x.filed, x.record with
  | true, some r => ((checks rs i r).findIdx? (fun ok => !ok)).map (fun k => k + 2)
  | _, _ => some 1

/-- The kind byte of a record's payload. -/
def StagedRecord.kind (x : StagedRecord) : Nat := operand1 x.payload

/-- The offending record with the lowest arrival index, and its lowest failed check (R34). -/
def firstOffence (s : Staged) : Option (Nat × Nat × Nat) :=
  let rs := s.filed
  s.records.zipIdx.findSome? (fun x =>
    (lowestFailed rs x.2 x.1).map (fun c => (x.2, x.1.kind, c)))

/-! ### Adjustments (R2, R4, R28, R30, R31, R33) -/

/-- A value moved to the nearer end of a range. -/
def clamp (lo hi n : Nat) : Nat := max lo (min hi n)
/-- A value rounded up to a multiple of a step. -/
def roundUp (k n : Nat) : Nat := k * ((n + k - 1) / k)

/-- The throw limit a point stands with (R2). -/
def adjLimit (t : Nat) : Nat := clamp 1000 15000 (roundUp 500 t)
/-- The slow threshold a point stands with (R2). -/
def adjSlow (t w : Nat) : Nat := min (adjLimit t) (clamp 500 15000 w)
/-- The pick-up time a section stands with (R4). -/
def adjPickUp (t : Nat) : Nat := min 4000 (roundUp 250 t)
/-- The stagger a power group stands with (R31). -/
def adjStagger (t : Nat) : Nat :=
  if t = 0 then 0 else if t ≤ 250 then 250 else if t ≤ 500 then 500 else if t ≤ 1000 then 1000
  else if t ≤ 2000 then 2000 else 4000
/-- The length an approach entry stands with (R28). -/
def adjLength (rs : List (Nat × Record)) (e : Nat × Nat) : Nat :=
  if recSection rs e.1 then min 4000 e.2 else 0
/-- The value a timing parameter stands with, before Hmin is compared with Hmax (R33). -/
def adjTiming (p t : Nat) : Nat :=
  match p with
  | 0 => clamp 5 60 t
  | 1 => if t = 0 then 0 else clamp 10 900 t
  | 2 => clamp 10 180 t
  | 3 => min 30 t
  | 4 => clamp 10 150 t
  | 5 => min 300 t
  | 6 => clamp 30 600 t
  | 7 => clamp 10 300 t
  | 8 => min 500 t
  | 9 => clamp 200 5000 t
  | 10 => clamp 500 5000 t
  | 11 => clamp 50 1000 t
  | 12 => clamp 1000 10000 t
  | _ => clamp 1000 10000 t

/-- A parameter of the timing set. -/
def Timing.put (p t : Nat) (x : Timing) : Timing :=
  match p with
  | 0 => { x with settingLimit := t }
  | 1 => { x with storedLifetime := t }
  | 2 => { x with overlapTime := t }
  | 3 => { x with react := t }
  | 4 => { x with braking := t }
  | 5 => { x with holdMin := t }
  | 6 => { x with holdMax := t }
  | 7 => { x with speedValid := t }
  | 8 => { x with settle := t }
  | 9 => { x with discrepancy := t }
  | 10 => { x with laneTimeout := t }
  | 11 => { x with window := t }
  | 12 => { x with linkTimeout := t }
  | _ => { x with response := t }

/-- The timing set with each parameter within its own range. -/
def rangedTiming (rs : List (Nat × Record)) : Timing :=
  rs.foldl (fun t x => match x.2 with
    | .timingDef p n => t.put p (adjTiming p n)
    | _ => t) {}

/-- Hmin set equal to Hmax where it is greater (R33). -/
def Timing.ordered (t : Timing) : Timing := { t with holdMin := min t.holdMin t.holdMax }

/-- The fields of a record that were adjusted, in the order of its fields (R181, 11.5). -/
def adjustedFields (rs : List (Nat × Record)) (ranged : Timing) : Record → List Nat
  | .point _ _ _ _ t w _ _ =>
    (if adjLimit t = t then [] else [1]) ++ (if adjSlow t w = w then [] else [2])
  | .track _ _ t => if adjPickUp t = t then [] else [3]
  | .approachDef _ es => (es.filter (fun e => adjLength rs e != e.2)).map (fun _ => 4)
  | .linkDef _ _ t => if clamp 200 2000 t = t then [] else [5]
  | .powerGroupDef _ b t _ =>
    (if clamp 1 4 b = b then [] else [6]) ++ (if adjStagger t = t then [] else [7])
  | .timingDef p t =>
    (if adjTiming p t = t then [] else [8])
      ++ (if p = 5 && ranged.holdMax < ranged.holdMin then [8] else [])
  | _ => []

/-- The adjustments of a load, in arrival order: arrival index, record kind, field (R34). -/
def adjustments (s : Staged) : List (Nat × Nat × Nat) :=
  let rs := s.filed
  let t := rangedTiming rs
  s.records.zipIdx.flatMap (fun x =>
    match x.1.record with
    | some r => (adjustedFields rs t r).map (fun f => (x.2, x.1.kind, f))
    | none => [])

/-! ### The standing set -/

/-- Something put into a list kept rising by a number. -/
def insertBy {α : Type} (key : α → Nat) (x : α) : List α → List α
  | [] => [x]
  | y :: ys => if key x < key y then x :: y :: ys else y :: insertBy key x ys

/-- A list put in rising order of a number. -/
def sortBy {α : Type} (key : α → Nat) (l : List α) : List α := l.foldl (fun a x => insertBy key x a) []

/-- The reaction a byte names (11.4). -/
def reactionOf (r : Nat) : Option Nat := if r < 8 then some r else none

/-- The element definition a record gives, adjusted (R1 to R4). -/
def elementDefOf : Record → Option ElementDef
  | .point _ r c g t w u m =>
    some { reaction := reactionOf r,
           kind := .point c g (adjLimit t) (adjSlow t w) u (BitVec.ofNat 8 m) }
  | .signal _ r c u m p =>
    some { reaction := reactionOf r, kind := .signal (c = 0) u (BitVec.ofNat 8 m) (reactionOf p) }
  | .track _ r t => some { reaction := reactionOf r, kind := .track (adjPickUp t) }
  | .boundary _ r b => some { reaction := reactionOf r, kind := .boundary b }
  | _ => none

/-- An element record with the values of R5. -/
def newElement (n : Nat) (df : ElementDef) : Element :=
  { num := n, dfn := df, viewA := none, viewB := none, agreed := df.kind.safe, discExpiry := none,
    discrepant := false, occupied := (match df.kind with | .track _ => true | _ => false),
    pickUp := none, occTime := none, blocked := false }

/-- The element records a load makes, in element order (R20). -/
def loadedElements (rs : List (Nat × Record)) : List Element :=
  sortBy Element.num (rs.filterMap (fun x =>
    match elementKey x.2, elementDefOf x.2 with
    | some n, some df => some (newElement n df)
    | _, _ => none))

/-- A filed entry as the route definition holds it (R24). -/
def entryOf (e : Nat × Nat × Nat × Nat) : Entry :=
  { element := e.2.2.1, position := positionOf e.2.2.2 }

/-- Filed entries put in index order. -/
def inOrder (es : List (Nat × Nat × Nat × Nat)) : List (Nat × Nat × Nat × Nat) := sortBy Prod.fst es

/-- The route definition a head and its runs give (R23 to R25). -/
def routeDefOf (rs : List (Nat × Record)) : Record → Option RouteDef
  | .routeHead r c entry exit _ _ _ op =>
    some {
      number := r, main := c = 0, entry := entry
      exit := match recBoundary rs exit with
        | some b => .boundary exit b
        | none => .signal exit
      path := (inOrder (recPath rs r)).map entryOf
      overlap := (inOrder (recOverlap rs r)).map entryOf
      flank := (inOrder (recFlanks rs r)).map (fun q => { record := q.2.2.1, index := q.2.2.2 })
      autoReclear := op.testBit 0, storable := op.testBit 1 }
  | _ => none

/-- A flank option (R26). -/
def flankOptionOf (o : Nat × Nat × Nat) : FlankOption :=
  if o.1 = 0 then .point o.2.1 (if o.2.2 = 0 then .normal else .reverse)
  else if o.1 = 1 then .signal o.2.1
  else .chain o.2.1

/-- A flank record (R26). -/
def flankRecordOf : Record → Option FlankRecord
  | .flankDef i os => some { index := i, options := os.map flankOptionOf }
  | _ => none

/-- An approach zone, adjusted (R28). -/
def approachOf (rs : List (Nat × Record)) : Record → Option ApproachDef
  | .approachDef n es =>
    some { signal := n, entries := es.map (fun e =>
      match recBoundary rs e.1 with
      | some b => .remote e.1 b
      | none => .track e.1 (adjLength rs e)) }
  | _ => none

/-- The BOUNDARY element of a boundary number. -/
def boundaryElement (rs : List (Nat × Record)) (b : Nat) : Nat :=
  (rs.findSome? (fun x => match x.2 with
    | .boundary n _ c => if c = b then some n else none
    | _ => none)).getD 0

/-- A boundary definition (R29). -/
def boundaryDefOf (rs : List (Nat × Record)) : Record → Option BoundaryDef
  | .boundaryDef b l n s home berth =>
    some { number := b, element := boundaryElement rs b, link := l, linkNumber := n,
           seniority := if s = 0 then .senior else .junior, berth := berth, home := home }
  | _ => none

/-- A link definition, adjusted (R30). -/
def linkDefOf : Record → Option LinkDef
  | .linkDef l s t => some { number := l, enabled := s = 1, interval := clamp 200 2000 t }
  | _ => none

/-- The power groups, with the defaults of R31 for those not loaded. -/
def powerDefs (rs : List (Nat × Record)) : List PowerDef :=
  (List.range Config.powerGroups).map (fun g =>
    (rs.findSome? (fun x => match x.2 with
      | .powerGroupDef h b t p =>
        if h = g then
          some { budget := clamp 1 4 b, stagger := adjStagger t, separated := p = 1 }
        else none
      | _ => none)).getD { budget := 1, stagger := 0, separated := false })

/-- The area-stop groups, with the defaults of R32 for those not loaded. -/
def stopDefs (rs : List (Nat × Record)) : List StopDef :=
  (List.range Config.stopGroups).map (fun g =>
    (rs.findSome? (fun x => match x.2 with
      | .stopGroupDef h s hold p =>
        if h = g then
          some { sources := BitVec.ofNat 8 s, holdThrows := hold = 1, propagate := BitVec.ofNat 8 p }
        else none
      | _ => none)).getD { sources := 0, holdThrows := false, propagate := 0 })

/-- The standing set a staged set becomes, with its adjusted values (R21, R34). -/
def standingOf (s : Staged) : Defs :=
  let rs := s.filed
  { routes := rs.filterMap (fun x => routeDefOf rs x.2)
    flanks := rs.filterMap (fun x => flankRecordOf x.2)
    approaches := rs.filterMap (fun x => approachOf rs x.2)
    boundaries := sortBy BoundaryDef.number (rs.filterMap (fun x => boundaryDefOf rs x.2))
    power := powerDefs rs
    stops := stopDefs rs
    links := rs.filterMap (fun x => linkDefOf x.2)
    timing := (rangedTiming rs).ordered
    digest := s.digest
    records := s.records.length }

/-! ### Restart values (R5, R36, R55, R63, R78, R95, R126, R130, R137, R149, R154) -/

/-- A link at a load or restart (R149). -/
def Link.start (v : Env) (l : Nat) : Link :=
  match v.link? l with
  | some k =>
    if k.enabled then
      { Link.off with state := .connecting, nextStatus := some (after v.now k.interval) }
    else Link.off
  | none => Link.off

/-- Every block's restart values over the element records and definitions, with the lane ports given. -/
def restartLive (v : Env) (a b : LanePort) : Live :=
  { laneA := a, laneB := b
    controls := v.elements.map (fun e => Control.fresh e.num)
    slots := List.replicate Config.slotCount Slot.free
    stored := [], orders := []
    power := List.replicate Config.powerGroups PowerGroup.idle
    groups := List.replicate Config.stopGroups StopGroup.inactive
    links := (List.range Config.linkCount).map (Link.start v)
    boundaries := v.defs.boundaries.map (fun b => Boundary.fresh b.number)
    reeval := false }

/-- Both lanes PRESENT with fresh silence timers, and the start hold (R145, R177). -/
def Env.startUp (v : Env) : Env :=
  let silent := some (after v.now v.timing.laneTimeout)
  { v with
    presentA := true, presentB := true, silenceA := silent, silenceB := silent
    startHold := some (after v.now (1000 * v.timing.holdMax)) }

/-- The start-up latch: each group with an asserted level source in its set latches with the first of
them (R132). -/
def startUpLatch (v : Env) (d : Live) : Live :=
  (List.range d.groups.length).foldl (fun d g =>
    match assertedSources v d g with
    | src :: _ => latch v src g d
    | [] => d) d

/-! ### LOAD_BEGIN, LOAD_RECORD, LOAD_END (R176) -/

/-- A taken LOAD_BEGIN opens an empty staged set (R21, R176). -/
def State.openLoad (s : State) : State :=
  { s with env := { s.env with store := .staged Staged.open } }

/-- A taken LOAD_RECORD (R22, R176). -/
def State.takeRecord (payload : List Byte) (s : State) : State :=
  match s.env.store with
  | .staged t => { s with env := { s.env with store := .staged (t.take payload) } }
  | _ => s

/-- A failed LOAD_END: the staged set is discarded and LOAD_RESULT reported (R34, R176). -/
def State.failLoad (o : LoadOutcome) (s : State) : State :=
  { s with env := { s.env with store := .empty }, live := s.live.report (.loadResult o) }

/-- A successful LOAD_END: LOAD_RESULT, then the standing set takes effect (R176). -/
def State.standLoad (t : Staged) (s : State) : State :=
  let adj := adjustments t
  let d := s.live.report (.loadResult (.loaded adj.length (adj.take 8)))
  let v := Env.startUp { s.env with store := .standing (standingOf t), elements := loadedElements t.filed }
  { s with env := v, live := startUpLatch v (restartLive v d.laneA d.laneB) }

/-- A taken LOAD_END: the digest, then the checks, then the standing set (R34, R176). -/
def State.endLoad (digest : Nat) (s : State) : State :=
  match s.env.store with
  | .staged t =>
    if t.digest.toNat != digest then s.failLoad .digestFailed
    else match firstOffence t with
      | some (i, k, c) => s.failLoad (.invalid i k c)
      | none => s.standLoad t
  | _ => s

/-! ### Restarts (R177, R178) -/

/-- A lane port emptied by a restart; the last frame sent stays as it was (R177, R178). -/
def LanePort.emptied (p : LanePort) : LanePort := { LanePort.empty with out := p.out }

/-- A taken RESTART(KEEP) (R177). -/
def State.restartKept (s : State) : State :=
  let v := Env.startUp
    { s.env with elements := s.env.elements.map (fun e => e.restart e.blocked) }
  let d := restartLive v s.live.laneA.emptied s.live.laneB.emptied
  { s with env := v, live := startUpLatch v (d.report (.laneMode .normal true true)) }

/-- A taken RESTART(UNLOAD): UNCONFIGURED from any part state, nothing changed in UNCONFIGURED itself
(R178). The Time Base runs on and the inputs keep their levels. -/
def State.restartUnloaded (s : State) : State :=
  if s.env.part = .unconfigured then s
  else
    { s with
      env := { Env.bare s.env.as0 s.env.as1 with now := s.env.now }
      live := { Live.bare with laneA := s.live.laneA.emptied, laneB := s.live.laneB.emptied } }

end Sys2Proof.Machine
end

