-- ==== Sys2Proof/Machine/ReadCommands.lean ====
section
/-! DEFINITION. The seven reads (R19, R35, R80, R144, R168, R179) and the frames that carry no voted
request (R169, R171). -/

namespace Sys2Proof.Machine

open Sys2Proof

/-- A REFUSED report of a request by its kind code and operand. -/
def refusedBy (kind operand : Nat) (r : Reason) : Report := .refused kind operand r

/-! ### READ_ELEMENT (R19) -/

/-- The answer's body for an element and its control record. -/
def elementBody (d : Live) (e : Element) : List Byte :=
  let c := d.control e.num
  let detects := !e.isBoundary
  wordBytes e.num ++ [byteOf e.dfn.kind.code]
    ++ (if detects then [viewByte e.viewA, viewByte e.viewB, byteOf e.agreed.code]
        else [0xFF, 0xFF, 0xFF])
    ++ [optFlag (if detects then some e.discExpiry.isSome else none),
        optFlag (if detects then some e.discrepant else none),
        optFlag (if detects then some e.blocked else none),
        optByte (if e.isSection then some (if e.occupied then 1 else 0) else none),
        optFlag (if e.isSection then some e.pickUp.isSome else none)]
    ++ optTime e.occTime
    ++ holderBytes c.lock ++ [optByte (c.lock.map (fun l => l.mode.code))]
    ++ optWord (if e.isPoint then some c.normalCount else none)
    ++ optWord (if e.isPoint then some c.reverseCount else none)
    ++ optWord (if e.isSignal then some c.holdCount else none)
    ++ [optByte (c.commanded.map Position.code),
        optFlag (if e.isPoint then some (!d.standing e.num) else none),
        optByte (if e.isSignal then some c.aspect.code else none),
        countByte c.faults.length]

/-- The answer to a READ_ELEMENT (R19). -/
def answerElement (n : Nat) (v : Env) (d : Live) : Report :=
  if !v.operating then refusedBy 0x10 n .notConfigured
  else match v.element? n with
    | some e => .answer 0x90 (elementBody d e)
    | none => refusedBy 0x10 n .badOperand

/-! ### READ_SLOT (R80) -/

/-- The answer's body for a slot. -/
def slotBody (v : Env) (d : Live) (i : Nat) : List Byte :=
  let s := d.slot i
  let toBoundary := match d.routeOf v i with
    | some r => (match r.exit with | .boundary .. => true | .signal _ => false)
    | none => false
  [byteOf s.state.code] ++ optWord s.route
    ++ [optByte s.priority,
        optFlag (if s.active then some s.everCleared else none),
        optFlag (if s.active then some s.reclear else none)]
    ++ optTime s.setting ++ optTime s.overlapExpiry ++ optTime s.hold
    ++ [optByte (if s.active then some (min (unpositioned v d i).length 255) else none),
        optFlag (if toBoundary then some s.dirNeed else none),
        optFlag (if toBoundary then some s.accNeed else none)]
    ++ s.pathMarks.map markByte ++ s.overlapMarks.map markByte
    ++ [optByte (if s.active then some (protectors s).length else none)]

/-- The answer to a READ_SLOT (R80). -/
def answerSlot (i : Nat) (v : Env) (d : Live) : Report :=
  if !v.operating then refusedBy 0x11 i .notConfigured
  else if Config.slotCount ≤ i then refusedBy 0x11 i .badOperand
  else .answer 0x91 (slotBody v d i)

/-! ### READ_ROUTE (R35) -/

/-- The element of an exit. -/
def Exit.element : Exit → Nat
  | .signal n => n
  | .boundary n _ => n

/-- The slot that holds a route. -/
def Live.slotOf (d : Live) (r : Nat) : Option Nat :=
  d.slotIds.find? (fun i => (d.slot i).active && (d.slot i).route = some r)

/-- The answer's body for a route. -/
def routeBody (d : Live) (r : RouteDef) : List Byte :=
  let use := d.slotOf r.number
  let kept := if use.isSome then none else d.stored? r.number
  wordBytes r.number ++ [if r.main then 0 else 1] ++ wordBytes r.entry ++ wordBytes r.exit.element
    ++ [flagByte r.autoReclear, flagByte r.storable, byteOf r.path.length, byteOf r.overlap.length,
        byteOf r.flank.length, optByte use, optByte (use.map (fun i => (d.slot i).state.code)),
        optByte (kept.map Stored.priority)]
    ++ optTime (kept.bind Stored.expiry)

/-- The answer to a READ_ROUTE (R35). -/
def answerRoute (r : Nat) (v : Env) (d : Live) : Report :=
  if !v.operating then refusedBy 0x12 r .notConfigured
  else match v.route? r with
    | some rt => .answer 0x92 (routeBody d rt)
    | none => refusedBy 0x12 r .badOperand

/-! ### READ_BOUNDARY (R168) -/

/-- The remote views in the order of the fields of R155; each absent byte reads FFh. -/
def viewsBytes : Option StatusEntry → List Byte
  | some e =>
    [byteOf e.number, byteOf e.direction.code, flagByte e.restricted, byteOf e.acceptance.code,
     flagByte e.waiting, berthByte e.berthLocked, flagByte e.berthEntered, flagByte e.berthOccupied,
     flagByte e.berthReady, byteOf e.home.code]
  | none => List.replicate 10 0xFF

/-- The answer's body for a boundary: the record of R154 in its order, the remote views, the link's
state. -/
def boundaryBody (d : Live) (bd : BoundaryDef) : List Byte :=
  let x := d.boundary bd.number
  [byteOf x.direction.code, flagByte x.restricted] ++ optTime x.reqExpiry
    ++ [flagByte x.waiting, byteOf x.acceptance.code] ++ optTime x.accExpiry
    ++ [optByte x.exitSlot, flagByte x.exitEntered, berthByte x.berthLocked]
    ++ (if x.berthLocked then x.marks.map markByte else bd.berth.map (fun _ => 0))
    ++ optTime x.resetExpiry ++ optTime x.consExpiry ++ viewsBytes x.views
    ++ [byteOf (d.link bd.link).state.code]

/-- The answer to a READ_BOUNDARY (R168). -/
def answerBoundary (b : Nat) (v : Env) (d : Live) : Report :=
  if !v.operating then refusedBy 0x13 b .notConfigured
  else match v.boundary? b with
    | some bd => .answer 0x93 (boundaryBody d bd)
    | none => refusedBy 0x13 b .badOperand

/-! ### READ_GROUPS, READ_FAULTS (R144) -/

/-- One group of the answer; a place with no group reads as absent. -/
def groupBytes (v : Env) (d : Live) (g : Nat) : List Byte :=
  if g < Config.stopGroups then
    let x := d.group g
    [flagByte x.active] ++ optTime x.since ++ [optByte (x.source.map Source.code),
      byteOf (((assertedSources v d g).map (fun src => 2 ^ src.code)).foldl (· + ·) 0)]
  else [0xFF] ++ optTime none ++ [0xFF, 0xFF]

/-- The answer's body from a starting group. The own area-stop flag of a link with no definition, for which
R136 gives none, is sent clear (DESIGN CHOICE, log 17). -/
def groupsBody (v : Env) (d : Live) (g : Nat) : List Byte :=
  (List.range 4).flatMap (fun k => groupBytes v d (g + k))
    ++ [flagByte v.as0, flagByte v.as1]
    ++ (List.range Config.linkCount).map (fun l => flagByte (ownStopFlag v d l))
    ++ [optByte (if g + 4 < Config.stopGroups then some (g + 4) else none)]

/-- The answer to a READ_GROUPS (R144). -/
def answerGroups (g : Nat) (v : Env) (d : Live) : Report :=
  if !v.operating then refusedBy 0x14 g .notConfigured
  else if Config.stopGroups ≤ g then refusedBy 0x14 g .badOperand
  else .answer 0x94 (groupsBody v d g)

/-- The fault maps of the elements from a starting element on, in element order, empty ones left out. -/
def faultMaps (v : Env) (d : Live) (n : Nat) : List (Nat × List FaultEntry) :=
  ((v.elements.filter (fun e => n ≤ e.num)).map (fun e => (e.num, (d.control e.num).faults))).filter
    (fun x => !x.2.isEmpty)

/-- The maps that fit whole into a number of entries, and the element to go on from: an element whose
entries do not all fit is left to the next read (R144, log 17). -/
def fitFaults : Nat → List (Nat × List FaultEntry) → List (Nat × FaultEntry) × Option Nat
  | _, [] => ([], none)
  | room, (n, fs) :: rest =>
    if fs.length ≤ room then
      let q := fitFaults (room - fs.length) rest
      (fs.map (fun f => (n, f)) ++ q.1, q.2)
    else ([], some n)

/-- One listed entry. -/
def faultBytes (x : Nat × FaultEntry) : List Byte :=
  wordBytes x.1 ++ [byteOf x.2.kind.code, byteOf x.2.state.code, byteOf x.2.count]
    ++ timeBytes x.2.first ++ timeBytes x.2.last

/-- A place of the list with no entry. -/
def noFaultBytes : List Byte := [0xFF, 0xFF, 0xFF, 0xFF, 0xFF] ++ List.replicate 8 0

/-- The answer's body from a starting element. -/
def faultsBody (v : Env) (d : Live) (n : Nat) : List Byte :=
  let q := fitFaults 4 (faultMaps v d n)
  q.1.flatMap faultBytes ++ (List.replicate (4 - q.1.length) noFaultBytes).flatten ++ optWord q.2

/-- The answer to a READ_FAULTS (R144). -/
def answerFaults (n : Nat) (v : Env) (d : Live) : Report :=
  if !v.operating then refusedBy 0x16 n .notConfigured
  else if 512 ≤ n then refusedBy 0x16 n .badOperand
  else .answer 0x96 (faultsBody v d n)

/-! ### READ_STATUS (R179) -/

/-- The answer's body. A digest that is absent is sent as FFFFh, which R182 says of an element or a route alone
(DESIGN CHOICE, log 17). -/
def statusBody (v : Env) (d : Live) : List Byte :=
  let op := v.operating
  let load := match v.store with | .staged t => some t | _ => none
  [byteOf v.part.code, optByte (if op then some v.mode.code else none),
   optByte (if op then some (if v.presentA then 0 else 1) else none),
   optByte (if op then some (if v.presentB then 0 else 1) else none)]
    ++ optTime v.startHold
    ++ optWord (if op then some v.defs.digest.toNat else none)
    ++ [optByte (if op then some (min v.defs.records 255) else none),
        optByte (load.map (fun t => min t.records.length 255))]
    ++ optWord (load.map (fun t => t.digest.toNat))
    ++ timeBytes v.now
    ++ [countByte d.laneA.requests.length, countByte d.laneA.reports.length,
        countByte d.laneB.requests.length, countByte d.laneB.reports.length,
        optByte (if op then some (d.slots.filter Slot.active).length else none),
        optByte (if op then some d.stored.length else none),
        optByte (if op then some d.orders.length else none)]

/-- The answer to a READ_STATUS (R179). -/
def answerStatus (v : Env) (d : Live) : Report := .answer 0x95 (statusBody v d)

/-! ### The meanings -/

/-- READ_ELEMENT (R19, R171). -/
def execReadElement (x : Exchange) (n : Nat) (s : State) : Host.Outcome State Fault Refusal :=
  .next (s.answered x (answerElement n))
/-- READ_SLOT (R80, R171). -/
def execReadSlot (x : Exchange) (i : Nat) (s : State) : Host.Outcome State Fault Refusal :=
  .next (s.answered x (answerSlot i))
/-- READ_ROUTE (R35, R171). -/
def execReadRoute (x : Exchange) (r : Nat) (s : State) : Host.Outcome State Fault Refusal :=
  .next (s.answered x (answerRoute r))
/-- READ_BOUNDARY (R168, R171). -/
def execReadBoundary (x : Exchange) (b : Nat) (s : State) : Host.Outcome State Fault Refusal :=
  .next (s.answered x (answerBoundary b))
/-- READ_GROUPS (R144, R171). -/
def execReadGroups (x : Exchange) (g : Nat) (s : State) : Host.Outcome State Fault Refusal :=
  .next (s.answered x (answerGroups g))
/-- READ_STATUS (R179, R171). -/
def execReadStatus (x : Exchange) (s : State) : Host.Outcome State Fault Refusal :=
  .next (s.answered x answerStatus)
/-- READ_FAULTS (R144, R171). -/
def execReadFaults (x : Exchange) (n : Nat) (s : State) : Host.Outcome State Fault Refusal :=
  .next (s.answered x (answerFaults n))

/-- LANE_FRAME_ERROR: the frame is discarded; the report frame goes out all the same (R169). -/
def execLaneFrameError (x : Exchange) (s : State) : Host.Outcome State Fault Refusal :=
  .next (s.shiftOut x)
/-- The operand the refusal of such a frame carries: 0 for a kind that has no operand, free for any
other (R181, log 8). -/
def frameOperand (kind : Nat) (payload : List Byte) : Nat :=
  if kind = 0x00 || kind = 0x15 || kind = 0x30 then 0 else Config.unknownOperand kind payload

/-- UNKNOWN_REQUEST: refused with BAD_OPERAND to the sending lane alone (R171). -/
def execUnknownRequest (x : Exchange) (kind : Nat) (payload : List Byte) (s : State) :
    Host.Outcome State Fault Refusal :=
  .next (s.answered x (fun _ _ => refusedBy kind (frameOperand kind payload) .badOperand))
/-- EMPTY_REQUEST: the exchange alone (R171). -/
def execEmptyRequest (x : Exchange) (s : State) : Host.Outcome State Fault Refusal :=
  .next (s.exchange x)
/-- DETECT: the exchange, then its pairs (R7, R171). -/
def execDetect (x : Exchange) (pairs : List (Nat × Nat)) (s : State) :
    Host.Outcome State Fault Refusal :=
  .next ((s.exchange x).applyPairs x.lane pairs)

end Sys2Proof.Machine
end

