-- ==== Sys2Proof/Machine/RouteCommands.lean ====
section
/-! DEFINITION. The route requests: SET_ROUTE (R57 to R62), CANCEL_ROUTE (R122), RELEASE_EMERGENCY
(R125). -/

namespace Sys2Proof.Machine

open Sys2Proof

/-- A refusal among the hand-ons of a request, to both lanes (R175). -/
def refuseBoth (q : Request) (r : Reason) (d : Live) : Live := d.report (refusal q r)

/-! ### SET_ROUTE -/

/-- The tests of R57 on a request taken while OPERATING, up to the operands. -/
def setRouteRefusal (v : Env) (r priority store : Nat) : Option Reason :=
  if v.mode != .normal then some .laneDegraded
  else if v.startHold.isSome then some .starting
  else if (v.route? r).isNone || 3 < priority || 1 < store then some .badOperand
  else none

/-- The expiry a stored request gets: none for a lifetime of 0 (R63). -/
def storedExpiryAt (v : Env) : Option Time :=
  if v.timing.storedLifetime = 0 then none else some (after v.now (1000 * v.timing.storedLifetime))

/-- A request that cannot be taken up is stored, or refused (R60, R61). -/
def storeOrRefuse (v : Env) (rt : RouteDef) (priority store : Nat) (why : Reason) (d : Live) : Live :=
  if rt.storable && store = 1 then
    if d.stored.length < Config.storedCapacity then
      let x : Stored :=
        { route := rt.number, priority := priority, arrival := v.now, expiry := storedExpiryAt v }
      (d.setStored (insertStored v.now x d.stored)).report (storedReport rt.number .stored)
    else refuseBoth (.setRoute rt.number priority store) .queueFull d
  else refuseBoth (.setRoute rt.number priority store) why d

/-- A SET_ROUTE whose route an active slot holds (R58). -/
def setAgain (v : Env) (q : Request) (i : Nat) (d : Live) : Live :=
  match (d.slot i).state with
  | .cancelling => refuseBoth q .busy d
  | .held =>
    let d1 := d.setSlot i (fun s => { s with reclear := true })
    evaluate v i (d1.report (slotReport d1 i (some .alreadySet)))
  | _ => refuseBoth q .alreadySet d

/-- A stored route's priority replaced, and the entry moved to its place; the same priority again leaves
the queue as it is (R59). -/
def restore (v : Env) (x : Stored) (priority : Nat) (d : Live) : Live :=
  let kept := (d.dropStored x.route).stored
  let queue :=
    if x.priority = priority then d.stored
    else insertStored v.now { x with priority := priority } kept
  (d.setStored queue).report (storedReport x.route .stored)

/-- A SET_ROUTE taken in OPERATING (R57 to R62). -/
def takeSetRoute (r priority store : Nat) (v : Env) (d : Live) : Live :=
  let q := Request.setRoute r priority store
  match setRouteRefusal v r priority store, v.route? r with
  | some why, _ => refuseBoth q why d
  | none, none => refuseBoth q .badOperand d
  | none, some rt =>
    match d.slotOf r with
    | some i => setAgain v q i d
    | none =>
      match d.stored? r with
      | some x => restore v x priority d
      | none =>
        match d.freeSlot with
        | none => storeOrRefuse v rt priority store .noSlot d
        | some i =>
          match tryTakeUp v none i rt priority d with
          | .ok d1 => d1
          | .error why => storeOrRefuse v rt priority store why d

/-- SET_ROUTE (R57). -/
def execSetRoute (x : Exchange) (r priority store : Nat) (s : State) :
    Host.Outcome State Fault Refusal :=
  .next (s.voted x (.setRoute r priority store) (State.act (takeSetRoute r priority store)))

/-! ### CANCEL_ROUTE -/

/-- A CANCEL_ROUTE taken in OPERATING (R122). -/
def takeCancelRoute (r : Nat) (v : Env) (d : Live) : Live :=
  let q := Request.cancelRoute r
  match v.route? r with
  | none => refuseBoth q .badOperand d
  | some rt =>
    match d.slotOf r with
    | none =>
      match d.stored? r with
      | some _ => (d.dropStored r).report (storedReport r .storedRemoved)
      | none => refuseBoth q .notSet d
    | some i =>
      match (d.slot i).state with
      | .setting => settingRelease v i none false d
      | .clear => cancelSlot v i rt d
      | .held => cancelSlot v i rt d
      | .entered => refuseBoth q .entered d
      | .cancelling => refuseBoth q .cancelling d
      | .free => d

/-- CANCEL_ROUTE (R122). -/
def execCancelRoute (x : Exchange) (r : Nat) (s : State) : Host.Outcome State Fault Refusal :=
  .next (s.voted x (.cancelRoute r) (State.act (takeCancelRoute r)))

/-! ### RELEASE_EMERGENCY -/

/-- A RELEASE_EMERGENCY taken in OPERATING (R125). -/
def takeReleaseEmergency (r : Nat) (v : Env) (d : Live) : Live :=
  let q := Request.releaseEmergency r
  match v.route? r with
  | none => refuseBoth q .badOperand d
  | some _ =>
    match d.slotOf r with
    | none => refuseBoth q .notSet d
    | some i =>
      match (d.slot i).state with
      | .setting => refuseBoth q .setting d
      | .cancelling => refuseBoth q .cancelling d
      | _ => holdFull v i d

/-- RELEASE_EMERGENCY (R125). -/
def execReleaseEmergency (x : Exchange) (r : Nat) (s : State) : Host.Outcome State Fault Refusal :=
  .next (s.voted x (.releaseEmergency r) (State.act (takeReleaseEmergency r)))

end Sys2Proof.Machine
end

