-- ==== Sys2Proof/Machine/ElementCommands.lean ====
section
/-! DEFINITION. The requests about points and elements: THROW_POINT (R54, R98), BLOCK (R16), UNBLOCK
(R17), ACK_FAULT (R143). -/

namespace Sys2Proof.Machine

open Sys2Proof

/-! ### THROW_POINT -/

/-- The Locking Unit's test of a THROW_POINT (R54). -/
def throwRefusal (v : Env) (d : Live) (p position : Nat) : Option Reason :=
  if !v.elementIs p Element.isPoint || (positionOf position).isNone then some .badOperand
  else if (d.control p).lock.isSome || 0 < (d.control p).normalCount
      || 0 < (d.control p).reverseCount then some .locked
  else none

/-- The tests of R98 on a LANE order. -/
def laneOrderRefusal (v : Env) (d : Live) (p : Nat) (pos : Position) : Option Reason :=
  match (d.control p).flight with
  | some f =>
    if f.position = pos then none
    else if v.pointOccupied p then some .pointOccupied
    else if v.blocked p then some .blocked
    else none
  | none =>
    if (d.order? p).isNone && Config.orderCapacity ≤ d.orders.length then some .queueFull else none

/-- A THROW_POINT taken in OPERATING (R54, R98). -/
def takeThrowPoint (p position : Nat) (v : Env) (d : Live) : Live :=
  let q := Request.throwPoint p position
  match throwRefusal v d p position, positionOf position with
  | some why, _ => refuseBoth q why d
  | none, none => refuseBoth q .badOperand d
  | none, some pos =>
    match laneOrderRefusal v d p pos with
    | some why => refuseBoth q why d
    | none => applyOrder .now v none p pos .lane d

/-- THROW_POINT (R54). -/
def execThrowPoint (x : Exchange) (p position : Nat) (s : State) : Host.Outcome State Fault Refusal :=
  .next (s.voted x (.throwPoint p position) (State.act (takeThrowPoint p position)))

/-! ### BLOCK and UNBLOCK -/

/-- The element may be named by a BLOCK or an UNBLOCK (R16, R17). -/
def Env.blockable (v : Env) (n : Nat) : Bool := v.elementIs n (fun e => !e.isBoundary)

/-- A blocked flag changed and handed to the Route Setter: proving for the slots concerned, then the
aspect of a signal (R16 to R18, R74, R79). -/
def State.setBlocked (n : Nat) (b : Bool) (s : State) : State :=
  let v := s.env.setElement n (fun e => { e with blocked := b })
  let d := evaluateElement v n s.live
  { s with env := v, live := if v.elementIs n Element.isSignal then computeAspect v n d else d }

/-- A BLOCK taken in OPERATING (R16). -/
def takeBlock (n : Nat) (s : State) : State :=
  if !s.env.blockable n then s.refuse (.block n) .badOperand
  else if s.env.blocked n then s
  else s.setBlocked n true

/-- BLOCK (R16). -/
def execBlock (x : Exchange) (n : Nat) (s : State) : Host.Outcome State Fault Refusal :=
  .next (s.voted x (.block n) (takeBlock n))

/-- What an UNBLOCK hands on besides: the arbiter of a point's group, and the stored request queue
(R17, R64, R101). -/
def unblockHandOn (n : Nat) (v : Env) (d : Live) : Live :=
  (if v.elementIs n Element.isPoint then runArbiter .now v (v.groupOf n) d else d).setReeval true

/-- An UNBLOCK taken in OPERATING (R17). -/
def takeUnblock (n : Nat) (s : State) : State :=
  if !s.env.blockable n then s.refuse (.unblock n) .badOperand
  else if s.env.blocked n then (s.setBlocked n false).act (unblockHandOn n)
  else s

/-- UNBLOCK (R17). -/
def execUnblock (x : Exchange) (n : Nat) (s : State) : Host.Outcome State Fault Refusal :=
  .next (s.voted x (.unblock n) (takeUnblock n))

/-! ### ACK_FAULT -/

/-- An ACK_FAULT taken in OPERATING (R143). -/
def takeAckFault (n kind : Nat) (v : Env) (d : Live) : Live :=
  let q := Request.ackFault n kind
  match v.element? n, faultKindOf kind with
  | some _, some k =>
    match (d.control n).fault? k with
    | none => refuseBoth q .noFault d
    | some f => if f.active then refuseBoth q .active d else removeFault v n f d
  | _, _ => refuseBoth q .badOperand d

/-- ACK_FAULT (R143). -/
def execAckFault (x : Exchange) (n kind : Nat) (s : State) : Host.Outcome State Fault Refusal :=
  .next (s.voted x (.ackFault n kind) (State.act (takeAckFault n kind)))

end Sys2Proof.Machine
end

