-- ==== Sys2Proof/Machine/SupervisionCommands.lean ====
section
/-! DEFINITION. Area-stop requests and inputs (R131, R133, R134), REJOIN (R148), the restarts (R177,
R178), the loads (R176), power-on and the reset input (R178). -/

namespace Sys2Proof.Machine

open Sys2Proof

/-! ### STOP_SET, STOP_RELEASE, AREA_STOP_INPUT_CHANGE -/

/-- A STOP_SET taken in OPERATING (R133). -/
def takeStopSet (g : Nat) (v : Env) (d : Live) : Live :=
  if Config.stopGroups ≤ g || !v.hasSource g .lane then refuseBoth (.stopSet g) .badOperand d
  else latch v .lane g d

/-- STOP_SET (R133). -/
def execStopSet (x : Exchange) (g : Nat) (s : State) : Host.Outcome State Fault Refusal :=
  .next (s.voted x (.stopSet g) (State.act (takeStopSet g)))

/-- A group released and its release handed on: to the Route Setter, which re-evaluates the stored request
queue last, then the held orders to their arbiters (R110, R135, log 9). -/
def releaseGroup (v : Env) (g : Nat) (d : Live) : Live :=
  let d1 := serve v (unlatch v g d)
  if (v.stop g).holdThrows then
    runArbiters .now v (hasOrder v (fun p => v.elementIs p (fun e => e.member g))) d1
  else d1

/-- A STOP_RELEASE taken in OPERATING (R134). -/
def takeStopRelease (g : Nat) (v : Env) (d : Live) : Live :=
  let q := Request.stopRelease g
  if Config.stopGroups ≤ g then refuseBoth q .badOperand d
  else if !(assertedSources v d g).isEmpty then refuseBoth q .stillAsserted d
  else if !(d.group g).active then refuseBoth q .notActive d
  else releaseGroup v g d

/-- STOP_RELEASE (R134). -/
def execStopRelease (x : Exchange) (g : Nat) (s : State) : Host.Outcome State Fault Refusal :=
  .next (s.voted x (.stopRelease g) (State.act (takeStopRelease g)))

/-- The level of an area-stop input. -/
def Env.input (v : Env) : AreaInput → Bool
  | .as0 => v.as0
  | .as1 => v.as1
/-- An area-stop input at a level. -/
def Env.setInput (v : Env) (i : AreaInput) (b : Bool) : Env :=
  match i with
  | .as0 => { v with as0 := b }
  | .as1 => { v with as1 := b }
/-- The level source of an input. -/
def inputSource : AreaInput → Source
  | .as0 => .as0
  | .as1 => .as1

/-- AREA_STOP_INPUT_CHANGE: the level changes; an asserting edge latches groups while OPERATING (R130 to
R132). -/
def execAreaStopInputChange (i : AreaInput) (asserted : Bool) (s : State) :
    Host.Outcome State Fault Refusal :=
  let was := s.env.input i
  let s1 := { s with env := s.env.setInput i asserted }
  .next (if s1.env.operating then s1.act (fun v => edge v (inputSource i) was) else s1)

/-! ### REJOIN -/

/-- A REJOIN taken in OPERATING (R148). -/
def takeRejoin (n : Nat) (s : State) : State :=
  match laneOf n with
  | some l =>
    if s.env.present l then s.refuse (.rejoin n) .badOperand
    else
      let v := (s.env.setPresent l true).setSilence l (some (after s.env.now s.env.timing.laneTimeout))
      let v1 := { v with elements := v.elements.map (fun e => e.setView l none) }
      State.changeMode s.env.mode { s with env := v1 }
  | none => s.refuse (.rejoin n) .badOperand

/-- REJOIN (R148). -/
def execRejoin (x : Exchange) (n : Nat) (s : State) : Host.Outcome State Fault Refusal :=
  .next (s.voted x (.rejoin n) (takeRejoin n))

/-! ### RESTART -/

/-- A RESTART with an operand other than UNLOAD taken in OPERATING (R177). -/
def takeRestartKeep (o : Nat) (s : State) : State :=
  if o = 0 then s.restartKept else s.refuse (.restart o) .badOperand

/-- RESTART_KEEP: RESTART with any operand but UNLOAD (R177). -/
def execRestartKeep (x : Exchange) (o : Nat) (s : State) : Host.Outcome State Fault Refusal :=
  .next (s.voted x (.restart o) (takeRestartKeep o))

/-- RESTART_UNLOAD (R178). -/
def execRestartUnload (x : Exchange) (s : State) : Host.Outcome State Fault Refusal :=
  .next (s.voted x (.restart 1) State.restartUnloaded)

/-! ### Loads -/

/-- LOAD_BEGIN (R176). -/
def execLoadBegin (x : Exchange) (s : State) : Host.Outcome State Fault Refusal :=
  .next (s.voted x .loadBegin State.openLoad)
/-- LOAD_RECORD (R22, R176). -/
def execLoadRecord (x : Exchange) (payload : List Byte) (s : State) :
    Host.Outcome State Fault Refusal :=
  .next (s.voted x (.loadRecord payload) (State.takeRecord payload))
/-- LOAD_END (R34, R176). -/
def execLoadEnd (x : Exchange) (digest : Nat) (s : State) : Host.Outcome State Fault Refusal :=
  .next (s.voted x (.loadEnd digest) (State.endLoad digest))

/-! ### POWER_ON and RESET -/

/-- Everything as at power-on but the input levels and the commands that wait (R178, log 5). -/
def State.cold (s : State) : State :=
  { env := Env.bare s.env.as0 s.env.as1, live := Live.bare, pending := s.pending }

/-- POWER_ON (R178). -/
def execPowerOn (s : State) : Host.Outcome State Fault Refusal := .next s.cold
/-- RESET: the reset input has the same effect as power-on (R178, 0.8). -/
def execReset (s : State) : Host.Outcome State Fault Refusal := .next s.cold

end Sys2Proof.Machine
end

