-- ==== Sys2Proof/Machine/HandoverCommands.lean ====
section
/-! DEFINITION. The boundary and link requests (R153, R167), the neighbour link's events (R150, R151) and
the frames the Handover Controller takes (R156, R159 to R165). -/

namespace Sys2Proof.Machine

open Sys2Proof

/-! ### BOUNDARY_RESET -/

/-- Step 2 of R167: the exit slot given up according to its state. -/
def resetExit (v : Env) (b : Nat) (d : Live) : Live :=
  match (d.boundary b).exitSlot with
  | some i =>
    match (d.slot i).state with
    | .setting => settingRelease v i (some .boundaryUnavailable) true d
    | .clear => holdFull v i d
    | .held => holdFull v i d
    | .entered => holdFull v i d
    | _ => d
  | none => d

/-- A taken BOUNDARY_RESET applied (R167). Its one BOUNDARY_STATE follows the last change and is made
whether or not the record ends as it began (R168). -/
def applyReset (v : Env) (b : Nat) (d : Live) : Live :=
  let before := d.boundary b
  let d1 := d.setBoundary b (fun x =>
    { x with restricted := true, consExpiry := none, reqExpiry := none, waiting := false })
  let d2 := resetExit v b d1
  let d3 :=
    if (d2.boundary b).acceptance = .none then d2
    else sendFrom v b .acceptCancel (setAcceptance b .none none d2)
  let locked := (d3.boundary b).berthLocked
  let d4 := d3.setBoundary b (fun x =>
    if locked then { x with resetExpiry := some (after v.now (1000 * v.timing.holdMax)) }
    else x.resetDone)
  let d5 := if locked then d4 else clearBoundaryFaults v b d4
  handOnBoundary v b before (d5.report (boundaryReport d5 b none))

/-- A BOUNDARY_RESET taken in OPERATING (R167). -/
def takeBoundaryReset (b : Nat) (v : Env) (d : Live) : Live :=
  let q := Request.boundaryReset b
  if (v.boundary? b).isNone then refuseBoth q .badOperand d
  else if v.mode != .normal then refuseBoth q .laneDegraded d
  else if (d.boundary b).resetExpiry.isSome then refuseBoth q .busy d
  else applyReset v b d

/-- BOUNDARY_RESET (R167). -/
def execBoundaryReset (x : Exchange) (b : Nat) (s : State) : Host.Outcome State Fault Refusal :=
  .next (s.voted x (.boundaryReset b) (State.act (takeBoundaryReset b)))

/-! ### LINK_ENABLE and LINK_DISABLE -/

/-- A LINK_ENABLE taken in OPERATING (R153). -/
def takeLinkEnable (l : Nat) (v : Env) (d : Live) : Live :=
  match v.link? l with
  | none => refuseBoth (.linkEnable l) .badOperand d
  | some k =>
    if (d.link l).state = .disabled then
      (d.setLink l (fun x =>
        { x with state := .connecting, nextStatus := some (after v.now k.interval) })).report
        (.linkState l .connecting)
    else d

/-- LINK_ENABLE (R153). -/
def execLinkEnable (x : Exchange) (l : Nat) (s : State) : Host.Outcome State Fault Refusal :=
  .next (s.voted x (.linkEnable l) (State.act (takeLinkEnable l)))

/-- A boundary keeps its link from being disabled (R153). -/
def holdsLink (x : Boundary) : Bool :=
  x.acceptance != .none || x.berthLocked || x.reqExpiry.isSome || x.exitSlot.isSome

/-- A LINK_DISABLE taken in OPERATING (R152, R153). -/
def takeLinkDisable (l : Nat) (v : Env) (d : Live) : Live :=
  let q := Request.linkDisable l
  if (v.link? l).isNone then refuseBoth q .badOperand d
  else if (v.linkBoundaries l).any (fun bd => holdsLink (d.boundary bd.number)) then
    refuseBoth q .linkBusy d
  else match (d.link l).state with
    | .disabled => d
    | .up => leaveUp v l .disabled d
    | _ =>
      (d.setLink l (fun x =>
        { x with state := .disabled, nextStatus := none, rx := [], tx := [], hunt := [] })).report
        (.linkState l .disabled)

/-- LINK_DISABLE (R153). -/
def execLinkDisable (x : Exchange) (l : Nat) (s : State) : Host.Outcome State Fault Refusal :=
  .next (s.voted x (.linkDisable l) (State.act (takeLinkDisable l)))

/-! ### Frames arriving and leaving (R150, R151) -/

/-- A valid frame arrives: it is placed in the receive queue, but where a frame begun inside a discarded one
waits for bytes, its bytes go there first (R151, R183, log 7). -/
def frameArrives (l : Nat) (f : NFrame) (v : Env) (d : Live) : Live :=
  if (d.link l).hunt = [] then receive v l f d else receiveBytes v l false f.bytes d

/-- NEIGHBOUR_FRAME_RECEIVED (R151). -/
def execNeighbourFrameReceived (l : Nat) (f : NFrame) (s : State) : Host.Outcome State Fault Refusal :=
  .next (s.act (frameArrives l f))

/-- A frame, given by the bytes after its start byte, is discarded: the receiver hunts in those bytes. Where
a frame begun inside an earlier discarded one waits, the start byte too belongs to it (R151, R183,
log 7). -/
def frameDiscarded (l : Nat) (bytes : List Byte) (v : Env) (d : Live) : Live :=
  receiveBytes v l (nframeBreaksOff bytes)
    (if (d.link l).hunt = [] then bytes else 0xA5#8 :: bytes) d

/-- NEIGHBOUR_FRAME_ERROR (R151). -/
def execNeighbourFrameError (l : Nat) (bytes : List Byte) (s : State) :
    Host.Outcome State Fault Refusal :=
  .next (s.act (frameDiscarded l bytes))

/-- The next STATUS time reached: the time is set again, and the STATUS is sent, or waits behind the
frame in transmission (R150, log 6). -/
def statusDue (l : Nat) (v : Env) (d : Live) : Live :=
  match v.link? l with
  | some k =>
    if due v.now (d.link l).nextStatus then
      let d1 := d.setLink l (fun x => { x with nextStatus := some (after v.now k.interval) })
      if (d1.link l).tx.isEmpty then sendStatus v l d1
      else d1.setLink l (fun x => { x with deferred := true })
    else d
  | none => d

/-- STATUS_INTERVAL_EXPIRY (R150). -/
def execStatusIntervalExpiry (l : Nat) (s : State) : Host.Outcome State Fault Refusal :=
  .next (s.act (statusDue l))

/-- The frame in transmission has gone out; a STATUS that waited follows it (R150, log 6). -/
def frameSent (l : Nat) (v : Env) (d : Live) : Live :=
  if (d.link l).tx.isEmpty then d
  else
    let d1 := d.setLink l (fun x => { x with tx := x.tx.drop 1 })
    if (d.link l).deferred then sendStatus v l d1 else d1

/-- QUEUED_FRAME_SENT (R150). -/
def execQueuedFrameSent (l : Nat) (s : State) : Host.Outcome State Fault Refusal :=
  .next (s.act (frameSent l))

/-! ### Frames taken from a receive queue (R151) -/

/-- STATUS (R156). -/
def execStatus (l : Nat) (s : State) : Host.Outcome State Fault Refusal :=
  .next (s.act (fun v => takeStatus v l))

/-- DIR_REQUEST (R159, R160). -/
def execDirRequest (l : Nat) (s : State) : Host.Outcome State Fault Refusal :=
  .next (s.act (fun v => takeFrame v l
    (fun f => match f with | .dirRequest n q => some (n, q) | _ => none) (applyDirRequest v)))

/-- DIR_GRANT (R161). -/
def execDirGrant (l : Nat) (s : State) : Host.Outcome State Fault Refusal :=
  .next (s.act (fun v => takeFrame v l
    (fun f => match f with | .dirGrant n => some (n, ()) | _ => none) (fun b _ => applyDirGrant v b)))

/-- DIR_REFUSE (R158, R161). -/
def execDirRefuse (l : Nat) (s : State) : Host.Outcome State Fault Refusal :=
  .next (s.act (fun v => takeFrame v l
    (fun f => match f with | .dirRefuse n => some (n, ()) | _ => none) (fun b _ => applyDirRefuse b)))

/-- DIR_OFFER (R161). -/
def execDirOffer (l : Nat) (s : State) : Host.Outcome State Fault Refusal :=
  .next (s.act (fun v => takeFrame v l
    (fun f => match f with | .dirOffer n => some (n, ()) | _ => none) (fun b _ => applyDirOffer v b)))

/-- ACCEPT_REQUEST (R164). -/
def execAcceptRequest (l : Nat) (s : State) : Host.Outcome State Fault Refusal :=
  .next (s.act (fun v => takeFrame v l
    (fun f => match f with | .acceptRequest n => some (n, ()) | _ => none)
    (fun b _ => applyAcceptRequest v b)))

/-- ACCEPT_GRANT (R162). -/
def execAcceptGrant (l : Nat) (s : State) : Host.Outcome State Fault Refusal :=
  .next (s.act (fun v => takeFrame v l
    (fun f => match f with | .acceptGrant n a => some (n, a) | _ => none) (applyAcceptGrant v)))

/-- ACCEPT_REFUSE (R162). -/
def execAcceptRefuse (l : Nat) (s : State) : Host.Outcome State Fault Refusal :=
  .next (s.act (fun v => takeFrame v l
    (fun f => match f with | .acceptRefuse n r => some (n, r) | _ => none) (applyAcceptRefuse v)))

/-- ACCEPT_CANCEL (R165). -/
def execAcceptCancel (l : Nat) (s : State) : Host.Outcome State Fault Refusal :=
  .next (s.act (fun v => takeFrame v l
    (fun f => match f with | .acceptCancel n => some (n, ()) | _ => none)
    (fun b _ => applyAcceptCancel v b)))

/-! ### The Handover Controller's timers (R152, R158, R162, R166, R167) -/

/-- The silence of an UP link has run out (R152). -/
def linkSilent (l : Nat) (v : Env) (d : Live) : Live :=
  if (d.link l).state = .up && due v.now (d.link l).silence then leaveUp v l .lost d else d

/-- LINK_SILENCE_EXPIRY (R152). -/
def execLinkSilenceExpiry (l : Nat) (s : State) : Host.Outcome State Fault Refusal :=
  .next (s.act (linkSilent l))

/-- The request expiry reached: the request is cleared, nothing is sent again (R158). -/
def dirRequestDue (b : Nat) (v : Env) (d : Live) : Live :=
  if due v.now (d.boundary b).reqExpiry then d.setBoundary b (fun x => { x with reqExpiry := none })
  else d

/-- DIR_REQUEST_EXPIRY (R158). -/
def execDirRequestExpiry (b : Nat) (s : State) : Host.Outcome State Fault Refusal :=
  .next (s.act (dirRequestDue b))

/-- The acceptance expiry reached: the acceptance becomes NONE (R162). -/
def acceptanceDue (b : Nat) (v : Env) (d : Live) : Live :=
  if due v.now (d.boundary b).accExpiry then
    boundaryEvent v b none (fun d => tryOffer v b (setAcceptance b .none none d)) d
  else d

/-- ACCEPTANCE_EXPIRY (R162). -/
def execAcceptanceExpiry (b : Nat) (s : State) : Host.Outcome State Fault Refusal :=
  .next (s.act (acceptanceDue b))

/-- The consistency expiry reached: the boundary becomes RESTRICTED, the entry is raised and reported,
an exit slot in SETTING fails, one in CLEAR becomes HELD (R71, R166). -/
def consistencyDue (b : Nat) (v : Env) (d : Live) : Live :=
  if due v.now (d.boundary b).consExpiry then
    let before := d.boundary b
    let d1 := d.setBoundary b (fun x => { x with consExpiry := none, restricted := true })
    let d2 := match v.boundary? b with
      | some bd => raise v bd.element .restricted none d1
      | none => d1
    let d3 := reportChange b before none d2
    let d4 := match (d3.boundary b).exitSlot with
      | some i => failSetting v i .boundaryUnavailable d3
      | none => d3
    evaluateExit v b d4
  else d

/-- CONSISTENCY_EXPIRY (R166). -/
def execConsistencyExpiry (b : Nat) (s : State) : Host.Outcome State Fault Refusal :=
  .next (s.act (consistencyDue b))

/-- The reset expiry reached: the berth is released whole and the reset completes (R165, R167). -/
def resetDue (b : Nat) (v : Env) (d : Live) : Live :=
  if due v.now (d.boundary b).resetExpiry then
    let before := d.boundary b
    let r := berthWhole v b (Release.start d)
    finishBerth v b before (resetEnded before b r.live) r
  else d

/-- RESET_EXPIRY (R167). -/
def execResetExpiry (b : Nat) (s : State) : Host.Outcome State Fault Refusal :=
  .next (s.act (resetDue b))

end Sys2Proof.Machine
end

