-- ==== Sys2Proof/Machine/TimerCommands.lean ====
section
/-! DEFINITION. The timers of the other blocks: an expiry command acts only on a timer that runs and
whose expiry has been reached (log 1). -/

namespace Sys2Proof.Machine

open Sys2Proof

/-! ### Agreement and lanes (R173, R145, R174, R177) -/

/-- The first entry of a pending list whose window has run out. -/
def dueEntry (now : Time) (es : List PendingEntry) : Option PendingEntry :=
  es.find? (fun e => reached now e.expiry)

/-- The list without its first entry whose window has run out. -/
def dropDue (now : Time) : List PendingEntry → List PendingEntry
  | [] => []
  | e :: es => if reached now e.expiry then es else e :: dropDue now es

/-- A window has run out: the entry is removed and refused with AGREEMENT_TIMEOUT to both lanes
(R173). -/
def windowDue (l : LaneId) (v : Env) (d : Live) : Live :=
  match dueEntry v.now (d.lane l).requests with
  | some e =>
    (d.setLane l (fun p => { p with requests := dropDue v.now p.requests })).report
      (refusal e.request .agreementTimeout)
  | none => d

/-- AGREEMENT_WINDOW_EXPIRY (R173). -/
def execAgreementWindowExpiry (l : LaneId) (s : State) : Host.Outcome State Fault Refusal :=
  .next (s.act (windowDue l))

/-- A request of a kind taken alone, handed to its owner (R147, R174). -/
def State.takeAlone (q : Request) (s : State) : State :=
  match q with
  | .cancelRoute r => s.act (takeCancelRoute r)
  | .releaseEmergency r => s.act (takeReleaseEmergency r)
  | .ackFault n k => s.act (takeAckFault n k)
  | .block n => takeBlock n s
  | .stopSet g => s.act (takeStopSet g)
  | _ => s

/-- The newly lost lane's list emptied and refused with LANE_DEGRADED, in list order (R174, step 1). -/
def refuseList (l : LaneId) (d : Live) : Live :=
  ((d.lane l).requests.foldl (fun d e => d.report (refusal e.request .laneDegraded)) d).setLane l
    (fun p => { p with requests := [] })

/-- One entry of the live lane's list dealt with: taken alone, left as a REJOIN, or refused (R174, step
2). -/
def State.dispose (l : LaneId) (s : State) (e : PendingEntry) : State :=
  if isRejoin e.request then s
  else
    let s1 := { s with live := s.live.setLane l (fun p =>
      { p with requests := dropFirst e.request p.requests }) }
    if takenAlone e.request then s1.takeAlone e.request else s1.refuse e.request .laneDegraded

/-- The pending lists when a lane becomes LOST (R174). -/
def State.disposeLists (l : LaneId) (s : State) : State :=
  let s1 := { s with live := refuseList l s.live }
  if s1.env.mode = .degraded then
    (s1.live.lane l.other).requests.foldl (State.dispose l.other) s1
  else s1

/-- A lane becomes LOST, and the lane mode changes (R145, R146, R174). -/
def State.loseLane (l : LaneId) (s : State) : State :=
  let v := (s.env.setPresent l false).setSilence l none
  (State.changeMode s.env.mode { s with env := v }).disposeLists l

/-- LANE_SILENCE_EXPIRY (R145). -/
def execLaneSilenceExpiry (l : LaneId) (s : State) : Host.Outcome State Fault Refusal :=
  .next (if s.env.operating && s.env.present l && due s.env.now (s.env.silence l) then s.loseLane l
    else s)

/-- START_HOLD_EXPIRY: the hold ends, nothing is reported (R177). -/
def execStartHoldExpiry (s : State) : Host.Outcome State Fault Refusal :=
  .next (if due s.env.now s.env.startHold then { s with env := { s.env with startHold := none } }
    else s)

/-! ### Elements (R12 to R14) -/

/-- The discrepancy timer of an element has run out: it is discrepant since an expiry, and DISCREPANT is
raised (R12). -/
def State.discrepancyDue (n : Nat) (s : State) : State :=
  if s.env.elementIs n (fun e => due s.env.now e.discExpiry) then
    let v := s.env.setElement n (fun e => { e with discExpiry := none, discrepant := true })
    { s with env := v, live := serve v (raise v n .discrepant none s.live) }
  else s

/-- DISCREPANCY_EXPIRY (R12). -/
def execDiscrepancyExpiry (n : Nat) (s : State) : Host.Outcome State Fault Refusal :=
  .next (s.discrepancyDue n)

/-- PICK_UP_EXPIRY: the section becomes filtered CLEAR, and the change is handed on (R14, R15). -/
def execPickUpExpiry (n : Nat) (s : State) : Host.Outcome State Fault Refusal :=
  .next (if s.env.elementIs n (fun e => due s.env.now e.pickUp) then
      s.updateElement n (fun e => { e with occupied := false, pickUp := none })
    else s)

/-- The age of an occupation time has reached 2^31 ms (R13). -/
def occAged (now : Time) (e : Element) : Bool :=
  match e.occTime with
  | some t => 2147483648 ≤ elapsed t now
  | none => false

/-- OCCUPATION_TIME_AGED: the occupation time becomes absent (R13). -/
def execOccupationTimeAged (n : Nat) (s : State) : Host.Outcome State Fault Refusal :=
  .next (if s.env.elementIs n (occAged s.env.now) then
      { s with env := s.env.setElement n (fun e => { e with occTime := none }) }
    else s)

/-! ### Slots and the stored request queue (R66, R70, R117, R124) -/

/-- The setting timer has run out: the slot fails (R70, R71). -/
def settingDue (i : Nat) (v : Env) (d : Live) : Live :=
  if due v.now (d.slot i).setting then failSetting v i .settingTimeout d else d

/-- SETTING_TIMER_EXPIRY (R70). -/
def execSettingTimerExpiry (i : Nat) (s : State) : Host.Outcome State Fault Refusal :=
  .next (s.act (settingDue i))

/-- A stored entry's expiry reached (R66). -/
def storedDue (r : Nat) (v : Env) (d : Live) : Live :=
  match d.stored? r with
  | some x => if due v.now x.expiry then (d.dropStored r).report (storedReport r .expired) else d
  | none => d

/-- STORED_EXPIRY (R66). -/
def execStoredExpiry (r : Nat) (s : State) : Host.Outcome State Fault Refusal :=
  .next (s.act (storedDue r))

/-- The overlap expiry reached: the overlap is released whole (R117). -/
def overlapDue (i : Nat) (v : Env) (d : Live) : Live :=
  if due v.now (d.slot i).overlapExpiry then overlapWhole v i d else d

/-- OVERLAP_EXPIRY (R117). -/
def execOverlapExpiry (i : Nat) (s : State) : Host.Outcome State Fault Refusal :=
  .next (s.act (overlapDue i))

/-- The hold expiry reached: the slot is released whole (R124). -/
def holdDue (i : Nat) (v : Env) (d : Live) : Live :=
  if (d.slot i).state = .cancelling && due v.now (d.slot i).hold then giveUpSlot v i none false d
  else d

/-- HOLD_EXPIRY (R124). -/
def execHoldExpiry (i : Nat) (s : State) : Host.Outcome State Fault Refusal :=
  .next (s.act (holdDue i))

/-- A speed record older than its validity is discarded (R126). -/
def speedAged (n : Nat) (v : Env) (d : Live) : Live :=
  match (d.control n).speed with
  | some q => if speedStale v q then d.setControl n (fun c => { c with speed := none }) else d
  | none => d

/-- SPEED_RECORD_STALE (R126). -/
def execSpeedRecordStale (n : Nat) (s : State) : Host.Outcome State Fault Refusal :=
  .next (s.act (speedAged n))

/-! ### Throws (R99, R104, R106) -/

/-- The stagger expiry reached: the expiry and the reference time become absent, the arbiter runs
(R99). -/
def staggerDue (g : Nat) (v : Env) (d : Live) : Live :=
  if due v.now (d.powerGroup g).stagger then
    runArbiter .now v g (d.setPower g (fun x =>
      if (v.power g).separated then { x with stagger := none, lastEnd := none }
      else { x with stagger := none, lastStart := none }))
  else d

/-- STAGGER_EXPIRY (R99). -/
def execStaggerExpiry (g : Nat) (s : State) : Host.Outcome State Fault Refusal :=
  .next (s.act (staggerDue g))

/-- The settle expiry reached: the throw completes (R104, R105). -/
def settleDue (p : Nat) (v : Env) (d : Live) : Live :=
  match (d.control p).flight with
  | some f => if due v.now f.settle then flightDone v p f d else d
  | none => d

/-- SETTLE_EXPIRY (R104). -/
def execSettleExpiry (p : Nat) (s : State) : Host.Outcome State Fault Refusal :=
  .next (s.act (settleDue p))

/-- The requirements of a slot whose protector is a point in a position (R88). -/
def failedRecords (s : Slot) (p : Nat) (pos : Position) : List Nat :=
  (s.flank.zipIdx.filter (fun x => x.1.protector = some (.point p pos))).map Prod.snd

/-- A re-search of one requirement: its protector given up and excluded, the search continued, the
option returned taken; `none` where nothing is takeable (R89). -/
def reSearch (v : Env) (i k p : Nat) (pos : Position) (r : Release) : Release × Bool :=
  match (r.live.slot i).flank[k]? with
  | some h =>
    let ex := if h.excluded.contains (p, pos) then h.excluded else h.excluded ++ [(p, pos)]
    let put := fun (x : FlankHold) (d : Live) =>
      d.setSlot i (fun s => { s with flank := s.flank.set k x })
    let r1 := r.giveUp (.point p pos)
    match continueSearch v r1.live ex h.position.reverse with
    | some (q, way) =>
      let d2 := takeProtector v q r1.live
      ({ r1 with live := put { protector := some q, position := way, excluded := ex } d2 }, true)
    | none => ({ r1 with live := put FlankHold.released r1.live }, false)
  | none => (r, true)

/-- The re-searches of a slot's requirements in order, up to the first that fails (R89, R91). -/
def reSearches (v : Env) (i p : Nat) (pos : Position) : List Nat → Release → Release × Bool
  | [], r => (r, true)
  | k :: ks, r =>
    match reSearch v i k p pos r with
    | (r1, true) => reSearches v i p pos ks r1
    | (r1, false) => (r1, false)

/-- A slot that no re-search could protect: the give-ups already made and the whole-slot release are one
release; the entry signal is computed after it (R72, R79, R91, log 31). -/
def failReSearch (v : Env) (i : Nat) (r : Release) : Live :=
  match r.live.routeOf v i with
  | some rt =>
    let r1 := { r with live := releaseExit v i false r.live }
    let d2 := (wholeRelease v i r1).handOn v
    computeAspect v rt.entry
      (serve v ((d2.report (freeReport rt i (some .flankUnavailable))).setReeval true))
  | none => r.handOn v

/-- The flank orders of the new protectors of some requirements (R84, R90). -/
def flankOrders (s : Slot) (i : Nat) (ks : List Nat) : List (Nat × Position × Origin) :=
  ks.filterMap (fun k => match (s.flank[k]?).bind FlankHold.protector with
    | some (.point n q) => some (n, q, Origin.flank i)
    | _ => none)

/-- The setting timer of a slot put aside, so that its positioning is not tested. -/
def Slot.untimed (s : Slot) : Slot := { s with setting := none }
/-- A setting timer that was put aside taken up again. -/
def Slot.retimed (t : Option Time) (s : Slot) : Slot :=
  if s.state = .setting && s.setting.isNone then { s with setting := t } else s

/-- One slot in SETTING whose flank point's throw failed and whose setting timer was put aside (R88 to
R91): its requirements are re-searched, and when none fails the timer runs on and its positioning is
tested. -/
def reSearchSlot (v : Env) (p : Nat) (pos : Position) (timer : Option Time) (i : Nat) (d : Live) : Live :=
  let ks := failedRecords (d.slot i) p pos
  if (d.slot i).state != .setting then d
  else
    match reSearches v i p pos ks (Release.start d) with
    | (r, false) => failReSearch v i r
    | (r, true) =>
      let d1 := serve v (r.handOn v)
      let d2 := handOrders .now v none (flankOrders (d1.slot i) i ks) d1
      testPositioning v i (d2.setSlot i (Slot.retimed timer))

/-- The slots in SETTING that a failed throw concerns through their path or overlap (R71). -/
def routeHits (v : Env) (d : Live) (p : Nat) : List Nat :=
  d.slotIds.filter (fun i => (d.slot i).state = .setting && hasRoutePoint v d p i)

/-- The other slots in SETTING that count on the failed point in the failed position (R88). -/
def flankHits (v : Env) (d : Live) (p : Nat) (pos : Position) : List Nat :=
  d.slotIds.filter (fun i => (d.slot i).state = .setting && !hasRoutePoint v d p i
    && !(failedRecords (d.slot i) p pos).isEmpty)

/-- A failed throw handed to the Flank Search Unit and the Route Setter (R71, R88). A slot concerned is not
tested for positioning before its own failure or re-search, since "A fails in either order" (R92): its
setting timer is put aside until then. The re-searches come first (log 12). -/
def throwFailed (v : Env) (p : Nat) (pos : Position) (d : Live) : Live :=
  let fails := routeHits v d p
  let searches := flankHits v d p pos
  let d1 := (fails ++ searches).foldl (fun e i => e.setSlot i Slot.untimed) d
  let d2 := searches.foldl (fun e i => reSearchSlot v p pos (d.slot i).setting i e) d1
  fails.foldl (fun e i => failSetting v i .throwFailed e) d2

/-- A throw expiry reached before completion: the throw ends in THROW_FAIL and is handed to the
Supervision Unit, the Flank Search Unit and the Route Setter; the arbiter runs (R106, log 12). -/
def throwDue (p : Nat) (v : Env) (d : Live) : Live :=
  match (d.control p).flight with
  | some f =>
    if reached v.now f.expiry then
      let d1 := throwFailed v p f.position (raise v p .throwFail none (failFlight v p d))
      runArbiter .now v (v.groupOf p) (evaluateElement v p d1)
    else d
  | none => d

/-- THROW_EXPIRY (R106). -/
def execThrowExpiry (p : Nat) (s : State) : Host.Outcome State Fault Refusal :=
  .next (s.act (throwDue p))

/-! ### Confirmations (R140) -/

/-- A confirmation expiry reached: LOST_DETECTION or LAMP_FAIL is raised (R140). -/
def confirmDue (n : Nat) (v : Env) (d : Live) : Live :=
  if due v.now (d.control n).confirm then
    let d1 := d.setControl n (fun c => { c with confirm := none })
    raise v n (if v.elementIs n Element.isPoint then .lostDetection else .lampFail) none d1
  else d

/-- CONFIRMATION_EXPIRY (R140). -/
def execConfirmationExpiry (n : Nat) (s : State) : Host.Outcome State Fault Refusal :=
  .next (s.act (confirmDue n))

end Sys2Proof.Machine
end

