-- ==== Sys2Proof/Machine/Time.lean ====
section
/-! DEFINITION. What the part does when no command waits: the events that are due become commands, and
when none is due the Time Base counts one millisecond (0.5, log 2). -/

namespace Sys2Proof.Machine

open Sys2Proof

/-- A command where a test holds. -/
def when (b : Bool) (c : Instr) : List Instr := if b then [c] else []

/-- The command that takes a frame (R151). -/
def takeCommand (l : Nat) : NFrame → Instr
  | .status .. => .status l
  | .dirRequest .. => .dirRequest l
  | .dirGrant _ => .dirGrant l
  | .dirRefuse _ => .dirRefuse l
  | .dirOffer _ => .dirOffer l
  | .acceptRequest _ => .acceptRequest l
  | .acceptGrant .. => .acceptGrant l
  | .acceptRefuse .. => .acceptRefuse l
  | .acceptCancel _ => .acceptCancel l

/-- A link's frame to take, and its timers (R150 to R152). -/
def linkEvents (v : Env) (d : Live) (l : Nat) : List Instr :=
  let k := d.link l
  (k.rx.head?.map (takeCommand l)).toList
    ++ when (k.state = .up && due v.now k.silence) (.linkSilenceExpiry l)
    ++ when ((v.link? l).isSome && due v.now k.nextStatus) (.statusIntervalExpiry l)

/-- A lane's windows and silence (R145, R173). -/
def laneEvents (v : Env) (d : Live) (l : LaneId) : List Instr :=
  when (dueEntry v.now (d.lane l).requests).isSome (.agreementWindowExpiry l)
    ++ when (v.operating && v.present l && due v.now (v.silence l)) (.laneSilenceExpiry l)

/-- The timers of an element record (R11, R13, R14). -/
def elementEvents (v : Env) (e : Element) : List Instr :=
  when (due v.now e.discExpiry) (.discrepancyExpiry e.num)
    ++ when (due v.now e.pickUp) (.pickUpExpiry e.num)
    ++ when (occAged v.now e) (.occupationTimeAged e.num)

/-- The timers in a control record (R104, R106, R126, R140). -/
def controlEvents (v : Env) (c : Control) : List Instr :=
  (match c.flight with
    | some f => when (due v.now f.settle) (.settleExpiry c.num)
        ++ when (reached v.now f.expiry) (.throwExpiry c.num)
    | none => [])
    ++ when (due v.now c.confirm) (.confirmationExpiry c.num)
    ++ when (c.speed.any (speedStale v)) (.speedRecordStale c.num)

/-- The timers of a slot (R70, R117, R124). -/
def slotEvents (v : Env) (d : Live) (i : Nat) : List Instr :=
  let s := d.slot i
  when (s.state = .setting && due v.now s.setting) (.settingTimerExpiry i)
    ++ when (s.active && due v.now s.overlapExpiry) (.overlapExpiry i)
    ++ when (s.state = .cancelling && due v.now s.hold) (.holdExpiry i)

/-- The timers of a boundary (R158, R162, R166, R167). -/
def boundaryEvents (v : Env) (x : Boundary) : List Instr :=
  when (due v.now x.reqExpiry) (.dirRequestExpiry x.num)
    ++ when (due v.now x.accExpiry) (.acceptanceExpiry x.num)
    ++ when (due v.now x.consExpiry) (.consistencyExpiry x.num)
    ++ when (due v.now x.resetExpiry) (.resetExpiry x.num)

/-- The events that are due, in one fixed order. At one count "either may be taken first" (0.5), so any
order is one the part may take (log 2). -/
def dueCommands (s : State) : List Instr :=
  let v := s.env
  let d := s.live
  (List.range d.links.length).flatMap (linkEvents v d)
    ++ [LaneId.a, LaneId.b].flatMap (laneEvents v d)
    ++ when (due v.now v.startHold) .startHoldExpiry
    ++ v.elements.flatMap (elementEvents v)
    ++ d.controls.flatMap (controlEvents v)
    ++ d.slotIds.flatMap (slotEvents v d)
    ++ d.stored.flatMap (fun x => when (due v.now x.expiry) (.storedExpiry x.route))
    ++ (List.range d.power.length).flatMap (fun g =>
        when (due v.now (d.powerGroup g).stagger) (.staggerExpiry g))
    ++ d.boundaries.flatMap (boundaryEvents v)

/-- No command waits: the due events are queued, or the Time Base advances (log 2). -/
def idle (s : State) : State :=
  match dueCommands s with
  | [] => { s with env := { s.env with now := s.env.now + 1 } }
  | c :: cs => { s with pending := c :: cs }

end Sys2Proof.Machine
end

