-- ==== Sys2Proof/Machine/Dispatch.lean ====
section
/-! DEFINITION. The dispatch: one arm for each command of the operation table. -/

namespace Sys2Proof.Machine

open Sys2Proof

def exec (i : Instr) (s : State) : Host.Outcome State Fault Refusal :=
  match i with
  | .powerOn => Sys2Proof.Machine.execPowerOn s
  | .reset => Sys2Proof.Machine.execReset s
  | .laneFrameError x => Sys2Proof.Machine.execLaneFrameError x s
  | .unknownRequest x kind payload => Sys2Proof.Machine.execUnknownRequest x kind payload s
  | .emptyRequest x => Sys2Proof.Machine.execEmptyRequest x s
  | .detect x pairs => Sys2Proof.Machine.execDetect x pairs s
  | .readElement x element => Sys2Proof.Machine.execReadElement x element s
  | .readSlot x slot => Sys2Proof.Machine.execReadSlot x slot s
  | .readRoute x route => Sys2Proof.Machine.execReadRoute x route s
  | .readBoundary x boundary => Sys2Proof.Machine.execReadBoundary x boundary s
  | .readGroups x start => Sys2Proof.Machine.execReadGroups x start s
  | .readStatus x => Sys2Proof.Machine.execReadStatus x s
  | .readFaults x start => Sys2Proof.Machine.execReadFaults x start s
  | .setRoute x route priority store => Sys2Proof.Machine.execSetRoute x route priority store s
  | .cancelRoute x route => Sys2Proof.Machine.execCancelRoute x route s
  | .releaseEmergency x route => Sys2Proof.Machine.execReleaseEmergency x route s
  | .throwPoint x element position => Sys2Proof.Machine.execThrowPoint x element position s
  | .block x element => Sys2Proof.Machine.execBlock x element s
  | .unblock x element => Sys2Proof.Machine.execUnblock x element s
  | .ackFault x element kind => Sys2Proof.Machine.execAckFault x element kind s
  | .stopSet x group => Sys2Proof.Machine.execStopSet x group s
  | .stopRelease x group => Sys2Proof.Machine.execStopRelease x group s
  | .boundaryReset x boundary => Sys2Proof.Machine.execBoundaryReset x boundary s
  | .linkEnable x link => Sys2Proof.Machine.execLinkEnable x link s
  | .linkDisable x link => Sys2Proof.Machine.execLinkDisable x link s
  | .rejoin x lane => Sys2Proof.Machine.execRejoin x lane s
  | .restartKeep x operand => Sys2Proof.Machine.execRestartKeep x operand s
  | .restartUnload x => Sys2Proof.Machine.execRestartUnload x s
  | .loadBegin x => Sys2Proof.Machine.execLoadBegin x s
  | .loadRecord x payload => Sys2Proof.Machine.execLoadRecord x payload s
  | .loadEnd x digest => Sys2Proof.Machine.execLoadEnd x digest s
  | .agreementWindowExpiry lane => Sys2Proof.Machine.execAgreementWindowExpiry lane s
  | .laneSilenceExpiry lane => Sys2Proof.Machine.execLaneSilenceExpiry lane s
  | .startHoldExpiry => Sys2Proof.Machine.execStartHoldExpiry s
  | .discrepancyExpiry element => Sys2Proof.Machine.execDiscrepancyExpiry element s
  | .pickUpExpiry element => Sys2Proof.Machine.execPickUpExpiry element s
  | .occupationTimeAged element => Sys2Proof.Machine.execOccupationTimeAged element s
  | .settingTimerExpiry slot => Sys2Proof.Machine.execSettingTimerExpiry slot s
  | .storedExpiry route => Sys2Proof.Machine.execStoredExpiry route s
  | .overlapExpiry slot => Sys2Proof.Machine.execOverlapExpiry slot s
  | .holdExpiry slot => Sys2Proof.Machine.execHoldExpiry slot s
  | .speedRecordStale element => Sys2Proof.Machine.execSpeedRecordStale element s
  | .staggerExpiry group => Sys2Proof.Machine.execStaggerExpiry group s
  | .settleExpiry point => Sys2Proof.Machine.execSettleExpiry point s
  | .throwExpiry point => Sys2Proof.Machine.execThrowExpiry point s
  | .confirmationExpiry element => Sys2Proof.Machine.execConfirmationExpiry element s
  | .areaStopInputChange input asserted => Sys2Proof.Machine.execAreaStopInputChange input asserted s
  | .neighbourFrameError link bytes => Sys2Proof.Machine.execNeighbourFrameError link bytes s
  | .neighbourFrameReceived link frame => Sys2Proof.Machine.execNeighbourFrameReceived link frame s
  | .status link => Sys2Proof.Machine.execStatus link s
  | .dirRequest link => Sys2Proof.Machine.execDirRequest link s
  | .dirGrant link => Sys2Proof.Machine.execDirGrant link s
  | .dirRefuse link => Sys2Proof.Machine.execDirRefuse link s
  | .dirOffer link => Sys2Proof.Machine.execDirOffer link s
  | .acceptRequest link => Sys2Proof.Machine.execAcceptRequest link s
  | .acceptGrant link => Sys2Proof.Machine.execAcceptGrant link s
  | .acceptRefuse link => Sys2Proof.Machine.execAcceptRefuse link s
  | .acceptCancel link => Sys2Proof.Machine.execAcceptCancel link s
  | .statusIntervalExpiry link => Sys2Proof.Machine.execStatusIntervalExpiry link s
  | .linkSilenceExpiry link => Sys2Proof.Machine.execLinkSilenceExpiry link s
  | .dirRequestExpiry boundary => Sys2Proof.Machine.execDirRequestExpiry boundary s
  | .acceptanceExpiry boundary => Sys2Proof.Machine.execAcceptanceExpiry boundary s
  | .consistencyExpiry boundary => Sys2Proof.Machine.execConsistencyExpiry boundary s
  | .resetExpiry boundary => Sys2Proof.Machine.execResetExpiry boundary s
  | .queuedFrameSent link => Sys2Proof.Machine.execQueuedFrameSent link s

end Sys2Proof.Machine
end

