-- ==== Sys2Proof/Safety.lean ====
section
/-! DEFINITION. What the statements speak of: tables that hold a record, states that keep what the manual
promises of every moment, and when a voted request is taken. -/

namespace Sys2Proof.Machine

open Sys2Proof

/-! ### Records that exist -/

/-- An element has a control record. -/
abbrev Live.hasControl (d : Live) (n : Nat) : Prop := n ∈ d.controls.map Control.num
/-- A boundary has a record. -/
abbrev Live.hasBoundary (d : Live) (b : Nat) : Prop := b ∈ d.boundaries.map Boundary.num

/-! ### What holds at every moment -/

/-- Detection of an element is derived as R8 and R9 say, and its filter as R13 and R14 leave it: a view is a
value that the element takes (R6); the agreed value is the one its views and the lane mode give; a section
agreed OCCUPIED is filtered OCCUPIED; a pick-up timer runs only on a section filtered OCCUPIED whose agreed
value is CLEAR again; a discrepancy timer runs only while its condition holds (R11). -/
def Env.elementSound (v : Env) (e : Element) : Prop :=
  (∀ l x, e.view l = some x → e.dfn.kind.takes x = true)
    ∧ e.agreed = v.deriveAgreed e
    ∧ (e.isSection = true → e.agreed = .occupied → e.occupied = true)
    ∧ (e.pickUp.isSome = true → e.isSection = true ∧ e.occupied = true ∧ e.agreed ≠ .occupied)
    ∧ (e.discExpiry.isSome = true → v.discrepancyHolds e = true)

/-- Detection of every defined element is sound. -/
def Env.detectionSound (v : Env) : Prop := ∀ n e, v.element? n = some e → v.elementSound e

/-- The queues of the part are within the capacities of 0.6 (R63, R96, R170, R172). -/
def Live.bounded (d : Live) : Prop :=
  (∀ l, (d.lane l).reports.length ≤ Config.reportCapacity
      ∧ (d.lane l).requests.length ≤ Config.pendingCapacity)
    ∧ d.stored.length ≤ Config.storedCapacity
    ∧ d.orders.length ≤ Config.orderCapacity
    ∧ (∀ k ∈ d.links, k.rx.length ≤ Config.receiveCapacity
        ∧ k.tx.length ≤ Config.transmitCapacity)

/-- Every table has its records (R5, R36, R55, R99, R130, R149, R154): the links at all times; while
OPERATING a control record for each element, a record for each boundary, 48 slots, four power groups and
eight area-stop groups. -/
def State.tablesWhole (s : State) : Prop :=
  s.live.links.length = Config.linkCount
    ∧ (s.env.operating = true →
        s.live.controls.map Control.num = s.env.elements.map Element.num
          ∧ s.live.boundaries.map Boundary.num = s.env.defs.boundaries.map BoundaryDef.number
          ∧ s.live.slots.length = Config.slotCount
          ∧ s.live.power.length = Config.powerGroups
          ∧ s.live.groups.length = Config.stopGroups)

/-- An element stands in no list of a slot's route, is not its entry signal, and protects none of its flank
requirements. -/
def Live.noneAt (v : Env) (d : Live) (n i : Nat) : Prop :=
  ∀ rt, d.routeOf v i = some rt → rt.entry ≠ n ∧ (∀ e ∈ rt.path ++ rt.overlap, e.element ≠ n)
    ∧ ∀ q ∈ protectors (d.slot i), q.element ≠ n
/-- No slot but this one has an element, as the single lock holder of R37 has it. -/
def Live.onlyAt (v : Env) (d : Live) (n i : Nat) : Prop := ∀ j, j ≠ i → d.noneAt v n j

/-- A slot in CLEAR holds a route with this entry signal (R78). -/
def Live.clearedAt (v : Env) (d : Live) (sig : Nat) : Prop :=
  ∃ i rt, (d.slot i).state = .clear ∧ d.routeOf v i = some rt ∧ rt.entry = sig

/-- Every signal commanded other than STOP is the entry signal of a slot in CLEAR, in NORMAL, a member of no
active area-stop group, counted on by no route for flank protection and not blocked (R78). -/
def State.aspectsShown (s : State) : Prop :=
  s.env.operating = true → ∀ n, s.env.elementIs n Element.isSignal = true →
    (s.live.control n).aspect ≠ .stop →
    s.live.clearedAt s.env n ∧ s.env.mode = .normal ∧ inActiveGroup s.env s.live n = false
      ∧ (s.live.control n).holdCount = 0 ∧ s.env.blocked n = false

/-- The slots and the stored request queue: a FREE slot holds nothing, an active one holds a route of the
standing set, and while lane mode is not NORMAL no slot is in SETTING or CLEAR and nothing is stored (R55,
R77). -/
def State.slotsSound (s : State) : Prop :=
  s.env.operating = true →
    (∀ i, (s.live.slot i).state = .free → s.live.slot i = Slot.free)
      ∧ (∀ i, (s.live.slot i).state ≠ .free → ∃ rt, s.live.routeOf s.env i = some rt)
      ∧ (s.env.mode ≠ .normal → s.live.stored = []
          ∧ ∀ i, (s.live.slot i).state ≠ .setting ∧ (s.live.slot i).state ≠ .clear)

/-- A lock on an element is its holder's: of an active slot on an element of the path or the overlap that is
still the slot's, in that mode; of a LOCKED berth on a section that it has not released (R36, R37, R52). -/
def Live.lockOwned (v : Env) (d : Live) (n : Nat) (k : Lock) : Prop :=
  match k.holder with
  | .slot i => ∃ rt, d.routeOf v i = some rt
      ∧ ((k.mode = .path ∧ ∃ e ∈ ownPath rt (d.slot i), e.element = n)
        ∨ (k.mode = .overlap ∧ ∃ e ∈ ownOverlap rt (d.slot i), e.element = n))
  | .berth b => k.mode = .berth ∧ (d.boundary b).berthLocked = true
      ∧ ∃ bd, v.boundary? b = some bd
        ∧ ∃ m ∈ bd.berth.zip (d.boundary b).marks, m.1 = n ∧ m.2.released = false

/-- The exit slot of every boundary is an active slot whose route exits there (R154). -/
def Live.exitsTied (v : Env) (d : Live) : Prop :=
  ∀ b i, (d.boundary b).exitSlot = some i →
    ∃ rt y, d.routeOf v i = some rt ∧ rt.exit = .boundary y b

/-- How many flank requirements of the slots hold a protector (R38, R81). -/
def Live.protecting (d : Live) (q : Protector) : Nat :=
  (d.slots.map (fun s => s.flank.countP (fun h => h.protector = some q))).sum

/-- Every lock is its holder's, every flank count is the number of flank requirements that hold the
protector, and every exit slot is an active slot whose route exits at its boundary (R36 to R38, R51,
R154). -/
def State.claimsTied (s : State) : Prop :=
  s.env.operating = true →
    (∀ n k, (s.live.control n).lock = some k → s.live.lockOwned s.env n k)
      ∧ (∀ n, s.live.hasControl n →
        (s.live.control n).normalCount = s.live.protecting (.point n .normal)
          ∧ (s.live.control n).reverseCount = s.live.protecting (.point n .reverse)
          ∧ (s.live.control n).holdCount = s.live.protecting (.signal n))
      ∧ s.live.exitsTied s.env

/-! ### What an event leaves alone -/

/-- The locks, the flank counts and the speed record of an element (R36, R126). -/
def Control.claims (c : Control) : Option Lock × Nat × Nat × Nat × Option Speed :=
  (c.lock, c.normalCount, c.reverseCount, c.holdCount, c.speed)
/-- The throw fields of an element (R95). -/
def Control.motion (c : Control) : Option Position × Option Flight × Bool :=
  (c.commanded, c.flight, c.failed)

/-- Every lock, flank count and speed record stands. -/
def Live.claimsStand (d e : Live) : Prop := ∀ n, (e.control n).claims = (d.control n).claims
/-- Commanded positions, throws in flight, pending orders and power groups stand. -/
def Live.throwsStand (d e : Live) : Prop :=
  (∀ n, (e.control n).motion = (d.control n).motion) ∧ e.orders = d.orders ∧ e.power = d.power
/-- Every fault map stands. -/
def Live.faultsStand (d e : Live) : Prop := ∀ n, (e.control n).faults = (d.control n).faults
/-- Every link and boundary record stands. -/
def Live.handoverStands (d e : Live) : Prop := e.links = d.links ∧ e.boundaries = d.boundaries
/-- Pending lists and sent frames stand, and every report that waited waits in its place. -/
def Live.portsStand (d e : Live) : Prop :=
  ∀ l, (e.lane l).requests = (d.lane l).requests ∧ (e.lane l).out = (d.lane l).out
    ∧ (d.lane l).reports <+: (e.lane l).reports

/-- A slot as it was but for a judgement of the Route Setter: one in SETTING, CLEAR or HELD may have moved
among these three, with the fields that such a move sets (R68, R75, R76); any other is untouched. -/
def Slot.judged (s t : Slot) : Prop :=
  { t with state := s.state, everCleared := s.everCleared, reclear := s.reclear,
           setting := s.setting } = s
    ∧ (s.needsExit = false → t = s) ∧ (s.needsExit = true → t.needsExit = true)
/-- Every slot is as it was but for a judgement. -/
def Live.slotsJudged (d e : Live) : Prop := ∀ i, (d.slot i).judged (e.slot i)

/-- A report has been made: it stands in the queue of each lane that had room for it (R170). -/
def Live.made (d : Live) (r : Report) (e : Live) : Prop :=
  ∀ l, (d.lane l).reports.length < Config.reportCapacity → r ∈ (e.lane l).reports

/-- A fault entry of a kind stands ACTIVE in an element's fault map, last raised at a time (R138). -/
def Live.raised (d : Live) (n : Nat) (k : FaultKind) (now : Time) : Prop :=
  ∃ f, (d.control n).fault? k = some f ∧ f.active = true ∧ f.last = now

/-- A fault entry of a kind that is GONE as it is raised stands in an element's fault map, last raised at a time
(R138, R139). -/
def Live.raisedGone (d : Live) (n : Nat) (k : FaultKind) (now : Time) : Prop :=
  ∃ f, (d.control n).fault? k = some f ∧ f.active = false ∧ f.last = now

/-! ### When a voted request is taken (R172, R175) -/

/-- The other lane's pending list holds an equal request, and lane mode asks for both lanes: the request
pairs at once (R172). -/
def State.pairs (s : State) (x : Exchange) (q : Request) : Prop :=
  (∃ e ∈ (s.live.lane x.lane.other).requests, e.request = q)
    ∧ (s.env.operating = true → s.env.mode = .normal)

/-- A port whose pending list has lost its first entry equal to a request. -/
def LanePort.without (q : Request) (p : LanePort) : LanePort :=
  { p with requests := dropFirst q p.requests }

/-- The state after the exchange and the pairing: the matched entry has left the other lane's list. -/
def State.paired (s : State) (x : Exchange) (q : Request) : State :=
  let s1 := s.exchange x
  { s1 with live := s1.live.setLane x.lane.other (LanePort.without q) }

/-- A request is taken, and leaves this state to its owner: from both lanes, paired, or from the live lane
alone while DEGRADED (R147, R172, R174). -/
def State.takenAs (s : State) (x : Exchange) (q : Request) (p : State) : Prop :=
  (s.pairs x q ∧ p = s.paired x q)
    ∨ (takenAlone q = true ∧ s.env.operating = true ∧ s.env.mode = .degraded
        ∧ s.env.present x.lane = true ∧ p = s.exchange x)

/-- The exchange and voted request that a command carries (R171); `none` for a command that is no voted
request. -/
def voteOf : Instr → Option (Exchange × Request)
  | .setRoute x r p st => some (x, .setRoute r p st)
  | .cancelRoute x r => some (x, .cancelRoute r)
  | .releaseEmergency x r => some (x, .releaseEmergency r)
  | .throwPoint x n p => some (x, .throwPoint n p)
  | .block x n => some (x, .block n)
  | .unblock x n => some (x, .unblock n)
  | .ackFault x n k => some (x, .ackFault n k)
  | .stopSet x g => some (x, .stopSet g)
  | .stopRelease x g => some (x, .stopRelease g)
  | .boundaryReset x b => some (x, .boundaryReset b)
  | .linkEnable x l => some (x, .linkEnable l)
  | .linkDisable x l => some (x, .linkDisable l)
  | .rejoin x l => some (x, .rejoin l)
  | .restartKeep x o => some (x, .restart o)
  | .restartUnload x => some (x, .restart 1)
  | .loadBegin x => some (x, .loadBegin)
  | .loadRecord x p => some (x, .loadRecord p)
  | .loadEnd x g => some (x, .loadEnd g)
  | _ => none

end Sys2Proof.Machine
end

