-- ==== Sys2Proof/Certificates/Slice0/Obligations.lean ====
section
/-! DEFINITION. The statements for the provers, each over every state and every operand that meets its
hypotheses. Where a statement leans on a choice of the model, its text names the log entry. The
hypotheses that speak of the model alone are its invariants: no re-evaluation waits between commands
(`StepLeavesNoReevaluationWaiting`) and the tables are whole (`StepKeepsTablesWhole`). -/

open Sys2Proof Sys2Proof.Machine

/-! ### The step -/

/-- The step runs the command at the front of the queue on the state with the queue's rest. -/
def Obligations.StepRunsFrontCommand : Prop :=
  ∀ (s : State) (c : Instr) (rest : List Instr), s.pending = c :: rest →
    step s = exec c { s with pending := rest }

/-- On an empty queue the part idles, by the model's choice of log 2: with no event due the Time Base
counts one millisecond and nothing else changes; the events that are due become the queue. -/
def Obligations.EmptyQueueStepIdles : Prop :=
  ∀ s : State, s.pending = [] →
    (dueCommands s = [] → step s = .next { s with env := { s.env with now := s.env.now + 1 } })
      ∧ (dueCommands s ≠ [] → step s = .next { s with pending := dueCommands s })

/-- The part does not halt (Chapter 8): every command answers a next state, and no command touches the
commands that wait. -/
def Obligations.EveryCommandCompletesKeepingQueue : Prop :=
  ∀ (c : Instr) (s : State), ∃ t, exec c s = .next t ∧ t.pending = s.pending

/-- What only the starts and the end of a set change. The Time Base: POWER_ON and RESET set it to 0, and every
other command leaves it. The standing set: while the part is OPERATING, no command changes the Definition
Store or any element's definition but a RESTART(UNLOAD), POWER_ON and RESET. -/
def Obligations.OnlyStartsChangeTimeBaseAndStandingSet : Prop :=
  ∀ (c : Instr) (s t : State), exec c s = .next t →
    (c = .powerOn ∨ c = .reset → t.env.now = 0)
      ∧ (c ≠ .powerOn → c ≠ .reset → t.env.now = s.env.now
        ∧ (s.env.operating = true → (∀ x, c ≠ .restartUnload x) →
          t.env.store = s.env.store
            ∧ t.env.elements.map (fun e => (e.num, e.dfn))
                = s.env.elements.map (fun e => (e.num, e.dfn))))

/-! ### Reset -/

/-- The state at reset, and what POWER_ON and RESET leave: UNCONFIGURED with no sets, Time Base 0, no
silence timer, no element records, every link DISABLED with empty queues, report queues and pending lists
empty, REPORTS_LOST clear. POWER_ON and RESET leave that state from any other, with the input levels and
the waiting commands as they stand; those, and the levels and absent presence marks of the reset state, are
the model's choice (log 5). -/
def Obligations.PowerOnAndResetGiveColdState : Prop :=
  (State.reset.env.part = .unconfigured ∧ State.reset.env.now = 0
    ∧ State.reset.env.elements = [] ∧ State.reset.env.startHold = none
    ∧ State.reset.env.silenceA = none ∧ State.reset.env.silenceB = none
    ∧ (∀ l, (State.reset.live.lane l).reports = [] ∧ (State.reset.live.lane l).requests = []
        ∧ (State.reset.live.lane l).reportsLost = false)
    ∧ State.reset.live.links.length = 4
    ∧ (∀ k ∈ State.reset.live.links, k.state = .disabled ∧ k.rx = [] ∧ k.tx = [])
    ∧ State.reset.live.controls = [] ∧ State.reset.live.slots = []
    ∧ State.reset.live.stored = [] ∧ State.reset.live.orders = []
    ∧ State.reset.live.groups = [] ∧ State.reset.live.boundaries = [])
  ∧ ∀ s : State, ∀ c ∈ [Instr.powerOn, Instr.reset],
    exec c s = .next { State.reset with
      env := { State.reset.env with as0 := s.env.as0, as1 := s.env.as1 }, pending := s.pending }

/-! ### Invariants -/

/-- The invariants hold at reset. -/
def Obligations.InvariantsHoldAtReset : Prop :=
  State.reset.env.detectionSound ∧ State.reset.live.bounded ∧ State.reset.tablesWhole
    ∧ State.reset.aspectsShown ∧ State.reset.slotsSound ∧ State.reset.claimsTied
    ∧ State.reset.live.reeval = false

/-- Detection stays sound: every step from a state in which each agreed value is the one its views and
the lane mode give, each section agreed OCCUPIED is filtered OCCUPIED, and timers run only where they
may, ends in such a state. -/
def Obligations.StepKeepsDetectionSound : Prop :=
  ∀ s t : State, s.env.detectionSound → step s = .next t → t.env.detectionSound

/-- No queue outgrows its capacity: every step from a state within the capacities ends in one. -/
def Obligations.StepKeepsQueuesBounded : Prop :=
  ∀ s t : State, s.live.bounded → step s = .next t → t.live.bounded

/-- The tables stay whole: every step from a state whose tables hold a record for each thing defined ends
in one. -/
def Obligations.StepKeepsTablesWhole : Prop :=
  ∀ s t : State, s.tablesWhole → step s = .next t → t.tablesWhole

/-- The aspects are shown by right: every step from a state with whole tables, in which every signal commanded
other than STOP is the entry signal of a slot in CLEAR, in NORMAL, unblocked, in no active area-stop group
and with no flank hold, ends in such a state (R78, R79). -/
def Obligations.StepKeepsAspectsShown : Prop :=
  ∀ s t : State, s.tablesWhole → s.aspectsShown → step s = .next t → t.aspectsShown

/-- The slots stay sound: every step from a state with whole tables, in which a FREE slot holds nothing, an
active slot holds a route of the standing set, and outside NORMAL no slot is in SETTING or CLEAR and nothing
is stored, ends in such a state (R55, R77). -/
def Obligations.StepKeepsSlotsSound : Prop :=
  ∀ s t : State, s.tablesWhole → s.slotsSound → step s = .next t → t.slotsSound

/-- Locks and flank counts stay tied to their holders: every step from a state with whole tables and sound
slots, in which every lock is that of an active slot on an element of its path or overlap that is still its
own, or of a LOCKED berth on a section that it has not released, every flank count is the number of flank
requirements that hold the protector, and the exit slot of every boundary is an active slot whose route exits
there, ends in such a state (R36 to R38, R50 to R52, R94, R154). -/
def Obligations.StepKeepsClaimsTied : Prop :=
  ∀ s t : State, s.tablesWhole → s.slotsSound → s.claimsTied → step s = .next t → t.claimsTied

/-- No re-evaluation of the stored request queue is left waiting between commands (log 9). -/
def Obligations.StepLeavesNoReevaluationWaiting : Prop :=
  ∀ s t : State, s.live.reeval = false → step s = .next t → t.live.reeval = false

/-! ### Frames on the links -/

/-- Frames are read back. On a lane link: the kind, length and payload with their CRC spell exactly the
request of that kind and payload, and bytes after the frame are ignored. On a neighbour link: every
well-formed frame is found where it stands, and the hunt goes on after it. -/
def Obligations.FramesRoundTrip : Prop :=
  (∀ (x : Exchange) (kind : Byte) (p fill : List Byte), p.length ≤ 60 →
    decodeLaneFrame x (kind :: byteOf p.length :: (p
        ++ wordBytes (crc16 (kind :: byteOf p.length :: p)).toNat ++ fill))
      = requestOf x kind.toNat p)
  ∧ ∀ (f : NFrame) (rest : List Byte), f.wellFormed = true →
    framesIn (f.bytes ++ rest) = f :: framesIn rest

/-! ### Lane frames -/

/-- The two lane frames that carry no request. LANE_FRAME_ERROR: the discarded frame makes no report and
restarts no timer; the report frame goes out all the same, and shifted out whole its report leaves the queue
and REPORTS_LOST is cleared. EMPTY_REQUEST: the same exchange, and while the part is OPERATING a PRESENT
lane's silence timer restarts with expiry now plus the lane timeout. Nothing else changes. The model's `out`
holds the frame (log 20), which is built before the request acts (log 4). -/
def Obligations.ExchangesWithoutRequest : Prop :=
  ∀ (x : Exchange) (s : State),
    exec (.laneFrameError x) s = .next (if x.whole then
      { s with live := s.live.setLane x.lane (fun p =>
        { p with reports := p.reports.drop 1, reportsLost := false, out := reportFrame s.env p }) }
      else s)
    ∧ ∃ t, exec (.emptyRequest x) s = .next t
      ∧ t.live = (if x.whole then s.live.setLane x.lane (fun p =>
          { p with reports := p.reports.drop 1, reportsLost := false, out := reportFrame s.env p })
          else s.live)
      ∧ t.env = (if s.env.operating = true ∧ s.env.present x.lane = true then
          s.env.setSilence x.lane (some (after s.env.now s.env.timing.laneTimeout)) else s.env)
      ∧ t.pending = s.pending

/-- UNKNOWN_REQUEST: beside the exchange, one REFUSED with BAD_OPERAND goes to the sending lane alone. The
operand it carries is free where the spec states none (log 8). -/
def Obligations.UnknownRequestRefusedToSender : Prop :=
  ∀ (x : Exchange) (kind : Nat) (p : List Byte) (s : State), ∃ t n,
    exec (.unknownRequest x kind p) s = .next t
      ∧ t.env = (s.exchange x).env ∧ t.pending = s.pending
      ∧ t.live = (s.exchange x).live.setLane x.lane
          (LanePort.place (.refused kind n .badOperand))
      ∧ t.live.lane x.lane.other = s.live.lane x.lane.other

/-- A read is answered at once to the asking lane alone, beside the exchange: each of the six reads that
need definitions is refused with NOT_CONFIGURED outside OPERATING, READ_STATUS is answered in every part
state, and nothing but the asking lane's port changes. While OPERATING what a read names and the part has is
answered: a defined element, route or boundary, a slot below 48, a group below 8, any element number below
512 to start from; anything else is refused with BAD_OPERAND. -/
def Obligations.ReadsAnswerAskingLaneAlone : Prop :=
  ∀ (x : Exchange) (n : Nat) (s : State),
    (∀ c ∈ [(Instr.readElement x n, 0x10), (.readSlot x n, 0x11), (.readRoute x n, 0x12),
        (.readBoundary x n, 0x13), (.readGroups x n, 0x14), (.readFaults x n, 0x16),
        (.readStatus x, 0x15)],
      ∃ t r, exec c.1 s = .next t
        ∧ t = { s.exchange x with live := (s.exchange x).live.setLane x.lane (LanePort.place r) }
        ∧ t.live.lane x.lane.other = s.live.lane x.lane.other
        ∧ (s.env.operating = false → c.2 ≠ 0x15 → r = .refused c.2 n .notConfigured)
        ∧ (c.2 = 0x15 → ∃ body, r = .answer 0x95 body)
        ∧ ((∃ body, r = .answer (c.2 + 0x80) body) ∨ r = .refused c.2 n .notConfigured
            ∨ r = .refused c.2 n .badOperand))
    ∧ (s.env.operating = true →
     ∀ c ∈ [(Instr.readElement x n, 0x10, (s.env.element? n).isSome),
         (.readSlot x n, 0x11, decide (n < 48)), (.readRoute x n, 0x12, (s.env.route? n).isSome),
         (.readBoundary x n, 0x13, (s.env.boundary? n).isSome),
         (.readGroups x n, 0x14, decide (n < 8)), (.readFaults x n, 0x16, decide (n < 512))],
       ∃ t r, exec c.1 s = .next t
         ∧ t.live = (s.exchange x).live.setLane x.lane (LanePort.place r)
         ∧ (c.2.2 = true → ∃ body, r = .answer (c.2.1 + 0x80) body)
         ∧ (c.2.2 = false → r = .refused c.2.1 n .badOperand))

/-- What each read answers, field by field in the order of its rule, with the layouts of R181 and R182. The
record stands as it does when the answer is built, after the exchange. The bytes that the spec does not give
(absent two-byte counts and digests, places with no group or entry, marks of a FREE slot or berth, the flag of
a link with no definition, the mask of asserted sources) are the model's choice (log 17). -/
def Obligations.ReadAnswersGiveTheirFields : Prop :=
  ∀ (x : Exchange) (n : Nat) (s u : State), u = s.exchange x →
    ∀ (c : Instr) (code : Nat) (body : List Byte), (s.env.operating = true ∨ c = .readStatus x) →
      ((∃ e k, c = .readElement x n ∧ code = 0x90 ∧ u.env.element? n = some e ∧ e.num = n
          ∧ k = u.live.control n ∧ e.isSection = true
          ∧ body = wordBytes n ++ [2, viewByte e.viewA, viewByte e.viewB, byteOf e.agreed.code,
              flagByte e.discExpiry.isSome, flagByte e.discrepant, flagByte e.blocked,
              flagByte e.occupied, flagByte e.pickUp.isSome] ++ optTime e.occTime
            ++ holderBytes k.lock ++ [optByte (k.lock.map (fun l => l.mode.code)), 0xFF, 0xFF,
              0xFF, 0xFF, 0xFF, 0xFF, optByte (k.commanded.map Position.code), 0xFF, 0xFF,
              countByte k.faults.length])
        ∨ (∃ e k, c = .readElement x n ∧ code = 0x90 ∧ u.env.element? n = some e ∧ e.num = n
          ∧ k = u.live.control n ∧ e.isPoint = true
          ∧ body = wordBytes n ++ [0, viewByte e.viewA, viewByte e.viewB, byteOf e.agreed.code,
              flagByte e.discExpiry.isSome, flagByte e.discrepant, flagByte e.blocked, 0xFF, 0xFF]
            ++ optTime e.occTime ++ holderBytes k.lock
            ++ [optByte (k.lock.map (fun l => l.mode.code))] ++ wordBytes k.normalCount
            ++ wordBytes k.reverseCount ++ [0xFF, 0xFF, optByte (k.commanded.map Position.code),
              flagByte (k.flight.isSome || u.live.orders.any (fun o => o.point = n)), 0xFF,
              countByte k.faults.length])
        ∨ (∃ e k, c = .readElement x n ∧ code = 0x90 ∧ u.env.element? n = some e ∧ e.num = n
          ∧ k = u.live.control n ∧ e.isSignal = true
          ∧ body = wordBytes n ++ [1, viewByte e.viewA, viewByte e.viewB, byteOf e.agreed.code,
              flagByte e.discExpiry.isSome, flagByte e.discrepant, flagByte e.blocked, 0xFF, 0xFF]
            ++ optTime e.occTime ++ holderBytes k.lock
            ++ [optByte (k.lock.map (fun l => l.mode.code)), 0xFF, 0xFF, 0xFF, 0xFF]
            ++ wordBytes k.holdCount ++ [optByte (k.commanded.map Position.code), 0xFF,
              byteOf k.aspect.code, countByte k.faults.length])
        ∨ (∃ k, c = .readSlot x n ∧ code = 0x91 ∧ n < 48 ∧ k = u.live.slot n ∧ k = Slot.free
          ∧ body = [0, 0xFF, 0xFF, 0xFF, 0xFF, 0xFF] ++ optTime none ++ optTime none ++ optTime none
            ++ [0xFF, 0xFF, 0xFF, 0xFF])
        ∨ (∃ k rt p, c = .readSlot x n ∧ code = 0x91 ∧ n < 48 ∧ k = u.live.slot n
          ∧ u.live.routeOf u.env n = some rt ∧ k.route = some rt.number ∧ k.priority = some p
          ∧ body = [byteOf k.state.code] ++ wordBytes rt.number
            ++ [byteOf p, flagByte k.everCleared, flagByte k.reclear]
            ++ optTime k.setting ++ optTime k.overlapExpiry ++ optTime k.hold
            ++ [byteOf (min (unpositioned u.env u.live n).length 255)]
            ++ (match rt.exit with
                | .boundary _ _ => [flagByte k.dirNeed, flagByte k.accNeed]
                | .signal _ => [0xFF, 0xFF])
            ++ k.pathMarks.map markByte ++ k.overlapMarks.map markByte
            ++ [byteOf (k.flank.filterMap FlankHold.protector).length])
        ∨ (∃ rt, c = .readRoute x n ∧ code = 0x92 ∧ u.env.route? n = some rt ∧ rt.number = n
          ∧ ∃ exit use_, (exit = match rt.exit with | .signal m => m | .boundary m _ => m)
          ∧ ((∃ i, u.live.slotOf n = some i ∧ use_ = [byteOf i, byteOf (u.live.slot i).state.code, 0xFF]
                ++ optTime none)
            ∨ (∃ y, u.live.slotOf n = none ∧ u.live.stored? n = some y
                ∧ use_ = [0xFF, 0xFF, byteOf y.priority] ++ optTime y.expiry)
            ∨ (u.live.slotOf n = none ∧ u.live.stored? n = none
                ∧ use_ = [0xFF, 0xFF, 0xFF] ++ optTime none))
          ∧ body = wordBytes n ++ [if rt.main then 0 else 1] ++ wordBytes rt.entry ++ wordBytes exit
            ++ [flagByte rt.autoReclear, flagByte rt.storable, byteOf rt.path.length,
              byteOf rt.overlap.length, byteOf rt.flank.length] ++ use_)
        ∨ (∃ bd k, c = .readBoundary x n ∧ code = 0x93 ∧ u.env.boundary? n = some bd ∧ bd.number = n
          ∧ k = u.live.boundary n
          ∧ body = [byteOf k.direction.code, flagByte k.restricted] ++ optTime k.reqExpiry
            ++ [flagByte k.waiting, byteOf k.acceptance.code] ++ optTime k.accExpiry
            ++ [optByte k.exitSlot, flagByte k.exitEntered, flagByte k.berthLocked]
            ++ (if k.berthLocked then k.marks.map markByte else bd.berth.map (fun _ => 0))
            ++ optTime k.resetExpiry ++ optTime k.consExpiry
            ++ (match k.views with
                | some y => [byteOf y.number, byteOf y.direction.code, flagByte y.restricted,
                    byteOf y.acceptance.code, flagByte y.waiting, flagByte y.berthLocked,
                    flagByte y.berthEntered, flagByte y.berthOccupied, flagByte y.berthReady,
                    byteOf y.home.code]
                | none => List.replicate 10 0xFF)
            ++ [byteOf (u.live.link bd.link).state.code])
        ∨ (c = .readGroups x n ∧ code = 0x94 ∧ n < 8
          ∧ body = (List.range 4).flatMap (fun j => if n + j < 8 then
                [flagByte (u.live.group (n + j)).active] ++ optTime (u.live.group (n + j)).since
                  ++ [optByte ((u.live.group (n + j)).source.map Source.code),
                    byteOf (((assertedSources u.env u.live (n + j)).map
                      (fun src => 2 ^ src.code)).foldl (· + ·) 0)]
              else [0xFF, 0, 0, 0, 0, 0, 0xFF, 0xFF])
            ++ [flagByte u.env.as0, flagByte u.env.as1]
            ++ [0, 1, 2, 3].map (fun l => flagByte (ownStopFlag u.env u.live l))
            ++ [if n < 4 then byteOf (n + 4) else 0xFF])
        ∨ (∃ st, c = .readStatus x ∧ code = 0x95 ∧ u.env.store = .standing st
          ∧ body = [byteOf u.env.part.code, byteOf u.env.mode.code,
              if u.env.presentA then 0 else 1, if u.env.presentB then 0 else 1]
            ++ optTime u.env.startHold ++ wordBytes st.digest.toNat
            ++ [byteOf (min st.records 255), 0xFF, 0xFF, 0xFF] ++ timeBytes u.env.now
            ++ [countByte u.live.laneA.requests.length, countByte u.live.laneA.reports.length,
              countByte u.live.laneB.requests.length, countByte u.live.laneB.reports.length,
              byteOf (u.live.slots.filter Slot.active).length, byteOf u.live.stored.length,
              byteOf u.live.orders.length])
        ∨ (∃ st, c = .readStatus x ∧ code = 0x95 ∧ u.env.store = .staged st
          ∧ body = [byteOf u.env.part.code, 0xFF, 0xFF, 0xFF] ++ optTime u.env.startHold
            ++ [0xFF, 0xFF, 0xFF, byteOf (min st.records.length 255)]
            ++ wordBytes st.digest.toNat ++ timeBytes u.env.now
            ++ [countByte u.live.laneA.requests.length, countByte u.live.laneA.reports.length,
              countByte u.live.laneB.requests.length, countByte u.live.laneB.reports.length,
              0xFF, 0xFF, 0xFF])
        ∨ (∃ listed next_, c = .readFaults x n ∧ code = 0x96 ∧ n < 512
          ∧ fitFaults 4 (((u.env.elements.filter (fun e => n ≤ e.num)).map
              (fun e => (e.num, (u.live.control e.num).faults))).filter (fun y => !y.2.isEmpty))
              = (listed, next_)
          ∧ body = listed.flatMap (fun y => wordBytes y.1 ++ [byteOf y.2.kind.code,
              byteOf y.2.state.code, byteOf y.2.count] ++ timeBytes y.2.first ++ timeBytes y.2.last)
            ++ (List.replicate (4 - listed.length)
                [0xFF, 0xFF, 0xFF, 0xFF, 0xFF, 0, 0, 0, 0, 0, 0, 0, 0]).flatten
            ++ optWord next_)) →
      exec c s = .next { u with
        live := u.live.setLane x.lane (LanePort.place (.answer code body)) }

/-! ### Detection -/

/-- DETECT with one pair that belongs to its element, in NORMAL: the sending lane's view holds the value;
the agreed value is that value when the other view holds the same, and the kind's safe value otherwise;
no other element changes, nor the definitions, the Time Base or the queue. A DETECT does no more than the
exchange when the part is not OPERATING or the lane is held lost, and when every pair names an undefined
element, a BOUNDARY element, or a value that does not belong to the element's kind. -/
def Obligations.DetectUpdatesViewAndAgreedValue : Prop :=
  (∀ (x : Exchange) (n c : Nat) (y : Detection) (e : Element) (s : State),
     s.env.operating = true → s.env.mode = .normal → s.env.element? n = some e →
     detectionOf c = some y → e.dfn.kind.takes y = true →
     e.view x.lane ≠ some y →
     ∃ t e', exec (.detect x [(n, c)]) s = .next t ∧ t.env.element? n = some e'
       ∧ e'.view x.lane = some y ∧ e'.view x.lane.other = e.view x.lane.other
       ∧ e'.agreed = (if e.view x.lane.other = some y then y else e.dfn.kind.safe)
       ∧ e'.dfn = e.dfn ∧ e'.blocked = e.blocked
       ∧ (∀ m, m ≠ n → t.env.element? m = s.env.element? m)
       ∧ { t.env with elements := s.env.elements } = s.env.heard x.lane ∧ t.pending = s.pending)
  ∧ ∀ (x : Exchange) (ps : List (Nat × Nat)) (s : State),
      (s.env.operating = false ∨ s.env.present x.lane = false
        ∨ ∀ p ∈ ps, s.env.element? p.1 = none
            ∨ (∃ e, s.env.element? p.1 = some e ∧ ∀ y, detectionOf p.2 = some y →
                e.dfn.kind.takes y = false)) →
      exec (.detect x ps) s = .next (s.exchange x)

/-- PICK_UP_EXPIRY: when the pick-up expiry is reached the section becomes filtered CLEAR and the expiry
absent; its agreed value and occupation time stay, and no other element changes. -/
def Obligations.PickUpExpiryClearsSection : Prop :=
  ∀ (n : Nat) (e : Element) (at_ : Time) (s : State), s.env.element? n = some e →
    e.pickUp = some at_ → reached s.env.now at_ = true →
    ∃ t, exec (.pickUpExpiry n) s = .next t
      ∧ t.env.element? n = some { e with occupied := false, pickUp := none }
      ∧ (∀ m, m ≠ n → t.env.element? m = s.env.element? m)
      ∧ { t.env with elements := s.env.elements } = s.env ∧ t.pending = s.pending

/-- A train enters a slot (R113, R114). In NORMAL a DETECT makes a section OCCUPIED, which is the first path
section of a slot in CLEAR, HELD or CANCELLING whose entry 0 is not marked. The slot is ENTERED, its re-clear
permitted flag and its hold go, and path entry 0 is marked "occupied since entry", with every other section of
the path and every overlap section neither released nor transferred that is filtered OCCUPIED. When the last
path section is marked, the overlap is not complete, no overlap timer runs and no overlap section is marked,
the overlap timer starts with the overlap time (R117). A slot that was CANCELLING raises PASSED_AT_STOP on its
entry signal, an entry that is GONE as it is raised. Where no other slot and no berth has the section: so does
one that was HELD, and one that was CLEAR raises nothing; the ROUTE_STATE is made, the boundary of the exit
records the entry, every lock and flank count stands, and the other slots are at most judged. (With no stored
request.) -/
def Obligations.TrainEntersSlot : Prop :=
  ∀ (x : Exchange) (n i : Nat) (e : Element) (rt : RouteDef) (s : State),
    s.env.operating = true → s.env.mode = .normal → s.env.element? n = some e →
    e.isSection = true → e.view x.lane ≠ some .occupied → e.agreed ≠ .occupied →
    e.occupied = false → s.live.routeOf s.env i = some rt →
    rt.path.head?.any (fun y => y.element = n) = true →
    (markAt (s.live.slot i).pathMarks 0).occ = false → s.live.hasControl rt.entry →
    s.live.stored = [] →
    ((s.live.slot i).state = .clear ∨ (s.live.slot i).state = .held
      ∨ (s.live.slot i).state = .cancelling) →
    ∃ t, exec (.detect x [(n, 1)]) s = .next t ∧ t.pending = s.pending
      ∧ t.env.occupied n = true ∧ (∀ m, m ≠ n → t.env.element? m = s.env.element? m)
      ∧ (t.live.slot i).state = .entered ∧ (t.live.slot i).reclear = false
      ∧ (t.live.slot i).hold = none ∧ (t.live.slot i).route = (s.live.slot i).route
      ∧ (t.live.slot i).flank = (s.live.slot i).flank
      ∧ (∀ (k : Nat) (y : Entry) (m : Mark), rt.path[k]? = some y → (s.live.slot i).pathMarks[k]? = some m →
          (t.live.slot i).pathMarks[k]? = some { m with
            occ := m.occ || k = 0 || (y.position.isNone && t.env.occupied y.element) })
      ∧ (∀ (k : Nat) (y : Entry) (m : Mark), rt.overlap[k]? = some y →
          (s.live.slot i).overlapMarks[k]? = some m →
          (t.live.slot i).overlapMarks[k]? = some { m with
            occ := m.occ || (!m.released && !m.transferred && y.position.isNone
              && t.env.occupied y.element) })
      ∧ (t.live.slot i).overlapExpiry =
          (if (sectionIndices rt.path).getLast?.any
                (fun k => (markAt (t.live.slot i).pathMarks k).occ) = true
              ∧ (∃ m ∈ (t.live.slot i).overlapMarks, m.released = false ∧ m.transferred = false)
              ∧ (s.live.slot i).overlapExpiry = none
              ∧ (∀ m ∈ (t.live.slot i).overlapMarks, m.occ = false)
            then some (after s.env.now (1000 * s.env.timing.overlapTime))
            else (s.live.slot i).overlapExpiry)
      ∧ ((s.live.slot i).state = .cancelling → t.live.raisedGone rt.entry .passedAtStop s.env.now)
      ∧ (s.live.onlyAt s.env n i → (∀ bd ∈ s.env.defs.boundaries, n ∉ bd.berth) →
          ((s.live.slot i).state ≠ .clear → t.live.raisedGone rt.entry .passedAtStop s.env.now)
          ∧ ((s.live.slot i).state = .clear → ∀ m, m ≠ n →
              (t.live.control m).faults = (s.live.control m).faults)
          ∧ (s.exchange x).live.made (.routeState rt.number (some i) .entered none) t.live
          ∧ (∀ y b, rt.exit = .boundary y b → (s.live.boundary b).exitSlot = some i →
              s.live.hasBoundary b → (t.live.boundary b).exitEntered = true)
          ∧ (∀ m, (t.live.control m).lock = (s.live.control m).lock
              ∧ (t.live.control m).normalCount = (s.live.control m).normalCount
              ∧ (t.live.control m).reverseCount = (s.live.control m).reverseCount
              ∧ (t.live.control m).holdCount = (s.live.control m).holdCount)
          ∧ (∀ j, j ≠ i → (s.live.slot j).judged (t.live.slot j))
          ∧ t.live.stored = [])

/-- The release behind a train and the end of its passage (R115, R116, R118, R120). At the PICK_UP_EXPIRY of
a path section of a slot in ENTERED, which no other slot and no berth has: a path unit is released when it
and every unit before it are released already, or marked "occupied since entry" with the section filtered
CLEAR and the next path section marked; no other is. Each entry of a unit newly released has no lock of the
slot, and each flank requirement that protects one is given up. Once every path unit is released the overlap
units follow by the same test, transferred ones passed over. The slot is FREE when every path entry is
released, the overlap is complete and no flank requirement is held, and ENTERED otherwise; no other lock
changes. (With no stored request.) -/
def Obligations.PassageReleasesUnits : Prop :=
  ∀ (n i : Nat) (e : Element) (at_ : Time) (rt : RouteDef) (s : State),
    s.env.element? n = some e → e.isSection = true → e.occupied = true →
    e.pickUp = some at_ → reached s.env.now at_ = true →
    s.live.routeOf s.env i = some rt → (s.live.slot i).state = .entered → s.live.stored = [] →
    n ∈ entrySections rt.path → s.live.onlyAt s.env n i →
    (∀ bd ∈ s.env.defs.boundaries, n ∉ bd.berth) →
    ∀ (pathTest lapTest : Nat → Prop),
      -- a path section, by its index, passes the test of R115 by itself
      (∀ k, pathTest k ↔ (markAt (s.live.slot i).pathMarks k).released = true
        ∨ ((markAt (s.live.slot i).pathMarks k).occ = true
          ∧ (∃ y, rt.path[k]? = some y ∧ (y.element = n ∨ s.env.occupied y.element = false))
          ∧ ∀ before j after_, sectionIndices rt.path = before ++ k :: j :: after_ →
              (markAt (s.live.slot i).pathMarks j).occ = true)) →
      -- an overlap section the test of R118
      (∀ k, lapTest k ↔ (markAt (s.live.slot i).overlapMarks k).released = true
        ∨ (markAt (s.live.slot i).overlapMarks k).transferred = true
        ∨ ((markAt (s.live.slot i).overlapMarks k).occ = true
          ∧ (∃ y, rt.overlap[k]? = some y ∧ (y.element = n ∨ s.env.occupied y.element = false))
          ∧ ∀ before after_ j, sectionIndices rt.overlap = before ++ k :: after_ →
              after_.find? (fun q => !(markAt (s.live.slot i).overlapMarks q).transferred) = some j →
              (markAt (s.live.slot i).overlapMarks j).occ = true)) →
    ∃ t, exec (.pickUpExpiry n) s = .next t ∧ t.pending = s.pending
      ∧ ((t.live.slot i = Slot.free ∧ ∀ k ∈ sectionIndices rt.path,
            k < (s.live.slot i).pathMarks.length → pathTest k)
        ∨ ((t.live.slot i).state = .entered
          ∧ ¬ (pathDone (t.live.slot i) = true ∧ (t.live.slot i).overlapDone = true
              ∧ ∀ h ∈ (t.live.slot i).flank, h.protector = none)
          ∧ (∀ before k after_, sectionIndices rt.path = before ++ k :: after_ →
              ((markAt (t.live.slot i).pathMarks k).released = true ↔
                (markAt (s.live.slot i).pathMarks k).released = true
                ∨ ∀ j ∈ before ++ [k], pathTest j))
          ∧ (∀ (k : Nat) (q : Requirement) (h : FlankHold), rt.flank[k]? = some q →
              (t.live.slot i).flank[k]? = some h →
              (∃ before j after_, sectionIndices rt.path = before ++ j :: after_
                ∧ (markAt (s.live.slot i).pathMarks j).released = false
                ∧ (∀ m ∈ before ++ [j], pathTest m) ∧ q.index ∈ unitIndices s.env rt.path j) →
              h.protector = none)
          ∧ (pathDone (t.live.slot i) = false →
              (t.live.slot i).overlapMarks = (s.live.slot i).overlapMarks)
          ∧ (pathDone (t.live.slot i) = true → pathDone (s.live.slot i) = false →
              ∀ before k after_, sectionIndices rt.overlap = before ++ k :: after_ →
                (markAt (s.live.slot i).overlapMarks k).transferred = false →
                ((markAt (t.live.slot i).overlapMarks k).released = true ↔
                  (markAt (s.live.slot i).overlapMarks k).released = true
                  ∨ ∀ j ∈ before ++ [k], lapTest j))))
      ∧ (∀ before k after_, sectionIndices rt.path = before ++ k :: after_ →
          (markAt (s.live.slot i).pathMarks k).released = false →
          (∀ j ∈ before ++ [k], pathTest j) →
          ∀ m ∈ elementsAt rt.path (unitIndices s.env rt.path k),
            ∀ l, (t.live.control m).lock = some l → l.holder ≠ .slot i)
      ∧ (∀ m, (t.live.control m).lock = (s.live.control m).lock
          ∨ ((t.live.control m).lock = none
            ∧ (∃ l, (s.live.control m).lock = some l ∧ l.holder = .slot i)
            ∧ ((∃ before k after_, sectionIndices rt.path = before ++ k :: after_
                  ∧ (markAt (s.live.slot i).pathMarks k).released = false
                  ∧ (∀ j ∈ before ++ [k], pathTest j)
                  ∧ m ∈ elementsAt rt.path (unitIndices s.env rt.path k))
              ∨ ((∀ k ∈ sectionIndices rt.path,
                    k < (s.live.slot i).pathMarks.length → pathTest k)
                  ∧ ∃ k ∈ sectionIndices rt.overlap, lapTest k
                    ∧ m ∈ elementsAt rt.overlap (unitIndices s.env rt.overlap k)))))
      ∧ (∀ j, j ≠ i → (t.live.slot j).route = (s.live.slot j).route
          ∧ (t.live.slot j).pathMarks = (s.live.slot j).pathMarks
          ∧ (t.live.slot j).overlapMarks = (s.live.slot j).overlapMarks
          ∧ (t.live.slot j).flank = (s.live.slot j).flank)
      ∧ s.live.portsStand t.live ∧ t.live.stored = []

/-- DISCREPANCY_EXPIRY: at the expiry the element is held discrepant with no timer, and its fault map holds
a DISCREPANT entry that is ACTIVE and last raised now; no lock, throw, stored request, link or boundary
changes. CONFIRMATION_EXPIRY: the condition has lasted the confirmation time. LOST_DETECTION is raised on a
point and LAMP_FAIL on any other element, ACTIVE from now, and no confirmation runs on; every lock, throw,
stored request, link and boundary stands. -/
def Obligations.DetectionExpiriesRaiseFaults : Prop :=
  (∀ (n : Nat) (e : Element) (at_ : Time) (s : State), s.env.element? n = some e →
     s.live.hasControl n → e.discExpiry = some at_ → reached s.env.now at_ = true →
     s.live.reeval = false →
     ∃ t, exec (.discrepancyExpiry n) s = .next t
       ∧ t.env.element? n = some { e with discExpiry := none, discrepant := true }
       ∧ (∀ m, m ≠ n → t.env.element? m = s.env.element? m)
       ∧ { t.env with elements := s.env.elements } = s.env
       ∧ t.live.raised n .discrepant s.env.now
       ∧ (∀ m, m ≠ n → (t.live.control m).faults = (s.live.control m).faults)
       ∧ s.live.claimsStand t.live ∧ s.live.throwsStand t.live ∧ s.live.handoverStands t.live
       ∧ s.live.portsStand t.live ∧ s.live.slotsJudged t.live ∧ t.live.stored = s.live.stored
       ∧ t.pending = s.pending)
  ∧ ∀ (n : Nat) (at_ : Time) (s : State), (s.live.control n).confirm = some at_ →
      reached s.env.now at_ = true → s.live.hasControl n → s.live.reeval = false →
      ∃ t, exec (.confirmationExpiry n) s = .next t ∧ t.env = s.env ∧ t.pending = s.pending
        ∧ t.live.raised n
            (if s.env.elementIs n Element.isPoint then .lostDetection else .lampFail) s.env.now
        ∧ (t.live.control n).confirm = none
        ∧ (∀ m, m ≠ n → (t.live.control m).faults = (s.live.control m).faults)
        ∧ s.live.claimsStand t.live ∧ s.live.throwsStand t.live ∧ s.live.handoverStands t.live
        ∧ s.live.portsStand t.live ∧ s.live.slotsJudged t.live ∧ t.live.stored = s.live.stored

/-! ### Agreement -/

/-- A voted request that matches nothing waits, outside DEGRADED and ISOLATED: with room in the sender's
list it is appended to that list with expiry now plus the agreement window; with eight entries there it
is refused with QUEUE_FULL to the sending lane alone. While lane mode is not NORMAL, a voted request that is
no REJOIN and that its lane may not have taken alone is refused with LANE_DEGRADED to that lane alone: from a
LOST lane every such request, from the PRESENT lane every one that is not CANCEL_ROUTE, RELEASE_EMERGENCY,
ACK_FAULT, BLOCK or STOP_SET. Beside the exchange nothing else changes. -/
def Obligations.UntakenRequestWaitsOrIsRefused : Prop :=
  (∀ (c : Instr) (x : Exchange) (q : Request) (s : State), voteOf c = some (x, q) →
     (s.env.operating = true → s.env.mode = .normal) →
     (∀ e ∈ (s.live.lane x.lane.other).requests, e.request ≠ q) →
     ((s.live.lane x.lane).requests.length < 8 → ∃ t, exec c s = .next t
       ∧ t.env = (s.exchange x).env ∧ t.pending = s.pending
       ∧ t.live = (s.exchange x).live.setLane x.lane (fun p => { p with
           requests := p.requests ++ [{
             request := q, arrival := s.env.now
             expiry := after s.env.now (if s.env.operating then s.env.timing.window else 250) }] }))
     ∧ (8 ≤ (s.live.lane x.lane).requests.length → ∃ t, exec c s = .next t
       ∧ t.env = (s.exchange x).env ∧ t.pending = s.pending
       ∧ t.live = (s.exchange x).live.setLane x.lane
           (LanePort.place (.refused (requestKind q) (requestOperand q) .queueFull))))
  ∧ ∀ (c : Instr) (x : Exchange) (q : Request) (s : State), voteOf c = some (x, q) →
      s.env.operating = true → s.env.mode ≠ .normal → (∀ n, q ≠ .rejoin n) →
      (s.env.present x.lane = false ∨ ∀ a b, q ≠ .cancelRoute a ∧ q ≠ .releaseEmergency a
        ∧ q ≠ .ackFault a b ∧ q ≠ .block a ∧ q ≠ .stopSet a) →
      ∃ t, exec c s = .next t ∧ t.env = (s.exchange x).env ∧ t.pending = s.pending
        ∧ t.live = (s.exchange x).live.setLane x.lane
            (LanePort.place (.refused (requestKind q) (requestOperand q) .laneDegraded))

/-- The part state's gate on taken requests, each refusal to both lanes, the matched entry gone from the
other lane's list. In UNCONFIGURED every request but LOAD_BEGIN and RESTART(UNLOAD), in LOADING every
request but those, LOAD_RECORD and LOAD_END, is refused with NOT_CONFIGURED; in OPERATING a load request
is refused with BUSY. -/
def Obligations.PartStateGatesTakenRequests : Prop :=
  ∀ (c : Instr) (x : Exchange) (q : Request) (s : State), voteOf c = some (x, q) → s.pairs x q →
    (s.env.part ≠ .operating → q ≠ .loadBegin → q ≠ .restart 1 →
      (s.env.part = .unconfigured ∨ ((∀ p, q ≠ .loadRecord p) ∧ ∀ g, q ≠ .loadEnd g)) →
      ∃ t, exec c s = .next t ∧ t.env = (s.paired x q).env ∧ t.pending = s.pending
        ∧ t.live = (s.paired x q).live.report
            (.refused (requestKind q) (requestOperand q) .notConfigured))
    ∧ (s.env.operating = true →
      (q = .loadBegin ∨ (∃ p, q = .loadRecord p) ∨ ∃ g, q = .loadEnd g) →
      ∃ t, exec c s = .next t ∧ t.env = (s.paired x q).env ∧ t.pending = s.pending
        ∧ t.live = (s.paired x q).live.report
            (.refused (requestKind q) (requestOperand q) .busy))

/-- AGREEMENT_WINDOW_EXPIRY: the first entry in list order whose window has run out is removed from its list
and refused with AGREEMENT_TIMEOUT to both lanes, with the request kind and its operand; the other entries
keep their places, and nothing else changes. That of several such entries of one lane the first goes first is
the model's choice (log 29). -/
def Obligations.WindowExpiryRefusesEntry : Prop :=
  ∀ (l : LaneId) (before after_ : List PendingEntry) (e : PendingEntry) (s : State),
    (s.live.lane l).requests = before ++ e :: after_ →
    (∀ y ∈ before, reached s.env.now y.expiry = false) → reached s.env.now e.expiry = true →
    s.live.reeval = false →
    ∃ t, exec (.agreementWindowExpiry l) s = .next t ∧ t.env = s.env ∧ t.pending = s.pending
      ∧ t.live = (s.live.setLane l (fun p => { p with requests := before ++ after_ })).report
          (.refused (requestKind e.request) (requestOperand e.request) .agreementTimeout)

/-! ### Routes -/

/-- SET_ROUTE of a route no active slot holds, with no stored request, in NORMAL and outside the start hold,
with a FREE slot and the availability test passed: the slot holds the route in SETTING, CLEAR or HELD; in
SETTING its timer runs with expiry now plus the setting limit; every path element is PATH-locked and every
overlap element OVERLAP-locked by the slot, every other lock stands; each flank requirement of the route holds
a protector, and every flank count has grown by the requirements that hold it; no stored request comes. For a
route that ends at a signal, with no slot ENTERED, links, boundaries and groups stand. -/
def Obligations.SetRouteTakesUpRoute : Prop :=
  ∀ (x : Exchange) (r priority store i : Nat) (rt : RouteDef) (placed : Live) (s : State),
    s.env.operating = true → s.pairs x (.setRoute r priority store) → s.env.startHold = none →
    s.env.route? r = some rt → priority ≤ 3 → store ≤ 1 → s.live.slotOf r = none →
    s.live.stored = [] → s.live.freeSlot = some i →
    place (s.paired x (.setRoute r priority store)).env i rt priority
      (s.paired x (.setRoute r priority store)).live = .ok placed →
    (∀ e ∈ rt.path ++ rt.overlap, s.live.hasControl e.element) →
    ∃ t, exec (.setRoute x r priority store) s = .next t
      ∧ t.env = (s.exchange x).env ∧ t.pending = s.pending
      ∧ (t.live.slot i).route = some r ∧ (t.live.slot i).priority = some priority
      ∧ (t.live.slot i).needsExit = true
      ∧ ((t.live.slot i).state = .setting →
          (t.live.slot i).setting = some (after s.env.now (1000 * s.env.timing.settingLimit)))
      ∧ (∀ e ∈ rt.overlap, (t.live.control e.element).lock
          = some { holder := .slot i, mode := .overlap })
      ∧ (∀ e ∈ rt.path, (t.live.control e.element).lock
          = some { holder := .slot i, mode := .path })
      ∧ (∀ n, (∀ e ∈ rt.path ++ rt.overlap, e.element ≠ n) →
          (t.live.control n).lock = (s.live.control n).lock)
      ∧ (t.live.slot i).flank.length = rt.flank.length
      ∧ (∀ h ∈ (t.live.slot i).flank, h.protector ≠ none)
      ∧ (∀ n, s.live.hasControl n →
          (t.live.control n).normalCount = (s.live.control n).normalCount
              + (t.live.slot i).flank.countP (fun h => h.protector = some (.point n .normal))
          ∧ (t.live.control n).reverseCount = (s.live.control n).reverseCount
              + (t.live.slot i).flank.countP (fun h => h.protector = some (.point n .reverse))
          ∧ (t.live.control n).holdCount = (s.live.control n).holdCount
              + (t.live.slot i).flank.countP (fun h => h.protector = some (.signal n)))
      ∧ t.live.stored = []
      ∧ ((∃ sig, rt.exit = .signal sig) → (∀ j, (s.live.slot j).state ≠ .entered) →
          s.live.handoverStands t.live ∧ t.live.groups = s.live.groups)

/-- SET_ROUTE that is not taken up, taken by both lanes in NORMAL. While the start hold runs it is refused
with STARTING, with a bad operand with BAD_OPERAND, for a route in a slot in CANCELLING with BUSY, in
SETTING, CLEAR or ENTERED with ALREADY_SET. With no slot FREE, and with a FREE slot when the availability
test fails for a reason: a STORABLE route with the store flag set is stored at its place while the queue has
fewer than 16 entries, and refused with QUEUE_FULL otherwise; any other is refused with NO_SLOT, or with that
reason. Nothing else changes. The place is that of its priority and arrival time, and behind the entries of
equal priority and equal arrival time, which is the model's choice (log 36). A SET_ROUTE of a slot in HELD is
not meant here. -/
def Obligations.SetRouteStoredOrRefused : Prop :=
  ∀ (x : Exchange) (r priority store : Nat) (s : State), s.env.operating = true →
    s.pairs x (.setRoute r priority store) → s.live.reeval = false →
    ∀ (out : Except Reason (List Stored)),
      -- refused for a reason, or the queue with the entry stored
      ((out = .error .starting ∧ s.env.startHold ≠ none)
        ∨ (out = .error .badOperand ∧ s.env.startHold = none
          ∧ (s.env.route? r = none ∨ 3 < priority ∨ 1 < store))
        ∨ (s.env.startHold = none ∧ s.env.route? r ≠ none ∧ priority ≤ 3 ∧ store ≤ 1
          ∧ ∃ i, s.live.slotOf r = some i
            ∧ (((s.live.slot i).state = .cancelling ∧ out = .error .busy)
              ∨ (((s.live.slot i).state = .setting ∨ (s.live.slot i).state = .clear
                ∨ (s.live.slot i).state = .entered) ∧ out = .error .alreadySet)))
        ∨ (s.env.startHold = none ∧ priority ≤ 3 ∧ store ≤ 1 ∧ s.live.slotOf r = none
          ∧ s.live.stored? r = none ∧ ∃ rt why, s.env.route? r = some rt
            ∧ ((s.live.freeSlot = none ∧ why = .noSlot)
              ∨ ∃ i, s.live.freeSlot = some i
                ∧ place (s.paired x (.setRoute r priority store)).env i rt priority
                    (s.paired x (.setRoute r priority store)).live = .error why)
            ∧ ((rt.storable = true ∧ store = 1 ∧ s.live.stored.length < 16
                ∧ out = .ok (insertStored s.env.now
                    { route := r, priority := priority, arrival := s.env.now
                      expiry := if s.env.timing.storedLifetime = 0 then none
                        else some (after s.env.now (1000 * s.env.timing.storedLifetime)) }
                    s.live.stored))
              ∨ (rt.storable = true ∧ store = 1 ∧ 16 ≤ s.live.stored.length
                ∧ out = .error .queueFull)
              ∨ ((rt.storable = false ∨ store = 0) ∧ out = .error why)))) →
      ∃ t, exec (.setRoute x r priority store) s = .next t ∧ t.env = (s.exchange x).env
        ∧ t.pending = s.pending
        ∧ t.live = (match out with
          | .error why => (s.paired x (.setRoute r priority store)).live.report
              (.refused 0x20 r why)
          | .ok queue => ((s.paired x (.setRoute r priority store)).live.setStored queue).report
              (.routeState r none .free (some .stored)))

/-- A CANCEL_ROUTE of a route that only a stored entry waits for removes that entry and reports it as
STORED_REMOVED. One of a route in CLEAR or HELD whose approach hold is above 0 sets the slot CANCELLING
with that hold; a RELEASE_EMERGENCY of a route in CLEAR, HELD or ENTERED with Hmax. The hold clears
re-clear permitted and the overlap expiry, and is reported; locks, flank counts, throws, faults, stored
requests, links, boundaries, groups and the other slots stand. -/
def Obligations.CancelAndEmergencyReleaseHoldSlot : Prop :=
  ∀ (x : Exchange) (r : Nat) (rt : RouteDef) (s : State), s.env.operating = true →
    s.env.route? r = some rt → s.live.reeval = false →
    (∀ e, s.pairs x (.cancelRoute r) → s.live.slotOf r = none → s.live.stored? r = some e →
      ∃ t, exec (.cancelRoute x r) s = .next t ∧ t.env = (s.exchange x).env
        ∧ t.pending = s.pending
        ∧ t.live = ((s.paired x (.cancelRoute r)).live.setStored
            (s.live.stored.filter (fun y => y.route != r))).report
            (.routeState r none .free (some .storedRemoved)))
    ∧ ∀ (i h : Nat) (c : Instr) (q : Request), s.live.slotOf r = some i → s.pairs x q →
      ((c = .cancelRoute x r ∧ q = .cancelRoute r
          ∧ ((s.live.slot i).state = .clear ∨ (s.live.slot i).state = .held)
          ∧ h = approachHold s.env s.live rt ∧ h ≠ 0)
        ∨ (c = .releaseEmergency x r ∧ q = .releaseEmergency r
          ∧ ((s.live.slot i).state = .clear ∨ (s.live.slot i).state = .held
              ∨ (s.live.slot i).state = .entered)
          ∧ h = s.env.timing.holdMax)) →
      ∃ t, exec c s = .next t ∧ t.env = (s.exchange x).env ∧ t.pending = s.pending
        ∧ t.live.slot i = { s.live.slot i with
            state := .cancelling, hold := some (after s.env.now (1000 * h)), reclear := false
            overlapExpiry := none }
        ∧ (∀ j, j ≠ i → (s.live.slot j).judged (t.live.slot j))
        ∧ (s.paired x q).live.made (.routeState r (some i) .cancelling none) t.live
        ∧ s.live.claimsStand t.live ∧ s.live.throwsStand t.live ∧ s.live.faultsStand t.live
        ∧ s.live.handoverStands t.live ∧ (s.paired x q).live.portsStand t.live
        ∧ t.live.stored = s.live.stored ∧ t.live.groups = s.live.groups

/-- The approach hold of a slot in CLEAR or HELD: 0 with the approach zone clear; with it occupied, Hmin for
a SHUNT route, which in DEGRADED is the model's choice (log 39), and for a MAIN route a value from Hmin to
Hmax, Hmax whenever lane mode is not NORMAL, no speed record stands or the record is stale. -/
def Obligations.ApproachHoldWithinLimits : Prop :=
  ∀ (v : Env) (d : Live) (rt : RouteDef), v.timing.holdMin ≤ v.timing.holdMax →
    (zoneOccupied v d rt.entry = false → approachHold v d rt = 0)
    ∧ (zoneOccupied v d rt.entry = true →
        v.timing.holdMin ≤ approachHold v d rt ∧ approachHold v d rt ≤ v.timing.holdMax
        ∧ (rt.main = false → approachHold v d rt = v.timing.holdMin)
        ∧ (rt.main = true → v.mode ≠ .normal ∨ (d.control rt.entry).speed = none
            ∨ (∃ q, (d.control rt.entry).speed = some q
                ∧ 1000 * v.timing.speedValid < elapsed q.time v.now) →
            approachHold v d rt = v.timing.holdMax))

/-- The computed aspect, which `StepKeepsAspectsShown` ties to the commanded one: it is STOP unless a slot in
CLEAR has it as entry signal, lane mode is NORMAL, no active area-stop group has it as a member, no route
counts on it for flank protection and it is not blocked; and a SHUNT route's is SHUNT then. -/
def Obligations.AspectProceedsOnlyFromClearSlot : Prop :=
  ∀ (v : Env) (d : Live) (sig : Nat),
    (wantedAspect v d sig ≠ .stop →
      (∃ i rt, (d.slot i).state = .clear ∧ d.routeOf v i = some rt ∧ rt.entry = sig)
      ∧ v.mode = .normal ∧ (d.control sig).holdCount = 0 ∧ v.blocked sig = false
      ∧ (∀ g < d.groups.length, (d.group g).active = true →
          v.elementIs sig (fun e => e.member g) = false))
    ∧ (∀ rt, clearedFrom v d sig = some rt → forcedStop v d sig = false → rt.main = false →
        wantedAspect v d sig = .shunt)

/-- STORED_EXPIRY and the life of a stored entry. At its expiry the entry is removed and reported with the
slot absent, the state FREE and the reason EXPIRED; an entry with no expiry is not removed by time; a
STORED_EXPIRY before the expiry changes nothing, which is the model's choice (log 1); a repeated SET_ROUTE
replaces the entry's priority and keeps its arrival and its expiry. -/
def Obligations.StoredEntryExpires : Prop :=
  ∀ (r : Nat) (e : Stored) (s : State), s.live.stored? r = some e → s.live.reeval = false →
    (∀ at_, e.expiry = some at_ → reached s.env.now at_ = true →
      ∃ t, exec (.storedExpiry r) s = .next t ∧ t.env = s.env ∧ t.pending = s.pending
        ∧ t.live = (s.live.setStored (s.live.stored.filter (fun y => y.route != r))).report
            (.routeState r none .free (some .expired)))
    ∧ (e.expiry = none ∨ (∃ at_, e.expiry = some at_ ∧ reached s.env.now at_ = false) →
      exec (.storedExpiry r) s = .next s)
    ∧ (∀ (x : Exchange) (priority store : Nat) (rt : RouteDef), s.env.operating = true →
      s.pairs x (.setRoute r priority store) → s.env.startHold = none → s.env.route? r = some rt →
      priority ≤ 3 → store ≤ 1 → s.live.slotOf r = none →
      ∃ t, exec (.setRoute x r priority store) s = .next t ∧ t.env = (s.exchange x).env
        ∧ t.live.stored? r = some { e with priority := priority }
        ∧ t.live.stored.filter (fun y => y.route != r) = s.live.stored.filter (fun y => y.route != r)
        ∧ (s.paired x (.setRoute r priority store)).live.made
            (.routeState r none .free (some .stored)) t.live)

/-- SETTING_TIMER_EXPIRY of a slot in SETTING and HOLD_EXPIRY of one in CANCELLING, with no stored request
to take up: the slot is FREE; every lock it held on the entries still its own is removed, and every other
lock stands; every other slot keeps its route, marks and flank set; the definitions, the clock and the
pending lists stand. -/
def Obligations.SettingAndHoldExpiriesFreeSlot : Prop :=
  ∀ (i : Nat) (rt : RouteDef) (at_ : Time) (c : Instr) (s : State),
    s.live.routeOf s.env i = some rt → s.live.stored = [] →
    ((c = .settingTimerExpiry i ∧ (s.live.slot i).state = .setting
        ∧ (s.live.slot i).setting = some at_)
      ∨ (c = .holdExpiry i ∧ (s.live.slot i).state = .cancelling
        ∧ (s.live.slot i).hold = some at_)) →
    reached s.env.now at_ = true →
    ∃ t, exec c s = .next t ∧ t.env = s.env ∧ t.pending = s.pending
      ∧ t.live.slot i = Slot.free
      ∧ (∀ n, (t.live.control n).lock =
          if (ownPath rt (s.live.slot i) ++ ownOverlap rt (s.live.slot i)).any
              (fun e => e.element = n)
            && (s.live.control n).lock.any (fun k => k.holder = .slot i)
          then none else (s.live.control n).lock)
      ∧ (∀ j, j ≠ i → (t.live.slot j).route = (s.live.slot j).route
          ∧ (t.live.slot j).pathMarks = (s.live.slot j).pathMarks
          ∧ (t.live.slot j).overlapMarks = (s.live.slot j).overlapMarks
          ∧ (t.live.slot j).flank = (s.live.slot j).flank)
      ∧ t.live.stored = [] ∧ s.live.portsStand t.live

/-- OVERLAP_EXPIRY, with no stored request to take up: the overlap is released whole. The slot's overlap
expiry is absent and every overlap entry of it is released or transferred, or the slot is FREE; its locks
on the overlap entries still its own are removed and every other lock stands. -/
def Obligations.OverlapExpiryReleasesOverlap : Prop :=
  ∀ (i : Nat) (rt : RouteDef) (at_ : Time) (s : State),
    s.live.routeOf s.env i = some rt → s.live.stored = [] →
    (s.live.slot i).overlapExpiry = some at_ → reached s.env.now at_ = true →
    (s.live.slot i).state = .entered →
    ∃ t, exec (.overlapExpiry i) s = .next t ∧ t.env = s.env ∧ t.pending = s.pending
      ∧ (t.live.slot i).overlapExpiry = none ∧ (t.live.slot i).overlapDone = true
      ∧ (∀ n, (t.live.control n).lock =
          if (ownOverlap rt (s.live.slot i)).any (fun e => e.element = n)
            && (s.live.control n).lock.any (fun k => k.holder = .slot i)
          then none else (s.live.control n).lock)
      ∧ t.live.stored = [] ∧ s.live.portsStand t.live

/-! ### Points -/

/-- THROW_POINT is refused with LOCKED, to both lanes, for a point that any holder locks or any flank
requirement counts on, and with BAD_OPERAND for an element that is no point or a position that is neither;
nothing else changes. For a free point with no throw in flight it starts its throw when no other order is
pending and the conditions of a start hold: the containing section filtered CLEAR, the point unblocked and
not held by an area-stop group, its group within budget and past its stagger, detection not already in
position. The point is commanded there with a throw in flight from now to its limit, its group counts the
start, no order is left pending; every other point's throw and every lock, count, link, boundary and group
stands. -/
def Obligations.ThrowPointRefusesOrStartsThrow : Prop :=
  (∀ (x : Exchange) (p position : Nat) (s : State), s.env.operating = true →
     s.pairs x (.throwPoint p position) → s.live.reeval = false →
     ∀ why, ((s.env.elementIs p Element.isPoint = false ∨ 1 < position) ∧ why = .badOperand)
       ∨ (s.env.elementIs p Element.isPoint = true ∧ position ≤ 1
           ∧ ((s.live.control p).lock ≠ none ∨ 0 < (s.live.control p).normalCount
               ∨ 0 < (s.live.control p).reverseCount) ∧ why = .locked) →
     ∃ t, exec (.throwPoint x p position) s = .next t ∧ t.env = (s.exchange x).env
       ∧ t.pending = s.pending
       ∧ t.live = (s.paired x (.throwPoint p position)).live.report (.refused 0x23 p why))
  ∧ ∀ (x : Exchange) (p : Nat) (pos : Position) (e : Element) (s : State), s.env.operating = true →
      s.pairs x (.throwPoint p pos.code) → s.live.reeval = false →
      s.env.element? p = some e → e.isPoint = true → s.live.hasControl p →
      s.env.groupOf p < s.live.power.length →
      (s.live.control p).lock = none → (s.live.control p).normalCount = 0 →
      (s.live.control p).reverseCount = 0 → (s.live.control p).flight = none →
      s.live.orders = [] →
      s.env.pointOccupied p = false → s.env.blocked p = false → throwHeld s.env s.live p = false →
      s.env.detected p pos = false → groupReady s.env s.live (s.env.groupOf p) = true →
      ∃ t, exec (.throwPoint x p pos.code) s = .next t ∧ t.env = (s.exchange x).env
        ∧ t.pending = s.pending
        ∧ (t.live.control p).motion = (some pos, some {
            position := pos, start := s.env.now, expiry := after s.env.now e.limit
            measured := none, settle := none }, false)
        ∧ (∀ n, n ≠ p → (t.live.control n).motion = (s.live.control n).motion)
        ∧ t.live.orders = []
        ∧ (t.live.powerGroup (s.env.groupOf p)).flights
            = (s.live.powerGroup (s.env.groupOf p)).flights + 1
        ∧ (t.live.powerGroup (s.env.groupOf p)).lastStart = some s.env.now
        ∧ (s.paired x (.throwPoint p pos.code)).live.made (.orderPoint p pos) t.live
        ∧ s.live.claimsStand t.live ∧ s.live.faultsStand t.live ∧ s.live.handoverStands t.live
        ∧ s.live.slotsJudged t.live ∧ t.live.stored = s.live.stored ∧ t.live.groups = s.live.groups

/-- SETTLE_EXPIRY, with no order pending and no stored request: the throw in flight ends. The point keeps
its commanded position with no throw in flight, its group counts the end, a throw slower than the slow
threshold leaves a SLOW_THROW entry that is GONE; every other point's throw and every lock, count, link and
boundary stands. -/
def Obligations.SettleExpiryEndsThrow : Prop :=
  ∀ (p : Nat) (f : Flight) (at_ : Time) (e : Element) (s : State),
    (s.live.control p).flight = some f → f.settle = some at_ → reached s.env.now at_ = true →
    s.live.orders = [] → s.live.stored = [] → s.live.hasControl p → s.env.element? p = some e →
    s.env.groupOf p < s.live.power.length →
    ∃ t, exec (.settleExpiry p) s = .next t ∧ t.env = s.env ∧ t.pending = s.pending
      ∧ (t.live.control p).motion
          = ((s.live.control p).commanded, none, (s.live.control p).failed)
      ∧ (∀ n, n ≠ p → (t.live.control n).motion = (s.live.control n).motion)
      ∧ t.live.orders = []
      ∧ (t.live.powerGroup (s.env.groupOf p)).flights
          = (s.live.powerGroup (s.env.groupOf p)).flights - 1
      ∧ (t.live.powerGroup (s.env.groupOf p)).lastEnd = some s.env.now
      ∧ ((∃ m, f.measured = some m ∧ e.slow < m) → ∃ g,
          (t.live.control p).fault? .slowThrow = some g ∧ g.active = false ∧ g.last = s.env.now)
      ∧ (∀ g, (t.live.control p).fault? .throwFail = some g → g.active = false)
      ∧ s.live.claimsStand t.live ∧ s.live.handoverStands t.live ∧ s.live.slotsJudged t.live
      ∧ s.live.portsStand t.live ∧ t.live.groups = s.live.groups ∧ t.live.stored = []

/-- THROW_EXPIRY of a point. With no order pending and no slot in SETTING that has the point in its path or
overlap or counts on it for flank protection in the failed position, the throw ends in failure: the point has
no throw in flight and counts as failed, its group counts the end, a THROW_FAIL entry stands ACTIVE; every
other point's throw and every lock, count, link and boundary stands. With no stored request: every slot in
SETTING that has the point in its path or overlap is FREE (R71); every other slot in SETTING that counts on
it for flank protection in the failed position is FREE, or holds other protectors for those requirements (R88
to R92); a slot that does neither keeps its route, its marks and its flank set. -/
def Obligations.ThrowExpiryFailsThrow : Prop :=
  ∀ (p : Nat) (f : Flight) (s : State),
    (s.live.control p).flight = some f → reached s.env.now f.expiry = true →
    s.live.reeval = false →
    (s.live.orders = [] → s.live.hasControl p → s.env.groupOf p < s.live.power.length →
      (∀ i, (s.live.slot i).state = .setting → hasRoutePoint s.env s.live p i = false
        ∧ ∀ h ∈ (s.live.slot i).flank, h.protector ≠ some (.point p f.position)) →
      ∃ t, exec (.throwExpiry p) s = .next t ∧ t.env = s.env ∧ t.pending = s.pending
        ∧ (t.live.control p).motion = ((s.live.control p).commanded, none, true)
        ∧ (∀ n, n ≠ p → (t.live.control n).motion = (s.live.control n).motion)
        ∧ t.live.orders = []
        ∧ (t.live.powerGroup (s.env.groupOf p)).flights
            = (s.live.powerGroup (s.env.groupOf p)).flights - 1
        ∧ (t.live.powerGroup (s.env.groupOf p)).lastEnd = some s.env.now
        ∧ t.live.raised p .throwFail s.env.now
        ∧ (∀ n, n ≠ p → (t.live.control n).faults = (s.live.control n).faults)
        ∧ s.live.claimsStand t.live ∧ s.live.handoverStands t.live ∧ s.live.slotsJudged t.live
        ∧ s.live.portsStand t.live ∧ t.live.stored = s.live.stored)
    ∧ (s.live.stored = [] →
      ∃ t, exec (.throwExpiry p) s = .next t ∧ t.env = s.env ∧ t.pending = s.pending
        ∧ (∀ i, (s.live.slot i).state = .setting → hasRoutePoint s.env s.live p i = true →
            t.live.slot i = Slot.free)
        ∧ (∀ i rt, (s.live.slot i).state = .setting → s.live.routeOf s.env i = some rt →
            hasRoutePoint s.env s.live p i = false →
            (∃ h ∈ (s.live.slot i).flank, h.protector = some (.point p f.position)) →
            t.live.slot i = Slot.free
              ∨ ((t.live.slot i).route = (s.live.slot i).route
                ∧ ∀ h ∈ (t.live.slot i).flank, h.protector ≠ some (.point p f.position)))
        ∧ (∀ i, (s.live.slot i).state ≠ .setting
              ∨ (hasRoutePoint s.env s.live p i = false
                ∧ ∀ h ∈ (s.live.slot i).flank, h.protector ≠ some (.point p f.position)) →
            (t.live.slot i).route = (s.live.slot i).route
              ∧ (t.live.slot i).pathMarks = (s.live.slot i).pathMarks
              ∧ (t.live.slot i).overlapMarks = (s.live.slot i).overlapMarks
              ∧ (t.live.slot i).flank = (s.live.slot i).flank)
        ∧ s.live.portsStand t.live ∧ t.live.stored = [])

/-! ### Elements -/

/-- BLOCK sets and UNBLOCK clears the blocked flag of a POINT, SIGNAL or SECTION and of no other element;
locks, throws, faults, links, boundaries and groups stand. (UNBLOCK with no order pending and no stored
request, which it would let run.) An undefined or BOUNDARY element is refused with BAD_OPERAND. Both are taken
from both lanes, and BLOCK from the live lane alone while DEGRADED (R147). -/
def Obligations.BlockAndUnblockSetFlag : Prop :=
  ∀ (x : Exchange) (n : Nat) (s p : State), s.env.operating = true → s.live.reeval = false →
    ∀ c ∈ [(Instr.block x n, Request.block n, true), (.unblock x n, .unblock n, false)],
      s.takenAs x c.2.1 p →
      (∀ e, s.env.element? n = some e → e.isBoundary = false →
        (c.2.2 = false → s.live.orders = [] ∧ s.live.stored = []) →
        ∃ t, exec c.1 s = .next t ∧ t.pending = s.pending
          ∧ t.env.element? n = some { e with blocked := c.2.2 }
          ∧ (∀ m, m ≠ n → t.env.element? m = s.env.element? m)
          ∧ { t.env with elements := s.env.elements } = p.env
          ∧ s.live.claimsStand t.live ∧ s.live.throwsStand t.live ∧ s.live.faultsStand t.live
          ∧ s.live.handoverStands t.live ∧ s.live.slotsJudged t.live
          ∧ p.live.portsStand t.live
          ∧ t.live.stored = s.live.stored ∧ t.live.groups = s.live.groups)
      ∧ (s.env.element? n = none ∨ (∃ e, s.env.element? n = some e ∧ e.isBoundary = true) →
        ∃ t, exec c.1 s = .next t ∧ t.pending = s.pending ∧ t.env = p.env
          ∧ t.live = p.live.report (.refused (requestKind c.2.1) n .badOperand))

/-- ACK_FAULT by its table: refused with NOT_CONFIGURED outside OPERATING, with BAD_OPERAND for an undefined
element or a kind that is not one of the nine, with NO_FAULT where no entry of the kind stands, with ACTIVE
where it is ACTIVE; a GONE entry is removed and reported REMOVED with the count and the times it held and no
measured time, which is the model's choice (log 14), every other entry, lock, throw, link, boundary and group
stands, and where the kind is a blocking one the stored requests are re-evaluated on the state `d` so left
(R141), at the end of the event (log 9). It is taken from the live lane alone while DEGRADED, and during the
start hold. -/
def Obligations.AckFaultRemovesGoneEntry : Prop :=
  ∀ (x : Exchange) (n kind : Nat) (s p : State), s.takenAs x (.ackFault n kind) p →
    s.live.reeval = false →
    (s.env.operating = false → ∃ t, exec (.ackFault x n kind) s = .next t ∧ t.env = p.env
      ∧ t.pending = p.pending ∧ t.live = p.live.report (.refused 0x26 n .notConfigured))
    ∧ (s.env.operating = true → s.env.element? n = none ∨ kind = 0 ∨ 9 < kind →
      ∃ t, exec (.ackFault x n kind) s = .next t ∧ t.env = p.env ∧ t.pending = p.pending
        ∧ t.live = p.live.report (.refused 0x26 n .badOperand))
    ∧ ∀ e k, s.env.operating = true → s.env.element? n = some e → faultKindOf kind = some k →
      ((s.live.control n).fault? k = none →
        ∃ t, exec (.ackFault x n kind) s = .next t ∧ t.env = p.env ∧ t.pending = p.pending
          ∧ t.live = p.live.report (.refused 0x26 n .noFault))
      ∧ ∀ f, (s.live.control n).fault? k = some f →
        (f.active = true →
          ∃ t, exec (.ackFault x n kind) s = .next t ∧ t.env = p.env ∧ t.pending = p.pending
            ∧ t.live = p.live.report (.refused 0x26 n .active))
        ∧ (f.active = false →
          ∃ t d, exec (.ackFault x n kind) s = .next t ∧ t.env = p.env ∧ t.pending = p.pending
            ∧ t.live = serve p.env d ∧ d.reeval = k.blocking
            ∧ (s.live.stored = [] → t.live = d.setReeval false)
            ∧ p.live.made (.fault n k .removed f.count f.first f.last none) t.live
            ∧ (d.control n).fault? k = none
            ∧ (∀ k', k' ≠ k → (d.control n).fault? k' = (s.live.control n).fault? k')
            ∧ (∀ m, m ≠ n → (d.control m).faults = (s.live.control m).faults)
            ∧ s.live.claimsStand d ∧ s.live.throwsStand d ∧ s.live.handoverStands d
            ∧ p.live.portsStand d ∧ s.live.slotsJudged d ∧ d.stored = s.live.stored
            ∧ d.groups = s.live.groups)

/-! ### Area-stop groups -/

/-- STOP_SET by its table, taken from both lanes or from the live lane alone while DEGRADED, during the
start hold too: NOT_CONFIGURED outside OPERATING; BAD_OPERAND for a group outside 0 to 7 or without LANE in
its source set; an ACTIVE group changes nothing and makes no report; otherwise the group latches with the
time and the source LANE, which is reported. No other group, lock, throw, fault, link or boundary
changes. -/
def Obligations.StopSetLatchesGroup : Prop :=
  ∀ (x : Exchange) (g : Nat) (s p : State), s.takenAs x (.stopSet g) p → s.live.reeval = false →
    (s.env.operating = false → ∃ t, exec (.stopSet x g) s = .next t ∧ t.env = p.env
      ∧ t.pending = p.pending ∧ t.live = p.live.report (.refused 0x27 g .notConfigured))
    ∧ (s.env.operating = true → 8 ≤ g ∨ s.env.hasSource g .lane = false →
      ∃ t, exec (.stopSet x g) s = .next t ∧ t.env = p.env ∧ t.pending = p.pending
        ∧ t.live = p.live.report (.refused 0x27 g .badOperand))
    ∧ (s.env.operating = true → g < 8 → s.env.hasSource g .lane = true →
      ((s.live.group g).active = true → exec (.stopSet x g) s = .next p)
      ∧ ((s.live.group g).active = false → g < s.live.groups.length →
        ∃ t, exec (.stopSet x g) s = .next t ∧ t.env = p.env ∧ t.pending = p.pending
          ∧ t.live.group g = { active := true, since := some s.env.now, source := some .lane }
          ∧ (∀ m, m ≠ g → t.live.group m = s.live.group m)
          ∧ p.live.made (.groupState g true (some .lane)) t.live
          ∧ s.live.claimsStand t.live ∧ s.live.throwsStand t.live ∧ s.live.faultsStand t.live
          ∧ s.live.handoverStands t.live ∧ p.live.portsStand t.live
          ∧ s.live.slotsJudged t.live ∧ t.live.stored = s.live.stored))

/-- STOP_RELEASE by its table: LANE_DEGRADED to its lane while lane mode is not NORMAL; taken from both
lanes, NOT_CONFIGURED outside OPERATING, BAD_OPERAND for a group outside 0 to 7, STILL_ASSERTED while a
level source of the group's source set is asserted, NOT_ACTIVE for an INACTIVE group; otherwise the group
is released, which is reported: `d` is the state with the group INACTIVE, no time and no source, where no
other group, lock, link or boundary has changed and the stored requests have been asked for; they are
re-evaluated on `d`, and with HOLD_THROWS the arbiters of the power groups that hold an order for a member
point run after that. With no stored request neither changes a group, lock, link or boundary. That the stored
requests come before the held orders is the model's choice (log 9). -/
def Obligations.StopReleaseReleasesGroup : Prop :=
  ∀ (x : Exchange) (g : Nat) (s : State), s.live.reeval = false →
    (s.env.operating = true → s.env.mode ≠ .normal →
      ∃ t, exec (.stopRelease x g) s = .next t ∧ t.env = (s.exchange x).env
        ∧ t.pending = s.pending
        ∧ t.live = (s.exchange x).live.setLane x.lane
            (LanePort.place (.refused 0x28 g .laneDegraded)))
    ∧ (s.pairs x (.stopRelease g) →
      (∀ why, (s.env.operating = false ∧ why = .notConfigured)
          ∨ (s.env.operating = true ∧ 8 ≤ g ∧ why = .badOperand)
          ∨ (s.env.operating = true ∧ g < 8
              ∧ (∃ src ∈ levelSources, s.env.hasSource g src = true
                  ∧ levelOf s.env s.live src = true) ∧ why = .stillAsserted)
          ∨ (s.env.operating = true ∧ g < 8
              ∧ (∀ src ∈ levelSources, s.env.hasSource g src = true →
                  levelOf s.env s.live src = false)
              ∧ (s.live.group g).active = false ∧ why = .notActive) →
        ∃ t, exec (.stopRelease x g) s = .next t ∧ t.env = (s.exchange x).env
          ∧ t.pending = s.pending
          ∧ t.live = (s.paired x (.stopRelease g)).live.report (.refused 0x28 g why))
      ∧ (s.env.operating = true → g < 8 →
        (∀ src ∈ levelSources, s.env.hasSource g src = true →
          levelOf s.env s.live src = false) →
        (s.live.group g).active = true →
        ∃ t d, exec (.stopRelease x g) s = .next t ∧ t.env = (s.exchange x).env
          ∧ t.pending = s.pending
          ∧ ((s.env.stop g).holdThrows = false → t.live = serve (s.exchange x).env d)
          ∧ (∀ v, v = (s.exchange x).env → (s.env.stop g).holdThrows = true →
              t.live = serve v (runArbiters .now v
                (hasOrder v (fun p => v.elementIs p (fun e => e.member g))) (serve v d)))
          ∧ d.reeval = true
          ∧ (s.paired x (.stopRelease g)).live.made (.groupState g false none) t.live
          ∧ d.group g = { active := false, since := none, source := none }
          ∧ (∀ m, m ≠ g → d.group m = s.live.group m)
          ∧ s.live.claimsStand d ∧ s.live.handoverStands d
          ∧ s.live.slotsJudged d ∧ d.stored = s.live.stored
          ∧ (s.live.stored = [] → t.live.group g = d.group g
            ∧ (∀ m, m ≠ g → t.live.group m = s.live.group m)
            ∧ s.live.claimsStand t.live ∧ s.live.handoverStands t.live
            ∧ s.live.slotsJudged t.live ∧ t.live.stored = [])))

/-- AREA_STOP_INPUT_CHANGE: the input takes its level, and no other part of the environment changes. While
OPERATING an asserting edge latches every INACTIVE group with the input in its source set, with the time
and the source, and leaves every other group; a level that does not rise, or one outside OPERATING,
changes nothing more. -/
def Obligations.AreaStopEdgeLatchesGroups : Prop :=
  ∀ (i : AreaInput) (level : Bool) (s : State), s.live.reeval = false →
    ∃ t, exec (.areaStopInputChange i level) s = .next t ∧ t.pending = s.pending
      ∧ t.env.input i = level ∧ (∀ j, j ≠ i → t.env.input j = s.env.input j)
      ∧ { t.env with as0 := s.env.as0, as1 := s.env.as1 } = s.env
      ∧ (s.env.operating = false ∨ s.env.input i = true ∨ level = false → t.live = s.live)
      ∧ (s.env.operating = true → s.env.input i = false → level = true →
          (∀ g, t.live.group g =
            if g < s.live.groups.length ∧ s.env.hasSource g (inputSource i) = true
              ∧ (s.live.group g).active = false
            then { active := true, since := some s.env.now, source := some (inputSource i) }
            else s.live.group g)
          ∧ s.live.claimsStand t.live ∧ s.live.throwsStand t.live ∧ s.live.faultsStand t.live
          ∧ s.live.handoverStands t.live ∧ s.live.portsStand t.live
          ∧ s.live.slotsJudged t.live ∧ t.live.stored = s.live.stored)

/-! ### Lanes -/

/-- LANE_SILENCE_EXPIRY of a PRESENT lane while OPERATING: the lane is LOST with no silence timer and an
empty pending list, the change of lane mode is reported, every agreed value is derived again from the
views that count, and no view or definition changes. Of a live lane's list only the REJOINs stay; that of a
lane already LOST stays. From NORMAL, with sound slots, no slot is left in SETTING or CLEAR and nothing is
stored (R77; `StepKeepsSlotsSound`). -/
def Obligations.LaneSilenceLosesLane : Prop :=
  ∀ (l : LaneId) (at_ : Time) (s : State), s.env.operating = true → s.env.present l = true →
    s.env.silence l = some at_ → reached s.env.now at_ = true →
    ∃ t, exec (.laneSilenceExpiry l) s = .next t ∧ t.pending = s.pending
      ∧ t.env.present l = false ∧ t.env.silence l = none
      ∧ t.env.present l.other = s.env.present l.other
      ∧ t.env.silence l.other = s.env.silence l.other
      ∧ t.env.store = s.env.store ∧ t.env.startHold = s.env.startHold ∧ t.env.now = s.env.now
      ∧ t.env.as0 = s.env.as0 ∧ t.env.as1 = s.env.as1
      ∧ (∀ n e, s.env.element? n = some e → ∃ f, t.env.element? n = some f
          ∧ f.viewA = e.viewA ∧ f.viewB = e.viewB ∧ f.agreed = t.env.deriveAgreed f
          ∧ f.dfn = e.dfn)
      ∧ (t.live.lane l).requests = []
      ∧ (t.live.lane l.other).requests = (if s.env.present l.other = true then
          (s.live.lane l.other).requests.filter (fun q => isRejoin q.request)
          else (s.live.lane l.other).requests)
      ∧ (s.env.mode = .normal → s.tablesWhole → s.slotsSound → t.live.stored = []
          ∧ ∀ i, (t.live.slot i).state ≠ .setting ∧ (t.live.slot i).state ≠ .clear)
      ∧ s.live.made (.laneMode t.env.mode t.env.presentA t.env.presentB) t.live

/-- REJOIN agreed by both lanes, in every lane mode: refused with BAD_OPERAND for an operand that names no
lane or a lane that is not LOST. Taken, the named lane is PRESENT with a fresh silence timer, its views
are UNREPORTED, the other lane's views, blocked flags and definitions stand, every agreed value is derived
again and the change of lane mode is reported. -/
def Obligations.RejoinMarksLanePresent : Prop :=
  ∀ (x : Exchange) (n : Nat) (s : State), s.env.operating = true →
    (∃ e ∈ (s.live.lane x.lane.other).requests, e.request = .rejoin n) →
    ((laneOf n = none ∨ ∃ l, laneOf n = some l ∧ s.env.present l = true) →
      ∃ t, exec (.rejoin x n) s = .next t ∧ t.env = (s.exchange x).env ∧ t.pending = s.pending
        ∧ t.live = (s.paired x (.rejoin n)).live.report (.refused 0x2C n .badOperand))
    ∧ ∀ l, laneOf n = some l → s.env.present l = false →
      ∃ t, exec (.rejoin x n) s = .next t ∧ t.pending = s.pending
        ∧ t.env.present l = true ∧ t.env.present l.other = s.env.present l.other
        ∧ t.env.silence l = some (after s.env.now s.env.timing.laneTimeout)
        ∧ t.env.store = s.env.store ∧ t.env.startHold = s.env.startHold ∧ t.env.now = s.env.now
        ∧ (∀ m e, s.env.element? m = some e → ∃ f, t.env.element? m = some f
            ∧ f.view l = none ∧ f.view l.other = e.view l.other
            ∧ f.agreed = t.env.deriveAgreed f ∧ f.dfn = e.dfn ∧ f.blocked = e.blocked)
        ∧ (s.paired x (.rejoin n)).live.made
            (.laneMode t.env.mode t.env.presentA t.env.presentB) t.live

/-- The expiries that end one thing alone. START_HOLD_EXPIRY ends the hold; OCCUPATION_TIME_AGED makes an
occupation time whose age has reached 2^31 ms absent; SPEED_RECORD_STALE discards a speed record older
than its validity; DIR_REQUEST_EXPIRY clears the outstanding request, and nothing is sent; STAGGER_EXPIRY
with no order pending makes the expiry and the reference time of the group's pacing absent. Nothing else
changes and nothing is reported. -/
def Obligations.QuietExpiriesEndOneTimer : Prop :=
  ∀ (n : Nat) (at_ : Time) (s : State), s.live.reeval = false →
    (s.env.startHold = some at_ → reached s.env.now at_ = true →
      exec .startHoldExpiry s = .next { s with env := { s.env with startHold := none } })
    ∧ (∀ e, s.env.element? n = some e → e.occTime = some at_ →
      2147483648 ≤ elapsed at_ s.env.now → ∃ t, exec (.occupationTimeAged n) s = .next t
        ∧ t.env.element? n = some { e with occTime := none }
        ∧ (∀ m, m ≠ n → t.env.element? m = s.env.element? m)
        ∧ { t.env with elements := s.env.elements } = s.env
        ∧ t.live = s.live ∧ t.pending = s.pending)
    ∧ (∀ q, (s.live.control n).speed = some q →
      1000 * s.env.timing.speedValid < elapsed q.time s.env.now → ∃ t,
        exec (.speedRecordStale n) s = .next t ∧ t.env = s.env ∧ t.pending = s.pending
        ∧ t.live = s.live.setControl n (fun c => { c with speed := none })
        ∧ (t.live.control n).speed = none)
    ∧ ((s.live.boundary n).reqExpiry = some at_ → reached s.env.now at_ = true → ∃ t,
        exec (.dirRequestExpiry n) s = .next t ∧ t.env = s.env ∧ t.pending = s.pending
        ∧ t.live = s.live.setBoundary n (fun y => { y with reqExpiry := none }))
    ∧ ((s.live.powerGroup n).stagger = some at_ → reached s.env.now at_ = true →
      s.live.orders = [] → ∃ t, exec (.staggerExpiry n) s = .next t ∧ t.env = s.env
        ∧ t.pending = s.pending
        ∧ t.live = s.live.setPower n (fun y =>
            if (s.env.power n).separated then { y with stagger := none, lastEnd := none }
            else { y with stagger := none, lastStart := none }))

/-! ### Loads and restarts -/

/-- LOAD_BEGIN taken in UNCONFIGURED or LOADING opens an empty staged set with the digest at its initial
value; LOAD_RECORD taken in LOADING runs the digest on over its payload and adds the record at the end, with
its payload, what it spells, and whether it is filed: it has a known key in range that no filed record has; a
LOAD_END whose digest differs, or whose set fails a check, discards the staged set and reports LOAD_RESULT
with the digest failure, or the offending record and its check. Nothing else changes. -/
def Obligations.LoadFillsAndFailsStagedSet : Prop :=
  ∀ (x : Exchange) (s : State),
    (s.pairs x .loadBegin → s.env.operating = false → ∃ t, exec (.loadBegin x) s = .next t
      ∧ t = { s.paired x .loadBegin with
              env := { s.env with store := .staged { records := [], digest := 0xFFFF } } })
    ∧ (∀ p st, s.pairs x (.loadRecord p) → s.env.store = .staged st →
      ∃ t y, exec (.loadRecord x p) s = .next t
        ∧ t = { s.paired x (.loadRecord p) with env := { s.env with
            store := .staged { records := st.records ++ [y], digest := crcFrom st.digest p } } }
        ∧ y.payload = p ∧ y.record = recordOf p
        ∧ (y.filed = true ↔ ∃ q, recordOf p = some q ∧ keyOk q = true
            ∧ ∀ z ∈ st.filed, clashes z.2 q = false))
    ∧ (∀ g st o, s.pairs x (.loadEnd g) → s.env.store = .staged st →
      ((st.digest.toNat ≠ g ∧ o = .digestFailed)
        ∨ (st.digest.toNat = g ∧ ∃ i k c, firstOffence st = some (i, k, c) ∧ o = .invalid i k c)) →
      ∃ t, exec (.loadEnd x g) s = .next t ∧ t.pending = s.pending
        ∧ t.env = { s.env with store := .empty }
        ∧ t.live = (s.paired x (.loadEnd g)).live.report (.loadResult o))

/-- The starts: a LOAD_END whose digest and checks pass, and a RESTART(KEEP) taken in OPERATING. The part is
OPERATING in NORMAL with both silence timers fresh and the start hold running for Hmax; 48 slots are FREE,
nothing is stored, ordered, locked, counted, commanded, in flight or faulted, every aspect is STOP, every
boundary is fresh and every link in its start state; each area-stop group with an asserted level source in
its set is ACTIVE and the others are not. The load takes the staged set as its standing set and its
elements unblocked; the restart keeps the standing set and the blocked flags. Every view is UNREPORTED,
every section filtered OCCUPIED. -/
def Obligations.StartsTakeUpRestartValues : Prop :=
  ∀ (x : Exchange) (s : State) (v : Env) (load : Bool) (c : Instr) (q : Request),
    ((load = true ∧ ∃ g st, c = .loadEnd x g ∧ q = .loadEnd g ∧ s.pairs x q
        ∧ s.env.store = .staged st ∧ st.digest.toNat = g ∧ firstOffence st = none
        ∧ v = { s.env with store := .standing (standingOf st), elements := loadedElements st.filed })
      ∨ (load = false ∧ c = .restartKeep x 0 ∧ q = .restart 0 ∧ s.pairs x q
        ∧ s.env.operating = true
        ∧ v = { s.env with elements := s.env.elements.map (fun e => e.restart e.blocked) })) →
    ∃ t, exec c s = .next t ∧ t.env = v.startUp ∧ t.pending = s.pending
      ∧ t.env.operating = true ∧ t.env.mode = .normal
      ∧ t.live.slots = List.replicate 48 Slot.free ∧ t.live.stored = [] ∧ t.live.orders = []
      ∧ t.live.controls = v.elements.map (fun e => Control.fresh e.num)
      ∧ t.live.boundaries = v.defs.boundaries.map (fun b => Boundary.fresh b.number)
      ∧ t.live.links = (List.range 4).map (Link.start v.startUp)
      ∧ t.live.power = List.replicate 4 PowerGroup.idle
      ∧ (∀ g < 8, (t.live.group g).active = true ↔
          ∃ src ∈ levelSources, v.hasSource g src = true ∧ levelOf v t.live src = true)
      ∧ (∀ e ∈ t.env.elements, e.viewA = none ∧ e.viewB = none ∧ e.agreed = e.dfn.kind.safe
          ∧ e.occupied = e.isSection ∧ e.discExpiry = none ∧ e.pickUp = none
          ∧ (load = true → e.blocked = false))
      ∧ (load = true → ∀ l, (t.live.lane l).requests = ((s.paired x q).live.lane l).requests)
      ∧ (load = false → ∀ l, (t.live.lane l).requests = []
          ∧ (t.live.lane l).reports.head? = some (.laneMode .normal true true))

/-- RESTART in OPERATING refuses an operand that names neither KEEP nor UNLOAD with BAD_OPERAND. UNLOAD
leaves UNCONFIGURED from OPERATING and LOADING: every set, record, list, queue and flag is as after a
reset, but the Time Base, the input levels and the last frame sent; in UNCONFIGURED it changes nothing
beyond the pairing. -/
def Obligations.RestartUnloadLeavesUnconfigured : Prop :=
  ∀ (x : Exchange) (s : State),
    (∀ o, s.pairs x (.restart o) → s.env.operating = true → o ≠ 0 → o ≠ 1 →
      ∃ t, exec (.restartKeep x o) s = .next t ∧ t.env = (s.exchange x).env
        ∧ t.pending = s.pending
        ∧ t.live = (s.paired x (.restart o)).live.report (.refused 0x2D o .badOperand))
    ∧ (s.pairs x (.restart 1) →
      (s.env.part = .unconfigured → exec (.restartUnload x) s = .next (s.paired x (.restart 1)))
      ∧ (s.env.part ≠ .unconfigured → ∃ t, exec (.restartUnload x) s = .next t
        ∧ t.pending = s.pending
        ∧ t.env = { State.reset.env with now := s.env.now, as0 := s.env.as0, as1 := s.env.as1 }
        ∧ ({ t.live with laneA := LanePort.empty, laneB := LanePort.empty } : Live)
            = State.reset.live
        ∧ ∀ l, ({ t.live.lane l with out := [] } : LanePort) = LanePort.empty))

/-! ### Links -/

/-- LINK_ENABLE makes a DISABLED link CONNECTING with its next STATUS time one interval on, and changes
nothing in any other state; LINK_DISABLE, with no boundary of the link that has an acceptance, a LOCKED
berth, an outstanding request or an exit slot, makes a link that is not DISABLED so and reports it, with no
next STATUS time and empty queues, also from CONNECTING and LOST, which is the model's choice (log 6), and
raises nothing; it changes nothing on a DISABLED link; with such a boundary it is refused with LINK_BUSY. A
link with no definition is refused with BAD_OPERAND. Both are refused with LANE_DEGRADED to their lane while
lane mode is not NORMAL, and with NOT_CONFIGURED outside OPERATING. Every lock, throw, fault and other link
stands, and the stored requests are re-evaluated where the loss of an UP link asks for it, on the state `d` so
left, at the end of the event (log 9). -/
def Obligations.LinkRequestsSetLinkState : Prop :=
  ∀ (x : Exchange) (l : Nat) (s : State), s.live.reeval = false →
    (s.env.link? l ≠ none → l < s.live.links.length) →
    (∀ c ∈ [(Instr.linkEnable x l, Request.linkEnable l, 0x2A),
        (.linkDisable x l, .linkDisable l, 0x2B)],
      (s.env.operating = true → s.env.mode ≠ .normal → ∃ t, exec c.1 s = .next t
        ∧ t.env = (s.exchange x).env ∧ t.pending = s.pending
        ∧ t.live = (s.exchange x).live.setLane x.lane
            (LanePort.place (.refused c.2.2 l .laneDegraded)))
      ∧ (s.env.operating = false → s.pairs x c.2.1 → ∃ t, exec c.1 s = .next t
        ∧ t.env = (s.exchange x).env ∧ t.pending = s.pending
        ∧ t.live = (s.paired x c.2.1).live.report (.refused c.2.2 l .notConfigured)))
    ∧ (s.env.operating = true → s.pairs x (.linkEnable l) →
      (s.env.link? l = none → ∃ t, exec (.linkEnable x l) s = .next t
        ∧ t.env = (s.exchange x).env ∧ t.pending = s.pending
        ∧ t.live = (s.paired x (.linkEnable l)).live.report (.refused 0x2A l .badOperand))
      ∧ ∀ k, s.env.link? l = some k →
        ((s.live.link l).state ≠ .disabled →
          exec (.linkEnable x l) s = .next (s.paired x (.linkEnable l)))
        ∧ ((s.live.link l).state = .disabled → ∃ t, exec (.linkEnable x l) s = .next t
          ∧ t.env = (s.exchange x).env ∧ t.pending = s.pending
          ∧ t.live = ((s.paired x (.linkEnable l)).live.setLink l (fun y =>
              { y with state := .connecting, nextStatus := some (after s.env.now k.interval) })).report
              (.linkState l .connecting)))
    ∧ (s.env.operating = true → s.pairs x (.linkDisable l) →
      (∀ why, (s.env.link? l = none ∧ why = .badOperand)
          ∨ (s.env.link? l ≠ none
              ∧ (∃ bd ∈ s.env.linkBoundaries l, holdsLink (s.live.boundary bd.number) = true)
              ∧ why = .linkBusy) →
        ∃ t, exec (.linkDisable x l) s = .next t ∧ t.env = (s.exchange x).env
          ∧ t.pending = s.pending
          ∧ t.live = (s.paired x (.linkDisable l)).live.report (.refused 0x2B l why))
      ∧ (s.env.link? l ≠ none →
          (∀ bd ∈ s.env.linkBoundaries l, holdsLink (s.live.boundary bd.number) = false) →
        ((s.live.link l).state = .disabled →
          exec (.linkDisable x l) s = .next (s.paired x (.linkDisable l)))
        ∧ ((s.live.link l).state ≠ .disabled →
          ∃ t d, exec (.linkDisable x l) s = .next t ∧ t.env = (s.exchange x).env
            ∧ t.pending = s.pending ∧ t.live = serve (s.exchange x).env d
            ∧ (s.live.stored = [] → t.live = d.setReeval false)
            ∧ (s.paired x (.linkDisable l)).live.made (.linkState l .disabled) t.live
            ∧ (d.link l).state = .disabled ∧ (d.link l).nextStatus = none
            ∧ (d.link l).rx = [] ∧ (d.link l).tx = [] ∧ (d.link l).hunt = []
            ∧ (∀ j, j ≠ l → d.link j = s.live.link j)
            ∧ s.live.claimsStand d ∧ s.live.throwsStand d ∧ s.live.faultsStand d
            ∧ s.live.slotsJudged d ∧ d.stored = s.live.stored)))

/-- A frame from the neighbour joins the tail of the receive queue of a defined link that is not DISABLED
and has room; with eight frames waiting it is discarded, and an UP link is LOST with empty queues. Frames are
found by the hunt: in the bytes of a frame received, in the bytes after the start byte of one discarded, and,
where a frame begun inside a discarded one waits in `hunt`, in its bytes and those that follow; a frame begun
and not yet whole at their end waits again, unless the discarded frame broke off. For a DISABLED link or one
with no definition every byte is discarded. What waits, and the discard on arrival, is the model's choice
(log 7). -/
def Obligations.NeighbourFramesJoinQueue : Prop :=
  ∀ (l : Nat) (f : NFrame) (bytes : List Byte) (s : State), s.live.reeval = false →
    l < s.live.links.length →
    ∀ (c : Instr) (found : List NFrame × List Byte),
      ((c = .neighbourFrameReceived l f ∧ (s.live.link l).hunt = [] ∧ found = ([f], []))
        ∨ (c = .neighbourFrameReceived l f ∧ (s.live.link l).hunt ≠ []
          ∧ found = huntIn ((s.live.link l).hunt ++ f.bytes))
        ∨ (c = .neighbourFrameError l bytes ∧ ∃ all : List Byte,
          ((s.live.link l).hunt = [] ∧ all = bytes
            ∨ (s.live.link l).hunt ≠ [] ∧ all = (s.live.link l).hunt ++ 0xA5#8 :: bytes)
          ∧ (nframeBreaksOff bytes = true ∧ found = (framesIn all, [])
            ∨ nframeBreaksOff bytes = false ∧ found = huntIn all))) →
      (s.env.link? l = none ∨ (s.live.link l).state = .disabled → exec c s = .next s)
      ∧ (s.env.link? l ≠ none → (s.live.link l).state ≠ .disabled →
          (s.live.link l).rx.length + found.1.length ≤ 8 →
          exec c s = .next { s with live := s.live.setLink l (fun y =>
            { y with rx := y.rx ++ found.1, hunt := found.2 }) })
      ∧ (∀ g, s.env.link? l ≠ none → (s.live.link l).state ≠ .disabled → found.1 = [g] →
          8 ≤ (s.live.link l).rx.length →
          ((s.live.link l).state ≠ .up →
            exec c s = .next { s with live := s.live.setLink l (fun y =>
              { y with hunt := found.2 }) })
          ∧ ((s.live.link l).state = .up → s.live.stored = [] →
            ∃ t, exec c s = .next t ∧ t.env = s.env ∧ t.pending = s.pending
              ∧ (t.live.link l).state = .lost ∧ (t.live.link l).rx = [] ∧ (t.live.link l).tx = []
              ∧ (t.live.link l).hunt = found.2
              ∧ s.live.claimsStand t.live ∧ s.live.throwsStand t.live
              ∧ s.live.slotsJudged t.live ∧ s.live.portsStand t.live))

/-- What goes out on a link. At the next STATUS time the time is set one interval on, and the STATUS of the
boundary records as they stand is sent, or waits behind a frame in transmission. When that frame has gone
it leaves the transmit queue, and a STATUS that waited follows it. Nothing else changes. That a transmit queue
with a frame is one whose head is in transmission, and what a STATUS that waits does, is the model's choice
(log 6); the STATUS sent stands in the model's own `lastStatus` (log 5). -/
def Obligations.LinkSendsStatusAndQueue : Prop :=
  ∀ (l : Nat) (s : State), s.live.reeval = false → l < s.live.links.length →
    (∀ k at_, s.env.link? l = some k → (s.live.link l).nextStatus = some at_ →
      reached s.env.now at_ = true → ∃ t, exec (.statusIntervalExpiry l) s = .next t
        ∧ t.env = s.env ∧ t.pending = s.pending
        ∧ t.live = s.live.setLink l (fun y =>
            if (s.live.link l).tx = [] then
              { y with nextStatus := some (after s.env.now k.interval), deferred := false
                       lastStatus := some (buildStatus s.env s.live l) }
            else
              { y with nextStatus := some (after s.env.now k.interval), deferred := true }))
    ∧ (∀ f fs, (s.live.link l).tx = f :: fs → ∃ t, exec (.queuedFrameSent l) s = .next t
        ∧ t.env = s.env ∧ t.pending = s.pending
        ∧ t.live = s.live.setLink l (fun y =>
            if (s.live.link l).deferred then
              { y with tx := fs, deferred := false
                       lastStatus := some (buildStatus s.env s.live l) }
            else { y with tx := fs }))

/-- LINK_SILENCE_EXPIRY of an UP link: the link is LOST with empty queues and no silence timer; every
boundary of it loses its views, its outstanding request and its acceptance and consistency timers, a
REQUESTED acceptance becomes NONE and a HELD one stays, direction, berth and restriction stand; LINK_LOST
stands ACTIVE on each of their elements. Locks, throws, other links and other boundaries stand. -/
def Obligations.LinkSilenceLosesLink : Prop :=
  ∀ (l : Nat) (at_ : Time) (s : State), (s.live.link l).state = .up →
    (s.live.link l).silence = some at_ → reached s.env.now at_ = true → s.live.stored = [] →
    l < s.live.links.length →
    (∀ bd ∈ s.env.linkBoundaries l, s.live.hasControl bd.element ∧ s.live.hasBoundary bd.number) →
    ∃ t, exec (.linkSilenceExpiry l) s = .next t ∧ t.env = s.env ∧ t.pending = s.pending
      ∧ (t.live.link l).state = .lost ∧ (t.live.link l).rx = [] ∧ (t.live.link l).tx = []
      ∧ (t.live.link l).silence = none
      ∧ (∀ j, j ≠ l → t.live.link j = s.live.link j)
      ∧ (∀ bd ∈ s.env.linkBoundaries l,
          t.live.boundary bd.number = { s.live.boundary bd.number with
            reqExpiry := none
            acceptance := if (s.live.boundary bd.number).acceptance = .requested then .none
              else (s.live.boundary bd.number).acceptance
            accExpiry := none, consExpiry := none, views := none, waiting := false }
          ∧ t.live.raised bd.element .linkLost s.env.now)
      ∧ (∀ b, (∀ bd ∈ s.env.linkBoundaries l, bd.number ≠ b) →
          t.live.boundary b = s.live.boundary b)
      ∧ s.live.claimsStand t.live ∧ s.live.throwsStand t.live ∧ s.live.slotsJudged t.live
      ∧ s.live.portsStand t.live ∧ t.live.stored = []

/-! ### Boundaries -/

/-- A taken BOUNDARY_RESET with no exit slot, or one in CLEAR, HELD or ENTERED, or CANCELLING: the
acceptance is NONE; with the berth FREE the boundary is NEUTRAL and not RESTRICTED at once, with no reset
expiry; with it LOCKED the boundary is RESTRICTED, keeps its direction and its berth, and the reset expiry
is Hmax on. A slot in CLEAR, HELD or ENTERED is CANCELLING with hold Hmax. While a reset is in progress
another is refused with BUSY, and a boundary with no definition with BAD_OPERAND. -/
def Obligations.BoundaryResetRestrictsOrCompletes : Prop :=
  ∀ (x : Exchange) (b : Nat) (s : State), s.env.operating = true →
    s.pairs x (.boundaryReset b) → s.live.stored = [] → s.live.reeval = false →
    (∀ why, (s.env.boundary? b = none ∧ why = .badOperand)
        ∨ (s.env.boundary? b ≠ none ∧ (s.live.boundary b).resetExpiry ≠ none ∧ why = .busy) →
      ∃ t, exec (.boundaryReset x b) s = .next t ∧ t.env = (s.exchange x).env
        ∧ t.pending = s.pending
        ∧ t.live = (s.paired x (.boundaryReset b)).live.report (.refused 0x29 b why))
    ∧ (∀ bd, s.env.boundary? b = some bd → (s.live.boundary b).resetExpiry = none →
      s.live.hasBoundary b →
      (∀ i, (s.live.boundary b).exitSlot = some i → (s.live.slot i).state ≠ .setting) →
      ∃ t, exec (.boundaryReset x b) s = .next t ∧ t.env = (s.exchange x).env
        ∧ t.pending = s.pending
        ∧ (t.live.boundary b).acceptance = .none
        ∧ (t.live.boundary b).berthLocked = (s.live.boundary b).berthLocked
        ∧ (t.live.boundary b).exitSlot = (s.live.boundary b).exitSlot
        ∧ ((s.live.boundary b).berthLocked = false →
            (t.live.boundary b).direction = .neutral ∧ (t.live.boundary b).restricted = false
              ∧ (t.live.boundary b).resetExpiry = none
              ∧ ∀ k ∈ [FaultKind.contest, .restricted],
                  ∀ f, (t.live.control bd.element).fault? k = some f → f.active = false)
        ∧ ((s.live.boundary b).berthLocked = true →
            (t.live.boundary b).direction = (s.live.boundary b).direction
              ∧ (t.live.boundary b).restricted = true
              ∧ (t.live.boundary b).resetExpiry
                  = some (after s.env.now (1000 * s.env.timing.holdMax)))
        ∧ (∀ i, (s.live.boundary b).exitSlot = some i →
            ((s.live.slot i).state = .clear ∨ (s.live.slot i).state = .held
              ∨ (s.live.slot i).state = .entered) →
            (t.live.slot i).state = .cancelling ∧ (t.live.slot i).hold
              = some (after s.env.now (1000 * s.env.timing.holdMax)))
        ∧ s.live.claimsStand t.live ∧ s.live.throwsStand t.live ∧ t.live.stored = []
        ∧ (s.paired x (.boundaryReset b)).live.portsStand t.live)

/-- The direction frames taken on an UP link whose transmit queue has room, about a boundary that is not
RESTRICTED and whose berth is FREE. A DIR_REQUEST with no own request outstanding is granted, and the
boundary is INWARD, unless the boundary is OUTWARD and busy: then it is refused, the direction stands and
neighbour waiting is set. A DIR_GRANT with an own request outstanding and a DIR_OFFER make it OUTWARD with
no request outstanding; a DIR_REFUSE ends an outstanding request and leaves the direction. The frame
leaves the receive queue and the silence timer restarts; locks, throws, faults, groups and every other
boundary stand. (With no stored request, which a change would let run.) -/
def Obligations.DirectionFramesMoveDirection : Prop :=
  ∀ (l n : Nat) (q : Seniority) (fs : List NFrame) (bd : BoundaryDef) (s : State),
    (s.live.link l).state = .up → (s.live.link l).tx.length < 16 → s.live.stored = [] →
    l < s.live.links.length → s.env.namedBoundary l n = some bd →
    s.env.boundary? bd.number = some bd → s.live.hasBoundary bd.number →
    (s.live.boundary bd.number).restricted = false →
    (s.live.boundary bd.number).berthLocked = false →
    ∀ (c : Instr) (f : NFrame) (dir : Direction) (sent : List NFrame) (req : Option Time),
      (s.live.link l).rx = f :: fs →
      ((c = .dirRequest l ∧ f = .dirRequest n q
          ∧ (s.live.boundary bd.number).reqExpiry = none ∧ req = none
          ∧ ((((s.live.boundary bd.number).direction ≠ .outward
                ∨ boundaryBusy s.live bd.number = false)
              ∧ dir = .inward ∧ sent = [.dirGrant n])
            ∨ ((s.live.boundary bd.number).direction = .outward
              ∧ boundaryBusy s.live bd.number = true ∧ dir = .outward ∧ sent = [.dirRefuse n])))
        ∨ (c = .dirGrant l ∧ f = .dirGrant n
          ∧ (s.live.boundary bd.number).reqExpiry ≠ none ∧ dir = .outward ∧ req = none ∧ sent = [])
        ∨ (c = .dirOffer l ∧ f = .dirOffer n ∧ dir = .outward ∧ req = none ∧ sent = [])
        ∨ (c = .dirRefuse l ∧ f = .dirRefuse n ∧ req = none ∧ sent = []
          ∧ dir = (s.live.boundary bd.number).direction)) →
      ∃ t, exec c s = .next t ∧ t.env = s.env ∧ t.pending = s.pending
        ∧ (t.live.boundary bd.number).direction = dir
        ∧ (t.live.boundary bd.number).reqExpiry = req
        ∧ (t.live.boundary bd.number).restricted = false
        ∧ (t.live.boundary bd.number).berthLocked = false
        ∧ (sent = [.dirRefuse n] → (t.live.boundary bd.number).waiting = true)
        ∧ (t.live.link l).state = .up ∧ (t.live.link l).rx = fs
        ∧ (t.live.link l).silence = some (after s.env.now s.env.timing.linkTimeout)
        ∧ (s.live.link l).tx ++ sent <+: (t.live.link l).tx
        ∧ (∀ j, j ≠ l → t.live.link j = s.live.link j)
        ∧ (∀ b, b ≠ bd.number → t.live.boundary b = s.live.boundary b)
        ∧ s.live.claimsStand t.live ∧ s.live.throwsStand t.live ∧ s.live.faultsStand t.live
        ∧ s.live.portsStand t.live ∧ t.live.stored = [] ∧ t.live.groups = s.live.groups

/-- A contest, a RESTRICTED boundary, and the frames that are discarded, taken on an UP link whose transmit
queue has room for two (R159 to R161). A DIR_REQUEST that meets an own request: the SENIOR end against a
JUNIOR one sends DIR_REFUSE, keeps its request and sets neighbour waiting; the JUNIOR end against a SENIOR
one sends DIR_GRANT, its request ends, the direction is INWARD, reported with BOUNDARY_UNAVAILABLE where it
changed, and the exit slot keeps its needs; equal ends refuse, the request ends, the boundary is RESTRICTED
and NEUTRAL, CONTEST is raised, and an exit slot in SETTING is FREE. A RESTRICTED boundary answers a
DIR_REQUEST with DIR_REFUSE and changes nothing. A DIR_GRANT with no own request outstanding, and a DIR_GRANT
or DIR_OFFER for a boundary that is RESTRICTED or whose berth is LOCKED, are discarded. Other boundaries
stand. (With no stored request; between equal ends, where the exit slot of every boundary is an active slot
whose route exits there, as every step keeps it: R154, O12.) -/
def Obligations.ContestsAndDiscardedDirectionFrames : Prop :=
  ∀ (l n : Nat) (q : Seniority) (f : NFrame) (fs : List NFrame) (bd : BoundaryDef) (x : Boundary)
    (s : State), (s.live.link l).state = .up → (s.live.link l).tx.length < 15 →
    s.live.stored = [] → s.live.reeval = false → l < s.live.links.length →
    s.env.namedBoundary l n = some bd →
    s.env.boundary? bd.number = some bd → s.live.hasBoundary bd.number →
    s.live.hasControl bd.element → (s.live.link l).rx = f :: fs →
    x = s.live.boundary bd.number →
    (f = .dirRequest n q → x.restricted = false → x.reqExpiry ≠ none →
      (bd.seniority = q → s.live.exitsTied s.env) →
      ∃ t, exec (.dirRequest l) s = .next t ∧ t.env = s.env ∧ t.pending = s.pending
        ∧ (t.live.link l).rx = fs
        ∧ (∀ b, b ≠ bd.number → t.live.boundary b = s.live.boundary b)
        ∧ s.live.portsStand t.live ∧ t.live.stored = []
        ∧ (bd.seniority = .senior → q = .junior →
            (x.direction ≠ .outward ∨ boundaryBusy s.live bd.number = true) →
            t.live.boundary bd.number = { x with waiting := true }
              ∧ (t.live.link l).tx = (s.live.link l).tx ++ [.dirRefuse n]
              ∧ s.live.claimsStand t.live ∧ t.live.slots = s.live.slots)
        ∧ (bd.seniority = .junior → q = .senior →
            t.live.boundary bd.number = { x with direction := .inward, reqExpiry := none }
              ∧ (t.live.link l).tx = (s.live.link l).tx ++ [.dirGrant n]
              ∧ (∀ i, (t.live.slot i).dirNeed = (s.live.slot i).dirNeed
                  ∧ (t.live.slot i).accNeed = (s.live.slot i).accNeed)
              ∧ (x.direction ≠ .inward → s.live.made (.boundaryState bd.number .inward x.acceptance
                  x.berthLocked false (some Reason.boundaryUnavailable.code)) t.live)
              ∧ s.live.claimsStand t.live)
        ∧ (bd.seniority = q →
            (t.live.boundary bd.number).restricted = true
              ∧ (t.live.boundary bd.number).direction = .neutral
              ∧ (t.live.boundary bd.number).reqExpiry = none
              ∧ (t.live.boundary bd.number).consExpiry = none
              ∧ (t.live.boundary bd.number).berthLocked = x.berthLocked
              ∧ (s.live.link l).tx ++ [.dirRefuse n] <+: (t.live.link l).tx
              ∧ t.live.raised bd.element .contest s.env.now
              ∧ (∀ i rt, x.exitSlot = some i → (s.live.slot i).state = .setting →
                  s.live.routeOf s.env i = some rt → t.live.slot i = Slot.free)))
    ∧ (f = .dirRequest n q → x.restricted = true →
      ∃ t, exec (.dirRequest l) s = .next t ∧ t.env = s.env ∧ t.pending = s.pending
        ∧ (t.live.link l).rx = fs ∧ (t.live.link l).tx = (s.live.link l).tx ++ [.dirRefuse n]
        ∧ (∀ b, t.live.boundary b = s.live.boundary b)
        ∧ t.live.slots = s.live.slots ∧ s.live.claimsStand t.live)
    ∧ (∀ c : Instr,
      ((c = .dirGrant l ∧ f = .dirGrant n
          ∧ (x.reqExpiry = none ∨ x.restricted = true ∨ x.berthLocked = true))
        ∨ (c = .dirOffer l ∧ f = .dirOffer n ∧ (x.restricted = true ∨ x.berthLocked = true))) →
      exec c s = .next { s with live := s.live.setLink l (fun y =>
        { y with rx := fs, silence := some (after s.env.now s.env.timing.linkTimeout) }) })

/-- An ACCEPT_REQUEST taken on an UP link whose transmit queue has room (R164). For an INWARD boundary that is
not RESTRICTED, its berth FREE and every berth section unlocked, unblocked, unfaulted and filtered CLEAR:
every berth section is BERTH-locked by the berth, so that a route over it is refused there with CONFLICT; the
berth is LOCKED with clear marks, which a BOUNDARY_STATE reports; ACCEPT_GRANT goes out with the home signal's
aspect, which every STATUS carries. Otherwise ACCEPT_REFUSE goes out with the first reason that applies,
DIRECTION, BERTH_LOCKED or BERTH_OCCUPIED, and no boundary, lock or report changes. -/
def Obligations.AcceptRequestLocksBerth : Prop :=
  ∀ (l n : Nat) (fs : List NFrame) (bd : BoundaryDef) (s : State),
    (s.live.link l).state = .up → (s.live.link l).tx.length < 16 → s.live.reeval = false →
    l < s.live.links.length → s.env.namedBoundary l n = some bd →
    s.env.boundary? bd.number = some bd → s.live.hasBoundary bd.number →
    (∀ k ∈ bd.berth, s.live.hasControl k) → (s.live.link l).rx = .acceptRequest n :: fs →
    ∃ t, exec (.acceptRequest l) s = .next t ∧ t.env = s.env ∧ t.pending = s.pending
      ∧ (t.live.link l).rx = fs
      ∧ (t.live.link l).silence = some (after s.env.now s.env.timing.linkTimeout)
      ∧ (∀ j, j ≠ l → t.live.link j = s.live.link j)
      ∧ (∀ b, b ≠ bd.number → t.live.boundary b = s.live.boundary b)
      ∧ s.live.throwsStand t.live ∧ s.live.faultsStand t.live ∧ s.live.portsStand t.live
      ∧ t.live.slots = s.live.slots ∧ t.live.stored = s.live.stored
      ∧ t.live.groups = s.live.groups
      ∧ ((s.live.boundary bd.number).direction = .inward →
          (s.live.boundary bd.number).restricted = false →
          (s.live.boundary bd.number).berthLocked = false →
          (∀ k ∈ bd.berth, berthFree s.env s.live k = true ∧ s.env.occupied k = false) →
          t.live.boundary bd.number = { s.live.boundary bd.number with
            berthLocked := true, marks := bd.berth.map (fun _ => Mark.none) }
          ∧ (∀ k, (t.live.control k).lock = if k ∈ bd.berth then
              some { holder := .berth bd.number, mode := .berth } else (s.live.control k).lock)
          ∧ (t.live.link l).tx = (s.live.link l).tx
              ++ [.acceptGrant n (s.live.control bd.home).aspect]
          ∧ s.live.made (.boundaryState bd.number .inward (s.live.boundary bd.number).acceptance true
              false none) t.live
          ∧ (∀ (r : RouteDef) (e : Entry), e.element ∈ bd.berth →
              entryFails t.env t.live r e = some .conflict)
          ∧ (statusEntry t.env t.live bd).home = (t.live.control bd.home).aspect)
      ∧ (∀ why : Reason, (((s.live.boundary bd.number).direction ≠ .inward
              ∨ (s.live.boundary bd.number).restricted = true) ∧ why = .direction)
            ∨ ((s.live.boundary bd.number).direction = .inward
              ∧ (s.live.boundary bd.number).restricted = false
              ∧ ((s.live.boundary bd.number).berthLocked = true
                ∨ ∃ k ∈ bd.berth, berthFree s.env s.live k = false) ∧ why = .berthLocked)
            ∨ ((s.live.boundary bd.number).direction = .inward
              ∧ (s.live.boundary bd.number).restricted = false
              ∧ (s.live.boundary bd.number).berthLocked = false
              ∧ (∀ k ∈ bd.berth, berthFree s.env s.live k = true)
              ∧ (∃ k ∈ bd.berth, s.env.occupied k = true) ∧ why = .berthOccupied) →
          s.live.claimsStand t.live
          ∧ (∀ k, (t.live.lane k).reports = (s.live.lane k).reports)
          ∧ t.live.boundary bd.number = s.live.boundary bd.number
          ∧ (t.live.link l).tx = (s.live.link l).tx ++ [.acceptRefuse n why.code])

/-- The end of a REQUESTED acceptance. An ACCEPT_GRANT taken on an UP link makes it HELD with no expiry and
the home aspect of the frame; an ACCEPT_REFUSE taken there and an ACCEPTANCE_EXPIRY make it NONE with no
expiry. With no stored request, locks, throws, faults and links other than the boundary's stand. -/
def Obligations.AcceptanceAnswered : Prop :=
  ∀ (l n b reason : Nat) (a : Aspect) (fs : List NFrame) (bd : BoundaryDef) (s : State),
    s.live.stored = [] → s.env.boundary? b = some bd → bd.link = l → bd.linkNumber = n →
    s.env.namedBoundary l n = some bd → s.live.hasBoundary b → l < s.live.links.length →
    (s.live.link l).tx.length < 16 → (s.live.boundary b).acceptance = .requested →
    ∀ (c : Instr) (acc : Acceptance),
      ((c = .acceptGrant l ∧ acc = .held ∧ (s.live.link l).state = .up
          ∧ (s.live.link l).rx = .acceptGrant n a :: fs)
        ∨ (c = .acceptRefuse l ∧ acc = .none ∧ (s.live.link l).state = .up
          ∧ (s.live.link l).rx = .acceptRefuse n reason :: fs)
        ∨ (c = .acceptanceExpiry b ∧ acc = .none
          ∧ ∃ at_, (s.live.boundary b).accExpiry = some at_ ∧ reached s.env.now at_ = true)) →
      ∃ t, exec c s = .next t ∧ t.env = s.env ∧ t.pending = s.pending
        ∧ (t.live.boundary b).acceptance = acc ∧ (t.live.boundary b).accExpiry = none
        ∧ (acc = .held → (t.live.boundary b).home = a)
        ∧ (c ≠ .acceptanceExpiry b → (t.live.link l).rx = fs)
        ∧ (∀ j, j ≠ l → t.live.link j = s.live.link j)
        ∧ (∀ k, k ≠ b → t.live.boundary k = s.live.boundary k)
        ∧ s.live.claimsStand t.live ∧ s.live.throwsStand t.live ∧ s.live.faultsStand t.live
        ∧ s.live.portsStand t.live ∧ t.live.stored = [] ∧ t.live.groups = s.live.groups

/-- The release of a berth, with no stored request to take up. Whole: by an ACCEPT_CANCEL taken on an UP link
while the berth is LOCKED and no section is marked occupied, and by a RESET_EXPIRY: the berth is FREE with no
marks; every lock it held on its sections is removed and every other lock stands; a reset in progress
completes, NEUTRAL and not RESTRICTED. Behind a train (R165): at the PICK_UP_EXPIRY of a section of one LOCKED
berth and of no slot, a section is released when it and every section before it in berth order are released
already, or marked "occupied since locking" and filtered CLEAR; no other is; the released sections lose the
berth's lock, every other lock stands, and the berth is FREE when every section is released. -/
def Obligations.BerthReleased : Prop :=
  (∀ (l n : Nat) (fs : List NFrame) (bd : BoundaryDef) (s : State), s.live.stored = [] →
     s.env.boundary? bd.number = some bd → s.env.namedBoundary l n = some bd →
     s.live.hasBoundary bd.number → l < s.live.links.length →
     ∀ c : Instr,
       ((c = .acceptCancel l ∧ (s.live.link l).state = .up
           ∧ (s.live.link l).rx = .acceptCancel n :: fs
           ∧ (s.live.boundary bd.number).berthLocked = true
           ∧ ∀ m ∈ (s.live.boundary bd.number).marks, m.occ = false)
         ∨ (c = .resetExpiry bd.number ∧ ∃ at_,
             (s.live.boundary bd.number).resetExpiry = some at_ ∧ reached s.env.now at_ = true)) →
       ∃ t, exec c s = .next t ∧ t.env = s.env ∧ t.pending = s.pending
         ∧ (t.live.boundary bd.number).berthLocked = false
         ∧ (t.live.boundary bd.number).marks = []
         ∧ (t.live.boundary bd.number).resetExpiry = none
         ∧ ((s.live.boundary bd.number).resetExpiry ≠ none →
             (t.live.boundary bd.number).direction = .neutral
               ∧ (t.live.boundary bd.number).restricted = false)
         ∧ (∀ b, b ≠ bd.number → t.live.boundary b = s.live.boundary b)
         ∧ (∀ k, (t.live.control k).lock =
             if k ∈ bd.berth ∧ (s.live.control k).lock.any
                 (fun y => y.holder = .berth bd.number) then none
             else (s.live.control k).lock)
         ∧ (c = .acceptCancel l → (t.live.link l).rx = fs)
         ∧ s.live.portsStand t.live ∧ s.live.slotsJudged t.live ∧ t.live.stored = []
         ∧ t.live.groups = s.live.groups)
  ∧ ∀ (n : Nat) (e : Element) (at_ : Time) (bd : BoundaryDef) (s : State), s.live.stored = [] →
    s.env.element? n = some e → e.isSection = true → e.occupied = true → e.pickUp = some at_ →
    reached s.env.now at_ = true → s.env.boundary? bd.number = some bd →
    s.live.hasBoundary bd.number → n ∈ bd.berth →
    (∀ b ∈ s.env.defs.boundaries, n ∈ b.berth → b = bd) →
    (s.env.defs.boundaries.map BoundaryDef.number).Nodup → bd ∈ s.env.defs.boundaries →
    (∀ i, s.live.noneAt s.env n i) → (s.live.boundary bd.number).berthLocked = true →
    (s.live.boundary bd.number).marks.length = bd.berth.length → bd.berth.Nodup →
    ∀ test : Nat → Prop,
      (∀ k, test k ↔ ∃ (m : Mark) (y : Nat), (s.live.boundary bd.number).marks[k]? = some m
        ∧ bd.berth[k]? = some y
        ∧ (m.released = true
          ∨ (m.occ = true ∧ (y = n ∨ s.env.occupied y = false)))) →
      ∃ t, exec (.pickUpExpiry n) s = .next t ∧ t.pending = s.pending
        ∧ ((∀ k < bd.berth.length, test k) →
            (t.live.boundary bd.number).berthLocked = false
              ∧ (t.live.boundary bd.number).marks = []
              ∧ (∀ k ∈ bd.berth, ∀ y, (t.live.control k).lock = some y →
                  y.holder = .berth bd.number → ∃ (j : Nat) (m : Mark), bd.berth[j]? = some k
                    ∧ (s.live.boundary bd.number).marks[j]? = some m ∧ m.released = true))
        ∧ ((∃ k < bd.berth.length, ¬ test k) →
            (t.live.boundary bd.number).berthLocked = true
              ∧ (∀ (k : Nat) (m : Mark), (s.live.boundary bd.number).marks[k]? = some m →
                  ∃ m' : Mark, (t.live.boundary bd.number).marks[k]? = some m' ∧ m'.occ = m.occ
                    ∧ (m'.released = true ↔ m.released = true ∨ ∀ j ≤ k, test j)))
        ∧ (∀ k, ((∃ (j : Nat) (m : Mark), bd.berth[j]? = some k
                  ∧ (s.live.boundary bd.number).marks[j]? = some m
                  ∧ m.released = false ∧ ∀ h ≤ j, test h) →
                ∀ y, (s.live.control k).lock = some y → y.holder = .berth bd.number →
                  (t.live.control k).lock = none)
            ∧ ((t.live.control k).lock = (s.live.control k).lock
              ∨ ((t.live.control k).lock = none
                ∧ (∃ y, (s.live.control k).lock = some y ∧ y.holder = .berth bd.number)
                ∧ ∃ (j : Nat) (m : Mark), bd.berth[j]? = some k
                  ∧ (s.live.boundary bd.number).marks[j]? = some m
                  ∧ m.released = false ∧ ∀ h ≤ j, test h)))
        ∧ (∀ b, b ≠ bd.number → t.live.boundary b = s.live.boundary b)
        ∧ s.live.portsStand t.live ∧ s.live.slotsJudged t.live ∧ t.live.stored = []

/-- A STATUS taken from the head of a receive queue (R151, R152, R156, R166). On a DISABLED link it is
discarded. On an UP, CONNECTING or LOST link it brings the link UP with a fresh silence timer and the
neighbour's area-stop flag, and it is applied to each boundary of the link, unless a transmit queue that
overflows on the way takes the link out of UP, which it does not with room for four frames a boundary. For
each boundary: the views are the entry that the frame carries for it, or absent. With an entry: the home
aspect is the frame's; a HELD acceptance that has been entered, or awaits its consumption, is used where the
entry shows the berth entered or FREE; a LOCKED berth that no train has entered is released where the entry
shows the acceptance NONE, and no other berth is; the direction is asked for where the exit slot needs it,
and the acceptance at the first STATUS and where berth ready has risen; neighbour waiting follows the entry
on an OUTWARD boundary, and an idle one offers the direction. Without one, only the first STATUS may ask for
the acceptance. Then, unless the boundary is RESTRICTED, the consistency timer runs when the boundary
disagrees with the entry or has none, with the expiry it had or a new one, and is cancelled otherwise. Every
other link and boundary stands. (With no stored request, and with boundary records of different numbers, as
a load leaves them.) Where a frame has two entries of one link boundary number, the first is meant, which is
the model's choice (log 40). -/
def Obligations.StatusAppliedToEachBoundary : Prop :=
  ∀ (l : Nat) (stop : Bool) (es : List StatusEntry) (fs : List NFrame) (s : State),
    (s.live.link l).rx = .status stop es :: fs → s.live.stored = [] → s.live.reeval = false →
    l < s.live.links.length →
    ((s.live.link l).state = .disabled → ∃ t, exec (.status l) s = .next t ∧ t.env = s.env
      ∧ t.pending = s.pending ∧ t.live = s.live.setLink l (fun y => { y with rx := fs }))
    ∧ ((s.live.link l).state ≠ .disabled →
      (s.env.defs.boundaries.map BoundaryDef.number).Nodup →
      ∃ t, exec (.status l) s = .next t ∧ t.env = s.env ∧ t.pending = s.pending
        ∧ ((s.live.link l).tx.length + 4 * (s.env.linkBoundaries l).length ≤ 16 →
            (t.live.link l).state = .up)
        ∧ ((t.live.link l).state = .up →
          (t.live.link l).rx = fs ∧ (t.live.link l).remoteStop = stop
          ∧ (t.live.link l).silence = some (after s.env.now s.env.timing.linkTimeout)
          ∧ (s.live.link l).tx <+: (t.live.link l).tx
          ∧ (∀ j, j ≠ l → t.live.link j = s.live.link j)
          ∧ (∀ b, (∀ bd ∈ s.env.linkBoundaries l, bd.number ≠ b) →
              t.live.boundary b = s.live.boundary b)
          ∧ s.live.portsStand t.live ∧ t.live.stored = []
          ∧ ∀ bd ∈ s.env.linkBoundaries l, s.env.boundary? bd.number = some bd →
            s.live.hasBoundary bd.number →
            ∀ (x y : Boundary) (entry : Option StatusEntry) (first : Bool),
              x = s.live.boundary bd.number → y = t.live.boundary bd.number →
              entry = es.find? (fun e => e.number = bd.linkNumber) →
              first = decide ((s.live.link l).state ≠ .up) →
              -- step 1
              y.views = entry
              ∧ (entry = none → y.home = x.home ∧ y.waiting = x.waiting
                ∧ y.direction = x.direction ∧ y.berthLocked = x.berthLocked ∧ y.marks = x.marks
                ∧ y.restricted = x.restricted ∧ y.reqExpiry = x.reqExpiry
                ∧ (first = false → y.acceptance = x.acceptance ∧ y.accExpiry = x.accExpiry))
              -- an acceptance request at the first STATUS, or where berth ready has risen (step 5)
              ∧ ((first = true ∨ ∃ e p, entry = some e ∧ e.berthReady = true ∧ x.views = some p
                  ∧ p.berthReady = false) →
                exitNeeds s.live bd.number Slot.accNeed = true → x.direction = .outward →
                x.acceptance = .none → x.restricted = false → x.berthLocked = false →
                y.acceptance = .requested
                  ∧ y.accExpiry = some (after s.env.now s.env.timing.response)
                  ∧ .acceptRequest bd.linkNumber ∈ (t.live.link l).tx)
              ∧ (∀ e, entry = some e →
                -- step 2
                y.home = e.home
                -- step 3
                ∧ (x.acceptance = .held → (x.exitEntered = true ∨ x.awaiting = true) →
                    (e.berthEntered = true ∨ e.berthLocked = false) → y.acceptance ≠ .held)
                ∧ ((x.acceptance ≠ .held ∨ (x.exitEntered = false ∧ x.awaiting = false)
                      ∨ (e.berthEntered = false ∧ e.berthLocked = true)) →
                    first = false →
                    (e.berthReady = false ∨ x.views = none
                      ∨ ∃ p, x.views = some p ∧ p.berthReady = true) →
                    y.acceptance = x.acceptance)
                -- step 4
                ∧ (x.berthLocked = true → (∀ m ∈ x.marks, m.occ = false) →
                    e.acceptance = .none →
                    y.berthLocked = false ∧ y.marks = [] ∧ y.resetExpiry = none
                      ∧ ∀ k ∈ bd.berth, ∀ z, (t.live.control k).lock = some z →
                          z.holder ≠ .berth bd.number)
                ∧ ((∃ m ∈ x.marks, m.occ = true) ∨ e.acceptance ≠ .none →
                    y.berthLocked = x.berthLocked ∧ y.marks = x.marks
                      ∧ y.restricted = x.restricted)
                -- step 5, the direction request
                ∧ (exitNeeds s.live bd.number Slot.dirNeed = true → x.reqExpiry = none →
                    x.restricted = false → x.berthLocked = false → e.direction ≠ .outward →
                    y.reqExpiry = some (after s.env.now s.env.timing.response)
                      ∧ .dirRequest bd.linkNumber bd.seniority ∈ (t.live.link l).tx)
                ∧ ((exitNeeds s.live bd.number Slot.dirNeed = false ∨ x.reqExpiry ≠ none
                      ∨ e.direction = .outward) → y.reqExpiry = x.reqExpiry)
                -- step 6
                ∧ (e.waiting = false → y.waiting = false)
                ∧ (e.waiting = true → y.direction = .outward → y.waiting = true)
                ∧ (e.waiting = true → x.direction = .outward → x.acceptance = .none →
                    exitNeeds s.live bd.number (fun _ => true) = false → x.berthLocked = false →
                    e.berthLocked = false →
                    y.direction = .inward ∧ y.waiting = false
                      ∧ .dirOffer bd.linkNumber ∈ (t.live.link l).tx)
                ∧ (x.direction ≠ .outward → x.resetExpiry = none → y.direction = x.direction)
                ∧ (x.direction = .outward → x.resetExpiry = none →
                    y.direction = .outward ∨ y.direction = .inward))
              -- step 7
              ∧ (y.restricted = true → y.consExpiry = x.consExpiry)
              ∧ (y.restricted = false →
                  y.consExpiry = if ∃ e, entry = some e
                    ∧ ((y.direction = .outward ∧ e.direction = .inward)
                      ∨ (y.direction = .inward ∧ e.direction = .outward)
                      ∨ (y.direction = .neutral ∧ e.direction = .neutral))
                    ∧ (y.acceptance = .held → e.berthLocked = true ∨ y.exitEntered = true
                        ∨ y.awaiting = true)
                    ∧ (e.acceptance = .held → y.berthLocked = true)
                    then none
                    else some (x.consExpiry.getD (after s.env.now s.env.timing.response)))))

/-- CONSISTENCY_EXPIRY of a boundary whose exit slot, if it has one, is not in SETTING: the boundary is
RESTRICTED with no consistency timer, its direction, acceptance and berth as they stood, and RESTRICTED
stands ACTIVE on its element. Locks, throws, links and every other boundary stand. -/
def Obligations.ConsistencyExpiryRestrictsBoundary : Prop :=
  ∀ (b : Nat) (at_ : Time) (bd : BoundaryDef) (s : State),
    (s.live.boundary b).consExpiry = some at_ → reached s.env.now at_ = true →
    s.env.boundary? b = some bd → s.live.hasBoundary b → s.live.hasControl bd.element →
    s.live.reeval = false →
    (∀ i, (s.live.boundary b).exitSlot = some i → (s.live.slot i).state ≠ .setting) →
    ∃ t, exec (.consistencyExpiry b) s = .next t ∧ t.env = s.env ∧ t.pending = s.pending
      ∧ t.live.boundary b = { s.live.boundary b with consExpiry := none, restricted := true }
      ∧ t.live.raised bd.element .restricted s.env.now
      ∧ (∀ k, k ≠ b → t.live.boundary k = s.live.boundary k)
      ∧ t.live.links = s.live.links
      ∧ s.live.claimsStand t.live ∧ s.live.throwsStand t.live ∧ s.live.slotsJudged t.live
      ∧ s.live.portsStand t.live ∧ t.live.stored = s.live.stored
end

