-- ==== Sys2Proof/Laws/State.lean ====
section
/-! SUPPORT. The small lemmas of the state's updates: each field after each update, each lookup after
each update. Later proofs cite these and unfold no update. -/

namespace Sys2Proof.Machine

open Sys2Proof

/-! ### Fields of `Live` after each update -/

section fields
variable (d : Live)

@[simp] theorem Live.setControl_laneA (n : Nat) (f : Control → Control) :
    (d.setControl n f).laneA = d.laneA := rfl
@[simp] theorem Live.setControl_laneB (n : Nat) (f : Control → Control) :
    (d.setControl n f).laneB = d.laneB := rfl
@[simp] theorem Live.setControl_controls (n : Nat) (f : Control → Control) :
    (d.setControl n f).controls = d.controls.map (fun c => if c.num = n then f c else c) := rfl
@[simp] theorem Live.setControl_slots (n : Nat) (f : Control → Control) :
    (d.setControl n f).slots = d.slots := rfl
@[simp] theorem Live.setControl_stored (n : Nat) (f : Control → Control) :
    (d.setControl n f).stored = d.stored := rfl
@[simp] theorem Live.setControl_orders (n : Nat) (f : Control → Control) :
    (d.setControl n f).orders = d.orders := rfl
@[simp] theorem Live.setControl_power (n : Nat) (f : Control → Control) :
    (d.setControl n f).power = d.power := rfl
@[simp] theorem Live.setControl_groups (n : Nat) (f : Control → Control) :
    (d.setControl n f).groups = d.groups := rfl
@[simp] theorem Live.setControl_links (n : Nat) (f : Control → Control) :
    (d.setControl n f).links = d.links := rfl
@[simp] theorem Live.setControl_boundaries (n : Nat) (f : Control → Control) :
    (d.setControl n f).boundaries = d.boundaries := rfl
@[simp] theorem Live.setControl_reeval (n : Nat) (f : Control → Control) :
    (d.setControl n f).reeval = d.reeval := rfl
@[simp] theorem Live.setSlot_laneA (i : Nat) (f : Slot → Slot) :
    (d.setSlot i f).laneA = d.laneA := rfl
@[simp] theorem Live.setSlot_laneB (i : Nat) (f : Slot → Slot) :
    (d.setSlot i f).laneB = d.laneB := rfl
@[simp] theorem Live.setSlot_controls (i : Nat) (f : Slot → Slot) :
    (d.setSlot i f).controls = d.controls := rfl
@[simp] theorem Live.setSlot_slots (i : Nat) (f : Slot → Slot) :
    (d.setSlot i f).slots = d.slots.modify i f := rfl
@[simp] theorem Live.setSlot_stored (i : Nat) (f : Slot → Slot) :
    (d.setSlot i f).stored = d.stored := rfl
@[simp] theorem Live.setSlot_orders (i : Nat) (f : Slot → Slot) :
    (d.setSlot i f).orders = d.orders := rfl
@[simp] theorem Live.setSlot_power (i : Nat) (f : Slot → Slot) :
    (d.setSlot i f).power = d.power := rfl
@[simp] theorem Live.setSlot_groups (i : Nat) (f : Slot → Slot) :
    (d.setSlot i f).groups = d.groups := rfl
@[simp] theorem Live.setSlot_links (i : Nat) (f : Slot → Slot) :
    (d.setSlot i f).links = d.links := rfl
@[simp] theorem Live.setSlot_boundaries (i : Nat) (f : Slot → Slot) :
    (d.setSlot i f).boundaries = d.boundaries := rfl
@[simp] theorem Live.setSlot_reeval (i : Nat) (f : Slot → Slot) :
    (d.setSlot i f).reeval = d.reeval := rfl
@[simp] theorem Live.setStored_laneA (l : List Stored) : (d.setStored l).laneA = d.laneA := rfl
@[simp] theorem Live.setStored_laneB (l : List Stored) : (d.setStored l).laneB = d.laneB := rfl
@[simp] theorem Live.setStored_controls (l : List Stored) :
    (d.setStored l).controls = d.controls := rfl
@[simp] theorem Live.setStored_slots (l : List Stored) : (d.setStored l).slots = d.slots := rfl
@[simp] theorem Live.setStored_stored (l : List Stored) : (d.setStored l).stored = l := rfl
@[simp] theorem Live.setStored_orders (l : List Stored) : (d.setStored l).orders = d.orders := rfl
@[simp] theorem Live.setStored_power (l : List Stored) : (d.setStored l).power = d.power := rfl
@[simp] theorem Live.setStored_groups (l : List Stored) : (d.setStored l).groups = d.groups := rfl
@[simp] theorem Live.setStored_links (l : List Stored) : (d.setStored l).links = d.links := rfl
@[simp] theorem Live.setStored_boundaries (l : List Stored) :
    (d.setStored l).boundaries = d.boundaries := rfl
@[simp] theorem Live.setStored_reeval (l : List Stored) : (d.setStored l).reeval = d.reeval := rfl
@[simp] theorem Live.setOrders_laneA (l : List ThrowOrder) : (d.setOrders l).laneA = d.laneA := rfl
@[simp] theorem Live.setOrders_laneB (l : List ThrowOrder) : (d.setOrders l).laneB = d.laneB := rfl
@[simp] theorem Live.setOrders_controls (l : List ThrowOrder) :
    (d.setOrders l).controls = d.controls := rfl
@[simp] theorem Live.setOrders_slots (l : List ThrowOrder) : (d.setOrders l).slots = d.slots := rfl
@[simp] theorem Live.setOrders_stored (l : List ThrowOrder) :
    (d.setOrders l).stored = d.stored := rfl
@[simp] theorem Live.setOrders_orders (l : List ThrowOrder) : (d.setOrders l).orders = l := rfl
@[simp] theorem Live.setOrders_power (l : List ThrowOrder) : (d.setOrders l).power = d.power := rfl
@[simp] theorem Live.setOrders_groups (l : List ThrowOrder) :
    (d.setOrders l).groups = d.groups := rfl
@[simp] theorem Live.setOrders_links (l : List ThrowOrder) : (d.setOrders l).links = d.links := rfl
@[simp] theorem Live.setOrders_boundaries (l : List ThrowOrder) :
    (d.setOrders l).boundaries = d.boundaries := rfl
@[simp] theorem Live.setOrders_reeval (l : List ThrowOrder) :
    (d.setOrders l).reeval = d.reeval := rfl
@[simp] theorem Live.setPower_laneA (g : Nat) (f : PowerGroup → PowerGroup) :
    (d.setPower g f).laneA = d.laneA := rfl
@[simp] theorem Live.setPower_laneB (g : Nat) (f : PowerGroup → PowerGroup) :
    (d.setPower g f).laneB = d.laneB := rfl
@[simp] theorem Live.setPower_controls (g : Nat) (f : PowerGroup → PowerGroup) :
    (d.setPower g f).controls = d.controls := rfl
@[simp] theorem Live.setPower_slots (g : Nat) (f : PowerGroup → PowerGroup) :
    (d.setPower g f).slots = d.slots := rfl
@[simp] theorem Live.setPower_stored (g : Nat) (f : PowerGroup → PowerGroup) :
    (d.setPower g f).stored = d.stored := rfl
@[simp] theorem Live.setPower_orders (g : Nat) (f : PowerGroup → PowerGroup) :
    (d.setPower g f).orders = d.orders := rfl
@[simp] theorem Live.setPower_power (g : Nat) (f : PowerGroup → PowerGroup) :
    (d.setPower g f).power = d.power.modify g f := rfl
@[simp] theorem Live.setPower_groups (g : Nat) (f : PowerGroup → PowerGroup) :
    (d.setPower g f).groups = d.groups := rfl
@[simp] theorem Live.setPower_links (g : Nat) (f : PowerGroup → PowerGroup) :
    (d.setPower g f).links = d.links := rfl
@[simp] theorem Live.setPower_boundaries (g : Nat) (f : PowerGroup → PowerGroup) :
    (d.setPower g f).boundaries = d.boundaries := rfl
@[simp] theorem Live.setPower_reeval (g : Nat) (f : PowerGroup → PowerGroup) :
    (d.setPower g f).reeval = d.reeval := rfl
@[simp] theorem Live.setGroup_laneA (g : Nat) (f : StopGroup → StopGroup) :
    (d.setGroup g f).laneA = d.laneA := rfl
@[simp] theorem Live.setGroup_laneB (g : Nat) (f : StopGroup → StopGroup) :
    (d.setGroup g f).laneB = d.laneB := rfl
@[simp] theorem Live.setGroup_controls (g : Nat) (f : StopGroup → StopGroup) :
    (d.setGroup g f).controls = d.controls := rfl
@[simp] theorem Live.setGroup_slots (g : Nat) (f : StopGroup → StopGroup) :
    (d.setGroup g f).slots = d.slots := rfl
@[simp] theorem Live.setGroup_stored (g : Nat) (f : StopGroup → StopGroup) :
    (d.setGroup g f).stored = d.stored := rfl
@[simp] theorem Live.setGroup_orders (g : Nat) (f : StopGroup → StopGroup) :
    (d.setGroup g f).orders = d.orders := rfl
@[simp] theorem Live.setGroup_power (g : Nat) (f : StopGroup → StopGroup) :
    (d.setGroup g f).power = d.power := rfl
@[simp] theorem Live.setGroup_groups (g : Nat) (f : StopGroup → StopGroup) :
    (d.setGroup g f).groups = d.groups.modify g f := rfl
@[simp] theorem Live.setGroup_links (g : Nat) (f : StopGroup → StopGroup) :
    (d.setGroup g f).links = d.links := rfl
@[simp] theorem Live.setGroup_boundaries (g : Nat) (f : StopGroup → StopGroup) :
    (d.setGroup g f).boundaries = d.boundaries := rfl
@[simp] theorem Live.setGroup_reeval (g : Nat) (f : StopGroup → StopGroup) :
    (d.setGroup g f).reeval = d.reeval := rfl
@[simp] theorem Live.setLink_laneA (l : Nat) (f : Link → Link) :
    (d.setLink l f).laneA = d.laneA := rfl
@[simp] theorem Live.setLink_laneB (l : Nat) (f : Link → Link) :
    (d.setLink l f).laneB = d.laneB := rfl
@[simp] theorem Live.setLink_controls (l : Nat) (f : Link → Link) :
    (d.setLink l f).controls = d.controls := rfl
@[simp] theorem Live.setLink_slots (l : Nat) (f : Link → Link) :
    (d.setLink l f).slots = d.slots := rfl
@[simp] theorem Live.setLink_stored (l : Nat) (f : Link → Link) :
    (d.setLink l f).stored = d.stored := rfl
@[simp] theorem Live.setLink_orders (l : Nat) (f : Link → Link) :
    (d.setLink l f).orders = d.orders := rfl
@[simp] theorem Live.setLink_power (l : Nat) (f : Link → Link) :
    (d.setLink l f).power = d.power := rfl
@[simp] theorem Live.setLink_groups (l : Nat) (f : Link → Link) :
    (d.setLink l f).groups = d.groups := rfl
@[simp] theorem Live.setLink_links (l : Nat) (f : Link → Link) :
    (d.setLink l f).links = d.links.modify l f := rfl
@[simp] theorem Live.setLink_boundaries (l : Nat) (f : Link → Link) :
    (d.setLink l f).boundaries = d.boundaries := rfl
@[simp] theorem Live.setLink_reeval (l : Nat) (f : Link → Link) :
    (d.setLink l f).reeval = d.reeval := rfl
@[simp] theorem Live.setBoundary_laneA (b : Nat) (f : Boundary → Boundary) :
    (d.setBoundary b f).laneA = d.laneA := rfl
@[simp] theorem Live.setBoundary_laneB (b : Nat) (f : Boundary → Boundary) :
    (d.setBoundary b f).laneB = d.laneB := rfl
@[simp] theorem Live.setBoundary_controls (b : Nat) (f : Boundary → Boundary) :
    (d.setBoundary b f).controls = d.controls := rfl
@[simp] theorem Live.setBoundary_slots (b : Nat) (f : Boundary → Boundary) :
    (d.setBoundary b f).slots = d.slots := rfl
@[simp] theorem Live.setBoundary_stored (b : Nat) (f : Boundary → Boundary) :
    (d.setBoundary b f).stored = d.stored := rfl
@[simp] theorem Live.setBoundary_orders (b : Nat) (f : Boundary → Boundary) :
    (d.setBoundary b f).orders = d.orders := rfl
@[simp] theorem Live.setBoundary_power (b : Nat) (f : Boundary → Boundary) :
    (d.setBoundary b f).power = d.power := rfl
@[simp] theorem Live.setBoundary_groups (b : Nat) (f : Boundary → Boundary) :
    (d.setBoundary b f).groups = d.groups := rfl
@[simp] theorem Live.setBoundary_links (b : Nat) (f : Boundary → Boundary) :
    (d.setBoundary b f).links = d.links := rfl
@[simp] theorem Live.setBoundary_boundaries (b : Nat) (f : Boundary → Boundary) :
    (d.setBoundary b f).boundaries = d.boundaries.map (fun x => if x.num = b then f x else x) := rfl
@[simp] theorem Live.setBoundary_reeval (b : Nat) (f : Boundary → Boundary) :
    (d.setBoundary b f).reeval = d.reeval := rfl
@[simp] theorem Live.setReeval_laneA (r : Bool) : (d.setReeval r).laneA = d.laneA := rfl
@[simp] theorem Live.setReeval_laneB (r : Bool) : (d.setReeval r).laneB = d.laneB := rfl
@[simp] theorem Live.setReeval_controls (r : Bool) : (d.setReeval r).controls = d.controls := rfl
@[simp] theorem Live.setReeval_slots (r : Bool) : (d.setReeval r).slots = d.slots := rfl
@[simp] theorem Live.setReeval_stored (r : Bool) : (d.setReeval r).stored = d.stored := rfl
@[simp] theorem Live.setReeval_orders (r : Bool) : (d.setReeval r).orders = d.orders := rfl
@[simp] theorem Live.setReeval_power (r : Bool) : (d.setReeval r).power = d.power := rfl
@[simp] theorem Live.setReeval_groups (r : Bool) : (d.setReeval r).groups = d.groups := rfl
@[simp] theorem Live.setReeval_links (r : Bool) : (d.setReeval r).links = d.links := rfl
@[simp] theorem Live.setReeval_boundaries (r : Bool) :
    (d.setReeval r).boundaries = d.boundaries := rfl
@[simp] theorem Live.setReeval_reeval (r : Bool) : (d.setReeval r).reeval = r := rfl
@[simp] theorem Live.setLane_controls (l : LaneId) (f : LanePort → LanePort) :
    (d.setLane l f).controls = d.controls := by
  cases l <;> rfl
@[simp] theorem Live.setLane_slots (l : LaneId) (f : LanePort → LanePort) :
    (d.setLane l f).slots = d.slots := by
  cases l <;> rfl
@[simp] theorem Live.setLane_stored (l : LaneId) (f : LanePort → LanePort) :
    (d.setLane l f).stored = d.stored := by
  cases l <;> rfl
@[simp] theorem Live.setLane_orders (l : LaneId) (f : LanePort → LanePort) :
    (d.setLane l f).orders = d.orders := by
  cases l <;> rfl
@[simp] theorem Live.setLane_power (l : LaneId) (f : LanePort → LanePort) :
    (d.setLane l f).power = d.power := by
  cases l <;> rfl
@[simp] theorem Live.setLane_groups (l : LaneId) (f : LanePort → LanePort) :
    (d.setLane l f).groups = d.groups := by
  cases l <;> rfl
@[simp] theorem Live.setLane_links (l : LaneId) (f : LanePort → LanePort) :
    (d.setLane l f).links = d.links := by
  cases l <;> rfl
@[simp] theorem Live.setLane_boundaries (l : LaneId) (f : LanePort → LanePort) :
    (d.setLane l f).boundaries = d.boundaries := by
  cases l <;> rfl
@[simp] theorem Live.setLane_reeval (l : LaneId) (f : LanePort → LanePort) :
    (d.setLane l f).reeval = d.reeval := by
  cases l <;> rfl
@[simp] theorem Live.reportTo_controls (l : LaneId) (r : Report) :
    (d.reportTo l r).controls = d.controls := by
  cases l <;> rfl
@[simp] theorem Live.reportTo_slots (l : LaneId) (r : Report) : (d.reportTo l r).slots = d.slots := by
  cases l <;> rfl
@[simp] theorem Live.reportTo_stored (l : LaneId) (r : Report) : (d.reportTo l r).stored = d.stored
    := by
  cases l <;> rfl
@[simp] theorem Live.reportTo_orders (l : LaneId) (r : Report) : (d.reportTo l r).orders = d.orders
    := by
  cases l <;> rfl
@[simp] theorem Live.reportTo_power (l : LaneId) (r : Report) : (d.reportTo l r).power = d.power := by
  cases l <;> rfl
@[simp] theorem Live.reportTo_groups (l : LaneId) (r : Report) : (d.reportTo l r).groups = d.groups
    := by
  cases l <;> rfl
@[simp] theorem Live.reportTo_links (l : LaneId) (r : Report) : (d.reportTo l r).links = d.links := by
  cases l <;> rfl
@[simp] theorem Live.reportTo_boundaries (l : LaneId) (r : Report) :
    (d.reportTo l r).boundaries = d.boundaries := by
  cases l <;> rfl
@[simp] theorem Live.reportTo_reeval (l : LaneId) (r : Report) : (d.reportTo l r).reeval = d.reeval
    := by
  cases l <;> rfl
@[simp] theorem Live.report_laneA (r : Report) : (d.report r).laneA = d.laneA.place r := rfl
@[simp] theorem Live.report_laneB (r : Report) : (d.report r).laneB = d.laneB.place r := rfl
@[simp] theorem Live.report_controls (r : Report) : (d.report r).controls = d.controls := rfl
@[simp] theorem Live.report_slots (r : Report) : (d.report r).slots = d.slots := rfl
@[simp] theorem Live.report_stored (r : Report) : (d.report r).stored = d.stored := rfl
@[simp] theorem Live.report_orders (r : Report) : (d.report r).orders = d.orders := rfl
@[simp] theorem Live.report_power (r : Report) : (d.report r).power = d.power := rfl
@[simp] theorem Live.report_groups (r : Report) : (d.report r).groups = d.groups := rfl
@[simp] theorem Live.report_links (r : Report) : (d.report r).links = d.links := rfl
@[simp] theorem Live.report_boundaries (r : Report) : (d.report r).boundaries = d.boundaries := rfl
@[simp] theorem Live.report_reeval (r : Report) : (d.report r).reeval = d.reeval := rfl

end fields

/-! ### Fields of `Env` after each update -/

section env
variable (v : Env)

@[simp] theorem Env.setElement_now (n : Nat) (f : Element → Element) :
    (v.setElement n f).now = v.now := rfl
@[simp] theorem Env.setElement_as0 (n : Nat) (f : Element → Element) :
    (v.setElement n f).as0 = v.as0 := rfl
@[simp] theorem Env.setElement_as1 (n : Nat) (f : Element → Element) :
    (v.setElement n f).as1 = v.as1 := rfl
@[simp] theorem Env.setElement_store (n : Nat) (f : Element → Element) :
    (v.setElement n f).store = v.store := rfl
@[simp] theorem Env.setElement_startHold (n : Nat) (f : Element → Element) :
    (v.setElement n f).startHold = v.startHold := rfl
@[simp] theorem Env.setElement_presentA (n : Nat) (f : Element → Element) :
    (v.setElement n f).presentA = v.presentA := rfl
@[simp] theorem Env.setElement_presentB (n : Nat) (f : Element → Element) :
    (v.setElement n f).presentB = v.presentB := rfl
@[simp] theorem Env.setElement_silenceA (n : Nat) (f : Element → Element) :
    (v.setElement n f).silenceA = v.silenceA := rfl
@[simp] theorem Env.setElement_silenceB (n : Nat) (f : Element → Element) :
    (v.setElement n f).silenceB = v.silenceB := rfl
@[simp] theorem Env.setElement_elements (n : Nat) (f : Element → Element) :
    (v.setElement n f).elements = v.elements.map (fun e => if e.num = n then f e else e) := rfl
@[simp] theorem Env.setPresent_now (l : LaneId) (p : Bool) : (v.setPresent l p).now = v.now := by
  cases l <;> rfl
@[simp] theorem Env.setPresent_as0 (l : LaneId) (p : Bool) : (v.setPresent l p).as0 = v.as0 := by
  cases l <;> rfl
@[simp] theorem Env.setPresent_as1 (l : LaneId) (p : Bool) : (v.setPresent l p).as1 = v.as1 := by
  cases l <;> rfl
@[simp] theorem Env.setPresent_store (l : LaneId) (p : Bool) : (v.setPresent l p).store = v.store := by
  cases l <;> rfl
@[simp] theorem Env.setPresent_startHold (l : LaneId) (p : Bool) :
    (v.setPresent l p).startHold = v.startHold := by
  cases l <;> rfl
@[simp] theorem Env.setPresent_silenceA (l : LaneId) (p : Bool) :
    (v.setPresent l p).silenceA = v.silenceA := by
  cases l <;> rfl
@[simp] theorem Env.setPresent_silenceB (l : LaneId) (p : Bool) :
    (v.setPresent l p).silenceB = v.silenceB := by
  cases l <;> rfl
@[simp] theorem Env.setPresent_elements (l : LaneId) (p : Bool) :
    (v.setPresent l p).elements = v.elements := by
  cases l <;> rfl
@[simp] theorem Env.setSilence_now (l : LaneId) (t : Option Time) : (v.setSilence l t).now = v.now := by
  cases l <;> rfl
@[simp] theorem Env.setSilence_as0 (l : LaneId) (t : Option Time) : (v.setSilence l t).as0 = v.as0 := by
  cases l <;> rfl
@[simp] theorem Env.setSilence_as1 (l : LaneId) (t : Option Time) : (v.setSilence l t).as1 = v.as1 := by
  cases l <;> rfl
@[simp] theorem Env.setSilence_store (l : LaneId) (t : Option Time) :
    (v.setSilence l t).store = v.store := by
  cases l <;> rfl
@[simp] theorem Env.setSilence_startHold (l : LaneId) (t : Option Time) :
    (v.setSilence l t).startHold = v.startHold := by
  cases l <;> rfl
@[simp] theorem Env.setSilence_presentA (l : LaneId) (t : Option Time) :
    (v.setSilence l t).presentA = v.presentA := by
  cases l <;> rfl
@[simp] theorem Env.setSilence_presentB (l : LaneId) (t : Option Time) :
    (v.setSilence l t).presentB = v.presentB := by
  cases l <;> rfl
@[simp] theorem Env.setSilence_elements (l : LaneId) (t : Option Time) :
    (v.setSilence l t).elements = v.elements := by
  cases l <;> rfl
@[simp] theorem Env.setInput_now (i : AreaInput) (p : Bool) : (v.setInput i p).now = v.now := by
  cases i <;> rfl
@[simp] theorem Env.setInput_store (i : AreaInput) (p : Bool) : (v.setInput i p).store = v.store := by
  cases i <;> rfl
@[simp] theorem Env.setInput_startHold (i : AreaInput) (p : Bool) :
    (v.setInput i p).startHold = v.startHold := by
  cases i <;> rfl
@[simp] theorem Env.setInput_presentA (i : AreaInput) (p : Bool) :
    (v.setInput i p).presentA = v.presentA := by
  cases i <;> rfl
@[simp] theorem Env.setInput_presentB (i : AreaInput) (p : Bool) :
    (v.setInput i p).presentB = v.presentB := by
  cases i <;> rfl
@[simp] theorem Env.setInput_silenceA (i : AreaInput) (p : Bool) :
    (v.setInput i p).silenceA = v.silenceA := by
  cases i <;> rfl
@[simp] theorem Env.setInput_silenceB (i : AreaInput) (p : Bool) :
    (v.setInput i p).silenceB = v.silenceB := by
  cases i <;> rfl
@[simp] theorem Env.setInput_elements (i : AreaInput) (p : Bool) :
    (v.setInput i p).elements = v.elements := by
  cases i <;> rfl
@[simp] theorem Env.heard_now (l : LaneId) : (v.heard l).now = v.now := by
  unfold Env.heard; split <;> simp
@[simp] theorem Env.heard_as0 (l : LaneId) : (v.heard l).as0 = v.as0 := by
  unfold Env.heard; split <;> simp
@[simp] theorem Env.heard_as1 (l : LaneId) : (v.heard l).as1 = v.as1 := by
  unfold Env.heard; split <;> simp
@[simp] theorem Env.heard_store (l : LaneId) : (v.heard l).store = v.store := by
  unfold Env.heard; split <;> simp
@[simp] theorem Env.heard_startHold (l : LaneId) : (v.heard l).startHold = v.startHold := by
  unfold Env.heard; split <;> simp
@[simp] theorem Env.heard_presentA (l : LaneId) : (v.heard l).presentA = v.presentA := by
  unfold Env.heard; split <;> simp
@[simp] theorem Env.heard_presentB (l : LaneId) : (v.heard l).presentB = v.presentB := by
  unfold Env.heard; split <;> simp
@[simp] theorem Env.heard_elements (l : LaneId) : (v.heard l).elements = v.elements := by
  unfold Env.heard; split <;> simp

end env

/-! ### Lookups after updates -/

section lookups
variable (d : Live)

/-- A change of a control record that keeps the number shows at that element alone. -/
theorem Live.control_setControl (n m : Nat) (f : Control → Control) (hf : ∀ c, (f c).num = c.num) :
    (d.setControl n f).control m =
      if m = n ∧ d.hasControl n then f (d.control n) else d.control m := by
  unfold Live.control Live.hasControl Live.setControl
  simp only
  induction d.controls with
  | nil => simp
  | cons c cs ih =>
    simp only [List.map_cons, List.find?_cons, List.mem_cons]
    by_cases hc : c.num = n
    · subst hc
      by_cases hm : c.num = m
      · subst hm; simp [hf]
      · have hm' : ¬ m = c.num := fun h => hm h.symm
        simp only [if_true, hf, hm, hm', decide_false, false_and, if_false] at ih ⊢
        exact ih
    · have hn : ¬ n = c.num := fun h => hc h.symm
      by_cases hm : c.num = m
      · subst hm; simp [hc]
      · simp only [hc, hm, hn, if_false, decide_false, false_or] at ih ⊢
        exact ih

@[simp] theorem Live.control_setControl_ne {n m : Nat} (h : m ≠ n) (f : Control → Control)
    (hf : ∀ c, (f c).num = c.num) : (d.setControl n f).control m = d.control m := by
  rw [d.control_setControl n m f hf]; simp [h]

theorem Live.control_setControl_self {n : Nat} (h : d.hasControl n) (f : Control → Control)
    (hf : ∀ c, (f c).num = c.num) : (d.setControl n f).control n = f (d.control n) := by
  rw [d.control_setControl n n f hf]; simp [h]

/-- The number of a control record found is the one asked for. -/
@[simp] theorem Live.control_num (n : Nat) : (d.control n).num = n := by
  unfold Live.control
  split
  · next c h => have := List.find?_some h; simpa using this
  · rfl

/-- The element numbers of the control records stand. -/
@[simp] theorem Live.setControl_nums (n : Nat) (f : Control → Control)
    (hf : ∀ c, (f c).num = c.num) :
    (d.setControl n f).controls.map Control.num = d.controls.map Control.num := by
  simp only [Live.setControl_controls, List.map_map]
  apply List.map_congr_left
  intro c _
  by_cases h : c.num = n <;> simp [h, hf]

/-- A slot after a change of a slot. -/
theorem Live.slot_setSlot (i j : Nat) (f : Slot → Slot) :
    (d.setSlot i f).slot j = if i = j ∧ j < d.slots.length then f (d.slot j) else d.slot j := by
  unfold Live.slot
  simp only [Live.setSlot_slots, List.getD_eq_getElem?_getD, List.getElem?_modify]
  by_cases h : i = j
  · subst h
    by_cases hl : i < d.slots.length
    · simp [hl]
    · simp [hl]
  · cases d.slots[j]? <;> simp [h]

@[simp] theorem Live.slot_setSlot_ne {i j : Nat} (h : i ≠ j) (f : Slot → Slot) :
    (d.setSlot i f).slot j = d.slot j := by
  rw [d.slot_setSlot]; simp [h]

theorem Live.slot_setSlot_self {i : Nat} (h : i < d.slots.length) (f : Slot → Slot) :
    (d.setSlot i f).slot i = f (d.slot i) := by
  rw [d.slot_setSlot]; simp [h]

@[simp] theorem Live.setSlot_length (i : Nat) (f : Slot → Slot) :
    (d.setSlot i f).slots.length = d.slots.length := by simp

/-- A group after a change of a group. -/
theorem Live.group_setGroup (g h : Nat) (f : StopGroup → StopGroup) :
    (d.setGroup g f).group h = if g = h ∧ h < d.groups.length then f (d.group h) else d.group h := by
  unfold Live.group
  simp only [Live.setGroup_groups, List.getD_eq_getElem?_getD, List.getElem?_modify]
  by_cases e : g = h
  · subst e
    by_cases hl : g < d.groups.length
    · simp [hl]
    · simp [hl]
  · cases d.groups[h]? <;> simp [e]

/-- A power group after a change of a power group. -/
theorem Live.powerGroup_setPower (g h : Nat) (f : PowerGroup → PowerGroup) :
    (d.setPower g f).powerGroup h =
      if g = h ∧ h < d.power.length then f (d.powerGroup h) else d.powerGroup h := by
  unfold Live.powerGroup
  simp only [Live.setPower_power, List.getD_eq_getElem?_getD, List.getElem?_modify]
  by_cases e : g = h
  · subst e
    by_cases hl : g < d.power.length
    · simp [hl]
    · simp [hl]
  · cases d.power[h]? <;> simp [e]

/-- A link after a change of a link. -/
theorem Live.link_setLink (l k : Nat) (f : Link → Link) :
    (d.setLink l f).link k = if l = k ∧ k < d.links.length then f (d.link k) else d.link k := by
  unfold Live.link
  simp only [Live.setLink_links, List.getD_eq_getElem?_getD, List.getElem?_modify]
  by_cases e : l = k
  · subst e
    by_cases hl : l < d.links.length
    · simp [hl]
    · simp [hl]
  · cases d.links[k]? <;> simp [e]

theorem Live.link_setLink_self {l : Nat} (h : l < d.links.length) (f : Link → Link) :
    (d.setLink l f).link l = f (d.link l) := by
  rw [d.link_setLink]; simp [h]

@[simp] theorem Live.link_setLink_ne {l k : Nat} (h : l ≠ k) (f : Link → Link) :
    (d.setLink l f).link k = d.link k := by
  rw [d.link_setLink]; simp [h]

/-- A change of a boundary record that keeps the number shows at that boundary alone. -/
theorem Live.boundary_setBoundary (n m : Nat) (f : Boundary → Boundary)
    (hf : ∀ c, (f c).num = c.num) :
    (d.setBoundary n f).boundary m =
      if m = n ∧ d.hasBoundary n then f (d.boundary n) else d.boundary m := by
  unfold Live.boundary Live.hasBoundary Live.setBoundary
  simp only
  induction d.boundaries with
  | nil => simp
  | cons c cs ih =>
    simp only [List.map_cons, List.find?_cons, List.mem_cons]
    by_cases hc : c.num = n
    · subst hc
      by_cases hm : c.num = m
      · subst hm; simp [hf]
      · have hm' : ¬ m = c.num := fun h => hm h.symm
        simp only [if_true, hf, hm, hm', decide_false, false_and, if_false] at ih ⊢
        exact ih
    · have hn : ¬ n = c.num := fun h => hc h.symm
      by_cases hm : c.num = m
      · subst hm; simp [hc]
      · simp only [hc, hm, hn, if_false, decide_false, false_or] at ih ⊢
        exact ih

@[simp] theorem Live.boundary_setBoundary_ne {n m : Nat} (h : m ≠ n) (f : Boundary → Boundary)
    (hf : ∀ c, (f c).num = c.num) : (d.setBoundary n f).boundary m = d.boundary m := by
  rw [d.boundary_setBoundary n m f hf]; simp [h]

theorem Live.boundary_setBoundary_self {n : Nat} (h : d.hasBoundary n) (f : Boundary → Boundary)
    (hf : ∀ c, (f c).num = c.num) : (d.setBoundary n f).boundary n = f (d.boundary n) := by
  rw [d.boundary_setBoundary n n f hf]; simp [h]

/-- A boundary without a record reads as a fresh one. -/
theorem Live.boundary_of_no_record {n : Nat} (h : ¬ d.hasBoundary n) :
    d.boundary n = Boundary.fresh n := by
  unfold Live.boundary
  split
  · next x hx =>
    exact absurd (List.mem_map.mpr ⟨x, List.mem_of_find?_eq_some hx, by
      have := List.find?_some hx; simpa using this⟩) h
  · rfl

/-- The numbers of the boundary records stand. -/
@[simp] theorem Live.setBoundary_nums (n : Nat) (f : Boundary → Boundary)
    (hf : ∀ c, (f c).num = c.num) :
    (d.setBoundary n f).boundaries.map Boundary.num = d.boundaries.map Boundary.num := by
  simp only [Live.setBoundary_boundaries, List.map_map]
  apply List.map_congr_left
  intro c _
  by_cases h : c.num = n <;> simp [h, hf]

/-- Lookups see only the table they read. -/
theorem Live.control_congr {d e : Live} (h : d.controls = e.controls) (n : Nat) :
    d.control n = e.control n := by unfold Live.control; rw [h]
theorem Live.slot_congr {d e : Live} (h : d.slots = e.slots) (i : Nat) : d.slot i = e.slot i := by
  unfold Live.slot; rw [h]
theorem Live.link_congr {d e : Live} (h : d.links = e.links) (i : Nat) : d.link i = e.link i := by
  unfold Live.link; rw [h]
theorem Live.boundary_congr {d e : Live} (h : d.boundaries = e.boundaries) (i : Nat) :
    d.boundary i = e.boundary i := by unfold Live.boundary; rw [h]
theorem Live.group_congr {d e : Live} (h : d.groups = e.groups) (i : Nat) :
    d.group i = e.group i := by unfold Live.group; rw [h]

end lookups

/-! ### Lane ports -/

/-- A lane's port after a change of a lane's port. -/
theorem Live.lane_setLane (d : Live) (l k : LaneId) (f : LanePort → LanePort) :
    (d.setLane l f).lane k = if l = k then f (d.lane k) else d.lane k := by
  cases l <;> cases k <;> simp [Live.setLane, Live.lane]

@[simp] theorem Live.lane_setLane_self (d : Live) (l : LaneId) (f : LanePort → LanePort) :
    (d.setLane l f).lane l = f (d.lane l) := by
  rw [d.lane_setLane]; simp

@[simp] theorem LaneId.other_ne (l : LaneId) : l.other ≠ l := by cases l <;> decide
@[simp] theorem LaneId.ne_other (l : LaneId) : l ≠ l.other := by cases l <;> decide
@[simp] theorem LaneId.other_other (l : LaneId) : l.other.other = l := by cases l <;> rfl

@[simp] theorem Live.lane_setLane_other (d : Live) (l : LaneId) (f : LanePort → LanePort) :
    (d.setLane l f).lane l.other = d.lane l.other := by
  rw [d.lane_setLane]; simp

@[simp] theorem Live.lane_report (d : Live) (l : LaneId) (r : Report) :
    (d.report r).lane l = (d.lane l).place r := by
  cases l <;> rfl

@[simp] theorem LanePort.place_requests (p : LanePort) (r : Report) :
    (p.place r).requests = p.requests := by
  unfold LanePort.place; split <;> rfl
@[simp] theorem LanePort.place_out (p : LanePort) (r : Report) : (p.place r).out = p.out := by
  unfold LanePort.place; split <;> rfl

/-- Placing a report keeps every report that waits, in its place. -/
theorem LanePort.place_appends (p : LanePort) (r : Report) : p.reports <+: (p.place r).reports := by
  unfold LanePort.place
  split
  · exact List.prefix_append _ _
  · exact List.prefix_rfl

/-- A report placed goes to the tail of the queue while there is room. -/
theorem LanePort.place_reports (p : LanePort) (r : Report)
    (h : p.reports.length < Config.reportCapacity) : (p.place r).reports = p.reports ++ [r] := by
  unfold LanePort.place; simp [h]

/-- A queue of reports never outgrows its capacity (R170). -/
theorem LanePort.place_length (p : LanePort) (r : Report)
    (h : p.reports.length ≤ Config.reportCapacity) :
    (p.place r).reports.length ≤ Config.reportCapacity := by
  unfold LanePort.place
  split
  · simp; omega
  · exact h

/-! ### Lanes of `Env` -/

@[simp] theorem Env.present_setPresent (v : Env) (l k : LaneId) (p : Bool) :
    (v.setPresent l p).present k = if l = k then p else v.present k := by
  cases l <;> cases k <;> simp [Env.setPresent, Env.present]
@[simp] theorem Env.silence_setSilence (v : Env) (l k : LaneId) (t : Option Time) :
    (v.setSilence l t).silence k = if l = k then t else v.silence k := by
  cases l <;> cases k <;> simp [Env.setSilence, Env.silence]
@[simp] theorem Env.silence_setPresent (v : Env) (l k : LaneId) (p : Bool) :
    (v.setPresent l p).silence k = v.silence k := by
  cases l <;> cases k <;> rfl
@[simp] theorem Env.present_setSilence (v : Env) (l k : LaneId) (t : Option Time) :
    (v.setSilence l t).present k = v.present k := by
  cases l <;> cases k <;> rfl
@[simp] theorem Env.mode_heard (v : Env) (l : LaneId) : (v.heard l).mode = v.mode := by
  simp [Env.mode]
@[simp] theorem Env.part_heard (v : Env) (l : LaneId) : (v.heard l).part = v.part := by
  simp [Env.part]
@[simp] theorem Env.operating_heard (v : Env) (l : LaneId) :
    (v.heard l).operating = v.operating := by simp [Env.operating]
@[simp] theorem Env.defs_heard (v : Env) (l : LaneId) : (v.heard l).defs = v.defs := by
  simp [Env.defs]
@[simp] theorem Env.present_heard (v : Env) (l k : LaneId) :
    (v.heard l).present k = v.present k := by cases k <;> simp [Env.present]

/-! ### Elements of `Env` -/

/-- An element after a change of an element that keeps the number. -/
theorem Env.element?_setElement (v : Env) (n m : Nat) (f : Element → Element)
    (hf : ∀ e, (f e).num = e.num) :
    (v.setElement n f).element? m =
      if m = n then (v.element? n).map f else v.element? m := by
  unfold Env.element? Env.setElement
  simp only
  induction v.elements with
  | nil => simp
  | cons c cs ih =>
    simp only [List.map_cons, List.find?_cons]
    by_cases hc : c.num = n
    · subst hc
      by_cases hm : c.num = m
      · subst hm; simp [hf]
      · have hm' : ¬ m = c.num := fun h => hm h.symm
        simp only [if_true, hf, hm, hm', decide_false, if_false] at ih ⊢
        exact ih
    · by_cases hm : c.num = m
      · subst hm; simp [hc]
      · simp only [hc, hm, if_false, decide_false] at ih ⊢
        exact ih

end Sys2Proof.Machine
end

