-- ==== Sys2Proof/Laws/Aspects.lean ====
section
/-! SUPPORT. What the Route Setter's judgements can do: they place reports, order aspects, and move slots
among SETTING, CLEAR and HELD, and leave everything else (R56, R68, R74 to R79). -/

namespace Sys2Proof.Machine

open Sys2Proof

/-! ### The relation -/

/-- A slot without the fields an evaluation may change. -/
def Slot.core (s : Slot) : Slot :=
  { s with state := .free, everCleared := false, reclear := false, setting := none }

/-- What an evaluation may do to a slot: one in SETTING, CLEAR or HELD stays among these, any other is
left as it is, and so is one in SETTING whose setting timer does not run (log 10). -/
structure SlotMoves (s t : Slot) : Prop where
  core : t.core = s.core
  still : s.needsExit = false → t = s
  goes : s.needsExit = true → t.needsExit = true
  set : t.state = .setting → t = s
  untimed : s.state = .setting → s.setting = none → t = s

theorem SlotMoves.refl (s : Slot) : SlotMoves s s :=
  ⟨rfl, fun _ => rfl, id, fun _ => rfl, fun _ _ => rfl⟩

theorem SlotMoves.trans {s t u : Slot} (h : SlotMoves s t) (k : SlotMoves t u) : SlotMoves s u := by
  refine ⟨k.core.trans h.core, fun hs => ?_, fun hs => k.goes (h.goes hs), fun hs => ?_,
    fun hs hn => ?_⟩
  · have ht := h.still hs
    subst ht
    exact k.still hs
  · have hu := k.set hs
    subst hu
    exact h.set hs
  · have ht := h.untimed hs hn
    subst ht
    exact k.untimed hs hn

theorem SlotMoves.toClear {s : Slot} (h : s.needsExit = true)
    (m : s.state = .setting → s.setting.isSome = true) : SlotMoves s s.toClear :=
  ⟨rfl, fun k => by simp [h] at k, fun _ => by simp [Slot.toClear, Slot.needsExit],
    fun k => by simp [Slot.toClear] at k, fun k n => by simp [n] at m; exact absurd k m⟩

theorem SlotMoves.toHeld {s : Slot} (h : s.needsExit = true)
    (m : s.state = .setting → s.setting.isSome = true) : SlotMoves s s.toHeld :=
  ⟨rfl, fun k => by simp [h] at k, fun _ => by simp [Slot.toHeld, Slot.needsExit],
    fun k => by simp [Slot.toHeld] at k, fun k n => by simp [n] at m; exact absurd k m⟩

/-- The route of a slot stands through an evaluation. -/
theorem SlotMoves.route {s t : Slot} (h : SlotMoves s t) : t.route = s.route := by
  have := congrArg Slot.route h.core; exact this
/-- The path marks of a slot stand through an evaluation. -/
theorem SlotMoves.pathMarks {s t : Slot} (h : SlotMoves s t) : t.pathMarks = s.pathMarks := by
  have := congrArg Slot.pathMarks h.core; exact this
/-- The overlap marks of a slot stand through an evaluation. -/
theorem SlotMoves.overlapMarks {s t : Slot} (h : SlotMoves s t) :
    t.overlapMarks = s.overlapMarks := by
  have := congrArg Slot.overlapMarks h.core; exact this
/-- The flank set of a slot stands through an evaluation. -/
theorem SlotMoves.flank {s t : Slot} (h : SlotMoves s t) : t.flank = s.flank := by
  have := congrArg Slot.flank h.core; exact this
/-- A slot is FREE after an evaluation exactly when it was. -/
theorem SlotMoves.active {s t : Slot} (h : SlotMoves s t) : t.active = s.active := by
  cases hs : s.needsExit with
  | false => rw [h.still hs]
  | true =>
    have ht := h.goes hs
    unfold Slot.needsExit at hs ht
    unfold Slot.active
    cases h1 : s.state <;> cases h2 : t.state <;> simp_all <;> rfl

/-- A control record without the aspect. -/
def Control.still (c : Control) : Control := { c with aspect := .stop }

/-- What a judgement of the Route Setter can do. -/
structure Calm (d e : Live) : Prop where
  requests : ∀ l, (e.lane l).requests = (d.lane l).requests
  out : ∀ l, (e.lane l).out = (d.lane l).out
  reports : ∀ l, (d.lane l).reports.length ≤ Config.reportCapacity →
    (e.lane l).reports.length ≤ Config.reportCapacity
  appended : ∀ l, (d.lane l).reports <+: (e.lane l).reports
  stored : e.stored = d.stored
  orders : e.orders = d.orders
  power : e.power = d.power
  groups : e.groups = d.groups
  links : e.links = d.links
  boundaries : e.boundaries = d.boundaries
  reeval : e.reeval = d.reeval
  nums : e.controls.map Control.num = d.controls.map Control.num
  control : ∀ n, (e.control n).still = (d.control n).still
  slotCount : e.slots.length = d.slots.length
  slot : ∀ i, SlotMoves (d.slot i) (e.slot i)

theorem Calm.refl (d : Live) : Calm d d :=
  ⟨fun _ => rfl, fun _ => rfl, fun _ h => h, fun _ => List.prefix_rfl, rfl, rfl, rfl, rfl, rfl, rfl,
      rfl, rfl, fun _ => rfl, rfl,
    fun _ => SlotMoves.refl _⟩

theorem Calm.trans {d e f : Live} (h : Calm d e) (k : Calm e f) : Calm d f where
  requests l := (k.requests l).trans (h.requests l)
  out l := (k.out l).trans (h.out l)
  reports l hl := k.reports l (h.reports l hl)
  appended l := (h.appended l).trans (k.appended l)
  stored := k.stored.trans h.stored
  orders := k.orders.trans h.orders
  power := k.power.trans h.power
  groups := k.groups.trans h.groups
  links := k.links.trans h.links
  boundaries := k.boundaries.trans h.boundaries
  reeval := k.reeval.trans h.reeval
  nums := k.nums.trans h.nums
  control n := (k.control n).trans (h.control n)
  slotCount := k.slotCount.trans h.slotCount
  slot i := (h.slot i).trans (k.slot i)

/-- A fold of calm acts is calm. -/
theorem Calm.foldl {α : Type} (f : Live → α → Live) (h : ∀ d a, Calm d (f d a)) (l : List α)
    (d : Live) : Calm d (l.foldl f d) := by
  induction l generalizing d with
  | nil => exact Calm.refl d
  | cons a as ih => exact (h d a).trans (ih (f d a))

/-- A choice between calm acts is calm. -/
theorem Calm.ite {d e f : Live} {c : Prop} [Decidable c] (h : Calm d e) (k : Calm d f) :
    Calm d (if c then e else f) := by
  split
  · exact h
  · exact k

/-- A calm act at every slot is calm. -/
theorem Calm.eachSlot (f : Nat → Live → Live) (h : ∀ i d, Calm d (f i d)) (d : Live) :
    Calm d (d.eachSlot f) := Calm.foldl _ (fun d i => h i d) _ d

/-! ### Single updates -/

theorem calm_report (d : Live) (r : Report) : Calm d (d.report r) where
  requests l := by simp
  out l := by simp
  reports l h := by simpa using LanePort.place_length _ r h
  appended l := by simpa using LanePort.place_appends _ r
  stored := rfl
  orders := rfl
  power := rfl
  groups := rfl
  links := rfl
  boundaries := rfl
  reeval := rfl
  nums := rfl
  control _ := rfl
  slotCount := rfl
  slot _ := SlotMoves.refl _

/-- A change of control records that shows in no field but the aspect. -/
theorem calm_setControl (d : Live) (n : Nat) (f : Control → Control)
    (hf : ∀ c, (f c).still = c.still) : Calm d (d.setControl n f) := by
  have hn : ∀ c, (f c).num = c.num := fun c => by
    have := congrArg Control.num (hf c); exact this
  exact
    { requests := fun l => by cases l <;> rfl
      out := fun l => by cases l <;> rfl
      reports := fun l h => by cases l <;> exact h
      appended := fun l => by cases l <;> exact List.prefix_rfl
      stored := rfl, orders := rfl, power := rfl, groups := rfl, links := rfl, boundaries := rfl
      reeval := rfl
      nums := d.setControl_nums n f hn
      control := fun m => by
        rw [d.control_setControl n m f hn]
        split
        · next h => rw [hf, h.1]
        · rfl
      slotCount := rfl
      slot := fun _ => SlotMoves.refl _ }

theorem calm_setAspect (d : Live) (n : Nat) (a : Aspect) :
    Calm d (d.setControl n (fun c => { c with aspect := a })) :=
  calm_setControl d n _ (fun _ => rfl)

/-- A slot moved among SETTING, CLEAR and HELD. -/
theorem calm_setSlot (d : Live) (i : Nat) (f : Slot → Slot) (hf : SlotMoves (d.slot i) (f (d.slot i))) :
    Calm d (d.setSlot i f) where
  requests l := by cases l <;> rfl
  out l := by cases l <;> rfl
  reports l h := by cases l <;> exact h
  appended l := by cases l <;> exact List.prefix_rfl
  stored := rfl
  orders := rfl
  power := rfl
  groups := rfl
  links := rfl
  boundaries := rfl
  reeval := rfl
  nums := rfl
  control _ := rfl
  slotCount := by simp
  slot j := by
    rw [d.slot_setSlot]
    split
    · next h => rw [← h.1]; exact hf
    · exact SlotMoves.refl _

/-! ### The judgements -/

theorem calm_computeChain (v : Env) (k sig : Nat) (d : Live) : Calm d (computeChain v k sig d) := by
  induction k generalizing sig d with
  | zero => exact Calm.refl d
  | succ k ih =>
    unfold computeChain
    simp only
    split
    · exact Calm.refl d
    · refine Calm.trans ((calm_setAspect d sig (wantedAspect v d sig)).trans (calm_report _ _))
        (Calm.eachSlot _ (fun i d => ?_) _)
      split
      · exact ih _ _
      · exact Calm.refl _

/-- After its slot has changed, a change of slot state only reports and computes aspects. -/
theorem calm_changeSlotBy {aspect : Nat → Live → Live} (ha : ∀ n d, Calm d (aspect n d)) (v : Env)
    (i : Nat) (f : Slot → Slot) (d : Live) : Calm (d.setSlot i f) (changeSlotBy aspect v i f d) := by
  unfold changeSlotBy
  simp only
  split
  · exact (calm_report _ _).trans (ha _ _)
  · exact calm_report _ _

theorem calm_evaluateBy {aspect : Nat → Live → Live} (ha : ∀ n d, Calm d (aspect n d)) (v : Env)
    (i : Nat) (d : Live) : Calm d (evaluateBy aspect v i d) := by
  unfold evaluateBy
  split
  · next h =>
    split
    · split
      · exact ha _ _
      · exact Calm.refl _
    · refine (calm_setSlot d i _ (SlotMoves.toHeld ?_ ?_)).trans (calm_changeSlotBy ha v i _ d)
      · simp [Slot.needsExit, h]
      · simp [h]
  · next h =>
    split
    · refine (calm_setSlot d i _ (SlotMoves.toClear ?_ ?_)).trans (calm_changeSlotBy ha v i _ d)
      · simp [Slot.needsExit, h]
      · simp [h]
    · exact Calm.refl _
  · exact Calm.refl _

theorem calm_computeTurns (v : Env) (k sig : Nat) (d : Live) : Calm d (computeTurns v k sig d) := by
  induction k generalizing sig d with
  | zero => exact calm_computeChain v 50 sig d
  | succ k ih =>
    unfold computeTurns
    refine (calm_computeChain v 50 sig d).trans (Calm.eachSlot _ (fun i e => ?_) _)
    exact Calm.ite (calm_evaluateBy (fun n x => ih n x) v i e) (Calm.refl e)

/-- Acts that each change nothing change nothing in turn. -/
theorem eachSlot_id (f : Nat → Live → Live) (d : Live) (h : ∀ i, f i d = d) : d.eachSlot f = d := by
  unfold Live.eachSlot
  generalize d.slotIds = l
  induction l with
  | nil => rfl
  | cons a l ih => rw [List.foldl_cons, h]; exact ih

/-- Where the chain of a signal changes nothing, no slot is evaluated. -/
theorem computeTurns_still (v : Env) (k sig : Nat) (d : Live) (h : computeChain v 50 sig d = d) :
    computeTurns v (k + 1) sig d = d := by
  unfold computeTurns
  simp only [h]
  refine eachSlot_id _ d (fun i => if_neg ?_)
  simp [flankTurned]

theorem calm_computeAspect (v : Env) (sig : Nat) (d : Live) : Calm d (computeAspect v sig d) :=
  calm_computeTurns v 50 sig d

theorem calm_computeRear (v : Env) (sig : Nat) (d : Live) : Calm d (computeRear v sig d) := by
  unfold computeRear
  refine Calm.eachSlot _ (fun i d => ?_) _
  split
  · exact calm_computeAspect _ _ _
  · exact Calm.refl _

theorem calm_changeSlot (v : Env) (i : Nat) (f : Slot → Slot) (d : Live) :
    Calm (d.setSlot i f) (changeSlot v i f d) := calm_changeSlotBy (calm_computeAspect v) v i f d

theorem calm_evaluate (v : Env) (i : Nat) (d : Live) : Calm d (evaluate v i d) :=
  calm_evaluateBy (calm_computeAspect v) v i d

theorem calm_evaluateElement (v : Env) (n : Nat) (d : Live) : Calm d (evaluateElement v n d) := by
  unfold evaluateElement
  refine Calm.eachSlot _ (fun i d => ?_) _
  split
  · exact calm_evaluate _ _ _
  · exact Calm.refl _

theorem calm_evaluateFlank (v : Env) (n : Nat) (d : Live) : Calm d (evaluateFlank v n d) :=
  Calm.eachSlot _ (fun i d => Calm.ite (calm_evaluate v i d) (Calm.refl d)) d

theorem calm_evaluateMembers (v : Env) (g : Nat) (d : Live) : Calm d (evaluateMembers v g d) := by
  unfold evaluateMembers
  refine Calm.eachSlot _ (fun i d => ?_) _
  split
  · split
    · exact calm_evaluate _ _ _
    · exact Calm.refl _
  · exact Calm.refl _

theorem calm_computeMembers (v : Env) (g : Nat) (d : Live) : Calm d (computeMembers v g d) := by
  unfold computeMembers
  refine Calm.foldl _ (fun d e => ?_) _ _
  split
  · exact calm_computeAspect _ _ _
  · exact Calm.refl _

theorem calm_testPositioning (v : Env) (i : Nat) (d : Live) : Calm d (testPositioning v i d) := by
  unfold testPositioning
  split
  · next h =>
    have hs : (d.slot i).needsExit = true := by
      simp only [Bool.and_eq_true, decide_eq_true_eq] at h
      simp [Slot.needsExit, h.1.1]
    have ht : (d.slot i).state = .setting → (d.slot i).setting.isSome = true := fun _ => by
      simp only [Bool.and_eq_true] at h
      exact h.1.2
    refine (calm_setSlot d i _ ?_).trans (calm_changeSlot v i _ d)
    split
    · exact SlotMoves.toClear hs ht
    · exact SlotMoves.toHeld hs ht
  · exact Calm.refl _

theorem calm_testPoint (v : Env) (p : Nat) (d : Live) : Calm d (testPoint v p d) := by
  unfold testPoint
  refine Calm.eachSlot _ (fun i d => ?_) _
  split
  · exact calm_testPositioning _ _ _
  · exact Calm.refl _

end Sys2Proof.Machine
end

