-- ==== Sys2Proof/Laws/Supervision.lean ====
section
/-! SUPPORT. What the Supervision Unit's acts can do: they change fault maps, confirmations and INACTIVE
groups, and let the Route Setter judge its slots again (R132, R138 to R142). -/

namespace Sys2Proof.Machine

open Sys2Proof

/-- A control record without the fields the Supervision Unit and the Route Setter change. -/
def Control.base (c : Control) : Control :=
  { c with aspect := .stop, faults := [], condition := false, confirm := none }

/-- What an act of the Supervision Unit can do. -/
structure Watched (d e : Live) : Prop where
  requests : ∀ l, (e.lane l).requests = (d.lane l).requests
  out : ∀ l, (e.lane l).out = (d.lane l).out
  reports : ∀ l, (d.lane l).reports.length ≤ Config.reportCapacity →
    (e.lane l).reports.length ≤ Config.reportCapacity
  appended : ∀ l, (d.lane l).reports <+: (e.lane l).reports
  stored : e.stored = d.stored
  orders : e.orders = d.orders
  power : e.power = d.power
  groupCount : e.groups.length = d.groups.length
  active : ∀ g, (d.group g).active = true → e.group g = d.group g
  links : e.links = d.links
  boundaries : e.boundaries = d.boundaries
  nums : e.controls.map Control.num = d.controls.map Control.num
  control : ∀ n, (e.control n).base = (d.control n).base
  slotCount : e.slots.length = d.slots.length
  slot : ∀ i, SlotMoves (d.slot i) (e.slot i)

theorem Control.base_of_still {c k : Control} (h : c.still = k.still) : c.base = k.base := by
  have := congrArg Control.base h
  exact this

theorem Calm.watched {d e : Live} (h : Calm d e) : Watched d e where
  requests := h.requests
  out := h.out
  reports := h.reports
  appended := h.appended
  stored := h.stored
  orders := h.orders
  power := h.power
  groupCount := by rw [h.groups]
  active g _ := Live.group_congr h.groups g
  links := h.links
  boundaries := h.boundaries
  nums := h.nums
  control n := Control.base_of_still (h.control n)
  slotCount := h.slotCount
  slot := h.slot

theorem Watched.refl (d : Live) : Watched d d := (Calm.refl d).watched

theorem Watched.trans {d e f : Live} (h : Watched d e) (k : Watched e f) : Watched d f where
  requests l := (k.requests l).trans (h.requests l)
  out l := (k.out l).trans (h.out l)
  reports l hl := k.reports l (h.reports l hl)
  appended l := (h.appended l).trans (k.appended l)
  stored := k.stored.trans h.stored
  orders := k.orders.trans h.orders
  power := k.power.trans h.power
  groupCount := k.groupCount.trans h.groupCount
  active g hg := by
    have h1 := h.active g hg
    rw [k.active g (by rw [h1]; exact hg), h1]
  links := k.links.trans h.links
  boundaries := k.boundaries.trans h.boundaries
  nums := k.nums.trans h.nums
  control n := (k.control n).trans (h.control n)
  slotCount := k.slotCount.trans h.slotCount
  slot i := (h.slot i).trans (k.slot i)

theorem Watched.thenCalm {d e f : Live} (h : Watched d e) (k : Calm e f) : Watched d f :=
  h.trans k.watched

/-- A choice between such acts is one. -/
theorem Watched.ite {d e f : Live} {c : Prop} [Decidable c] (h : Watched d e) (k : Watched d f) :
    Watched d (if c then e else f) := by
  split
  · exact h
  · exact k

theorem Watched.foldl {α : Type} (f : Live → α → Live) (h : ∀ d a, Watched d (f d a)) (l : List α)
    (d : Live) : Watched d (l.foldl f d) := by
  induction l generalizing d with
  | nil => exact Watched.refl d
  | cons a as ih => exact (h d a).trans (ih (f d a))

/-! ### Single updates -/

/-- A change of control records that shows in no field but the aspect, the faults and the
confirmation. -/
theorem watched_setControl (d : Live) (n : Nat) (f : Control → Control)
    (hf : ∀ c, (f c).base = c.base) : Watched d (d.setControl n f) := by
  have hn : ∀ c, (f c).num = c.num := fun c => by
    have := congrArg Control.num (hf c); exact this
  exact
    { requests := fun l => by cases l <;> rfl
      out := fun l => by cases l <;> rfl
      reports := fun l h => by cases l <;> exact h
      appended := fun l => by cases l <;> exact List.prefix_rfl
      stored := rfl, orders := rfl, power := rfl, groupCount := rfl, active := fun _ _ => rfl
      links := rfl, boundaries := rfl
      nums := d.setControl_nums n f hn
      control := fun m => by
        rw [d.control_setControl n m f hn]
        split
        · next h => rw [hf, h.1]
        · rfl
      slotCount := rfl
      slot := fun _ => SlotMoves.refl _ }

theorem watched_setReeval (d : Live) (r : Bool) : Watched d (d.setReeval r) where
  requests l := by cases l <;> rfl
  out l := by cases l <;> rfl
  reports l h := by cases l <;> exact h
  appended l := by cases l <;> exact List.prefix_rfl
  stored := rfl
  orders := rfl
  power := rfl
  groupCount := rfl
  active _ _ := rfl
  links := rfl
  boundaries := rfl
  nums := rfl
  control _ := rfl
  slotCount := rfl
  slot _ := SlotMoves.refl _

/-- An INACTIVE group changed. -/
theorem watched_setGroup (d : Live) (g : Nat) (f : StopGroup → StopGroup)
    (h : (d.group g).active = false) : Watched d (d.setGroup g f) where
  requests l := by cases l <;> rfl
  out l := by cases l <;> rfl
  reports l h := by cases l <;> exact h
  appended l := by cases l <;> exact List.prefix_rfl
  stored := rfl
  orders := rfl
  power := rfl
  groupCount := by simp
  active k hk := by
    rw [d.group_setGroup]
    split
    · next e => rw [← e.1, h] at hk; cases hk
    · rfl
  links := rfl
  boundaries := rfl
  nums := rfl
  control _ := rfl
  slotCount := rfl
  slot _ := SlotMoves.refl _

/-! ### The acts -/

theorem watched_latch (v : Env) (src : Source) (g : Nat) (d : Live) : Watched d (latch v src g d) := by
  unfold latch
  split
  · next h =>
    simp only [Bool.and_eq_true, Bool.not_eq_true'] at h
    exact (((watched_setGroup d g _ h.2).trans (calm_report _ _).watched).trans
      (calm_evaluateMembers _ _ _).watched).trans (calm_computeMembers _ _ _).watched
  · exact Watched.refl d

theorem watched_latchAll (v : Env) (src : Source) (d : Live) : Watched d (latchAll v src d) :=
  Watched.foldl _ (fun d g => watched_latch v src g d) _ d

theorem watched_edge (v : Env) (src : Source) (was : Bool) (d : Live) :
    Watched d (edge v src was d) := by
  unfold edge
  split
  · exact watched_latchAll _ _ _
  · exact Watched.refl d

theorem calm_faultHandOn (v : Env) (n : Nat) (k : FaultKind) (d : Live) :
    Calm d (faultHandOn v n k d) := by
  have h : Calm d (if k.blocking then evaluateElement v n d else d) :=
    Calm.ite (calm_evaluateElement v n d) (Calm.refl d)
  exact Calm.ite (h.trans (calm_computeRear v n _)) h

theorem watched_setFaults (d : Live) (n : Nat) (g : Control → List FaultEntry) :
    Watched d (d.setControl n (fun c => { c with faults := g c })) :=
  watched_setControl d n _ (fun _ => rfl)

theorem watched_raise (v : Env) (n : Nat) (k : FaultKind) (m : Option Nat) (d : Live) :
    Watched d (raise v n k m d) := by
  unfold raise
  refine Watched.thenCalm ?_ (calm_faultHandOn v n k _)
  have h : ∀ (g : Control → List FaultEntry) (r : Report),
      Watched d ((d.setControl n (fun c => { c with faults := g c })).report r) :=
    fun g r => (watched_setFaults d n g).thenCalm (calm_report _ r)
  split
  · exact Watched.trans (h _ _) (watched_latch _ _ _ _)
  · exact h _ _

theorem watched_endFault (v : Env) (n : Nat) (k : FaultKind) (d : Live) :
    Watched d (endFault v n k d) := by
  unfold endFault
  split
  · refine Watched.ite ?_ (Watched.refl d)
    refine Watched.thenCalm (Watched.thenCalm ?_ (calm_report _ _)) (calm_faultHandOn v n k _)
    exact watched_setFaults d n _
  · exact Watched.refl d

theorem watched_removeFault (v : Env) (n : Nat) (f : FaultEntry) (d : Live) :
    Watched d (removeFault v n f d) := by
  have h : Watched d (faultHandOn v n f.kind ((d.setControl n (fun c =>
      { c with faults := c.faults.filter (fun x => x.kind != f.kind) })).report
      (faultReport n f .removed none))) := by
    refine Watched.thenCalm (Watched.thenCalm ?_ (calm_report _ _)) (calm_faultHandOn v n _ _)
    exact watched_setFaults d n _
  exact Watched.ite (h.trans (watched_setReeval _ true)) h

theorem watched_reconsider (v : Env) (n : Nat) (d : Live) : Watched d (reconsider v n d) := by
  unfold reconsider
  simp only
  split
  · split
    · exact watched_setControl d n _ (fun _ => rfl)
    · exact Watched.refl d
  · split
    · exact watched_setControl d n _ (fun _ => rfl)
    · exact Watched.refl d

theorem watched_foundInPosition (v : Env) (p : Nat) (d : Live) :
    Watched d (foundInPosition v p d) := by
  unfold foundInPosition
  split
  · split
    · exact watched_endFault _ _ _ _
    · exact Watched.refl d
  · exact Watched.refl d

/-! ### Acts that latch no group -/

/-- The end of a fault changes no group. -/
theorem groups_endFault (v : Env) (n : Nat) (k : FaultKind) (d : Live) :
    (endFault v n k d).groups = d.groups := by
  unfold endFault
  split
  · split
    · rw [(calm_faultHandOn v n k _).groups]; rfl
    · rfl
  · rfl

theorem groups_reconsider (v : Env) (n : Nat) (d : Live) : (reconsider v n d).groups = d.groups := by
  unfold reconsider
  simp only
  split
  · split <;> rfl
  · split <;> rfl

theorem groups_foundInPosition (v : Env) (p : Nat) (d : Live) :
    (foundInPosition v p d).groups = d.groups := by
  unfold foundInPosition
  split
  · split
    · exact groups_endFault _ _ _ _
    · rfl
  · rfl

/-- A SLOW_THROW pulses no group (R139, R142). -/
theorem groups_raise_slow (v : Env) (n : Nat) (m : Option Nat) (d : Live) :
    (raise v n .slowThrow m d).groups = d.groups := by
  have hp : ∀ b, pulsed v n .slowThrow b = none := by
    intro b
    unfold pulsed
    split
    · simp [FaultKind.blocking]
    · rfl
  unfold raise
  simp only [hp]
  rw [(calm_faultHandOn v n _ _).groups]
  rfl

end Sys2Proof.Machine
end

