-- ==== Sys2Proof/Laws/Throws.lean ====
section
/-! SUPPORT. What the Point Throw Sequencer's acts and a release handed on can do: they change throws,
orders and power groups, raise SLOW_THROW, end faults, and let the Route Setter judge its slots again; no
lock, count, link, boundary, group or stored request changes (R96 to R109). What a completion does with the
stored request queue is a parameter: a relation kept by every single update (`Throwing`) is kept by
every act whose re-evaluations keep it. -/

namespace Sys2Proof.Machine

open Sys2Proof

/-- What the Locking Unit, the Flank Search Unit and the Approach Timing Unit keep in a control
record. -/
def Control.holds (c : Control) : Control :=
  { Control.fresh c.num with
    lock := c.lock, normalCount := c.normalCount, reverseCount := c.reverseCount
    holdCount := c.holdCount, speed := c.speed }

theorem Control.holds_of_base {c k : Control} (h : c.base = k.base) : c.holds = k.holds := by
  have := congrArg Control.holds h
  exact this

/-- What an act of the Point Throw Sequencer can do. -/
structure Moved (d e : Live) : Prop where
  requests : ∀ l, (e.lane l).requests = (d.lane l).requests
  out : ∀ l, (e.lane l).out = (d.lane l).out
  reports : ∀ l, (d.lane l).reports.length ≤ Config.reportCapacity →
    (e.lane l).reports.length ≤ Config.reportCapacity
  appended : ∀ l, (d.lane l).reports <+: (e.lane l).reports
  stored : e.stored = d.stored
  orders : d.orders.length ≤ Config.orderCapacity → e.orders.length ≤ Config.orderCapacity
  powerCount : e.power.length = d.power.length
  groups : e.groups = d.groups
  links : e.links = d.links
  boundaries : e.boundaries = d.boundaries
  nums : e.controls.map Control.num = d.controls.map Control.num
  control : ∀ n, (e.control n).holds = (d.control n).holds
  slotCount : e.slots.length = d.slots.length
  slot : ∀ i, SlotMoves (d.slot i) (e.slot i)

/-- An act of the Supervision Unit that changes no group is among these. -/
theorem Watched.moved {d e : Live} (h : Watched d e) (hg : e.groups = d.groups) : Moved d e where
  requests := h.requests
  out := h.out
  reports := h.reports
  appended := h.appended
  stored := h.stored
  orders := by rw [h.orders]; exact id
  powerCount := by rw [h.power]
  groups := hg
  links := h.links
  boundaries := h.boundaries
  nums := h.nums
  control n := Control.holds_of_base (h.control n)
  slotCount := h.slotCount
  slot := h.slot

theorem Calm.moved {d e : Live} (h : Calm d e) : Moved d e := h.watched.moved h.groups

theorem Moved.refl (d : Live) : Moved d d := (Calm.refl d).moved

theorem Moved.trans {d e f : Live} (h : Moved d e) (k : Moved e f) : Moved d f where
  requests l := (k.requests l).trans (h.requests l)
  out l := (k.out l).trans (h.out l)
  reports l hl := k.reports l (h.reports l hl)
  appended l := (h.appended l).trans (k.appended l)
  stored := k.stored.trans h.stored
  orders ho := k.orders (h.orders ho)
  powerCount := k.powerCount.trans h.powerCount
  groups := k.groups.trans h.groups
  links := k.links.trans h.links
  boundaries := k.boundaries.trans h.boundaries
  nums := k.nums.trans h.nums
  control n := (k.control n).trans (h.control n)
  slotCount := k.slotCount.trans h.slotCount
  slot i := (h.slot i).trans (k.slot i)

theorem Moved.thenCalm {d e f : Live} (h : Moved d e) (k : Calm e f) : Moved d f :=
  h.trans k.moved

theorem Moved.ite {d e f : Live} {c : Prop} [Decidable c] (h : Moved d e) (k : Moved d f) :
    Moved d (if c then e else f) := by
  split
  · exact h
  · exact k

theorem Moved.foldl {α : Type} (f : Live → α → Live) (h : ∀ d a, Moved d (f d a)) (l : List α)
    (d : Live) : Moved d (l.foldl f d) := by
  induction l generalizing d with
  | nil => exact Moved.refl d
  | cons a as ih => exact (h d a).trans (ih (f d a))

/-! ### Single updates -/

/-- A change of control records that shows in no lock, count or speed. -/
theorem moved_setControl (d : Live) (n : Nat) (f : Control → Control)
    (hf : ∀ c, (f c).holds = c.holds) : Moved d (d.setControl n f) := by
  have hn : ∀ c, (f c).num = c.num := fun c => by
    have := congrArg Control.num (hf c); exact this
  exact
    { requests := fun l => by cases l <;> rfl
      out := fun l => by cases l <;> rfl
      reports := fun l h => by cases l <;> exact h
      appended := fun l => by cases l <;> exact List.prefix_rfl
      stored := rfl, orders := id, powerCount := rfl, groups := rfl
      links := rfl, boundaries := rfl
      nums := d.setControl_nums n f hn
      control := fun m => by
        rw [d.control_setControl n m f hn]
        split
        · next h => rw [hf, h.1]
        · rfl
      slotCount := rfl
      slot := fun _ => SlotMoves.refl _ }

theorem moved_setPower (d : Live) (g : Nat) (f : PowerGroup → PowerGroup) :
    Moved d (d.setPower g f) where
  requests l := by cases l <;> rfl
  out l := by cases l <;> rfl
  reports l h := by cases l <;> exact h
  appended l := by cases l <;> exact List.prefix_rfl
  stored := rfl
  orders := id
  powerCount := by simp
  groups := rfl
  links := rfl
  boundaries := rfl
  nums := rfl
  control _ := rfl
  slotCount := rfl
  slot _ := SlotMoves.refl _

/-- A change of the pending throw list that stays within its capacity. -/
theorem moved_setOrders (d : Live) (l : List ThrowOrder)
    (h : d.orders.length ≤ Config.orderCapacity → l.length ≤ Config.orderCapacity) :
    Moved d (d.setOrders l) where
  requests l := by cases l <;> rfl
  out l := by cases l <;> rfl
  reports l h := by cases l <;> exact h
  appended l := by cases l <;> exact List.prefix_rfl
  stored := rfl
  orders := h
  powerCount := rfl
  groups := rfl
  links := rfl
  boundaries := rfl
  nums := rfl
  control _ := rfl
  slotCount := rfl
  slot _ := SlotMoves.refl _

theorem moved_setReeval (d : Live) (r : Bool) : Moved d (d.setReeval r) :=
  (watched_setReeval d r).moved rfl

theorem moved_dropOrder (d : Live) (p : Nat) : Moved d (d.dropOrder p) :=
  moved_setOrders d _ (fun h => Nat.le_trans (List.length_filter_le _ _) h)

/-! ### Completions and starts -/

theorem moved_endFault (v : Env) (n : Nat) (k : FaultKind) (d : Live) : Moved d (endFault v n k d) :=
  (watched_endFault v n k d).moved (groups_endFault v n k d)

theorem moved_reconsider (v : Env) (n : Nat) (d : Live) : Moved d (reconsider v n d) :=
  (watched_reconsider v n d).moved (groups_reconsider v n d)

theorem moved_foundInPosition (v : Env) (p : Nat) (d : Live) : Moved d (foundInPosition v p d) :=
  (watched_foundInPosition v p d).moved (groups_foundInPosition v p d)

theorem moved_raise_slow (v : Env) (n : Nat) (m : Option Nat) (d : Live) :
    Moved d (raise v n .slowThrow m d) :=
  (watched_raise v n _ m d).moved (groups_raise_slow v n m d)

theorem moved_completionFirst (v : Env) (p : Nat) (d : Live) : Moved d (completionFirst v p d) := by
  unfold completionFirst
  refine Moved.trans ?_ (moved_setReeval _ true)
  refine Moved.thenCalm ?_ (calm_testPoint v p _)
  refine Moved.trans ?_ (moved_reconsider v p _)
  exact (moved_endFault v p _ d).trans (moved_foundInPosition v p _)

theorem moved_endFlight (v : Env) (p : Nat) (f : Flight) (d : Live) : Moved d (endFlight v p f d) := by
  unfold endFlight
  have h : ∀ g k, Moved d ((d.setControl p (fun c => { c with flight := none })).setPower g k) :=
    fun g k => Moved.trans (by exact moved_setControl d p _ (fun _ => rfl)) (moved_setPower _ g k)
  split
  · exact Moved.ite ((h _ _).trans (moved_raise_slow v p _ _)) (h _ _)
  · exact h _ _

/-! ### Relations that every act on a throw keeps -/

/-- A control record but for what the Point Throw Sequencer keeps in it. -/
def Control.unthrown (c : Control) : Control := { c with flight := none, commanded := none, failed := false }

/-- A relation between live states that every single update and judgement of the Point Throw Sequencer
keeps. -/
structure Throwing (v : Env) (R : Live → Live → Prop) : Prop where
  refl : ∀ d, R d d
  trans : ∀ {d e f}, R d e → R e f → R d f
  control : ∀ d p f, (∀ c : Control, (f c).unthrown = c.unthrown) → R d (d.setControl p f)
  power : ∀ d g f, R d (d.setPower g f)
  orders : ∀ d l, (d.orders.length ≤ Config.orderCapacity → l.length ≤ Config.orderCapacity) →
    R d (d.setOrders l)
  ordered : ∀ d p pos, R d (d.report (.orderPoint p pos))
  first : ∀ p d, R d (completionFirst v p d)
  ended : ∀ p f d, R d (endFlight v p f d)
  evaluated : ∀ p d, R d (evaluateElement v p d)
  reconsidered : ∀ p d, R d (reconsider v p d)

namespace Throwing

variable {v : Env} {R S : Live → Live → Prop}

/-- A weaker relation that is itself reflexive and transitive. -/
theorem lift (h : Throwing v R) (refl : ∀ d, S d d)
    (trans : ∀ {d e f}, S d e → S e f → S d f) (k : ∀ {d e}, R d e → S d e) : Throwing v S where
  refl := refl
  trans := trans
  control d p f hf := k (h.control d p f hf)
  power d g f := k (h.power d g f)
  orders d l hl := k (h.orders d l hl)
  ordered d p pos := k (h.ordered d p pos)
  first p d := k (h.first p d)
  ended p f d := k (h.ended p f d)
  evaluated p d := k (h.evaluated p d)
  reconsidered p d := k (h.reconsidered p d)

/-- Two relations at once. -/
theorem both (h : Throwing v R) (k : Throwing v S) : Throwing v (fun d e => R d e ∧ S d e) where
  refl d := ⟨h.refl d, k.refl d⟩
  trans a b := ⟨h.trans a.1 b.1, k.trans a.2 b.2⟩
  control d p f hf := ⟨h.control d p f hf, k.control d p f hf⟩
  power d g f := ⟨h.power d g f, k.power d g f⟩
  orders d l hl := ⟨h.orders d l hl, k.orders d l hl⟩
  ordered d p pos := ⟨h.ordered d p pos, k.ordered d p pos⟩
  first p d := ⟨h.first p d, k.first p d⟩
  ended p f d := ⟨h.ended p f d, k.ended p f d⟩
  evaluated p d := ⟨h.evaluated p d, k.evaluated p d⟩
  reconsidered p d := ⟨h.reconsidered p d, k.reconsidered p d⟩

theorem foldl {α : Type} (h : Throwing v R) (f : Live → α → Live) (hf : ∀ d a, R d (f d a))
    (l : List α) (d : Live) : R d (l.foldl f d) := by
  induction l generalizing d with
  | nil => exact h.refl d
  | cons a as ih => exact h.trans (hf d a) (ih (f d a))

theorem ite {d e f : Live} {c : Prop} [Decidable c] (h : R d e) (k : R d f) :
    R d (if c then e else f) := by
  split
  · exact h
  · exact k

theorem dropOrder (h : Throwing v R) (d : Live) (p : Nat) : R d (d.dropOrder p) :=
  h.orders d _ (fun hl => Nat.le_trans (List.length_filter_le _ _) hl)

theorem arrival (h : Throwing v R) (p : Nat) (d : Live) : R d (arrival v p d).1 := by
  unfold Machine.arrival
  split
  · next f hf =>
    split
    · have h : R d (d.setControl p (fun c =>
          { c with flight := some (f.arrive v.now v.timing.settle) })) :=
        h.control d p _ (fun _ => rfl)
      simp only
      split <;> exact h
    · exact h.refl d
  · exact h.refl d

variable {q : Requeue}

theorem completion (h : Throwing v R) (hq : ∀ b d, R d (q v b d)) (run : Option Nat) (p : Nat)
    (d : Live) : R d (completion q v run p d) :=
  h.trans (h.trans (h.first p d) (hq run _)) (h.evaluated p _)

theorem startThrow (h : Throwing v R) (hq : ∀ b d, R d (q v b d)) (g : Nat) (o : ThrowOrder)
    (d : Live) : R d (startThrow q v g o d).1 := by
  have key : ∀ e : Live, R d e → ∀ r : Live × Option Flight, Machine.arrival v o.point e = r →
      R d (match r with
        | (d5, some f1) =>
          (Machine.completion q v (some g) o.point (endFlight v o.point f1 d5), true)
        | (d5, none) => (d5, false) : Live × Bool).1 := by
    intro e he r hr
    have ha := h.arrival o.point e
    rw [hr] at ha
    obtain ⟨d5, f⟩ := r
    cases f with
    | some f1 => exact h.trans (h.trans (h.trans he ha) (h.ended _ f1 d5)) (h.completion hq _ _ _)
    | none => exact h.trans he ha
  unfold Machine.startThrow
  refine key _ ?_ _ rfl
  refine h.trans ?_ (h.reconsidered _ _)
  refine h.trans ?_ (h.evaluated _ _)
  refine h.trans ?_ (h.ordered _ _ _)
  refine h.trans ?_ (h.power _ _ _)
  exact h.trans (h.dropOrder d o.point) (h.control _ _ _ (fun _ => rfl))

theorem completeAtOnce (h : Throwing v R) (hq : ∀ b d, R d (q v b d)) (g : Nat) (o : ThrowOrder)
    (d : Live) : R d (completeAtOnce q v g o d) := by
  unfold Machine.completeAtOnce
  refine h.trans ?_ (h.completion hq _ _ _)
  refine h.trans ?_ (h.ordered _ _ _)
  exact h.trans (h.dropOrder d o.point) (h.control _ _ _ (fun _ => rfl))

theorem arbitrate (h : Throwing v R) (hq : ∀ b d, R d (q v b d)) (g : Nat) (o : ThrowOrder)
    (d : Live) : R d (arbitrate q v g o d).1 := by
  unfold Machine.arbitrate
  split
  · exact h.refl d
  · split
    · exact h.completeAtOnce hq g o d
    · split
      · exact h.startThrow hq g o d
      · exact h.refl d

theorem arbitrateAt (h : Throwing v R) (hq : ∀ b d, R d (q v b d)) (g : Nat) (acc : Live × Bool)
    (p : Nat) : R acc.1 (arbitrateAt q v g acc p).1 := by
  unfold Machine.arbitrateAt
  split
  · exact h.arbitrate hq g _ acc.1
  · exact h.refl acc.1

theorem arbiterRun (h : Throwing v R) (hq : ∀ b d, R d (q v b d)) (g : Nat) (d : Live) :
    R d (arbiterRun q v g d).1 := by
  unfold Machine.arbiterRun
  have key : ∀ (ps : List Nat) (acc : Live × Bool), R acc.1
      (ps.foldl (Machine.arbitrateAt q v g) acc).1 := by
    intro ps
    induction ps with
    | nil => exact fun acc => h.refl _
    | cons p ps ih => exact fun acc => h.trans (h.arbitrateAt hq g acc p) (ih _)
  exact key _ (d, false)

theorem arbiterRuns (h : Throwing v R) (hq : ∀ b d, R d (q v b d)) (g k : Nat) (d : Live) :
    R d (arbiterRuns q v g k d) := by
  induction k generalizing d with
  | zero => exact h.refl d
  | succ k ih =>
    unfold Machine.arbiterRuns
    have hr := h.arbiterRun hq g d
    exact ite (h.trans hr (ih _)) hr

/-- The arbiter of a group. -/
theorem runArbiter (h : Throwing v R) (hq : ∀ b d, R d (q v b d)) (g : Nat) (d : Live) :
    R d (runArbiter q v g d) := h.arbiterRuns hq g _ d

theorem callArbiter (h : Throwing v R) (hq : ∀ b d, R d (q v b d)) (run : Option Nat) (g : Nat)
    (d : Live) : R d (callArbiter q v run g d) := ite (h.refl d) (h.runArbiter hq g d)

theorem runArbiters (h : Throwing v R) (hq : ∀ b d, R d (q v b d)) (which : Nat → Live → Bool)
    (d : Live) : R d (runArbiters q v which d) :=
  h.foldl _ (fun d g => ite (h.runArbiter hq g d) (h.refl d)) _ _

theorem retarget (h : Throwing v R) (hq : ∀ b d, R d (q v b d)) (run : Option Nat) (p : Nat)
    (pos : Position) (d : Live) : R d (retarget q v run p pos d) := by
  have key : ∀ e : Live, R d e → ∀ r : Live × Option Flight, Machine.arrival v p e = r →
      R d (match r.2 with
        | some f1 => Machine.callArbiter q v run (v.groupOf p)
            (Machine.completion q v run p (endFlight v p f1 (evaluateElement v p r.1)))
        | none => evaluateElement v p r.1) := by
    intro e he r hr
    have ha := h.arrival p e
    rw [hr] at ha
    have h3 := h.trans (h.trans he ha) (h.evaluated p r.1)
    split
    · exact h.trans (h.trans (h.trans h3 (h.ended p _ _)) (h.completion hq run p _))
        (h.callArbiter hq run _ _)
    · exact h3
  unfold Machine.retarget
  refine key _ ?_ _ rfl
  refine h.trans ?_ (h.ordered _ _ _)
  exact h.control _ _ _ (fun _ => rfl)

/-- An order handed to the Point Throw Sequencer. -/
theorem applyOrder (h : Throwing v R) (hq : ∀ b d, R d (q v b d)) (run : Option Nat) (p : Nat)
    (pos : Position) (org : Origin) (d : Live) : R d (applyOrder q v run p pos org d) := by
  unfold Machine.applyOrder
  split
  · exact ite (h.refl d) (h.retarget hq run p pos d)
  · split
    · exact h.trans (h.orders d _ (fun hl => by simpa using hl)) (h.callArbiter hq run _ _)
    · split
      · next hl => exact h.trans (h.orders d _ (fun _ => by simp; omega)) (h.callArbiter hq run _ _)
      · exact h.refl d

/-- The orders of a take-up. -/
theorem handOrders (h : Throwing v R) (hq : ∀ b d, R d (q v b d)) (run : Option Nat)
    (os : List (Nat × Position × Origin)) (d : Live) : R d (handOrders q v run os d) :=
  h.foldl _ (fun d _ => ite (h.applyOrder hq run _ _ _ d) (h.refl d)) os d

end Throwing

/-- Every act on a throw keeps what `Moved` says. -/
theorem moving (v : Env) : Throwing v Moved where
  refl := Moved.refl
  trans := Moved.trans
  control d p f hf := moved_setControl d p f (fun c => by have := congrArg Control.holds (hf c); exact this)
  power := moved_setPower
  orders := moved_setOrders
  ordered d _ _ := (calm_report d _).moved
  first := moved_completionFirst v
  ended := moved_endFlight v
  evaluated p d := (calm_evaluateElement v p d).moved
  reconsidered := moved_reconsider v

theorem moved_arrival (v : Env) (p : Nat) (d : Live) : Moved d (arrival v p d).1 :=
  (moving v).arrival p d

/-! ### An arbiter with the re-evaluation left asked for -/

/-- The arbiter of a group, inside a release or a re-evaluation. -/
theorem moved_runArbiter_later (v : Env) (g : Nat) (d : Live) :
    Moved d (runArbiter .later v g d) := (moving v).runArbiter (fun _ => Moved.refl) g d

/-- The orders of a take-up. -/
theorem moved_handOrders (v : Env) (run : Option Nat) (os : List (Nat × Position × Origin)) (d : Live) :
    Moved d (handOrders .later v run os d) := (moving v).handOrders (fun _ => Moved.refl) run os d

/-- With no order pending the arbiter does nothing. -/
theorem runArbiter_of_no_orders (q : Requeue) (v : Env) (g : Nat) (d : Live) (h : d.orders = []) :
    runArbiter q v g d = d := by
  have key : ∀ k, arbiterRuns q v g k d = d := by
    intro k
    cases k with
    | zero => rfl
    | succ k => simp [arbiterRuns, arbiterRun, h]
  exact key _

/-! ### Failures, detection, withdrawal -/

theorem moved_failFlight (v : Env) (p : Nat) (d : Live) : Moved d (failFlight v p d) := by
  unfold failFlight
  refine Moved.trans ?_ (moved_reconsider v p _)
  refine Moved.trans ?_ (moved_setPower _ _ _)
  exact moved_setControl _ _ _ (fun _ => rfl)

theorem moved_detectionChanged (v : Env) (p : Nat) (d : Live) :
    Moved d (detectionChanged v p d).1 := by
  unfold detectionChanged
  split
  · split
    · exact moved_arrival v p d
    · exact moved_setControl _ _ _ (fun _ => rfl)
  · exact (moved_reconsider v p d).trans (moved_foundInPosition v p _)

theorem moved_withdrawOrder (v : Env) (p : Nat) (d : Live) : Moved d (withdrawOrder v p d) := by
  unfold withdrawOrder
  split
  · split
    · exact (moved_dropOrder d p).thenCalm (calm_testPoint v p _)
    · exact Moved.refl d
  · exact Moved.refl d

theorem moved_pointsReleased (v : Env) (ps : List Nat) (d : Live) :
    Moved d (pointsReleased v ps d) :=
  (Moved.foldl _ (fun d p => moved_withdrawOrder v p d) ps d).trans
    (Moved.foldl _ (fun d p => moved_runArbiter_later v (v.groupOf p) d) ps _)

/-- A release handed on: only the removals made before it change a lock or a count. -/
theorem moved_handOn (v : Env) (r : Release) : Moved r.live (r.handOn v) := by
  unfold Release.handOn
  have h : Moved r.live (r.signals.foldl (fun d n => computeAspect v n d)
      (pointsReleased v r.points r.live)) :=
    (moved_pointsReleased v r.points r.live).trans
      (Moved.foldl _ (fun d n => (calm_computeAspect v n d).moved) r.signals _)
  exact Moved.ite (h.trans (moved_setReeval _ true)) h

end Sys2Proof.Machine
end

