-- ==== Sys2Proof/Laws/Handover.lean ====
section
/-! SUPPORT. What the Handover Controller's acts can do: sending a frame, losing a link and judging an
exit slot (`Sent`) keep the lasting fields of every boundary; asking for a direction or an acceptance
(`Told`) changes boundaries and the needs of exit slots. Neither touches a lock, a throw or a stored
request (R150 to R163). -/

namespace Sys2Proof.Machine

open Sys2Proof

/-- The queues of a link are within their capacities (R149). -/
def Link.within (k : Link) : Prop :=
  k.rx.length ≤ Config.receiveCapacity ∧ k.tx.length ≤ Config.transmitCapacity

/-- The fields of a boundary that no loss of its link changes (R152). -/
def Boundary.lasting (x : Boundary) : Boundary :=
  { x with reqExpiry := none, acceptance := .none, accExpiry := none, consExpiry := none,
           views := none, waiting := false }

/-- An acceptance as a loss of the link may leave it: REQUESTED becomes NONE (R152). -/
def keptAcceptance (x y : Acceptance) : Prop := y = x ∨ (x = .requested ∧ y = .none)

theorem keptAcceptance.trans {x y z : Acceptance} (h : keptAcceptance x y)
    (k : keptAcceptance y z) : keptAcceptance x z := by
  unfold keptAcceptance at *
  rcases h with rfl | ⟨rfl, rfl⟩
  · exact k
  · rcases k with rfl | ⟨h, _⟩
    · exact Or.inr ⟨rfl, rfl⟩
    · cases h

/-- What sending, losing a link or judging an exit slot can do. -/
structure Sent (d e : Live) : Prop where
  requests : ∀ l, (e.lane l).requests = (d.lane l).requests
  out : ∀ l, (e.lane l).out = (d.lane l).out
  reports : ∀ l, (d.lane l).reports.length ≤ Config.reportCapacity →
    (e.lane l).reports.length ≤ Config.reportCapacity
  appended : ∀ l, (d.lane l).reports <+: (e.lane l).reports
  stored : e.stored = d.stored
  orders : e.orders = d.orders
  power : e.power = d.power
  groupCount : e.groups.length = d.groups.length
  active : ∀ g, (d.group g).active = true → e.group g = d.group g
  linkCount : e.links.length = d.links.length
  within : (∀ k ∈ d.links, k.within) → ∀ k ∈ e.links, k.within
  boundaryNums : e.boundaries.map Boundary.num = d.boundaries.map Boundary.num
  boundary : ∀ b, (e.boundary b).lasting = (d.boundary b).lasting
  acceptance : ∀ b, keptAcceptance (d.boundary b).acceptance (e.boundary b).acceptance
  nums : e.controls.map Control.num = d.controls.map Control.num
  control : ∀ n, (e.control n).base = (d.control n).base
  slotCount : e.slots.length = d.slots.length
  slot : ∀ i, SlotMoves (d.slot i) (e.slot i)

theorem Watched.sent {d e : Live} (h : Watched d e) : Sent d e where
  requests := h.requests
  out := h.out
  reports := h.reports
  appended := h.appended
  stored := h.stored
  orders := h.orders
  power := h.power
  groupCount := h.groupCount
  active := h.active
  linkCount := by rw [h.links]
  within := by rw [h.links]; exact id
  boundaryNums := by rw [h.boundaries]
  boundary b := by rw [Live.boundary_congr h.boundaries]
  acceptance b := by rw [Live.boundary_congr h.boundaries]; exact Or.inl rfl
  nums := h.nums
  control := h.control
  slotCount := h.slotCount
  slot := h.slot

theorem Calm.sent {d e : Live} (h : Calm d e) : Sent d e := h.watched.sent
theorem Sent.refl (d : Live) : Sent d d := (Calm.refl d).sent

theorem Sent.trans {d e f : Live} (h : Sent d e) (k : Sent e f) : Sent d f where
  requests l := (k.requests l).trans (h.requests l)
  out l := (k.out l).trans (h.out l)
  reports l hl := k.reports l (h.reports l hl)
  appended l := (h.appended l).trans (k.appended l)
  stored := k.stored.trans h.stored
  orders := k.orders.trans h.orders
  power := k.power.trans h.power
  groupCount := k.groupCount.trans h.groupCount
  active g hg := by
    have h1 := h.active g hg
    rw [k.active g (by rw [h1]; exact hg), h1]
  linkCount := k.linkCount.trans h.linkCount
  within hw := k.within (h.within hw)
  boundaryNums := k.boundaryNums.trans h.boundaryNums
  boundary b := (k.boundary b).trans (h.boundary b)
  acceptance b := (h.acceptance b).trans (k.acceptance b)
  nums := k.nums.trans h.nums
  control n := (k.control n).trans (h.control n)
  slotCount := k.slotCount.trans h.slotCount
  slot i := (h.slot i).trans (k.slot i)

theorem Sent.ite {d e f : Live} {c : Prop} [Decidable c] (h : Sent d e) (k : Sent d f) :
    Sent d (if c then e else f) := by
  split
  · exact h
  · exact k

theorem Sent.foldl {α : Type} (f : Live → α → Live) (h : ∀ d a, Sent d (f d a)) (l : List α)
    (d : Live) : Sent d (l.foldl f d) := by
  induction l generalizing d with
  | nil => exact Sent.refl d
  | cons a as ih => exact (h d a).trans (ih (f d a))

/-! ### Single updates -/

/-- The records of a list after a change of one are old ones or the changed one. -/
theorem mem_modify {α : Type} (l : List α) (i : Nat) (f : α → α) (x : α) (h : x ∈ l.modify i f) :
    x ∈ l ∨ ∃ y ∈ l, x = f y := by
  rw [List.mem_iff_getElem?] at h
  obtain ⟨k, hk⟩ := h
  rw [List.getElem?_modify] at hk
  cases hy : l[k]? with
  | none => rw [hy] at hk; cases hk
  | some y =>
    rw [hy] at hk
    by_cases e : i = k
    · simp only [e, if_true, Option.map_eq_map, Option.map_some, Option.some.injEq] at hk
      exact Or.inr ⟨y, List.mem_of_getElem? hy, hk.symm⟩
    · simp only [e, if_false, Option.map_eq_map, Option.map_some, Option.some.injEq] at hk
      subst hk
      exact Or.inl (List.mem_of_getElem? hy)

theorem sent_setLink (d : Live) (l : Nat) (f : Link → Link) (hf : ∀ k, k.within → (f k).within) :
    Sent d (d.setLink l f) where
  requests l := by cases l <;> rfl
  out l := by cases l <;> rfl
  reports l h := by cases l <;> exact h
  appended l := by cases l <;> exact List.prefix_rfl
  stored := rfl
  orders := rfl
  power := rfl
  groupCount := rfl
  active _ _ := rfl
  linkCount := by simp
  within h k hk := by
    rcases mem_modify _ _ _ _ hk with h1 | ⟨y, hy, rfl⟩
    · exact h k h1
    · exact hf y (h y hy)
  boundaryNums := rfl
  boundary _ := rfl
  acceptance _ := Or.inl rfl
  nums := rfl
  control _ := rfl
  slotCount := rfl
  slot _ := SlotMoves.refl _

/-- A change of a boundary record that shows in no lasting field. -/
theorem sent_setBoundary (d : Live) (b : Nat) (f : Boundary → Boundary)
    (hf : ∀ x, (f x).lasting = x.lasting) (ha : ∀ x, keptAcceptance x.acceptance (f x).acceptance) :
    Sent d (d.setBoundary b f) := by
  have hn : ∀ x, (f x).num = x.num := fun x => by
    have := congrArg Boundary.num (hf x); exact this
  exact
    { requests := fun l => by cases l <;> rfl
      out := fun l => by cases l <;> rfl
      reports := fun l h => by cases l <;> exact h
      appended := fun l => by cases l <;> exact List.prefix_rfl
      stored := rfl, orders := rfl, power := rfl, groupCount := rfl, active := fun _ _ => rfl
      linkCount := rfl, within := id
      boundaryNums := d.setBoundary_nums b f hn
      boundary := fun m => by
        rw [d.boundary_setBoundary b m f hn]
        split
        · next h => rw [hf, h.1]
        · rfl
      acceptance := fun m => by
        rw [d.boundary_setBoundary b m f hn]
        split
        · next h => rw [h.1]; exact ha _
        · exact Or.inl rfl
      nums := rfl, control := fun _ => rfl, slotCount := rfl, slot := fun _ => SlotMoves.refl _ }

theorem sent_setReeval (d : Live) (r : Bool) : Sent d (d.setReeval r) := (watched_setReeval d r).sent

/-! ### Sending, losing a link, judging an exit slot -/

theorem sent_sendStatus (v : Env) (l : Nat) (d : Live) : Sent d (sendStatus v l d) :=
  sent_setLink d l _ (fun _ h => h)

theorem sent_reportChange (b : Nat) (before : Boundary) (r : Option Nat) (d : Live) :
    Sent d (reportChange b before r d) := Sent.ite (calm_report d _).sent (Sent.refl d)

theorem calm_evaluateExit (v : Env) (b : Nat) (d : Live) : Calm d (evaluateExit v b d) := by
  unfold evaluateExit
  split
  · exact calm_evaluate v _ d
  · exact Calm.refl d

theorem sent_handOnBoundary (v : Env) (b : Nat) (before : Boundary) (d : Live) :
    Sent d (handOnBoundary v b before d) := by
  unfold handOnBoundary
  have h1 : ∀ c : Bool, Sent d (if c then evaluateExit v b d else d) :=
    fun c => Sent.ite (calm_evaluateExit v b d).sent (Sent.refl d)
  have h2 : ∀ (c : Bool) (p : Prop) [Decidable p], Sent d (if p then
      (match (d.boundary b).exitSlot with
        | some i => testPositioning v i (if c then evaluateExit v b d else d)
        | none => if c then evaluateExit v b d else d)
      else if c then evaluateExit v b d else d) := by
    intro c p _
    refine Sent.ite ?_ (h1 c)
    split
    · exact (h1 c).trans (calm_testPositioning v _ _).sent
    · exact h1 c
  exact Sent.ite ((h2 _ _).trans (sent_setReeval _ true)) (h2 _ _)

/-- A boundary event is its changes, then reports and judgements. -/
theorem sent_boundaryEvent (v : Env) (b : Nat) (r : Option Nat) (f : Live → Live) (d : Live) :
    Sent (f d) (boundaryEvent v b r f d) :=
  (sent_reportChange b _ r (f d)).trans (sent_handOnBoundary v b _ _)

theorem calm_evaluateExits (v : Env) (bs : List BoundaryDef) (d : Live) :
    Calm d (evaluateExits v bs d) :=
  Calm.eachSlot _ (fun i e => Calm.ite (calm_evaluate v i e) (Calm.refl e)) _

/-- Leaving UP clears no lasting field of a boundary (R152). -/
theorem sent_clearUp (v : Env) (l : Nat) (d : Live) : Sent d
    ((v.linkBoundaries l).foldl (fun d b => d.setBoundary b.number Boundary.leaveUp) d) := by
  refine Sent.foldl _ (fun d b => ?_) _ _
  refine sent_setBoundary d b.number Boundary.leaveUp (fun _ => rfl) (fun x => ?_)
  unfold keptAcceptance Boundary.leaveUp
  by_cases h : x.acceptance = .requested <;> simp [h]

theorem sent_raiseAll (v : Env) (l : Nat) (st : LinkState) (d : Live) : Sent d
    (if st = .lost then
      (v.linkBoundaries l).foldl (fun d b => raise v b.element .linkLost none d) d else d) :=
  Sent.ite (Sent.foldl _ (fun d (b : BoundaryDef) => (watched_raise v b.element _ _ d).sent) _ _) (Sent.refl d)

theorem sent_leaveUp (v : Env) (l : Nat) (st : LinkState) (d : Live) : Sent d (leaveUp v l st d) := by
  unfold leaveUp
  refine Sent.trans ?_ (Sent.ite (sent_sendStatus v l _) (Sent.refl _))
  refine Sent.trans ?_ (watched_edge v _ _ _).sent
  refine Sent.trans ?_ (Sent.ite (sent_setReeval _ true) (Sent.refl _))
  refine Sent.trans ?_ (calm_evaluateExits v _ _).sent
  refine Sent.trans ?_ (Sent.foldl _ (fun e b => sent_reportChange _ _ _ e) _ _)
  refine Sent.trans ?_ (calm_report _ _).sent
  refine Sent.trans ?_ (sent_raiseAll v l st _)
  refine Sent.trans ?_ (sent_clearUp v l _)
  exact sent_setLink d l _ (fun _ _ => ⟨by simp, by simp⟩)

theorem sent_becomeUp (v : Env) (l : Nat) (d : Live) : Sent d (becomeUp v l d) := by
  unfold becomeUp
  refine Sent.trans ?_ (sent_setReeval _ true)
  refine Sent.trans ?_ (calm_evaluateExits v _ _).sent
  refine Sent.trans ?_ (Sent.foldl _ (fun d b => (watched_endFault v _ _ d).sent) _ _)
  refine Sent.trans ?_ (calm_report _ _).sent
  exact sent_setLink d l _ (fun _ h => h)

theorem sent_setLink_tx (d : Live) (l : Nat) (f : NFrame)
    (h : (d.link l).tx.length < Config.transmitCapacity) :
    Sent d (d.setLink l (fun k => { k with tx := k.tx ++ [f] })) := by
  refine { sent_setLink d l (fun k => k) (fun _ h => h) with
    linkCount := by simp
    within := ?_ }
  intro hw k hk
  rw [List.mem_iff_getElem?] at hk
  obtain ⟨j, hj⟩ := hk
  rw [Live.setLink_links, List.getElem?_modify] at hj
  cases hy : d.links[j]? with
  | none => rw [hy] at hj; simp at hj
  | some y =>
    have hym := hw y (List.mem_of_getElem? hy)
    rw [hy] at hj
    by_cases e : l = j
    · subst e
      simp only [if_true, Option.map_eq_map, Option.map_some, Option.some.injEq] at hj
      subst hj
      have hl : d.link l = y := by
        unfold Live.link
        rw [List.getD_eq_getElem?_getD, hy]; rfl
      rw [hl] at h
      exact ⟨hym.1, by simp; omega⟩
    · simp only [e, if_false, Option.map_eq_map, Option.map_some, Option.some.injEq] at hj
      subst hj
      exact hym

/-- A frame queued, or the link lost by a full transmit queue. -/
theorem sent_enqueue (v : Env) (l : Nat) (f : NFrame) (d : Live) : Sent d (enqueue v l f d) := by
  unfold enqueue
  split
  · split
    · next h => exact sent_setLink_tx d l f h
    · exact sent_leaveUp v l _ d
  · exact Sent.refl d

theorem sent_sendFrom (v : Env) (b : Nat) (f : Nat → NFrame) (d : Live) :
    Sent d (sendFrom v b f d) := by
  unfold sendFrom
  split
  · exact sent_enqueue v _ _ d
  · exact Sent.refl d

theorem sent_trySeek (v : Env) (b : Nat) (d : Live) : Sent d (trySeek v b d) := by
  unfold trySeek
  split
  · refine Sent.ite (Sent.trans ?_ (sent_enqueue v _ _ _)) (Sent.refl d)
    exact sent_setBoundary d b _ (fun _ => rfl) (fun _ => Or.inl rfl)
  · exact Sent.refl d

/-! ### Direction, acceptance and needs -/

/-- A slot without the fields an evaluation or the Handover Controller may change. -/
def Slot.body (s : Slot) : Slot := { s.core with dirNeed := false, accNeed := false }

/-- What the Handover Controller may do to a slot. -/
structure SlotTold (s t : Slot) : Prop where
  body : t.body = s.body
  still : s.needsExit = false → t.state = s.state
  goes : s.needsExit = true → t.needsExit = true
  set : t.state = .setting → s.state = .setting
  free : s = Slot.free → t = Slot.free
  untimed : s.state = .setting → s.setting = none → t.state = .setting ∧ t.setting = none

theorem SlotMoves.told {s t : Slot} (h : SlotMoves s t) : SlotTold s t :=
  ⟨by unfold Slot.body; rw [h.core], fun k => by rw [h.still k], h.goes,
    fun k => by rw [← h.set k]; exact k, fun k => by rw [h.still (by rw [k]; rfl), k],
    fun k n => by rw [h.untimed k n]; exact ⟨k, n⟩⟩

theorem SlotTold.refl (s : Slot) : SlotTold s s := (SlotMoves.refl s).told

theorem SlotTold.trans {s t u : Slot} (h : SlotTold s t) (k : SlotTold t u) : SlotTold s u := by
  refine ⟨k.body.trans h.body, fun hs => ?_, fun hs => k.goes (h.goes hs),
    fun hs => h.set (k.set hs), fun hs => k.free (h.free hs),
    fun hs hn => (h.untimed hs hn).elim k.untimed⟩
  have ht := h.still hs
  rw [k.still (by unfold Slot.needsExit at *; rw [ht]; exact hs), ht]

/-- The route of a slot stands. -/
theorem SlotTold.route {s t : Slot} (h : SlotTold s t) : t.route = s.route := by
  have := congrArg Slot.route h.body; exact this

/-- What asking for a direction or an acceptance can do. -/
structure Told (d e : Live) : Prop where
  requests : ∀ l, (e.lane l).requests = (d.lane l).requests
  out : ∀ l, (e.lane l).out = (d.lane l).out
  reports : ∀ l, (d.lane l).reports.length ≤ Config.reportCapacity →
    (e.lane l).reports.length ≤ Config.reportCapacity
  appended : ∀ l, (d.lane l).reports <+: (e.lane l).reports
  stored : e.stored = d.stored
  orders : e.orders = d.orders
  power : e.power = d.power
  groupCount : e.groups.length = d.groups.length
  active : ∀ g, (d.group g).active = true → e.group g = d.group g
  linkCount : e.links.length = d.links.length
  within : (∀ k ∈ d.links, k.within) → ∀ k ∈ e.links, k.within
  boundaryNums : e.boundaries.map Boundary.num = d.boundaries.map Boundary.num
  berth : ∀ b, (e.boundary b).berthLocked = (d.boundary b).berthLocked
    ∧ (e.boundary b).marks = (d.boundary b).marks
  exit : ∀ b i, (e.boundary b).exitSlot = some i → (d.boundary b).exitSlot = some i
  nums : e.controls.map Control.num = d.controls.map Control.num
  control : ∀ n, (e.control n).base = (d.control n).base
  slotCount : e.slots.length = d.slots.length
  slot : ∀ i, SlotTold (d.slot i) (e.slot i)

theorem Sent.told {d e : Live} (h : Sent d e) : Told d e where
  requests := h.requests
  out := h.out
  reports := h.reports
  appended := h.appended
  stored := h.stored
  orders := h.orders
  power := h.power
  groupCount := h.groupCount
  active := h.active
  linkCount := h.linkCount
  within := h.within
  boundaryNums := h.boundaryNums
  berth b := ⟨by have := congrArg Boundary.berthLocked (h.boundary b); exact this,
    by have := congrArg Boundary.marks (h.boundary b); exact this⟩
  exit b i hi := by
    have := congrArg Boundary.exitSlot (h.boundary b)
    rw [← hi]; exact this.symm
  nums := h.nums
  control := h.control
  slotCount := h.slotCount
  slot i := (h.slot i).told

theorem Told.refl (d : Live) : Told d d := (Sent.refl d).told

theorem Told.trans {d e f : Live} (h : Told d e) (k : Told e f) : Told d f where
  requests l := (k.requests l).trans (h.requests l)
  out l := (k.out l).trans (h.out l)
  reports l hl := k.reports l (h.reports l hl)
  appended l := (h.appended l).trans (k.appended l)
  stored := k.stored.trans h.stored
  orders := k.orders.trans h.orders
  power := k.power.trans h.power
  groupCount := k.groupCount.trans h.groupCount
  active g hg := by
    have h1 := h.active g hg
    rw [k.active g (by rw [h1]; exact hg), h1]
  linkCount := k.linkCount.trans h.linkCount
  within hw := k.within (h.within hw)
  boundaryNums := k.boundaryNums.trans h.boundaryNums
  berth b := ⟨(k.berth b).1.trans (h.berth b).1, (k.berth b).2.trans (h.berth b).2⟩
  exit b i hi := h.exit b i (k.exit b i hi)
  nums := k.nums.trans h.nums
  control n := (k.control n).trans (h.control n)
  slotCount := k.slotCount.trans h.slotCount
  slot i := (h.slot i).trans (k.slot i)

theorem Told.ite {d e f : Live} {c : Prop} [Decidable c] (h : Told d e) (k : Told d f) :
    Told d (if c then e else f) := by
  split
  · exact h
  · exact k

theorem told_setSlot (d : Live) (i : Nat) (f : Slot → Slot) (hf : SlotTold (d.slot i) (f (d.slot i))) :
    Told d (d.setSlot i f) where
  requests l := by cases l <;> rfl
  out l := by cases l <;> rfl
  reports l h := by cases l <;> exact h
  appended l := by cases l <;> exact List.prefix_rfl
  stored := rfl
  orders := rfl
  power := rfl
  groupCount := rfl
  active _ _ := rfl
  linkCount := rfl
  within := id
  boundaryNums := rfl
  berth _ := ⟨rfl, rfl⟩
  exit _ _ := id
  nums := rfl
  control _ := rfl
  slotCount := by simp
  slot j := by
    rw [d.slot_setSlot]
    split
    · next h => rw [← h.1]; exact hf
    · exact SlotTold.refl _

/-- A change of a boundary record that keeps its number and its berth, and sets no exit slot. -/
theorem told_setBoundary (d : Live) (b : Nat) (f : Boundary → Boundary)
    (hf : ∀ x, (f x).num = x.num)
    (hb : ∀ x, (f x).berthLocked = x.berthLocked ∧ (f x).marks = x.marks)
    (hx : ∀ x i, (f x).exitSlot = some i → x.exitSlot = some i := by exact fun _ _ h => h) :
    Told d (d.setBoundary b f) where
  requests l := by cases l <;> rfl
  out l := by cases l <;> rfl
  reports l h := by cases l <;> exact h
  appended l := by cases l <;> exact List.prefix_rfl
  stored := rfl
  orders := rfl
  power := rfl
  groupCount := rfl
  active _ _ := rfl
  linkCount := rfl
  within := id
  boundaryNums := d.setBoundary_nums b f hf
  berth c := by
    rw [d.boundary_setBoundary b c f hf]
    split
    · next h => rw [h.1]; exact hb _
    · exact ⟨rfl, rfl⟩
  exit c i hi := by
    rw [d.boundary_setBoundary b c f hf] at hi
    split at hi
    · next h => rw [h.1]; exact hx _ i hi
    · exact hi
  nums := rfl
  control _ := rfl
  slotCount := rfl
  slot _ := SlotTold.refl _

theorem told_setNeeds (b : Nat) (f : Slot → Slot) (hf : ∀ s, SlotTold s (f s)) (d : Live) :
    Told d (setNeeds b f d) := by
  unfold setNeeds
  split
  · exact told_setSlot d _ f (hf _)
  · exact Told.refl d

theorem told_setDirection (b : Nat) (dir : Direction) (d : Live) :
    Told d (setDirection b dir d) := by
  unfold setDirection
  have h : Told d (d.setBoundary b (fun x => { x with direction := dir })) :=
    told_setBoundary d b _ (fun _ => rfl) (fun _ => ⟨rfl, rfl⟩)
  refine Told.ite (h.trans ?_) h
  refine told_setNeeds b _ (fun _ => ?_) _
  exact ⟨rfl, fun _ => rfl, id, id, fun h => by rw [h]; rfl, fun h n => ⟨h, n⟩⟩

theorem told_setAcceptance (b : Nat) (acc : Acceptance) (t : Option Time) (d : Live) :
    Told d (setAcceptance b acc t d) := by
  unfold setAcceptance
  have h : Told d (d.setBoundary b (fun x =>
      { x with
        acceptance := acc, accExpiry := t
        awaiting := if acc = .none then false else x.awaiting })) :=
    told_setBoundary d b _ (fun _ => rfl) (fun _ => ⟨rfl, rfl⟩)
  refine Told.ite (h.trans ?_) ?_
  · refine told_setNeeds b _ (fun _ => ?_) _
    exact ⟨rfl, fun _ => rfl, id, id, fun h => by rw [h]; rfl, fun h n => ⟨h, n⟩⟩
  refine Told.ite (h.trans (told_setNeeds b _ (fun s => ?_) _)) h
  split
  · next h => exact ⟨rfl, fun _ => rfl, id, id, fun k => (by rw [k] at h; cases h), fun h n => ⟨h, n⟩⟩
  · exact SlotTold.refl s

theorem told_tryAccept (v : Env) (b : Nat) (d : Live) : Told d (tryAccept v b d) := by
  unfold tryAccept
  exact Told.ite ((told_setAcceptance b _ _ d).trans (sent_sendFrom v b _ _).told) (Told.refl d)

theorem told_tryOffer (v : Env) (b : Nat) (d : Live) : Told d (tryOffer v b d) := by
  unfold tryOffer
  refine Told.ite (Told.trans ?_ (sent_sendFrom v b _ _).told) (Told.refl d)
  refine Told.trans ?_ (told_setDirection b _ _)
  exact told_setBoundary d b _ (fun _ => rfl) (fun _ => ⟨rfl, rfl⟩)

theorem told_becomeOutward (v : Env) (b : Nat) (d : Live) : Told d (becomeOutward v b d) := by
  unfold becomeOutward
  have h : Told d (d.setBoundary b (fun x => { x with reqExpiry := none })) :=
    told_setBoundary d b _ (fun _ => rfl) (fun _ => ⟨rfl, rfl⟩)
  exact Told.ite h ((h.trans (told_setDirection b _ _)).trans (told_tryAccept v b _))

theorem told_dropExit (v : Env) (b : Nat) (d : Live) : Told d (dropExit v b d) := by
  unfold dropExit
  refine Told.trans ?_ (told_tryOffer v b _)
  have h : Told d (d.setBoundary b (fun x =>
      { x with exitSlot := none, exitEntered := false, reqExpiry := none })) :=
    told_setBoundary d b _ (fun _ => rfl) (fun _ => ⟨rfl, rfl⟩) (fun _ _ h => by cases h)
  refine Told.ite h (Told.ite ?_ ?_)
  · refine h.trans ?_
    exact told_setBoundary _ b _ (fun _ => rfl) (fun _ => ⟨rfl, rfl⟩)
  · exact (h.trans (told_setAcceptance b _ _ _)).trans (sent_sendFrom v b _ _).told

theorem told_boundaryEvent (v : Env) (b : Nat) (r : Option Nat) (f : Live → Live) (d : Live)
    (hf : Told d (f d)) : Told d (boundaryEvent v b r f d) :=
  hf.trans (sent_boundaryEvent v b r f d).told

/-- The Handover Controller told that a slot no longer needs its boundary. -/
theorem told_releaseExit (v : Env) (i : Nat) (quiet : Bool) (d : Live) :
    Told d (releaseExit v i quiet d) := by
  unfold releaseExit
  split
  · split
    · exact Told.refl d
    · exact Told.ite (Told.ite (told_dropExit v _ d)
        (told_boundaryEvent v _ _ _ d (told_dropExit v _ d))) (Told.refl d)
  · exact Told.refl d

/-- A slot that no longer needs its boundary is not its exit slot. -/
theorem exitSlot_releaseExit (v : Env) (i : Nat) (quiet : Bool) (d : Live) {rt : RouteDef} {y b : Nat}
    (hr : d.routeOf v i = some rt) (hx : rt.exit = .boundary y b) :
    ((releaseExit v i quiet d).boundary b).exitSlot ≠ some i := by
  have h1 : ((d.setBoundary b (fun x => { x with exitSlot := none, exitEntered := false, reqExpiry := none })).boundary
      b).exitSlot ≠ some i := by
    rw [d.boundary_setBoundary b b _ (by exact fun _ => rfl)]
    split
    · exact fun h => by cases h
    · next hc =>
      intro h
      apply hc
      refine ⟨rfl, ?_⟩
      by_contra hn
      rw [d.boundary_of_no_record hn] at h
      cases h
  have h2 : ((dropExit v b d).boundary b).exitSlot ≠ some i := fun h => by
    refine h1 (Told.exit ?_ b i h)
    unfold dropExit
    refine Told.trans ?_ (told_tryOffer v b _)
    refine Told.ite (Told.refl _) (Told.ite ?_ ?_)
    · exact told_setBoundary _ b _ (fun _ => rfl) (fun _ => ⟨rfl, rfl⟩)
    · exact (told_setAcceptance b _ _ _).trans (sent_sendFrom v b _ _).told
  unfold releaseExit
  rw [hr]
  simp only [hx]
  split
  · split
    · exact h2
    · exact fun h => h2 ((sent_boundaryEvent v b none (dropExit v b) d).told.exit b i h)
  · next h => exact h

/-- A take-up's boundary asked, from its exit slot's record on. -/
theorem told_askBoundary (v : Env) (i b : Nat) (d : Live) (ha : (d.slot i).state ≠ .free) :
    Told (d.setBoundary b (fun x => { x with exitSlot := some i, exitEntered := false }))
      (askBoundary v i b d) := by
  unfold askBoundary
  refine Told.trans ?_ (sent_boundaryEvent v b none _ d).told
  have h2 : ∀ q : Bool, Told (d.setBoundary b (fun x =>
      { x with exitSlot := some i, exitEntered := false })) ((d.setBoundary b (fun x =>
      { x with exitSlot := some i, exitEntered := false })).setSlot i (fun s =>
      { s with dirNeed := q, accNeed := true })) :=
    fun q => told_setSlot _ i _ ⟨rfl, fun _ => rfl, id, id, fun k => absurd (congrArg Slot.state k) ha,
      fun h n => ⟨h, n⟩⟩
  exact Told.ite ((h2 _).trans (told_tryAccept v b _)) ((h2 _).trans (sent_trySeek v b _).told)

end Sys2Proof.Machine
end

