-- ==== Sys2Proof/Laws/Commands.lean ====
section
/-! SUPPORT. The frame of every command: the exchange, the pairing of a voted request, the re-evaluation of
the stored request queue, and the step (R64, R169 to R175). -/

namespace Sys2Proof.Machine

open Sys2Proof

/-! ### The exchange -/

theorem State.exchange_env (s : State) (x : Exchange) : (s.exchange x).env = s.env.heard x.lane := by
  unfold State.exchange State.shiftOut
  split <;> rfl

theorem State.exchange_live (s : State) (x : Exchange) : (s.exchange x).live =
    if x.whole then s.live.setLane x.lane (LanePort.shiftOut s.env) else s.live := by
  unfold State.exchange State.shiftOut
  split <;> rfl

@[simp] theorem State.exchange_pending (s : State) (x : Exchange) :
    (s.exchange x).pending = s.pending := by
  unfold State.exchange State.shiftOut
  split <;> rfl

/-- No exchange changes a pending list. -/
@[simp] theorem State.exchange_requests (s : State) (x : Exchange) (l : LaneId) :
    ((s.exchange x).live.lane l).requests = (s.live.lane l).requests := by
  rw [State.exchange_live]
  split
  · rw [Live.lane_setLane]
    split
    · rfl
    · rfl
  · rfl

/-- An exchange leaves the other lane's port alone. -/
@[simp] theorem State.exchange_other (s : State) (x : Exchange) :
    (s.exchange x).live.lane x.lane.other = s.live.lane x.lane.other := by
  rw [State.exchange_live]
  split
  · simp
  · rfl

@[simp] theorem State.exchange_controls (s : State) (x : Exchange) :
    (s.exchange x).live.controls = s.live.controls := by
  rw [State.exchange_live]; split <;> simp
@[simp] theorem State.exchange_slots (s : State) (x : Exchange) :
    (s.exchange x).live.slots = s.live.slots := by
  rw [State.exchange_live]; split <;> simp
@[simp] theorem State.exchange_stored (s : State) (x : Exchange) :
    (s.exchange x).live.stored = s.live.stored := by
  rw [State.exchange_live]; split <;> simp
@[simp] theorem State.exchange_orders (s : State) (x : Exchange) :
    (s.exchange x).live.orders = s.live.orders := by
  rw [State.exchange_live]; split <;> simp
@[simp] theorem State.exchange_power (s : State) (x : Exchange) :
    (s.exchange x).live.power = s.live.power := by
  rw [State.exchange_live]; split <;> simp
@[simp] theorem State.exchange_groups (s : State) (x : Exchange) :
    (s.exchange x).live.groups = s.live.groups := by
  rw [State.exchange_live]; split <;> simp
@[simp] theorem State.exchange_links (s : State) (x : Exchange) :
    (s.exchange x).live.links = s.live.links := by
  rw [State.exchange_live]; split <;> simp
@[simp] theorem State.exchange_boundaries (s : State) (x : Exchange) :
    (s.exchange x).live.boundaries = s.live.boundaries := by
  rw [State.exchange_live]; split <;> simp
@[simp] theorem State.exchange_reeval (s : State) (x : Exchange) :
    (s.exchange x).live.reeval = s.live.reeval := by
  rw [State.exchange_live]; split <;> simp

/-! ### Pairing (R172) -/

@[simp] theorem State.paired_env (s : State) (x : Exchange) (q : Request) :
    (s.paired x q).env = s.env.heard x.lane := State.exchange_env s x
@[simp] theorem State.paired_pending (s : State) (x : Exchange) (q : Request) :
    (s.paired x q).pending = s.pending := State.exchange_pending s x
@[simp] theorem State.paired_controls (s : State) (x : Exchange) (q : Request) :
    (s.paired x q).live.controls = s.live.controls := by
  simp [State.paired]
@[simp] theorem State.paired_slots (s : State) (x : Exchange) (q : Request) :
    (s.paired x q).live.slots = s.live.slots := by
  simp [State.paired]
@[simp] theorem State.paired_stored (s : State) (x : Exchange) (q : Request) :
    (s.paired x q).live.stored = s.live.stored := by
  simp [State.paired]
@[simp] theorem State.paired_orders (s : State) (x : Exchange) (q : Request) :
    (s.paired x q).live.orders = s.live.orders := by
  simp [State.paired]
@[simp] theorem State.paired_power (s : State) (x : Exchange) (q : Request) :
    (s.paired x q).live.power = s.live.power := by
  simp [State.paired]
@[simp] theorem State.paired_groups (s : State) (x : Exchange) (q : Request) :
    (s.paired x q).live.groups = s.live.groups := by
  simp [State.paired]
@[simp] theorem State.paired_links (s : State) (x : Exchange) (q : Request) :
    (s.paired x q).live.links = s.live.links := by
  simp [State.paired]
@[simp] theorem State.paired_boundaries (s : State) (x : Exchange) (q : Request) :
    (s.paired x q).live.boundaries = s.live.boundaries := by
  simp [State.paired]
@[simp] theorem State.paired_reeval (s : State) (x : Exchange) (q : Request) :
    (s.paired x q).live.reeval = s.live.reeval := by
  simp [State.paired]

/-- A request that pairs is taken, and handed to its owner as the part state allows. -/
theorem State.voted_of_pairs (s : State) (x : Exchange) (q : Request) (own : State → State)
    (h : s.pairs x q) : s.voted x q own = (s.paired x q).hand q own := by
  obtain ⟨⟨e, he, hq⟩, hm⟩ := h
  have hv : vote (s.env.heard x.lane) x.lane q (s.exchange x).live =
      ((s.exchange x).live.setLane x.lane.other (LanePort.without q), true) := by
    unfold vote
    have hc : ((s.env.heard x.lane).operating && (s.env.heard x.lane).mode != .normal) = false := by
      simp only [Env.operating_heard, Env.mode_heard]
      cases ho : s.env.operating with
      | false => rfl
      | true => rw [hm ho]; rfl
    rw [hc]
    simp only [Bool.false_eq_true, if_false]
    unfold pairOrWait
    have ha : (((s.exchange x).live.lane x.lane.other).requests.any
        (fun e => decide (e.request = q))) = true := by
      rw [State.exchange_requests]
      exact List.any_eq_true.mpr ⟨e, he, by simp [hq]⟩
    rw [ha]
    rfl
  unfold State.voted
  simp only [State.exchange_env, hv, if_true]
  unfold State.paired
  simp only [← State.exchange_env]

/-- A taken request that the part state does not refuse goes to its owner. -/
theorem State.hand_of_gate (s : State) (q : Request) (own : State → State)
    (h : gate s.env q = none) : s.hand q own = own s := by
  unfold State.hand; rw [h]

/-- A taken request that the part state refuses is refused to both lanes. -/
theorem State.hand_of_refused (s : State) (q : Request) (own : State → State) (r : Reason)
    (h : gate s.env q = some r) : s.hand q own = s.refuse q r := by
  unfold State.hand; rw [h]

theorem part_of_operating {v : Env} (h : v.operating = true) : v.part = .operating := by
  simpa [Env.operating] using h

/-- Only a load request is refused while the part is OPERATING. -/
theorem gate_operating (v : Env) (q : Request) (h : v.operating = true)
    (hq : q ≠ .loadBegin ∧ (∀ p, q ≠ .loadRecord p) ∧ ∀ g, q ≠ .loadEnd g) : gate v q = none := by
  unfold gate
  rw [part_of_operating h]
  cases q <;> first | rfl | (exfalso; simp_all)

/-- A request that pairs while the part is OPERATING is taken by its owner. -/
theorem State.voted_operating (s : State) (x : Exchange) (q : Request) (own : State → State)
    (h : s.pairs x q) (ho : s.env.operating = true)
    (hq : q ≠ .loadBegin ∧ (∀ p, q ≠ .loadRecord p) ∧ ∀ g, q ≠ .loadEnd g) :
    s.voted x q own = own (s.paired x q) := by
  rw [s.voted_of_pairs x q own h, State.hand_of_gate]
  exact gate_operating _ q (by simpa using ho) hq

/-! ### The stored request queue (R64) -/

/-- With no re-evaluation asked for, none is made. -/
theorem serveIn_of_not_asked (v : Env) (run : Option Nat) (d : Live) (h : d.reeval = false) :
    serveIn v run d = d := by
  simp [serveIn, serveRuns, h]

theorem serve_of_not_asked (v : Env) (d : Live) (h : d.reeval = false) : serve v d = d :=
  serveIn_of_not_asked v none d h

theorem Live.setReeval_self (d : Live) {r : Bool} (h : d.reeval = r) : d.setReeval r = d := by
  subst h; rfl

/-- With no stored request, a re-evaluation changes nothing. -/
theorem serveIn_of_no_stored (v : Env) (run : Option Nat) (d : Live) (h : d.stored = []) :
    serveIn v run d = d.setReeval false := by
  cases hr : d.reeval with
  | false => rw [serveIn_of_not_asked v run d hr, Live.setReeval_self d hr]
  | true => simp [serveIn, serveRuns, h, hr, tryEntries]

theorem serve_of_no_stored (v : Env) (d : Live) (h : d.stored = []) :
    serve v d = d.setReeval false := serveIn_of_no_stored v none d h

/-- While no request is stored, an act on a throw that serves the stored request queue at its place does
no more than one that does not. -/
theorem moving_unstored (v : Env) : Throwing v (fun d e => d.stored = [] → Moved d e) :=
  (moving v).lift (fun d _ => Moved.refl d)
    (fun a b h => (a h).trans (b ((a h).stored.trans h))) (fun h _ => h)

theorem now_unstored (v : Env) (run : Option Nat) (d : Live) (h : d.stored = []) :
    Moved d (Requeue.now v run d) := by
  unfold Requeue.now
  rw [serveIn_of_no_stored v run d h]
  exact moved_setReeval d false

theorem moved_runArbiter_of_no_stored (v : Env) (g : Nat) (d : Live) (h : d.stored = []) :
    Moved d (runArbiter .now v g d) :=
  (moving_unstored v).runArbiter (now_unstored v) g d h

theorem moved_runArbiters_of_no_stored (v : Env) (which : Nat → Live → Bool) (d : Live)
    (h : d.stored = []) : Moved d (runArbiters .now v which d) :=
  (moving_unstored v).runArbiters (now_unstored v) which d h

/-- No re-evaluation is left asked for. -/
@[simp] theorem serve_reeval (v : Env) (d : Live) : (serve v d).reeval = false := by
  have h : ∀ k d, (serveRuns v none k d).reeval = false := by
    intro k
    induction k with
    | zero => intro d; rfl
    | succ k ih =>
      intro d
      unfold serveRuns
      split
      · exact ih _
      · next hr => simpa using hr
  exact h _ d

/-! ### Events and steps -/

@[simp] theorem State.act_env (f : Env → Live → Live) (s : State) : (s.act f).env = s.env := rfl
@[simp] theorem State.act_pending (f : Env → Live → Live) (s : State) :
    (s.act f).pending = s.pending := rfl
theorem State.act_live (f : Env → Live → Live) (s : State) :
    (s.act f).live = serve s.env (f s.env s.live) := rfl
@[simp] theorem State.refuse_env (q : Request) (r : Reason) (s : State) :
    (s.refuse q r).env = s.env := rfl
@[simp] theorem State.refuse_pending (q : Request) (r : Reason) (s : State) :
    (s.refuse q r).pending = s.pending := rfl

/-- A step runs the command at the front of the queue. -/
theorem step_cons (s : State) (c : Instr) (rest : List Instr) (h : s.pending = c :: rest) :
    step s = exec c { s with pending := rest } := by
  unfold step; rw [h]

/-- A step on an empty queue idles. -/
theorem step_nil (s : State) (h : s.pending = []) : step s = .next (idle s) := by
  unfold step; rw [h]

end Sys2Proof.Machine
end

