-- ==== Sys2Proof/Laws/Detection.lean ====
section
/-! SUPPORT. What deriving an element again can do: it changes the agreed value, the discrepancy timing and
the filter, and leaves the rest of the record (R8 to R14). -/

namespace Sys2Proof.Machine

open Sys2Proof

/-! ### The filter and the derivation, field by field -/

@[simp] theorem Element.filter_num (now : Time) (e : Element) :
    (e.filter now).num = e.num := by
  unfold Element.filter
  repeat' split
  all_goals rfl
@[simp] theorem Element.filter_dfn (now : Time) (e : Element) :
    (e.filter now).dfn = e.dfn := by
  unfold Element.filter
  repeat' split
  all_goals rfl
@[simp] theorem Element.filter_viewA (now : Time) (e : Element) :
    (e.filter now).viewA = e.viewA := by
  unfold Element.filter
  repeat' split
  all_goals rfl
@[simp] theorem Element.filter_viewB (now : Time) (e : Element) :
    (e.filter now).viewB = e.viewB := by
  unfold Element.filter
  repeat' split
  all_goals rfl
@[simp] theorem Element.filter_agreed (now : Time) (e : Element) :
    (e.filter now).agreed = e.agreed := by
  unfold Element.filter
  repeat' split
  all_goals rfl
@[simp] theorem Element.filter_discExpiry (now : Time) (e : Element) :
    (e.filter now).discExpiry = e.discExpiry := by
  unfold Element.filter
  repeat' split
  all_goals rfl
@[simp] theorem Element.filter_discrepant (now : Time) (e : Element) :
    (e.filter now).discrepant = e.discrepant := by
  unfold Element.filter
  repeat' split
  all_goals rfl
@[simp] theorem Element.filter_blocked (now : Time) (e : Element) :
    (e.filter now).blocked = e.blocked := by
  unfold Element.filter
  repeat' split
  all_goals rfl
@[simp] theorem Element.agree_num (now : Time) (x : Detection) (e : Element) :
    (e.agree now x).num = e.num := by
  unfold Element.agree; split
  · rfl
  · simp
@[simp] theorem Element.agree_dfn (now : Time) (x : Detection) (e : Element) :
    (e.agree now x).dfn = e.dfn := by
  unfold Element.agree; split
  · rfl
  · simp
@[simp] theorem Element.agree_viewA (now : Time) (x : Detection) (e : Element) :
    (e.agree now x).viewA = e.viewA := by
  unfold Element.agree; split
  · rfl
  · simp
@[simp] theorem Element.agree_viewB (now : Time) (x : Detection) (e : Element) :
    (e.agree now x).viewB = e.viewB := by
  unfold Element.agree; split
  · rfl
  · simp
@[simp] theorem Element.agree_discExpiry (now : Time) (x : Detection) (e : Element) :
    (e.agree now x).discExpiry = e.discExpiry := by
  unfold Element.agree; split
  · rfl
  · simp
@[simp] theorem Element.agree_discrepant (now : Time) (x : Detection) (e : Element) :
    (e.agree now x).discrepant = e.discrepant := by
  unfold Element.agree; split
  · rfl
  · simp
@[simp] theorem Element.agree_blocked (now : Time) (x : Detection) (e : Element) :
    (e.agree now x).blocked = e.blocked := by
  unfold Element.agree; split
  · rfl
  · simp
@[simp] theorem Element.agree_agreed (now : Time) (x : Detection) (e : Element) :
    (e.agree now x).agreed = x := by
  unfold Element.agree; split
  · next h => exact h.symm
  · simp
@[simp] theorem Env.timeDiscrepancy_num (v : Env) (e : Element) :
    (v.timeDiscrepancy e).num = e.num := rfl
@[simp] theorem Env.timeDiscrepancy_dfn (v : Env) (e : Element) :
    (v.timeDiscrepancy e).dfn = e.dfn := rfl
@[simp] theorem Env.timeDiscrepancy_viewA (v : Env) (e : Element) :
    (v.timeDiscrepancy e).viewA = e.viewA := rfl
@[simp] theorem Env.timeDiscrepancy_viewB (v : Env) (e : Element) :
    (v.timeDiscrepancy e).viewB = e.viewB := rfl
@[simp] theorem Env.timeDiscrepancy_agreed (v : Env) (e : Element) :
    (v.timeDiscrepancy e).agreed = e.agreed := rfl
@[simp] theorem Env.timeDiscrepancy_occupied (v : Env) (e : Element) :
    (v.timeDiscrepancy e).occupied = e.occupied := rfl
@[simp] theorem Env.timeDiscrepancy_pickUp (v : Env) (e : Element) :
    (v.timeDiscrepancy e).pickUp = e.pickUp := rfl
@[simp] theorem Env.timeDiscrepancy_occTime (v : Env) (e : Element) :
    (v.timeDiscrepancy e).occTime = e.occTime := rfl
@[simp] theorem Env.timeDiscrepancy_blocked (v : Env) (e : Element) :
    (v.timeDiscrepancy e).blocked = e.blocked := rfl
@[simp] theorem Env.derive_num (v : Env) (e : Element) : (v.derive e).num = e.num := by
  simp [Env.derive]
@[simp] theorem Env.derive_dfn (v : Env) (e : Element) : (v.derive e).dfn = e.dfn := by
  simp [Env.derive]
@[simp] theorem Env.derive_viewA (v : Env) (e : Element) : (v.derive e).viewA = e.viewA := by
  simp [Env.derive]
@[simp] theorem Env.derive_viewB (v : Env) (e : Element) : (v.derive e).viewB = e.viewB := by
  simp [Env.derive]
@[simp] theorem Env.derive_blocked (v : Env) (e : Element) : (v.derive e).blocked = e.blocked := by
  simp [Env.derive]

/-- A derived element's agreed value is the one its views and the lane mode give (R8, R9). -/
@[simp] theorem Env.derive_agreed (v : Env) (e : Element) :
    (v.derive e).agreed = v.deriveAgreed e := by simp [Env.derive]

@[simp] theorem Element.setView_num (e : Element) (l : LaneId) (x : Option Detection) :
    (e.setView l x).num = e.num := by cases l <;> rfl
@[simp] theorem Element.setView_dfn (e : Element) (l : LaneId) (x : Option Detection) :
    (e.setView l x).dfn = e.dfn := by cases l <;> rfl
@[simp] theorem Element.setView_agreed (e : Element) (l : LaneId) (x : Option Detection) :
    (e.setView l x).agreed = e.agreed := by cases l <;> rfl
@[simp] theorem Element.setView_occupied (e : Element) (l : LaneId) (x : Option Detection) :
    (e.setView l x).occupied = e.occupied := by cases l <;> rfl
@[simp] theorem Element.setView_pickUp (e : Element) (l : LaneId) (x : Option Detection) :
    (e.setView l x).pickUp = e.pickUp := by cases l <;> rfl
@[simp] theorem Element.setView_discExpiry (e : Element) (l : LaneId) (x : Option Detection) :
    (e.setView l x).discExpiry = e.discExpiry := by cases l <;> rfl
@[simp] theorem Element.setView_discrepant (e : Element) (l : LaneId) (x : Option Detection) :
    (e.setView l x).discrepant = e.discrepant := by cases l <;> rfl
@[simp] theorem Element.setView_blocked (e : Element) (l : LaneId) (x : Option Detection) :
    (e.setView l x).blocked = e.blocked := by cases l <;> rfl
@[simp] theorem Element.setView_occTime (e : Element) (l : LaneId) (x : Option Detection) :
    (e.setView l x).occTime = e.occTime := by cases l <;> rfl
@[simp] theorem Element.view_setView (e : Element) (l k : LaneId) (x : Option Detection) :
    (e.setView l x).view k = if l = k then x else e.view k := by
  cases l <;> cases k <;> simp [Element.setView, Element.view]
@[simp] theorem Env.view_derive (v : Env) (e : Element) (k : LaneId) :
    (v.derive e).view k = e.view k := by cases k <;> simp [Element.view]

/-- The derivation reads an element's views and kind alone. -/
theorem Env.deriveAgreed_congr (v : Env) {e f : Element} (ha : e.viewA = f.viewA)
    (hb : e.viewB = f.viewB) (hd : e.dfn = f.dfn) : v.deriveAgreed e = v.deriveAgreed f := by
  unfold Env.deriveAgreed; rw [ha, hb, hd]

/-- The derivation reads the presence marks alone of the rest. -/
theorem deriveAgreed_presence {v w : Env} (ha : v.presentA = w.presentA)
    (hb : v.presentB = w.presentB) (e : Element) : v.deriveAgreed e = w.deriveAgreed e := by
  unfold Env.deriveAgreed; rw [ha, hb]

/-- An element found has the number asked for. -/
theorem Env.element?_num {v : Env} {n : Nat} {e : Element} (h : v.element? n = some e) :
    e.num = n := by
  unfold Env.element? at h
  have := List.find?_some h
  simpa using this

/-- Lane mode is NORMAL exactly while both lanes are PRESENT (R146). -/
theorem Env.mode_normal (v : Env) :
    v.mode = .normal ↔ v.presentA = true ∧ v.presentB = true := by
  unfold Env.mode
  cases v.presentA <;> cases v.presentB <;> simp

/-- In NORMAL every lane is PRESENT. -/
theorem Env.present_of_normal {v : Env} (h : v.mode = .normal) (l : LaneId) :
    v.present l = true := by
  rw [Env.mode_normal] at h
  cases l
  · exact h.1
  · exact h.2

/-- The agreed value in NORMAL, as R8 gives it. -/
theorem Env.deriveAgreed_normal {v : Env} (h : v.mode = .normal) (e : Element) (l : LaneId)
    (x : Detection) (hx : e.view l = some x) :
    v.deriveAgreed e = if e.view l.other = some x then x else e.dfn.kind.safe := by
  rw [Env.mode_normal] at h
  obtain ⟨num, dfn, va, vb⟩ := e
  unfold Env.deriveAgreed
  rw [h.1, h.2]
  cases l
  · simp only [Element.view, LaneId.other] at hx ⊢
    subst hx
    cases vb with
    | none => simp
    | some y => by_cases e1 : x = y <;> simp [e1, eq_comm]
  · simp only [Element.view, LaneId.other] at hx ⊢
    subst hx
    cases va with
    | none => simp
    | some y => by_cases e1 : y = x <;> simp [e1]

/-! ### Changes of one element -/

theorem State.updateElement_env (n : Nat) (f : Element → Element) (s : State) (e : Element)
    (h : s.env.element? n = some e) : (s.updateElement n f).env = s.env.setElement n f := by
  unfold State.updateElement; rw [h]

@[simp] theorem State.updateElement_pending (n : Nat) (f : Element → Element) (s : State) :
    (s.updateElement n f).pending = s.pending := by
  unfold State.updateElement; split <;> rfl

/-- A change of lane mode derives every element again and leaves the rest of `Env`. -/
theorem State.changeMode_env (m : LaneMode) (s : State) : (State.changeMode m s).env =
    { s.env with elements := s.env.elements.map s.env.derive } := rfl

@[simp] theorem State.changeMode_pending (m : LaneMode) (s : State) :
    (State.changeMode m s).pending = s.pending := rfl

end Sys2Proof.Machine
end

