-- ==== Sys2Proof/Laws/Frames.lean ====
section
/-! SUPPORT. The frames the statements speak of, read off what an act of each block can do, and what a
raise and a report leave. -/

namespace Sys2Proof.Machine

open Sys2Proof

/-! ### Control records -/

theorem Control.claims_of_holds {c k : Control} (h : c.holds = k.holds) : c.claims = k.claims := by
  have := congrArg Control.claims h
  exact this
theorem Control.claims_of_base {c k : Control} (h : c.base = k.base) : c.claims = k.claims := by
  have := congrArg Control.claims h
  exact this
theorem Control.motion_of_base {c k : Control} (h : c.base = k.base) : c.motion = k.motion := by
  have := congrArg Control.motion h
  exact this
theorem Control.faults_of_still {c k : Control} (h : c.still = k.still) : c.faults = k.faults := by
  have := congrArg Control.faults h
  exact this

/-! ### Slots -/

theorem SlotMoves.judged {s t : Slot} (h : SlotMoves s t) : s.judged t := by
  refine ⟨?_, h.still, h.goes⟩
  have := congrArg (fun u : Slot =>
    { u with state := s.state, everCleared := s.everCleared, reclear := s.reclear
             setting := s.setting }) h.core
  exact this

/-! ### Calm -/

theorem Calm.claimsStand {d e : Live} (h : Calm d e) : d.claimsStand e :=
  fun n => Control.claims_of_base (Control.base_of_still (h.control n))
theorem Calm.throwsStand {d e : Live} (h : Calm d e) : d.throwsStand e :=
  ⟨fun n => Control.motion_of_base (Control.base_of_still (h.control n)), h.orders, h.power⟩
theorem Calm.faultsStand {d e : Live} (h : Calm d e) : d.faultsStand e :=
  fun n => Control.faults_of_still (h.control n)
theorem Calm.handoverStands {d e : Live} (h : Calm d e) : d.handoverStands e :=
  ⟨h.links, h.boundaries⟩
theorem Calm.portsStand {d e : Live} (h : Calm d e) : d.portsStand e :=
  fun l => ⟨h.requests l, h.out l, h.appended l⟩
theorem Calm.slotsJudged {d e : Live} (h : Calm d e) : d.slotsJudged e := fun i => (h.slot i).judged

/-! ### Watched -/

theorem Watched.claimsStand {d e : Live} (h : Watched d e) : d.claimsStand e :=
  fun n => Control.claims_of_base (h.control n)
theorem Watched.throwsStand {d e : Live} (h : Watched d e) : d.throwsStand e :=
  ⟨fun n => Control.motion_of_base (h.control n), h.orders, h.power⟩
theorem Watched.handoverStands {d e : Live} (h : Watched d e) : d.handoverStands e :=
  ⟨h.links, h.boundaries⟩
theorem Watched.portsStand {d e : Live} (h : Watched d e) : d.portsStand e :=
  fun l => ⟨h.requests l, h.out l, h.appended l⟩
theorem Watched.slotsJudged {d e : Live} (h : Watched d e) : d.slotsJudged e :=
  fun i => (h.slot i).judged

/-! ### Moved, Sent, Told -/

theorem Moved.claimsStand {d e : Live} (h : Moved d e) : d.claimsStand e :=
  fun n => Control.claims_of_holds (h.control n)
theorem Moved.handoverStands {d e : Live} (h : Moved d e) : d.handoverStands e :=
  ⟨h.links, h.boundaries⟩
theorem Moved.portsStand {d e : Live} (h : Moved d e) : d.portsStand e :=
  fun l => ⟨h.requests l, h.out l, h.appended l⟩
theorem Moved.slotsJudged {d e : Live} (h : Moved d e) : d.slotsJudged e := fun i => (h.slot i).judged

theorem Sent.claimsStand {d e : Live} (h : Sent d e) : d.claimsStand e :=
  fun n => Control.claims_of_base (h.control n)
theorem Sent.throwsStand {d e : Live} (h : Sent d e) : d.throwsStand e :=
  ⟨fun n => Control.motion_of_base (h.control n), h.orders, h.power⟩
theorem Sent.portsStand {d e : Live} (h : Sent d e) : d.portsStand e :=
  fun l => ⟨h.requests l, h.out l, h.appended l⟩
theorem Sent.slotsJudged {d e : Live} (h : Sent d e) : d.slotsJudged e := fun i => (h.slot i).judged

theorem Told.claimsStand {d e : Live} (h : Told d e) : d.claimsStand e :=
  fun n => Control.claims_of_base (h.control n)
theorem Told.throwsStand {d e : Live} (h : Told d e) : d.throwsStand e :=
  ⟨fun n => Control.motion_of_base (h.control n), h.orders, h.power⟩
theorem Told.portsStand {d e : Live} (h : Told d e) : d.portsStand e :=
  fun l => ⟨h.requests l, h.out l, h.appended l⟩

/-! ### Reports -/

/-- A report just placed has been made. -/
theorem made_report (d : Live) (r : Report) : d.made r (d.report r) := by
  intro l h
  rw [Live.lane_report, LanePort.place_reports _ r h]
  simp

/-- What has been made stays made. -/
theorem Live.made.mono {d e f : Live} {r : Report} (h : d.made r e)
    (k : ∀ l, (e.lane l).reports <+: (f.lane l).reports) : d.made r f :=
  fun l hl => (k l).subset (h l hl)

/-- What is made from a state with the same queues is made from this one. -/
theorem Live.made.of_same {c d e : Live} {r : Report} (h : d.made r e)
    (k : ∀ l, (d.lane l).reports = (c.lane l).reports) : c.made r e :=
  fun l hl => h l (by rw [k l]; exact hl)

/-! ### Fault entries (R138) -/

/-- An entry put in a fault map is the entry of its kind. -/
theorem insertFault_find (f : FaultEntry) (l : List FaultEntry) :
    (insertFault f l).find? (fun g => g.kind = f.kind) = some f := by
  induction l with
  | nil => simp [insertFault]
  | cons x xs ih =>
    unfold insertFault
    split
    · simp
    · split
      · simp
      · next h _ => rw [List.find?_cons]; simp [h, ih]

/-- The entries of the other kinds stand when an entry is put in a fault map. -/
theorem insertFault_other (f : FaultEntry) (l : List FaultEntry) (k : FaultKind) (hk : k ≠ f.kind) :
    (insertFault f l).find? (fun g => g.kind = k) = l.find? (fun g => g.kind = k) := by
  induction l with
  | nil => simp [insertFault, Ne.symm hk]
  | cons x xs ih =>
    unfold insertFault
    split
    · next h => rw [List.find?_cons, List.find?_cons]; simp [Ne.symm hk, h]
    · split
      · rw [List.find?_cons]; simp [Ne.symm hk]
      · rw [List.find?_cons, List.find?_cons, ih]

theorem raisedEntry_kind (now : Time) (k : FaultKind) (old : Option FaultEntry)
    (h : ∀ f, old = some f → f.kind = k) : (raisedEntry now k old).kind = k := by
  unfold raisedEntry
  cases old with
  | none => rfl
  | some f => exact h f rfl

theorem Control.fault?_kind {c : Control} {k : FaultKind} {f : FaultEntry} (h : c.fault? k = some f) :
    f.kind = k := by
  have := List.find?_some h
  simpa using this

/-- A latch changes no control record but its aspect. -/
theorem control_latch (v : Env) (src : Source) (g : Nat) (d : Live) (n : Nat) :
    ((latch v src g d).control n).still = (d.control n).still := by
  unfold latch
  split
  · exact (((calm_report _ _).trans (calm_evaluateMembers v g _)).trans
      (calm_computeMembers v g _)).control n
  · rfl

/-- A latch asks for no re-evaluation. -/
theorem reeval_latch (v : Env) (src : Source) (g : Nat) (d : Live) :
    (latch v src g d).reeval = d.reeval := by
  unfold latch
  split
  · exact (((calm_report _ _).trans (calm_evaluateMembers v g _)).trans
      (calm_computeMembers v g _)).reeval
  · rfl

/-- The fault maps after a raise: the raised entry in its place, every other map as it was. -/
theorem raise_faults (v : Env) (n : Nat) (k : FaultKind) (m : Option Nat) (d : Live) (j : Nat) :
    ((raise v n k m d).control j).faults
      = if j = n ∧ d.hasControl n then
          insertFault (raisedEntry v.now k ((d.control n).fault? k)) (d.control n).faults
        else (d.control j).faults := by
  unfold raise
  simp only
  rw [(calm_faultHandOn v n k _).faultsStand j]
  generalize raisedEntry v.now k ((d.control n).fault? k) = f
  have hs := d.control_setControl n j (fun c => { c with faults := insertFault f c.faults })
    (fun _ => rfl)
  split
  · rw [Control.faults_of_still (control_latch _ _ _ _ j), (calm_report _ _).faultsStand j, hs]
    split <;> rfl
  · rw [(calm_report _ _).faultsStand j, hs]
    split <;> rfl

/-- After a raise the entry of its kind is the raised one. -/
theorem raise_fault (v : Env) (n : Nat) (k : FaultKind) (m : Option Nat) (d : Live)
    (h : d.hasControl n) :
    ((raise v n k m d).control n).fault? k
      = some (raisedEntry v.now k ((d.control n).fault? k)) := by
  have hk : (raisedEntry v.now k ((d.control n).fault? k)).kind = k :=
    raisedEntry_kind _ _ _ (fun f hf => Control.fault?_kind hf)
  have := insertFault_find (raisedEntry v.now k ((d.control n).fault? k)) (d.control n).faults
  rw [hk] at this
  rw [Control.fault?, raise_faults, if_pos ⟨rfl, h⟩]
  exact this

/-- A raise of a kind that stays ACTIVE leaves an ACTIVE entry, last raised now. -/
theorem raise_raised (v : Env) (n : Nat) (k : FaultKind) (m : Option Nat) (d : Live)
    (h : d.hasControl n) (hk : k.goneAtRaise = false) : (raise v n k m d).raised n k v.now := by
  refine ⟨_, raise_fault v n k m d h, ?_, ?_⟩
  · unfold raisedEntry; split <;> simp [hk]
  · unfold raisedEntry; split <;> rfl

/-- A raise asks for no re-evaluation. -/
theorem reeval_raise (v : Env) (n : Nat) (k : FaultKind) (m : Option Nat) (d : Live) :
    (raise v n k m d).reeval = d.reeval := by
  unfold raise
  simp only
  rw [(calm_faultHandOn v n k _).reeval]
  split
  · rw [reeval_latch]; rfl
  · rfl

/-- The FAULT report of a raise is made. -/
theorem raise_made (v : Env) (n : Nat) (k : FaultKind) (m : Option Nat) (d : Live) :
    d.made (faultReport n (raisedEntry v.now k ((d.control n).fault? k))
      (raisedEntry v.now k ((d.control n).fault? k)).state m) (raise v n k m d) := by
  unfold raise
  simp only
  refine Live.made.mono ?_ (fun l => (calm_faultHandOn v n k _).appended l)
  generalize raisedEntry v.now k ((d.control n).fault? k) = f
  have h0 : d.made (faultReport n f f.state m)
      ((d.setControl n (fun c => { c with faults := insertFault f c.faults })).report
        (faultReport n f f.state m)) :=
    (made_report _ _).of_same (fun l => by cases l <;> rfl)
  split
  · exact h0.mono (fun l => (watched_latch _ _ _ _).appended l)
  · exact h0

end Sys2Proof.Machine
end

