-- ==== Sys2Proof/Laws/Exchanges.lean ====
section
/-! SUPPORT. What a voted request leaves to its owner: the exchange and the pairing change two ports and two silence
timers, and nothing that an owner reads or a frame names (R169 to R175). -/

namespace Sys2Proof.Machine

open Sys2Proof

theorem heard_eq (v : Env) (l : LaneId) : ∃ a b, v.heard l = { v with silenceA := a, silenceB := b } := by
  unfold Env.heard
  split
  · cases l <;> exact ⟨_, _, rfl⟩
  · exact ⟨_, _, rfl⟩

theorem paired_eq (s : State) (x : Exchange) (q : Request) : ∃ a b A B,
    s.paired x q = { s with env := { s.env with silenceA := a, silenceB := b }
                            live := { s.live with laneA := A, laneB := B } } := by
  obtain ⟨a, b, h⟩ := heard_eq s.env x.lane
  refine ⟨a, b, (s.paired x q).live.laneA, (s.paired x q).live.laneB, ?_⟩
  unfold State.paired State.exchange State.shiftOut at *
  cases hw : x.whole <;> cases hl : x.lane <;> simp [hw, hl, LaneId.other, Live.setLane] at h ⊢ <;> exact h

theorem exchange_eq (s : State) (x : Exchange) : ∃ a b A B,
    s.exchange x = { s with env := { s.env with silenceA := a, silenceB := b }
                            live := { s.live with laneA := A, laneB := B } } := by
  obtain ⟨a, b, h⟩ := heard_eq s.env x.lane
  refine ⟨a, b, (s.exchange x).live.laneA, (s.exchange x).live.laneB, ?_⟩
  unfold State.exchange State.shiftOut at *
  cases hw : x.whole <;> cases hl : x.lane <;> simp [hw, hl, LaneId.other, Live.setLane] at h ⊢ <;>
      exact h

theorem env_of_paired {α : Type} (F : Env → α) (s : State) (x : Exchange) (q : Request)
    (hF : ∀ (v : Env) a b, F { v with silenceA := a, silenceB := b } = F v := by intros; rfl) :
    F (s.paired x q).env = F s.env := by
  obtain ⟨a, b, A, B, h⟩ := paired_eq s x q
  rw [h]; exact hF _ _ _

theorem live_of_paired {α : Type} (F : Live → α) (s : State) (x : Exchange) (q : Request)
    (hF : ∀ (d : Live) A B, F { d with laneA := A, laneB := B } = F d := by intros; rfl) :
    F (s.paired x q).live = F s.live := by
  obtain ⟨a, b, A, B, h⟩ := paired_eq s x q
  rw [h]; exact hF _ _ _

theorem both_of_paired {α : Type} (F : Env → Live → α) (s : State) (x : Exchange) (q : Request)
    (hF : ∀ (v : Env) (d : Live) a b A B, F { v with silenceA := a, silenceB := b }
        { d with laneA := A, laneB := B } = F v d := by intros; rfl) :
    F (s.paired x q).env (s.paired x q).live = F s.env s.live := by
  obtain ⟨a, b, A, B, h⟩ := paired_eq s x q
  rw [h]; exact hF _ _ _ _ _ _

theorem act_next (s : State) (f : Env → Live → Live) (h : (f s.env s.live).reeval = false) :
    (s.act f).live = f s.env s.live := by
  rw [State.act_live, serve_of_not_asked _ _ h]

theorem voted_exec (c : Instr) (x : Exchange) (q : Request) (s : State) (h : voteOf c = some (x, q)) :
    ∃ own, exec c s = .next (s.voted x q own) := by
  cases c <;> simp [voteOf] at h <;> obtain ⟨rfl, rfl⟩ := h <;> exact ⟨_, rfl⟩

theorem next_env {s : State} {v : Env} (h : v = s.env) : ({ s with env := v } : State) = s := by rw [h]

theorem heard_of_not_operating {v : Env} (h : v.operating = false) (l : LaneId) : v.heard l = v := by
  unfold Env.heard; rw [h]; rfl

theorem tables_of_paired (s : State) (x : Exchange) (q : Request) :
    (s.paired x q).live.control = s.live.control ∧ (s.paired x q).live.slot = s.live.slot ∧
        (s.paired x q).live.boundary = s.live.boundary
    ∧ (s.paired x q).live.link = s.live.link ∧ (s.paired x q).live.group = s.live.group :=
  ⟨live_of_paired (fun d => d.control) s x q, live_of_paired (fun d => d.slot) s x q, live_of_paired
      (fun d => d.boundary) s x q, live_of_paired (fun d => d.link) s x q, live_of_paired (fun d =>
          d.group) s x q⟩

/-- frames from p.live transfer to s.live -/
theorem frame_of_same {c d e : Live} (hc : d.control = c.control) (hs : d.slot = c.slot) (ho :
    d.orders = c.orders) (hp : d.power = c.power)
    (hl : d.links = c.links) (hb : d.boundaries = c.boundaries) :
    (d.claimsStand e → c.claimsStand e) ∧ (d.throwsStand e → c.throwsStand e) ∧ (d.faultsStand e →
        c.faultsStand e)
    ∧ (d.handoverStands e → c.handoverStands e) ∧ (d.slotsJudged e → c.slotsJudged e) := by
  refine ⟨fun h n => by rw [← hc]; exact h n, fun h => ⟨fun n => by rw [← hc]; exact h.1 n, h.2.1.trans ho, h.2.2.trans hp⟩,
    fun h n => by rw [← hc]; exact h n, fun h => ⟨h.1.trans hl, h.2.trans hb⟩, fun h i => by rw [← hs]; exact h i⟩

theorem stands_of_paired (s : State) (x : Exchange) (q : Request) (e : Live) :
    ((s.paired x q).live.claimsStand e → s.live.claimsStand e) ∧ ((s.paired x q).live.throwsStand
        e → s.live.throwsStand e) ∧ ((s.paired x q).live.faultsStand e → s.live.faultsStand e)
    ∧ ((s.paired x q).live.handoverStands e → s.live.handoverStands e) ∧
        ((s.paired x q).live.slotsJudged e → s.live.slotsJudged e) :=
  frame_of_same (tables_of_paired s x q).1 (tables_of_paired s x q).2.1 (by simp) (by simp) (by simp) (by simp)

/-- how a taken request is handed to its owner, paired or alone -/
theorem takenAs_voted (s p : State) (x : Exchange) (q : Request) (own : State → State) (h : s.takenAs x q p)  :
    s.voted x q own = p.hand q own := by
  rcases h with ⟨h, rfl⟩ | ⟨ha, ho, hm, hpr, rfl⟩
  · exact s.voted_of_pairs x q own h
  · unfold State.voted vote
    have h1 : isRejoin q = false := by cases q <;> simp [takenAlone] at ha <;> rfl
    obtain ⟨a, b, hh⟩ := heard_eq s.env x.lane
    have h3 : (s.env.heard x.lane).present x.lane = s.env.present x.lane := by rw [hh]; rfl
    simp only [State.exchange_env, Env.operating_heard, Env.mode_heard, ho, h1, h3, hpr, ha, hm]
    simp
    congr 1
    rw [← State.exchange_env, ← State.exchange_pending s x]

theorem takenAs_eq (s p : State) (x : Exchange) (q : Request) (h : s.takenAs x q p) : ∃ a b A B,
    p = { s with env := { s.env with silenceA := a, silenceB := b }
                 live := { s.live with laneA := A, laneB := B } } := by
  rcases h with ⟨h, rfl⟩ | ⟨ha, ho, hm, hpr, rfl⟩
  · exact paired_eq s x q
  · exact exchange_eq s x

theorem both_of_taken {α : Type} (F : Env → Live → α) (s p : State) (x : Exchange) (q : Request)
    (h : s.takenAs x q p)
    (hF : ∀ (v : Env) (d : Live) a b A B, F { v with silenceA := a, silenceB := b }
        { d with laneA := A, laneB := B } = F v d := by intros; rfl) :
    F p.env p.live = F s.env s.live := by
  obtain ⟨a, b, A, B, h⟩ := takenAs_eq s p x q h
  rw [h]; exact hF _ _ _ _ _ _

theorem stands_of_taken (s p : State) (x : Exchange) (q : Request) (h : s.takenAs x q p) (e : Live) :
    (p.live.claimsStand e → s.live.claimsStand e) ∧ (p.live.throwsStand e → s.live.throwsStand e) ∧
        (p.live.faultsStand e → s.live.faultsStand e)
    ∧ (p.live.handoverStands e → s.live.handoverStands e) ∧ (p.live.slotsJudged e →
        s.live.slotsJudged e) :=
  frame_of_same (both_of_taken (fun _ d => d.control) s p x q h) (both_of_taken (fun _ d => d.slot)
      s p x q h) (both_of_taken (fun _ d => d.orders) s p x q h)
   (both_of_taken (fun _ d => d.power) s p x q h) (both_of_taken (fun _ d => d.links) s p x q h)
       (both_of_taken (fun _ d => d.boundaries) s p x q h)

end Sys2Proof.Machine
end

