-- ==== Sys2Proof/Laws/Local.lean ====
section
/-! SUPPORT. What stays local to one boundary and its link while the Handover Controller answers a frame on
an UP link with room to send: `Quiet` is a judgement of the Route Setter and perhaps a re-evaluation
    asked
for; `Local` adds changes of that boundary, of its exit slot's needs and of its link's transmit
    queue (R157
to R164). -/

namespace Sys2Proof.Machine

open Sys2Proof

/-- Calm but for the request of a re-evaluation. -/
def Quiet (d e : Live) : Prop := Calm d (e.setReeval d.reeval)

theorem Calm.withReeval {d e : Live} (h : Calm d e) (r : Bool) : Calm (d.setReeval r) (e.setReeval r) :=
  { requests := fun l => by have := h.requests l; cases l <;> exact this
    out := fun l => by have := h.out l; cases l <;> exact this
    reports := fun l => by have := h.reports l; cases l <;> exact this
    appended := fun l => by have := h.appended l; cases l <;> exact this
    stored := h.stored, orders := h.orders, power := h.power, groups := h.groups, links := h.links
    boundaries := h.boundaries, reeval := rfl, nums := h.nums, control := h.control,
        slotCount := h.slotCount, slot := h.slot }

theorem Calm.quiet {d e : Live} (h : Calm d e) : Quiet d e := by
  unfold Quiet; rw [Live.setReeval_self _ h.reeval]; exact h
theorem Quiet.trans {d e f : Live} (h : Quiet d e) (k : Quiet e f) : Quiet d f := by
  unfold Quiet at *
  exact h.trans (Calm.withReeval k d.reeval)
theorem quiet_setReeval (d : Live) (r : Bool) : Quiet d (d.setReeval r) := Calm.refl d
theorem Quiet.ite {d e f : Live} {c : Prop} [Decidable c] (h : Quiet d e) (k : Quiet d f) :
    Quiet d (if c then e else f) := by
  split
  · exact h
  · exact k

theorem quiet_reportChange (b : Nat) (x : Boundary) (r : Option Nat) (d : Live) :
    Quiet d (reportChange b x r d) :=
  Quiet.ite (calm_report d _).quiet (Calm.refl d).quiet

theorem quiet_handOnBoundary (v : Env) (b : Nat) (x : Boundary) (d : Live) :
    Quiet d (handOnBoundary v b x d) := by
  unfold handOnBoundary
  have h1 : ∀ c : Bool, Quiet d (if c then evaluateExit v b d else d) :=
    fun c => Quiet.ite (calm_evaluateExit v b d).quiet (Calm.refl d).quiet
  have h2 : ∀ (c : Bool) (p : Prop) [Decidable p], Quiet d (if p then
      (match (d.boundary b).exitSlot with
        | some i => testPositioning v i (if c then evaluateExit v b d else d)
        | none => if c then evaluateExit v b d else d)
      else if c then evaluateExit v b d else d) := by
    intro c p _
    refine Quiet.ite ?_ (h1 c)
    split
    · exact (h1 c).trans (calm_testPositioning v _ _).quiet
    · exact h1 c
  exact Quiet.ite ((h2 _ _).trans (quiet_setReeval _ true)) (h2 _ _)

theorem quiet_boundaryEvent (v : Env) (b : Nat) (r : Option Nat) (f : Live → Live) (d : Live) :
    Quiet (f d) (boundaryEvent v b r f d) :=
  (quiet_reportChange b _ r (f d)).trans (quiet_handOnBoundary v b _ _)

theorem quiet_event {v : Env} {b : Nat} {r : Option Nat} {f : Live → Live} {d m : Live} (h : f d = m) :
    Quiet m (boundaryEvent v b r f d) := h ▸ quiet_boundaryEvent v b r f d

/-- what touches only one link's transmit queue and one boundary -/
structure Local (l b : Nat) (d e : Live) : Prop where
  state : (e.link l).state = (d.link l).state
  rx : (e.link l).rx = (d.link l).rx
  silence : (e.link l).silence = (d.link l).silence
  stop : (e.link l).remoteStop = (d.link l).remoteStop
  tx : (d.link l).tx <+: (e.link l).tx
  links : ∀ j, j ≠ l → e.link j = d.link j
  count : e.links.length = d.links.length
  bounds : ∀ k, k ≠ b → e.boundary k = d.boundary k
  bnums : e.boundaries.map Boundary.num = d.boundaries.map Boundary.num
  control : ∀ n, (e.control n).still = (d.control n).still
  stored : e.stored = d.stored
  orders : e.orders = d.orders
  power : e.power = d.power
  groups : e.groups = d.groups
  ports : d.portsStand e

theorem Local.trans {l b : Nat} {d e f : Live} (h : Local l b d e) (k : Local l b e f) :
    Local l b d f :=
  ⟨k.state.trans h.state, k.rx.trans h.rx, k.silence.trans h.silence, k.stop.trans h.stop,
      h.tx.trans k.tx, fun j hj => (k.links j hj).trans (h.links j hj), k.count.trans h.count,
   fun j hj => (k.bounds j hj).trans (h.bounds j hj), k.bnums.trans h.bnums, fun n =>
       (k.control n).trans (h.control n), k.stored.trans h.stored, k.orders.trans h.orders,
   k.power.trans h.power, k.groups.trans h.groups, fun l => ⟨(k.ports l).1.trans (h.ports l).1,
       (k.ports l).2.1.trans (h.ports l).2.1, (h.ports l).2.2.trans (k.ports l).2.2⟩⟩

theorem Quiet.loc {l b : Nat} {d e : Live} (h : Quiet d e) : Local l b d e := by
  have hl : e.links = d.links := h.links
  have hb : e.boundaries = d.boundaries := h.boundaries
  refine ⟨by rw [Live.link_congr hl], by rw [Live.link_congr hl], by rw [Live.link_congr hl], by rw [Live.link_congr hl], by rw [Live.link_congr hl], fun j _ => Live.link_congr hl j,
    by rw [hl], fun j _ => Live.boundary_congr hb j, by rw [hb], h.control, h.stored, h.orders, h.power, h.groups, ?_⟩
  intro l
  have := h.portsStand l
  cases l <;> exact this

theorem Local.refl (l b : Nat) (d : Live) : Local l b d d := (Calm.refl d).quiet.loc

theorem loc_setBoundary (d : Live) (l b : Nat) (f : Boundary → Boundary)
    (hf : ∀ x, (f x).num = x.num) : Local l b d (d.setBoundary b f) where
  state := rfl
  rx := rfl
  silence := rfl
  stop := rfl
  tx := List.prefix_rfl
  links _ _ := rfl
  count := rfl
  bounds k hk := by
    have := d.boundary_setBoundary b k f hf
    rw [this, if_neg (fun h => hk h.1)]
  bnums := d.setBoundary_nums b f hf
  control _ := rfl
  stored := rfl
  orders := rfl
  power := rfl
  groups := rfl
  ports l := by cases l <;> exact ⟨rfl, rfl, List.prefix_rfl⟩

theorem loc_setSlot (l b i : Nat) (f : Slot → Slot) (d : Live) : Local l b d (d.setSlot i f) where
  state := rfl
  rx := rfl
  silence := rfl
  stop := rfl
  tx := List.prefix_rfl
  links _ _ := rfl
  count := rfl
  bounds _ _ := rfl
  bnums := rfl
  control _ := rfl
  stored := rfl
  orders := rfl
  power := rfl
  groups := rfl
  ports l := by cases l <;> exact ⟨rfl, rfl, List.prefix_rfl⟩

theorem loc_send (l b : Nat) (f : NFrame) (d : Live) : Local l b d (d.setLink l (fun k =>
    { k with tx := k.tx ++ [f] })) := by
  have h := d.link_setLink l l (fun k => { k with tx := k.tx ++ [f] })
  refine ⟨?_, ?_, ?_, ?_, ?_, fun j hj => ?_,
      by simp, fun _ _ => rfl, rfl, fun _ => rfl, rfl, rfl, rfl, rfl, fun l => by cases l <;> exact ⟨rfl, rfl, List.prefix_rfl⟩⟩
  · rw [h]; split <;> rfl
  · rw [h]; split <;> rfl
  · rw [h]; split <;> rfl
  · rw [h]; split <;> rfl
  · rw [h]; split
    · simp
    · exact List.prefix_rfl
  · exact d.link_setLink_ne (fun e => hj e.symm) _

theorem Local.ite {l b : Nat} {d e f : Live} {c : Prop} [Decidable c] (h : Local l b d e) (k :
    Local l b d f) : Local l b d (if c then e else f) := by
  split
  · exact h
  · exact k

@[simp] theorem links_setNeeds (k : Nat) (f : Slot → Slot) (d : Live) :
    (setNeeds k f d).links = d.links := by
  unfold setNeeds; split <;> rfl
@[simp] theorem boundaries_setNeeds (k : Nat) (f : Slot → Slot) (d : Live) :
    (setNeeds k f d).boundaries = d.boundaries := by
  unfold setNeeds; split <;> rfl

theorem loc_setNeeds (l b : Nat) (k : Nat) (f : Slot → Slot) (d : Live) :
    Local l b d (setNeeds k f d) := by
  unfold setNeeds; split
  · exact loc_setSlot l b _ f d
  · exact Local.refl l b d

theorem loc_setDirection (l b : Nat) (dir : Direction) (d : Live) : Local l b d (setDirection b dir
    d) := by
  unfold setDirection
  have h : Local l b d (d.setBoundary b (fun x => { x with direction := dir })) := by
    exact loc_setBoundary d l b _ (fun _ => rfl)
  exact Local.ite (h.trans (loc_setNeeds l b b _ _)) h

theorem loc_setAcceptance (l b : Nat) (acc : Acceptance) (t : Option Time) (d : Live) : Local l b d (setAcceptance b acc t d) := by
  unfold setAcceptance
  have h : Local l b d (d.setBoundary b (fun x => { x with acceptance := acc, accExpiry := t, awaiting := if acc = .none then false else x.awaiting })) := by
    exact loc_setBoundary d l b _ (fun _ => rfl)
  exact Local.ite (h.trans (loc_setNeeds l b b _ _)) (Local.ite (h.trans (loc_setNeeds l b b _ _)) h)

/-- the links stand through a change of direction or acceptance -/
theorem links_setDirection (b : Nat) (dir : Direction) (d : Live) :
    (setDirection b dir d).links = d.links := by
  unfold setDirection; simp only; split <;> simp
theorem links_setAcceptance (b : Nat) (acc : Acceptance) (t : Option Time) (d : Live) :
    (setAcceptance b acc t d).links = d.links := by
  unfold setAcceptance; simp only; split
  · simp
  · split <;> simp

theorem sendFrom_eq {v : Env} {b : Nat} {bd : BoundaryDef} (h : v.boundary? b = some bd) (f : Nat →
    NFrame) (d : Live)
    (hu : (d.link bd.link).state = .up) (ht : (d.link bd.link).tx.length < 16) :
    sendFrom v b f d = d.setLink bd.link (fun k => { k with tx := k.tx ++ [f bd.linkNumber] }) := by
  unfold sendFrom enqueue
  simp [h, hu, Config.transmitCapacity, ht]

theorem loc_sendFrom {v : Env} {b : Nat} {bd : BoundaryDef} (h : v.boundary? b = some bd) (f : Nat →
    NFrame) (d : Live)
    (hu : (d.link bd.link).state = .up) (ht : (d.link bd.link).tx.length < 16) : Local bd.link b d
        (sendFrom v b f d) := by
  rw [sendFrom_eq h f d hu ht]; exact loc_send _ _ _ _

theorem loc_tryAccept {v : Env} {b : Nat} {bd : BoundaryDef} (h : v.boundary? b = some bd) (d : Live)
    (hu : (d.link bd.link).state = .up) (ht : (d.link bd.link).tx.length < 16) : Local bd.link b d
        (tryAccept v b d) := by
  unfold tryAccept
  refine Local.ite ?_ (Local.refl _ _ _)
  have hl := links_setAcceptance b .requested (some (after v.now v.timing.response)) d
  refine (loc_setAcceptance _ _ _ _ _).trans (loc_sendFrom h _ _ ?_ ?_)
  · rw [Live.link_congr hl]; exact hu
  · rw [Live.link_congr hl]; exact ht

theorem loc_tryOffer {v : Env} {b : Nat} {bd : BoundaryDef} (h : v.boundary? b = some bd) (d : Live)
    (hu : (d.link bd.link).state = .up) (ht : (d.link bd.link).tx.length < 16) : Local bd.link b d
        (tryOffer v b d) := by
  unfold tryOffer
  refine Local.ite ?_ (Local.refl _ _ _)
  have h1 : Local bd.link b d (d.setBoundary b (fun x => { x with waiting := false }))
      := loc_setBoundary d _ b _ (fun _ => rfl)
  have hl := links_setDirection b .inward (d.setBoundary b (fun x => { x with waiting := false }))
  refine (h1.trans (loc_setDirection _ _ _ _)).trans (loc_sendFrom h _ _ ?_ ?_)
  · rw [Live.link_congr hl]; exact hu
  · rw [Live.link_congr hl]; exact ht

/-- the boundary after a change of direction -/
theorem boundary_setDirection (b : Nat) (dir : Direction) (d : Live) (hb : d.hasBoundary b) :
    (setDirection b dir d).boundary b = { d.boundary b with direction := dir } := by
  have h := d.boundary_setBoundary b b (fun x => { x with direction := dir }) (fun _ => rfl)
  rw [if_pos ⟨rfl, hb⟩] at h
  unfold setDirection; simp only; split
  · rw [Live.boundary_congr (boundaries_setNeeds _ _ _)]; exact h
  · exact h
theorem boundary_setAcceptance (b : Nat) (acc : Acceptance) (t : Option Time) (d : Live) (hb :
    d.hasBoundary b) :
    (setAcceptance b acc t d).boundary b = { d.boundary b with
      acceptance := acc, accExpiry := t, awaiting := if acc = .none then false else (d.boundary b).awaiting } := by
  have h := d.boundary_setBoundary b b (fun x => { x with acceptance := acc, accExpiry := t, awaiting := if acc = .none then false else x.awaiting }) (fun _ => rfl)
  rw [if_pos ⟨rfl, hb⟩] at h
  unfold setAcceptance; simp only; split
  · rw [Live.boundary_congr (boundaries_setNeeds _ _ _)]; exact h
  · split
    · rw [Live.boundary_congr (boundaries_setNeeds _ _ _)]; exact h
    · exact h

theorem boundary_sendFrom {v : Env} {b : Nat} {bd : BoundaryDef} (h : v.boundary? b = some bd) (f :
    Nat → NFrame) (d : Live)
    (hu : (d.link bd.link).state = .up) (ht : (d.link bd.link).tx.length < 16) (k : Nat) :
        (sendFrom v b f d).boundary k = d.boundary k := by
  rw [sendFrom_eq h f d hu ht]; rfl

theorem Quiet.boundary {d e : Live} (h : Quiet d e) (k : Nat) : e.boundary k = d.boundary k :=
  Live.boundary_congr (show e.boundaries = d.boundaries from h.boundaries) k
theorem Quiet.link {d e : Live} (h : Quiet d e) (k : Nat) : e.link k = d.link k :=
  Live.link_congr (show e.links = d.links from h.links) k

theorem named_spec {v : Env} {l n : Nat} {bd : BoundaryDef} (h : v.namedBoundary l n = some bd) :
    bd.link = l ∧ bd.linkNumber = n := by
  unfold Env.namedBoundary Env.linkBoundaries at h
  have h1 := List.find?_some h
  have h2 := List.mem_of_find?_eq_some h
  simp at h1 h2
  exact ⟨h2.2, h1⟩

/-- a frame for an UP link taken: what the applied part starts from -/
theorem taken_state (v : Env) (l : Nat) (f : NFrame) (fs : List NFrame) (d : Live) (hl :
    l < d.links.length) (hrx : (d.link l).rx = f :: fs) :
    (restartSilence v l (popFrame l d)).link l = { d.link l with rx := fs, silence := some (after v.now v.timing.linkTimeout) }
    ∧ (∀ j, j ≠ l → (restartSilence v l (popFrame l d)).link j = d.link j) := by
  unfold restartSilence popFrame
  constructor
  · have a := (d.setLink l (fun k => { k with rx := k.rx.drop 1 })).link_setLink_self (l := l)
        (by simpa using hl) (fun k => { k with silence := some (after v.now v.timing.linkTimeout) })
    rw [a]
    have c := d.link_setLink_self hl (fun k => { k with rx := k.rx.drop 1 })
    rw [c, hrx]; rfl
  · intro j hj
    rw [Live.link_setLink_ne _ (fun e => hj e.symm), Live.link_setLink_ne _ (fun e => hj e.symm)]

theorem takeFrame_eq {α : Type} (v : Env) (l n : Nat) (pick : NFrame → Option (Nat × α)) (ap : Nat →
    α → Live → Live) (d : Live) (f : NFrame) (fs : List NFrame)
    (a : α) (bd : BoundaryDef) (hrx : (d.link l).rx = f :: fs) (hp : pick f = some (n, a)) (hu :
        (d.link l).state = .up) (hb : v.namedBoundary l n = some bd) :
    takeFrame v l pick ap d = ap bd.number a (restartSilence v l (popFrame l d)) := by
  unfold takeFrame
  rw [hrx]
  simp [hp, hu, hb]


/-- The boundary after an acceptance asked for: only its acceptance and expiry may differ. -/
theorem boundary_tryAccept {v : Env} {b : Nat} {bd : BoundaryDef} (h : v.boundary? b = some bd) (d :
    Live)
    (hb : d.hasBoundary b) (hu : (d.link bd.link).state = .up) (ht : (d.link bd.link).tx.length < 16) :
    ∃ acc t, (tryAccept v b d).boundary b = { d.boundary b with acceptance := acc, accExpiry := t
        } := by
  unfold tryAccept
  have hl := links_setAcceptance b .requested (some (after v.now v.timing.response)) d
  simp only
  split
  · rw [boundary_sendFrom h _ _ (by rw [Live.link_congr hl]; exact hu) (by rw [Live.link_congr hl]; exact ht),
      boundary_setAcceptance b _ _ d hb]
    exact ⟨_, _, rfl⟩
  · exact ⟨_, _, rfl⟩

/-- A boundary made OUTWARD: no request outstanding, and perhaps an acceptance asked for. -/
theorem becomeOutward_all {v : Env} {b : Nat} {bd : BoundaryDef} (h : v.boundary? b = some bd) (d : Live)
    (hb : d.hasBoundary b) (hu : (d.link bd.link).state = .up) (ht : (d.link bd.link).tx.length < 16) :
    Local bd.link b d (becomeOutward v b d)
      ∧ ∃ acc t, (becomeOutward v b d).boundary b
        = { d.boundary b with direction := .outward, reqExpiry := none, acceptance := acc, accExpiry := t } := by
  have L1 : Local bd.link b d (d.setBoundary b (fun x => { x with reqExpiry := none })) := by
    exact loc_setBoundary d _ b _ (fun _ => rfl)
  have B1 := d.boundary_setBoundary_self hb (fun x => { x with reqExpiry := none }) (fun _ => rfl)
  unfold becomeOutward
  simp only
  split
  · next hd => exact ⟨L1, _, _, by rw [B1, ← hd]⟩
  · have hb1 : (d.setBoundary b (fun x => { x with reqExpiry := none })).hasBoundary b := by
      unfold Live.hasBoundary; rw [d.setBoundary_nums _ _ (by exact fun _ => rfl)]; exact hb
    have L2 := L1.trans (loc_setDirection bd.link b .outward _)
    have hl2 := links_setDirection b .outward (d.setBoundary b (fun x => { x with reqExpiry := none }))
    have B2 := boundary_setDirection b .outward _ hb1
    have hb2 : (setDirection b .outward (d.setBoundary b (fun x => { x with reqExpiry := none }))).hasBoundary b := by
      unfold Live.hasBoundary; rw [L2.bnums]; exact hb
    have hu2 : ((setDirection b .outward (d.setBoundary b (fun x => { x with reqExpiry := none }))).link
        bd.link).state = .up := by rw [Live.link_congr hl2]; exact hu
    have ht2 : ((setDirection b .outward (d.setBoundary b (fun x => { x with reqExpiry := none }))).link
        bd.link).tx.length < 16 := by rw [Live.link_congr hl2]; exact ht
    obtain ⟨acc, t, B3⟩ := boundary_tryAccept h _ hb2 hu2 ht2
    exact ⟨L2.trans (loc_tryAccept h _ hu2 ht2), acc, t, by rw [B3, B2, B1]⟩

theorem handOn_unmoved (v : Env) (b : Nat) (x : Boundary) (d : Live) (h1 : x.direction = (d.boundary b).direction) (h2 : x.acceptance = (d.boundary b).acceptance)
    (h3 : x.restricted = (d.boundary b).restricted) : handOnBoundary v b x d = d := by
  unfold handOnBoundary
  simp [h1, h2, h3]

theorem lockBerth_fold (b : Nat) (ns : List Nat) (d : Live) (h : ∀ k ∈ ns, d.hasControl k) :
    let e := ns.foldl (fun d n => d.setControl n (fun c => { c with lock := some { holder := .berth b, mode := .berth } })) d
    (∀ k, (e.control k).lock = if k ∈ ns then some { holder := .berth b, mode := .berth } else (d.control k).lock)
    ∧ (∀ k, ({ e.control k with lock := none } : Control) = { d.control k with lock := none })
    ∧ e.links = d.links ∧ e.boundaries = d.boundaries ∧ e.slots = d.slots ∧ e.stored = d.stored ∧ e.orders = d.orders ∧ e.power = d.power ∧ e.groups = d.groups
    ∧ e.reeval = d.reeval ∧ e.laneA = d.laneA ∧ e.laneB = d.laneB := by
  induction ns generalizing d with
  | nil => simp
  | cons n ns ih =>
    have hc : ∀ j, (d.setControl n (fun c => { c with lock := some { holder := .berth b, mode := .berth } })).control j =
       if j = n ∧ d.hasControl n then { d.control n with lock := some { holder := .berth b, mode := .berth } } else d.control j := by
      intro j
      exact d.control_setControl n j (fun c => { c with lock := some { holder := .berth b, mode := .berth } }) (fun _ => rfl)
    have := ih (d.setControl n (fun c => { c with lock := some { holder := .berth b, mode := .berth
        } })) (fun k hk => by
      have := h k (by simp [hk])
      unfold Live.hasControl at *
      rw [d.setControl_nums n _ (by exact fun _ => rfl)]; exact this)
    obtain ⟨i1, i2, i3⟩ := this
    refine ⟨fun k => ?_, fun k => ?_, i3⟩
    · simp only [List.foldl_cons]
      rw [i1 k, hc k]
      by_cases hk : k ∈ ns
      · simp [hk]
      · by_cases hkn : k = n
        · subst hkn; rw [if_neg hk, if_pos ⟨rfl, h k (by simp)⟩]; simp
        · simp [hk, hkn]
    · simp only [List.foldl_cons]
      rw [i2 k, hc k]
      split
      · next hh => rw [hh.1]
      · rfl

/-- An offer made or not: the acceptance and its expiry stand. -/
theorem tryOffer_all {v : Env} {b : Nat} {bd : BoundaryDef} (h : v.boundary? b = some bd) (d : Live)
    (hb : d.hasBoundary b) (ht : (d.link bd.link).tx.length < 16) :
    Local bd.link b d (tryOffer v b d)
      ∧ ∃ dir w, (tryOffer v b d).boundary b = { d.boundary b with direction := dir, waiting := w } := by
  by_cases hu : (d.link bd.link).state = .up
  · refine ⟨loc_tryOffer h d hu ht, ?_⟩
    unfold tryOffer
    simp only
    split
    · have hl := links_setDirection b .inward (d.setBoundary b (fun x => { x with waiting := false }))
      rw [boundary_sendFrom h _ _
          (by rw [Live.link_congr hl]; exact hu) (by rw [Live.link_congr hl]; exact ht)]
      have hb1 : (d.setBoundary b (fun x => { x with waiting := false })).hasBoundary b := by
        unfold Live.hasBoundary; rw [d.setBoundary_nums _ _ (by exact fun _ => rfl)]; exact hb
      rw [boundary_setDirection b _ _ hb1, d.boundary_setBoundary_self hb _ (by exact fun _ => rfl)]
      exact ⟨_, _, rfl⟩
    · exact ⟨_, _, rfl⟩
  · have : tryOffer v b d = d := by
      unfold tryOffer
      simp only
      rw [if_neg]
      simp [linkUp, h, hu]
    rw [this]
    exact ⟨Local.refl _ _ _, _, _, rfl⟩

theorem calm_exitAspect (v : Env) (b : Nat) (d : Live) : Calm d (exitAspect v b d) := by
  unfold exitAspect
  split
  · split
    · exact Calm.ite (calm_computeAspect _ _ _) (Calm.refl _)
    · exact Calm.refl _
  · exact Calm.refl _

/-- frames of a Local act -/
theorem Local.frames {l b : Nat} {d e : Live} (h : Local l b d e) : d.claimsStand e ∧
    d.throwsStand e ∧ d.faultsStand e :=
  ⟨fun n => Control.claims_of_base (Control.base_of_still (h.control n)),
   ⟨fun n => Control.motion_of_base (Control.base_of_still (h.control n)), h.orders, h.power⟩,
   fun n => Control.faults_of_still (h.control n)⟩

theorem watched_clearBoundaryFaults (v : Env) (b : Nat) (d : Live) :
    Watched d (clearBoundaryFaults v b d) := by
  unfold clearBoundaryFaults
  split
  · exact (watched_endFault _ _ _ _).trans (watched_endFault _ _ _ _)
  · exact Watched.refl _

end Sys2Proof.Machine
end

