-- ==== Sys2Proof/Laws/Releases.lean ====
section
/-! SUPPORT. What a release does: which locks, flank counts and slots it leaves (R45, R46, R58, R70, R117 to R125,
R165). -/

namespace Sys2Proof.Machine

open Sys2Proof

theorem slotOf_spec {d : Live} {r i : Nat} (h : d.slotOf r = some i) :
    i < d.slots.length ∧ (d.slot i).active = true ∧ (d.slot i).route = some r := by
  unfold Live.slotOf at h
  have h1 := List.mem_of_find?_eq_some h
  have h2 := List.find?_some h
  unfold Live.slotIds at h1
  simp at h1 h2
  exact ⟨h1, h2.1, h2.2⟩

theorem changeSlot_made (v : Env) (i : Nat) (f : Slot → Slot) (d : Live) :
    d.made (slotReport (d.setSlot i f) i none) (changeSlot v i f d) := by
  unfold changeSlot changeSlotBy
  have h0 : d.made (slotReport (d.setSlot i f) i none) ((d.setSlot i f).report (slotReport
      (d.setSlot i f) i none)) :=
    (made_report _ _).of_same (fun l => by cases l <;> rfl)
  simp only
  split
  · exact h0.mono (fun l => (calm_computeAspect _ _ _).appended l)
  · exact h0

theorem setSlot_slot_self {d : Live} {i : Nat} (h : i < d.slots.length) (f : Slot → Slot) :
    (d.setSlot i f).slot i = f (d.slot i) := by
  rw [d.slot_setSlot]; simp [h]

theorem setSlot_slot_ne {d : Live} {i j : Nat} (h : j ≠ i) (f : Slot → Slot) :
    (d.setSlot i f).slot j = d.slot j := by
  rw [d.slot_setSlot]; simp [h, Ne.symm h]

/-- the common part -/
theorem toCancelling (v : Env) (i : Nat) (e : Time) (s : State) (d : Live) (A B : LanePort)
    (hd : d = { s.live with laneA := A, laneB := B }) (hi : i < s.live.slots.length) :
    (changeSlot v i (Slot.toCancelling e) d).slot i = (s.live.slot i).toCancelling e
    ∧ (∀ j, j ≠ i → (s.live.slot j).judged ((changeSlot v i (Slot.toCancelling e) d).slot j))
    ∧ s.live.claimsStand (changeSlot v i (Slot.toCancelling e) d)
    ∧ s.live.throwsStand (changeSlot v i (Slot.toCancelling e) d)
    ∧ s.live.faultsStand (changeSlot v i (Slot.toCancelling e) d)
    ∧ s.live.handoverStands (changeSlot v i (Slot.toCancelling e) d)
    ∧ d.portsStand (changeSlot v i (Slot.toCancelling e) d)
    ∧ (changeSlot v i (Slot.toCancelling e) d).stored = s.live.stored
    ∧ (changeSlot v i (Slot.toCancelling e) d).groups = s.live.groups
    ∧ (changeSlot v i (Slot.toCancelling e) d).reeval = s.live.reeval := by
  have hc := calm_changeSlot v i (Slot.toCancelling e) d
  have hi' : i < d.slots.length := by rw [hd]; exact hi
  have hs : ∀ j, d.slot j = s.live.slot j := by intro j; rw [hd]; rfl
  refine ⟨?_, ?_, ?_, ?_, ?_, ?_, ?_, ?_, ?_, ?_⟩
  · rw [(hc.slot i).still, setSlot_slot_self hi', hs]
    rw [setSlot_slot_self hi']; rfl
  · intro j hj
    have := (hc.slot j).judged
    rwa [setSlot_slot_ne hj, hs] at this
  · have := hc.claimsStand; rw [hd] at this ⊢; exact this
  · have := hc.throwsStand; rw [hd] at this ⊢; exact this
  · have := hc.faultsStand; rw [hd] at this ⊢; exact this
  · have := hc.handoverStands; rw [hd] at this ⊢; exact this
  · intro l
    obtain ⟨h1, h2, h3⟩ := hc.portsStand l
    cases l <;> exact ⟨h1, h2, h3⟩
  · rw [hc.stored, hd]; rfl
  · rw [hc.groups, hd]; rfl
  · rw [hc.reeval, hd]; rfl

/-- The tables other than controls and slots stand. -/
structure SameTables (d e : Live) : Prop where
  laneA : e.laneA = d.laneA
  laneB : e.laneB = d.laneB
  stored : e.stored = d.stored
  orders : e.orders = d.orders
  power : e.power = d.power
  groups : e.groups = d.groups
  links : e.links = d.links
  boundaries : e.boundaries = d.boundaries

theorem SameTables.refl (d : Live) : SameTables d d := ⟨rfl, rfl, rfl, rfl, rfl, rfl, rfl, rfl⟩

theorem SameTables.trans {d e f : Live} (h : SameTables d e) (k : SameTables e f) : SameTables d f :=
  ⟨k.1.trans h.1, k.2.trans h.2, k.3.trans h.3, k.4.trans h.4, k.5.trans h.5, k.6.trans h.6,
      k.7.trans h.7, k.8.trans h.8⟩

/-- removing locks -/
theorem removeLock_same (v : Env) (h : Holder) (n : Nat) (r : Release) :
    SameTables r.live (r.removeLock v h n).live ∧ (r.removeLock v h n).live.slots = r.live.slots := by
  unfold Release.removeLock
  split
  · split
    · exact ⟨⟨rfl, rfl, rfl, rfl, rfl, rfl, rfl, rfl⟩, rfl⟩
    · exact ⟨SameTables.refl _, rfl⟩
  · exact ⟨SameTables.refl _, rfl⟩

theorem hasControl_of_lock {d : Live} {n : Nat} {l : Lock} (h : (d.control n).lock = some l) :
    d.hasControl n := by
  unfold Live.control at h
  split at h
  · next c hc =>
    have h1 := List.mem_of_find?_eq_some hc
    have h2 := List.find?_some hc
    exact List.mem_map.mpr ⟨c, h1, by simpa using h2⟩
  · cases h

theorem removeLock_lock (v : Env) (h : Holder) (n m : Nat) (r : Release) :
    ((r.removeLock v h n).live.control m).lock =
      if m = n ∧ (r.live.control m).lock.any (fun k => k.holder = h) = true then none
          else (r.live.control m).lock := by
  unfold Release.removeLock
  split
  · next l hl =>
    split
    · next hh =>
      have h5 := r.live.control_setControl n m (fun c => { c with lock := none }) (fun _ => rfl)
      simp only
      rw [h5]
      have hc := hasControl_of_lock hl
      by_cases hm : m = n
      · subst hm; simp [hl, hh, hc]
      · simp [hm]
    · next hh =>
      by_cases hm : m = n
      · subst hm; simp [hl, hh]
      · simp [hm]
  · next hl =>
    by_cases hm : m = n
    · subst hm; simp [hl]
    · simp [hm]

theorem removeLocks_all (v : Env) (h : Holder) (ns : List Nat) (r : Release) :
    SameTables r.live (r.removeLocks v h ns).live ∧ (r.removeLocks v h ns).live.slots = r.live.slots
    ∧ ∀ m, ((r.removeLocks v h ns).live.control m).lock =
      if m ∈ ns ∧ (r.live.control m).lock.any (fun k => k.holder = h) = true then none
          else (r.live.control m).lock := by
  unfold Release.removeLocks
  induction ns generalizing r with
  | nil => exact ⟨SameTables.refl _, rfl, fun m => by simp⟩
  | cons n ns ih =>
    obtain ⟨i1, i2, i3⟩ := ih (r.removeLock v h n)
    obtain ⟨j1, j2⟩ := removeLock_same v h n r
    refine ⟨j1.trans i1, i2.trans j2, fun m => ?_⟩
    simp only [List.foldl_cons]
    rw [i3, removeLock_lock]
    by_cases hm : m = n <;> by_cases hs : m ∈ ns <;> by_cases ha : (r.live.control m).lock.any
        (fun k => k.holder = h) = true <;> simp [hm, hs, ha]
    all_goals (subst hm; simp_all)

theorem giveUp_all (q : Protector) (r : Release) :
    SameTables r.live (r.giveUp q).live ∧ (r.giveUp q).live.slots = r.live.slots
    ∧ ∀ m, ((r.giveUp q).live.control m).lock = (r.live.control m).lock := by
  have key : ∀ (n : Nat) (f : Control → Control), (∀ c, (f c).num = c.num) → (∀ c, (f c).lock = c.lock) → ∀ m,
      ((r.live.setControl n f).control m).lock = (r.live.control m).lock := by
    intro n f h1 h2 m
    rw [r.live.control_setControl n m f h1]
    split
    · next h => rw [h2, h.1]
    · rfl
  unfold Release.giveUp
  cases q with
  | point n pos =>
    refine ⟨?_, ?_, ?_⟩
    · simp only; split <;> exact ⟨rfl, rfl, rfl, rfl, rfl, rfl, rfl, rfl⟩
    · simp only; split <;> rfl
    · intro m
      have := key n (fun c => c.setCount pos ((r.live.control n).count pos - 1)) (fun c => by cases pos <;> rfl) (fun c => by cases pos <;> rfl) m
      simp only; split <;> exact this
  | signal n =>
    refine ⟨?_, ?_, ?_⟩
    · simp only; split <;> exact ⟨rfl, rfl, rfl, rfl, rfl, rfl, rfl, rfl⟩
    · simp only; split <;> rfl
    · intro m
      have := key n (fun c => { c with holdCount := (r.live.control n).holdCount - 1 }) (fun c => rfl) (fun c => rfl) m
      simp only; split <;> exact this

theorem giveUpRecord_all (i k : Nat) (r : Release) :
    SameTables r.live (r.giveUpRecord i k).live
    ∧ (∀ j, j ≠ i → (r.giveUpRecord i k).live.slot j = r.live.slot j)
    ∧ ((r.giveUpRecord i k).live.slots.length = r.live.slots.length)
    ∧ ∀ m, ((r.giveUpRecord i k).live.control m).lock = (r.live.control m).lock := by
  unfold Release.giveUpRecord
  split
  · next h hh =>
    have h0 : SameTables r.live (r.live.setSlot i (fun s => { s with flank := s.flank.set k FlankHold.released })) :=
      ⟨rfl, rfl, rfl, rfl, rfl, rfl, rfl, rfl⟩
    simp only
    split
    · next q _ =>
      obtain ⟨a1, a2, a3⟩ := giveUp_all q { r with live := r.live.setSlot i (fun s =>
          { s with flank := s.flank.set k FlankHold.released }) }
      refine ⟨h0.trans a1, fun j hj => ?_, ?_, fun m => by rw [a3]; rfl⟩
      · have : ∀ (d e : Live), e.slots = d.slots → ∀ j, e.slot j = d.slot
            j := by intro d e h j; unfold Live.slot; rw [h]
        rw [this _ _ a2 j]; exact setSlot_slot_ne hj _
      · rw [a2]; simp
    · exact ⟨h0, fun j hj => setSlot_slot_ne hj _, by simp, fun m => rfl⟩
  · exact ⟨SameTables.refl _, fun _ _ => rfl, rfl, fun _ => rfl⟩

theorem giveUpRecords_all (i : Nat) (ks : List Nat) (r : Release) :
    SameTables r.live (r.giveUpRecords i ks).live
    ∧ (∀ j, j ≠ i → (r.giveUpRecords i ks).live.slot j = r.live.slot j)
    ∧ ((r.giveUpRecords i ks).live.slots.length = r.live.slots.length)
    ∧ ∀ m, ((r.giveUpRecords i ks).live.control m).lock = (r.live.control m).lock := by
  unfold Release.giveUpRecords
  induction ks generalizing r with
  | nil => exact ⟨SameTables.refl _, fun _ _ => rfl, rfl, fun _ => rfl⟩
  | cons k ks ih =>
    obtain ⟨a1, a2, a3, a4⟩ := ih (r.giveUpRecord i k)
    obtain ⟨b1, b2, b3, b4⟩ := giveUpRecord_all i k r
    exact ⟨b1.trans a1, fun j hj => (a2 j hj).trans (b2 j hj), a3.trans b3, fun m =>
        (a4 m).trans (b4 m)⟩

theorem wholeRelease_all (v : Env) (i : Nat) (d : Live) (rt : RouteDef) (h : d.routeOf v i = some rt)
    (hi : i < d.slots.length) :
    SameTables d (wholeRelease v i (Release.start d)).live
    ∧ (wholeRelease v i (Release.start d)).live.slot i = Slot.free
    ∧ (∀ j, j ≠ i → (wholeRelease v i (Release.start d)).live.slot j = d.slot j)
    ∧ (∀ m, ((wholeRelease v i (Release.start d)).live.control m).lock =
      if m ∈ (ownPath rt (d.slot i) ++ ownOverlap rt (d.slot i)).map Entry.element ∧
          (d.control m).lock.any (fun k => k.holder = .slot i) = true then none
      else (d.control m).lock) := by
  unfold wholeRelease
  have h' : (Release.start d).live.routeOf v i = some rt := h
  simp only [h']
  obtain ⟨a1, a2, a3⟩ := removeLocks_all v (.slot i) ((ownPath rt (d.slot i) ++ ownOverlap rt
      (d.slot i)).map Entry.element) (Release.start d)
  obtain ⟨b1, b2, b3, b4⟩ := giveUpRecords_all i (List.range (d.slot i).flank.length)
    ((Release.start d).removeLocks v (.slot i) ((ownPath rt (d.slot i) ++ ownOverlap rt
        (d.slot i)).map Entry.element))
  have c1 := a1.trans b1
  have hs : ∀ (d e : Live), e.slots = d.slots → ∀ j, e.slot j = d.slot
      j := by intro d e h j; unfold Live.slot; rw [h]
  refine ⟨⟨c1.1, c1.2, c1.3, c1.4, c1.5, c1.6, c1.7, c1.8⟩, ?_, ?_, ?_⟩
  · have : i < ((Release.start d).removeLocks v (.slot i) ((ownPath rt (d.slot i) ++ ownOverlap rt
        (d.slot i)).map Entry.element) |>.giveUpRecords i (List.range
            (d.slot i).flank.length)).live.slots.length := by
      rw [b3, a2]; exact hi
    exact setSlot_slot_self this _
  · intro j hj
    refine (setSlot_slot_ne hj _).trans ?_
    exact (b2 j hj).trans (hs _ _ a2 j)
  · intro m
    exact (b4 m).trans (a3 m)

theorem routeOf_eq {d e : Live} {v : Env} {i : Nat} (hr : (e.slot i).route = (d.slot i).route)
    (ha : (e.slot i).active = (d.slot i).active) : e.routeOf v i = d.routeOf v i := by
  unfold Live.routeOf; rw [hr, ha]

theorem active_lt {d : Live} {i : Nat} (h : (d.slot i).active = true) : i < d.slots.length := by
  by_contra hn
  unfold Live.slot at h
  rw [List.getD_eq_default _ _ (by omega)] at h
  cases h

theorem routeOf_active {d : Live} {v : Env} {i : Nat} {rt : RouteDef} (h : d.routeOf v i = some rt) :
    (d.slot i).active = true := by
  unfold Live.routeOf at h
  split at h
  · assumption
  · cases h

/-- what SlotTold keeps -/
theorem told_fields {s t : Slot} (h : SlotTold s t) : t.route = s.route ∧ t.pathMarks = s.pathMarks ∧
    t.overlapMarks = s.overlapMarks ∧ t.flank = s.flank ∧ t.overlapExpiry = s.overlapExpiry ∧
        t.hold = s.hold
    ∧ t.priority = s.priority := by
  have e := h.body
  have a1 := congrArg Slot.route e
  have a2 := congrArg Slot.pathMarks e
  have a3 := congrArg Slot.overlapMarks e
  have a4 := congrArg Slot.flank e
  have a5 := congrArg Slot.overlapExpiry e
  have a6 := congrArg Slot.hold e
  have a7 := congrArg Slot.priority e
  exact ⟨a1, a2, a3, a4, a5, a6, a7⟩

theorem told_active {s t : Slot} (h : SlotTold s t) (ha : s.active = true) : t.active = true := by
  cases hn : s.needsExit with
  | false => have := h.still hn; unfold Slot.active at *; rw [this]; exact ha
  | true => have := h.goes hn; unfold Slot.active Slot.needsExit at *; cases hs : t.state <;> simp_all

/-- What giving up a slot whole leaves: the slot FREE, its locks gone, other locks and slots as they were
(R58, R122). -/
structure GaveUp (rt : RouteDef) (i : Nat) (d e : Live) : Prop where
  free : e.slot i = Slot.free
  stored : e.stored = d.stored
  locks : ∀ n, (e.control n).lock =
          if (ownPath rt (d.slot i) ++ ownOverlap rt (d.slot i)).any
              (fun e => e.element = n)
            && (d.control n).lock.any (fun k => k.holder = .slot i)
          then none else (d.control n).lock
  others : ∀ j, j ≠ i → (e.slot j).route = (d.slot j).route
          ∧ (e.slot j).pathMarks = (d.slot j).pathMarks
          ∧ (e.slot j).overlapMarks = (d.slot j).overlapMarks
          ∧ (e.slot j).flank = (d.slot j).flank
  told : ∀ j, j ≠ i → SlotTold (d.slot j) (e.slot j)
  ports : d.portsStand e

theorem giveUpSlot_all (v : Env) (i : Nat) (re : Option Reason) (quiet : Bool) (d : Live) (rt :
    RouteDef) (h : d.routeOf v i = some rt) :
    GaveUp rt i d (giveUpSlot v i re quiet d) := by
  unfold giveUpSlot
  simp only [h]
  have t1 := told_releaseExit v i quiet d
  generalize releaseExit v i quiet d = d1 at t1
  have ha := routeOf_active h
  have ha1 := told_active (t1.slot i) ha
  have hr1 : d1.routeOf v i = some
      rt := by rw [← h]; exact routeOf_eq (told_fields (t1.slot i)).1 (by rw [ha, ha1])
  obtain ⟨b1, b2, b3, b4⟩ := wholeRelease_all v i d1 rt hr1 (active_lt ha1)
  generalize wholeRelease v i (Release.start d1) = w at b1 b2 b3 b4
  have m1 := moved_handOn v w
  have m2 : Moved w.live (((w.handOn v).report (freeReport rt i re)).setReeval true) :=
    (m1.thenCalm (calm_report _ _)).trans (moved_setReeval _ _)
  generalize ((w.handOn v).report (freeReport rt i re)).setReeval true = e at m2
  refine ⟨?_, ?_, ?_, ?_, fun j hj => ?_, ?_⟩
  · rw [(m2.slot i).still, b2]; rw [b2]; rfl
  · rw [m2.stored, b1.stored, t1.stored]
  · intro n
    have e1 : (e.control n).lock = (w.live.control n).lock := congrArg Prod.fst (m2.claimsStand n)
    have e2 : (d1.control n).lock = (d.control n).lock := congrArg Prod.fst (t1.claimsStand n)
    rw [e1, b4, e2]
    have f := told_fields (t1.slot i)
    have o1 : ownPath rt (d1.slot i) = ownPath rt (d.slot i) := by unfold ownPath; rw [f.2.1]
    have o2 : ownOverlap rt (d1.slot i) = ownOverlap rt (d.slot i) := by unfold ownOverlap; rw [f.2.2.1]
    rw [o1, o2]
    congr 1
    simp [List.any_eq_true]
  · intro j hj
    have hm := m2.slot j
    have ht := told_fields (t1.slot j)
    rw [hm.route, hm.pathMarks, hm.overlapMarks, hm.flank, b3 j hj]
    exact ⟨ht.1, ht.2.1, ht.2.2.1, ht.2.2.2.1⟩
  · have hm := (m2.slot j).told
    rw [b3 j hj] at hm
    exact (t1.slot j).trans hm
  · intro l
    have p1 := t1.portsStand l
    have p2 := m2.portsStand l
    have p3 : w.live.lane l = d1.lane l := by cases l; exact b1.laneA; exact b1.laneB
    rw [p3] at p2
    exact ⟨p2.1.trans p1.1, p2.2.1.trans p1.2.1, p1.2.2.trans p2.2.2⟩

/-- end of passage: either nothing, or slot i is FREE -/
theorem endPassage_all (v : Env) (i : Nat) (d : Live) :
    (endPassage v i d = d ∨ ((endPassage v i d).slot i = Slot.free ∧ (d.slot i).state = .entered
      ∧ ∀ j, j ≠ i → SlotTold (d.slot j) ((endPassage v i d).slot j)))
    ∧ d.claimsStand (endPassage v i d) ∧ d.portsStand (endPassage v i d)
    ∧ (endPassage v i d).stored = d.stored := by
  unfold endPassage
  split
  · next rt hr =>
    simp only
    split
    · next hc =>
      simp only [Bool.and_eq_true, decide_eq_true_eq] at hc
      have t1 := told_releaseExit v i false d
      have ha1 := told_active (t1.slot i) (routeOf_active hr)
      generalize releaseExit v i false d = d1 at t1 ha1
      refine ⟨Or.inr ⟨?_, hc.1.1.1, ?_⟩, ?_, ?_, ?_⟩
      · exact setSlot_slot_self (active_lt ha1) _
      · intro j hj
        have : ((((d1.setSlot i (fun _ => Slot.free)).report (freeReport rt i none)).setReeval
            true).slot j) = d1.slot j :=
          setSlot_slot_ne hj _
        rw [this]; exact t1.slot j
      · exact t1.claimsStand
      · intro l
        have p1 := t1.portsStand l
        have p2 := (calm_report (d1.setSlot i (fun _ => Slot.free)) (freeReport rt i none)).portsStand l
        have e : (d1.setSlot i (fun _ => Slot.free)).lane l = d1.lane l := by cases l <;> rfl
        rw [e] at p2
        have e2 : ((((d1.setSlot i (fun _ => Slot.free)).report (freeReport rt i none)).setReeval
            true).lane l) =
          (((d1.setSlot i (fun _ => Slot.free)).report (freeReport rt i none)).lane
              l) := by cases l <;> rfl
        rw [e2]
        exact ⟨p2.1.trans p1.1, p2.2.1.trans p1.2.1, p1.2.2.trans p2.2.2⟩
      · exact t1.stored
    · exact ⟨Or.inl rfl, fun _ => rfl, fun _ => ⟨rfl, rfl, List.prefix_rfl⟩, rfl⟩
  · exact ⟨Or.inl rfl, fun _ => rfl, fun _ => ⟨rfl, rfl, List.prefix_rfl⟩, rfl⟩

theorem portsStand_trans {d e f : Live} (h : d.portsStand e) (k : e.portsStand f) : d.portsStand f :=
  fun l => ⟨(k l).1.trans (h l).1, (k l).2.1.trans (h l).2.1, (h l).2.2.trans (k l).2.2⟩

theorem finishBerth_all (v : Env) (b : Nat) (x : Boundary) (done : Bool) (r : Release) (hst :
    r.live.stored = []) :
    (finishBerth v b x done r).stored = [] ∧ (finishBerth v b x done r).links = r.live.links ∧
        (finishBerth v b x done r).boundaries = r.live.boundaries ∧
    (finishBerth v b x done r).groups = r.live.groups ∧ r.live.claimsStand (finishBerth v b x done
        r) ∧ r.live.portsStand (finishBerth v b x done r) ∧
    r.live.slotsJudged (finishBerth v b x done r) := by
  have hend : ∃ e, Moved r.live e ∧ finishBerth v b x done r = Release.handOn v
      { r with live := handOnBoundary v b x (reportChange b x none e) } := by
    refine ⟨_, ?_, rfl⟩
    refine Moved.ite ?_ (Moved.refl _)
    unfold clearBoundaryFaults
    split
    · exact (moved_endFault _ _ _ _).trans (moved_endFault _ _ _ _)
    · exact Moved.refl _
  obtain ⟨e, m1, he⟩ := hend
  rw [he]
  have q : Quiet e (handOnBoundary v b x (reportChange b x none e)) := (quiet_reportChange _ _ _
      _).trans (quiet_handOnBoundary _ _ _ _)
  generalize handOnBoundary v b x (reportChange b x none e) = f at q
  have m3 : Moved f (Release.handOn v { r with live := f }) := moved_handOn v { r with live := f }
  have mq : Moved e (f.setReeval e.reeval) := Calm.moved q
  refine ⟨m3.stored.trans (mq.stored.trans (m1.stored.trans hst)), m3.links.trans (mq.links.trans
      m1.links), m3.boundaries.trans (mq.boundaries.trans m1.boundaries),
    m3.groups.trans (mq.groups.trans m1.groups), fun n => ?_, fun l => ?_, fun i => ?_⟩
  · exact ((m3.claimsStand n).trans (mq.claimsStand n)).trans (m1.claimsStand n)
  · have a := m1.portsStand l; have b := mq.portsStand l; have c := m3.portsStand l
    have b2 : (f.setReeval e.reeval).lane l = f.lane l := by cases l <;> rfl
    rw [b2] at b
    exact ⟨c.1.trans (b.1.trans a.1), c.2.1.trans (b.2.1.trans a.2.1), (a.2.2.trans b.2.2).trans c.2.2⟩
  · exact (((m1.slot i).trans (mq.slot i)).trans (m3.slot i)).judged

theorem failSetting_not (v : Env) (i : Nat) (r : Reason) (d : Live) (h : (d.slot i).state ≠
    .setting) : failSetting v i r d = d := by
  unfold failSetting; simp [h]

end Sys2Proof.Machine
end

