-- ==== Sys2Proof/Laws/Placing.lean ====
section
/-! SUPPORT. What a take-up places: the locks of a path, an overlap and their flank protectors (R41 to R46, R57 to
R61). -/

namespace Sys2Proof.Machine

open Sys2Proof

theorem placeEntry_lock (v : Env) (i : Nat) (r : RouteDef) (m : LockMode) (e : Entry) (d : Live) (n : Nat)
    (hc : d.hasControl e.element) :
    ((placeEntry v i r m e d).control n).lock = if n = e.element then some { holder := .slot i, mode := m } else (d.control n).lock := by
  unfold placeEntry
  have key : ∀ d1 : Live, d1.controls = d.controls →
     ((d1.setControl e.element (fun c => { c with lock := some { holder := .slot i, mode := m } })).control n).lock = if n = e.element then some { holder := .slot i, mode := m } else (d.control n).lock := by
    intro d1 h1
    have h5 := d1.control_setControl e.element n (fun c => { c with lock := some { holder := .slot i, mode := m } }) (fun _ => rfl)
    rw [h5]
    have : d1.hasControl e.element := by unfold Live.hasControl; rw [h1]; exact hc
    simp only [this, and_true]
    split
    · rfl
    · unfold Live.control; rw [h1]
  simp only
  refine key _ ?_
  split
  · split <;> rfl
  · rfl

theorem placeEntry_rest (v : Env) (i : Nat) (r : RouteDef) (m : LockMode) (e : Entry) (d : Live) :
    SameTables d (placeEntry v i r m e d) ∧ (placeEntry v i r m e d).controls.map
        Control.num = d.controls.map Control.num
    ∧ (placeEntry v i r m e d).slots.length = d.slots.length
    ∧ ∀ j, ((placeEntry v i r m e d).slot j).route = (d.slot j).route ∧ ((placeEntry v i r m e d).slot j).state = (d.slot j).state
      ∧ ((placeEntry v i r m e d).slot j).priority = (d.slot j).priority ∧ ((placeEntry v i r m e d).slot j).setting = (d.slot j).setting := by
  unfold placeEntry
  have key : ∀ d1 : Live, SameTables d d1 → d1.controls = d.controls →
      d1.slots.length = d.slots.length →
     (∀ j, (d1.slot j).route = (d.slot j).route ∧ (d1.slot j).state = (d.slot j).state ∧ (d1.slot j).priority = (d.slot j).priority ∧ (d1.slot j).setting = (d.slot j).setting) →
     (let f := (d1.setControl e.element (fun c => { c with lock := some { holder := .slot i, mode := m } }))
      SameTables d f ∧ f.controls.map Control.num = d.controls.map Control.num ∧ f.slots.length = d.slots.length
      ∧ ∀ j, (f.slot j).route = (d.slot j).route ∧ (f.slot j).state = (d.slot j).state ∧ (f.slot j).priority = (d.slot j).priority ∧ (f.slot j).setting = (d.slot j).setting) := by
    intro d1 h1 h2 h3 h4
    refine ⟨⟨h1.1, h1.2, h1.3, h1.4, h1.5, h1.6, h1.7, h1.8⟩, ?_, h3, h4⟩
    have h5 := d1.setControl_nums e.element (fun c => { c with lock := some { holder := .slot i, mode := m } }) (fun _ => rfl)
    show List.map _ (d1.setControl _ _).controls = _
    rw [h5, h2]
  refine key _ ?_ ?_ ?_ ?_
  · split
    · split
      · exact ⟨rfl, rfl, rfl, rfl, rfl, rfl, rfl, rfl⟩
      · exact SameTables.refl _
    · exact SameTables.refl _
  · split
    · split <;> rfl
    · rfl
  · split
    · split
      · simp
      · rfl
    · rfl
  · intro j
    split
    · split
      · rw [d.slot_setSlot]; split
        · next h => exact ⟨rfl, rfl, rfl, rfl⟩
        · exact ⟨rfl, rfl, rfl, rfl⟩
      · exact ⟨rfl, rfl, rfl, rfl⟩
    · exact ⟨rfl, rfl, rfl, rfl⟩

/-- What placing entries changes: locks alone (R57). -/
structure Placing (d e : Live) : Prop where
  same : SameTables d e
  nums : e.controls.map Control.num = d.controls.map Control.num
  slotCount : e.slots.length = d.slots.length
  slot : ∀ j, (e.slot j).route = (d.slot j).route ∧ (e.slot j).state = (d.slot j).state
      ∧ (e.slot j).priority = (d.slot j).priority ∧ (e.slot j).setting = (d.slot j).setting

theorem Placing.refl (d : Live) : Placing d d := ⟨SameTables.refl _, rfl, rfl, fun _ =>
    ⟨rfl, rfl, rfl, rfl⟩⟩

theorem Placing.trans {d e f : Live} (h : Placing d e) (k : Placing e f) : Placing d f :=
  ⟨h.same.trans k.same, k.nums.trans h.nums, k.slotCount.trans h.slotCount, fun j =>
    ⟨(k.slot j).1.trans (h.slot j).1, (k.slot j).2.1.trans (h.slot j).2.1, (k.slot j).2.2.1.trans
        (h.slot j).2.2.1, (k.slot j).2.2.2.trans (h.slot j).2.2.2⟩⟩

theorem placeEntries_all (v : Env) (i : Nat) (r : RouteDef) (m : LockMode) (es : List Entry) (d p :
    Live)
    (hc : ∀ e ∈ es, d.hasControl e.element) (h : placeEntries v i r m es d = .ok p) :
    Placing d p ∧ ∀ n, (p.control n).lock = if n ∈ es.map Entry.element then some { holder := .slot i, mode := m } else (d.control n).lock := by
  induction es generalizing d with
  | nil => cases h; exact ⟨Placing.refl _, fun n => by simp⟩
  | cons e es ih =>
    unfold placeEntries at h
    split at h
    · cases h
    · obtain ⟨a1, a2, a3, a4⟩ := placeEntry_rest v i r m e d
      have hc' : ∀ e' ∈ es, (placeEntry v i r m e d).hasControl e'.element := by
        intro e' he'
        unfold Live.hasControl; rw [a2]; exact hc e' (by simp [he'])
      obtain ⟨i1, i2⟩ := ih _ hc' h
      refine ⟨Placing.trans ⟨a1, a2, a3, a4⟩ i1, fun n => ?_⟩
      rw [i2, placeEntry_lock v i r m e d n (hc e (by simp))]
      by_cases h1 : n ∈ es.map Entry.element <;> by_cases h2 : n = e.element <;> simp [h1, h2]

theorem takeProtector_all (v : Env) (q : Protector) (d : Live) :
    (∀ n, ((takeProtector v q d).control n).lock = (d.control n).lock)
    ∧ (takeProtector v q d).controls.map Control.num = d.controls.map Control.num
    ∧ (takeProtector v q d).slots.length = d.slots.length
    ∧ (∀ j, SlotMoves (d.slot j) ((takeProtector v q d).slot j))
    ∧ (takeProtector v q d).stored = d.stored ∧ (takeProtector v q d).links = d.links
    ∧ (takeProtector v q d).boundaries = d.boundaries ∧ (takeProtector v q d).groups = d.groups := by
  have key : ∀ (n : Nat) (f : Control → Control), (∀ c, (f c).num = c.num) →
      (∀ c, (f c).lock = c.lock) → ∀ m,
      ((d.setControl n f).control m).lock = (d.control m).lock := by
    intro n f h1 h2 m
    rw [d.control_setControl n m f h1]
    split
    · next h => rw [h2, h.1]
    · rfl
  unfold takeProtector
  cases q with
  | point n pos =>
    exact ⟨key n _ (fun c => by cases pos <;> rfl) (fun c => by cases pos <;> rfl),
      d.setControl_nums _ _ (fun c =>
          by cases pos <;> rfl), rfl, fun _ => SlotMoves.refl _, rfl, rfl, rfl, rfl⟩
  | signal n =>
    have k1 := key n (fun c => { c with holdCount := (d.control n).holdCount + 1 }) (fun c => rfl)
        (fun c => rfl)
    have k2 := d.setControl_nums n (fun c => { c with holdCount := (d.control n).holdCount + 1 })
        (fun c => rfl)
    simp only
    split
    · have c := calm_computeAspect v n (d.setControl n (fun c =>
          { c with holdCount := (d.control n).holdCount + 1 }))
      refine ⟨fun m => ?_, c.nums.trans k2, c.slotCount, fun j => c.slot j, c.stored, c.links,
          c.boundaries, c.groups⟩
      exact (congrArg Prod.fst (c.claimsStand m)).trans (k1 m)
    · exact ⟨k1, k2, rfl, fun _ => SlotMoves.refl _, rfl, rfl, rfl, rfl⟩

/-- What stands from the placing of slot `i` to the end of its take-up: its route, priority and state, and
the locks `F` (R57 to R61). -/
structure TookUp (i r p : Nat) (F : Nat → Option Lock) (d : Live) : Prop where
  route : (d.slot i).route = some r
  prio : (d.slot i).priority = some p
  exit : (d.slot i).needsExit = true
  lt : i < d.slots.length
  stored : d.stored = []
  locks : ∀ n, (d.control n).lock = F n

theorem TookUp.of_slots {i r p : Nat} {F : Nat → Option Lock} {d e : Live} (h : TookUp i r p F d)
    (hs : SlotTold (d.slot i) (e.slot i)) (hl : e.slots.length = d.slots.length) (hst :
        e.stored = d.stored)
    (hc : ∀ n, (e.control n).lock = (d.control n).lock) : TookUp i r p F e :=
  ⟨(told_fields hs).1.trans h.route, (told_fields hs).2.2.2.2.2.2.trans h.prio, hs.goes h.exit,
      by rw [hl]; exact h.lt, hst.trans h.stored, fun n => (hc n).trans (h.locks n)⟩

/-- Links, boundaries and groups stand, and no slot becomes ENTERED. -/
structure HandoverKept (d e : Live) : Prop where
  links : e.links = d.links
  boundaries : e.boundaries = d.boundaries
  groups : e.groups = d.groups
  states : ∀ j, (e.slot j).state = .entered → (d.slot j).state = .entered

theorem HandoverKept.refl (d : Live) : HandoverKept d d := ⟨rfl, rfl, rfl, fun _ => id⟩

theorem HandoverKept.trans {d e f : Live} (h : HandoverKept d e) (k : HandoverKept e f) :
    HandoverKept d f :=
  ⟨k.1.trans h.1, k.2.trans h.2, k.3.trans h.3, fun j hj => h.4 j (k.4 j hj)⟩

theorem moves_entered {s t : Slot} (h : SlotMoves s t) (k : t.state = .entered) :
    s.state = .entered := by
  cases hn : s.needsExit with
  | false => rw [← h.still hn]; exact k
  | true => have := h.goes hn; simp [Slot.needsExit, k] at this

theorem Moved.handoverKept {d e : Live} (h : Moved d e) : HandoverKept d e := ⟨h.links,
    h.boundaries, h.groups, fun j hj => moves_entered (h.slot j) hj⟩

theorem placeFlanks_all (v : Env) (i r p : Nat) (F : Nat → Option Lock) (qs : List Requirement)
    (d e : Live) (h : placeFlanks v i qs d = .ok e)
    (ht : TookUp i r p F d) : TookUp i r p F e ∧ HandoverKept d e := by
  induction qs generalizing d with
  | nil => cases h; exact ⟨ht, HandoverKept.refl _⟩
  | cons q qs ih =>
    unfold placeFlanks at h
    split at h
    · cases h
    · next pr way _ =>
      obtain ⟨a1, a2, a3, a4, a5, a6, a7, a8⟩ := takeProtector_all v pr d
      have t1 := ht.of_slots (a4 i).told a3 a5 a1
      have t2 : TookUp i r p F ((takeProtector v pr d).setSlot i (fun s =>
        { s with flank := s.flank ++ [{ protector := some pr, position := way, excluded := [] }] }))
            := by
        have hs := setSlot_slot_self t1.lt (fun s =>
          { s with flank := s.flank ++ [{ protector := some pr, position := way, excluded := [] }] })
        exact ⟨by rw [hs]; exact t1.route, by rw [hs]; exact t1.prio, by rw [hs]; exact t1.exit, by simpa using t1.lt, t1.stored, t1.locks⟩
      obtain ⟨i1, i2⟩ := ih _ h t2
      refine ⟨i1, HandoverKept.trans (e := (takeProtector v pr d).setSlot i (fun s =>
          { s with flank := s.flank ++ [{ protector := some pr, position := way, excluded := [] }]
              })) ⟨a6, a7, a8, fun j hj => ?_⟩ i2⟩
      rw [Live.slot_setSlot] at hj
      split at hj
      · exact moves_entered (a4 j) hj
      · exact moves_entered (a4 j) hj

theorem place_all (v : Env) (i : Nat) (rt : RouteDef) (p : Nat) (d e : Live) (h : place v i rt p
    d = .ok e)
    (hi : i < d.slots.length) (hst : d.stored = []) (hc : ∀ e ∈ rt.path ++ rt.overlap,
        d.hasControl e.element) :
    TookUp i rt.number p (fun n => if n ∈ rt.overlap.map Entry.element then some { holder := .slot i, mode := .overlap }
      else if n ∈ rt.path.map Entry.element then some { holder := .slot i, mode := .path }
          else (d.control n).lock) e
    ∧ HandoverKept d e := by
  unfold place at h
  split at h
  · cases h
  · simp only [bind, Except.bind] at h
    split at h
    · cases h
    · next d2 h2 =>
      split at h
      · cases h
      · next d3 h3 =>
        split at h
        · cases h
        · next d4 h4 =>
          split at h
          · cases h
          · cases h
            obtain ⟨p1, l1⟩ := placeEntries_all v i rt .path rt.path _ d2 (fun e he =>
                by show e.element ∈ d.controls.map Control.num; exact hc e (by simp [he])) h2
            obtain ⟨p2, l2⟩ := placeEntries_all v i rt .overlap rt.overlap _ d3 (fun e he =>
                by unfold Live.hasControl; rw [p1.nums]; exact hc e (by simp [he])) h3
            have pp := p1.trans p2
            have hs0 : (d.setSlot i (fun _ => Slot.taken rt p)).slot i = Slot.taken rt
                p := setSlot_slot_self hi _
            have t3 : TookUp i rt.number p (fun n => if n ∈ rt.overlap.map Entry.element then some
                { holder := .slot i, mode := .overlap }
                else if n ∈ rt.path.map Entry.element then some { holder := .slot i, mode := .path }
                    else (d.control n).lock) d3 := by
              have ps := pp.slot i
              rw [hs0] at ps
              refine ⟨ps.1, ps.2.2.1,
                  by unfold Slot.needsExit; rw [ps.2.1]; rfl, ?_, pp.same.stored.trans hst, ?_⟩
              · rw [pp.slotCount]; simpa using hi
              · intro n
                rw [l2, l1]
                rfl
            obtain ⟨q1, q2⟩ := placeFlanks_all v i rt.number p _ rt.flank d3 _ h4 t3
            refine ⟨q1, HandoverKept.trans ⟨pp.same.links, pp.same.boundaries, pp.same.groups,
                fun j hj => ?_⟩ q2⟩
            have := (pp.slot j).2.1
            rw [this] at hj
            rw [Live.slot_setSlot] at hj
            split at hj
            · cases hj
            · exact hj

theorem placeEntries_free (v : Env) (i : Nat) (r : RouteDef) (m : LockMode) (es : List Entry) (d p :
    Live)
    (hc : ∀ e ∈ es, d.hasControl e.element) (h : placeEntries v i r m es d = .ok p) (n : Nat) (hn :
        ∃ h, (d.control n).lock = some { holder := h, mode := .path }) :
    ∀ e ∈ es, e.element ≠ n := by
  induction es generalizing d with
  | nil => simp
  | cons e es ih =>
    unfold placeEntries at h
    split at h
    · cases h
    · next hf =>
      have hne : e.element ≠ n := by
        rintro rfl
        obtain ⟨hh, hl⟩ := hn
        have : transfersFrom v d r e = none := by unfold transfersFrom; rw [hl]; cases hh <;> rfl
        unfold entryFails at hf
        simp [hl, this] at hf
      obtain ⟨a1, a2, a3, a4⟩ := placeEntry_rest v i r m e d
      have hc' : ∀ e' ∈ es, (placeEntry v i r m e d).hasControl e'.element := by
        intro e' he'
        unfold Live.hasControl; rw [a2]; exact hc e' (by simp [he'])
      have := ih _ hc' h (by rw [placeEntry_lock v i r m e d n (hc e (by simp)), if_neg (Ne.symm hne)]; exact hn)
      intro e' he'
      rcases List.mem_cons.mp he' with rfl | h'
      · exact hne
      · exact this e' h'

theorem place_disjoint (v : Env) (i : Nat) (rt : RouteDef) (p : Nat) (d e : Live) (h : place v i rt p d = .ok e)
    (hi : i < d.slots.length) (hc : ∀ e ∈ rt.path ++ rt.overlap, d.hasControl e.element) :
    ∀ a ∈ rt.path, ∀ b ∈ rt.overlap, b.element ≠ a.element := by
  unfold place at h
  split at h
  · cases h
  · simp only [bind, Except.bind] at h
    split at h
    · cases h
    · next d2 h2 =>
      split at h
      · cases h
      · next d3 h3 =>
        intro a ha b hb
        obtain ⟨p1, l1⟩ := placeEntries_all v i rt .path rt.path _ d2 (fun e he =>
            by show e.element ∈ d.controls.map Control.num; exact hc e (by simp [he])) h2
        refine placeEntries_free v i rt .overlap rt.overlap d2 d3 (fun e he =>
            by unfold Live.hasControl; rw [p1.nums]; exact hc e (by simp [he])) h3 a.element ⟨.slot i, ?_⟩ b hb
        rw [l1, if_pos (List.mem_map_of_mem ha)]

theorem transfersDone_all (v : Env) (i r p : Nat) (F : Nat → Option Lock) (before d : Live) (h :
    TookUp i r p F d) :
    TookUp i r p F (transfersDone v before d) ∧ ((∀ j, (d.slot j).state ≠ .entered) → HandoverKept d
        (transfersDone v before d)) := by
  have gen : ∀ (l : List Nat) (f : Nat → Live → Live), (∀ x d, TookUp i r p F d → TookUp i r p F
      (f x d) ∧ ((∀ j, (d.slot j).state ≠ .entered) → HandoverKept d (f x d))) →
      ∀ d, TookUp i r p F d → TookUp i r p F (l.foldl (fun d x => f x d) d) ∧
          ((∀ j, (d.slot j).state ≠ .entered) → HandoverKept d (l.foldl (fun d x => f x d) d)) := by
    intro l f hf
    induction l with
    | nil => intro d hd; exact ⟨hd, fun _ => HandoverKept.refl _⟩
    | cons x xs ih =>
      intro d hd
      obtain ⟨a, b⟩ := hf x d hd
      obtain ⟨a', b'⟩ := ih _ a
      refine ⟨a', fun hn => ?_⟩
      have b1 := b hn
      exact b1.trans (b' (fun j hj => hn j (b1.states j hj)))
  unfold transfersDone Live.eachSlot
  refine gen _ _ ?_ d h
  intro x d hd
  split
  · have hs : TookUp i r p F (d.setSlot x (fun s => { s with overlapExpiry := none })) := by
      by_cases hx : x = i
      · subst hx
        have := setSlot_slot_self hd.lt (fun s => { s with overlapExpiry := none })
        exact ⟨by rw [this]; exact hd.route, by rw [this]; exact hd.prio, by rw [this]; exact hd.exit, by simpa using hd.lt, hd.stored, hd.locks⟩
      · have := setSlot_slot_ne (d := d) (Ne.symm hx) (fun s => { s with overlapExpiry := none })
        exact ⟨by rw [this]; exact hd.route, by rw [this]; exact hd.prio, by rw [this]; exact hd.exit, by simpa using hd.lt, hd.stored, hd.locks⟩
    obtain ⟨e1, e2, e3, e4⟩ := endPassage_all v x (d.setSlot x (fun s =>
        { s with overlapExpiry := none }))
    have hn : ∀ j, ((d.setSlot x (fun s => { s with overlapExpiry := none })).slot j).state
        = (d.slot j).state := by
      intro j; rw [Live.slot_setSlot]; split <;> rfl
    constructor
    · rcases e1 with e1 | ⟨f1, f2, f3⟩
      · rw [e1]; exact hs
      · have hxi : x ≠ i := by
          rintro rfl
          have := hs.exit
          simp [Slot.needsExit, f2] at this
        have hlen : i < (endPassage v x (d.setSlot x (fun s => { s with overlapExpiry := none
            }))).slots.length := by
          apply active_lt
          exact told_active (f3 i (Ne.symm hxi))
              (by have := hs.exit; unfold Slot.needsExit at this; unfold Slot.active; cases hq : ((d.setSlot x (fun s => { s with overlapExpiry := none })).slot i).state <;> simp_all)
        have f := f3 i (Ne.symm hxi)
        exact ⟨(told_fields f).1.trans hs.route, (told_fields f).2.2.2.2.2.2.trans hs.prio,
            f.goes hs.exit, hlen, e4.trans hs.stored,
          fun n => (congrArg Prod.fst (e2 n)).trans (hs.locks n)⟩
    · intro hne
      rcases e1 with e1 | ⟨f1, f2, f3⟩
      · rw [e1]; exact ⟨rfl, rfl, rfl, fun j hj => by rw [hn] at hj; exact hj⟩
      · rw [hn] at f2; exact absurd f2 (hne x)
  · exact ⟨hd, fun _ => HandoverKept.refl _⟩

theorem TookUp.moved {i r p : Nat} {F : Nat → Option Lock} {d e : Live} (h : TookUp i r p F d) (m :
    Moved d e) : TookUp i r p F e :=
  h.of_slots (m.slot i).told m.slotCount m.stored (fun n => congrArg Prod.fst (m.claimsStand n))

theorem TookUp.told {i r p : Nat} {F : Nat → Option Lock} {d e : Live} (h : TookUp i r p F d) (m :
    Told d e) : TookUp i r p F e :=
  h.of_slots (m.slot i) m.slotCount m.stored (fun n => congrArg Prod.fst (m.claimsStand n))

theorem freeSlot_lt {d : Live} {i : Nat} (h : d.freeSlot = some i) : i < d.slots.length := by
  unfold Live.freeSlot at h
  have := List.mem_of_find?_eq_some h
  simpa [Live.slotIds] using this

end Sys2Proof.Machine
end

