-- ==== Sys2Proof/Laws/Faults.lean ====
section
/-! SUPPORT. What raising and ending a fault entry, and latching a group, do to the fault maps and groups (R130 to
R143); a blocked flag changed (R16, R17). -/

namespace Sys2Proof.Machine

open Sys2Proof

theorem reconsider_reeval (v : Env) (n : Nat) (d : Live) : (reconsider v n d).reeval = d.reeval := by
  unfold reconsider; simp only
  split
  · split <;> rfl
  · split <;> rfl

theorem reconsider_faults (v : Env) (n : Nat) (d : Live) (m : Nat) : ((reconsider v n d).control m).faults = (d.control m).faults := by
  have key : ∀ (f : Control → Control), (∀ c, (f c).num = c.num) → (∀ c, (f c).faults = c.faults) → ((d.setControl n f).control m).faults = (d.control m).faults := by
    intro f h1 h2
    rw [d.control_setControl n m f h1]
    split
    · next h => rw [h2, h.1]
    · rfl
  unfold reconsider; simp only
  split
  · split
    · exact key _ (fun _ => rfl) (fun _ => rfl)
    · rfl
  · split
    · exact key _ (fun _ => rfl) (fun _ => rfl)
    · rfl

theorem positionOf_code (pos : Position) : positionOf pos.code = some pos := by cases pos <;> rfl

theorem endFault_faults (v : Env) (n : Nat) (k : FaultKind) (d : Live) (j : Nat) (k' : FaultKind) :
    ((endFault v n k d).control j).fault? k' =
      if j = n ∧ k' = k then (match (d.control n).fault? k with | some f => some { f with active := false } | none => none)
      else (d.control j).fault? k' := by
  unfold endFault
  split
  · next f hf =>
    have hk := Control.fault?_kind hf
    split
    · next ha =>
      simp only
      have h1 := (calm_faultHandOn v n k ((d.setControl n (fun c => { c with faults := insertFault { f with active := false } c.faults })).report
        (faultReport n { f with active := false } .gone none))).faultsStand j
      have h2 := (calm_report (d.setControl n (fun c => { c with faults := insertFault { f with active := false } c.faults }))
        (faultReport n { f with active := false } .gone none)).faultsStand j
      have h5 := d.control_setControl n j (fun c => { c with faults := insertFault { f with active := false } c.faults }) (fun _ => rfl)
      have hc : d.hasControl n := by
        by_contra hcn
        have : d.control n = Control.fresh n := by
          unfold Live.control
          rw [List.find?_eq_none.mpr]
          intro c hcm
          simp
          intro hh
          exact hcn (List.mem_map.mpr ⟨c, hcm, hh⟩)
        rw [this] at hf; cases hf
      unfold Control.fault?
      rw [h1, h2, h5]
      by_cases hj : j = n
      · subst hj
        rw [if_pos ⟨rfl, hc⟩]
        by_cases hk' : k' = k
        · subst hk'
          rw [if_pos ⟨rfl, rfl⟩]
          have hf' : (d.control j).faults.find? (fun g => decide (g.kind = k')) = some f := hf
          try rw [hf']
          have := insertFault_find { f with active := false } (d.control j).faults
          subst hk
          exact this
        · rw [if_neg (fun h => hk' h.2)]
          exact insertFault_other _ _ _ (by simp [hk]; exact hk')
      · rw [if_neg (fun h => hj h.1), if_neg (fun h => hj h.1)]
    · next ha =>
      by_cases hj : j = n ∧ k' = k
      · obtain ⟨rfl, rfl⟩ := hj
        rw [if_pos ⟨rfl, rfl⟩, hf]
        cases f; simp_all
      · rw [if_neg hj]
  · next hf =>
    by_cases hj : j = n ∧ k' = k
    · obtain ⟨rfl, rfl⟩ := hj
      rw [if_pos ⟨rfl, rfl⟩, hf]
    · rw [if_neg hj]

theorem foundInPosition_faults (v : Env) (p : Nat) (d : Live) (j : Nat) (k' : FaultKind) (hk : k' ≠ .lostDetection) :
    ((foundInPosition v p d).control j).fault? k' = (d.control j).fault? k' := by
  unfold foundInPosition
  split
  · split
    · rw [endFault_faults, if_neg (fun h => hk h.2)]
    · rfl
  · rfl

theorem fault_of_faults {c k : Control} (h : c.faults = k.faults) (q : FaultKind) :
    c.fault? q = k.fault? q := by
  unfold Control.fault?; rw [h]

theorem raise_confirm (v : Env) (n : Nat) (k : FaultKind) (m : Option Nat) (d : Live) (j : Nat) :
    ((raise v n k m d).control j).confirm = (d.control j).confirm := by
  have hs : ∀ {c k : Control}, c.still = k.still → c.confirm = k.confirm := fun {c k} h =>
      by have := congrArg Control.confirm h; exact this
  unfold raise
  simp only
  rw [hs ((calm_faultHandOn v n k _).control j)]
  generalize raisedEntry v.now k ((d.control n).fault? k) = f
  have h5 := d.control_setControl n j (fun c => { c with faults := insertFault f c.faults })
      (fun _ => rfl)
  have h6 : ((d.setControl n (fun c => { c with faults := insertFault f c.faults })).control
      j).confirm = (d.control j).confirm := by
    rw [h5]
    split
    · next h => rw [h.1]
    · rfl
  split
  · rw [hs (control_latch _ _ _ _ j), hs ((calm_report _ _).control j)]; exact h6
  · rw [hs ((calm_report _ _).control j)]; exact h6

theorem setElement_find (v : Env) (n m : Nat) (f : Element → Element) (hf : ∀ e, (f e).num = e.num) :
    (v.setElement n f).element? m = if m = n then (v.element? n).map f else v.element? m := by
  unfold Env.setElement Env.element?
  simp only
  induction v.elements with
  | nil => simp
  | cons e es ih =>
    simp only [List.map_cons, List.find?_cons]
    by_cases h1 : e.num = n <;> by_cases h2 : m = n
    · subst h2; simp [h1, hf]
    · simp only [h1, if_true, hf]
      simp [Ne.symm h2, ih, h2]
    · subst h2; simp [h1, ih]
    · simp only [h1, if_false, ih]
      simp [h2]

theorem setBlocked_all (n : Nat) (b : Bool) (s : State) (e : Element) (he : s.env.element? n = some e) :
    (s.setBlocked n b).env.element? n = some { e with blocked := b }
    ∧ (∀ m, m ≠ n → (s.setBlocked n b).env.element? m = s.env.element? m)
    ∧ ({ (s.setBlocked n b).env with elements := s.env.elements } : Env) = s.env
    ∧ Calm s.live (s.setBlocked n b).live ∧ (s.setBlocked n b).pending = s.pending := by
  unfold State.setBlocked
  have h := setElement_find s.env n
  refine ⟨?_, ?_, rfl, ?_, rfl⟩
  · have := h n (fun e => { e with blocked := b }) (fun _ => rfl)
    rw [if_pos rfl, he] at this; exact this
  · intro m hm
    have := h m (fun e => { e with blocked := b }) (fun _ => rfl)
    rw [if_neg hm] at this; exact this
  · exact Calm.ite ((calm_evaluateElement _ _ _).trans (calm_computeAspect _ _ _))
        (calm_evaluateElement _ _ _)

theorem faultKind_iff (k : Nat) : faultKindOf k = none ↔ k = 0 ∨ 9 < k := by
  constructor
  · intro h
    by_contra hn
    have h1 : 1 ≤ k := by omega
    have h9 : k ≤ 9 := by omega
    interval_cases k <;> simp [faultKindOf] at h
  · rintro (rfl | h)
    · rfl
    · match k, h with
      | (k + 10), _ => rfl

theorem latch_group (v : Env) (src : Source) (g : Nat) (d : Live) (m : Nat) :
    (latch v src g d).group m = if m = g ∧ g < d.groups.length ∧ v.hasSource g src = true ∧
        (d.group g).active = false
      then { active := true, since := some v.now, source := some src } else d.group m := by
  unfold latch
  by_cases h : g < d.groups.length ∧ v.hasSource g src = true ∧ (d.group g).active = false
  · rw [if_pos (by simp [h])]
    simp only
    rw [Live.group_congr (((calm_report _ _).trans (calm_evaluateMembers v g _)).trans
        (calm_computeMembers v g _)).groups]
    rw [Live.group_setGroup]
    by_cases hm : m = g
    · subst hm; simp [h]
    · have : ¬ g = m := fun e => hm e.symm
      simp [hm, this]
  · rw [if_neg (by simpa [and_assoc] using h), if_neg (fun k => h k.2)]

theorem latch_faults (v : Env) (src : Source) (g : Nat) (d : Live) : d.faultsStand (latch v src g d) :=
  fun n => Control.faults_of_still (control_latch v src g d n)

theorem latch_made (v : Env) (src : Source) (g : Nat) (d : Live) (h : g < d.groups.length) (h1 :
    v.hasSource g src = true)
    (h2 : (d.group g).active = false) : d.made (.groupState g true (some src)) (latch v src g d) := by
  unfold latch
  rw [if_pos (by simp [h, h1, h2])]
  exact ((made_report _ _).of_same (c := d) (fun l => by cases l <;> rfl)).mono
    (fun l => ((calm_evaluateMembers v g _).trans (calm_computeMembers v g _)).appended l)

theorem assertedSources_empty (v : Env) (d : Live) (g : Nat) : (assertedSources v d g).isEmpty = true ↔
    ∀ src ∈ levelSources, v.hasSource g src = true → levelOf v d src = false := by
  unfold assertedSources
  rw [List.isEmpty_iff, List.filter_eq_nil_iff]
  constructor
  · intro h src hs h1
    have := h src hs
    simp [h1] at this; exact this
  · intro h src hs
    cases h1 : v.hasSource g src with
    | false => simp
    | true => simp [h src hs h1]

/-- The groups below `n` after an asserting edge of a source (R131, R132). -/
structure LatchedBy (v : Env) (src : Source) (n : Nat) (d e : Live) : Prop where
  watched : Watched d e
  faults : d.faultsStand e
  reeval : e.reeval = d.reeval
  group : ∀ g, e.group g = if g < n ∧ g < d.groups.length ∧ v.hasSource g src = true ∧
      (d.group g).active = false
      then { active := true, since := some v.now, source := some src } else d.group g

theorem latchAll_all (v : Env) (src : Source) (d : Live) (n : Nat) :
    LatchedBy v src n d ((List.range n).foldl (fun d1 g => latch v src g d1) d) := by
  induction n with
  | zero => exact ⟨Watched.refl _, fun _ => rfl, rfl, fun g => by simp⟩
  | succ n ih =>
    rw [List.range_succ, List.foldl_append]
    simp only [List.foldl_cons, List.foldl_nil]
    generalize (List.range n).foldl (fun d1 g => latch v src g d1) d = e at *
    refine ⟨ih.watched.trans (watched_latch _ _ _ _), fun m => (latch_faults _ _ _ _ m).trans
        (ih.faults m), (reeval_latch _ _ _ _).trans ih.reeval, fun g => ?_⟩
    rw [latch_group, ih.group g, ih.group n, ih.watched.groupCount]
    by_cases hg : g = n
    · subst hg; simp
    · have : g < n + 1 ↔ g < n := by omega
      simp [hg, this]

theorem raised_of_faults {d e : Live} {n : Nat} {k : FaultKind} {now : Time} (h : d.raised n k now)
    (hf : (e.control n).faults = (d.control n).faults) : e.raised n k now := by
  obtain ⟨f, f1, f2, f3⟩ := h
  refine ⟨f, ?_, f2, f3⟩
  unfold Control.fault? at f1 ⊢; rw [hf]; exact f1

theorem raised_raise {v : Env} {n m : Nat} {k : FaultKind} {mm : Option Nat} {d : Live} (h :
    d.raised n k v.now) (hk : k.goneAtRaise = false) :
    (raise v m k mm d).raised n k v.now := by
  by_cases hm : n = m ∧ d.hasControl m
  · rw [hm.1]; exact raise_raised _ _ _ _ _ hm.2 hk
  · refine raised_of_faults h ?_
    rw [raise_faults, if_neg hm]

theorem raise_each (v : Env) (k : FaultKind) (hk : k.goneAtRaise = false) (bs : List BoundaryDef)
    (d : Live) :
    Watched d (bs.foldl (fun d b => raise v b.element k none d) d) ∧
        (bs.foldl (fun d b => raise v b.element k none d) d).reeval = d.reeval ∧
    (∀ n, d.raised n k v.now → (bs.foldl (fun d b => raise v b.element k none d) d).raised n k v.now) ∧
    ∀ b ∈ bs, d.hasControl b.element → (bs.foldl (fun d b => raise v b.element k none d) d).raised
        b.element k v.now := by
  induction bs generalizing d with
  | nil => exact ⟨Watched.refl _, rfl, fun _ h => h, by simp⟩
  | cons b bs ih =>
    have w := watched_raise v b.element k none d
    have hc : ∀ n, d.hasControl n → (raise v b.element k none d).hasControl n := by
      intro n hn; unfold Live.hasControl; rw [w.nums]; exact hn
    obtain ⟨i1, i2, i3, i4⟩ := ih (raise v b.element k none d)
    simp only [List.foldl_cons]
    refine ⟨w.trans i1, i2.trans (reeval_raise _ _ _ _ _), fun n hn => i3 n (raised_raise hn hk),
        fun c hc2 hcc => ?_⟩
    rcases List.mem_cons.mp hc2 with rfl | h2
    · exact i3 _ (raise_raised _ _ _ _ _ hcc hk)
    · exact i4 c h2 (hc _ hcc)

theorem endFault_gone (v : Env) (n : Nat) (k : FaultKind) (d : Live) : ∀ f, ((endFault v n k d).control n).fault? k = some f → f.active = false := by
  intro f hf
  rw [endFault_faults, if_pos ⟨rfl, rfl⟩] at hf
  split at hf
  · cases hf; rfl
  · cases hf

theorem endFault_inactive (v : Env) (n : Nat) (k k' : FaultKind) (d : Live) (h : ∀ f, (d.control n).fault? k' = some f → f.active = false) :
    ∀ f, ((endFault v n k d).control n).fault? k' = some f → f.active = false := by
  intro f hf
  rw [endFault_faults] at hf
  split at hf
  · split at hf
    · cases hf; rfl
    · cases hf
  · exact h f hf

end Sys2Proof.Machine
end

