-- ==== Sys2Proof/Laws/Shows.lean ====
section
/-! SUPPORT. How the judgements of the Route Setter keep the commanded aspects to R78: a signal that proceeds
has its slot in CLEAR (`litBut`) and no forcing of R78 against it (`freeBut`), but for the signals still to
be computed (R78, R79). -/

namespace Sys2Proof.Machine

open Sys2Proof

/-! ### The relation -/

/-- But for some signals, one that proceeds is the entry signal of a slot in CLEAR. -/
def Live.litBut (v : Env) (X : Nat → Prop) (d : Live) : Prop :=
  ∀ n, v.elementIs n Element.isSignal = true → ¬ X n → (d.control n).aspect ≠ .stop → d.clearedAt v n

/-- But for some signals, no forcing of R78 stands against one that proceeds. -/
def Live.freeBut (v : Env) (X : Nat → Prop) (d : Live) : Prop :=
  ∀ n, v.elementIs n Element.isSignal = true → ¬ X n → (d.control n).aspect ≠ .stop →
    forcedStop v d n = false

/-- What an act keeps of the commanded aspects; while lane mode is not NORMAL it makes no slot CLEAR. -/
structure Shows (v : Env) (d e : Live) : Prop where
  lit : ∀ X, d.litBut v X → e.litBut v X
  free : ∀ X, d.freeBut v X → e.freeBut v X
  dim : v.mode ≠ .normal → ∀ i, (e.slot i).state = .clear → (d.slot i).state = .clear

theorem Live.litBut.mono {v : Env} {X Y : Nat → Prop} {d : Live} (h : d.litBut v X)
    (hxy : ∀ n, v.elementIs n Element.isSignal = true → X n → Y n) : d.litBut v Y :=
  fun n hs hn ha => h n hs (fun hx => hn (hxy n hs hx)) ha

theorem Live.freeBut.mono {v : Env} {X Y : Nat → Prop} {d : Live} (h : d.freeBut v X)
    (hxy : ∀ n, v.elementIs n Element.isSignal = true → X n → Y n) : d.freeBut v Y :=
  fun n hs hn ha => h n hs (fun hx => hn (hxy n hs hx)) ha

theorem Shows.refl (v : Env) (d : Live) : Shows v d d := ⟨fun _ => id, fun _ => id, fun _ _ => id⟩

theorem Shows.trans {v : Env} {d e f : Live} (h : Shows v d e) (k : Shows v e f) : Shows v d f :=
  ⟨fun X => k.lit X ∘ h.lit X, fun X => k.free X ∘ h.free X, fun m i => h.dim m i ∘ k.dim m i⟩

theorem Shows.ite {v : Env} {d e f : Live} {c : Prop} [Decidable c] (h : Shows v d e)
    (k : Shows v d f) : Shows v d (if c then e else f) := by
  split
  · exact h
  · exact k

theorem Shows.foldl {α : Type} {v : Env} (f : Live → α → Live) (h : ∀ d a, Shows v d (f d a))
    (l : List α) (d : Live) : Shows v d (l.foldl f d) := by
  induction l generalizing d with
  | nil => exact Shows.refl v d
  | cons a as ih => exact (h d a).trans (ih (f d a))

theorem Shows.eachSlot {v : Env} (f : Nat → Live → Live) (h : ∀ i d, Shows v d (f i d)) (d : Live) :
    Shows v d (d.eachSlot f) := Shows.foldl _ (fun d i => h i d) _ d

/-! ### Acts that touch no aspect and no slot state -/

theorem routeOf_of {v : Env} {d e : Live} {i : Nat} (hs : (e.slot i).state = (d.slot i).state)
    (hr : (e.slot i).route = (d.slot i).route) : e.routeOf v i = d.routeOf v i := by
  unfold Live.routeOf Slot.active
  rw [hs, hr]

/-- An act that leaves aspects, slot states and routes as they are, and adds no forcing. -/
theorem Shows.of {v : Env} {d e : Live} (hs : ∀ i, (e.slot i).state = (d.slot i).state)
    (hr : ∀ i, (e.slot i).route = (d.slot i).route)
    (ha : ∀ n, (e.control n).aspect = (d.control n).aspect)
    (hf : ∀ n, forcedStop v d n = false → forcedStop v e n = false) : Shows v d e where
  lit X h n hn hx hp := by
    obtain ⟨i, rt, h1, h2, h3⟩ := h n hn hx (by rw [← ha]; exact hp)
    exact ⟨i, rt, by rw [hs, h1], by rw [routeOf_of (hs i) (hr i), h2], h3⟩
  free X h n hn hx hp := hf n (h n hn hx (by rw [← ha]; exact hp))
  dim _ i h := by rw [← hs]; exact h

/-- A forcing of R78 reads the groups and the flank-hold count. -/
theorem forcedStop_of {v : Env} {d e : Live} {n : Nat} (hg : e.groups = d.groups)
    (hh : (d.control n).holdCount = 0 → (e.control n).holdCount = 0)
    (h : forcedStop v d n = false) : forcedStop v e n = false := by
  unfold forcedStop inActiveGroup Live.group at *
  rw [hg]
  simp only [Bool.or_eq_false_iff, decide_eq_false_iff_not, Nat.not_lt, Nat.le_zero] at *
  exact ⟨⟨h.1.1, hh h.1.2⟩, h.2⟩

/-- An act outside the slots, the groups, the aspects and the flank-hold counts. -/
theorem Shows.same {v : Env} {d e : Live} (hs : e.slots = d.slots) (hg : e.groups = d.groups)
    (hc : ∀ n, (e.control n).aspect = (d.control n).aspect
      ∧ (e.control n).holdCount = (d.control n).holdCount) : Shows v d e := by
  have h : ∀ i, e.slot i = d.slot i := fun i => Live.slot_congr hs i
  exact Shows.of (fun i => by rw [h]) (fun i => by rw [h]) (fun n => (hc n).1)
    (fun n => forcedStop_of hg (fun k => by rw [(hc n).2, k]))

/-- An act outside the slots, the groups and the control records. -/
theorem Shows.away {v : Env} {d e : Live} (hs : e.slots = d.slots) (hg : e.groups = d.groups)
    (hc : e.controls = d.controls) : Shows v d e :=
  Shows.same hs hg (fun n => by rw [Live.control_congr hc]; exact ⟨rfl, rfl⟩)

theorem shows_setControl (v : Env) (d : Live) (n : Nat) (f : Control → Control)
    (hf : ∀ c, (f c).num = c.num ∧ (f c).aspect = c.aspect ∧ (f c).holdCount = c.holdCount) :
    Shows v d (d.setControl n f) := by
  refine Shows.same rfl rfl (fun m => ?_)
  rw [d.control_setControl n m f (fun c => (hf c).1)]
  split
  · next h => rw [h.1]; exact (hf _).2
  · exact ⟨rfl, rfl⟩

theorem shows_setSlot (v : Env) (d : Live) (i : Nat) (f : Slot → Slot)
    (hf : (f (d.slot i)).state = (d.slot i).state ∧ (f (d.slot i)).route = (d.slot i).route) :
    Shows v d (d.setSlot i f) := by
  have h : ∀ j, ((d.setSlot i f).slot j).state = (d.slot j).state
      ∧ ((d.setSlot i f).slot j).route = (d.slot j).route := by
    intro j
    rw [d.slot_setSlot]
    split
    · next h => rw [← h.1]; exact hf
    · exact ⟨rfl, rfl⟩
  exact Shows.of (fun j => (h j).1) (fun j => (h j).2) (fun _ => rfl)
    (fun n => forcedStop_of rfl id)

theorem shows_report (v : Env) (d : Live) (r : Report) : Shows v d (d.report r) :=
  Shows.away rfl rfl rfl
theorem shows_setReeval (v : Env) (d : Live) (r : Bool) : Shows v d (d.setReeval r) :=
  Shows.away rfl rfl rfl
theorem shows_setPower (v : Env) (d : Live) (g : Nat) (f : PowerGroup → PowerGroup) :
    Shows v d (d.setPower g f) := Shows.away rfl rfl rfl
theorem shows_setOrders (v : Env) (d : Live) (l : List ThrowOrder) : Shows v d (d.setOrders l) :=
  Shows.away rfl rfl rfl
theorem shows_dropOrder (v : Env) (d : Live) (p : Nat) : Shows v d (d.dropOrder p) :=
  shows_setOrders v d _
theorem shows_setStored (v : Env) (d : Live) (l : List Stored) : Shows v d (d.setStored l) :=
  Shows.away rfl rfl rfl
theorem shows_setLink (v : Env) (d : Live) (l : Nat) (f : Link → Link) : Shows v d (d.setLink l f) :=
  Shows.away rfl rfl rfl
theorem shows_setBoundary (v : Env) (d : Live) (b : Nat) (f : Boundary → Boundary) :
    Shows v d (d.setBoundary b f) := Shows.away rfl rfl rfl

/-! ### A signal computed again -/

/-- What R78 gives a signal other than STOP, a slot in CLEAR gives it and nothing forces it to STOP. -/
theorem wantedAspect_proceeds {v : Env} {d : Live} {n : Nat} (h : wantedAspect v d n ≠ .stop) :
    d.clearedAt v n ∧ forcedStop v d n = false := by
  unfold wantedAspect at h
  split at h
  · next r hr =>
    split at h
    · exact absurd rfl h
    · next hf =>
      refine ⟨?_, by simpa using hf⟩
      unfold clearedFrom at hr
      obtain ⟨i, _, hi⟩ := List.exists_of_findSome?_eq_some hr
      split at hi
      · next hc =>
        split at hi
        · next r' hr' =>
          split at hi
          · next he =>
            exact ⟨i, r', hc, hr', he⟩
          · cases hi
        · cases hi
      · cases hi
  · exact absurd rfl h

/-- The aspect of a signal after an aspect is set. -/
theorem aspect_setAspect (d : Live) (n m : Nat) (a : Aspect) :
    ((d.setControl n (fun c => { c with aspect := a })).control m).aspect
      = if m = n ∧ d.hasControl n then a else (d.control m).aspect := by
  rw [d.control_setControl n m _ (by exact fun _ => rfl)]
  split
  · rfl
  · rfl

/-- A signal given the aspect of R78 is no exception any more. -/
theorem lit_setAspect {v : Env} {X : Nat → Prop} {d : Live} {sig : Nat}
    (h : d.litBut v (fun n => X n ∨ n = sig)) :
    (d.setControl sig (fun c => { c with aspect := wantedAspect v d sig })).litBut v X := by
  intro n hn hx hp
  have same : ∀ m, Live.clearedAt v d m →
      Live.clearedAt v (d.setControl sig (fun c => { c with aspect := wantedAspect v d sig })) m :=
    fun m hm => hm
  rw [aspect_setAspect] at hp
  split at hp
  · next he => rw [he.1]; exact same _ (wantedAspect_proceeds hp).1
  · next he =>
    by_cases e : n = sig
    · subst e
      have hc : ¬ d.hasControl n := fun k => he ⟨rfl, k⟩
      exfalso
      apply hp
      unfold Live.control
      split
      · next c hc' =>
        exact absurd (List.mem_map.mpr ⟨c, List.mem_of_find?_eq_some hc', by
          have := List.find?_some hc'; simpa using this⟩) hc
      · rfl
    · exact same _ (h n hn (fun k => k.elim hx e) hp)

/-- A signal that has no control record shows STOP. -/
theorem aspect_of_no_control {d : Live} {n : Nat} (h : ¬ d.hasControl n) :
    (d.control n).aspect = .stop := by
  unfold Live.control
  split
  · next c hc =>
    exact absurd (List.mem_map.mpr ⟨c, List.mem_of_find?_eq_some hc, by
      have := List.find?_some hc; simpa using this⟩) h
  · rfl

theorem forcedStop_setAspect (v : Env) (d : Live) (sig n : Nat) (a : Aspect) :
    forcedStop v (d.setControl sig (fun c => { c with aspect := a })) n = forcedStop v d n := by
  have h : ((d.setControl sig (fun c => { c with aspect := a })).control n).holdCount
      = (d.control n).holdCount := by
    rw [d.control_setControl sig n _ (by exact fun _ => rfl)]
    split
    · next k => rw [k.1]
    · rfl
  unfold forcedStop
  rw [h]
  rfl

theorem free_setAspect {v : Env} {X : Nat → Prop} {d : Live} {sig : Nat}
    (h : d.freeBut v (fun n => X n ∨ n = sig)) :
    (d.setControl sig (fun c => { c with aspect := wantedAspect v d sig })).freeBut v X := by
  intro n hn hx hp
  rw [forcedStop_setAspect]
  rw [aspect_setAspect] at hp
  split at hp
  · next he => rw [he.1]; exact (wantedAspect_proceeds hp).2
  · next he =>
    by_cases e : n = sig
    · subst e
      exact absurd (aspect_of_no_control (fun k => he ⟨rfl, k⟩)) hp
    · exact h n hn (fun k => k.elim hx e) hp

/-- An act that computes a signal again, beside what it keeps. -/
structure Computes (v : Env) (sig : Nat) (d e : Live) : Prop extends Shows v d e where
  litOf : ∀ X, d.litBut v (fun n => X n ∨ n = sig) → e.litBut v X
  freeOf : ∀ X, d.freeBut v (fun n => X n ∨ n = sig) → e.freeBut v X

theorem Computes.then {v : Env} {sig : Nat} {d e f : Live} (h : Computes v sig d e) (k : Shows v e f) :
    Computes v sig d f :=
  { h.toShows.trans k with
    litOf := fun X hx => k.lit X (h.litOf X hx)
    freeOf := fun X hx => k.free X (h.freeOf X hx) }

theorem Computes.mk' {v : Env} {sig : Nat} {d e : Live}
    (hl : ∀ X, d.litBut v (fun n => X n ∨ n = sig) → e.litBut v X)
    (hf : ∀ X, d.freeBut v (fun n => X n ∨ n = sig) → e.freeBut v X)
    (hd : v.mode ≠ .normal → ∀ i, (e.slot i).state = .clear → (d.slot i).state = .clear) :
    Computes v sig d e where
  lit X h := hl X (h.mono (fun _ _ => Or.inl))
  free X h := hf X (h.mono (fun _ _ => Or.inl))
  dim := hd
  litOf := hl
  freeOf := hf

/-- A signal that shows what R78 gives it is no exception. -/
theorem computes_still {v : Env} {sig : Nat} {d : Live}
    (h : wantedAspect v d sig = (d.control sig).aspect) : Computes v sig d d := by
  refine Computes.mk' (fun X hx n hn hX hp => ?_) (fun X hx n hn hX hp => ?_) (fun _ _ => id)
  · by_cases e : n = sig
    · subst e; rw [← h] at hp; exact (wantedAspect_proceeds hp).1
    · exact hx n hn (fun k => k.elim hX e) hp
  · by_cases e : n = sig
    · subst e; rw [← h] at hp; exact (wantedAspect_proceeds hp).2
    · exact hx n hn (fun k => k.elim hX e) hp

theorem computes_setAspect (v : Env) (sig : Nat) (d : Live) :
    Computes v sig d (d.setControl sig (fun c => { c with aspect := wantedAspect v d sig })) :=
  Computes.mk' (fun _ => lit_setAspect) (fun _ => free_setAspect) (fun _ _ => id)

theorem computes_chain (v : Env) (k sig : Nat) (d : Live) :
    Computes v sig d (computeChain v (k + 1) sig d) := by
  induction k generalizing sig d with
  | zero =>
    unfold computeChain
    simp only
    split
    · next h => exact computes_still h
    · refine (computes_setAspect v sig d).then ((shows_report v _ _).trans
        (Shows.eachSlot _ (fun i e => ?_) _))
      split
      · exact Shows.refl v _
      · exact Shows.refl v _
  | succ k ih =>
    rw [computeChain]
    simp only
    split
    · next h => exact computes_still h
    · refine (computes_setAspect v sig d).then ((shows_report v _ _).trans
        (Shows.eachSlot _ (fun i e => ?_) _))
      split
      · exact (ih _ _).toShows
      · exact Shows.refl v _

/-! ### A slot's state changed -/

/-- A slot that leaves its state gives up its entry signal. -/
theorem lit_setSlot {v : Env} {X : Nat → Prop} {d : Live} (i : Nat) (f : Slot → Slot)
    (h : d.litBut v X) :
    (d.setSlot i f).litBut v (fun n => X n ∨ ∃ rt, d.routeOf v i = some rt ∧ rt.entry = n) := by
  intro n hn hx hp
  obtain ⟨j, rt, h1, h2, h3⟩ := h n hn (fun k => hx (Or.inl k)) hp
  by_cases e : j = i
  · subst e; exact absurd (Or.inr ⟨rt, h2, h3⟩) hx
  · have hj : (d.setSlot i f).slot j = d.slot j := d.slot_setSlot_ne (fun k => e k.symm) f
    exact ⟨j, rt, by rw [hj]; exact h1, by unfold Live.routeOf; rw [hj]; exact h2, h3⟩

/-- A slot not in CLEAR lends its entry signal nothing. -/
theorem lit_setSlot_of_not_clear {v : Env} {X : Nat → Prop} {d : Live} (i : Nat) (f : Slot → Slot)
    (hc : (d.slot i).state ≠ .clear) (h : d.litBut v X) : (d.setSlot i f).litBut v X := by
  intro n hn hx hp
  obtain ⟨j, rt, h1, h2, h3⟩ := h n hn hx hp
  have e : j ≠ i := fun k => hc (by rw [← k]; exact h1)
  have hj : (d.setSlot i f).slot j = d.slot j := d.slot_setSlot_ne (fun k => e k.symm) f
  exact ⟨j, rt, by rw [hj]; exact h1, by unfold Live.routeOf; rw [hj]; exact h2, h3⟩

/-- A change of a slot's state, then its entry signal computed. -/
theorem shows_changeSlotBy {aspect : Nat → Live → Live} {v : Env}
    (ha : ∀ n d, Computes v n d (aspect n d)) (i : Nat) (f : Slot → Slot) (d : Live)
    (hr : (f (d.slot i)).route = (d.slot i).route)
    (hact : (d.slot i).active = true → (f (d.slot i)).active = true)
    (hd : v.mode ≠ .normal → (f (d.slot i)).state = .clear → (d.slot i).state = .clear) :
    Shows v d (changeSlotBy aspect v i f d) := by
  unfold changeSlotBy
  simp only
  have dim : v.mode ≠ .normal → ∀ j, ((d.setSlot i f).slot j).state = .clear →
      (d.slot j).state = .clear := by
    intro m j
    rw [d.slot_setSlot]
    split
    · next h => rw [← h.1]; exact hd m
    · exact id
  have free : ∀ X, d.freeBut v X → (d.setSlot i f).freeBut v X := fun X h => h
  have rep := shows_report v (d.setSlot i f) (slotReport (d.setSlot i f) i none)
  have hroute : ∀ rt, d.routeOf v i = some rt → (d.setSlot i f).routeOf v i = some rt := by
    intro rt h
    unfold Live.routeOf at h ⊢
    rw [d.slot_setSlot]
    split at h
    · next hact1 =>
      split
      · rw [if_pos (hact hact1), hr]; exact h
      · exact h
    · cases h
  split
  · next r hr2 =>
    have hc := ha r.entry ((d.setSlot i f).report (slotReport (d.setSlot i f) i none))
    refine ⟨fun X h => ?_, fun X h => ?_, fun m j k => dim m j (rep.dim m j (hc.dim m j k))⟩
    · refine hc.litOf X (rep.lit _ ((lit_setSlot i f h).mono (fun n _ hn => hn.imp id ?_)))
      rintro ⟨rt, h1, h2⟩
      have h3 := hroute rt h1
      have h4 : (d.setSlot i f).routeOf v i = some r := hr2
      rw [h3] at h4
      cases h4
      exact h2.symm
    · exact hc.freeOf X (rep.free _ ((free X h).mono (fun _ _ => Or.inl)))
  · next hr2 =>
    refine ⟨fun X h => ?_, fun X h => rep.free X (free X h), fun m j k => dim m j k⟩
    refine rep.lit X ((lit_setSlot i f h).mono (fun n _ hn => hn.elim id ?_))
    rintro ⟨rt, h1, _⟩
    have h3 := hroute rt h1
    have h4 : (d.setSlot i f).routeOf v i = none := hr2
    rw [h3] at h4
    cases h4

theorem proves_normal {v : Env} {d : Live} {i : Nat} (h : proves v d i = true) : v.mode = .normal := by
  unfold proves provesRoute at h
  split at h
  · simp only [Bool.and_eq_true, decide_eq_true_eq] at h
    exact h.2
  · cases h

theorem shows_evaluateBy {aspect : Nat → Live → Live} {v : Env}
    (ha : ∀ n d, Computes v n d (aspect n d)) (i : Nat) (d : Live) :
    Shows v d (evaluateBy aspect v i d) := by
  unfold evaluateBy
  split
  · next hc =>
    split
    · split
      · exact (ha _ _).toShows
      · exact Shows.refl v d
    · exact shows_changeSlotBy ha i _ d rfl (fun _ => rfl) (fun _ k => by simp [Slot.toHeld] at k)
  · split
    · next hp =>
      simp only [Bool.and_eq_true] at hp
      exact shows_changeSlotBy ha i _ d rfl (fun _ => rfl)
        (fun m _ => absurd (proves_normal hp.1) m)
    · exact Shows.refl v d
  · exact Shows.refl v d

theorem computes_turns (v : Env) (k sig : Nat) (d : Live) :
    Computes v sig d (computeTurns v k sig d) := by
  induction k generalizing sig d with
  | zero => exact computes_chain v 49 sig d
  | succ k ih =>
    unfold computeTurns
    refine (computes_chain v 49 sig d).then (Shows.eachSlot _ (fun i e => ?_) _)
    exact Shows.ite (shows_evaluateBy (fun n x => ih n x) i e) (Shows.refl v e)

/-- A signal's aspect computed again. -/
theorem computes_computeAspect (v : Env) (sig : Nat) (d : Live) :
    Computes v sig d (computeAspect v sig d) := computes_turns v 50 sig d

theorem shows_computeAspect (v : Env) (sig : Nat) (d : Live) : Shows v d (computeAspect v sig d) :=
  (computes_computeAspect v sig d).toShows

/-! ### The judgements -/

theorem shows_computeRear (v : Env) (sig : Nat) (d : Live) : Shows v d (computeRear v sig d) := by
  unfold computeRear
  refine Shows.eachSlot _ (fun i d => ?_) _
  split
  · exact shows_computeAspect _ _ _
  · exact Shows.refl v _

theorem shows_changeSlot (v : Env) (i : Nat) (f : Slot → Slot) (d : Live)
    (hr : (f (d.slot i)).route = (d.slot i).route)
    (hact : (d.slot i).active = true → (f (d.slot i)).active = true)
    (hd : v.mode ≠ .normal → (f (d.slot i)).state = .clear → (d.slot i).state = .clear) :
    Shows v d (changeSlot v i f d) :=
  shows_changeSlotBy (computes_computeAspect v) i f d hr hact hd

theorem shows_evaluate (v : Env) (i : Nat) (d : Live) : Shows v d (evaluate v i d) :=
  shows_evaluateBy (computes_computeAspect v) i d

theorem shows_evaluateElement (v : Env) (n : Nat) (d : Live) : Shows v d (evaluateElement v n d) :=
  Shows.eachSlot _ (fun i d => Shows.ite (shows_evaluate v i d) (Shows.refl v d)) _

theorem shows_evaluateFlank (v : Env) (n : Nat) (d : Live) : Shows v d (evaluateFlank v n d) :=
  Shows.eachSlot _ (fun i e => Shows.ite (shows_evaluate v i e) (Shows.refl v e)) d

theorem shows_evaluateMembers (v : Env) (g : Nat) (d : Live) : Shows v d (evaluateMembers v g d) := by
  unfold evaluateMembers
  refine Shows.eachSlot _ (fun i d => ?_) _
  split
  · exact Shows.ite (shows_evaluate v i d) (Shows.refl v d)
  · exact Shows.refl v d

theorem shows_computeMembers (v : Env) (g : Nat) (d : Live) : Shows v d (computeMembers v g d) :=
  Shows.foldl _ (fun d _ => Shows.ite (shows_computeAspect _ _ d) (Shows.refl v d)) _ d

/-- Every member signal of a group computed again is no exception any more. -/
theorem free_computeMembers (v : Env) (g : Nat) {X : Nat → Prop} {d : Live}
    (h : d.freeBut v (fun n => X n ∨ v.elementIs n (fun e => e.member g) = true)) :
    (computeMembers v g d).freeBut v X := by
  have key : ∀ (es : List Element) (d : Live),
      d.freeBut v (fun n => X n ∨ ∃ e ∈ es, e.num = n ∧ (e.isSignal && e.member g) = true) →
      (es.foldl (fun d1 e => if e.isSignal && e.member g then computeAspect v e.num d1 else d1)
        d).freeBut v X := by
    intro es
    induction es with
    | nil => exact fun d h => h.mono (fun n _ k => k.elim id (fun ⟨_, q, _⟩ => by cases q))
    | cons e es ih =>
      intro d h
      rw [List.foldl_cons]
      refine ih _ ?_
      split
      · refine (computes_computeAspect v e.num d).freeOf _ (h.mono (fun n _ k => ?_))
        rcases k with k | ⟨x, hx, hn, hm⟩
        · exact Or.inl (Or.inl k)
        · rcases List.mem_cons.mp hx with rfl | hx
          · exact Or.inr hn.symm
          · exact Or.inl (Or.inr ⟨x, hx, hn, hm⟩)
      · next hc =>
        refine h.mono (fun n _ k => k.imp id ?_)
        rintro ⟨x, hx, hn, hm⟩
        rcases List.mem_cons.mp hx with rfl | hx
        · exact absurd hm hc
        · exact ⟨x, hx, hn, hm⟩
  refine key _ d (h.mono (fun n hs k => k.imp id (fun hm => ?_)))
  unfold Env.elementIs Env.element? at hs hm
  split at hm
  · next e he =>
    rw [he] at hs
    have hnum := List.find?_some he
    exact ⟨e, List.mem_of_find?_eq_some he, by simpa using hnum, by simp only [Bool.and_eq_true]; exact ⟨hs, hm⟩⟩
  · cases hm

theorem shows_testPositioning (v : Env) (i : Nat) (d : Live) : Shows v d (testPositioning v i d) := by
  unfold testPositioning
  split
  · next hc =>
    split
    · next hp =>
      exact shows_changeSlot v i _ d rfl (fun _ => rfl)
        (fun m _ => absurd (proves_normal hp) m)
    · exact shows_changeSlot v i _ d rfl (fun _ => rfl) (fun _ k => by simp [Slot.toHeld] at k)
  · exact Shows.refl v d

theorem shows_testPoint (v : Env) (p : Nat) (d : Live) : Shows v d (testPoint v p d) :=
  Shows.eachSlot _ (fun i d => Shows.ite (shows_testPositioning v i d) (Shows.refl v d)) _

/-! ### The Supervision Unit -/

/-- A group set to something touches the aspects of its members alone. -/
theorem forcedStop_setGroup {v : Env} {d : Live} {g n : Nat} (x : StopGroup)
    (h : forcedStop v d n = false) (hm : x.active = true → v.elementIs n (fun e => e.member g) = false) :
    forcedStop v (d.setGroup g (fun _ => x)) n = false := by
  unfold forcedStop at *
  simp only [Bool.or_eq_false_iff] at *
  refine ⟨⟨⟨h.1.1.1, ?_⟩, h.1.2⟩, h.2⟩
  have h1 := h.1.1.2
  unfold inActiveGroup at *
  simp only [Live.setGroup_groups, List.length_modify, List.any_eq_false, Bool.and_eq_true, not_and,
    Bool.not_eq_true] at *
  intro k hk
  rw [d.group_setGroup]
  split
  · next hgk => rw [← hgk.1]; exact hm
  · exact h1 k hk

theorem shows_latch (v : Env) (src : Source) (g : Nat) (d : Live) : Shows v d (latch v src g d) := by
  unfold latch
  split
  · simp only
    generalize hd1 : d.setGroup g (fun _ => { active := true, since := some v.now, source := some src })
      = d1
    have k := (shows_report v d1 (.groupState g true (some src))).trans
      (shows_evaluateMembers v g (d1.report (.groupState g true (some src))))
    have k2 := k.trans (shows_computeMembers v g _)
    refine ⟨fun X h => k2.lit X (by rw [← hd1]; exact h), fun X h => ?_, fun m i hi => ?_⟩
    · refine free_computeMembers v g (k.free _ ?_)
      rw [← hd1]
      intro n hn hx hp
      refine forcedStop_setGroup _ (h n hn (fun q => hx (Or.inl q)) hp) (fun _ => ?_)
      cases hm : v.elementIs n (fun e => e.member g) with
      | false => rfl
      | true => exact absurd (Or.inr hm) hx
    · have := k2.dim m i hi
      rw [← hd1] at this
      exact this
  · exact Shows.refl v d

theorem shows_latchAll (v : Env) (src : Source) (d : Live) : Shows v d (latchAll v src d) :=
  Shows.foldl _ (fun d g => shows_latch v src g d) _ d
theorem shows_edge (v : Env) (src : Source) (was : Bool) (d : Live) : Shows v d (edge v src was d) :=
  Shows.ite (shows_latchAll v src d) (Shows.refl v d)

theorem shows_unlatch (v : Env) (g : Nat) (d : Live) : Shows v d (unlatch v g d) := by
  unfold unlatch
  refine Shows.trans ?_ (shows_setReeval v _ _)
  refine Shows.trans ?_ (shows_evaluateMembers v g _)
  refine Shows.trans ?_ (shows_computeMembers v g _)
  refine Shows.trans ?_ (shows_report v _ _)
  exact Shows.of (fun _ => rfl) (fun _ => rfl) (fun _ => rfl)
    (fun n h => forcedStop_setGroup _ h (fun k => by cases k))

theorem shows_faultHandOn (v : Env) (n : Nat) (k : FaultKind) (d : Live) :
    Shows v d (faultHandOn v n k d) := by
  unfold faultHandOn
  have h : Shows v d (if k.blocking then evaluateElement v n d else d) :=
    Shows.ite (shows_evaluateElement v n d) (Shows.refl v d)
  exact Shows.ite (h.trans (shows_computeRear v n _)) h

theorem shows_setFaults (v : Env) (d : Live) (n : Nat) (g : Control → List FaultEntry) :
    Shows v d (d.setControl n (fun c => { c with faults := g c })) :=
  shows_setControl v d n _ (fun _ => ⟨rfl, rfl, rfl⟩)

theorem shows_raise (v : Env) (n : Nat) (k : FaultKind) (m : Option Nat) (d : Live) :
    Shows v d (raise v n k m d) := by
  unfold raise
  simp only
  refine Shows.trans ?_ (shows_faultHandOn v n k _)
  split
  · exact ((shows_setFaults v d n _).trans (shows_report v _ _)).trans (shows_latch v _ _ _)
  · exact (shows_setFaults v d n _).trans (shows_report v _ _)

theorem shows_endFault (v : Env) (n : Nat) (k : FaultKind) (d : Live) :
    Shows v d (endFault v n k d) := by
  unfold endFault
  split
  · exact Shows.ite (((shows_setFaults v d n _).trans (shows_report v _ _)).trans
      (shows_faultHandOn v n k _)) (Shows.refl v d)
  · exact Shows.refl v d

theorem shows_removeFault (v : Env) (n : Nat) (f : FaultEntry) (d : Live) :
    Shows v d (removeFault v n f d) := by
  unfold removeFault
  have h := ((shows_setFaults v d n (fun c => c.faults.filter (fun x => x.kind != f.kind))).trans
    (shows_report v _ (faultReport n f .removed none))).trans (shows_faultHandOn v n f.kind _)
  exact Shows.ite (h.trans (shows_setReeval v _ _)) h

theorem shows_reconsider (v : Env) (n : Nat) (d : Live) : Shows v d (reconsider v n d) := by
  unfold reconsider
  simp only
  refine Shows.ite ?_ (Shows.ite ?_ (Shows.refl v d))
  · split
    · exact shows_setControl v d n _ (fun _ => ⟨rfl, rfl, rfl⟩)
    · exact Shows.refl v d
  · exact shows_setControl v d n _ (fun _ => ⟨rfl, rfl, rfl⟩)

theorem shows_foundInPosition (v : Env) (p : Nat) (d : Live) : Shows v d (foundInPosition v p d) := by
  unfold foundInPosition
  split
  · exact Shows.ite (shows_endFault v p _ d) (Shows.refl v d)
  · exact Shows.refl v d

/-! ### The Point Throw Sequencer -/

theorem shows_completionFirst (v : Env) (p : Nat) (d : Live) : Shows v d (completionFirst v p d) := by
  unfold completionFirst
  refine Shows.trans ?_ (shows_setReeval v _ true)
  refine Shows.trans ?_ (shows_testPoint v p _)
  refine Shows.trans ?_ (shows_reconsider v p _)
  exact (shows_endFault v p _ d).trans (shows_foundInPosition v p _)

theorem shows_endFlight (v : Env) (p : Nat) (f : Flight) (d : Live) : Shows v d (endFlight v p f d) := by
  unfold endFlight
  have h : ∀ g k, Shows v d ((d.setControl p (fun c => { c with flight := none })).setPower g k) :=
    fun g k => Shows.trans (by exact shows_setControl v d p _ (fun _ => ⟨rfl, rfl, rfl⟩))
      (shows_setPower v _ g k)
  split
  · exact Shows.ite ((h _ _).trans (shows_raise v p _ _ _)) (h _ _)
  · exact h _ _

/-- Every act on a throw keeps the aspects to R78. -/
theorem showing (v : Env) : Throwing v (Shows v) where
  refl := Shows.refl v
  trans := Shows.trans
  control d p f hf := shows_setControl v d p f (fun c => by
    have h := hf c
    simp only [Control.unthrown, Control.mk.injEq] at h
    exact ⟨h.1, by simp_all, by simp_all⟩)
  power := shows_setPower v
  orders d l _ := shows_setOrders v d l
  ordered d _ _ := shows_report v d _
  first := shows_completionFirst v
  ended := shows_endFlight v
  evaluated := shows_evaluateElement v
  reconsidered := shows_reconsider v

theorem shows_arrival (v : Env) (p : Nat) (d : Live) : Shows v d (arrival v p d).1 :=
  (showing v).arrival p d

theorem shows_runArbiter_later (v : Env) (g : Nat) (d : Live) :
    Shows v d (runArbiter .later v g d) := (showing v).runArbiter (fun _ => Shows.refl v) g d

theorem shows_failFlight (v : Env) (p : Nat) (d : Live) : Shows v d (failFlight v p d) := by
  unfold failFlight
  refine Shows.trans ?_ (shows_reconsider v p _)
  refine Shows.trans ?_ (shows_setPower v _ _ _)
  exact shows_setControl v _ _ _ (fun _ => ⟨rfl, rfl, rfl⟩)

theorem shows_detectionChanged (v : Env) (p : Nat) (d : Live) :
    Shows v d (detectionChanged v p d).1 := by
  unfold detectionChanged
  split
  · split
    · exact shows_arrival v p d
    · exact shows_setControl v _ _ _ (fun _ => ⟨rfl, rfl, rfl⟩)
  · exact (shows_reconsider v p d).trans (shows_foundInPosition v p _)

theorem shows_withdrawOrder (v : Env) (p : Nat) (d : Live) : Shows v d (withdrawOrder v p d) := by
  unfold withdrawOrder
  split
  · exact Shows.ite ((shows_setOrders v d _).trans (shows_testPoint v p _)) (Shows.refl v d)
  · exact Shows.refl v d

theorem shows_pointsReleased (v : Env) (ps : List Nat) (d : Live) :
    Shows v d (pointsReleased v ps d) :=
  (Shows.foldl _ (fun d p => shows_withdrawOrder v p d) ps d).trans
    (Shows.foldl _ (fun d p => shows_runArbiter_later v (v.groupOf p) d) ps _)

theorem shows_handOn (v : Env) (r : Release) : Shows v r.live (r.handOn v) := by
  unfold Release.handOn
  have h := (shows_pointsReleased v r.points r.live).trans
    (Shows.foldl (fun d n => computeAspect v n d) (fun d n => shows_computeAspect v n d) r.signals _)
  exact Shows.ite (h.trans (shows_setReeval v _ true)) h

/-! ### The Handover Controller's sending -/

theorem shows_sendStatus (v : Env) (l : Nat) (d : Live) : Shows v d (sendStatus v l d) :=
  shows_setLink v d l _
theorem shows_reportChange (v : Env) (b : Nat) (x : Boundary) (r : Option Nat) (d : Live) :
    Shows v d (reportChange b x r d) := Shows.ite (shows_report v d _) (Shows.refl v d)

theorem shows_evaluateExit (v : Env) (b : Nat) (d : Live) : Shows v d (evaluateExit v b d) := by
  unfold evaluateExit
  split
  · exact shows_evaluate v _ d
  · exact Shows.refl v d

theorem shows_evaluateExits (v : Env) (bs : List BoundaryDef) (d : Live) :
    Shows v d (evaluateExits v bs d) :=
  Shows.eachSlot _ (fun i e => Shows.ite (shows_evaluate v i e) (Shows.refl v e)) _

theorem shows_handOnBoundary (v : Env) (b : Nat) (x : Boundary) (d : Live) :
    Shows v d (handOnBoundary v b x d) := by
  unfold handOnBoundary
  have h1 : ∀ c : Bool, Shows v d (if c then evaluateExit v b d else d) :=
    fun c => Shows.ite (shows_evaluateExit v b d) (Shows.refl v d)
  have h2 : ∀ (c : Bool) (p : Prop) [Decidable p], Shows v d (if p then
      (match (d.boundary b).exitSlot with
        | some i => testPositioning v i (if c then evaluateExit v b d else d)
        | none => if c then evaluateExit v b d else d)
      else if c then evaluateExit v b d else d) := by
    intro c p _
    refine Shows.ite ?_ (h1 c)
    split
    · exact (h1 c).trans (shows_testPositioning v _ _)
    · exact h1 c
  exact Shows.ite ((h2 _ _).trans (shows_setReeval v _ true)) (h2 _ _)

/-- A boundary event is its changes, then reports and judgements. -/
theorem shows_boundaryEvent (v : Env) (b : Nat) (r : Option Nat) (f : Live → Live) (d : Live) :
    Shows v (f d) (boundaryEvent v b r f d) :=
  (shows_reportChange v b _ r (f d)).trans (shows_handOnBoundary v b _ _)

theorem shows_leaveUp (v : Env) (l : Nat) (st : LinkState) (d : Live) : Shows v d (leaveUp v l st d) := by
  unfold leaveUp
  refine Shows.trans ?_ (Shows.ite (shows_sendStatus v l _) (Shows.refl v _))
  refine Shows.trans ?_ (shows_edge v _ _ _)
  refine Shows.trans ?_ (Shows.ite (shows_setReeval v _ true) (Shows.refl v _))
  refine Shows.trans ?_ (shows_evaluateExits v _ _)
  refine Shows.trans ?_ (Shows.foldl _ (fun e b => shows_reportChange v _ _ _ e) _ _)
  refine Shows.trans ?_ (shows_report v _ _)
  refine Shows.trans ?_ (Shows.ite (Shows.foldl _ (fun d (b : BoundaryDef) =>
    shows_raise v b.element _ _ d) _ _) (Shows.refl v _))
  refine Shows.trans ?_ (Shows.foldl _ (fun d (b : BoundaryDef) =>
    shows_setBoundary v d b.number Boundary.leaveUp) _ _)
  exact shows_setLink v d l _

theorem shows_becomeUp (v : Env) (l : Nat) (d : Live) : Shows v d (becomeUp v l d) := by
  unfold becomeUp
  refine Shows.trans ?_ (shows_setReeval v _ true)
  refine Shows.trans ?_ (shows_evaluateExits v _ _)
  refine Shows.trans ?_ (Shows.foldl _ (fun d (b : BoundaryDef) => shows_endFault v b.element _ d) _ _)
  exact (shows_setLink v d l _).trans (shows_report v _ _)

theorem shows_enqueue (v : Env) (l : Nat) (f : NFrame) (d : Live) : Shows v d (enqueue v l f d) :=
  Shows.ite (Shows.ite (shows_setLink v d l _) (shows_leaveUp v l _ d)) (Shows.refl v d)

theorem shows_sendFrom (v : Env) (b : Nat) (f : Nat → NFrame) (d : Live) :
    Shows v d (sendFrom v b f d) := by
  unfold sendFrom
  split
  · exact shows_enqueue v _ _ d
  · exact Shows.refl v d

theorem shows_trySeek (v : Env) (b : Nat) (d : Live) : Shows v d (trySeek v b d) := by
  unfold trySeek
  split
  · exact Shows.ite ((shows_setBoundary v d b _).trans (shows_enqueue v _ _ _)) (Shows.refl v d)
  · exact Shows.refl v d

/-! ### Direction, acceptance and needs -/

theorem shows_setNeeds (v : Env) (b : Nat) (f : Slot → Slot)
    (hf : ∀ s, (f s).state = s.state ∧ (f s).route = s.route) (d : Live) :
    Shows v d (setNeeds b f d) := by
  unfold setNeeds
  split
  · exact shows_setSlot v d _ f (hf _)
  · exact Shows.refl v d

theorem shows_setDirection (v : Env) (b : Nat) (dir : Direction) (d : Live) :
    Shows v d (setDirection b dir d) :=
  Shows.ite ((shows_setBoundary v d b _).trans (by apply shows_setNeeds; intro _; exact ⟨rfl, rfl⟩))
    (shows_setBoundary v d b _)

theorem shows_setAcceptance (v : Env) (b : Nat) (acc : Acceptance) (t : Option Time) (d : Live) :
    Shows v d (setAcceptance b acc t d) := by
  unfold setAcceptance
  have h := shows_setBoundary v d b (fun x =>
      { x with
        acceptance := acc, accExpiry := t
        awaiting := if acc = .none then false else x.awaiting })
  refine Shows.ite (h.trans (by apply shows_setNeeds; intro _; exact ⟨rfl, rfl⟩)) ?_
  refine Shows.ite (h.trans (shows_setNeeds v b _ (fun s => ?_) _)) h
  split <;> exact ⟨rfl, rfl⟩

theorem shows_tryAccept (v : Env) (b : Nat) (d : Live) : Shows v d (tryAccept v b d) :=
  Shows.ite ((shows_setAcceptance v b _ _ d).trans (shows_sendFrom v b _ _)) (Shows.refl v d)

theorem shows_tryOffer (v : Env) (b : Nat) (d : Live) : Shows v d (tryOffer v b d) :=
  Shows.ite (((shows_setBoundary v d b _).trans (shows_setDirection v b _ _)).trans
    (shows_sendFrom v b _ _)) (Shows.refl v d)

theorem shows_becomeOutward (v : Env) (b : Nat) (d : Live) : Shows v d (becomeOutward v b d) := by
  unfold becomeOutward
  have h := shows_setBoundary v d b (fun x => { x with reqExpiry := none })
  exact Shows.ite h ((h.trans (shows_setDirection v b _ _)).trans (shows_tryAccept v b _))

theorem shows_dropExit (v : Env) (b : Nat) (d : Live) : Shows v d (dropExit v b d) := by
  unfold dropExit
  refine Shows.trans ?_ (shows_tryOffer v b _)
  have h := shows_setBoundary v d b (fun x =>
    { x with exitSlot := none, exitEntered := false, reqExpiry := none })
  exact Shows.ite h (Shows.ite (h.trans (shows_setBoundary v _ b _))
    ((h.trans (shows_setAcceptance v b _ _ _)).trans (shows_sendFrom v b _ _)))

theorem shows_event {v : Env} {b : Nat} {r : Option Nat} {f : Live → Live} {d : Live}
    (h : Shows v d (f d)) : Shows v d (boundaryEvent v b r f d) :=
  h.trans (shows_boundaryEvent v b r f d)

theorem shows_releaseExit (v : Env) (i : Nat) (quiet : Bool) (d : Live) :
    Shows v d (releaseExit v i quiet d) := by
  unfold releaseExit
  split
  · split
    · exact Shows.refl v d
    · exact Shows.ite (Shows.ite (shows_dropExit v _ d) (shows_event (shows_dropExit v _ d)))
        (Shows.refl v d)
  · exact Shows.refl v d

theorem shows_askBoundary (v : Env) (i b : Nat) (d : Live) : Shows v d (askBoundary v i b d) := by
  unfold askBoundary
  refine shows_event ?_
  have h1 := shows_setBoundary v d b (fun x => { x with exitSlot := some i, exitEntered := false })
  have h2 : ∀ (e : Live) (q : Bool), Shows v e (e.setSlot i (fun s =>
      { s with dirNeed := q, accNeed := true })) :=
    fun e q => shows_setSlot v e i _ ⟨rfl, rfl⟩
  generalize d.setBoundary b (fun x => { x with exitSlot := some i, exitEntered := false }) = e at h1
  exact Shows.ite ((h1.trans (h2 e _)).trans (shows_tryAccept v b _))
    ((h1.trans (h2 e _)).trans (shows_trySeek v b _))

end Sys2Proof.Machine
end

