-- ==== Sys2Proof/Laws/Whole.lean ====
section
/-! SUPPORT. What any act of a block can do at most (`Whole`): it appends reports, keeps every table's
records and every queue within its capacity, and leaves the pending lists and the sent frames alone.
    Only
the exchange, the agreement, the loads and the restarts do more (R63, R96, R149, R170, R172). -/

namespace Sys2Proof.Machine

open Sys2Proof

/-! ### The relation -/

/-- What an act of any block can do at most. -/
structure Whole (d e : Live) : Prop where
  requests : ∀ l, (e.lane l).requests = (d.lane l).requests
  out : ∀ l, (e.lane l).out = (d.lane l).out
  reports : ∀ l, (d.lane l).reports.length ≤ Config.reportCapacity →
    (e.lane l).reports.length ≤ Config.reportCapacity
  appended : ∀ l, (d.lane l).reports <+: (e.lane l).reports
  stored : d.stored.length ≤ Config.storedCapacity → e.stored.length ≤ Config.storedCapacity
  orders : d.orders.length ≤ Config.orderCapacity → e.orders.length ≤ Config.orderCapacity
  powerCount : e.power.length = d.power.length
  groupCount : e.groups.length = d.groups.length
  linkCount : e.links.length = d.links.length
  within : (∀ k ∈ d.links, k.within) → ∀ k ∈ e.links, k.within
  boundaryNums : e.boundaries.map Boundary.num = d.boundaries.map Boundary.num
  nums : e.controls.map Control.num = d.controls.map Control.num
  slotCount : e.slots.length = d.slots.length

theorem Moved.whole {d e : Live} (h : Moved d e) : Whole d e where
  requests := h.requests
  out := h.out
  reports := h.reports
  appended := h.appended
  stored := by rw [h.stored]; exact id
  orders := h.orders
  powerCount := h.powerCount
  groupCount := by rw [h.groups]
  linkCount := by rw [h.links]
  within := by rw [h.links]; exact id
  boundaryNums := by rw [h.boundaries]
  nums := h.nums
  slotCount := h.slotCount

theorem Told.whole {d e : Live} (h : Told d e) : Whole d e where
  requests := h.requests
  out := h.out
  reports := h.reports
  appended := h.appended
  stored := by rw [h.stored]; exact id
  orders := by rw [h.orders]; exact id
  powerCount := by rw [h.power]
  groupCount := h.groupCount
  linkCount := h.linkCount
  within := h.within
  boundaryNums := h.boundaryNums
  nums := h.nums
  slotCount := h.slotCount

theorem Sent.whole {d e : Live} (h : Sent d e) : Whole d e := h.told.whole
theorem Watched.whole {d e : Live} (h : Watched d e) : Whole d e := h.sent.whole
theorem Calm.whole {d e : Live} (h : Calm d e) : Whole d e := h.sent.whole
theorem Whole.refl (d : Live) : Whole d d := (Calm.refl d).whole

theorem Whole.trans {d e f : Live} (h : Whole d e) (k : Whole e f) : Whole d f where
  requests l := (k.requests l).trans (h.requests l)
  out l := (k.out l).trans (h.out l)
  reports l hl := k.reports l (h.reports l hl)
  appended l := (h.appended l).trans (k.appended l)
  stored hs := k.stored (h.stored hs)
  orders ho := k.orders (h.orders ho)
  powerCount := k.powerCount.trans h.powerCount
  groupCount := k.groupCount.trans h.groupCount
  linkCount := k.linkCount.trans h.linkCount
  within hw := k.within (h.within hw)
  boundaryNums := k.boundaryNums.trans h.boundaryNums
  nums := k.nums.trans h.nums
  slotCount := k.slotCount.trans h.slotCount

theorem Whole.ite {d e f : Live} {c : Prop} [Decidable c] (h : Whole d e) (k : Whole d f) :
    Whole d (if c then e else f) := by
  split
  · exact h
  · exact k

theorem Whole.foldl {α : Type} (f : Live → α → Live) (h : ∀ d a, Whole d (f d a)) (l : List α)
    (d : Live) : Whole d (l.foldl f d) := by
  induction l generalizing d with
  | nil => exact Whole.refl d
  | cons a as ih => exact (h d a).trans (ih (f d a))

theorem Whole.eachSlot (f : Nat → Live → Live) (h : ∀ i d, Whole d (f i d)) (d : Live) :
    Whole d (d.eachSlot f) := Whole.foldl _ (fun d i => h i d) _ d

/-- What is made stays made through any act. -/
theorem Live.made.whole {d e f : Live} {r : Report} (h : d.made r e) (k : Whole e f) : d.made r f :=
  h.mono k.appended

/-- A choice between two releases. -/
theorem Whole.iteRelease {d : Live} {a b : Release} {c : Prop} [Decidable c] (h : Whole d a.live)
    (k : Whole d b.live) : Whole d (if c then a else b).live := by
  split
  · exact h
  · exact k

/-! ### Single updates -/

theorem whole_report (d : Live) (r : Report) : Whole d (d.report r) := (calm_report d r).whole
theorem whole_setReeval (d : Live) (r : Bool) : Whole d (d.setReeval r) :=
  (watched_setReeval d r).whole

theorem whole_setSlot (d : Live) (i : Nat) (f : Slot → Slot) : Whole d (d.setSlot i f) :=
  { Whole.refl d with
    requests := fun l => by cases l <;> rfl
    out := fun l => by cases l <;> rfl
    reports := fun l h => by cases l <;> exact h
    appended := fun l => by cases l <;> exact List.prefix_rfl
    slotCount := by simp }

theorem whole_setControl (d : Live) (n : Nat) (f : Control → Control)
    (hf : ∀ c, (f c).num = c.num) : Whole d (d.setControl n f) :=
  { Whole.refl d with
    requests := fun l => by cases l <;> rfl
    out := fun l => by cases l <;> rfl
    reports := fun l h => by cases l <;> exact h
    appended := fun l => by cases l <;> exact List.prefix_rfl
    nums := d.setControl_nums n f hf }

theorem whole_setBoundary (d : Live) (b : Nat) (f : Boundary → Boundary)
    (hf : ∀ x, (f x).num = x.num) : Whole d (d.setBoundary b f) :=
  { Whole.refl d with
    requests := fun l => by cases l <;> rfl
    out := fun l => by cases l <;> rfl
    reports := fun l h => by cases l <;> exact h
    appended := fun l => by cases l <;> exact List.prefix_rfl
    boundaryNums := d.setBoundary_nums b f hf }

theorem whole_setGroup (d : Live) (g : Nat) (f : StopGroup → StopGroup) : Whole d (d.setGroup g f) :=
  { Whole.refl d with
    requests := fun l => by cases l <;> rfl
    out := fun l => by cases l <;> rfl
    reports := fun l h => by cases l <;> exact h
    appended := fun l => by cases l <;> exact List.prefix_rfl
    groupCount := by simp }

theorem whole_setStored (d : Live) (l : List Stored)
    (h : d.stored.length ≤ Config.storedCapacity → l.length ≤ Config.storedCapacity) :
    Whole d (d.setStored l) :=
  { Whole.refl d with
    requests := fun l => by cases l <;> rfl
    out := fun l => by cases l <;> rfl
    reports := fun l h => by cases l <;> exact h
    appended := fun l => by cases l <;> exact List.prefix_rfl
    stored := h }

theorem whole_dropStored (d : Live) (r : Nat) : Whole d (d.dropStored r) :=
  whole_setStored d _ (fun h => Nat.le_trans (List.length_filter_le _ _) h)

/-! ### Releases and protectors (R48 to R53) -/

theorem whole_removeLock (v : Env) (h : Holder) (n : Nat) (r : Release) :
    Whole r.live (r.removeLock v h n).live := by
  unfold Release.removeLock
  split
  · split
    · exact whole_setControl _ _ _ (fun _ => rfl)
    · exact Whole.refl _
  · exact Whole.refl _

theorem whole_removeLocks (v : Env) (h : Holder) (ns : List Nat) (r : Release) :
    Whole r.live (r.removeLocks v h ns).live := by
  unfold Release.removeLocks
  induction ns generalizing r with
  | nil => exact Whole.refl _
  | cons n ns ih => exact (whole_removeLock v h n r).trans (ih _)

theorem whole_setCount (d : Live) (n : Nat) (pos : Position) (k : Control → Nat) :
    Whole d (d.setControl n (fun c => c.setCount pos (k c))) :=
  whole_setControl d n _ (fun c => by cases pos <;> rfl)

theorem whole_giveUp (q : Protector) (r : Release) : Whole r.live (r.giveUp q).live := by
  unfold Release.giveUp
  cases q with
  | point n pos =>
    simp only
    split
    · exact whole_setCount _ _ _ _
    · exact whole_setCount _ _ _ _
  | signal n =>
    simp only
    split
    · exact whole_setControl _ _ _ (fun _ => rfl)
    · exact whole_setControl _ _ _ (fun _ => rfl)

theorem whole_giveUpRecord (i k : Nat) (r : Release) :
    Whole r.live (r.giveUpRecord i k).live := by
  unfold Release.giveUpRecord
  split
  · simp only
    split
    · exact (whole_setSlot _ _ _).trans (whole_giveUp _ { r with live := _ })
    · exact whole_setSlot _ _ _
  · exact Whole.refl _

theorem whole_giveUpRecords (i : Nat) (ks : List Nat) (r : Release) :
    Whole r.live (r.giveUpRecords i ks).live := by
  unfold Release.giveUpRecords
  induction ks generalizing r with
  | nil => exact Whole.refl _
  | cons k ks ih => exact (whole_giveUpRecord i k r).trans (ih _)

theorem whole_handOn (v : Env) (r : Release) : Whole r.live (r.handOn v) := (moved_handOn v r).whole

theorem whole_wholeRelease (v : Env) (i : Nat) (r : Release) :
    Whole r.live (wholeRelease v i r).live := by
  unfold wholeRelease
  refine Whole.trans ?_ ((whole_setSlot _ i _).trans (whole_setReeval _ true))
  split
  · exact (whole_removeLocks _ _ _ _).trans (whole_giveUpRecords _ _ _)
  · exact Whole.refl _

theorem whole_takeProtector (v : Env) (q : Protector) (d : Live) : Whole d (takeProtector v q d) := by
  unfold takeProtector
  cases q with
  | point n pos => exact whole_setCount d n pos _
  | signal n =>
    have h := whole_setControl d n (fun c => { c with holdCount := (d.control n).holdCount + 1 })
      (fun _ => rfl)
    exact Whole.ite (h.trans (calm_computeAspect _ _ _).whole) h

/-! ### Placement and take-up (R46, R62) -/

theorem whole_placeEntry (v : Env) (i : Nat) (r : RouteDef) (m : LockMode) (e : Entry) (d : Live) :
    Whole d (placeEntry v i r m e d) := by
  unfold placeEntry
  refine Whole.trans ?_ (whole_setControl _ _ _ (fun _ => rfl))
  split
  · split
    · exact whole_setSlot _ _ _
    · exact Whole.refl _
  · exact Whole.refl _

theorem whole_placeEntries (v : Env) (i : Nat) (r : RouteDef) (m : LockMode) (es : List Entry)
    (d e : Live) (h : placeEntries v i r m es d = .ok e) : Whole d e := by
  induction es generalizing d with
  | nil => simp only [placeEntries, Except.ok.injEq] at h; subst h; exact Whole.refl _
  | cons x xs ih =>
    unfold placeEntries at h
    split at h
    · cases h
    · exact (whole_placeEntry v i r m x d).trans (ih _ h)

theorem whole_placeFlanks (v : Env) (i : Nat) (qs : List Requirement) (d e : Live)
    (h : placeFlanks v i qs d = .ok e) : Whole d e := by
  induction qs generalizing d with
  | nil => simp only [placeFlanks, Except.ok.injEq] at h; subst h; exact Whole.refl _
  | cons x xs ih =>
    unfold placeFlanks at h
    split at h
    · cases h
    · exact ((whole_takeProtector v _ d).trans (whole_setSlot _ _ _)).trans (ih _ h)

/-- A placement that passed. -/
theorem whole_place (v : Env) (i : Nat) (r : RouteDef) (p : Nat) (d e : Live)
    (h : place v i r p d = .ok e) : Whole d e := by
  unfold place at h
  split at h
  · cases h
  · simp only [bind, Except.bind] at h
    split at h
    · cases h
    next d2 h2 =>
    split at h
    · cases h
    next d3 h3 =>
    split at h
    · cases h
    next d4 h4 =>
    split at h
    · cases h
    · simp only [Except.ok.injEq] at h
      subst h
      exact (((whole_setSlot d i _).trans (whole_placeEntries _ _ _ _ _ _ _ h2)).trans
        (whole_placeEntries _ _ _ _ _ _ _ h3)).trans (whole_placeFlanks _ _ _ _ _ h4)

theorem whole_endPassage (v : Env) (i : Nat) (d : Live) : Whole d (endPassage v i d) := by
  unfold endPassage
  split
  · refine Whole.ite ?_ (Whole.refl d)
    exact (((told_releaseExit v i false d).whole.trans (whole_setSlot _ _ _)).trans
      (whole_report _ _)).trans (whole_setReeval _ _)
  · exact Whole.refl d

theorem whole_askBoundary (v : Env) (i b : Nat) (d : Live) : Whole d (askBoundary v i b d) := by
  unfold askBoundary
  refine Whole.trans ?_ (sent_boundaryEvent v b none _ d).whole
  have h : ∀ q : Bool, Whole d ((d.setBoundary b (fun x =>
      { x with exitSlot := some i, exitEntered := false })).setSlot i (fun s =>
      { s with dirNeed := q, accNeed := true })) := fun q =>
    Whole.trans (by exact whole_setBoundary d b _ (fun _ => rfl)) (whole_setSlot _ i _)
  exact Whole.ite ((h _).trans (told_tryAccept v b _).whole) ((h _).trans (sent_trySeek v b _).whole)

theorem whole_takeUp (v : Env) (run : Option Nat) (i : Nat) (r : RouteDef) (before placed : Live) :
    Whole placed (takeUp v run i r before placed) := by
  unfold takeUp
  refine Whole.trans ?_ (calm_testPositioning _ _ _).whole
  refine Whole.trans ?_ (calm_computeAspect _ _ _).whole
  refine Whole.trans ?_ (whole_report _ _)
  refine Whole.trans ?_ (whole_setSlot _ _ _)
  have h1 : Whole placed (transfersDone v before placed) :=
    Whole.eachSlot _ (fun x d => Whole.ite ((whole_setSlot d x _).trans (whole_endPassage v x _))
      (Whole.refl d)) placed
  have h2 := h1.trans (moved_handOrders v run
    (takeUpOrders i r ((transfersDone v before placed).slot i)) _).whole
  split
  · exact h2.trans (whole_askBoundary v i _ _)
  · exact h2

theorem whole_tryTakeUp (v : Env) (run : Option Nat) (i : Nat) (r : RouteDef) (p : Nat) (d e : Live)
    (h : tryTakeUp v run i r p d = .ok e) : Whole d e := by
  unfold tryTakeUp at h
  split at h
  · cases h
  · next hp =>
    simp only [Except.ok.injEq] at h
    subst h
    exact (whole_place v i r p d _ hp).trans (whole_takeUp v run i r d _)

/-! ### The stored request queue (R64, R65) -/

theorem whole_tryEntries (v : Env) (run : Option Nat) (es : List Stored) (d : Live) :
    Whole d (tryEntries v run es d) := by
  induction es generalizing d with
  | nil => exact Whole.refl d
  | cons e es ih =>
    unfold tryEntries
    split
    · exact Whole.refl d
    · split
      · exact ih d
      · split
        · exact ih d
        · next h =>
          exact ((whole_tryTakeUp v run _ _ _ d _ h).trans (whole_dropStored _ _)).trans (ih _)

theorem whole_serveIn (v : Env) (run : Option Nat) (d : Live) : Whole d (serveIn v run d) := by
  have h : ∀ k d, Whole d (serveRuns v run k d) := by
    intro k
    induction k with
    | zero => intro d; exact whole_setReeval d false
    | succ k ih =>
      intro d
      unfold serveRuns
      exact Whole.ite (((whole_setReeval d false).trans (whole_tryEntries v run _ _)).trans (ih _))
        (Whole.refl d)
  exact h _ d

theorem whole_serve (v : Env) (d : Live) : Whole d (serve v d) := whole_serveIn v none d

/-! ### Acts on throws that serve the stored request queue at its place (R105) -/

theorem wholing (v : Env) : Throwing v Whole :=
  (moving v).lift Whole.refl Whole.trans Moved.whole

theorem whole_now (v : Env) (run : Option Nat) (d : Live) : Whole d (Requeue.now v run d) :=
  whole_serveIn v run d

theorem whole_runArbiter (v : Env) (g : Nat) (d : Live) : Whole d (runArbiter .now v g d) :=
  (wholing v).runArbiter (whole_now v) g d
theorem whole_runArbiters (v : Env) (w : Nat → Live → Bool) (d : Live) :
    Whole d (runArbiters .now v w d) := (wholing v).runArbiters (whole_now v) w d
theorem whole_applyOrder (v : Env) (run : Option Nat) (p : Nat) (pos : Position) (org : Origin)
    (d : Live) : Whole d (applyOrder .now v run p pos org d) :=
  (wholing v).applyOrder (whole_now v) run p pos org d
theorem whole_handOrders (v : Env) (run : Option Nat) (os : List (Nat × Position × Origin))
    (d : Live) : Whole d (handOrders .now v run os d) :=
  (wholing v).handOrders (whole_now v) run os d

/-! ### Slots given up (R50, R72, R120) -/

theorem whole_giveUpSlot (v : Env) (i : Nat) (re : Option Reason) (q : Bool) (d : Live) :
    Whole d (giveUpSlot v i re q d) := by
  unfold giveUpSlot
  split
  · refine Whole.trans ?_ (whole_setReeval _ _)
    refine Whole.trans ?_ (whole_report _ _)
    exact ((told_releaseExit v i q d).whole.trans
      (whole_wholeRelease v i (Release.start _))).trans (whole_handOn _ _)
  · exact Whole.refl d

theorem whole_settingRelease (v : Env) (i : Nat) (re : Option Reason) (q : Bool) (d : Live) :
    Whole d (settingRelease v i re q d) := by
  have h := (whole_giveUpSlot v i re q d).trans (whole_serve v _)
  unfold settingRelease
  split
  · exact h.trans (calm_computeAspect v _ _).whole
  · exact h

theorem whole_failSetting (v : Env) (i : Nat) (re : Reason) (d : Live) :
    Whole d (failSetting v i re d) := Whole.ite (whole_settingRelease v i _ _ d) (Whole.refl d)

/-- A change of slot state reports and computes aspects. -/
theorem whole_changeSlot (v : Env) (i : Nat) (f : Slot → Slot) (d : Live) :
    Whole d (changeSlot v i f d) := (whole_setSlot d i f).trans (calm_changeSlot v i f d).whole

theorem whole_cancelSlot (v : Env) (i : Nat) (rt : RouteDef) (d : Live) :
    Whole d (cancelSlot v i rt d) :=
  Whole.ite (whole_settingRelease v i none false d) (whole_changeSlot v i _ d)

/-! ### Train passage (R113 to R120) -/

theorem whole_releasePathUnit (v : Env) (i k : Nat) (rt : RouteDef) (r : Release) :
    Whole r.live (releasePathUnit v i k rt r).live := by
  unfold releasePathUnit
  refine Whole.trans ?_ (whole_giveUpRecords _ _ _)
  exact Whole.trans (whole_setSlot _ _ _) (whole_removeLocks _ _ _ { r with live := _ })

theorem whole_sweepPath (v : Env) (i : Nat) (rt : RouteDef) (ks : List Nat) (r : Release) :
    Whole r.live (sweepPath v i rt ks r).live := by
  induction ks generalizing r with
  | nil => exact Whole.refl _
  | cons k ks ih =>
    unfold sweepPath
    exact Whole.iteRelease (ih r)
      (Whole.iteRelease ((whole_releasePathUnit v i k rt r).trans (ih _)) (Whole.refl _))

theorem whole_releaseOverlapUnit (v : Env) (i k : Nat) (rt : RouteDef) (r : Release) :
    Whole r.live (releaseOverlapUnit v i k rt r).live := by
  unfold releaseOverlapUnit
  exact Whole.trans (whole_setSlot _ _ _) (whole_removeLocks _ _ _ { r with live := _ })

theorem whole_sweepOverlap (v : Env) (i : Nat) (rt : RouteDef) (ks : List Nat) (r : Release) :
    Whole r.live (sweepOverlap v i rt ks r).live := by
  induction ks generalizing r with
  | nil => exact Whole.refl _
  | cons k ks ih =>
    unfold sweepOverlap
    exact Whole.iteRelease (ih r)
      (Whole.iteRelease ((whole_releaseOverlapUnit v i k rt r).trans (ih _)) (Whole.refl _))

theorem whole_releaseTest (v : Env) (i n : Nat) (d : Live) : Whole d (releaseTest v i n d) := by
  unfold releaseTest
  split
  · refine Whole.ite ?_ (Whole.refl d)
    refine Whole.trans ?_ (whole_endPassage _ _ _)
    refine Whole.trans ?_ (whole_handOn _ _)
    have h1 : ∀ rt : RouteDef, Whole d (if (entrySections rt.path).contains n then
        sweepPath v i rt (sectionIndices rt.path) (Release.start d) else Release.start d).live :=
      fun rt => Whole.iteRelease (whole_sweepPath v i _ _ (Release.start d)) (Whole.refl d)
    exact Whole.iteRelease ((h1 _).trans (whole_sweepOverlap v i _ _ _)) (h1 _)
  · exact Whole.refl d

theorem whole_overlapWhole (v : Env) (i : Nat) (d : Live) : Whole d (overlapWhole v i d) := by
  unfold overlapWhole
  split
  · refine Whole.trans ?_ (whole_endPassage _ _ _)
    refine Whole.trans ?_ (whole_handOn _ _)
    exact Whole.trans (whole_setSlot _ _ _) (whole_removeLocks _ _ _ (Release.start _))
  · exact Whole.refl d

theorem whole_startOverlapTimer (v : Env) (i : Nat) (d : Live) :
    Whole d (startOverlapTimer v i d) := Whole.ite (whole_setSlot _ _ _) (Whole.refl d)

theorem whole_enterSlot (v : Env) (i : Nat) (rt : RouteDef) (d : Live) :
    Whole d (enterSlot v i rt d) := by
  unfold enterSlot
  have h2 : ∀ f, Whole d (computeAspect v rt.entry
      ((d.setSlot i f).report (slotReport (d.setSlot i f) i none))) := fun f =>
    ((whole_setSlot d i f).trans (whole_report _ _)).trans (calm_computeAspect _ _ _).whole
  have h3 : ∀ (c : Prop) [Decidable c] (e : Live), Whole d e →
      Whole d (if c then e else raise v rt.entry .passedAtStop none e) :=
    fun c _ e h => Whole.ite h (h.trans (watched_raise _ _ _ _ _).whole)
  have h4 : ∀ e : Live, Whole d e → Whole d (match rt.exit with
      | .boundary _ b =>
        if (e.boundary b).exitSlot = some i then
          e.setBoundary b (fun x => { x with exitEntered := true })
        else e
      | .signal _ => e) := by
    intro e h
    split
    · exact Whole.ite (h.trans (whole_setBoundary _ _ _ (fun _ => rfl))) h
    · exact h
  have h5 := h4 _ (h3 ((d.slot i).state = .clear) _ (h2 (fun s =>
    entryMarks v rt { s with state := .entered, reclear := false, hold := none })))
  exact Whole.ite (h5.trans (whole_startOverlapTimer v i _)) h5

theorem whole_markMovement (v : Env) (n i : Nat) (rt : RouteDef) (d : Live) :
    Whole d (markMovement v n i rt d) := by
  unfold markMovement
  exact Whole.ite ((whole_setSlot _ _ _).trans (whole_startOverlapTimer _ _ _)) (whole_setSlot _ _ _)

theorem whole_sectionAtSlot (v : Env) (n : Nat) (occ m : Bool) (i : Nat) (d : Live) :
    Whole d (sectionAtSlot v n occ m i d) := by
  unfold sectionAtSlot
  have he : ∀ c : Bool, Whole d (if c then evaluate v i d else d) :=
    fun c => Whole.ite (calm_evaluate v i d).whole (Whole.refl d)
  split
  · simp only
    split
    · exact Whole.ite (whole_enterSlot _ _ _ _) (he _)
    · exact Whole.ite (whole_enterSlot _ _ _ _) (he _)
    · exact Whole.ite (whole_enterSlot _ _ _ _) (Whole.refl d)
    · exact Whole.ite ((Whole.ite (whole_markMovement _ _ _ _ _) (Whole.refl d)).trans
        (whole_releaseTest _ _ _ _)) (Whole.refl d)
    · exact Whole.refl d
  · exact Whole.refl d

theorem whole_measure (v : Env) (n : Nat) (d : Live) : Whole d (measure v n d) := by
  unfold measure
  refine Whole.foldl _ (fun d e => ?_) _ d
  split
  · simp only
    split
    · exact whole_setControl _ _ _ (fun _ => rfl)
    · exact Whole.refl d
  · exact Whole.refl d

/-! ### The berth (R165) -/

theorem whole_finishBerth (v : Env) (b : Nat) (x : Boundary) (done : Bool) (r : Release) :
    Whole r.live (finishBerth v b x done r) := by
  unfold finishBerth
  refine Whole.trans ?_ (whole_handOn v { r with live := _ })
  refine Whole.trans ?_ (sent_handOnBoundary _ _ _ _).whole
  refine Whole.trans ?_ (sent_reportChange _ _ _ _).whole
  exact Whole.ite (watched_clearBoundaryFaults _ _ _).whole (Whole.refl _)

theorem Boundary.berthGone_num (x : Boundary) : x.berthGone.num = x.num := by
  unfold Boundary.berthGone
  simp only
  split <;> rfl

theorem Boundary.berthGone_exit (x : Boundary) : x.berthGone.exitSlot = x.exitSlot := by
  unfold Boundary.berthGone
  simp only
  split <;> rfl

theorem whole_berthWhole (v : Env) (b : Nat) (r : Release) : Whole r.live (berthWhole v b r).live := by
  unfold berthWhole
  split
  · exact (whole_removeLocks _ _ _ _).trans (whole_setBoundary _ _ _ Boundary.berthGone_num)
  · exact Whole.refl _

theorem whole_berthChanged (v : Env) (n : Nat) (occ m : Bool) (b : Nat) (d : Live) :
    Whole d (berthChanged v n occ m b d) := by
  unfold berthChanged
  split
  · exact Whole.refl d
  next bd _ =>
  simp only
  refine Whole.ite (Whole.refl d) (Whole.ite (Whole.ite ?_ (Whole.refl d)) ?_)
  · exact whole_setBoundary _ _ _ (fun _ => rfl)
  · refine Whole.trans ?_ (whole_finishBerth _ _ _ _ _)
    have h : ∀ ms, Whole d ((Release.start (d.setBoundary b (fun x =>
        { x with marks := ms }))).removeLocks v (.berth b)
        (berthSweep v bd.berth (d.boundary b).marks).1).live := by
      intro ms
      refine Whole.trans ?_ (whole_removeLocks _ _ _ (Release.start _))
      exact whole_setBoundary _ _ _ (fun _ => rfl)
    split
    · exact (h _).trans (whole_setBoundary _ _ _ Boundary.berthGone_num)
    · exact h _

theorem whole_sectionChanged (v : Env) (n : Nat) (occ m : Bool) (d : Live) :
    Whole d (sectionChanged v n occ m d) := by
  unfold sectionChanged
  have h1 := Whole.eachSlot (sectionAtSlot v n occ m) (whole_sectionAtSlot v n occ m) d
  have h2 : Whole d (if occ then d.eachSlot (sectionAtSlot v n occ m) else
      runArbiters .now v (hasOrder v (fun p => v.elementIs p (fun e => e.containing = some n)))
        (d.eachSlot (sectionAtSlot v n occ m))) :=
    Whole.ite h1 (h1.trans (whole_runArbiters _ _ _))
  have h3 : ∀ (c : Bool) (e : Live), Whole d e → Whole d (if c then measure v n e else e) :=
    fun c e h => Whole.ite (h.trans (whole_measure v n e)) h
  have h4 := (h3 (occ && m) _ h2).trans (Whole.foldl (fun d bd => berthChanged v n occ m bd.number d)
    (fun d bd => whole_berthChanged v n occ m bd.number d) v.defs.boundaries _)
  exact Whole.ite h4 (h4.trans (whole_setReeval _ _))

/-! ### Changes of an element (R10, R12, R15) -/

theorem whole_flightDone (v : Env) (p : Nat) (f : Flight) (d : Live) :
    Whole d (flightDone v p f d) := by
  unfold flightDone
  exact ((moved_endFlight v p f d).whole.trans ((wholing v).completion (whole_now v) none p _)).trans
    (whole_runArbiter v _ _)

theorem whole_pointChanged (v : Env) (p : Nat) (d : Live) : Whole d (pointChanged v p d) := by
  unfold pointChanged
  have h := (moved_detectionChanged v p d).whole
  split
  · next e => rw [e] at h; exact h.trans (whole_flightDone _ _ _ _)
  · next e => rw [e] at h; exact h.trans (calm_evaluateElement _ _ _).whole

theorem whole_lampChanged (v : Env) (n : Nat) (d : Live) : Whole d (lampChanged v n d) := by
  unfold lampChanged
  exact (Whole.ite (watched_endFault _ _ _ _).whole (Whole.refl d)).trans
    (calm_evaluateFlank _ _ _).whole

theorem whole_handOnElement (v : Env) (m : Bool) (old new : Element) (d : Live) :
    Whole d (handOnElement v m old new d) := by
  unfold handOnElement
  refine Whole.trans ?_ (whole_serve _ _)
  have h1 : Whole d (if new.isSignal then reconsider v new.num d else d) :=
    Whole.ite (watched_reconsider _ _ _).whole (Whole.refl d)
  have h2 : ∀ e : Live, Whole d e → Whole d (if old.agreed = new.agreed then e
      else if new.isPoint then pointChanged v new.num e
      else if new.isSignal then lampChanged v new.num e
      else e) := fun e h =>
    Whole.ite h (Whole.ite (h.trans (whole_pointChanged _ _ _))
      (Whole.ite (h.trans (whole_lampChanged _ _ _)) h))
  have h3 : ∀ e : Live, Whole d e → Whole d (if old.occupied = new.occupied then e
      else sectionChanged v new.num new.occupied m e) := fun e h =>
    Whole.ite h (h.trans (whole_sectionChanged _ _ _ _ _))
  have h4 : ∀ e : Live, Whole d e → Whole d (if old.discrepant && !new.discrepant then
      endFault v new.num .discrepant e else e) := fun e h =>
    Whole.ite (h.trans (watched_endFault _ _ _ _).whole) h
  exact h4 _ (h3 _ (h2 _ h1))

/-! ### Events on the whole state -/

/-- An event's effect is at most what its function does. -/
theorem whole_act (f : Env → Live → Live) (s : State) (h : Whole s.live (f s.env s.live)) :
    Whole s.live (s.act f).live := h.trans (whole_serve _ _)

theorem whole_updateElement (n : Nat) (f : Element → Element) (s : State) :
    Whole s.live (s.updateElement n f).live := by
  unfold State.updateElement
  split
  · exact whole_handOnElement _ _ _ _ _
  · exact Whole.refl _

theorem whole_applyPair (l : LaneId) (s : State) (p : Nat × Nat) :
    Whole s.live (State.applyPair l s p).live := by
  unfold State.applyPair
  split
  · split
    · exact Whole.refl _
    · exact whole_updateElement _ _ _
  · exact Whole.refl _

theorem whole_applyPairs (l : LaneId) (ps : List (Nat × Nat)) (s : State) :
    Whole s.live (s.applyPairs l ps).live := by
  have h : ∀ (ps : List (Nat × Nat)) (s : State), Whole s.live (ps.foldl (State.applyPair l) s).live
      := by
    intro ps
    induction ps with
    | nil => exact fun _ => Whole.refl _
    | cons p ps ih => exact fun s => (whole_applyPair l s p).trans (ih _)
  unfold State.applyPairs
  split
  · exact h ps s
  · exact Whole.refl _

/-- A change of lane mode reported and handed on. -/
theorem whole_changeMode (m : LaneMode) (s : State) :
    Whole (s.live.report (.laneMode s.env.mode s.env.presentA s.env.presentB))
      (State.changeMode m s).live := by
  unfold State.changeMode
  refine Whole.trans ?_ (whole_serve _ _)
  refine Whole.trans ?_ (Whole.foldl _ (fun d e => (watched_reconsider _ _ _).whole) _ _)
  have hn : ∀ v d, Whole d (returnNormal v d) := fun v d =>
    (Whole.eachSlot _ (fun i d => Whole.ite (calm_evaluate v i d).whole (Whole.refl d)) d).trans
      (whole_runArbiters _ _ _)
  have hl : ∀ v d, Whole d (leaveNormal v d) := by
    intro v d
    unfold leaveNormal
    refine Whole.trans ?_ (Whole.eachSlot _ (fun i d =>
      Whole.ite (calm_evaluate v i d).whole (Whole.refl d)) _)
    refine Whole.trans ?_ (Whole.eachSlot _ (fun i d => whole_failSetting v i _ d) _)
    unfold emptyStored
    exact (Whole.foldl _ (fun d x => whole_report _ _) _ _).trans
      (whole_setStored _ _ (fun _ => Nat.zero_le _))
  have h1 : ∀ v (d : Live), Whole d (if m = .normal then leaveNormal v d else d) :=
    fun v d => Whole.ite (hl v d) (Whole.refl d)
  have h2 : ∀ v (xs : List (Element × Element)) (d : Live),
      Whole d (xs.foldl (fun d x => handOnElement v false x.1 x.2 d) d) :=
    fun v xs d => Whole.foldl _ (fun d x => whole_handOnElement _ _ _ _ _) xs d
  exact ((h1 _ _).trans (h2 _ _ _)).trans (Whole.ite (hn _ _) (Whole.refl _))

end Sys2Proof.Machine
end

