-- ==== Sys2Proof/Laws/WholeCommands.lean ====
section
/-! SUPPORT. Every owner of a taken request, every expiry and every frame taken is an act within `Whole`
(R54 to R67, R98, R122 to R125, R132 to R143, R150 to R167). -/

namespace Sys2Proof.Machine

open Sys2Proof

/-! ### Route requests -/

theorem insertStored_length (now : Time) (x : Stored) (l : List Stored) :
    (insertStored now x l).length = l.length + 1 := by
  induction l with
  | nil => rfl
  | cons y ys ih =>
    unfold insertStored
    split
    · rfl
    · simp [ih]

theorem whole_refuseBoth (q : Request) (r : Reason) (d : Live) : Whole d (refuseBoth q r d) :=
  whole_report d _

theorem whole_storeOrRefuse (v : Env) (rt : RouteDef) (p st : Nat) (why : Reason) (d : Live) :
    Whole d (storeOrRefuse v rt p st why d) := by
  unfold storeOrRefuse
  split
  · split
    · next h =>
      refine (whole_setStored _ _ (fun _ => ?_)).trans (whole_report _ _)
      rw [insertStored_length]; omega
    · exact whole_report _ _
  · exact whole_report _ _

theorem whole_setAgain (v : Env) (q : Request) (i : Nat) (d : Live) : Whole d (setAgain v q i d) := by
  unfold setAgain
  split
  · exact whole_report _ _
  · exact ((whole_setSlot _ _ _).trans (whole_report _ _)).trans (calm_evaluate _ _ _).whole
  · exact whole_report _ _

/-- The entry replaced leaves the queue before it is put back. -/
theorem whole_restore (v : Env) (x : Stored) (p : Nat) (d : Live) (h : x ∈ d.stored) :
    Whole d (restore v x p d) := by
  unfold restore
  refine Whole.trans ?_ (whole_report _ _)
  refine whole_setStored d _ (fun hs => ?_)
  split
  · exact hs
  · rw [insertStored_length]
    have : (d.stored.filter (fun y => y.route != x.route)).length < d.stored.length :=
      List.length_filter_lt_length_iff_exists.mpr ⟨x, h, by simp⟩
    show (d.stored.filter (fun y => y.route != x.route)).length + 1 ≤ _
    omega

theorem whole_takeSetRoute (r p st : Nat) (v : Env) (d : Live) :
    Whole d (takeSetRoute r p st v d) := by
  unfold takeSetRoute
  simp only
  split
  · exact whole_report _ _
  · exact whole_report _ _
  · split
    · exact whole_setAgain _ _ _ _
    · split
      · next h => exact whole_restore _ _ _ _ (List.mem_of_find?_eq_some h)
      · split
        · exact whole_storeOrRefuse _ _ _ _ _ _
        · split
          · next h => exact whole_tryTakeUp _ _ _ _ _ _ _ h
          · exact whole_storeOrRefuse _ _ _ _ _ _

theorem whole_takeCancelRoute (r : Nat) (v : Env) (d : Live) : Whole d (takeCancelRoute r v d) := by
  unfold takeCancelRoute
  simp only
  split
  · exact whole_report _ _
  · split
    · split
      · exact (whole_dropStored _ _).trans (whole_report _ _)
      · exact whole_report _ _
    · split
      · exact whole_settingRelease _ _ _ _ _
      · exact whole_cancelSlot _ _ _ _
      · exact whole_cancelSlot _ _ _ _
      · exact whole_report _ _
      · exact whole_report _ _
      · exact Whole.refl _

theorem whole_takeReleaseEmergency (r : Nat) (v : Env) (d : Live) :
    Whole d (takeReleaseEmergency r v d) := by
  unfold takeReleaseEmergency
  simp only
  split
  · exact whole_report _ _
  · split
    · exact whole_report _ _
    · split
      · exact whole_report _ _
      · exact whole_report _ _
      · exact whole_changeSlot _ _ _ _

/-! ### Points, elements, groups -/

theorem whole_takeThrowPoint (p pos : Nat) (v : Env) (d : Live) :
    Whole d (takeThrowPoint p pos v d) := by
  unfold takeThrowPoint
  simp only
  split
  · exact whole_report _ _
  · exact whole_report _ _
  · split
    · exact whole_report _ _
    · exact whole_applyOrder _ _ _ _ _ _

theorem whole_setBlocked (n : Nat) (b : Bool) (s : State) : Whole s.live (s.setBlocked n b).live := by
  unfold State.setBlocked
  exact Whole.ite ((calm_evaluateElement _ _ _).trans (calm_computeAspect _ _ _)).whole
    (calm_evaluateElement _ _ _).whole

theorem whole_takeBlock (n : Nat) (s : State) : Whole s.live (takeBlock n s).live := by
  unfold takeBlock
  split
  · exact whole_report _ _
  · split
    · exact Whole.refl _
    · exact whole_setBlocked _ _ _

theorem whole_takeUnblock (n : Nat) (s : State) : Whole s.live (takeUnblock n s).live := by
  unfold takeUnblock
  split
  · exact whole_report _ _
  · split
    · refine (whole_setBlocked n false s).trans (whole_act _ _ ?_)
      exact (Whole.ite (whole_runArbiter _ _ _) (Whole.refl _)).trans (whole_setReeval _ _)
    · exact Whole.refl _

theorem whole_takeAckFault (n k : Nat) (v : Env) (d : Live) : Whole d (takeAckFault n k v d) := by
  unfold takeAckFault
  simp only
  split
  · split
    · exact whole_report _ _
    · exact Whole.ite (whole_report _ _) (watched_removeFault _ _ _ _).whole
  · exact whole_report _ _

theorem whole_takeStopSet (g : Nat) (v : Env) (d : Live) : Whole d (takeStopSet g v d) :=
  Whole.ite (whole_report _ _) (watched_latch _ _ _ _).whole

theorem whole_releaseGroup (v : Env) (g : Nat) (d : Live) : Whole d (releaseGroup v g d) := by
  have h : Whole d (unlatch v g d) := by
    unfold unlatch
    exact (((whole_setGroup _ _ _).trans (whole_report _ _)).trans
      (calm_computeMembers _ _ _).whole).trans
      ((calm_evaluateMembers _ _ _).whole.trans (whole_setReeval _ _))
  have h1 := h.trans (whole_serve v _)
  exact Whole.ite (h1.trans (whole_runArbiters _ _ _)) h1

theorem whole_takeStopRelease (g : Nat) (v : Env) (d : Live) : Whole d (takeStopRelease g v d) :=
  Whole.ite (whole_report _ _) (Whole.ite (whole_report _ _) (Whole.ite (whole_report _ _)
    (whole_releaseGroup _ _ _)))

/-! ### Boundary and link requests -/

theorem resetStarts_num (c : Bool) (t : Option Time) (x : Boundary) :
    (if c then { x with resetExpiry := t } else x.resetDone).num = x.num := by
  cases c <;> rfl

theorem whole_applyReset (v : Env) (b : Nat) (d : Live) : Whole d (applyReset v b d) := by
  unfold applyReset
  refine Whole.trans ?_ (sent_handOnBoundary _ _ _ _).whole
  refine Whole.trans ?_ (whole_report _ _)
  have h5 : ∀ (c : Bool) (e : Live), Whole e (if c then e else clearBoundaryFaults v b e) :=
    fun c e => Whole.ite (Whole.refl e) (watched_clearBoundaryFaults v b e).whole
  refine Whole.trans ?_ (h5 _ _)
  have h1 : Whole d (d.setBoundary b (fun x =>
      { x with restricted := true, consExpiry := none, reqExpiry := none, waiting := false })) :=
    whole_setBoundary _ _ _ (fun _ => rfl)
  have h2 : ∀ e, Whole e (resetExit v b e) := by
    intro e
    unfold resetExit
    split
    · split
      · exact whole_settingRelease _ _ _ _ _
      · exact whole_changeSlot _ _ _ _
      · exact whole_changeSlot _ _ _ _
      · exact whole_changeSlot _ _ _ _
      · exact Whole.refl _
    · exact Whole.refl _
  have h3 : ∀ e, Whole d e → Whole d (if (e.boundary b).acceptance = .none then e
      else sendFrom v b .acceptCancel (setAcceptance b .none none e)) := fun e h =>
    Whole.ite h ((h.trans (told_setAcceptance _ _ _ _).whole).trans (sent_sendFrom _ _ _ _).whole)
  refine (h3 _ (h1.trans (h2 _))).trans ?_
  exact whole_setBoundary _ _ _ (fun x => by exact resetStarts_num _ _ _)

theorem whole_takeBoundaryReset (b : Nat) (v : Env) (d : Live) :
    Whole d (takeBoundaryReset b v d) :=
  Whole.ite (whole_report _ _) (Whole.ite (whole_report _ _) (Whole.ite (whole_report _ _)
    (whole_applyReset _ _ _)))

theorem whole_setLink (d : Live) (l : Nat) (f : Link → Link) (hf : ∀ k, k.within → (f k).within) :
    Whole d (d.setLink l f) := (sent_setLink d l f hf).whole

theorem whole_takeLinkEnable (l : Nat) (v : Env) (d : Live) : Whole d (takeLinkEnable l v d) := by
  unfold takeLinkEnable
  split
  · exact whole_report _ _
  · exact Whole.ite (Whole.trans (by exact whole_setLink _ _ _ (fun _ h => h)) (whole_report _ _))
      (Whole.refl _)

theorem whole_takeLinkDisable (l : Nat) (v : Env) (d : Live) : Whole d (takeLinkDisable l v d) := by
  unfold takeLinkDisable
  refine Whole.ite (whole_report _ _) (Whole.ite (whole_report _ _) ?_)
  split
  · exact Whole.refl _
  · exact (sent_leaveUp _ _ _ _).whole
  · exact (whole_setLink _ _ _ (fun _ _ => ⟨Nat.zero_le _, Nat.zero_le _⟩)).trans (whole_report _ _)

/-! ### Neighbour frames and link timers -/

theorem whole_receive (v : Env) (l : Nat) (f : NFrame) (d : Live) : Whole d (receive v l f d) := by
  unfold receive
  split
  · exact Whole.refl _
  · split
    · next h =>
      refine { whole_setLink d l (fun k => k) (fun _ h => h) with
        linkCount := by simp
        within := fun hw k hk => ?_ }
      rw [Live.setLink_links, List.mem_iff_getElem?] at hk
      obtain ⟨j, hj⟩ := hk
      rw [List.getElem?_modify] at hj
      cases hy : d.links[j]? with
      | none => rw [hy] at hj; simp at hj
      | some y =>
        have hym := hw y (List.mem_of_getElem? hy)
        rw [hy] at hj
        by_cases e : l = j
        · subst e
          simp only [if_true, Option.map_eq_map, Option.map_some, Option.some.injEq] at hj
          subst hj
          have hl : d.link l = y := by
            unfold Live.link
            rw [List.getD_eq_getElem?_getD, hy]; rfl
          rw [hl] at h
          exact ⟨by simp; omega, hym.2⟩
        · simp only [e, if_false, Option.map_eq_map, Option.map_some, Option.some.injEq] at hj
          subst hj
          exact hym
    · exact Whole.ite (sent_leaveUp _ _ _ _).whole (Whole.refl _)

theorem whole_restartSilence (v : Env) (l : Nat) (d : Live) : Whole d (restartSilence v l d) :=
  whole_setLink _ _ _ (fun _ h => h)
theorem whole_popFrame (l : Nat) (d : Live) : Whole d (popFrame l d) :=
  whole_setLink _ _ _ (fun k h => ⟨by
    have := h.1
    show (k.rx.drop 1).length ≤ _
    rw [List.length_drop]; omega, h.2⟩)

theorem whole_takeFrame {α : Type} (v : Env) (l : Nat) (pick : NFrame → Option (Nat × α))
    (apply : Nat → α → Live → Live) (h : ∀ b a d, Whole d (apply b a d)) (d : Live) :
    Whole d (takeFrame v l pick apply d) := by
  unfold takeFrame
  split
  · simp only
    split
    · split
      · exact ((whole_popFrame _ _).trans (whole_restartSilence _ _ _)).trans (h _ _ _)
      · exact (whole_popFrame _ _).trans (whole_restartSilence _ _ _)
    · exact whole_popFrame _ _
  · exact Whole.refl _

theorem whole_statusDue (l : Nat) (v : Env) (d : Live) : Whole d (statusDue l v d) := by
  unfold statusDue
  split
  · refine Whole.ite ?_ (Whole.refl _)
    have h := whole_setLink d l (fun x => { x with nextStatus := some (after v.now
        ‹LinkDef›.interval) })
      (fun _ h => h)
    exact Whole.ite (h.trans (sent_sendStatus _ _ _).whole)
      (h.trans (whole_setLink _ _ _ (fun _ h => h)))
  · exact Whole.refl _

theorem whole_frameSent (l : Nat) (v : Env) (d : Live) : Whole d (frameSent l v d) := by
  unfold frameSent
  refine Whole.ite (Whole.refl _) ?_
  have h := whole_setLink d l (fun x => { x with tx := x.tx.drop 1 }) (fun k h => ⟨h.1, by
    have := h.2
    show (k.tx.drop 1).length ≤ _
    rw [List.length_drop]; omega⟩)
  exact Whole.ite (h.trans (sent_sendStatus _ _ _).whole) h

/-! ### STATUS (R156) -/

theorem whole_waitingStep (v : Env) (b : Nat) (e : StatusEntry) (d : Live) :
    Whole d (waitingStep v b e d) := by
  unfold waitingStep
  refine Whole.ite (Whole.refl _) (Whole.ite (Whole.ite ?_ (Whole.refl _)) ?_)
  · refine Whole.trans ?_ (told_tryOffer _ _ _).whole
    exact whole_setBoundary _ _ _ (fun _ => rfl)
  · exact whole_setBoundary _ _ _ (fun _ => rfl)

theorem whole_reRequest (v : Env) (b : Nat) (p : Option StatusEntry) (e : StatusEntry) (f : Bool)
    (d : Live) : Whole d (reRequest v b p e f d) := by
  unfold reRequest
  have h : Whole d (if e.direction != .outward then trySeek v b d else d) :=
    Whole.ite (sent_trySeek _ _ _).whole (Whole.refl _)
  exact Whole.ite (h.trans (told_tryAccept _ _ _).whole) h

theorem whole_consistencyStep (v : Env) (b : Nat) (e : Option StatusEntry) (d : Live) :
    Whole d (consistencyStep v b e d) := by
  unfold consistencyStep
  exact Whole.ite (Whole.refl _) (Whole.ite (whole_setBoundary _ _ _ (fun _ => rfl))
    (Whole.ite (Whole.refl _) (whole_setBoundary _ _ _ (fun _ => rfl))))

theorem whole_entryEnd (v : Env) (b : Nat) (x : Boundary) (y : StatusEntry) (p : Option StatusEntry)
    (f : Bool) (r : Release) (d : Live) (h : Whole d r.live) :
    Whole d (finishBerth v b x (resetEnded x b (waitingStep v b y (reRequest v b p y f r.live)))
      { r with live := waitingStep v b y (reRequest v b p y f r.live) }) :=
  ((h.trans (whole_reRequest _ _ _ _ _ _)).trans (whole_waitingStep _ _ _ _)).trans
    (whole_finishBerth _ _ _ _ { r with live := waitingStep v b y (reRequest v b p y f r.live) })

theorem whole_applyViews (v : Env) (b : Nat) (p : Option StatusEntry) (y : StatusEntry) (f : Bool)
    (d : Live) : Whole d (applyViews v b p y f d) := by
  unfold applyViews
  refine whole_entryEnd _ _ _ _ _ _ _ _ ?_
  have h : ∀ c : Bool, Whole d (if c then tryOffer v b (setAcceptance b .none none d) else d) :=
    fun c => Whole.ite ((told_setAcceptance b _ _ d).trans (told_tryOffer _ _ _)).whole (Whole.refl d)
  exact Whole.iteRelease ((h _).trans (whole_berthWhole v b (Release.start _))) (h _)

theorem whole_applyEntry (v : Env) (b : Nat) (e : Option StatusEntry) (f : Bool) (d : Live) :
    Whole d (applyEntry v b e f d) := by
  unfold applyEntry
  refine Whole.ite (Whole.refl _) ?_
  refine Whole.trans ?_ (whole_consistencyStep _ _ _ _)
  have h1 : ∀ hm : Boundary → Aspect,
      Whole d (d.setBoundary b (fun x => { x with views := e, home := hm x })) :=
    fun hm => whole_setBoundary _ _ _ (fun _ => rfl)
  have h2 : ∀ (c : Bool) (d1 : Live), Whole d d1 →
      Whole d (if c then exitAspect v b d1 else d1) := fun c d1 h =>
    Whole.ite (h.trans (calm_exitAspect _ _ _).whole) h
  cases e with
  | none =>
    have h3 := fun c => h2 c _ (h1 Boundary.home)
    exact Whole.ite ((h3 _).trans (told_boundaryEvent v b _ _ _ (told_tryAccept v b _)).whole) (h3 _)
  | some y => exact (h2 _ _ (h1 _)).trans (whole_applyViews v b _ y f _)

theorem whole_applyStatus (v : Env) (l : Nat) (stop : Bool) (es : List StatusEntry) (f was : Bool)
    (d : Live) : Whole d (applyStatus v l stop es f was d) := by
  unfold applyStatus
  refine Whole.trans ?_ (Whole.foldl _ (fun d bd => whole_applyEntry _ _ _ _ _) _ _)
  exact Whole.trans (by exact whole_setLink _ _ _ (fun _ h => h)) (watched_edge _ _ _ _).whole

theorem whole_takeStatus (v : Env) (l : Nat) (d : Live) : Whole d (takeStatus v l d) := by
  unfold takeStatus
  split
  · simp only
    split
    · exact ((whole_popFrame _ _).trans (whole_restartSilence _ _ _)).trans
        (whole_applyStatus _ _ _ _ _ _ _)
    · exact whole_popFrame _ _
    · exact (((whole_popFrame _ _).trans (sent_becomeUp _ _ _).whole).trans (whole_serve _ _)).trans
        (whole_applyStatus _ _ _ _ _ _ _)
  · exact Whole.refl _

/-! ### Direction and acceptance frames -/

theorem whole_event {v : Env} {b : Nat} {r : Option Nat} {f : Live → Live} {d : Live}
    (h : Whole d (f d)) : Whole d (boundaryEvent v b r f d) :=
  h.trans (sent_boundaryEvent v b r f d).whole

theorem whole_setB {b : Nat} {f : Boundary → Boundary} {d : Live} (hf : ∀ x, (f x).num = x.num) :
    Whole d (d.setBoundary b f) := whole_setBoundary d b f hf

theorem whole_sendFrom (v : Env) (b : Nat) (f : Nat → NFrame) (d : Live) :
    Whole d (sendFrom v b f d) := (sent_sendFrom v b f d).whole

theorem whole_contestEqual (v : Env) (b : Nat) (d : Live) : Whole d (contestEqual v b d) := by
  unfold contestEqual
  extract_lets before d1 d2 d3 d4 d5
  have h2 : Whole d d2 :=
    Whole.trans (by exact whole_setBoundary _ _ _ (fun _ => rfl)) (whole_sendFrom _ _ _ _)
  have h3 : Whole d d3 := by
    unfold d3
    split
    · exact h2.trans (watched_raise _ _ _ _ _).whole
    · exact h2
  have h4 : Whole d d4 := h3.trans (sent_reportChange _ _ _ _).whole
  have h5 : Whole d d5 := by
    unfold d5
    split
    · exact h4.trans (whole_failSetting _ _ _ _)
    · exact h4
  exact (h5.trans (calm_evaluateExit _ _ _).whole).trans (whole_setReeval _ _)

theorem whole_applyDirRequest (v : Env) (b : Nat) (q : Seniority) (d : Live) :
    Whole d (applyDirRequest v b q d) := by
  have hw : Whole d (tryOffer v b (sendFrom v b .dirRefuse
      (d.setBoundary b (fun x => { x with waiting := true })))) :=
    (Whole.trans (by exact whole_setBoundary _ _ _ (fun _ => rfl)) (whole_sendFrom _ _ _ _)).trans
      (told_tryOffer _ _ _).whole
  have hg : ∀ e, Whole d e → Whole d (sendFrom v b .dirGrant (setDirection b .inward e)) :=
    fun e h => (h.trans (told_setDirection _ _ _).whole).trans (whole_sendFrom _ _ _ _)
  unfold applyDirRequest
  refine Whole.ite (whole_event (whole_sendFrom _ _ _ _)) (Whole.ite ?_ ?_)
  · unfold contest
    simp only
    split
    · exact whole_event hw
    · exact whole_event (hg _ (by exact whole_setBoundary _ _ _ (fun _ => rfl)))
    · exact whole_contestEqual _ _ _
  · split
    · exact Whole.ite (whole_event hw)
        (whole_event (hg _ (by exact whole_setBoundary _ _ _ (fun _ => rfl))))
    · exact whole_event (hg _ (Whole.refl _))

theorem whole_applyDirGrant (v : Env) (b : Nat) (d : Live) : Whole d (applyDirGrant v b d) :=
  Whole.ite (whole_event (told_becomeOutward _ _ _).whole) (Whole.refl _)
theorem whole_applyDirRefuse (b : Nat) (d : Live) : Whole d (applyDirRefuse b d) :=
  whole_setBoundary _ _ _ (fun _ => rfl)
theorem whole_applyDirOffer (v : Env) (b : Nat) (d : Live) : Whole d (applyDirOffer v b d) :=
  Whole.ite (whole_event (told_becomeOutward _ _ _).whole) (Whole.refl _)

theorem whole_lockBerth (bd : BoundaryDef) (d : Live) : Whole d (lockBerth bd d) :=
  Whole.foldl _ (fun _ _ => by exact whole_setControl _ _ _ (fun _ => rfl)) _ d

theorem whole_applyAcceptRequest (v : Env) (b : Nat) (d : Live) :
    Whole d (applyAcceptRequest v b d) := by
  unfold applyAcceptRequest
  split
  · split
    · exact whole_event (whole_sendFrom _ _ _ _)
    · refine whole_event (Whole.trans ?_ (whole_sendFrom _ _ _ _))
      exact (whole_lockBerth _ _).trans (whole_setBoundary _ _ _ (fun _ => rfl))
  · exact Whole.refl _

theorem whole_applyAcceptGrant (v : Env) (b : Nat) (h : Aspect) (d : Live) :
    Whole d (applyAcceptGrant v b h d) := by
  unfold applyAcceptGrant
  refine Whole.ite ?_ (whole_event (whole_sendFrom _ _ _ _))
  have h1 : Whole d (boundaryEvent v b none (fun d =>
      setAcceptance b .held none (d.setBoundary b (fun x => { x with home := h }))) d) :=
    whole_event (Whole.trans (by exact whole_setBoundary _ _ _ (fun _ => rfl))
      (told_setAcceptance _ _ _ _).whole)
  exact Whole.ite (h1.trans (calm_exitAspect _ _ _).whole) h1

theorem whole_applyAcceptRefuse (v : Env) (b r : Nat) (d : Live) :
    Whole d (applyAcceptRefuse v b r d) :=
  Whole.ite (whole_event ((told_setAcceptance _ _ _ _).trans (told_tryOffer _ _ _)).whole)
    (Whole.refl _)

theorem whole_applyAcceptCancel (v : Env) (b : Nat) (d : Live) :
    Whole d (applyAcceptCancel v b d) := by
  unfold applyAcceptCancel
  exact Whole.ite ((whole_berthWhole v b (Release.start d)).trans (whole_finishBerth _ _ _ _ _))
    (Whole.refl _)

/-! ### The Handover Controller's timers -/

theorem whole_linkSilent (l : Nat) (v : Env) (d : Live) : Whole d (linkSilent l v d) :=
  Whole.ite (sent_leaveUp _ _ _ _).whole (Whole.refl _)
theorem whole_dirRequestDue (b : Nat) (v : Env) (d : Live) : Whole d (dirRequestDue b v d) :=
  Whole.ite (whole_setBoundary _ _ _ (fun _ => rfl)) (Whole.refl _)
theorem whole_acceptanceDue (b : Nat) (v : Env) (d : Live) : Whole d (acceptanceDue b v d) :=
  Whole.ite (whole_event ((told_setAcceptance _ _ _ _).trans (told_tryOffer _ _ _)).whole)
    (Whole.refl _)

theorem whole_consistencyDue (b : Nat) (v : Env) (d : Live) : Whole d (consistencyDue b v d) := by
  unfold consistencyDue
  refine Whole.ite (Whole.trans ?_ (calm_evaluateExit _ _ _).whole) (Whole.refl _)
  have h1 : Whole d (d.setBoundary b (fun x => { x with consExpiry := none, restricted := true })) :=
    whole_setBoundary _ _ _ (fun _ => rfl)
  have h2 : ∀ e, Whole d e → Whole d (match v.boundary? b with
      | some bd => raise v bd.element .restricted none e | none => e) := by
    intro e h
    split
    · exact h.trans (watched_raise _ _ _ _ _).whole
    · exact h
  have h4 : ∀ e, Whole d e → Whole d (match (e.boundary b).exitSlot with
      | some i => failSetting v i .boundaryUnavailable e | none => e) := by
    intro e h
    split
    · exact h.trans (whole_failSetting _ _ _ _)
    · exact h
  exact h4 _ ((h2 _ h1).trans (sent_reportChange _ _ _ _).whole)

theorem whole_resetDue (b : Nat) (v : Env) (d : Live) : Whole d (resetDue b v d) :=
  Whole.ite ((whole_berthWhole v b (Release.start d)).trans (whole_finishBerth _ _ _ _ _))
    (Whole.refl _)

/-! ### The other timers -/

theorem whole_settingDue (i : Nat) (v : Env) (d : Live) : Whole d (settingDue i v d) :=
  Whole.ite (whole_failSetting _ _ _ _) (Whole.refl _)

theorem whole_storedDue (r : Nat) (v : Env) (d : Live) : Whole d (storedDue r v d) := by
  unfold storedDue
  split
  · exact Whole.ite ((whole_dropStored _ _).trans (whole_report _ _)) (Whole.refl _)
  · exact Whole.refl _

theorem whole_overlapDue (i : Nat) (v : Env) (d : Live) : Whole d (overlapDue i v d) :=
  Whole.ite (whole_overlapWhole _ _ _) (Whole.refl _)
theorem whole_holdDue (i : Nat) (v : Env) (d : Live) : Whole d (holdDue i v d) :=
  Whole.ite (whole_giveUpSlot _ _ _ _ _) (Whole.refl _)

theorem whole_speedAged (n : Nat) (v : Env) (d : Live) : Whole d (speedAged n v d) := by
  unfold speedAged
  split
  · exact Whole.ite (whole_setControl _ _ _ (fun _ => rfl)) (Whole.refl _)
  · exact Whole.refl _

theorem whole_staggerDue (g : Nat) (v : Env) (d : Live) : Whole d (staggerDue g v d) :=
  Whole.ite ((moved_setPower _ _ _).whole.trans (whole_runArbiter _ _ _)) (Whole.refl _)

theorem whole_settleDue (p : Nat) (v : Env) (d : Live) : Whole d (settleDue p v d) := by
  unfold settleDue
  split
  · exact Whole.ite (whole_flightDone _ _ _ _) (Whole.refl _)
  · exact Whole.refl _

theorem whole_confirmDue (n : Nat) (v : Env) (d : Live) : Whole d (confirmDue n v d) := by
  unfold confirmDue
  refine Whole.ite (Whole.trans ?_ (watched_raise _ _ _ _ _).whole) (Whole.refl _)
  exact whole_setControl _ _ _ (fun _ => rfl)

/-! ### The end of a throw in failure (R88 to R91, R106) -/

theorem whole_reSearch (v : Env) (i k p : Nat) (pos : Position) (r : Release) :
    Whole r.live (reSearch v i k p pos r).1.live := by
  unfold reSearch
  split
  · simp only
    split
    · have h := (whole_giveUp (.point p pos) r).trans (whole_takeProtector v ‹Protector› _)
      exact h.trans (by exact whole_setSlot _ _ _)
    · exact (whole_giveUp (.point p pos) r).trans (by exact whole_setSlot _ _ _)
  · exact Whole.refl _

theorem whole_reSearches (v : Env) (i p : Nat) (pos : Position) (ks : List Nat) (r : Release) :
    Whole r.live (reSearches v i p pos ks r).1.live := by
  induction ks generalizing r with
  | nil => exact Whole.refl _
  | cons k ks ih =>
    have h := whole_reSearch v i k p pos r
    unfold reSearches
    split
    · next e => rw [e] at h; exact h.trans (ih _)
    · next e => rw [e] at h; exact h

theorem whole_failReSearch (v : Env) (i : Nat) (r : Release) : Whole r.live (failReSearch v i r) := by
  unfold failReSearch
  split
  · refine Whole.trans ?_ (calm_computeAspect _ _ _).whole
    refine Whole.trans ?_ (whole_serve _ _)
    refine Whole.trans ?_ (whole_setReeval _ _)
    refine Whole.trans ?_ (whole_report _ _)
    refine Whole.trans ?_ (whole_handOn _ _)
    exact (told_releaseExit v i false r.live).whole.trans
      (whole_wholeRelease v i { r with live := _ })
  · exact whole_handOn _ _

theorem whole_reSearchSlot (v : Env) (p : Nat) (pos : Position) (t : Option Time) (i : Nat)
    (d : Live) : Whole d (reSearchSlot v p pos t i d) := by
  unfold reSearchSlot
  refine Whole.ite (Whole.refl _) ?_
  have h := whole_reSearches v i p pos (failedRecords (d.slot i) p pos) (Release.start d)
  split
  · next e => rw [e] at h; exact h.trans (whole_failReSearch _ _ _)
  · next e =>
    rw [e] at h
    exact ((((h.trans (whole_handOn _ _)).trans (whole_serve _ _)).trans
      (whole_handOrders _ _ _ _)).trans (whole_setSlot _ _ _)).trans (calm_testPositioning _ _ _).whole

theorem whole_throwFailed (v : Env) (p : Nat) (pos : Position) (d : Live) :
    Whole d (throwFailed v p pos d) := by
  unfold throwFailed
  refine Whole.trans ?_ (Whole.foldl _ (fun d i => whole_failSetting v i _ d) _ _)
  refine Whole.trans ?_ (Whole.foldl _ (fun e i => whole_reSearchSlot v p pos _ i e) _ _)
  exact Whole.foldl _ (fun d i => whole_setSlot d i _) _ _

theorem whole_throwDue (p : Nat) (v : Env) (d : Live) : Whole d (throwDue p v d) := by
  unfold throwDue
  split
  · refine Whole.ite ?_ (Whole.refl _)
    refine Whole.trans ?_ (whole_runArbiter _ _ _)
    refine Whole.trans ?_ (calm_evaluateElement _ _ _).whole
    refine Whole.trans ?_ (whole_throwFailed _ _ _ _)
    exact (moved_failFlight _ _ _).whole.trans (watched_raise _ _ _ _ _).whole
  · exact Whole.refl _

end Sys2Proof.Machine
end

