-- ==== Sys2Proof/Laws/Keeps.lean ====
section
/-! SUPPORT. What the acts of the blocks keep of the slots, the locks and the flank counts: a FREE slot holds
nothing and an active one a route, every lock is its holder's, and every flank count is the number of flank
requirements that hold the protector (R36 to R38, R51, R55). -/

namespace Sys2Proof.Machine

open Sys2Proof

/-! ### The relation -/

/-- A FREE slot holds nothing, and an active one holds a route of the standing set (R55). -/
def Live.slotsOk (v : Env) (d : Live) : Prop :=
  (∀ i, (d.slot i).state = .free → d.slot i = Slot.free)
    ∧ ∀ i, (d.slot i).state ≠ .free → ∃ rt, d.routeOf v i = some rt

/-- Every lock is its holder's (R36, R37). -/
def Live.locksTied (v : Env) (d : Live) : Prop :=
  ∀ n k, (d.control n).lock = some k → d.lockOwned v n k

/-- The flank count that a protector counts in (R38). -/
def Live.counted (d : Live) : Protector → Nat
  | .point n pos => (d.control n).count pos
  | .signal n => (d.control n).holdCount

/-- Every flank count is the number of flank requirements that hold the protector (R38, R51). -/
def Live.countsTied (d : Live) : Prop :=
  ∀ q : Protector, d.hasControl q.element → d.counted q = d.protecting q

/-- Each boundary of the standing set has its record (R154). -/
def Live.tabled (v : Env) (d : Live) : Prop := ∀ b bd, v.boundary? b = some bd → d.hasBoundary b

/-- What an act keeps; the stored request queue and the slots in SETTING aside. -/
structure Holds (v : Env) (d e : Live) : Prop where
  whole : Whole d e
  shows : Shows v d e
  slots : d.slotsOk v → e.slotsOk v
  locks : d.tabled v → d.slotsOk v → d.locksTied v → e.locksTied v
  counts : d.slotsOk v → d.countsTied → e.countsTied
  exits : d.exitsTied v → e.exitsTied v

/-- What an act keeps; while lane mode is not NORMAL, nothing becomes stored in an empty queue and no slot
becomes SETTING (R77). -/
structure Keeps (v : Env) (d e : Live) : Prop extends Holds v d e where
  fades : v.mode ≠ .normal → d.stored = [] →
    e.stored = [] ∧ ∀ i, (e.slot i).state = .setting → (d.slot i).state = .setting

theorem Whole.tabled {v : Env} {d e : Live} (h : Whole d e) (k : d.tabled v) : e.tabled v := by
  intro b bd hb
  have := k b bd hb
  unfold Live.hasBoundary at *
  rwa [h.boundaryNums]

theorem Holds.refl (v : Env) (d : Live) : Holds v d d :=
  ⟨Whole.refl d, Shows.refl v d, id, fun _ _ => id, fun _ => id, id⟩

theorem Holds.trans {v : Env} {d e f : Live} (h : Holds v d e) (k : Holds v e f) : Holds v d f :=
  ⟨h.whole.trans k.whole, h.shows.trans k.shows, k.slots ∘ h.slots,
    fun t s l => k.locks (h.whole.tabled t) (h.slots s) (h.locks t s l),
    fun s c => k.counts (h.slots s) (h.counts s c), k.exits ∘ h.exits⟩

theorem Keeps.refl (v : Env) (d : Live) : Keeps v d d := ⟨Holds.refl v d, fun _ h => ⟨h, fun _ => id⟩⟩

theorem Keeps.trans {v : Env} {d e f : Live} (h : Keeps v d e) (k : Keeps v e f) : Keeps v d f :=
  ⟨h.toHolds.trans k.toHolds, fun m s =>
    have a := h.fades m s
    have b := k.fades m a.1
    ⟨b.1, fun i hi => a.2 i (b.2 i hi)⟩⟩

theorem Keeps.ite {v : Env} {d e f : Live} {c : Prop} [Decidable c] (h : Keeps v d e)
    (k : Keeps v d f) : Keeps v d (if c then e else f) := by
  split
  · exact h
  · exact k

theorem Keeps.foldl {α : Type} {v : Env} (f : Live → α → Live) (h : ∀ d a, Keeps v d (f d a))
    (l : List α) (d : Live) : Keeps v d (l.foldl f d) := by
  induction l generalizing d with
  | nil => exact Keeps.refl v d
  | cons a as ih => exact (h d a).trans (ih (f d a))

theorem Keeps.eachSlot {v : Env} (f : Nat → Live → Live) (h : ∀ i d, Keeps v d (f i d)) (d : Live) :
    Keeps v d (d.eachSlot f) := Keeps.foldl _ (fun d i => h i d) _ d

/-! ### What keeps an exit slot its boundary's -/

/-- Exit slots stay tied where none is new and their routes stand. -/
theorem exitsTied_keep {v : Env} {d e : Live}
    (hb : ∀ b i, (e.boundary b).exitSlot = some i → (d.boundary b).exitSlot = some i)
    (hr : ∀ i rt, d.routeOf v i = some rt → e.routeOf v i = some rt) (h : d.exitsTied v) :
    e.exitsTied v := by
  intro b i hi
  obtain ⟨rt, y, h1, h2⟩ := h b i (hb b i hi)
  exact ⟨rt, y, hr i rt h1, h2⟩

/-- Exit slots stay tied where the boundary records, and the states and routes of the slots, stand. -/
theorem exitsTied_same {v : Env} {d e : Live} (hb : e.boundaries = d.boundaries)
    (hs : ∀ i, (e.slot i).state = (d.slot i).state ∧ (e.slot i).route = (d.slot i).route)
    (h : d.exitsTied v) : e.exitsTied v :=
  exitsTied_keep (fun b i hi => by rwa [Live.boundary_congr hb] at hi)
    (fun i rt hr => by rw [routeOf_of (hs i).1 (hs i).2, hr]) h

/-! ### What keeps a lock its holder's -/

/-- A lock stays its holder's where the holder keeps what it owned the element by. -/
theorem lockOwned_keep {v : Env} {d e : Live} {n : Nat} {k : Lock} (h : d.lockOwned v n k)
    (hs : ∀ i rt, k.holder = .slot i → d.routeOf v i = some rt → e.routeOf v i = some rt
      ∧ ((∃ x ∈ ownPath rt (d.slot i), x.element = n) → ∃ x ∈ ownPath rt (e.slot i), x.element = n)
      ∧ ((∃ x ∈ ownOverlap rt (d.slot i), x.element = n) →
          ∃ x ∈ ownOverlap rt (e.slot i), x.element = n))
    (hb : ∀ b bd, k.holder = .berth b → (d.boundary b).berthLocked = true →
      v.boundary? b = some bd →
      (∃ m ∈ bd.berth.zip (d.boundary b).marks, m.1 = n ∧ m.2.released = false) →
      (e.boundary b).berthLocked = true
        ∧ ∃ m ∈ bd.berth.zip (e.boundary b).marks, m.1 = n ∧ m.2.released = false) :
    e.lockOwned v n k := by
  unfold Live.lockOwned at *
  split at h
  · next i hi =>
    obtain ⟨rt, hr, ho⟩ := h
    obtain ⟨a, b, c⟩ := hs i rt hi hr
    refine ⟨rt, a, ho.imp (fun o => ⟨o.1, b o.2⟩) (fun o => ⟨o.1, c o.2⟩)⟩
  · next b hb' =>
    obtain ⟨hm, hl, bd, hbd, ho⟩ := h
    obtain ⟨a, c⟩ := hb b bd hb' hl hbd ho
    exact ⟨hm, a, bd, hbd, c⟩

/-- A lock of a slot has the slot's route. -/
theorem lockOwned_slot {v : Env} {d : Live} {n i : Nat} {k : Lock} (h : d.lockOwned v n k)
    (hk : k.holder = .slot i) : ∃ rt, d.routeOf v i = some rt
      ∧ ((k.mode = .path ∧ ∃ x ∈ ownPath rt (d.slot i), x.element = n)
        ∨ (k.mode = .overlap ∧ ∃ x ∈ ownOverlap rt (d.slot i), x.element = n)) := by
  unfold Live.lockOwned at h
  rw [hk] at h
  exact h

/-- A lock of a berth stands on a section that the berth has not released. -/
theorem lockOwned_berth {v : Env} {d : Live} {n b : Nat} {k : Lock} (h : d.lockOwned v n k)
    (hk : k.holder = .berth b) : k.mode = .berth ∧ (d.boundary b).berthLocked = true
      ∧ ∃ bd, v.boundary? b = some bd
        ∧ ∃ m ∈ bd.berth.zip (d.boundary b).marks, m.1 = n ∧ m.2.released = false := by
  unfold Live.lockOwned at h
  rw [hk] at h
  exact h

/-- The slots as a lock sees them: route, activity and marks. -/
def Slot.sameHold (s t : Slot) : Prop :=
  t.active = s.active ∧ t.route = s.route ∧ t.pathMarks = s.pathMarks ∧ t.overlapMarks = s.overlapMarks

theorem lockOwned_same {v : Env} {d e : Live} {n : Nat} {k : Lock} (h : d.lockOwned v n k)
    (hs : ∀ i, (d.slot i).sameHold (e.slot i))
    (hb : ∀ b, (e.boundary b).berthLocked = (d.boundary b).berthLocked
      ∧ (e.boundary b).marks = (d.boundary b).marks) : e.lockOwned v n k := by
  refine lockOwned_keep h (fun i rt _ hr => ?_) (fun b bd _ hl _ ho => ?_)
  · obtain ⟨h1, h2, h3, h4⟩ := hs i
    refine ⟨by rw [routeOf_eq h2 h1, hr], ?_, ?_⟩
    · unfold ownPath; rw [h3]; exact id
    · unfold ownOverlap; rw [h4]; exact id
  · rw [(hb b).1, (hb b).2]; exact ⟨hl, ho⟩

/-! ### What keeps a count -/

theorem protecting_eq (d : Live) (q : Protector) : d.protecting q
    = ((List.range d.slots.length).map
        (fun i => (d.slot i).flank.countP (fun h => h.protector = some q))).sum := by
  unfold Live.protecting
  congr 1
  apply List.ext_getElem
  · simp
  · intro i h1 h2
    simp at h1
    simp [Live.slot, h1]

theorem protecting_same {d e : Live} (hl : e.slots.length = d.slots.length)
    (hf : ∀ i, (e.slot i).flank = (d.slot i).flank) (q : Protector) :
    e.protecting q = d.protecting q := by
  rw [protecting_eq, protecting_eq, hl]
  simp only [hf]

theorem sum_range_change (n i : Nat) (f g : Nat → Nat) (hi : i < n) (h : ∀ j, j ≠ i → g j = f j) :
    ((List.range n).map g).sum + f i = ((List.range n).map f).sum + g i := by
  induction n with
  | zero => omega
  | succ n ih =>
    rw [List.range_succ]
    simp only [List.map_append, List.sum_append, List.map_cons, List.map_nil, List.sum_cons,
      List.sum_nil, Nat.add_zero]
    by_cases e : i = n
    · subst e
      have : (List.range i).map g = (List.range i).map f := by
        apply List.map_congr_left
        intro j hj
        exact h j (by have := List.mem_range.mp hj; omega)
      rw [this]; omega
    · have := ih (by omega)
      rw [h n (fun k => e k.symm)]
      omega

/-- The number of a slot's flank requirements that hold a protector. -/
def Slot.holdsOf (s : Slot) (q : Protector) : Nat := s.flank.countP (fun h => h.protector = some q)

theorem protecting_change {d e : Live} (hl : e.slots.length = d.slots.length) {i : Nat}
    (hi : i < d.slots.length) (hf : ∀ j, j ≠ i → (e.slot j).flank = (d.slot j).flank)
    (q : Protector) : e.protecting q + (d.slot i).holdsOf q = d.protecting q + (e.slot i).holdsOf q := by
  rw [protecting_eq, protecting_eq, hl]
  refine sum_range_change _ i (fun i => (d.slot i).flank.countP (fun h => h.protector = some q)) _ hi ?_
  intro j hj
  simp only [hf j hj]

theorem countsTied_same {d e : Live} (w : Whole d e) (hf : ∀ i, (e.slot i).flank = (d.slot i).flank)
    (hc : ∀ q, e.counted q = d.counted q) (h : d.countsTied) : e.countsTied := by
  intro q hq
  rw [hc, protecting_same w.slotCount hf]
  exact h q (by unfold Live.hasControl at *; rwa [w.nums] at hq)

/-! ### Acts that move no claim -/

/-- The lock and the flank counts of an element. -/
def Control.ties (c : Control) : Option Lock × Nat × Nat × Nat :=
  (c.lock, c.normalCount, c.reverseCount, c.holdCount)

theorem counted_of_ties {d e : Live} (h : ∀ n, (e.control n).ties = (d.control n).ties) (q : Protector) :
    e.counted q = d.counted q := by
  cases q with
  | point n pos =>
    have a := h n
    unfold Control.ties at a
    simp only [Prod.mk.injEq] at a
    cases pos
    · exact a.2.1
    · exact a.2.2.1
  | signal n =>
    have a := h n
    unfold Control.ties at a
    simp only [Prod.mk.injEq] at a
    exact a.2.2.2

theorem SlotTold.sameHold {s t : Slot} (h : SlotTold s t) : s.sameHold t := by
  obtain ⟨h1, h2, h3, _⟩ := told_fields h
  refine ⟨?_, h1, h2, h3⟩
  cases ha : s.active with
  | true => exact told_active h ha
  | false =>
    have hn : s.needsExit = false := by
      unfold Slot.active at ha
      unfold Slot.needsExit
      cases hs : s.state <;> simp_all
    unfold Slot.active at *
    rw [h.still hn]; exact ha

theorem active_iff {s : Slot} : s.active = true ↔ s.state ≠ .free := by
  unfold Slot.active; cases s.state <;> simp

theorem slotsOk_told {v : Env} {d e : Live} (hs : ∀ i, SlotTold (d.slot i) (e.slot i))
    (h : d.slotsOk v) : e.slotsOk v := by
  have ha : ∀ i, (e.slot i).active = (d.slot i).active := fun i => (hs i).sameHold.1
  refine ⟨fun i hi => ?_, fun i hi => ?_⟩
  · refine (hs i).free (h.1 i ?_)
    by_contra hc
    have := active_iff.mpr hc
    rw [← ha] at this
    exact active_iff.mp this hi
  · have hd : (d.slot i).state ≠ .free := by
      have := active_iff.mpr hi
      rw [ha] at this
      exact active_iff.mp this
    obtain ⟨rt, hr⟩ := h.2 i hd
    exact ⟨rt, by rw [routeOf_eq (hs i).route (ha i), hr]⟩

/-- An act that moves no lock, count, berth, route or mark. -/
theorem Keeps.of {v : Env} {d e : Live} (w : Whole d e) (s : Shows v d e)
    (hs : ∀ i, SlotTold (d.slot i) (e.slot i))
    (hb : ∀ b, (e.boundary b).berthLocked = (d.boundary b).berthLocked
      ∧ (e.boundary b).marks = (d.boundary b).marks)
    (hx : ∀ b i, (e.boundary b).exitSlot = some i → (d.boundary b).exitSlot = some i)
    (hc : ∀ n, (e.control n).ties = (d.control n).ties) (hq : d.stored = [] → e.stored = []) :
    Keeps v d e where
  whole := w
  shows := s
  slots := slotsOk_told hs
  locks _ _ h n k hk := by
    have a := hc n
    unfold Control.ties at a
    simp only [Prod.mk.injEq] at a
    exact lockOwned_same (h n k (by rw [← a.1]; exact hk)) (fun i => (hs i).sameHold) hb
  counts _ := countsTied_same w (fun i => (told_fields (hs i)).2.2.2.1) (counted_of_ties hc)
  exits := exitsTied_keep hx
    (fun i rt h => by rw [routeOf_eq (hs i).route (hs i).sameHold.1, h])
  fades _ h := ⟨hq h, fun i => (hs i).set⟩

theorem Told.keeps {v : Env} {d e : Live} (h : Told d e) (s : Shows v d e) : Keeps v d e :=
  Keeps.of h.whole s h.slot h.berth h.exit
    (fun n => by have := congrArg Control.ties (h.control n); exact this)
    (fun k => h.stored.trans k)

theorem Sent.keeps {v : Env} {d e : Live} (h : Sent d e) (s : Shows v d e) : Keeps v d e :=
  h.told.keeps s
theorem Watched.keeps {v : Env} {d e : Live} (h : Watched d e) (s : Shows v d e) : Keeps v d e :=
  h.sent.keeps s
theorem Calm.keeps {v : Env} {d e : Live} (h : Calm d e) (s : Shows v d e) : Keeps v d e :=
  h.sent.keeps s

theorem Moved.keeps {v : Env} {d e : Live} (h : Moved d e) (s : Shows v d e) : Keeps v d e :=
  Keeps.of h.whole s (fun i => (h.slot i).told)
    (fun b => by rw [Live.boundary_congr h.boundaries]; exact ⟨rfl, rfl⟩)
    (fun b i hi => by rwa [Live.boundary_congr h.boundaries] at hi)
    (fun n => by have := congrArg Control.ties (h.control n); exact this)
    (fun k => h.stored.trans k)

/-- Every act on a throw keeps them. -/
theorem keeping (v : Env) : Throwing v (Keeps v) :=
  ((moving v).both (showing v)).lift (Keeps.refl v) Keeps.trans (fun h => h.1.keeps h.2)

end Sys2Proof.Machine
end

