-- ==== Sys2Proof/Laws/KeepsReleases.lean ====
section
/-! SUPPORT. What a release keeps: locks removed, flank requirements given up, units and berths released,
a slot made FREE (R48 to R53, R94, R116, R118, R120, R165). -/

namespace Sys2Proof.Machine

open Sys2Proof

/-! ### Acts that only take locks away -/

theorem counted_setControl {d : Live} (n : Nat) (f : Control → Control) (hf : ∀ c, (f c).num = c.num)
    (hn : ∀ c, (f c).normalCount = c.normalCount ∧ (f c).reverseCount = c.reverseCount
      ∧ (f c).holdCount = c.holdCount) (q : Protector) :
    (d.setControl n f).counted q = d.counted q := by
  have h : ∀ m, ((d.setControl n f).control m).normalCount = (d.control m).normalCount
      ∧ ((d.setControl n f).control m).reverseCount = (d.control m).reverseCount
      ∧ ((d.setControl n f).control m).holdCount = (d.control m).holdCount := by
    intro m
    rw [d.control_setControl n m f hf]
    split
    · next e => rw [e.1]; exact hn _
    · exact ⟨rfl, rfl, rfl⟩
  cases q with
  | point m pos => cases pos
                   · exact (h m).1
                   · exact (h m).2.1
  | signal m => exact (h m).2.2

/-- An act that takes locks away and moves nothing else that a claim reads. -/
theorem Keeps.unlock {v : Env} {d e : Live} (w : Whole d e) (s : Shows v d e) (hs : e.slots = d.slots)
    (hb : e.boundaries = d.boundaries) (hq : e.stored = d.stored)
    (hl : ∀ n k, (e.control n).lock = some k → (d.control n).lock = some k)
    (hc : ∀ q, e.counted q = d.counted q) : Keeps v d e where
  whole := w
  shows := s
  slots := slotsOk_told (fun i => by rw [Live.slot_congr hs i]; exact SlotTold.refl _)
  locks _ _ h n k hk := lockOwned_same (h n k (hl n k hk))
    (fun i => by rw [Live.slot_congr hs i]; exact ⟨rfl, rfl, rfl, rfl⟩)
    (fun b => by rw [Live.boundary_congr hb]; exact ⟨rfl, rfl⟩)
  counts _ := countsTied_same w (fun i => by rw [Live.slot_congr hs i]) hc
  exits := exitsTied_same hb (fun i => by rw [Live.slot_congr hs i]; exact ⟨rfl, rfl⟩)
  fades _ h := ⟨hq.trans h, fun i => by rw [Live.slot_congr hs i]; exact id⟩

theorem keeps_removeLock (v : Env) (h : Holder) (n : Nat) (r : Release) :
    Keeps v r.live (r.removeLock v h n).live := by
  obtain ⟨a, b⟩ := removeLock_same v h n r
  refine Keeps.unlock (whole_removeLock v h n r) ?_ b a.boundaries a.stored (fun m k hk => ?_) ?_
  · unfold Release.removeLock
    split
    · split
      · exact shows_setControl v _ n _ (fun _ => ⟨rfl, rfl, rfl⟩)
      · exact Shows.refl v _
    · exact Shows.refl v _
  · rw [removeLock_lock] at hk
    split at hk
    · cases hk
    · exact hk
  · intro q
    unfold Release.removeLock
    split
    · split
      · exact counted_setControl n (fun c => { c with lock := none }) (fun _ => rfl)
          (fun _ => ⟨rfl, rfl, rfl⟩) q
      · rfl
    · rfl

theorem keeps_removeLocks (v : Env) (h : Holder) (ns : List Nat) (r : Release) :
    Keeps v r.live (r.removeLocks v h ns).live := by
  unfold Release.removeLocks
  induction ns generalizing r with
  | nil => exact Keeps.refl v _
  | cons n ns ih => exact (keeps_removeLock v h n r).trans (ih _)

theorem keeps_handOn (v : Env) (r : Release) : Keeps v r.live (r.handOn v) :=
  (moved_handOn v r).keeps (shows_handOn v r)

/-! ### Flank requirements given up -/

theorem Control.count_setCount_ne {pos p : Position} (c : Control) (k : Nat) (h : p ≠ pos) :
    (c.setCount pos k).count p = c.count p := by
  cases pos <;> cases p <;> first | rfl | exact absurd rfl h

/-- A protector given up counts one less; every other counts as before. -/
theorem counted_giveUp (q p : Protector) (r : Release) : (r.giveUp q).live.counted p
    = if p = q ∧ r.live.hasControl q.element then r.live.counted q - 1 else r.live.counted p := by
  unfold Release.giveUp
  cases q with
  | point n pos =>
    have key : (r.live.setControl n (fun c => c.setCount pos ((r.live.control n).count pos - 1))).counted p
        = if p = .point n pos ∧ r.live.hasControl n then (r.live.control n).count pos - 1
          else r.live.counted p := by
      have hf : ∀ c : Control, (c.setCount pos ((r.live.control n).count pos - 1)).num = c.num := by
        intro c; cases pos <;> rfl
      cases p with
      | point m p' =>
        unfold Live.counted
        simp only
        rw [r.live.control_setControl n m _ hf]
        by_cases hm : m = n ∧ r.live.hasControl n
        · rw [if_pos hm]
          by_cases hp : p' = pos
          · subst hp
            rw [if_pos ⟨by rw [hm.1], hm.2⟩]
            cases p' <;> rfl
          · rw [if_neg (by rintro ⟨h, -⟩; simp only [Protector.point.injEq] at h; exact hp h.2)]
            rw [Control.count_setCount_ne _ _ hp, hm.1]
        · rw [if_neg hm, if_neg (by rintro ⟨h, k⟩; simp only [Protector.point.injEq] at h; exact hm ⟨h.1, k⟩)]
      | signal m =>
        unfold Live.counted
        simp only
        rw [r.live.control_setControl n m _ hf]
        rw [if_neg (c := Protector.signal m = Protector.point n pos ∧ _) (by rintro ⟨h, -⟩; cases h)]
        split
        · next h => rw [h.1]; cases pos <;> rfl
        · rfl
    simp only
    split <;> exact key
  | signal n =>
    have key : (r.live.setControl n (fun c =>
          { c with holdCount := (r.live.control n).holdCount - 1 })).counted p
        = if p = .signal n ∧ r.live.hasControl n then (r.live.control n).holdCount - 1
          else r.live.counted p := by
      cases p with
      | point m p' =>
        unfold Live.counted
        simp only
        rw [r.live.control_setControl n m _ (by exact fun _ => rfl)]
        rw [if_neg (c := Protector.point m p' = Protector.signal n ∧ _) (by rintro ⟨h, -⟩; cases h)]
        split
        · next h => rw [h.1]; cases p' <;> rfl
        · rfl
      | signal m =>
        unfold Live.counted
        simp only
        rw [r.live.control_setControl n m _ (by exact fun _ => rfl)]
        by_cases hm : m = n ∧ r.live.hasControl n
        · rw [if_pos hm, if_pos ⟨by rw [hm.1], hm.2⟩]
        · rw [if_neg hm, if_neg (by rintro ⟨h, k⟩; simp only [Protector.signal.injEq] at h; exact hm ⟨h, k⟩)]
    simp only
    split <;> exact key

theorem shows_giveUp (v : Env) (q : Protector) (r : Release) : Shows v r.live (r.giveUp q).live := by
  unfold Release.giveUp
  cases q with
  | point n pos =>
    have h : Shows v r.live (r.live.setControl n (fun c =>
        c.setCount pos ((r.live.control n).count pos - 1))) :=
      shows_setControl v _ n _ (fun c => by cases pos <;> exact ⟨rfl, rfl, rfl⟩)
    simp only
    split <;> exact h
  | signal n =>
    have h : Shows v r.live (r.live.setControl n (fun c =>
        { c with holdCount := (r.live.control n).holdCount - 1 })) := by
      refine Shows.of (fun _ => rfl) (fun _ => rfl) (fun m => ?_) (fun m => forcedStop_of rfl ?_)
      · rw [r.live.control_setControl n m _ (by exact fun _ => rfl)]
        split
        · next k => rw [k.1]
        · rfl
      · intro h0
        rw [r.live.control_setControl n m _ (by exact fun _ => rfl)]
        split
        · next k => rw [k.1] at h0; show (r.live.control n).holdCount - 1 = 0; omega
        · exact h0
    simp only
    split <;> exact h

/-- A slot's marks and flank set changed, its state and its route kept. -/
theorem slotsOk_setSlot {v : Env} {d : Live} {i : Nat} {f : Slot → Slot}
    (hf : (f (d.slot i)).state = (d.slot i).state ∧ (f (d.slot i)).route = (d.slot i).route)
    (hz : d.slot i = Slot.free → f (d.slot i) = Slot.free) (h : d.slotsOk v) :
    (d.setSlot i f).slotsOk v := by
  have hs : ∀ j, ((d.setSlot i f).slot j).state = (d.slot j).state
      ∧ ((d.setSlot i f).slot j).route = (d.slot j).route
      ∧ (d.slot j = Slot.free → (d.setSlot i f).slot j = Slot.free) := by
    intro j
    rw [d.slot_setSlot]
    split
    · next k => rw [← k.1]; exact ⟨hf.1, hf.2, hz⟩
    · exact ⟨rfl, rfl, id⟩
  refine ⟨fun j hj => (hs j).2.2 (h.1 j (by rw [← (hs j).1]; exact hj)), fun j hj => ?_⟩
  obtain ⟨rt, hr⟩ := h.2 j (by rw [← (hs j).1]; exact hj)
  exact ⟨rt, by rw [routeOf_of (hs j).1 (hs j).2.1, hr]⟩

theorem giveUp_same (q : Protector) (r : Release) :
    (r.giveUp q).live.slots = r.live.slots ∧ (r.giveUp q).live.boundaries = r.live.boundaries
      ∧ (r.giveUp q).live.stored = r.live.stored
      ∧ ∀ m, ((r.giveUp q).live.control m).lock = (r.live.control m).lock :=
  have h := giveUp_all q r
  ⟨h.2.1, h.1.boundaries, h.1.stored, h.2.2⟩

theorem holdsOf_set {s : Slot} {k : Nat} {h x : FlankHold} (hk : s.flank[k]? = some h) (q : Protector) :
    Slot.holdsOf { s with flank := s.flank.set k x } q + (if h.protector = some q then 1 else 0)
      = s.holdsOf q + (if x.protector = some q then 1 else 0) := by
  unfold Slot.holdsOf
  generalize hl : s.flank = l at *
  clear hl
  induction l generalizing k with
  | nil => simp at hk
  | cons a l ih =>
    cases k with
    | zero =>
      simp only [List.getElem?_cons_zero, Option.some.injEq] at hk
      subst hk
      simp only [List.set_cons_zero, List.countP_cons, decide_eq_true_eq]
      omega
    | succ k =>
      simp only [List.getElem?_cons_succ] at hk
      have := ih hk
      simp only [List.set_cons_succ, List.countP_cons] at *
      omega

theorem slot_lt_of_flank {d : Live} {i k : Nat} {h : FlankHold} (hk : (d.slot i).flank[k]? = some h) :
    i < d.slots.length := by
  by_contra hn
  unfold Live.slot at hk
  rw [List.getD_eq_default _ _ (by omega)] at hk
  simp [Slot.free] at hk

/-- One flank requirement of a slot given up: its count falls with it. -/
theorem keeps_giveUpRecord (v : Env) (i k : Nat) (r : Release) :
    Keeps v r.live (r.giveUpRecord i k).live := by
  have w := whole_giveUpRecord i k r
  revert w
  unfold Release.giveUpRecord
  split
  swap
  · exact fun _ => Keeps.refl v _
  next h hk =>
  have hi := slot_lt_of_flank hk
  have hf : (r.live.slot i) ≠ Slot.free := fun e => by rw [e] at hk; simp [Slot.free] at hk
  simp only
  set d1 := r.live.setSlot i (fun s => { s with flank := s.flank.set k FlankHold.released }) with hd1
  have s1 : Shows v r.live d1 := shows_setSlot v _ i _ ⟨rfl, rfl⟩
  have o1 : r.live.slotsOk v → d1.slotsOk v :=
    slotsOk_setSlot ⟨rfl, rfl⟩ (fun e => absurd e hf)
  have h1 : ∀ j, (r.live.slot j).sameHold (d1.slot j) := by
    intro j
    rw [hd1, r.live.slot_setSlot]
    split
    · next e => rw [← e.1]; exact ⟨rfl, rfl, rfl, rfl⟩
    · exact ⟨rfl, rfl, rfl, rfl⟩
  have st1 : ∀ j, (d1.slot j).state = (r.live.slot j).state := by
    intro j
    rw [hd1, r.live.slot_setSlot]
    split
    · next e => rw [← e.1]
    · rfl
  have p1 : ∀ q, d1.protecting q + (if h.protector = some q then 1 else 0) = r.live.protecting q := by
    intro q
    have a := protecting_change (d := r.live) (e := d1) (by simp [hd1]) hi
      (fun j hj => by rw [hd1, setSlot_slot_ne hj]) q
    have b := holdsOf_set (x := FlankHold.released) hk q
    rw [hd1, setSlot_slot_self hi] at a
    simp only [FlankHold.released, reduceCtorEq, if_false] at b
    unfold FlankHold.released at a
    rw [hd1]
    unfold FlankHold.released
    omega
  split
  · next q hq =>
    intro w
    obtain ⟨g1, g2, g3, g4⟩ := giveUp_same q { r with live := d1 }
    have gs : ∀ j, (({ r with live := d1 } : Release).giveUp q).live.slot j = d1.slot j :=
      fun j => Live.slot_congr g1 j
    refine ⟨⟨w, s1.trans (shows_giveUp v q { r with live := d1 }), ?_, ?_, ?_,
      exitsTied_same (g2.trans rfl) (fun j => by rw [gs]; exact ⟨st1 j, (h1 j).2.1⟩)⟩, ?_⟩
    · intro o
      exact slotsOk_told (fun j => by rw [gs]; exact SlotTold.refl _) (o1 o)
    · intro _ _ hl n l hn
      rw [g4] at hn
      refine lockOwned_same (hl n l hn) (fun j => by rw [gs]; exact h1 j) (fun b => ?_)
      rw [Live.boundary_congr g2]; exact ⟨rfl, rfl⟩
    · intro _ hc p hp
      have hp' : r.live.hasControl p.element := by
        unfold Live.hasControl at *; rwa [w.nums] at hp
      have ep : (({ r with live := d1 } : Release).giveUp q).live.protecting p = d1.protecting p :=
        protecting_same (by rw [g1]) (fun j => by rw [gs]) p
      rw [counted_giveUp, ep]
      have e1 := p1 p
      have e2 := hc p hp'
      by_cases hpq : p = q
      · subst hpq
        rw [if_pos ⟨rfl, hp'⟩]
        rw [hq] at e1
        simp only [if_true] at e1
        show r.live.counted p - 1 = _
        omega
      · rw [if_neg (fun x => hpq x.1)]
        rw [hq, if_neg (by simpa using fun x : q = p => hpq x.symm)] at e1
        show r.live.counted p = _
        omega
    · intro _ hst
      exact ⟨g3.trans hst, fun j => by rw [gs, st1]; exact id⟩
  · next hq =>
    intro w
    refine ⟨⟨w, s1, o1, ?_, ?_, exitsTied_same rfl (fun j => ⟨st1 j, (h1 j).2.1⟩)⟩, fun _ hst => ⟨hst, fun j => by rw [st1]; exact id⟩⟩
    · intro _ _ hl n l hn
      exact lockOwned_same (hl n l hn) h1 (fun b => ⟨rfl, rfl⟩)
    · intro _ hc p hp
      have e1 := p1 p
      rw [hq] at e1
      simp only [reduceCtorEq, if_false, Nat.add_zero] at e1
      rw [e1]
      exact hc p hp

theorem keeps_giveUpRecords (v : Env) (i : Nat) (ks : List Nat) (r : Release) :
    Keeps v r.live (r.giveUpRecords i ks).live := by
  unfold Release.giveUpRecords
  induction ks generalizing r with
  | nil => exact Keeps.refl v _
  | cons k ks ih => exact (keeps_giveUpRecord v i k r).trans (ih _)

end Sys2Proof.Machine
end

