-- ==== Sys2Proof/Laws/KeepsPassage.lean ====
section
/-! SUPPORT. What train passage and the giving up of slots keep (R50, R72, R113 to R120, R123). -/

namespace Sys2Proof.Machine

open Sys2Proof

/-! ### Entries that are still a slot's -/

theorem mem_ownPath {rt : RouteDef} {s : Slot} {x : Entry} : x ∈ ownPath rt s ↔
    ∃ (j : Nat) (m : Mark), rt.path[j]? = some x ∧ s.pathMarks[j]? = some m ∧ m.released = false := by
  unfold ownPath
  simp only [List.mem_map, List.mem_filter, Bool.not_eq_true', Prod.exists, exists_and_right,
    exists_eq_right]
  constructor
  · rintro ⟨m, h, hm⟩
    obtain ⟨j, hj⟩ := List.mem_iff_getElem?.mp h
    rw [List.getElem?_zip_eq_some] at hj
    exact ⟨j, m, hj.1, hj.2, hm⟩
  · rintro ⟨j, m, h1, h2, hm⟩
    refine ⟨m, List.mem_iff_getElem?.mpr ⟨j, ?_⟩, hm⟩
    rw [List.getElem?_zip_eq_some]
    exact ⟨h1, h2⟩

theorem mem_ownOverlap {rt : RouteDef} {s : Slot} {x : Entry} : x ∈ ownOverlap rt s ↔
    ∃ (j : Nat) (m : Mark), rt.overlap[j]? = some x ∧ s.overlapMarks[j]? = some m ∧ m.released = false
      ∧ m.transferred = false := by
  unfold ownOverlap
  simp only [List.mem_map, List.mem_filter, Bool.and_eq_true, Bool.not_eq_true', Prod.exists,
    exists_and_right, exists_eq_right]
  constructor
  · rintro ⟨m, h, hm⟩
    obtain ⟨j, hj⟩ := List.mem_iff_getElem?.mp h
    rw [List.getElem?_zip_eq_some] at hj
    exact ⟨j, m, hj.1, hj.2, hm⟩
  · rintro ⟨j, m, h1, h2, hm⟩
    refine ⟨m, List.mem_iff_getElem?.mpr ⟨j, ?_⟩, hm⟩
    rw [List.getElem?_zip_eq_some]
    exact ⟨h1, h2⟩

theorem getElem?_markReleased (ks : List Nat) (ms : List Mark) (j : Nat) : (markReleased ks ms)[j]?
    = ms[j]?.map (fun m => if ks.contains j then { m with released := true } else m) := by
  unfold markReleased
  rw [List.getElem?_map, List.getElem?_zipIdx]
  cases ms[j]? <;> simp

theorem mem_elementsAt {es : List Entry} {ks : List Nat} {j : Nat} {x : Entry} (hj : j ∈ ks)
    (hx : es[j]? = some x) : x.element ∈ elementsAt es ks := by
  unfold elementsAt
  exact List.mem_filterMap.mpr ⟨j, hj, by rw [hx]; rfl⟩

/-! ### A unit released: marks and locks -/

/-- Marks of a slot changed and the locks of the entries it gives up removed. -/
theorem keeps_marksLocks (v : Env) (i : Nat) (rt : RouteDef) (ns : List Nat) (r : Release)
    (f : Slot → Slot) (hr : r.live.routeOf v i = some rt)
    (hf : (f (r.live.slot i)).state = (r.live.slot i).state
      ∧ (f (r.live.slot i)).route = (r.live.slot i).route
      ∧ (f (r.live.slot i)).flank = (r.live.slot i).flank)
    (hp : ∀ x ∈ ownPath rt (r.live.slot i), x.element ∉ ns →
      x ∈ ownPath rt (f (r.live.slot i)))
    (ho : ∀ x ∈ ownOverlap rt (r.live.slot i), x.element ∉ ns →
      x ∈ ownOverlap rt (f (r.live.slot i))) :
    Keeps v r.live (({ r with live := r.live.setSlot i f } : Release).removeLocks v (.slot i) ns).live := by
  set r1 : Release := { r with live := r.live.setSlot i f } with h1
  obtain ⟨a, b, c⟩ := removeLocks_all v (.slot i) ns r1
  have k := keeps_removeLocks v (.slot i) ns r1
  have w1 : Whole r.live r1.live := whole_setSlot _ i f
  have hz : r.live.slot i ≠ Slot.free := fun e => by
    have := routeOf_active hr
    rw [e] at this
    cases this
  have hs : ∀ j, (r1.live.slot j).state = (r.live.slot j).state
      ∧ (r1.live.slot j).route = (r.live.slot j).route
      ∧ (r1.live.slot j).flank = (r.live.slot j).flank := by
    intro j
    rw [h1]
    simp only
    rw [r.live.slot_setSlot]
    split
    · next e => rw [← e.1]; exact hf
    · exact ⟨rfl, rfl, rfl⟩
  refine ⟨⟨w1.trans k.whole, Shows.trans (shows_setSlot v _ i f ⟨hf.1, hf.2.1⟩) k.shows, ?_, ?_, ?_,
    fun x => k.exits (exitsTied_same (d := r.live) rfl (fun j => ⟨(hs j).1, (hs j).2.1⟩) x)⟩, ?_⟩
  · exact fun o => k.slots (slotsOk_setSlot ⟨hf.1, hf.2.1⟩ (fun e => absurd e hz) o)
  · intro _ _ hl n l hn
    rw [c] at hn
    split at hn
    · cases hn
    next hnn =>
    have hl' := hl n l hn
    have hn' : (r1.live.control n).lock = some l := hn
    refine lockOwned_keep hl' (fun j rt' hj hrt => ?_) (fun b' bd _ hbl _ hm => ?_)
    · have hrj : (({ r with live := r.live.setSlot i f } : Release).removeLocks v (.slot i) ns).live.routeOf v j
          = some rt' := by
        rw [← hrt]
        refine routeOf_of ?_ ?_
        · rw [Live.slot_congr b]; exact (hs j).1
        · rw [Live.slot_congr b]; exact (hs j).2.1
      refine ⟨hrj, ?_, ?_⟩
      · rintro ⟨x, hx, rfl⟩
        refine ⟨x, ?_, rfl⟩
        rw [Live.slot_congr b]
        by_cases e : j = i
        · subst e
          rw [hr] at hrt; cases hrt
          show x ∈ ownPath rt ((r.live.setSlot j f).slot j)
          rw [setSlot_slot_self (active_lt (routeOf_active hr))]
          refine hp x hx (fun hin => hnn ⟨hin, ?_⟩)
          rw [hn']; simp [hj]
        · show x ∈ ownPath rt' ((r.live.setSlot i f).slot j)
          rw [setSlot_slot_ne e]; exact hx
      · rintro ⟨x, hx, rfl⟩
        refine ⟨x, ?_, rfl⟩
        rw [Live.slot_congr b]
        by_cases e : j = i
        · subst e
          rw [hr] at hrt; cases hrt
          show x ∈ ownOverlap rt ((r.live.setSlot j f).slot j)
          rw [setSlot_slot_self (active_lt (routeOf_active hr))]
          refine ho x hx (fun hin => hnn ⟨hin, ?_⟩)
          rw [hn']; simp [hj]
        · show x ∈ ownOverlap rt' ((r.live.setSlot i f).slot j)
          rw [setSlot_slot_ne e]; exact hx
    · rw [Live.boundary_congr a.boundaries]
      exact ⟨hbl, hm⟩
  · exact fun o hc => k.counts (slotsOk_setSlot ⟨hf.1, hf.2.1⟩ (fun e => absurd e hz) o)
      (countsTied_same w1 (fun j => (hs j).2.2) (fun q => by cases q <;> rfl) hc)
  · intro m h
    have := k.fades m h
    exact ⟨this.1, fun j hj => by rw [← (hs j).1]; exact this.2 j hj⟩

theorem keeps_releasePathUnit (v : Env) (i k : Nat) (rt : RouteDef) (r : Release)
    (hr : r.live.routeOf v i = some rt) : Keeps v r.live (releasePathUnit v i k rt r).live := by
  unfold releasePathUnit
  refine Keeps.trans ?_ (keeps_giveUpRecords v i _ _)
  refine keeps_marksLocks v i rt _ r _ hr ⟨rfl, rfl, rfl⟩ (fun x hx hn => ?_) (fun x hx _ => hx)
  obtain ⟨j, m, h1, h2, h3⟩ := mem_ownPath.mp hx
  refine mem_ownPath.mpr ⟨j, m, h1, ?_, h3⟩
  show (markReleased _ _)[j]? = _
  rw [getElem?_markReleased, h2]
  have : j ∉ unitIndices v rt.path k := fun hj => hn (mem_elementsAt hj h1)
  simp [this]

theorem keeps_releaseOverlapUnit (v : Env) (i k : Nat) (rt : RouteDef) (r : Release)
    (hr : r.live.routeOf v i = some rt) : Keeps v r.live (releaseOverlapUnit v i k rt r).live := by
  unfold releaseOverlapUnit
  refine keeps_marksLocks v i rt _ r _ hr ⟨rfl, rfl, rfl⟩ (fun x hx _ => hx) (fun x hx hn => ?_)
  obtain ⟨j, m, h1, h2, h3⟩ := mem_ownOverlap.mp hx
  refine mem_ownOverlap.mpr ⟨j, m, h1, ?_, h3⟩
  show (markReleased _ _)[j]? = _
  rw [getElem?_markReleased, h2]
  have : j ∉ (unitIndices v rt.overlap k).filter
      (fun j => !(markAt (r.live.slot i).overlapMarks j).transferred) :=
    fun hj => hn (mem_elementsAt hj h1)
  simp [this]

/-- Giving up flank requirements of a slot leaves every slot's other fields. -/
theorem giveUpRecord_slot (i k : Nat) (r : Release) (j : Nat) :
    (r.giveUpRecord i k).live.slot j = { r.live.slot j with
      flank := if j = i then (r.live.slot j).flank.set k FlankHold.released else (r.live.slot j).flank } := by
  unfold Release.giveUpRecord
  split
  · next h hk =>
    have h0 : (r.live.setSlot i (fun s => { s with flank := s.flank.set k FlankHold.released })).slot j
        = { r.live.slot j with flank := if j = i then (r.live.slot j).flank.set k FlankHold.released
            else (r.live.slot j).flank } := by
      by_cases e : j = i
      · subst e; rw [setSlot_slot_self (slot_lt_of_flank hk), if_pos rfl]
      · rw [setSlot_slot_ne e, if_neg e]
    simp only
    split
    · next q _ => rw [Live.slot_congr (giveUp_same q _).1]; exact h0
    · exact h0
  · next hk =>
    by_cases e : j = i
    · subst e
      rw [if_pos rfl, List.set_eq_of_length_le (by simpa using hk)]
    · rw [if_neg e]

theorem giveUpRecords_slot (i : Nat) (ks : List Nat) (r : Release) (j : Nat) :
    (r.giveUpRecords i ks).live.slot j = { r.live.slot j with
      flank := if j = i then ks.foldl (fun l k => l.set k FlankHold.released) (r.live.slot j).flank
        else (r.live.slot j).flank } := by
  induction ks generalizing r with
  | nil => simp [Release.giveUpRecords]
  | cons k ks ih =>
    have h := ih (r.giveUpRecord i k)
    unfold Release.giveUpRecords at *
    rw [List.foldl_cons, h, giveUpRecord_slot]
    by_cases e : j = i
    · simp [e]
    · simp [e]

theorem foldl_released (ks : List Nat) (l : List FlankHold) (j : Nat) :
    (ks.foldl (fun l k => l.set k FlankHold.released) l)[j]?
      = if j ∈ ks then l[j]?.map (fun _ => FlankHold.released) else l[j]? := by
  induction ks generalizing l with
  | nil => simp
  | cons k ks ih =>
    rw [List.foldl_cons, ih, List.getElem?_set]
    by_cases e : k = j
    · subst e
      by_cases m : k ∈ ks
      · by_cases hl : k < l.length
        · simp [m, hl]
        · simp [m, hl]
      · by_cases hl : k < l.length
        · simp [m, hl]
        · simp [m, hl]
    · simp only [e, if_false, List.mem_cons]
      have : ¬ j = k := fun h => e h.symm
      simp [this]

/-- What a release of units leaves a slot: its state and its route. -/
theorem releasePathUnit_slot (v : Env) (i k : Nat) (rt : RouteDef) (r : Release) (j : Nat) :
    ((releasePathUnit v i k rt r).live.slot j).state = (r.live.slot j).state
      ∧ ((releasePathUnit v i k rt r).live.slot j).route = (r.live.slot j).route := by
  unfold releasePathUnit
  simp only
  rw [giveUpRecords_slot]
  simp only
  rw [Live.slot_congr (removeLocks_all v (.slot i) _ _).2.1]
  simp only
  rw [r.live.slot_setSlot]
  split
  · next e => rw [← e.1]; exact ⟨rfl, rfl⟩
  · exact ⟨rfl, rfl⟩

theorem releaseOverlapUnit_slot (v : Env) (i k : Nat) (rt : RouteDef) (r : Release) (j : Nat) :
    ((releaseOverlapUnit v i k rt r).live.slot j).state = (r.live.slot j).state
      ∧ ((releaseOverlapUnit v i k rt r).live.slot j).route = (r.live.slot j).route := by
  unfold releaseOverlapUnit
  simp only
  rw [Live.slot_congr (removeLocks_all v (.slot i) _ _).2.1]
  simp only
  rw [r.live.slot_setSlot]
  split
  · next e => rw [← e.1]; exact ⟨rfl, rfl⟩
  · exact ⟨rfl, rfl⟩

theorem keeps_sweepPath (v : Env) (i : Nat) (rt : RouteDef) (ks : List Nat) (r : Release)
    (hr : r.live.routeOf v i = some rt) : Keeps v r.live (sweepPath v i rt ks r).live
      ∧ (sweepPath v i rt ks r).live.routeOf v i = some rt := by
  induction ks generalizing r with
  | nil => exact ⟨Keeps.refl v _, hr⟩
  | cons k ks ih =>
    unfold sweepPath
    simp only
    have h := releasePathUnit_slot v i k rt r i
    have hr' : (releasePathUnit v i k rt r).live.routeOf v i = some rt := by
      rw [routeOf_of h.1 h.2, hr]
    have go : ∀ c : Bool, Keeps v r.live
          (if c then sweepPath v i rt ks (releasePathUnit v i k rt r) else r).live
        ∧ (if c then sweepPath v i rt ks (releasePathUnit v i k rt r) else r).live.routeOf v i = some rt := by
      intro c
      cases c
      · exact ⟨Keeps.refl v _, hr⟩
      · exact ⟨(keeps_releasePathUnit v i k rt r hr).trans (ih _ hr').1, (ih _ hr').2⟩
    split
    · exact ih r hr
    · exact go _

theorem keeps_sweepOverlap (v : Env) (i : Nat) (rt : RouteDef) (ks : List Nat) (r : Release)
    (hr : r.live.routeOf v i = some rt) : Keeps v r.live (sweepOverlap v i rt ks r).live
      ∧ (sweepOverlap v i rt ks r).live.routeOf v i = some rt := by
  induction ks generalizing r with
  | nil => exact ⟨Keeps.refl v _, hr⟩
  | cons k ks ih =>
    unfold sweepOverlap
    simp only
    have h := releaseOverlapUnit_slot v i k rt r i
    have hr' : (releaseOverlapUnit v i k rt r).live.routeOf v i = some rt := by
      rw [routeOf_of h.1 h.2, hr]
    have go : ∀ c : Bool, Keeps v r.live
          (if c then sweepOverlap v i rt ks (releaseOverlapUnit v i k rt r) else r).live
        ∧ (if c then sweepOverlap v i rt ks (releaseOverlapUnit v i k rt r) else r).live.routeOf v i = some rt := by
      intro c
      cases c
      · exact ⟨Keeps.refl v _, hr⟩
      · exact ⟨(keeps_releaseOverlapUnit v i k rt r hr).trans (ih _ hr').1, (ih _ hr').2⟩
    split
    · exact ih r hr
    · exact go _

/-! ### A slot made FREE -/

/-- What an act keeps but for the signal of a slot that it took out of CLEAR. -/
structure KeepsBut (v : Env) (E : Nat → Prop) (d e : Live) : Prop where
  whole : Whole d e
  lit : ∀ X, d.litBut v X → e.litBut v (fun n => X n ∨ E n)
  free : ∀ X, d.freeBut v X → e.freeBut v X
  dim : v.mode ≠ .normal → ∀ i, (e.slot i).state = .clear → (d.slot i).state = .clear
  slots : d.slotsOk v → e.slotsOk v
  locks : d.tabled v → d.slotsOk v → d.locksTied v → e.locksTied v
  counts : d.slotsOk v → d.countsTied → e.countsTied
  exits : d.exitsTied v → e.exitsTied v
  fades : v.mode ≠ .normal → d.stored = [] →
    e.stored = [] ∧ ∀ i, (e.slot i).state = .setting → (d.slot i).state = .setting

theorem Keeps.thenBut {v : Env} {E : Nat → Prop} {d e f : Live} (h : Keeps v d e)
    (k : KeepsBut v E e f) : KeepsBut v E d f where
  whole := h.whole.trans k.whole
  lit X hx := k.lit X (h.shows.lit X hx)
  free X hx := k.free X (h.shows.free X hx)
  dim m i hi := h.shows.dim m i (k.dim m i hi)
  slots o := k.slots (h.slots o)
  locks t o l := k.locks (h.whole.tabled t) (h.slots o) (h.locks t o l)
  counts o c := k.counts (h.slots o) (h.counts o c)
  exits := k.exits ∘ h.exits
  fades m s :=
    have a := h.fades m s
    have b := k.fades m a.1
    ⟨b.1, fun i hi => a.2 i (b.2 i hi)⟩

theorem KeepsBut.then {v : Env} {E : Nat → Prop} {d e f : Live} (h : KeepsBut v E d e)
    (k : Keeps v e f) : KeepsBut v E d f where
  whole := h.whole.trans k.whole
  lit X hx := k.shows.lit _ (h.lit X hx)
  free X hx := k.shows.free X (h.free X hx)
  dim m i hi := h.dim m i (k.shows.dim m i hi)
  slots o := k.slots (h.slots o)
  locks t o l := k.locks (h.whole.tabled t) (h.slots o) (h.locks t o l)
  counts o c := k.counts (h.slots o) (h.counts o c)
  exits := k.exits ∘ h.exits
  fades m s :=
    have a := h.fades m s
    have b := k.fades m a.1
    ⟨b.1, fun i hi => a.2 i (b.2 i hi)⟩

/-- Once the signal is computed, nothing is left out. -/
theorem KeepsBut.keeps {v : Env} {d e f : Live} {sig : Nat} (h : KeepsBut v (fun n => n = sig) d e)
    (c : Computes v sig e f) (k : Keeps v e f) : Keeps v d f where
  whole := h.whole.trans k.whole
  shows := ⟨fun X hx => c.litOf X (h.lit X hx), fun X hx => k.shows.free X (h.free X hx),
    fun m i hi => h.dim m i (k.shows.dim m i hi)⟩
  slots o := k.slots (h.slots o)
  locks t o l := k.locks (h.whole.tabled t) (h.slots o) (h.locks t o l)
  counts o c := k.counts (h.slots o) (h.counts o c)
  exits := k.exits ∘ h.exits
  fades m s :=
    have a := h.fades m s
    have b := k.fades m a.1
    ⟨b.1, fun i hi => a.2 i (b.2 i hi)⟩

theorem KeepsBut.mono {v : Env} {E F : Nat → Prop} {d e : Live} (h : KeepsBut v E d e)
    (hef : ∀ n, E n → F n) : KeepsBut v F d e :=
  { h with lit := fun X hx => (h.lit X hx).mono (fun n _ k => k.imp id (hef n)) }

theorem KeepsBut.none {v : Env} {d e : Live} (h : KeepsBut v (fun _ => False) d e) : Keeps v d e where
  whole := h.whole
  shows := ⟨fun X hx => (h.lit X hx).mono (fun _ _ k => k.elim id False.elim), h.free, h.dim⟩
  slots := h.slots
  locks := h.locks
  counts := h.counts
  exits := h.exits
  fades := h.fades

/-- A slot with its entry signal, while in CLEAR. -/
def Live.litOf (v : Env) (d : Live) (i n : Nat) : Prop :=
  (d.slot i).state = .clear ∧ ∃ rt, d.routeOf v i = some rt ∧ rt.entry = n

/-- A slot that holds no lock and no protector made FREE. -/
theorem keepsBut_free (v : Env) (i : Nat) (rt : RouteDef) (d : Live) (hr : d.routeOf v i = some rt)
    (hl : d.tabled v → d.slotsOk v → d.locksTied v →
      ∀ n k, (d.control n).lock = some k → k.holder ≠ .slot i)
    (hc : ∀ q, (d.slot i).holdsOf q = 0)
    (hx : d.exitsTied v → ∀ b, (d.boundary b).exitSlot ≠ some i) :
    KeepsBut v (d.litOf v i) d (d.setSlot i (fun _ => Slot.free)) := by
  have hi := active_lt (routeOf_active hr)
  have hs : (d.setSlot i (fun _ => Slot.free)).slot i = Slot.free := setSlot_slot_self hi _
  have hn : ∀ j, j ≠ i → (d.setSlot i (fun _ => Slot.free)).slot j = d.slot j :=
    fun j hj => setSlot_slot_ne hj _
  have hnr : ∀ j, j ≠ i → (d.setSlot i (fun _ => Slot.free)).routeOf v j = d.routeOf v j :=
    fun j hj => routeOf_of (by rw [hn j hj]) (by rw [hn j hj])
  refine ⟨whole_setSlot d i _, fun X hx n hns hX hp => ?_, fun X hx => ?_, fun m j hj => ?_, fun o => ?_,
    fun t o l n k hk => ?_, fun _ c q hq => ?_, fun x b j hj => ?_, fun m st => ⟨st, fun j hj => ?_⟩⟩
  · obtain ⟨j, rt', h1, h2, h3⟩ := hx n hns (fun k => hX (Or.inl k)) hp
    by_cases e : j = i
    · subst e; exact absurd (Or.inr ⟨h1, rt', h2, h3⟩) hX
    · exact ⟨j, rt', by rw [hn j e, h1], by rw [hnr j e, h2], h3⟩
  · exact fun n hns hX hp => forcedStop_of rfl id (hx n hns hX hp)
  · by_cases e : j = i
    · subst e; rw [hs] at hj; cases hj
    · rwa [hn j e] at hj
  · refine ⟨fun j hj => ?_, fun j hj => ?_⟩
    · by_cases e : j = i
      · subst e; exact hs
      · rw [hn j e] at *; exact o.1 j hj
    · by_cases e : j = i
      · subst e; rw [hs] at hj; exact absurd rfl hj
      · rw [hn j e] at hj
        obtain ⟨rt', h⟩ := o.2 j hj
        exact ⟨rt', by rw [hnr j e, h]⟩
  · have hk' : (d.control n).lock = some k := hk
    have hne := hl t o l n k hk'
    refine lockOwned_keep (l n k hk') (fun j rt' hj hrt => ?_) (fun b bd _ hbl _ hm => ⟨hbl, hm⟩)
    have e : j ≠ i := fun e => hne (by rw [hj, e])
    rw [hn j e]
    exact ⟨by rw [hnr j e, hrt], id, id⟩
  · have a := protecting_change (d := d) (e := d.setSlot i (fun _ => Slot.free)) (by simp) hi
      (fun j hj => by rw [hn j hj]) q
    rw [hc q, hs] at a
    have b : Slot.free.holdsOf q = 0 := rfl
    have := c q hq
    have e : (d.setSlot i (fun _ => Slot.free)).counted q = d.counted q := by cases q <;> rfl
    rw [e]
    omega
  · obtain ⟨rt', y, h1, h2⟩ := x b j hj
    have e : j ≠ i := fun e => hx x b (by rw [← e]; exact hj)
    exact ⟨rt', y, by rw [hnr j e, h1], h2⟩
  · by_cases e : j = i
    · subst e; rw [hs] at hj; cases hj
    · rwa [hn j e] at hj

/-! ### A slot given up whole (R50, R72, R120) -/

theorem keeps_report (v : Env) (d : Live) (r : Report) : Keeps v d (d.report r) :=
  (calm_report d r).keeps (shows_report v d r)
theorem keeps_setReeval (v : Env) (d : Live) (r : Bool) : Keeps v d (d.setReeval r) :=
  (sent_setReeval d r).keeps (shows_setReeval v d r)

/-- The route of a slot stands where the Handover Controller is told. -/
theorem routeOf_told {v : Env} {d e : Live} {i : Nat} (h : SlotTold (d.slot i) (e.slot i)) :
    e.routeOf v i = d.routeOf v i := routeOf_eq h.sameHold.2.1 h.sameHold.1

theorem keepsBut_wholeRelease (v : Env) (i : Nat) (rt : RouteDef) (r : Release)
    (hr : r.live.routeOf v i = some rt)
    (hx : r.live.exitsTied v → ∀ b, (r.live.boundary b).exitSlot ≠ some i) :
    KeepsBut v (r.live.litOf v i) r.live (wholeRelease v i r).live := by
  unfold wholeRelease
  rw [hr]
  simp only
  set r0 := r.removeLocks v (.slot i)
    ((ownPath rt (r.live.slot i) ++ ownOverlap rt (r.live.slot i)).map Entry.element) with h0
  set r1 := r0.giveUpRecords i (List.range (r.live.slot i).flank.length) with h1
  have k1 : Keeps v r.live r1.live :=
    (keeps_removeLocks v _ _ r).trans (keeps_giveUpRecords v i _ r0)
  have s0 : ∀ j, r0.live.slot j = r.live.slot j := Live.slot_congr (removeLocks_all v _ _ r).2.1
  have s1 : ∀ j, r1.live.slot j = _ := giveUpRecords_slot i _ r0
  have st : (r1.live.slot i).state = (r.live.slot i).state := by rw [s1, s0]
  have ro : (r1.live.slot i).route = (r.live.slot i).route := by rw [s1, s0]
  have hr1 : r1.live.routeOf v i = some rt := by rw [routeOf_of st ro, hr]
  have hl1 : ∀ n k, (r1.live.control n).lock = some k → k.holder = .slot i →
      n ∉ (ownPath rt (r.live.slot i) ++ ownOverlap rt (r.live.slot i)).map Entry.element := by
    intro n k hk hh hn
    rw [(giveUpRecords_all i _ r0).2.2.2 n, (removeLocks_all v _ _ r).2.2 n] at hk
    split at hk
    · cases hk
    · next c => exact c ⟨hn, by rw [hk]; simp [hh]⟩
  have hop : ownPath rt (r1.live.slot i) = ownPath rt (r.live.slot i) := by
    rw [s1, s0]; rfl
  have hoo : ownOverlap rt (r1.live.slot i) = ownOverlap rt (r.live.slot i) := by
    rw [s1, s0]; rfl
  have k2 := keepsBut_free v i rt r1.live hr1 (fun _ _ l n k hk hh => by
      obtain ⟨rt', hrt, ho⟩ := lockOwned_slot (l n k hk) hh
      rw [hr1] at hrt
      cases hrt
      rw [hop, hoo] at ho
      refine hl1 n k hk hh ?_
      rw [List.map_append, List.mem_append]
      rcases ho with ⟨_, x, hx, rfl⟩ | ⟨_, x, hx, rfl⟩
      · exact Or.inl (List.mem_map.mpr ⟨x, hx, rfl⟩)
      · exact Or.inr (List.mem_map.mpr ⟨x, hx, rfl⟩))
    (fun q => by
      unfold Slot.holdsOf
      rw [List.countP_eq_zero]
      intro h hh
      obtain ⟨j, hj⟩ := List.mem_iff_getElem?.mp hh
      rw [s1, s0] at hj
      simp only [if_true] at hj
      rw [foldl_released] at hj
      split at hj
      · simp only [Option.map_eq_some_iff] at hj
        obtain ⟨_, _, rfl⟩ := hj
        simp [FlankHold.released]
      · next hm =>
        exfalso
        apply hm
        rw [List.mem_range]
        exact (List.getElem?_eq_some_iff.mp hj).1)
    (fun x b hb => by
      have e : r1.live.boundary b = r.live.boundary b :=
        Live.boundary_congr (((giveUpRecords_all i _ r0).1.boundaries).trans
          (removeLocks_all v _ _ r).1.boundaries) b
      rw [e] at hb
      refine hx (exitsTied_keep (fun b' j h => ?_) (fun j rt' h => ?_) x) b hb
      · have e' : r1.live.boundary b' = r.live.boundary b' :=
          Live.boundary_congr (((giveUpRecords_all i _ r0).1.boundaries).trans
            (removeLocks_all v _ _ r).1.boundaries) b'
        rwa [e']
      · rw [← h]
        refine (routeOf_of ?_ ?_).symm
        · rw [s1, s0]
        · rw [s1, s0])
  refine ((k1.thenBut k2).then (keeps_setReeval v _ true)).mono (fun n hn => ?_)
  obtain ⟨a, rt', b, c⟩ := hn
  exact ⟨by rw [← st]; exact a, rt', by rw [← routeOf_of st ro]; exact b, c⟩

theorem keeps_releaseExit (v : Env) (i : Nat) (q : Bool) (d : Live) :
    Keeps v d (releaseExit v i q d) := (told_releaseExit v i q d).keeps (shows_releaseExit v i q d)

/-- A slot that no longer needs its boundary is no exit slot. -/
theorem not_exit_releaseExit {v : Env} {i : Nat} {q : Bool} {d : Live} {rt : RouteDef}
    (hr : d.routeOf v i = some rt) (x : (releaseExit v i q d).exitsTied v) (b : Nat) :
    ((releaseExit v i q d).boundary b).exitSlot ≠ some i := by
  intro h
  obtain ⟨rt', y, h1, h2⟩ := x b i h
  rw [routeOf_told ((told_releaseExit v i q d).slot i), hr] at h1
  cases h1
  exact exitSlot_releaseExit v i q d hr h2 h

/-- A slot given up whole: its entry signal is left to be computed, where the slot was in SETTING, CLEAR or
HELD. -/
theorem keepsBut_giveUpSlot (v : Env) (i : Nat) (re : Option Reason) (q : Bool) (d : Live)
    (rt : RouteDef) (hr : d.routeOf v i = some rt) :
    KeepsBut v (fun n => (d.slot i).needsExit = true ∧ n = rt.entry) d (giveUpSlot v i re q d) := by
  unfold giveUpSlot
  rw [hr]
  simp only
  have t := (told_releaseExit v i q d).slot i
  have hr1 : (releaseExit v i q d).routeOf v i = some rt := by rw [routeOf_told t, hr]
  have k := (keeps_releaseExit v i q d).thenBut
    (keepsBut_wholeRelease v i rt (Release.start (releaseExit v i q d)) hr1
      (not_exit_releaseExit hr))
  refine (((k.then (keeps_handOn v _)).then (keeps_report v _ _)).then
    (keeps_setReeval v _ _)).mono (fun n hn => ?_)
  obtain ⟨a, rt', b, c⟩ := hn
  have b' : (releaseExit v i q d).routeOf v i = some rt' := b
  rw [hr1] at b'
  cases b'
  refine ⟨?_, c.symm⟩
  cases hn : (d.slot i).needsExit with
  | true => rfl
  | false =>
    have a' : ((releaseExit v i q d).slot i).state = .clear := a
    rw [t.still hn] at a'
    simp [Slot.needsExit, a'] at hn

/-- A slot that needs no exit given up whole. -/
theorem keeps_giveUpSlot (v : Env) (i : Nat) (re : Option Reason) (q : Bool) (d : Live)
    (h : (d.slot i).needsExit = false) : Keeps v d (giveUpSlot v i re q d) := by
  cases hr : d.routeOf v i with
  | none => unfold giveUpSlot; rw [hr]; exact Keeps.refl v d
  | some rt =>
    exact ((keepsBut_giveUpSlot v i re q d rt hr).mono (fun n hn => by rw [h] at hn; cases hn.1)).none

theorem keeps_endPassage (v : Env) (i : Nat) (d : Live) : Keeps v d (endPassage v i d) := by
  unfold endPassage
  split
  · next rt hr =>
    simp only
    split
    · next hc =>
      simp only [Bool.and_eq_true, decide_eq_true_eq] at hc
      obtain ⟨⟨⟨hst, hp⟩, ho⟩, hf⟩ := hc
      have t := (told_releaseExit v i false d).slot i
      obtain ⟨f1, f2, f3, f4, _⟩ := told_fields t
      have hst' : ((releaseExit v i false d).slot i).state = .entered := by
        rw [t.still (by simp [Slot.needsExit, hst]), hst]
      have hr1 : (releaseExit v i false d).routeOf v i = some rt := by rw [routeOf_told t, hr]
      have k := keepsBut_free v i rt _ hr1 (fun _ _ l n k hk hh => by
          obtain ⟨rt', hrt, hw⟩ := lockOwned_slot (l n k hk) hh
          rw [hr1] at hrt
          cases hrt
          rcases hw with ⟨_, x, hx, _⟩ | ⟨_, x, hx, _⟩
          · obtain ⟨j, m, _, h2, h3⟩ := mem_ownPath.mp hx
            rw [f2] at h2
            have := List.all_eq_true.mp hp m (List.mem_iff_getElem?.mpr ⟨j, h2⟩)
            rw [h3] at this
            cases this
          · obtain ⟨j, m, _, h2, h3, h4⟩ := mem_ownOverlap.mp hx
            rw [f3] at h2
            have := List.all_eq_true.mp ho m (List.mem_iff_getElem?.mpr ⟨j, h2⟩)
            rw [h3, h4] at this
            cases this)
        (fun q => by
          unfold Slot.holdsOf
          rw [List.countP_eq_zero, f4]
          intro h hh
          have := List.all_eq_true.mp hf h hh
          simp only [Option.isNone_iff_eq_none] at this
          simp [this])
        (not_exit_releaseExit hr)
      have k' : Keeps v (releaseExit v i false d) _ :=
        (k.mono (F := fun _ => False) (fun n hn => by
          have := hn.1; rw [hst'] at this; cases this)).none
      exact (((keeps_releaseExit v i false d).trans k').trans (keeps_report v _ _)).trans
        (keeps_setReeval v _ _)
    · exact Keeps.refl v d
  · exact Keeps.refl v d

theorem keeps_releaseTest (v : Env) (i n : Nat) (d : Live) : Keeps v d (releaseTest v i n d) := by
  unfold releaseTest
  split
  · next rt hr =>
    simp only
    split
    · refine Keeps.trans ?_ (keeps_endPassage v i _)
      refine Keeps.trans ?_ (keeps_handOn v _)
      have h1 : ∀ c : Bool, Keeps v d (if c then sweepPath v i rt (sectionIndices rt.path)
            (Release.start d) else Release.start d).live
          ∧ (if c then sweepPath v i rt (sectionIndices rt.path)
            (Release.start d) else Release.start d).live.routeOf v i = some rt := by
        intro c
        cases c
        · exact ⟨Keeps.refl v _, hr⟩
        · exact keeps_sweepPath v i rt _ (Release.start d) hr
      have h2 := h1 ((entrySections rt.path).contains n)
      generalize (if (entrySections rt.path).contains n = true then sweepPath v i rt
        (sectionIndices rt.path) (Release.start d) else Release.start d) = r1 at h2 ⊢
      have h3 : ∀ c : Bool, Keeps v d (if c then sweepOverlap v i rt (sectionIndices rt.overlap) r1
          else r1).live := by
        intro c
        cases c
        · exact h2.1
        · exact h2.1.trans (keeps_sweepOverlap v i rt _ r1 h2.2).1
      exact h3 _
    · exact Keeps.refl v d
  · exact Keeps.refl v d

theorem keeps_overlapWhole (v : Env) (i : Nat) (d : Live) : Keeps v d (overlapWhole v i d) := by
  unfold overlapWhole
  split
  · next rt hr =>
    refine Keeps.trans ?_ (keeps_endPassage v i _)
    refine Keeps.trans ?_ (keeps_handOn v _)
    refine keeps_marksLocks v i rt _ (Release.start d) _ hr ⟨rfl, rfl, rfl⟩ (fun x hx _ => hx)
      (fun x hx hn => absurd (List.mem_map.mpr ⟨x, hx, rfl⟩) hn)
  · exact Keeps.refl v d

/-! ### The berth (R165) -/

/-- No exit slot is new where a boundary record keeps its own. -/
theorem exitSlot_setBoundary (d : Live) (b : Nat) (f : Boundary → Boundary)
    (hf : ∀ x, (f x).num = x.num) (hx : ∀ x, (f x).exitSlot = x.exitSlot) (c i : Nat)
    (h : ((d.setBoundary b f).boundary c).exitSlot = some i) : (d.boundary c).exitSlot = some i := by
  rw [d.boundary_setBoundary b c f hf] at h
  split at h
  · next e => rw [e.1, ← hx]; exact h
  · exact h

/-- A berth that holds no lock changed. -/
theorem keeps_setBerth (v : Env) (b : Nat) (f : Boundary → Boundary) (d : Live)
    (hf : ∀ x, (f x).num = x.num) (hx : ∀ x, (f x).exitSlot = x.exitSlot)
    (hl : d.tabled v → d.slotsOk v → d.locksTied v →
      ∀ n k, (d.control n).lock = some k → k.holder ≠ .berth b) : Keeps v d (d.setBoundary b f) where
  whole := whole_setBoundary d b f hf
  shows := shows_setBoundary v d b f
  slots := slotsOk_told (fun _ => SlotTold.refl _)
  locks t o l n k hk := by
    have hk' : (d.control n).lock = some k := hk
    refine lockOwned_keep (l n k hk') (fun _ _ _ h => ⟨h, id, id⟩) (fun b' bd hb hbl _ hm => ?_)
    have e : b' ≠ b := fun e => hl t o l n k hk' (by rw [hb, e])
    rw [d.boundary_setBoundary_ne e f hf]
    exact ⟨hbl, hm⟩
  counts _ := countsTied_same (whole_setBoundary d b f hf) (fun _ => rfl) (fun q => by cases q <;> rfl)
  exits := exitsTied_keep (exitSlot_setBoundary d b f hf hx) (fun _ _ h => h)
  fades _ h := ⟨h, fun _ => id⟩

theorem boundary?_unique {v : Env} {b : Nat} {bd bd' : BoundaryDef} (h : v.boundary? b = some bd)
    (h' : v.boundary? b = some bd') : bd' = bd := by rw [h] at h'; cases h'; rfl

theorem keeps_berthWhole (v : Env) (b : Nat) (r : Release) : Keeps v r.live (berthWhole v b r).live := by
  unfold berthWhole
  split
  · next bd hb =>
    refine (keeps_removeLocks v _ _ r).trans (keeps_setBerth v b _ _ Boundary.berthGone_num
      Boundary.berthGone_exit ?_)
    intro _ _ l n k hk hh
    obtain ⟨_, _, bd', hb', m, hm, hmn, _⟩ := lockOwned_berth (l n k hk) hh
    cases boundary?_unique hb hb'
    rw [(removeLocks_all v _ _ r).2.2 n] at hk
    split at hk
    · cases hk
    · next c => exact c ⟨by rw [← hmn]; exact (List.of_mem_zip hm).1, by rw [hk]; simp [hh]⟩
  · exact Keeps.refl v _

theorem keeps_finishBerth (v : Env) (b : Nat) (x : Boundary) (done : Bool) (r : Release) :
    Keeps v r.live (finishBerth v b x done r) := by
  unfold finishBerth
  refine Keeps.trans ?_ (keeps_handOn v { r with live := _ })
  refine Keeps.trans ?_ ((sent_handOnBoundary v b x _).keeps (shows_handOnBoundary v b x _))
  refine Keeps.trans ?_ ((sent_reportChange b x none _).keeps (shows_reportChange v b x none _))
  refine Keeps.ite ?_ (Keeps.refl v _)
  refine (watched_clearBoundaryFaults v b _).keeps ?_
  unfold clearBoundaryFaults
  split
  · exact (shows_endFault v _ _ _).trans (shows_endFault v _ _ _)
  · exact Shows.refl v _

theorem mem_berthSweep (v : Env) (ns : List Nat) (ms : List Mark) (n : Nat)
    (h : ∃ m ∈ ns.zip ms, m.1 = n ∧ m.2.released = false) :
    n ∈ (berthSweep v ns ms).1 ∨ ∃ m ∈ ns.zip (berthSweep v ns ms).2, m.1 = n ∧ m.2.released = false := by
  induction ns generalizing ms with
  | nil => obtain ⟨m, hm, _⟩ := h; simp at hm
  | cons a as ih =>
    cases ms with
    | nil => obtain ⟨m, hm, _⟩ := h; simp at hm
    | cons y ys =>
      obtain ⟨m, hm, h1, h2⟩ := h
      rw [List.zip_cons_cons, List.mem_cons] at hm
      unfold berthSweep
      split
      · next hy =>
        have hm' : m ∈ as.zip ys := by
          rcases hm with rfl | hm
          · rw [hy] at h2; cases h2
          · exact hm
        rcases ih ys ⟨m, hm', h1, h2⟩ with k | ⟨z, k1, k2⟩
        · exact Or.inl k
        · exact Or.inr ⟨z, by rw [List.zip_cons_cons]; exact List.mem_cons_of_mem _ k1, k2⟩
      · split
        · rcases hm with rfl | hm
          · left; rw [← h1]; exact List.mem_cons_self
          · rcases ih ys ⟨m, hm, h1, h2⟩ with k | ⟨z, k1, k2⟩
            · exact Or.inl (List.mem_cons_of_mem _ k)
            · exact Or.inr ⟨z, by rw [List.zip_cons_cons]; exact List.mem_cons_of_mem _ k1, k2⟩
        · exact Or.inr ⟨m, by rw [List.zip_cons_cons, List.mem_cons]; exact hm, h1, h2⟩

theorem mem_berthMark (n : Nat) (ns : List Nat) (ms : List Mark) (k : Nat)
    (h : ∃ m ∈ ns.zip ms, m.1 = k ∧ m.2.released = false) :
    ∃ m ∈ ns.zip (berthMark n ns ms), m.1 = k ∧ m.2.released = false := by
  unfold berthMark
  induction ns generalizing ms with
  | nil => obtain ⟨m, hm, _⟩ := h; simp at hm
  | cons a as ih =>
    cases ms with
    | nil => obtain ⟨m, hm, _⟩ := h; simp at hm
    | cons y ys =>
      obtain ⟨m, hm, h1, h2⟩ := h
      rw [List.zip_cons_cons, List.mem_cons] at hm
      rw [List.zipWith_cons_cons, List.zip_cons_cons]
      rcases hm with rfl | hm
      · refine ⟨_, List.mem_cons_self, h1, ?_⟩
        simp only
        split
        · exact h2
        · exact h2
      · obtain ⟨z, k1, k2⟩ := ih ys ⟨m, hm, h1, h2⟩
        exact ⟨z, List.mem_cons_of_mem _ k1, k2⟩

theorem keeps_berthChanged (v : Env) (n : Nat) (occ m : Bool) (b : Nat) (d : Live) :
    Keeps v d (berthChanged v n occ m b d) := by
  unfold berthChanged
  split
  · exact Keeps.refl v d
  next bd hb =>
  simp only
  refine Keeps.ite (Keeps.refl v d) (Keeps.ite (Keeps.ite ?_ (Keeps.refl v d)) ?_)
  · refine ⟨⟨whole_setBoundary _ _ _ (fun _ => rfl), shows_setBoundary v d b _,
      slotsOk_told (fun _ => SlotTold.refl _), fun t _ l x k hk => ?_,
      fun _ => countsTied_same (whole_setBoundary d b _ (fun _ => rfl)) (fun _ => rfl)
        (fun q => by cases q <;> rfl),
      exitsTied_keep (exitSlot_setBoundary d b _ (fun _ => rfl) (fun _ => rfl)) (fun _ _ h => h)⟩,
      fun _ h => ⟨h, fun _ => id⟩⟩
    have hk' : (d.control x).lock = some k := hk
    refine lockOwned_keep (l x k hk') (fun _ _ _ h => ⟨h, id, id⟩) (fun b' bd' _ hbl hb' hm => ?_)
    rw [d.boundary_setBoundary b b' _ (by exact fun _ => rfl)]
    split
    · next e =>
      obtain ⟨rfl, _⟩ := e
      cases boundary?_unique hb hb'
      exact ⟨hbl, mem_berthMark n _ _ x hm⟩
    · exact ⟨hbl, hm⟩
  · refine Keeps.trans ?_ (keeps_finishBerth v b _ _ _)
    set q := berthSweep v bd.berth (d.boundary b).marks with hq
    set r := (Release.start (d.setBoundary b (fun x => { x with marks := q.2 }))).removeLocks v
      (.berth b) q.1 with hr
    obtain ⟨a1, a2, a3⟩ := removeLocks_all v (.berth b) q.1
      (Release.start (d.setBoundary b (fun x => { x with marks := q.2 })))
    have kr := keeps_removeLocks v (.berth b) q.1
      (Release.start (d.setBoundary b (fun x => { x with marks := q.2 })))
    have w0 : Whole d (d.setBoundary b (fun x => { x with marks := q.2 })) :=
      whole_setBoundary _ _ _ (fun _ => rfl)
    have bo : ∀ c, r.live.boundary c = (d.setBoundary b (fun x => { x with marks := q.2 })).boundary c :=
      Live.boundary_congr a1.boundaries
    have h1 : Keeps v d r.live := by
      refine ⟨⟨w0.trans kr.whole, Shows.trans (shows_setBoundary v d b _) kr.shows, ?_, ?_, ?_,
        fun x => kr.exits (exitsTied_keep (exitSlot_setBoundary d b _ (fun _ => rfl) (fun _ => rfl))
          (fun _ _ h => h) x)⟩, ?_⟩
      · exact fun o => kr.slots (slotsOk_told (d := d) (fun _ => SlotTold.refl _) o)
      · intro t _ l x k hk
        rw [hr, a3] at hk
        split at hk
        · cases hk
        next c =>
        have hk' : (d.control x).lock = some k := hk
        refine lockOwned_keep (l x k hk') (fun i rt _ h => ?_) (fun b' bd' hh hbl hb' hm => ?_)
        · rw [Live.slot_congr a2]
          exact ⟨by rw [routeOf_of (d := d) (by rw [Live.slot_congr a2]; rfl)
            (by rw [Live.slot_congr a2]; rfl)]; exact h, id, id⟩
        · rw [bo, d.boundary_setBoundary b b' _ (by exact fun _ => rfl)]
          split
          · next e =>
            obtain ⟨rfl, _⟩ := e
            cases boundary?_unique hb hb'
            refine ⟨hbl, ?_⟩
            rcases mem_berthSweep v _ _ x hm with hin | hout
            · exact absurd ⟨hin, by
                show ((d.control x).lock.any fun k => decide (k.holder = Holder.berth b')) = true
                rw [hk']; simp [hh]⟩ c
            · exact hout
          · exact ⟨hbl, hm⟩
      · exact fun o c => kr.counts (slotsOk_told (d := d) (fun _ => SlotTold.refl _) o)
          (countsTied_same w0 (fun _ => rfl) (fun q => by cases q <;> rfl) c)
      · exact fun m h => kr.fades m h
    split
    · next hall =>
      refine h1.trans (keeps_setBerth v b _ _ Boundary.berthGone_num
      Boundary.berthGone_exit ?_)
      intro t _ l x k hk hh
      obtain ⟨_, hbl, bd', hb', y, hy, _, hy2⟩ := lockOwned_berth (l x k hk) hh
      cases boundary?_unique hb hb'
      rw [bo, d.boundary_setBoundary b b _ (by exact fun _ => rfl)] at hy
      split at hy
      · have := List.all_eq_true.mp hall y.2 (List.of_mem_zip hy).2
        rw [hy2] at this
        cases this
      · next c =>
        refine c ⟨rfl, ?_⟩
        have := t b bd hb
        unfold Live.hasBoundary at *
        have e := congrArg (List.map Boundary.num) a1.boundaries
        rw [show (Release.start (d.setBoundary b (fun x => { x with marks := q.2 }))).live.boundaries.map
          Boundary.num = d.boundaries.map Boundary.num from w0.boundaryNums] at e
        rwa [← e]
    · exact h1

end Sys2Proof.Machine
end

