-- ==== Sys2Proof/Laws/KeepsTakeUp.lean ====
section
/-! SUPPORT. What entries, placements, take-ups and the stored request queue keep (R39 to R47, R62 to R65,
R113 to R119). -/

namespace Sys2Proof.Machine

open Sys2Proof

/-! ### A slot's other fields changed -/

/-- A slot changed in what no claim reads. -/
theorem keeps_setSlot (v : Env) (i : Nat) (f : Slot → Slot) (d : Live)
    (hf : (f (d.slot i)).state = (d.slot i).state ∧ (f (d.slot i)).route = (d.slot i).route
      ∧ (f (d.slot i)).flank = (d.slot i).flank)
    (hz : d.slot i = Slot.free → f (d.slot i) = Slot.free)
    (hp : ∀ rt, ∀ x ∈ ownPath rt (d.slot i), x ∈ ownPath rt (f (d.slot i)))
    (ho : ∀ rt, ∀ x ∈ ownOverlap rt (d.slot i), x ∈ ownOverlap rt (f (d.slot i))) :
    Keeps v d (d.setSlot i f) := by
  have hs : ∀ j, ((d.setSlot i f).slot j).state = (d.slot j).state
      ∧ ((d.setSlot i f).slot j).route = (d.slot j).route
      ∧ ((d.setSlot i f).slot j).flank = (d.slot j).flank
      ∧ ∀ rt n, ((∃ x ∈ ownPath rt (d.slot j), x.element = n) →
            ∃ x ∈ ownPath rt ((d.setSlot i f).slot j), x.element = n)
          ∧ ((∃ x ∈ ownOverlap rt (d.slot j), x.element = n) →
            ∃ x ∈ ownOverlap rt ((d.setSlot i f).slot j), x.element = n) := by
    intro j
    rw [d.slot_setSlot]
    split
    · next e =>
      rw [← e.1]
      refine ⟨hf.1, hf.2.1, hf.2.2, fun rt n => ⟨?_, ?_⟩⟩
      · rintro ⟨x, hx, h⟩; exact ⟨x, hp rt x hx, h⟩
      · rintro ⟨x, hx, h⟩; exact ⟨x, ho rt x hx, h⟩
    · exact ⟨rfl, rfl, rfl, fun _ _ => ⟨id, id⟩⟩
  refine ⟨⟨whole_setSlot d i f, shows_setSlot v d i f ⟨hf.1, hf.2.1⟩,
    slotsOk_setSlot ⟨hf.1, hf.2.1⟩ hz, fun _ _ l n k hk => ?_, fun _ =>
      countsTied_same (whole_setSlot d i f) (fun j => (hs j).2.2.1) (fun q => by cases q <;> rfl),
    exitsTied_same rfl (fun j => ⟨(hs j).1, (hs j).2.1⟩)⟩,
    fun _ h => ⟨h, fun j => by rw [(hs j).1]; exact id⟩⟩
  have hk' : (d.control n).lock = some k := hk
  refine lockOwned_keep (l n k hk') (fun j rt _ h => ?_) (fun _ _ _ h _ hm => ⟨h, hm⟩)
  exact ⟨by rw [routeOf_of (hs j).1 (hs j).2.1, h], (hs j).2.2.2 rt n⟩

/-- A slot changed in what is neither mark nor route. -/
theorem keeps_setSlot_same (v : Env) (i : Nat) (f : Slot → Slot) (d : Live)
    (hf : (f (d.slot i)).state = (d.slot i).state ∧ (f (d.slot i)).route = (d.slot i).route
      ∧ (f (d.slot i)).flank = (d.slot i).flank ∧ (f (d.slot i)).pathMarks = (d.slot i).pathMarks
      ∧ (f (d.slot i)).overlapMarks = (d.slot i).overlapMarks)
    (hz : d.slot i = Slot.free → f (d.slot i) = Slot.free) : Keeps v d (d.setSlot i f) :=
  keeps_setSlot v i f d ⟨hf.1, hf.2.1, hf.2.2.1⟩ hz
    (fun rt x hx => by unfold ownPath at *; rw [hf.2.2.2.1]; exact hx)
    (fun rt x hx => by unfold ownOverlap at *; rw [hf.2.2.2.2]; exact hx)

/-- A slot that takes another state that is no CLEAR and no SETTING: its entry signal is left to be
computed. -/
theorem keepsBut_setState (v : Env) (i : Nat) (rt : RouteDef) (f : Slot → Slot) (d : Live)
    (hr : d.routeOf v i = some rt)
    (hst : (f (d.slot i)).state ≠ .free ∧ (f (d.slot i)).state ≠ .clear
      ∧ (f (d.slot i)).state ≠ .setting)
    (hf : (f (d.slot i)).route = (d.slot i).route ∧ (f (d.slot i)).flank = (d.slot i).flank)
    (hp : ∀ x ∈ ownPath rt (d.slot i), x ∈ ownPath rt (f (d.slot i)))
    (ho : ∀ x ∈ ownOverlap rt (d.slot i), x ∈ ownOverlap rt (f (d.slot i))) :
    KeepsBut v (fun n => n = rt.entry) d (d.setSlot i f) := by
  have hi := active_lt (routeOf_active hr)
  have hs : (d.setSlot i f).slot i = f (d.slot i) := setSlot_slot_self hi _
  have hn : ∀ j, j ≠ i → (d.setSlot i f).slot j = d.slot j := fun j hj => setSlot_slot_ne hj _
  have hnr : ∀ j, (d.setSlot i f).routeOf v j = d.routeOf v j := by
    intro j
    by_cases e : j = i
    · subst e
      refine routeOf_eq (by rw [hs]; exact hf.1) ?_
      rw [hs, active_iff.mpr hst.1, routeOf_active hr]
    · exact routeOf_of (by rw [hn j e]) (by rw [hn j e])
  refine ⟨whole_setSlot d i f, fun X hx => (lit_setSlot i f hx).mono (fun n _ k => k.imp id ?_),
    fun X hx n hns hX hp => forcedStop_of rfl id (hx n hns hX hp), fun m j hj => ?_, fun o => ?_,
    fun _ _ l n k hk => ?_, fun _ => countsTied_same (whole_setSlot d i f) (fun j => ?_)
      (fun q => by cases q <;> rfl),
    exitsTied_keep (fun _ _ h => h) (fun j rt' h => by rw [hnr, h]), fun m st => ⟨st, fun j hj => ?_⟩⟩
  · rintro ⟨rt', h1, h2⟩
    rw [hr] at h1
    cases h1
    exact h2.symm
  · by_cases e : j = i
    · subst e; rw [hs] at hj; exact absurd hj hst.2.1
    · rwa [hn j e] at hj
  · refine ⟨fun j hj => ?_, fun j hj => ?_⟩
    · by_cases e : j = i
      · subst e; rw [hs] at hj; exact absurd hj hst.1
      · rw [hn j e] at *; exact o.1 j hj
    · rw [hnr]
      by_cases e : j = i
      · subst e; exact ⟨rt, hr⟩
      · rw [hn j e] at hj; exact o.2 j hj
  · have hk' : (d.control n).lock = some k := hk
    refine lockOwned_keep (l n k hk') (fun j rt' _ h => ⟨by rw [hnr, h], ?_⟩)
      (fun _ _ _ h _ hm => ⟨h, hm⟩)
    by_cases e : j = i
    · subst e
      rw [hr] at h
      cases h
      rw [hs]
      exact ⟨fun ⟨x, hx, e⟩ => ⟨x, hp x hx, e⟩, fun ⟨x, hx, e⟩ => ⟨x, ho x hx, e⟩⟩
    · rw [hn j e]; exact ⟨id, id⟩
  · by_cases e : j = i
    · subst e; rw [hs]; exact hf.2
    · rw [hn j e]
  · by_cases e : j = i
    · subst e; rw [hs] at hj; exact absurd hj hst.2.2
    · rwa [hn j e] at hj

/-- A signal computed after the act that left it out. -/
theorem KeepsBut.computed {v : Env} {d e : Live} {sig : Nat} (h : KeepsBut v (fun n => n = sig) d e) :
    Keeps v d (computeAspect v sig e) :=
  h.keeps (computes_computeAspect v sig e) ((calm_computeAspect v sig e).keeps (shows_computeAspect v sig e))

/-- A slot that takes another state that is no CLEAR and no SETTING, with what follows. -/
theorem keeps_changeSlot (v : Env) (i : Nat) (rt : RouteDef) (f : Slot → Slot) (d : Live)
    (hr : d.routeOf v i = some rt)
    (hst : (f (d.slot i)).state ≠ .free ∧ (f (d.slot i)).state ≠ .clear
      ∧ (f (d.slot i)).state ≠ .setting)
    (hf : (f (d.slot i)).route = (d.slot i).route ∧ (f (d.slot i)).flank = (d.slot i).flank
      ∧ (f (d.slot i)).pathMarks = (d.slot i).pathMarks
      ∧ (f (d.slot i)).overlapMarks = (d.slot i).overlapMarks) :
    Keeps v d (changeSlot v i f d) := by
  have k := keepsBut_setState v i rt f d hr hst ⟨hf.1, hf.2.1⟩
    (fun x hx => by unfold ownPath at *; rw [hf.2.2.1]; exact hx)
    (fun x hx => by unfold ownOverlap at *; rw [hf.2.2.2]; exact hx)
  have hr' : ((d.setSlot i f).report (slotReport (d.setSlot i f) i none)).routeOf v i = some rt := by
    have hs : (d.setSlot i f).slot i = f (d.slot i) := setSlot_slot_self (active_lt (routeOf_active hr)) _
    rw [← hr]
    refine routeOf_eq ?_ ?_
    · show ((d.setSlot i f).slot i).route = _
      rw [hs]; exact hf.1
    · show ((d.setSlot i f).slot i).active = _
      rw [hs, active_iff.mpr hst.1, routeOf_active hr]
  unfold changeSlot changeSlotBy
  simp only
  rw [hr']
  exact (k.then (keeps_report v _ _)).computed

theorem keeps_holdFull (v : Env) (i : Nat) (rt : RouteDef) (d : Live) (hr : d.routeOf v i = some rt) :
    Keeps v d (holdFull v i d) :=
  keeps_changeSlot v i rt _ d hr ⟨by simp [Slot.toCancelling], by simp [Slot.toCancelling],
    by simp [Slot.toCancelling]⟩ ⟨rfl, rfl, rfl, rfl⟩

/-! ### Marks -/

theorem getElem?_markEntries (t : Entry → Bool) (f : Mark → Mark) (es : List Entry) (ms : List Mark)
    {j : Nat} {e : Entry} {m : Mark} (he : es[j]? = some e) (hm : ms[j]? = some m) :
    (markEntries t f es ms)[j]? = some (if t e then f m else m) := by
  unfold markEntries
  rw [List.getElem?_zipWith, he, hm]

/-- Marks changed without a release leave a path entry its slot's. -/
theorem ownPath_marked {rt : RouteDef} {s t : Slot} {x : Entry} (hx : x ∈ ownPath rt s)
    (h : ∀ (j : Nat) (m : Mark), rt.path[j]? = some x → s.pathMarks[j]? = some m → m.released = false →
      ∃ m' : Mark, t.pathMarks[j]? = some m' ∧ m'.released = false) : x ∈ ownPath rt t := by
  obtain ⟨j, m, h1, h2, h3⟩ := mem_ownPath.mp hx
  obtain ⟨m', h4, h5⟩ := h j m h1 h2 h3
  exact mem_ownPath.mpr ⟨j, m', h1, h4, h5⟩

theorem ownOverlap_marked {rt : RouteDef} {s t : Slot} {x : Entry} (hx : x ∈ ownOverlap rt s)
    (h : ∀ (j : Nat) (m : Mark), rt.overlap[j]? = some x → s.overlapMarks[j]? = some m →
      m.released = false → m.transferred = false →
      ∃ m' : Mark, t.overlapMarks[j]? = some m' ∧ m'.released = false ∧ m'.transferred = false) :
    x ∈ ownOverlap rt t := by
  obtain ⟨j, m, h1, h2, h3, h4⟩ := mem_ownOverlap.mp hx
  obtain ⟨m', h5, h6, h7⟩ := h j m h1 h2 h3 h4
  exact mem_ownOverlap.mpr ⟨j, m', h1, h5, h6, h7⟩

theorem keeps_startOverlapTimer (v : Env) (i : Nat) (d : Live) :
    Keeps v d (startOverlapTimer v i d) := by
  unfold startOverlapTimer
  simp only
  split
  · next h =>
    refine keeps_setSlot_same v i _ d ⟨rfl, rfl, rfl, rfl, rfl⟩ (fun e => ?_)
    rw [e] at h
    simp [Slot.overlapDone, Slot.free] at h
  · exact Keeps.refl v d

theorem keeps_raise (v : Env) (n : Nat) (k : FaultKind) (m : Option Nat) (d : Live) :
    Keeps v d (raise v n k m d) := (watched_raise v n k m d).keeps (shows_raise v n k m d)
theorem keeps_setBoundary (v : Env) (b : Nat) (f : Boundary → Boundary) (d : Live)
    (hf : ∀ x, (f x).num = x.num)
    (hb : ∀ x, (f x).berthLocked = x.berthLocked ∧ (f x).marks = x.marks)
    (hx : ∀ x i, (f x).exitSlot = some i → x.exitSlot = some i := by exact fun _ _ h => h) :
    Keeps v d (d.setBoundary b f) := (told_setBoundary d b f hf hb hx).keeps (shows_setBoundary v d b f)

/-- A train enters a slot (R114). -/
theorem keeps_enterSlot (v : Env) (i : Nat) (rt : RouteDef) (d : Live) (hr : d.routeOf v i = some rt) :
    Keeps v d (enterSlot v i rt d) := by
  unfold enterSlot
  extract_lets was d1 d2 d3 d4 last
  have h2 : Keeps v d d2 := by
    refine ((keepsBut_setState v i rt _ d hr ⟨by simp [entryMarks], by simp [entryMarks],
      by simp [entryMarks]⟩ ⟨rfl, rfl⟩ (fun x hx => ?_) (fun x hx => ?_)).then
        (keeps_report v _ _)).computed
    · refine ownPath_marked hx (fun j m he hm hm0 => ?_)
      have a := getElem?_markEntries (fun e => e.position.isNone && v.occupied e.element)
        (fun m => { m with occ := true }) rt.path (d.slot i).pathMarks he hm
      unfold entryMarks
      simp only
      rw [List.getElem?_modify, a]
      by_cases h0 : 0 = j
      · simp only [h0, if_true]
        refine ⟨_, rfl, ?_⟩
        split <;> exact hm0
      · simp only [h0, if_false]
        refine ⟨_, rfl, ?_⟩
        split <;> exact hm0
    · refine ownOverlap_marked hx (fun j m he hm h1 h2 => ?_)
      have a := getElem?_markEntries (fun e => e.position.isNone && v.occupied e.element)
        (fun m => if m.released || m.transferred then m else { m with occ := true }) rt.overlap
        (d.slot i).overlapMarks he hm
      unfold entryMarks
      refine ⟨_, a, ?_⟩
      split
      · split
        · exact ⟨h1, h2⟩
        · exact ⟨h1, h2⟩
      · exact ⟨h1, h2⟩
  have h3 : Keeps v d d3 := by
    unfold d3
    exact Keeps.ite h2 (h2.trans (keeps_raise v _ _ _ _))
  have h4 : Keeps v d d4 := by
    unfold d4
    split
    · split
      · exact h3.trans (keeps_setBoundary v _ _ _ (fun _ => rfl) (fun _ => ⟨rfl, rfl⟩))
      · exact h3
    · exact h3
  exact Keeps.ite (h4.trans (keeps_startOverlapTimer v i _)) h4

theorem keeps_markMovement (v : Env) (n i : Nat) (rt : RouteDef) (d : Live)
    (hr : d.routeOf v i = some rt) : Keeps v d (markMovement v n i rt d) := by
  unfold markMovement
  extract_lets inLap here d1
  have h1 : Keeps v d d1 := by
    have hz : d.slot i ≠ Slot.free := fun e => by
      have := routeOf_active hr
      rw [e] at this
      cases this
    -- the marks belong to the slot's own route
    have key : Keeps v d d1 := by
      have hs : (d.setSlot i (fun s =>
          { s with
            pathMarks := markEntries here (fun m => { m with occ := true }) rt.path s.pathMarks
            overlapMarks := markEntries here
              (fun m => if m.released || m.transferred then m else { m with occ := true }) rt.overlap
              s.overlapMarks
            overlapExpiry := if inLap then none else s.overlapExpiry })) = d1 := rfl
      rw [← hs]
      have k := keeps_marksLocks v i rt [] (Release.start d) (fun s =>
          { s with
            pathMarks := markEntries here (fun m => { m with occ := true }) rt.path s.pathMarks
            overlapMarks := markEntries here
              (fun m => if m.released || m.transferred then m else { m with occ := true }) rt.overlap
              s.overlapMarks
            overlapExpiry := if inLap then none else s.overlapExpiry }) hr ⟨rfl, rfl, rfl⟩
        (fun x hx _ => ?_) (fun x hx _ => ?_)
      · exact k
      · refine ownPath_marked hx (fun j m he hm hm0 => ⟨_, getElem?_markEntries _ _ _ _ he hm, ?_⟩)
        split <;> exact hm0
      · refine ownOverlap_marked hx (fun j m he hm h1 h2 =>
          ⟨_, getElem?_markEntries _ _ _ _ he hm, ?_⟩)
        split
        · split
          · exact ⟨h1, h2⟩
          · exact ⟨h1, h2⟩
        · exact ⟨h1, h2⟩
    exact key
  exact Keeps.ite (h1.trans (keeps_startOverlapTimer v i _)) h1

theorem keeps_evaluate (v : Env) (i : Nat) (d : Live) : Keeps v d (evaluate v i d) :=
  (calm_evaluate v i d).keeps (shows_evaluate v i d)

theorem keeps_sectionAtSlot (v : Env) (n : Nat) (occ m : Bool) (i : Nat) (d : Live) :
    Keeps v d (sectionAtSlot v n occ m i d) := by
  unfold sectionAtSlot
  split
  · next rt hr =>
    simp only
    split
    · exact Keeps.ite (keeps_enterSlot v i rt d hr) (Keeps.ite (keeps_evaluate v i d) (Keeps.refl v d))
    · exact Keeps.ite (keeps_enterSlot v i rt d hr) (Keeps.ite (keeps_evaluate v i d) (Keeps.refl v d))
    · exact Keeps.ite (keeps_enterSlot v i rt d hr) (Keeps.refl v d)
    · refine Keeps.ite ?_ (Keeps.refl v d)
      exact (Keeps.ite (keeps_markMovement v n i rt d hr) (Keeps.refl v d)).trans
        (keeps_releaseTest v i n _)
    · exact Keeps.refl v d
  · exact Keeps.refl v d

/-- A control record changed in what no claim and no aspect reads. -/
theorem keeps_setControl (v : Env) (n : Nat) (f : Control → Control) (d : Live)
    (hf : ∀ c, (f c).num = c.num ∧ (f c).aspect = c.aspect ∧ (f c).ties = c.ties) :
    Keeps v d (d.setControl n f) := by
  have hn : ∀ c, (f c).num = c.num := fun c => (hf c).1
  refine Keeps.of (whole_setControl d n f hn) (shows_setControl v d n f (fun c => ?_))
    (fun _ => SlotTold.refl _) (fun _ => ⟨rfl, rfl⟩) (fun _ _ => id) (fun m => ?_) id
  · have := (hf c).2.2
    unfold Control.ties at this
    simp only [Prod.mk.injEq] at this
    exact ⟨(hf c).1, (hf c).2.1, this.2.2.2⟩
  · rw [d.control_setControl n m f hn]
    split
    · next e => rw [e.1]; exact (hf _).2.2
    · rfl

theorem keeps_measure (v : Env) (n : Nat) (d : Live) : Keeps v d (measure v n d) := by
  unfold measure
  refine Keeps.foldl _ (fun d e => ?_) _ d
  split
  · simp only
    split
    · next q _ =>
      exact keeps_setControl v e.num (fun c => { c with speed := some { v := q, time := v.now } }) d
        (fun _ => ⟨rfl, rfl, rfl⟩)
    · exact Keeps.refl v d
  · exact Keeps.refl v d

/-! ### Placement (R46) -/

/-- What a placement in progress knows of its slot: the route it holds. -/
def Live.placing (v : Env) (d : Live) (i : Nat) (r : RouteDef) : Prop :=
  d.routeOf v i = some r ∧ v.route? r.number = some r

theorem routeOf_number {v : Env} {d : Live} {i : Nat} {r : RouteDef} (h : d.routeOf v i = some r) :
    v.route? r.number = some r := by
  unfold Live.routeOf at h
  split at h
  · cases hr : (d.slot i).route with
    | none => rw [hr] at h; cases h
    | some n =>
      rw [hr] at h
      have h' : v.route? n = some r := h
      have := List.find?_some h'
      simp only [decide_eq_true_eq] at this
      rw [this]; exact h'
  · cases h

/-- A transfer takes an entry from another slot. -/
theorem transfersFrom_ne {v : Env} {d : Live} {r : RouteDef} {e : Entry} {x i : Nat}
    (h : transfersFrom v d r e = some x) (hr : d.routeOf v i = some r) :
    x ≠ i ∧ ∃ rx, d.routeOf v x = some rx := by
  unfold transfersFrom at h
  split at h
  · next y _ =>
    split at h
    · next rx hrx =>
      rw [Option.ite_none_right_eq_some] at h
      obtain ⟨hc, hy⟩ := h
      cases hy
      refine ⟨fun k => ?_, rx, hrx⟩
      subst k
      rw [hr] at hrx
      cases hrx
      simp only [Bool.and_eq_true, bne_self_eq_false, Bool.false_eq_true, false_and] at hc
    · cases h
  · cases h

/-- An entry placed for a slot that holds it. -/
theorem keeps_placeEntry (v : Env) (i : Nat) (r : RouteDef) (m : LockMode) (e : Entry) (d : Live)
    (hr : d.routeOf v i = some r)
    (hown : (m = .path ∧ e ∈ ownPath r (d.slot i)) ∨ (m = .overlap ∧ e ∈ ownOverlap r (d.slot i))) :
    Keeps v d (placeEntry v i r m e d) ∧ (placeEntry v i r m e d).slot i = d.slot i := by
  -- the state between the transfer mark and the lock
  have key : ∀ d1 : Live, d1.controls = d.controls → d1.boundaries = d.boundaries →
      d1.stored = d.stored → Whole d d1 → Shows v d d1 → d1.slot i = d.slot i →
      (∀ j, (d1.slot j).state = (d.slot j).state ∧ (d1.slot j).route = (d.slot j).route
        ∧ (d1.slot j).flank = (d.slot j).flank ∧ (d.slot j = Slot.free → d1.slot j = Slot.free)
        ∧ ∀ rt, d.routeOf v j = some rt → ∀ n, n ≠ e.element →
          ((∃ x ∈ ownPath rt (d.slot j), x.element = n) →
            ∃ x ∈ ownPath rt (d1.slot j), x.element = n)
          ∧ ((∃ x ∈ ownOverlap rt (d.slot j), x.element = n) →
            ∃ x ∈ ownOverlap rt (d1.slot j), x.element = n)) →
      (¬ d.hasControl e.element → ∀ j, d1.slot j = d.slot j) →
      Keeps v d (d1.setControl e.element (fun c => { c with lock := some { holder := .slot i, mode := m } }))
      ∧ (d1.setControl e.element
          (fun c => { c with lock := some { holder := .slot i, mode := m } })).slot i = d.slot i := by
    intro d1 hc hb hq w sh hi hs hno
    refine ⟨⟨⟨w.trans (whole_setControl d1 _ _ (fun _ => rfl)),
      sh.trans (shows_setControl v d1 e.element _ (fun _ => ⟨rfl, rfl, rfl⟩)), fun o => ?_,
      fun _ _ l n k hk => ?_, fun _ => countsTied_same (w.trans (whole_setControl d1 _ _ (fun _ => rfl)))
        (fun j => (hs j).2.2.1) (fun q => ?_),
      exitsTied_same hb (fun j => ⟨(hs j).1, (hs j).2.1⟩)⟩, fun _ h => ⟨hq.trans h, fun j hj => ?_⟩⟩, hi⟩
    · refine ⟨fun j hj => (hs j).2.2.2.1 (o.1 j (by rw [← (hs j).1]; exact hj)), fun j hj => ?_⟩
      obtain ⟨rt, h⟩ := o.2 j (by rw [← (hs j).1]; exact hj)
      exact ⟨rt, by rw [← h]; exact routeOf_of (hs j).1 (hs j).2.1⟩
    · have hl : ∀ n, ((d1.setControl e.element (fun c =>
          { c with lock := some { holder := .slot i, mode := m } })).control n).lock
          = if n = e.element ∧ d.hasControl e.element then some { holder := .slot i, mode := m }
            else (d.control n).lock := by
        intro n
        rw [d1.control_setControl _ n _ (by exact fun _ => rfl)]
        have hh : d1.hasControl e.element ↔ d.hasControl e.element := by
          unfold Live.hasControl; rw [hc]
        by_cases h1 : n = e.element ∧ d.hasControl e.element
        · rw [if_pos h1, if_pos ⟨h1.1, hh.mpr h1.2⟩]
        · rw [if_neg h1, if_neg (fun k => h1 ⟨k.1, hh.mp k.2⟩), Live.control_congr hc]
      have hro : ∀ j rt, d.routeOf v j = some rt → (d1.setControl e.element (fun c =>
          { c with lock := some { holder := .slot i, mode := m } })).routeOf v j = some rt := by
        intro j rt h
        rw [← h]; exact routeOf_of (hs j).1 (hs j).2.1
      rw [hl] at hk
      split at hk
      · next h1 =>
        simp only [Option.some.injEq] at hk
        subst hk
        unfold Live.lockOwned
        simp only
        refine ⟨r, hro i r hr, ?_⟩
        show (_ ∧ ∃ x ∈ ownPath r (d1.slot i), _) ∨ (_ ∧ ∃ x ∈ ownOverlap r (d1.slot i), _)
        rw [hi, h1.1]
        exact hown.imp (fun h => ⟨h.1, e, h.2, rfl⟩) (fun h => ⟨h.1, e, h.2, rfl⟩)
      · next h1 =>
        refine lockOwned_keep (l n k hk) (fun j rt _ h => ⟨hro j rt h, ?_⟩)
          (fun b bd _ h _ hm => ?_)
        · by_cases e1 : n = e.element
          · subst e1
            have e2 : ¬ d.hasControl e.element := fun k => h1 ⟨rfl, k⟩
            show (_ → ∃ x ∈ ownPath rt (d1.slot j), _) ∧ (_ → ∃ x ∈ ownOverlap rt (d1.slot j), _)
            rw [hno e2 j]
            exact ⟨id, id⟩
          · exact (hs j).2.2.2.2 rt h n e1
        · show (d1.boundary b).berthLocked = true ∧ ∃ m ∈ bd.berth.zip (d1.boundary b).marks, _
          rw [Live.boundary_congr hb]
          exact ⟨h, hm⟩
    · rw [counted_setControl e.element (fun c => { c with lock := some { holder := .slot i, mode := m } })
        (fun _ => rfl) (fun _ => ⟨rfl, rfl, rfl⟩)]
      cases q with
      | point n pos => show (d1.control n).count pos = (d.control n).count pos
                       rw [Live.control_congr hc]
      | signal n => show (d1.control n).holdCount = (d.control n).holdCount
                    rw [Live.control_congr hc]
    · have hj' : (d1.slot j).state = .setting := hj
      rwa [(hs j).1] at hj'
  have same := key d rfl rfl rfl (Whole.refl d) (Shows.refl v d) rfl
    (fun j => ⟨rfl, rfl, rfl, id, fun _ _ _ _ => ⟨id, id⟩⟩) (fun _ _ => rfl)
  unfold placeEntry
  simp only
  split
  · next x hx =>
    obtain ⟨hne, rx, hrx⟩ := transfersFrom_ne hx hr
    split
    · next rx' hrx' =>
      rw [hrx] at hrx'
      cases hrx'
      have hxz : d.slot x ≠ Slot.free := fun k => by
        have := routeOf_active hrx
        rw [k] at this
        cases this
      have hsx : ∀ f : Slot → Slot, (d.setSlot x f).slot x = f (d.slot x) :=
        fun f => setSlot_slot_self (active_lt (routeOf_active hrx)) f
      refine key _ rfl rfl rfl (whole_setSlot d x _) (shows_setSlot v d x _ ⟨rfl, rfl⟩)
        (setSlot_slot_ne (fun k => hne k.symm) _) (fun j => ?_) (fun hnc => ?_)
      · by_cases e1 : j = x
        · subst e1
          rw [hsx]
          refine ⟨rfl, rfl, rfl, fun k => absurd k hxz, fun rt hrt n hn => ⟨id, ?_⟩⟩
          rw [hrx] at hrt
          cases hrt
          rintro ⟨y, hy, rfl⟩
          refine ⟨y, ownOverlap_marked hy (fun j m he hm h1 h2 =>
            ⟨_, getElem?_markEntries _ _ _ _ he hm, ?_⟩), rfl⟩
          rw [if_neg (by simpa using hn)]
          exact ⟨h1, h2⟩
        · rw [setSlot_slot_ne e1]
          exact ⟨rfl, rfl, rfl, id, fun _ _ _ _ => ⟨id, id⟩⟩
      · exfalso
        unfold transfersFrom at hx
        have hlk : (d.control e.element).lock = none := by
          cases hk : (d.control e.element).lock with
          | none => rfl
          | some k => exact absurd (hasControl_of_lock hk) hnc
        rw [hlk] at hx
        cases hx
    · next hn => rw [hrx] at hn; cases hn
  · exact same

theorem keeps_placeEntries (v : Env) (i : Nat) (r : RouteDef) (m : LockMode) (es : List Entry)
    (d e : Live) (hr : d.routeOf v i = some r)
    (hown : ∀ x ∈ es, (m = .path ∧ x ∈ ownPath r (d.slot i)) ∨ (m = .overlap ∧ x ∈ ownOverlap r (d.slot i)))
    (h : placeEntries v i r m es d = .ok e) : Keeps v d e ∧ e.slot i = d.slot i := by
  induction es generalizing d with
  | nil => cases h; exact ⟨Keeps.refl v _, rfl⟩
  | cons x xs ih =>
    unfold placeEntries at h
    split at h
    · cases h
    · obtain ⟨k, hs⟩ := keeps_placeEntry v i r m x d hr (hown x (by simp))
      have hr' : (placeEntry v i r m x d).routeOf v i = some r := by
        rw [← hr]; exact routeOf_of (by rw [hs]) (by rw [hs])
      obtain ⟨k2, hs2⟩ := ih _ hr' (fun y hy => by rw [hs]; exact hown y (by simp [hy])) h
      exact ⟨k.trans k2, hs2.trans hs⟩

/-! ### Flank requirements taken -/

theorem counted_calm {d e : Live} (h : Calm d e) (q : Protector) : e.counted q = d.counted q :=
  counted_of_ties (fun n => by have := congrArg Control.ties (h.control n); exact this) q

/-- A protector taken counts one more. -/
theorem counted_takeProtector (v : Env) (q p : Protector) (d : Live) : (takeProtector v q d).counted p
    = if p = q ∧ d.hasControl q.element then d.counted q + 1 else d.counted p := by
  unfold takeProtector
  cases q with
  | point n pos =>
    have hf : ∀ c : Control, (c.setCount pos (c.count pos + 1)).num = c.num := by
      intro c; cases pos <;> rfl
    simp only
    cases p with
    | point m p' =>
      unfold Live.counted
      simp only
      rw [d.control_setControl n m _ hf]
      by_cases hm : m = n ∧ d.hasControl n
      · rw [if_pos hm]
        by_cases hp : p' = pos
        · subst hp
          rw [if_pos ⟨by rw [hm.1], hm.2⟩]
          cases p' <;> rfl
        · rw [if_neg (by rintro ⟨h, -⟩; simp only [Protector.point.injEq] at h; exact hp h.2)]
          rw [Control.count_setCount_ne _ _ hp, hm.1]
      · rw [if_neg hm, if_neg (by rintro ⟨h, k⟩; simp only [Protector.point.injEq] at h; exact hm ⟨h.1, k⟩)]
    | signal m =>
      unfold Live.counted
      simp only
      rw [d.control_setControl n m _ hf]
      rw [if_neg (c := Protector.signal m = Protector.point n pos ∧ _) (by rintro ⟨h, -⟩; cases h)]
      split
      · next h => rw [h.1]; cases pos <;> rfl
      · rfl
  | signal n =>
    have key : (d.setControl n (fun c => { c with holdCount := (d.control n).holdCount + 1 })).counted p
        = if p = .signal n ∧ d.hasControl n then (d.control n).holdCount + 1 else d.counted p := by
      cases p with
      | point m p' =>
        unfold Live.counted
        simp only
        rw [d.control_setControl n m _ (by exact fun _ => rfl)]
        rw [if_neg (c := Protector.point m p' = Protector.signal n ∧ _) (by rintro ⟨h, -⟩; cases h)]
        split
        · next h => rw [h.1]; cases p' <;> rfl
        · rfl
      | signal m =>
        unfold Live.counted
        simp only
        rw [d.control_setControl n m _ (by exact fun _ => rfl)]
        by_cases hm : m = n ∧ d.hasControl n
        · rw [if_pos hm, if_pos ⟨by rw [hm.1], hm.2⟩]
        · rw [if_neg hm, if_neg (by rintro ⟨h, k⟩; simp only [Protector.signal.injEq] at h; exact hm ⟨h, k⟩)]
    simp only
    split
    · rw [counted_calm (calm_computeAspect v n _)]; exact key
    · exact key

theorem shows_takeProtector (v : Env) (q : Protector) (d : Live) : Shows v d (takeProtector v q d) := by
  unfold takeProtector
  cases q with
  | point n pos => exact shows_setControl v d n _ (fun c => by cases pos <;> exact ⟨rfl, rfl, rfl⟩)
  | signal n =>
    have ha : ∀ m, ((d.setControl n (fun c =>
        { c with holdCount := (d.control n).holdCount + 1 })).control m).aspect = (d.control m).aspect := by
      intro m
      rw [d.control_setControl n m _ (by exact fun _ => rfl)]
      split
      · next k => rw [k.1]
      · rfl
    have hh : ∀ m, m ≠ n → ((d.setControl n (fun c =>
        { c with holdCount := (d.control n).holdCount + 1 })).control m).holdCount
          = (d.control m).holdCount := by
      intro m hm
      rw [d.control_setControl_ne hm _ (by exact fun _ => rfl)]
    have lit : ∀ X, d.litBut v X → (d.setControl n (fun c =>
        { c with holdCount := (d.control n).holdCount + 1 })).litBut v X :=
      fun X hx m hm hX hp => hx m hm hX (by rw [← ha]; exact hp)
    simp only
    split
    · have c := computes_computeAspect v n (d.setControl n (fun c =>
        { c with holdCount := (d.control n).holdCount + 1 }))
      refine ⟨fun X hx => c.lit X (lit X hx), fun X hx => c.freeOf X (fun m hm hX hp => ?_),
        fun k i hi => c.dim k i hi⟩
      have hX' : ¬ X m ∧ m ≠ n := ⟨fun k => hX (Or.inl k), fun k => hX (Or.inr k)⟩
      exact forcedStop_of (d := d) rfl (fun k => by rw [hh m hX'.2, k])
        (hx m hm hX'.1 (by rw [← ha]; exact hp))
    · next hk =>
      refine ⟨lit, fun X hx m hm hX hp => ?_, fun _ _ h => h⟩
      have h1 := hx m hm hX (by rw [← ha]; exact hp)
      by_cases e : m = n
      · subst e
        exfalso
        unfold forcedStop at h1
        simp only [Bool.or_eq_false_iff, decide_eq_false_iff_not, Nat.not_lt, Nat.le_zero] at h1
        exact hk h1.1.2
      · exact forcedStop_of (d := d) rfl (fun k => by rw [hh m e, k]) h1

/-- A protector taken and its requirement recorded. -/
theorem keeps_takeRecord (v : Env) (i : Nat) (q : Protector) (f : Slot → Slot) (d : Live)
    (hi : i < d.slots.length) (hact : (d.slot i).active = true)
    (hf : ∀ s, (f s).state = s.state ∧ (f s).route = s.route ∧ (f s).pathMarks = s.pathMarks
      ∧ (f s).overlapMarks = s.overlapMarks)
    (hc : ∀ s : Slot, s.flank = (d.slot i).flank → ∀ p, (f s).holdsOf p = s.holdsOf p + (if p = q then 1 else 0)) :
    Keeps v d ((takeProtector v q d).setSlot i f) := by
  obtain ⟨a1, a2, a3, a4, a5, a6, a7, a8⟩ := takeProtector_all v q d
  have w : Whole d ((takeProtector v q d).setSlot i f) :=
    (whole_takeProtector v q d).trans (whole_setSlot _ i f)
  have hi' : i < (takeProtector v q d).slots.length := by rw [a3]; exact hi
  have hs : ((takeProtector v q d).setSlot i f).slot i = f ((takeProtector v q d).slot i) :=
    setSlot_slot_self hi' f
  have hn : ∀ j, j ≠ i → ((takeProtector v q d).setSlot i f).slot j = (takeProtector v q d).slot j :=
    fun j hj => setSlot_slot_ne hj f
  have hact' : (takeProtector v q d).slot i ≠ Slot.free := fun k => by
    have h := (a4 i).active
    rw [k, hact] at h
    cases h
  have sh : ∀ j, (d.slot j).sameHold (((takeProtector v q d).setSlot i f).slot j) := by
    intro j
    have t := (a4 j).told.sameHold
    by_cases e : j = i
    · subst e
      rw [hs]
      obtain ⟨h1, h2, h3, h4⟩ := hf ((takeProtector v q d).slot j)
      exact ⟨by unfold Slot.active; rw [h1]; exact t.1, h2.trans t.2.1, h3.trans t.2.2.1, h4.trans t.2.2.2⟩
    · rw [hn j e]; exact t
  refine ⟨⟨w, (shows_takeProtector v q d).trans (shows_setSlot v _ i f ⟨(hf _).1, (hf _).2.1⟩), fun o => ?_,
    fun _ _ l n k hk => ?_, fun _ c p hp => ?_, exitsTied_keep (fun b j h => ?_) (fun j rt h => ?_)⟩,
    fun _ h => ⟨a5.trans h, fun j hj => ?_⟩⟩
  · exact slotsOk_setSlot ⟨(hf _).1, (hf _).2.1⟩ (fun k => absurd k hact')
      (slotsOk_told (fun j => (a4 j).told) o)
  · have hk' : ((takeProtector v q d).control n).lock = some k := hk
    rw [a1] at hk'
    refine lockOwned_same (l n k hk') sh (fun b => ?_)
    have hb : ((takeProtector v q d).setSlot i f).boundary b = d.boundary b := Live.boundary_congr a7 b
    rw [hb]; exact ⟨rfl, rfl⟩
  · have hp' : d.hasControl p.element := by unfold Live.hasControl at *; rwa [w.nums] at hp
    have e1 : ((takeProtector v q d).setSlot i f).counted p = (takeProtector v q d).counted p := by
      cases p <;> rfl
    rw [e1, counted_takeProtector]
    have e2 := protecting_change (d := d) (e := (takeProtector v q d).setSlot i f)
      (by rw [w.slotCount]) hi (fun j hj => by rw [hn j hj, (a4 j).flank]) p
    rw [hs] at e2
    have e3 := hc ((takeProtector v q d).slot i) ((a4 i).flank) p
    have e4 : ((takeProtector v q d).slot i).holdsOf p = (d.slot i).holdsOf p := by
      unfold Slot.holdsOf; rw [(a4 i).flank]
    have e5 := c p hp'
    by_cases e : p = q
    · subst e
      rw [if_pos ⟨rfl, hp'⟩]
      simp only [if_true] at e3
      omega
    · rw [if_neg (fun k => e k.1)]
      rw [if_neg e] at e3
      omega
  · have hb : ((takeProtector v q d).setSlot i f).boundary b = d.boundary b := Live.boundary_congr a7 b
    rwa [hb] at h
  · rw [routeOf_eq (sh j).2.1 (sh j).1, h]
  · by_cases e : j = i
    · subst e
      rw [hs, (hf _).1] at hj
      exact (a4 j).told.set hj
    · rw [hn j e] at hj
      exact (a4 j).told.set hj

theorem holdsOf_append (s : Slot) (h : FlankHold) (p : Protector) :
    Slot.holdsOf { s with flank := s.flank ++ [h] } p
      = s.holdsOf p + (if h.protector = some p then 1 else 0) := by
  unfold Slot.holdsOf
  rw [List.countP_append, List.countP_singleton]
  simp

theorem active_of_needsExit {s : Slot} (h : s.needsExit = true) : s.active = true := by
  unfold Slot.needsExit at h
  unfold Slot.active
  cases e : s.state <;> simp_all

theorem keeps_placeFlanks (v : Env) (i : Nat) (qs : List Requirement) (d e : Live)
    (hi : i < d.slots.length) (hn : (d.slot i).needsExit = true)
    (h : placeFlanks v i qs d = .ok e) : Keeps v d e ∧ (e.slot i).needsExit = true
      ∧ (e.slot i).route = (d.slot i).route := by
  induction qs generalizing d with
  | nil => cases h; exact ⟨Keeps.refl v _, hn, rfl⟩
  | cons q qs ih =>
    unfold placeFlanks at h
    split at h
    · cases h
    · next pr way _ =>
      have k := keeps_takeRecord v i pr (fun s =>
        { s with flank := s.flank ++ [{ protector := some pr, position := way, excluded := [] }] }) d hi
        (active_of_needsExit hn) (fun _ => ⟨rfl, rfl, rfl, rfl⟩) (fun s _ p => by
          rw [holdsOf_append]
          by_cases e : p = pr
          · simp [e]
          · have e' : ¬ pr = p := fun k => e k.symm
            simp [e, e'])
      obtain ⟨a1, a2, a3, a4, _⟩ := takeProtector_all v pr d
      obtain ⟨b1, b2, b3⟩ := ih _ (by simpa [a3] using hi) (by
        rw [setSlot_slot_self (by rw [a3]; exact hi)]
        exact (a4 i).goes hn) h
      refine ⟨k.trans b1, b2, b3.trans ?_⟩
      rw [setSlot_slot_self (by rw [a3]; exact hi)]
      exact (a4 i).told.route

/-! ### Placements (R39 to R46) -/

/-- A FREE slot taken for a route. -/
theorem holds_taken (v : Env) (i : Nat) (r : RouteDef) (p : Nat) (d : Live) (hi : i < d.slots.length)
    (hf : (d.slot i).state = .free) (hr : v.route? r.number = some r) :
    Holds v d (d.setSlot i (fun _ => Slot.taken r p)) := by
  have hs : (d.setSlot i (fun _ => Slot.taken r p)).slot i = Slot.taken r p := setSlot_slot_self hi _
  have hn : ∀ j, j ≠ i → (d.setSlot i (fun _ => Slot.taken r p)).slot j = d.slot j :=
    fun j hj => setSlot_slot_ne hj _
  have hro : ∀ j, j ≠ i → (d.setSlot i (fun _ => Slot.taken r p)).routeOf v j = d.routeOf v j :=
    fun j hj => routeOf_eq (by rw [hn j hj]) (by rw [hn j hj])
  have hri : d.routeOf v i = none := by simp [Live.routeOf, Slot.active, hf]
  refine ⟨whole_setSlot d i _, ⟨?_, ?_, ?_⟩, ?_, ?_, ?_, exitsTied_keep (fun _ _ h => h) (fun j rt h => ?_)⟩
  · exact fun X h => lit_setSlot_of_not_clear i _ (by simp [hf]) h
  · exact fun X h n hx hX ha => by
      have := h n hx hX ha
      exact this
  · intro _ j hj
    by_cases e : j = i
    · subst e; rw [hs] at hj; simp [Slot.taken] at hj
    · rwa [hn j e] at hj
  · intro h
    refine ⟨fun j hj => ?_, fun j hj => ?_⟩
    · by_cases e : j = i
      · subst e; rw [hs] at hj; simp [Slot.taken] at hj
      · rw [hn j e] at hj ⊢; exact h.1 j hj
    · by_cases e : j = i
      · subst e
        exact ⟨r, by rw [Live.routeOf, hs]; simp [Slot.taken, Slot.active, hr]⟩
      · rw [hn j e] at hj
        rw [hro j e]; exact h.2 j hj
  · intro _ _ h n k hk
    have h0 := h n k hk
    refine lockOwned_keep h0 (fun j rt _ hj => ?_) (fun _ _ _ a _ b => ⟨a, b⟩)
    have e : j ≠ i := by rintro rfl; rw [hri] at hj; cases hj
    rw [hro j e, hn j e]
    exact ⟨hj, id, id⟩
  · intro o h q hq
    have hq' : d.hasControl q.element := hq
    have e := protecting_change (d := d) (e := d.setSlot i (fun _ => Slot.taken r p)) (by simp) hi
      (fun j hj => by rw [hn j hj]) q
    rw [hs] at e
    have e1 : (d.slot i).holdsOf q = 0 := by rw [o.1 i hf]; rfl
    have e2 : (Slot.taken r p).holdsOf q = 0 := rfl
    have e3 := h q hq'
    have e4 : (d.setSlot i (fun _ => Slot.taken r p)).counted q = d.counted q := by cases q <;> rfl
    omega
  · have e : j ≠ i := by rintro rfl; rw [hri] at h; cases h
    rw [hro j e, h]

/-- The entries of a fresh slot are all its own. -/
theorem own_taken (r : RouteDef) (p : Nat) :
    (∀ x ∈ r.path, x ∈ ownPath r (Slot.taken r p))
      ∧ ∀ x ∈ r.overlap, x ∈ ownOverlap r (Slot.taken r p) := by
  constructor
  · intro x hx
    obtain ⟨j, hj⟩ := List.getElem?_of_mem hx
    exact mem_ownPath.2 ⟨j, Mark.none, hj, by show (r.path.map _)[j]? = _; rw [List.getElem?_map, hj]; rfl, rfl⟩
  · intro x hx
    obtain ⟨j, hj⟩ := List.getElem?_of_mem hx
    exact mem_ownOverlap.2 ⟨j, Mark.none, hj, by show (r.overlap.map _)[j]? = _; rw [List.getElem?_map, hj]; rfl, rfl, rfl⟩

/-- A placement that passed. -/
theorem holds_place (v : Env) (i : Nat) (r : RouteDef) (p : Nat) (d e : Live) (hi : i < d.slots.length)
    (hf : (d.slot i).state = .free) (hr : v.route? r.number = some r) (h : place v i r p d = .ok e) :
    Holds v d e ∧ (e.slot i).needsExit = true ∧ e.routeOf v i = some r := by
  unfold place at h
  split at h
  · cases h
  · simp only [bind, Except.bind] at h
    split at h
    · cases h
    next d2 h2 =>
    split at h
    · cases h
    next d3 h3 =>
    split at h
    · cases h
    next d4 h4 =>
    split at h
    · cases h
    · simp only [Except.ok.injEq] at h
      subst h
      have hs : (d.setSlot i (fun _ => Slot.taken r p)).slot i = Slot.taken r p :=
        setSlot_slot_self hi _
      have hro : ∀ {f : Live}, f.slot i = Slot.taken r p → f.routeOf v i = some r := by
        intro f hf
        rw [Live.routeOf, hf]; simp [Slot.taken, Slot.active, hr]
      obtain ⟨k2, s2⟩ := keeps_placeEntries v i r .path r.path _ _ (hro hs)
        (fun x hx => .inl ⟨rfl, by rw [hs]; exact (own_taken r p).1 x hx⟩) h2
      rw [hs] at s2
      obtain ⟨k3, s3⟩ := keeps_placeEntries v i r .overlap r.overlap _ _ (hro s2)
        (fun x hx => .inr ⟨rfl, by rw [s2]; exact (own_taken r p).2 x hx⟩) h3
      rw [s2] at s3
      have l3 : i < d3.slots.length := by
        rw [k3.whole.slotCount, k2.whole.slotCount]; simpa using hi
      obtain ⟨k4, n4, r4⟩ := keeps_placeFlanks v i r.flank d3 _ l3 (by rw [s3]; rfl) h4
      exact ⟨(((holds_taken v i r p d hi hf hr).trans k2.toHolds).trans k3.toHolds).trans k4.toHolds,
        n4, by
        rw [Live.routeOf, active_of_needsExit n4, r4, s3]; simp [Slot.taken, hr]⟩

/-! ### Take-ups (R62, R119) -/

/-- A slot that needs its exit is not the one whose passage ends. -/
theorem needsExit_endPassage (v : Env) (x i : Nat) (d : Live) (h : (d.slot i).needsExit = true) :
    ((endPassage v x d).slot i).needsExit = true := by
  obtain ⟨e | ⟨_, f2, f3⟩, _⟩ := endPassage_all v x d
  · rw [e]; exact h
  · by_cases e : i = x
    · subst e; simp [Slot.needsExit, f2] at h
    · exact (f3 i e).goes h

theorem keeps_transfersDone (v : Env) (before : Live) (d : Live) :
    Keeps v d (transfersDone v before d) := by
  refine Keeps.eachSlot _ (fun x d => Keeps.ite ?_ (Keeps.refl v d)) d
  exact (keeps_setSlot_same v x _ d ⟨rfl, rfl, rfl, rfl, rfl⟩ (fun e => by rw [e]; rfl)).trans
    (keeps_endPassage v x _)

theorem needsExit_transfersDone (v : Env) (i : Nat) (before d : Live) (h : (d.slot i).needsExit = true) :
    ((transfersDone v before d).slot i).needsExit = true := by
  unfold transfersDone Live.eachSlot
  generalize d.slotIds = l
  induction l generalizing d with
  | nil => exact h
  | cons x xs ih =>
    rw [List.foldl_cons]
    apply ih
    simp only
    split
    · apply needsExit_endPassage
      rw [Live.slot_setSlot]
      split <;> exact h
    · exact h

/-- The route of such a slot stands. -/
theorem routeOf_transfersDone (v : Env) (i : Nat) (before d : Live) (h : (d.slot i).needsExit = true) :
    (transfersDone v before d).routeOf v i = d.routeOf v i := by
  unfold transfersDone Live.eachSlot
  generalize d.slotIds = l
  induction l generalizing d with
  | nil => rfl
  | cons x xs ih =>
    rw [List.foldl_cons]
    have hs : ((d.setSlot x (fun s => { s with overlapExpiry := none })).slot i).state = (d.slot i).state
        ∧ ((d.setSlot x (fun s => { s with overlapExpiry := none })).slot i).route = (d.slot i).route := by
      rw [Live.slot_setSlot]
      split
      · next e => rw [← e.1]; exact ⟨rfl, rfl⟩
      · exact ⟨rfl, rfl⟩
    have hn : ((d.setSlot x (fun s => { s with overlapExpiry := none })).slot i).needsExit = true := by
      unfold Slot.needsExit at *; rw [hs.1]; exact h
    simp only
    split
    · rw [ih _ (needsExit_endPassage v x i _ hn), ← routeOf_of hs.1 hs.2]
      obtain ⟨e | ⟨_, f2, f3⟩, _⟩ := endPassage_all v x
        (d.setSlot x (fun s => { s with overlapExpiry := none }))
      · rw [e]
      · by_cases e : i = x
        · subst e; simp [Slot.needsExit, f2] at hn
        · exact routeOf_told (f3 i e)
    · exact ih d h

theorem keeps_testPositioning (v : Env) (i : Nat) (d : Live) : Keeps v d (testPositioning v i d) :=
  (calm_testPositioning v i d).keeps (shows_testPositioning v i d)

/-- A take-up's exit slot recorded at the boundary that its route exits at, and the boundary asked. -/
theorem keeps_askBoundary (v : Env) (i b y : Nat) (r : RouteDef) (d : Live)
    (ha : (d.slot i).state ≠ .free) (hr : d.routeOf v i = some r) (hx : r.exit = .boundary y b) :
    Keeps v d (askBoundary v i b d) := by
  have t := told_askBoundary v i b d ha
  have w : Whole d (d.setBoundary b (fun x => { x with exitSlot := some i, exitEntered := false })) :=
    whole_setBoundary d b _ (fun _ => rfl)
  have b0 : ∀ c, ((d.setBoundary b (fun x =>
      { x with exitSlot := some i, exitEntered := false })).boundary c).berthLocked = (d.boundary c).berthLocked
      ∧ ((d.setBoundary b (fun x =>
      { x with exitSlot := some i, exitEntered := false })).boundary c).marks = (d.boundary c).marks := by
    intro c
    rw [d.boundary_setBoundary b c _ (by exact fun _ => rfl)]
    split
    · next h => rw [h.1]; exact ⟨rfl, rfl⟩
    · exact ⟨rfl, rfl⟩
  refine ⟨⟨w.trans t.whole, shows_askBoundary v i b d, fun o => ?_, fun _ _ l n k hk => ?_, fun _ c => ?_,
    fun x c j hj => ?_⟩, fun _ h => ⟨t.stored.trans h, fun j => (t.slot j).set⟩⟩
  · exact slotsOk_told (d := d) t.slot o
  · have e : (d.control n).lock = some k := by
      have a := congrArg Control.lock (t.control n)
      rw [← hk]; exact a.symm
    refine lockOwned_same (l n k e) (fun j => (t.slot j).sameHold) (fun c => ?_)
    exact ⟨(t.berth c).1.trans (b0 c).1, (t.berth c).2.trans (b0 c).2⟩
  · refine countsTied_same (d := d) (w.trans t.whole) (fun j => (told_fields (t.slot j)).2.2.2.1)
      (counted_of_ties (fun n => ?_)) c
    have := congrArg Control.ties (t.control n); exact this
  · have hro : ∀ j, (askBoundary v i b d).routeOf v j = d.routeOf v j := fun j => routeOf_told (t.slot j)
    have h0 := t.exit c j hj
    rw [d.boundary_setBoundary b c _ (by exact fun _ => rfl)] at h0
    split at h0
    · next e =>
      cases h0
      rw [hro, e.1]
      exact ⟨r, y, hr, hx⟩
    · rw [hro]; exact x c j h0

theorem keeps_takeUp (v : Env) (run : Option Nat) (i : Nat) (r : RouteDef) (before placed : Live)
    (hn : (placed.slot i).needsExit = true) (hr : placed.routeOf v i = some r) :
    Keeps v placed (takeUp v run i r before placed) := by
  unfold takeUp
  extract_lets d1 d2 d3 d4 d5
  have n1 : (d1.slot i).needsExit = true := needsExit_transfersDone v i before placed hn
  have n2 : (d2.slot i).needsExit = true := ((moved_handOrders v run _ d1).slot i).goes n1
  have k2 : Keeps v placed d2 := (keeps_transfersDone v before placed).trans
    ((keeping v).handOrders (fun _ => Keeps.refl v) run _ _)
  have k3 : Keeps v placed d3 ∧ (d3.slot i).needsExit = true := by
    unfold d3
    split
    · next y b hx =>
      have r2 : d2.routeOf v i = some r := by
        rw [routeOf_told ((moved_handOrders v run _ d1).slot i).told,
          routeOf_transfersDone v i before placed hn, hr]
      have t := told_askBoundary v i b d2 (fun e => by simp [Slot.needsExit, e] at n2)
      exact ⟨k2.trans (keeps_askBoundary v i b y r d2 (fun e => by simp [Slot.needsExit, e] at n2) r2 hx),
        (t.slot i).goes n2⟩
    · exact ⟨k2, n2⟩
  have k4 : Keeps v d3 d4 := keeps_setSlot_same v i _ d3 ⟨rfl, rfl, rfl, rfl, rfl⟩ (fun e => by
    have := k3.2
    rw [e] at this
    simp [Slot.needsExit, Slot.free] at this)
  have k5 : Keeps v placed d5 := (k3.1.trans k4).trans (keeps_report v d4 _)
  exact (k5.trans ((calm_computeAspect v r.entry d5).keeps (shows_computeAspect v r.entry d5))).trans
    (keeps_testPositioning v i _)

theorem holds_tryTakeUp (v : Env) (run : Option Nat) (i : Nat) (r : RouteDef) (p : Nat) (d e : Live)
    (hi : i < d.slots.length) (hf : (d.slot i).state = .free) (hr : v.route? r.number = some r)
    (h : tryTakeUp v run i r p d = .ok e) : Holds v d e := by
  unfold tryTakeUp at h
  split at h
  · cases h
  next q hq =>
  cases h
  obtain ⟨k, n, hq'⟩ := holds_place v i r p d q hi hf hr hq
  exact k.trans (keeps_takeUp v run i r d q n hq').toHolds

/-! ### The stored request queue (R63 to R65) -/

theorem holds_setStored (v : Env) (d : Live) (l : List Stored)
    (h : d.stored.length ≤ Config.storedCapacity → l.length ≤ Config.storedCapacity) :
    Holds v d (d.setStored l) where
  whole := whole_setStored d l h
  shows := shows_setStored v d l
  slots := id
  locks _ _ := id
  counts _ := id
  exits := id

theorem keeps_dropStored (v : Env) (d : Live) (r : Nat) : Keeps v d (d.dropStored r) where
  toHolds := holds_setStored v d _ (fun h => Nat.le_trans (List.length_filter_le _ _) h)
  fades _ h := ⟨by simp [Live.dropStored, Live.setStored, h], fun _ k => k⟩

theorem freeSlot_free {d : Live} {i : Nat} (h : d.freeSlot = some i) : (d.slot i).state = .free := by
  have := List.find?_some h
  simpa using this

theorem route?_number {v : Env} {n : Nat} {r : RouteDef} (h : v.route? n = some r) : r.number = n := by
  have := List.find?_some h
  simpa using this

theorem holds_tryEntries (v : Env) (run : Option Nat) (es : List Stored) (d : Live) :
    Holds v d (tryEntries v run es d) := by
  induction es generalizing d with
  | nil => exact Holds.refl v d
  | cons e es ih =>
    unfold tryEntries
    split
    · exact Holds.refl v d
    next i hi =>
    split
    · exact ih d
    next r hr =>
    split
    · exact ih d
    next d1 h1 =>
    exact ((holds_tryTakeUp v run i r e.priority d d1 (freeSlot_lt hi) (freeSlot_free hi)
      (by rw [route?_number hr]; exact hr) h1).trans (keeps_dropStored v d1 e.route).toHolds).trans (ih _)

/-- A normal lane mode fades nothing. -/
theorem Holds.keeps {v : Env} {d e : Live} (h : Holds v d e) (m : v.mode = .normal) : Keeps v d e where
  toHolds := h
  fades k := absurd m k

theorem keeps_tryEntries (v : Env) (run : Option Nat) (d : Live) :
    Keeps v d (tryEntries v run d.stored d) where
  toHolds := holds_tryEntries v run d.stored d
  fades _ h := by rw [h]; exact ⟨h, fun _ k => k⟩

theorem keeps_serveIn (v : Env) (run : Option Nat) (d : Live) : Keeps v d (serveIn v run d) := by
  have h : ∀ k d, Keeps v d (serveRuns v run k d) := by
    intro k
    induction k with
    | zero => intro d; exact keeps_setReeval v d false
    | succ k ih =>
      intro d
      unfold serveRuns
      exact Keeps.ite (((keeps_setReeval v d false).trans (keeps_tryEntries v run _)).trans (ih _))
        (Keeps.refl v d)
  exact h _ d

theorem keeps_serve (v : Env) (d : Live) : Keeps v d (serve v d) := keeps_serveIn v none d

/-! ### Acts on throws that serve the stored request queue at its place (R105) -/

theorem keeps_now (v : Env) (run : Option Nat) (d : Live) : Keeps v d (Requeue.now v run d) :=
  keeps_serveIn v run d
theorem keeps_runArbiter (v : Env) (g : Nat) (d : Live) : Keeps v d (runArbiter .now v g d) :=
  (keeping v).runArbiter (keeps_now v) g d
theorem keeps_runArbiters (v : Env) (w : Nat → Live → Bool) (d : Live) :
    Keeps v d (runArbiters .now v w d) := (keeping v).runArbiters (keeps_now v) w d
theorem keeps_applyOrder (v : Env) (run : Option Nat) (p : Nat) (pos : Position) (org : Origin)
    (d : Live) : Keeps v d (applyOrder .now v run p pos org d) :=
  (keeping v).applyOrder (keeps_now v) run p pos org d
theorem keeps_handOrders (v : Env) (run : Option Nat) (os : List (Nat × Position × Origin))
    (d : Live) : Keeps v d (handOrders .now v run os d) :=
  (keeping v).handOrders (keeps_now v) run os d

/-! ### A change of a section (R15, R112) -/

theorem keeps_sectionChanged (v : Env) (n : Nat) (occ m : Bool) (d : Live) :
    Keeps v d (sectionChanged v n occ m d) := by
  unfold sectionChanged
  extract_lets d1 d2 d3 d4
  have h1 : Keeps v d d1 := Keeps.eachSlot _ (fun i e => keeps_sectionAtSlot v n occ m i e) d
  have h2 : Keeps v d d2 := by
    unfold d2
    exact Keeps.ite h1 (h1.trans (keeps_runArbiters v _ _))
  have h3 : Keeps v d d3 := by
    unfold d3
    exact Keeps.ite (h2.trans (keeps_measure v n _)) h2
  have h4 : Keeps v d d4 :=
    h3.trans (Keeps.foldl _ (fun e (bd : BoundaryDef) => keeps_berthChanged v n occ m bd.number e) _ _)
  exact Keeps.ite h4 (h4.trans (keeps_setReeval v _ _))

end Sys2Proof.Machine
end

