-- ==== Sys2Proof/Laws/KeepsCommands.lean ====
section
/-! SUPPORT. What each command's effect on the live state keeps of the aspects, the slots, the locks and the
flank counts. -/

namespace Sys2Proof.Machine

open Sys2Proof

/-! ### Setting releases, cancels and failures (R71, R72, R123) -/

theorem keeps_settingRelease (v : Env) (i : Nat) (re : Option Reason) (q : Bool) (d : Live) :
    Keeps v d (settingRelease v i re q d) := by
  unfold settingRelease
  cases hr : d.routeOf v i with
  | none =>
    have h : giveUpSlot v i re q d = d := by unfold giveUpSlot; rw [hr]
    rw [h]
    exact keeps_serve v d
  | some rt =>
    have k := (keepsBut_giveUpSlot v i re q d rt hr).mono (F := fun n => n = rt.entry) (fun _ h => h.2)
    exact (k.then (keeps_serve v _)).computed

theorem keeps_failSetting (v : Env) (i : Nat) (re : Reason) (d : Live) :
    Keeps v d (failSetting v i re d) :=
  Keeps.ite (keeps_settingRelease v i _ _ d) (Keeps.refl v d)

theorem keeps_cancelSlot (v : Env) (i : Nat) (rt : RouteDef) (d : Live) (hr : d.routeOf v i = some rt) :
    Keeps v d (cancelSlot v i rt d) := by
  unfold cancelSlot
  exact Keeps.ite (keeps_settingRelease v i _ _ d)
    (keeps_changeSlot v i rt _ d hr ⟨by simp [Slot.toCancelling], by simp [Slot.toCancelling],
      by simp [Slot.toCancelling]⟩ ⟨rfl, rfl, rfl, rfl⟩)

/-! ### Changes handed on (R10, R12, R15) -/

theorem keeps_evaluateElement (v : Env) (n : Nat) (d : Live) : Keeps v d (evaluateElement v n d) :=
  (calm_evaluateElement v n d).keeps (shows_evaluateElement v n d)
theorem keeps_endFault (v : Env) (n : Nat) (k : FaultKind) (d : Live) : Keeps v d (endFault v n k d) :=
  (watched_endFault v n k d).keeps (shows_endFault v n k d)
theorem keeps_reconsider (v : Env) (n : Nat) (d : Live) : Keeps v d (reconsider v n d) :=
  (watched_reconsider v n d).keeps (shows_reconsider v n d)

theorem keeps_flightDone (v : Env) (p : Nat) (f : Flight) (d : Live) :
    Keeps v d (flightDone v p f d) := by
  unfold flightDone
  exact ((keeping v).trans ((keeping v).ended p f d) ((keeping v).completion (keeps_now v) none p _)).trans
    (keeps_runArbiter v _ _)

theorem keeps_pointChanged (v : Env) (p : Nat) (d : Live) : Keeps v d (pointChanged v p d) := by
  unfold pointChanged
  have h := (moved_detectionChanged v p d).keeps (shows_detectionChanged v p d)
  split
  · next e => rw [e] at h; exact h.trans (keeps_flightDone v _ _ _)
  · next e => rw [e] at h; exact h.trans (keeps_evaluateElement v _ _)

theorem keeps_lampChanged (v : Env) (n : Nat) (d : Live) : Keeps v d (lampChanged v n d) :=
  (Keeps.ite (keeps_endFault v n _ d) (Keeps.refl v d)).trans
    ((calm_evaluateFlank v n _).keeps (shows_evaluateFlank v n _))

theorem keeps_handOnElement (v : Env) (m : Bool) (old new : Element) (d : Live) :
    Keeps v d (handOnElement v m old new d) := by
  unfold handOnElement
  refine Keeps.trans ?_ (keeps_serve v _)
  have h1 : Keeps v d (if new.isSignal then reconsider v new.num d else d) :=
    Keeps.ite (keeps_reconsider v _ _) (Keeps.refl v d)
  have h2 : ∀ e : Live, Keeps v d e → Keeps v d (if old.agreed = new.agreed then e
      else if new.isPoint then pointChanged v new.num e
      else if new.isSignal then lampChanged v new.num e
      else e) := fun e h =>
    Keeps.ite h (Keeps.ite (h.trans (keeps_pointChanged v _ _))
      (Keeps.ite (h.trans (keeps_lampChanged v _ _)) h))
  have h3 : ∀ e : Live, Keeps v d e → Keeps v d (if old.occupied = new.occupied then e
      else sectionChanged v new.num new.occupied m e) := fun e h =>
    Keeps.ite h (h.trans (keeps_sectionChanged v _ _ _ _))
  have h4 : ∀ e : Live, Keeps v d e → Keeps v d (if old.discrepant && !new.discrepant then
      endFault v new.num .discrepant e else e) := fun e h =>
    Keeps.ite (h.trans (keeps_endFault v _ _ _)) h
  exact h4 _ (h3 _ (h2 _ h1))

/-! ### Route requests -/

theorem holds_storeOrRefuse (v : Env) (rt : RouteDef) (p st : Nat) (why : Reason) (d : Live) :
    Holds v d (storeOrRefuse v rt p st why d) := by
  unfold storeOrRefuse
  split
  · split
    · next h =>
      refine Holds.trans (holds_setStored v _ _ (fun _ => ?_)) (keeps_report v _ _).toHolds
      rw [insertStored_length]; omega
    · exact (keeps_report v _ _).toHolds
  · exact (keeps_report v _ _).toHolds

theorem keeps_setAgain (v : Env) (q : Request) (i : Nat) (d : Live) : Keeps v d (setAgain v q i d) := by
  unfold setAgain
  split
  · exact keeps_report v _ _
  · next h =>
    exact ((keeps_setSlot_same v i _ d ⟨rfl, rfl, rfl, rfl, rfl⟩ (fun e => by
      rw [e] at h; cases h)).trans (keeps_report v _ _)).trans (keeps_evaluate v _ _)
  · exact keeps_report v _ _

theorem holds_restore (v : Env) (x : Stored) (p : Nat) (d : Live) (h : x ∈ d.stored) :
    Holds v d (restore v x p d) := by
  unfold restore
  refine Holds.trans ?_ (keeps_report v _ _).toHolds
  refine holds_setStored v d _ (fun hs => ?_)
  split
  · exact hs
  · rw [insertStored_length]
    have : (d.stored.filter (fun y => y.route != x.route)).length < d.stored.length :=
      List.length_filter_lt_length_iff_exists.mpr ⟨x, h, by simp⟩
    show (d.stored.filter (fun y => y.route != x.route)).length + 1 ≤ _
    omega

/-- A request that passes the tests of R57 is judged in NORMAL. -/
theorem setRouteRefusal_normal {v : Env} {r p st : Nat} (h : setRouteRefusal v r p st = none) :
    v.mode = .normal := by
  unfold setRouteRefusal at h
  split at h
  · cases h
  · next k => simpa using k

theorem keeps_takeSetRoute (r p st : Nat) (v : Env) (d : Live) :
    Keeps v d (takeSetRoute r p st v d) := by
  unfold takeSetRoute
  simp only
  split
  · exact keeps_report v _ _
  · exact keeps_report v _ _
  · next rt hn hr =>
    refine Holds.keeps ?_ (setRouteRefusal_normal hn)
    split
    · exact (keeps_setAgain v _ _ _).toHolds
    · split
      · next h => exact holds_restore v _ _ _ (List.mem_of_find?_eq_some h)
      · split
        · exact holds_storeOrRefuse v _ _ _ _ _
        · next i hi =>
          split
          · next h =>
            exact holds_tryTakeUp v none i rt p d _ (freeSlot_lt hi) (freeSlot_free hi)
              (by rw [route?_number hr]; exact hr) h
          · exact holds_storeOrRefuse v _ _ _ _ _

/-- The slot that holds a route. -/
theorem routeOf_slotOf {v : Env} {d : Live} {r i : Nat} {rt : RouteDef} (hr : v.route? r = some rt)
    (h : d.slotOf r = some i) : d.routeOf v i = some rt := by
  obtain ⟨_, a, b⟩ := slotOf_spec h
  simp [Live.routeOf, a, b, hr]

theorem keeps_takeCancelRoute (r : Nat) (v : Env) (d : Live) : Keeps v d (takeCancelRoute r v d) := by
  unfold takeCancelRoute
  simp only
  split
  · exact keeps_report v _ _
  · next rt hr =>
    split
    · split
      · exact (keeps_dropStored v _ _).trans (keeps_report v _ _)
      · exact keeps_report v _ _
    · next i hi =>
      split
      · exact keeps_settingRelease v _ _ _ _
      · exact keeps_cancelSlot v _ _ _ (routeOf_slotOf hr hi)
      · exact keeps_cancelSlot v _ _ _ (routeOf_slotOf hr hi)
      · exact keeps_report v _ _
      · exact keeps_report v _ _
      · exact Keeps.refl v _

theorem keeps_takeReleaseEmergency (r : Nat) (v : Env) (d : Live) :
    Keeps v d (takeReleaseEmergency r v d) := by
  unfold takeReleaseEmergency
  simp only
  split
  · exact keeps_report v _ _
  · next rt hr =>
    split
    · exact keeps_report v _ _
    · next i hi =>
      split
      · exact keeps_report v _ _
      · exact keeps_report v _ _
      · exact keeps_holdFull v i rt d (routeOf_slotOf hr hi)

/-! ### Points, elements, groups -/

theorem keeps_takeThrowPoint (p pos : Nat) (v : Env) (d : Live) :
    Keeps v d (takeThrowPoint p pos v d) := by
  unfold takeThrowPoint
  simp only
  split
  · exact keeps_report v _ _
  · exact keeps_report v _ _
  · split
    · exact keeps_report v _ _
    · exact keeps_applyOrder v _ _ _ _ _

theorem keeps_takeAckFault (n k : Nat) (v : Env) (d : Live) : Keeps v d (takeAckFault n k v d) := by
  unfold takeAckFault
  simp only
  split
  · split
    · exact keeps_report v _ _
    · exact Keeps.ite (keeps_report v _ _)
        ((watched_removeFault v _ _ _).keeps (shows_removeFault v _ _ _))
  · exact keeps_report v _ _

theorem keeps_takeStopSet (g : Nat) (v : Env) (d : Live) : Keeps v d (takeStopSet g v d) :=
  Keeps.ite (keeps_report v _ _) ((watched_latch v _ _ _).keeps (shows_latch v _ _ _))

theorem keeps_releaseGroup (v : Env) (g : Nat) (d : Live) : Keeps v d (releaseGroup v g d) := by
  have h : Keeps v d (unlatch v g d) := by
    have c : Calm (d.setGroup g (fun _ => StopGroup.inactive))
        (evaluateMembers v g (computeMembers v g
          ((d.setGroup g (fun _ => StopGroup.inactive)).report (.groupState g false none)))) :=
      ((calm_report _ _).trans (calm_computeMembers v g _)).trans (calm_evaluateMembers v g _)
    exact Keeps.of (((whole_setGroup d g _).trans c.whole).trans (whole_setReeval _ _))
      (shows_unlatch v g d) (fun i => (c.slot i).told)
      (fun b => by
        have e : (unlatch v g d).boundary b = d.boundary b := Live.boundary_congr c.boundaries b
        rw [e]; exact ⟨rfl, rfl⟩)
      (fun b i h => by
        have e : (unlatch v g d).boundary b = d.boundary b := Live.boundary_congr c.boundaries b
        rwa [e] at h)
      (fun n => by have := congrArg Control.ties (c.control n); exact this)
      (fun k => c.stored.trans k)
  have h1 := h.trans (keeps_serve v _)
  exact Keeps.ite (h1.trans (keeps_runArbiters v _ _)) h1

theorem keeps_takeStopRelease (g : Nat) (v : Env) (d : Live) : Keeps v d (takeStopRelease g v d) :=
  Keeps.ite (keeps_report v _ _) (Keeps.ite (keeps_report v _ _) (Keeps.ite (keeps_report v _ _)
    (keeps_releaseGroup v _ _)))

/-! ### Boundary and link requests -/

theorem keeps_setAcceptance (v : Env) (b : Nat) (a : Acceptance) (t : Option Time) (d : Live) :
    Keeps v d (setAcceptance b a t d) := (told_setAcceptance b a t d).keeps (shows_setAcceptance v b a t d)
theorem keeps_setDirection (v : Env) (b : Nat) (dir : Direction) (d : Live) :
    Keeps v d (setDirection b dir d) := (told_setDirection b dir d).keeps (shows_setDirection v b dir d)
theorem keeps_sendFrom (v : Env) (b : Nat) (f : Nat → NFrame) (d : Live) :
    Keeps v d (sendFrom v b f d) := (sent_sendFrom v b f d).keeps (shows_sendFrom v b f d)
theorem keeps_tryOffer (v : Env) (b : Nat) (d : Live) : Keeps v d (tryOffer v b d) :=
  (told_tryOffer v b d).keeps (shows_tryOffer v b d)
theorem keeps_tryAccept (v : Env) (b : Nat) (d : Live) : Keeps v d (tryAccept v b d) :=
  (told_tryAccept v b d).keeps (shows_tryAccept v b d)
theorem keeps_becomeOutward (v : Env) (b : Nat) (d : Live) : Keeps v d (becomeOutward v b d) :=
  (told_becomeOutward v b d).keeps (shows_becomeOutward v b d)
theorem keeps_event {v : Env} {b : Nat} {r : Option Nat} {f : Live → Live} {d : Live}
    (h : Keeps v d (f d)) : Keeps v d (boundaryEvent v b r f d) :=
  h.trans ((sent_boundaryEvent v b r f d).keeps (shows_boundaryEvent v b r f d))
theorem keeps_reportChange (v : Env) (b : Nat) (x : Boundary) (r : Option Nat) (d : Live) :
    Keeps v d (reportChange b x r d) := (sent_reportChange b x r d).keeps (shows_reportChange v b x r d)
theorem keeps_evaluateExit (v : Env) (b : Nat) (d : Live) : Keeps v d (evaluateExit v b d) :=
  (calm_evaluateExit v b d).keeps (shows_evaluateExit v b d)
theorem keeps_setLink (v : Env) (d : Live) (l : Nat) (f : Link → Link)
    (hf : ∀ k, k.within → (f k).within) : Keeps v d (d.setLink l f) :=
  (sent_setLink d l f hf).keeps (shows_setLink v d l f)
theorem keeps_leaveUp (v : Env) (l : Nat) (st : LinkState) (d : Live) : Keeps v d (leaveUp v l st d) :=
  (sent_leaveUp v l st d).keeps (shows_leaveUp v l st d)
theorem keeps_computeAspect (v : Env) (n : Nat) (d : Live) : Keeps v d (computeAspect v n d) :=
  (calm_computeAspect v n d).keeps (shows_computeAspect v n d)

theorem keeps_clearBoundaryFaults (v : Env) (b : Nat) (d : Live) :
    Keeps v d (clearBoundaryFaults v b d) := by
  unfold clearBoundaryFaults
  split
  · exact (keeps_endFault v _ _ _).trans (keeps_endFault v _ _ _)
  · exact Keeps.refl v _

theorem keeps_resetExit (v : Env) (b : Nat) (d : Live) (o : d.slotsOk v) :
    Keeps v d (resetExit v b d) := by
  unfold resetExit
  have full : ∀ i, (d.slot i).state ≠ .free → Keeps v d (holdFull v i d) := fun i h => by
    obtain ⟨rt, hr⟩ := o.2 i h
    exact keeps_holdFull v i rt d hr
  split
  · split
    · exact keeps_settingRelease v _ _ _ _
    · next h => exact full _ (by simp [h])
    · next h => exact full _ (by simp [h])
    · next h => exact full _ (by simp [h])
    · exact Keeps.refl v _
  · exact Keeps.refl v _

theorem resetStarts_berth (c : Bool) (t : Option Time) (x : Boundary) :
    (if c then { x with resetExpiry := t } else x.resetDone).berthLocked = x.berthLocked
      ∧ (if c then { x with resetExpiry := t } else x.resetDone).marks = x.marks := by
  cases c <;> exact ⟨rfl, rfl⟩

theorem resetStarts_exit (c : Bool) (t : Option Time) (x : Boundary) :
    (if c then { x with resetExpiry := t } else x.resetDone).exitSlot = x.exitSlot := by
  cases c <;> rfl

theorem keeps_applyReset (v : Env) (b : Nat) (d : Live) (o : d.slotsOk v) :
    Keeps v d (applyReset v b d) := by
  unfold applyReset
  refine Keeps.trans ?_ ((sent_handOnBoundary v b _ _).keeps (shows_handOnBoundary v b _ _))
  refine Keeps.trans ?_ (keeps_report v _ _)
  have h5 : ∀ (c : Bool) (e : Live), Keeps v e (if c then e else clearBoundaryFaults v b e) :=
    fun c e => Keeps.ite (Keeps.refl v e) (keeps_clearBoundaryFaults v b e)
  refine Keeps.trans ?_ (h5 _ _)
  have h1 : Keeps v d (d.setBoundary b (fun x =>
      { x with restricted := true, consExpiry := none, reqExpiry := none, waiting := false })) :=
    keeps_setBoundary v b _ d (fun _ => rfl) (fun _ => ⟨rfl, rfl⟩)
  have h3 : ∀ e, Keeps v d e → Keeps v d (if (e.boundary b).acceptance = .none then e
      else sendFrom v b .acceptCancel (setAcceptance b .none none e)) := fun e h =>
    Keeps.ite h ((h.trans (keeps_setAcceptance v _ _ _ _)).trans (keeps_sendFrom v _ _ _))
  refine (h3 _ (h1.trans (keeps_resetExit v b _ (h1.slots o)))).trans ?_
  exact keeps_setBoundary v b _ _ (fun x => by exact resetStarts_num _ _ _)
    (fun x => by exact resetStarts_berth _ _ _)
    (fun x _ h => (resetStarts_exit _ _ x).symm.trans h)

theorem keeps_takeBoundaryReset (b : Nat) (v : Env) (d : Live) (o : d.slotsOk v) :
    Keeps v d (takeBoundaryReset b v d) :=
  Keeps.ite (keeps_report v _ _) (Keeps.ite (keeps_report v _ _) (Keeps.ite (keeps_report v _ _)
    (keeps_applyReset v _ _ o)))

theorem keeps_takeLinkEnable (l : Nat) (v : Env) (d : Live) : Keeps v d (takeLinkEnable l v d) := by
  unfold takeLinkEnable
  split
  · exact keeps_report v _ _
  · exact Keeps.ite (Keeps.trans (by exact keeps_setLink v _ _ _ (fun _ h => h)) (keeps_report v _ _))
      (Keeps.refl v _)

theorem keeps_takeLinkDisable (l : Nat) (v : Env) (d : Live) : Keeps v d (takeLinkDisable l v d) := by
  unfold takeLinkDisable
  refine Keeps.ite (keeps_report v _ _) (Keeps.ite (keeps_report v _ _) ?_)
  split
  · exact Keeps.refl v _
  · exact keeps_leaveUp v _ _ _
  · exact (keeps_setLink v _ _ _ (fun _ _ => ⟨Nat.zero_le _, Nat.zero_le _⟩)).trans (keeps_report v _ _)

/-! ### Neighbour frames and link timers -/

theorem keeps_receive (v : Env) (l : Nat) (f : NFrame) (d : Live) : Keeps v d (receive v l f d) := by
  have w := whole_receive v l f d
  revert w
  unfold receive
  split
  · exact fun _ => Keeps.refl v _
  · split
    · intro w
      exact Keeps.of w (shows_setLink v d l _) (fun _ => SlotTold.refl _) (fun _ => ⟨rfl, rfl⟩) (fun _ _ => id)
        (fun _ => rfl) id
    · exact fun _ => Keeps.ite (keeps_leaveUp v _ _ _) (Keeps.refl v _)

theorem keeps_receiveBytes (v : Env) (l : Nat) (o : Bool) (bs : List Byte) (d : Live) :
    Keeps v d (receiveBytes v l o bs d) := by
  unfold receiveBytes
  refine Keeps.ite (Keeps.refl v d) ?_
  exact Keeps.trans (Keeps.foldl _ (fun d f => keeps_receive v l f d) _ d)
    (by exact keeps_setLink v _ _ _ (fun _ h => h))

theorem keeps_frameArrives (l : Nat) (f : NFrame) (v : Env) (d : Live) :
    Keeps v d (frameArrives l f v d) :=
  Keeps.ite (keeps_receive v l f d) (keeps_receiveBytes v l _ _ d)

theorem keeps_restartSilence (v : Env) (l : Nat) (d : Live) : Keeps v d (restartSilence v l d) :=
  keeps_setLink v _ _ _ (fun _ h => h)
theorem keeps_popFrame (v : Env) (l : Nat) (d : Live) : Keeps v d (popFrame l d) :=
  keeps_setLink v _ _ _ (fun k h => ⟨by
    have := h.1
    show (k.rx.drop 1).length ≤ _
    rw [List.length_drop]; omega, h.2⟩)

theorem keeps_takeFrame {α : Type} (v : Env) (l : Nat) (pick : NFrame → Option (Nat × α))
    (apply : Nat → α → Live → Live) (h : ∀ b a d, Keeps v d (apply b a d)) (d : Live) :
    Keeps v d (takeFrame v l pick apply d) := by
  unfold takeFrame
  split
  · simp only
    split
    · split
      · exact ((keeps_popFrame v _ _).trans (keeps_restartSilence v _ _)).trans (h _ _ _)
      · exact (keeps_popFrame v _ _).trans (keeps_restartSilence v _ _)
    · exact keeps_popFrame v _ _
  · exact Keeps.refl v _

theorem keeps_sendStatus (v : Env) (l : Nat) (d : Live) : Keeps v d (sendStatus v l d) :=
  (sent_sendStatus v l d).keeps (shows_sendStatus v l d)

theorem keeps_statusDue (l : Nat) (v : Env) (d : Live) : Keeps v d (statusDue l v d) := by
  unfold statusDue
  split
  · refine Keeps.ite ?_ (Keeps.refl v _)
    have h := keeps_setLink v d l (fun x => { x with nextStatus := some (after v.now
        ‹LinkDef›.interval) })
      (fun _ h => h)
    exact Keeps.ite (h.trans (keeps_sendStatus v _ _))
      (h.trans (keeps_setLink v _ _ _ (fun _ h => h)))
  · exact Keeps.refl v _

theorem keeps_frameSent (l : Nat) (v : Env) (d : Live) : Keeps v d (frameSent l v d) := by
  unfold frameSent
  refine Keeps.ite (Keeps.refl v _) ?_
  have h := keeps_setLink v d l (fun x => { x with tx := x.tx.drop 1 }) (fun k h => ⟨h.1, by
    have := h.2
    show (k.tx.drop 1).length ≤ _
    rw [List.length_drop]; omega⟩)
  exact Keeps.ite (h.trans (keeps_sendStatus v _ _)) h

/-! ### STATUS (R156) -/

theorem keeps_setB {v : Env} {b : Nat} {f : Boundary → Boundary} {d : Live} (hf : ∀ x, (f x).num = x.num)
    (hb : ∀ x, (f x).berthLocked = x.berthLocked ∧ (f x).marks = x.marks)
    (hx : ∀ x i, (f x).exitSlot = some i → x.exitSlot = some i := by exact fun _ _ h => h) :
    Keeps v d (d.setBoundary b f) := keeps_setBoundary v b f d hf hb hx

theorem keeps_waitingStep (v : Env) (b : Nat) (e : StatusEntry) (d : Live) :
    Keeps v d (waitingStep v b e d) := by
  unfold waitingStep
  refine Keeps.ite (Keeps.refl v _) (Keeps.ite (Keeps.ite ?_ (Keeps.refl v _)) ?_)
  · refine Keeps.trans ?_ (keeps_tryOffer v _ _)
    exact keeps_setB (fun _ => rfl) (fun _ => ⟨rfl, rfl⟩)
  · exact keeps_setB (fun _ => rfl) (fun _ => ⟨rfl, rfl⟩)

theorem keeps_reRequest (v : Env) (b : Nat) (p : Option StatusEntry) (e : StatusEntry) (f : Bool)
    (d : Live) : Keeps v d (reRequest v b p e f d) := by
  unfold reRequest
  have h : Keeps v d (if e.direction != .outward then trySeek v b d else d) :=
    Keeps.ite ((sent_trySeek v _ _).keeps (shows_trySeek v _ _)) (Keeps.refl v _)
  exact Keeps.ite (h.trans (keeps_tryAccept v _ _)) h

theorem keeps_consistencyStep (v : Env) (b : Nat) (e : Option StatusEntry) (d : Live) :
    Keeps v d (consistencyStep v b e d) := by
  unfold consistencyStep
  exact Keeps.ite (Keeps.refl v _) (Keeps.ite (keeps_setB (fun _ => rfl) (fun _ => ⟨rfl, rfl⟩))
    (Keeps.ite (Keeps.refl v _) (keeps_setB (fun _ => rfl) (fun _ => ⟨rfl, rfl⟩))))

theorem keeps_exitAspect (v : Env) (b : Nat) (d : Live) : Keeps v d (exitAspect v b d) := by
  unfold exitAspect
  split
  · split
    · exact Keeps.ite (keeps_computeAspect v _ _) (Keeps.refl v _)
    · exact Keeps.refl v _
  · exact Keeps.refl v _

theorem Keeps.iteRelease {v : Env} {d : Live} {a b : Release} {c : Prop} [Decidable c]
    (h : Keeps v d a.live) (k : Keeps v d b.live) : Keeps v d (if c then a else b).live := by
  split
  · exact h
  · exact k

theorem keeps_entryEnd (v : Env) (b : Nat) (x : Boundary) (y : StatusEntry) (p : Option StatusEntry)
    (f : Bool) (r : Release) (d : Live) (h : Keeps v d r.live) :
    Keeps v d (finishBerth v b x (resetEnded x b (waitingStep v b y (reRequest v b p y f r.live)))
      { r with live := waitingStep v b y (reRequest v b p y f r.live) }) :=
  ((h.trans (keeps_reRequest v _ _ _ _ _)).trans (keeps_waitingStep v _ _ _)).trans
    (keeps_finishBerth v _ _ _ { r with live := waitingStep v b y (reRequest v b p y f r.live) })

theorem keeps_applyViews (v : Env) (b : Nat) (p : Option StatusEntry) (y : StatusEntry) (f : Bool)
    (d : Live) : Keeps v d (applyViews v b p y f d) := by
  unfold applyViews
  refine keeps_entryEnd v _ _ _ _ _ _ _ ?_
  have h : ∀ c : Bool, Keeps v d (if c then tryOffer v b (setAcceptance b .none none d) else d) :=
    fun c => Keeps.ite ((keeps_setAcceptance v b _ _ d).trans (keeps_tryOffer v _ _)) (Keeps.refl v d)
  exact Keeps.iteRelease ((h _).trans (keeps_berthWhole v b (Release.start _))) (h _)

theorem keeps_applyEntry (v : Env) (b : Nat) (e : Option StatusEntry) (f : Bool) (d : Live) :
    Keeps v d (applyEntry v b e f d) := by
  unfold applyEntry
  refine Keeps.ite (Keeps.refl v _) ?_
  refine Keeps.trans ?_ (keeps_consistencyStep v _ _ _)
  have h1 : ∀ hm : Boundary → Aspect,
      Keeps v d (d.setBoundary b (fun x => { x with views := e, home := hm x })) :=
    fun hm => keeps_setB (fun _ => rfl) (fun _ => ⟨rfl, rfl⟩)
  have h2 : ∀ (c : Bool) (d1 : Live), Keeps v d d1 →
      Keeps v d (if c then exitAspect v b d1 else d1) := fun c d1 h =>
    Keeps.ite (h.trans (keeps_exitAspect v _ _)) h
  cases e with
  | none =>
    have h3 := fun c => h2 c _ (h1 Boundary.home)
    exact Keeps.ite ((h3 _).trans (keeps_event (keeps_tryAccept v b _))) (h3 _)
  | some y => exact (h2 _ _ (h1 _)).trans (keeps_applyViews v b _ y f _)

theorem keeps_edge (v : Env) (src : Source) (was : Bool) (d : Live) : Keeps v d (edge v src was d) :=
  (watched_edge v src was d).keeps (shows_edge v src was d)

theorem keeps_applyStatus (v : Env) (l : Nat) (stop : Bool) (es : List StatusEntry) (f was : Bool)
    (d : Live) : Keeps v d (applyStatus v l stop es f was d) := by
  unfold applyStatus
  refine Keeps.trans ?_ (Keeps.foldl _ (fun d bd => keeps_applyEntry v _ _ _ _) _ _)
  exact Keeps.trans (by exact keeps_setLink v _ _ _ (fun _ h => h)) (keeps_edge v _ _ _)

theorem keeps_takeStatus (v : Env) (l : Nat) (d : Live) : Keeps v d (takeStatus v l d) := by
  unfold takeStatus
  split
  · simp only
    split
    · exact ((keeps_popFrame v _ _).trans (keeps_restartSilence v _ _)).trans
        (keeps_applyStatus v _ _ _ _ _ _)
    · exact keeps_popFrame v _ _
    · exact (((keeps_popFrame v _ _).trans
        ((sent_becomeUp v _ _).keeps (shows_becomeUp v _ _))).trans (keeps_serve v _)).trans
        (keeps_applyStatus v _ _ _ _ _ _)
  · exact Keeps.refl v _

/-! ### Direction and acceptance frames -/

theorem keeps_contestEqual (v : Env) (b : Nat) (d : Live) : Keeps v d (contestEqual v b d) := by
  unfold contestEqual
  extract_lets before d1 d2 d3 d4 d5
  have h2 : Keeps v d d2 :=
    Keeps.trans (by exact keeps_setB (fun _ => rfl) (fun _ => ⟨rfl, rfl⟩)) (keeps_sendFrom v _ _ _)
  have h3 : Keeps v d d3 := by
    unfold d3
    split
    · exact h2.trans (keeps_raise v _ _ _ _)
    · exact h2
  have h4 : Keeps v d d4 := h3.trans (keeps_reportChange v _ _ _ _)
  have h5 : Keeps v d d5 := by
    unfold d5
    split
    · exact h4.trans (keeps_failSetting v _ _ _)
    · exact h4
  exact (h5.trans (keeps_evaluateExit v _ _)).trans (keeps_setReeval v _ _)

theorem keeps_applyDirRequest (v : Env) (b : Nat) (q : Seniority) (d : Live) :
    Keeps v d (applyDirRequest v b q d) := by
  have hw : Keeps v d (tryOffer v b (sendFrom v b .dirRefuse
      (d.setBoundary b (fun x => { x with waiting := true })))) :=
    (Keeps.trans (by exact keeps_setB (fun _ => rfl) (fun _ => ⟨rfl, rfl⟩)) (keeps_sendFrom v _ _ _)).trans
      (keeps_tryOffer v _ _)
  have hg : ∀ e, Keeps v d e → Keeps v d (sendFrom v b .dirGrant (setDirection b .inward e)) :=
    fun e h => (h.trans (keeps_setDirection v _ _ _)).trans (keeps_sendFrom v _ _ _)
  unfold applyDirRequest
  refine Keeps.ite (keeps_event (keeps_sendFrom v _ _ _)) (Keeps.ite ?_ ?_)
  · unfold contest
    simp only
    split
    · exact keeps_event hw
    · exact keeps_event (hg _ (by exact keeps_setB (fun _ => rfl) (fun _ => ⟨rfl, rfl⟩)))
    · exact keeps_contestEqual v _ _
  · split
    · exact Keeps.ite (keeps_event hw)
        (keeps_event (hg _ (by exact keeps_setB (fun _ => rfl) (fun _ => ⟨rfl, rfl⟩))))
    · exact keeps_event (hg _ (Keeps.refl v _))

theorem keeps_applyDirGrant (v : Env) (b : Nat) (d : Live) : Keeps v d (applyDirGrant v b d) :=
  Keeps.ite (keeps_event (keeps_becomeOutward v _ _)) (Keeps.refl v _)
theorem keeps_applyDirRefuse (v : Env) (b : Nat) (d : Live) : Keeps v d (applyDirRefuse b d) :=
  keeps_setB (fun _ => rfl) (fun _ => ⟨rfl, rfl⟩)
theorem keeps_applyDirOffer (v : Env) (b : Nat) (d : Live) : Keeps v d (applyDirOffer v b d) :=
  Keeps.ite (keeps_event (keeps_becomeOutward v _ _)) (Keeps.refl v _)

theorem lock_lockBerth (bd : BoundaryDef) (d : Live) (n : Nat) :
    ((lockBerth bd d).control n).lock = (d.control n).lock
      ∨ (n ∈ bd.berth ∧ ((lockBerth bd d).control n).lock
          = some { holder := .berth bd.number, mode := .berth }) := by
  have h : ∀ (ns : List Nat) (d : Live), let e := ns.foldl (fun d n => d.setControl n (fun c =>
      { c with lock := some { holder := .berth bd.number, mode := .berth } })) d
      (e.control n).lock = (d.control n).lock
        ∨ (n ∈ ns ∧ (e.control n).lock = some { holder := .berth bd.number, mode := .berth }) := by
    intro ns
    induction ns with
    | nil => exact fun _ => .inl rfl
    | cons k ks ih =>
      intro d
      rcases ih (d.setControl k (fun c =>
        { c with lock := some { holder := .berth bd.number, mode := .berth } })) with e | ⟨a, b⟩
      · simp only [List.foldl_cons]
        rw [e, d.control_setControl k n _ (by exact fun _ => rfl)]
        split
        · next q => exact .inr ⟨by simp [q.1], rfl⟩
        · exact .inl rfl
      · exact .inr ⟨List.mem_cons_of_mem _ a, b⟩
  exact h bd.berth d

theorem lockBerth_rest (v : Env) (bd : BoundaryDef) (d : Live) :
    Shows v d (lockBerth bd d) ∧ (lockBerth bd d).slots = d.slots
      ∧ (lockBerth bd d).boundaries = d.boundaries ∧ (lockBerth bd d).stored = d.stored
      ∧ ∀ q, (lockBerth bd d).counted q = d.counted q := by
  unfold lockBerth
  generalize bd.berth = ns
  induction ns generalizing d with
  | nil => exact ⟨Shows.refl v d, rfl, rfl, rfl, fun _ => rfl⟩
  | cons k ks ih =>
    obtain ⟨a, b, c, e, f⟩ := ih (d.setControl k (fun c =>
      { c with lock := some { holder := .berth bd.number, mode := .berth } }))
    refine ⟨(shows_setControl v d k _ (by exact fun _ => ⟨rfl, rfl, rfl⟩)).trans a, b, c, e, fun q => ?_⟩
    exact (f q).trans (counted_setControl k _ (by exact fun _ => rfl) (by exact fun _ => ⟨rfl, rfl, rfl⟩) q)

theorem boundary?_number {v : Env} {b : Nat} {bd : BoundaryDef} (h : v.boundary? b = some bd) :
    bd.number = b := by
  have := List.find?_some h
  simpa using this

/-- A berth locked while it was FREE. -/
theorem keeps_berthLocked (v : Env) (b : Nat) (bd : BoundaryDef) (d : Live)
    (hb : v.boundary? b = some bd) (hf : (d.boundary b).berthLocked = false) :
    Keeps v d ((lockBerth bd d).setBoundary b (fun x =>
      { x with berthLocked := true, marks := bd.berth.map (fun _ => Mark.none) })) := by
  obtain ⟨a1, a2, a3, a4, a5⟩ := lockBerth_rest v bd d
  have hnum := boundary?_number hb
  set e := (lockBerth bd d).setBoundary b (fun x =>
      { x with berthLocked := true, marks := bd.berth.map (fun _ => Mark.none) }) with he
  have w : Whole d e := (whole_lockBerth bd d).trans (whole_setBoundary _ b _ (by exact fun _ => rfl))
  have hs : ∀ i, e.slot i = d.slot i := Live.slot_congr a2
  refine ⟨⟨w, a1.trans (shows_setBoundary v _ b _), ?_, ?_, ?_,
    exitsTied_keep (fun c i h => ?_) (fun i rt h => ?_)⟩, ?_⟩
  · exact slotsOk_told (fun i => by rw [hs]; exact SlotTold.refl _)
  · intro t _ l n k hk
    have hbd : (lockBerth bd d).hasBoundary b := by
      have := t b bd hb
      unfold Live.hasBoundary at *
      rwa [a3]
    have eb : e.boundary b = { (lockBerth bd d).boundary b with
        berthLocked := true, marks := bd.berth.map (fun _ => Mark.none) } := by
      rw [he, Live.boundary_setBoundary _ b b _ (by exact fun _ => rfl)]
      simp [hbd]
    have eo : ∀ c, c ≠ b → e.boundary c = d.boundary c := by
      intro c hc
      rw [he, Live.boundary_setBoundary _ b c _ (by exact fun _ => rfl)]
      simp [hc, Live.boundary_congr a3]
    have hk' : ((lockBerth bd d).control n).lock = some k := hk
    rcases lock_lockBerth bd d n with q | ⟨q1, q2⟩
    · rw [q] at hk'
      have own := l n k hk'
      refine lockOwned_keep own (fun i rt _ hr => ?_) (fun c bd' hc hl _ hm => ?_)
      · have hr' : e.routeOf v i = some rt := by
          rw [routeOf_eq (d := d) (by rw [hs]) (by rw [hs])]; exact hr
        rw [hs]; exact ⟨hr', id, id⟩
      · have hcb : c ≠ b := by rintro rfl; rw [hf] at hl; cases hl
        rw [eo c hcb]; exact ⟨hl, hm⟩
    · rw [q2] at hk'
      cases hk'
      unfold Live.lockOwned
      rw [hnum]
      show LockMode.berth = LockMode.berth ∧ (e.boundary b).berthLocked = true ∧ _
      rw [eb]
      refine ⟨rfl, rfl, bd, hb, ?_⟩
      obtain ⟨j, hj⟩ := List.getElem?_of_mem q1
      refine ⟨(n, Mark.none), ?_, rfl, rfl⟩
      apply List.mem_of_getElem? (i := j)
      rw [List.getElem?_zip_eq_some]
      exact ⟨hj, by show (bd.berth.map _)[j]? = _; rw [List.getElem?_map, hj]; rfl⟩
  · exact fun _ => countsTied_same w (fun i => by rw [hs]) (fun q => a5 q)
  · have := exitSlot_setBoundary (lockBerth bd d) b _ (by exact fun _ => rfl) (by exact fun _ => rfl) c i h
    rwa [Live.boundary_congr a3] at this
  · rw [routeOf_eq (d := d) (by rw [hs]) (by rw [hs]), h]
  · exact fun _ h => ⟨a4.trans h, fun i => by rw [hs]; exact id⟩

theorem keeps_applyAcceptRequest (v : Env) (b : Nat) (d : Live) :
    Keeps v d (applyAcceptRequest v b d) := by
  unfold applyAcceptRequest
  split
  · next bd hb =>
    split
    · exact keeps_event (keeps_sendFrom v _ _ _)
    · next hn =>
      refine keeps_event (Keeps.trans (keeps_berthLocked v b bd d hb ?_) (keeps_sendFrom v _ _ _))
      unfold berthRefusal at hn
      simp only at hn
      rw [boundary?_number hb] at hn
      split at hn
      · cases hn
      · split at hn
        · cases hn
        · next k =>
          simp only [Bool.or_eq_true, not_or, Bool.not_eq_true] at k
          exact k.1
  · exact Keeps.refl v _

theorem keeps_applyAcceptGrant (v : Env) (b : Nat) (h : Aspect) (d : Live) :
    Keeps v d (applyAcceptGrant v b h d) := by
  unfold applyAcceptGrant
  refine Keeps.ite ?_ (keeps_event (keeps_sendFrom v _ _ _))
  have h1 : Keeps v d (boundaryEvent v b none (fun d =>
      setAcceptance b .held none (d.setBoundary b (fun x => { x with home := h }))) d) :=
    keeps_event (Keeps.trans (by exact keeps_setB (fun _ => rfl) (fun _ => ⟨rfl, rfl⟩))
      (keeps_setAcceptance v _ _ _ _))
  exact Keeps.ite (h1.trans (keeps_exitAspect v _ _)) h1

theorem keeps_applyAcceptRefuse (v : Env) (b r : Nat) (d : Live) :
    Keeps v d (applyAcceptRefuse v b r d) :=
  Keeps.ite (keeps_event ((keeps_setAcceptance v _ _ _ _).trans (keeps_tryOffer v _ _)))
    (Keeps.refl v _)

theorem keeps_applyAcceptCancel (v : Env) (b : Nat) (d : Live) :
    Keeps v d (applyAcceptCancel v b d) := by
  unfold applyAcceptCancel
  exact Keeps.ite ((keeps_berthWhole v b (Release.start d)).trans (keeps_finishBerth v _ _ _ _))
    (Keeps.refl v _)

/-! ### The Handover Controller's timers -/

theorem keeps_linkSilent (l : Nat) (v : Env) (d : Live) : Keeps v d (linkSilent l v d) :=
  Keeps.ite (keeps_leaveUp v _ _ _) (Keeps.refl v _)
theorem keeps_dirRequestDue (b : Nat) (v : Env) (d : Live) : Keeps v d (dirRequestDue b v d) :=
  Keeps.ite (keeps_setB (fun _ => rfl) (fun _ => ⟨rfl, rfl⟩)) (Keeps.refl v _)
theorem keeps_acceptanceDue (b : Nat) (v : Env) (d : Live) : Keeps v d (acceptanceDue b v d) :=
  Keeps.ite (keeps_event ((keeps_setAcceptance v _ _ _ _).trans (keeps_tryOffer v _ _)))
    (Keeps.refl v _)

theorem keeps_consistencyDue (b : Nat) (v : Env) (d : Live) : Keeps v d (consistencyDue b v d) := by
  unfold consistencyDue
  refine Keeps.ite (Keeps.trans ?_ (keeps_evaluateExit v _ _)) (Keeps.refl v _)
  have h1 : Keeps v d (d.setBoundary b (fun x => { x with consExpiry := none, restricted := true })) :=
    keeps_setB (fun _ => rfl) (fun _ => ⟨rfl, rfl⟩)
  have h2 : ∀ e, Keeps v d e → Keeps v d (match v.boundary? b with
      | some bd => raise v bd.element .restricted none e | none => e) := by
    intro e h
    split
    · exact h.trans (keeps_raise v _ _ _ _)
    · exact h
  have h4 : ∀ e, Keeps v d e → Keeps v d (match (e.boundary b).exitSlot with
      | some i => failSetting v i .boundaryUnavailable e | none => e) := by
    intro e h
    split
    · exact h.trans (keeps_failSetting v _ _ _)
    · exact h
  exact h4 _ ((h2 _ h1).trans (keeps_reportChange v _ _ _ _))

theorem keeps_resetDue (b : Nat) (v : Env) (d : Live) : Keeps v d (resetDue b v d) :=
  Keeps.ite ((keeps_berthWhole v b (Release.start d)).trans (keeps_finishBerth v _ _ _ _))
    (Keeps.refl v _)

/-! ### The other timers -/

theorem keeps_settingDue (i : Nat) (v : Env) (d : Live) : Keeps v d (settingDue i v d) :=
  Keeps.ite (keeps_failSetting v _ _ _) (Keeps.refl v _)

theorem keeps_storedDue (r : Nat) (v : Env) (d : Live) : Keeps v d (storedDue r v d) := by
  unfold storedDue
  split
  · exact Keeps.ite ((keeps_dropStored v _ _).trans (keeps_report v _ _)) (Keeps.refl v _)
  · exact Keeps.refl v _

theorem keeps_overlapDue (i : Nat) (v : Env) (d : Live) : Keeps v d (overlapDue i v d) :=
  Keeps.ite (keeps_overlapWhole v _ _) (Keeps.refl v _)

theorem keeps_holdDue (i : Nat) (v : Env) (d : Live) : Keeps v d (holdDue i v d) := by
  unfold holdDue
  split
  · next h =>
    simp only [Bool.and_eq_true, decide_eq_true_eq] at h
    exact keeps_giveUpSlot v i _ _ d (by simp [Slot.needsExit, h.1])
  · exact Keeps.refl v _

theorem keeps_speedAged (n : Nat) (v : Env) (d : Live) : Keeps v d (speedAged n v d) := by
  unfold speedAged
  split
  · exact Keeps.ite (keeps_setControl v n _ d (fun _ => ⟨rfl, rfl, rfl⟩)) (Keeps.refl v _)
  · exact Keeps.refl v _

theorem keeps_staggerDue (g : Nat) (v : Env) (d : Live) : Keeps v d (staggerDue g v d) :=
  Keeps.ite (Keeps.trans ((moved_setPower d g _).keeps (shows_setPower v d g _)) (keeps_runArbiter v _ _))
    (Keeps.refl v _)

theorem keeps_settleDue (p : Nat) (v : Env) (d : Live) : Keeps v d (settleDue p v d) := by
  unfold settleDue
  split
  · exact Keeps.ite (keeps_flightDone v _ _ _) (Keeps.refl v _)
  · exact Keeps.refl v _

theorem keeps_confirmDue (n : Nat) (v : Env) (d : Live) : Keeps v d (confirmDue n v d) := by
  unfold confirmDue
  refine Keeps.ite (Keeps.trans ?_ (keeps_raise v _ _ _ _)) (Keeps.refl v _)
  exact keeps_setControl v n _ d (fun _ => ⟨rfl, rfl, rfl⟩)

end Sys2Proof.Machine
end

