-- ==== Sys2Proof/Laws/KeepsThrows.lean ====
section
/-! SUPPORT. What a failed throw keeps of the aspects, the slots, the locks and the flank counts (R71, R88 to
R92, R106). -/

namespace Sys2Proof.Machine

open Sys2Proof

/-- One protector of a requirement given up and another taken for it: the counts follow (R89). -/
theorem keeps_swapRecord (v : Env) (i k : Nat) (p q : Protector) (h x : FlankHold) (r : Release)
    (hk : (r.live.slot i).flank[k]? = some h) (hp : h.protector = some p) (hx : x.protector = some q) :
    Keeps v r.live ((takeProtector v q (r.giveUp p).live).setSlot i
      (fun s => { s with flank := s.flank.set k x })) := by
  obtain ⟨g1, g2, g3, g4⟩ := giveUp_same p r
  obtain ⟨a1, a2, a3, a4, a5, a6, a7, a8⟩ := takeProtector_all v q (r.giveUp p).live
  set t := takeProtector v q (r.giveUp p).live with ht
  set f := fun s : Slot => { s with flank := s.flank.set k x } with hf
  have hi := slot_lt_of_flank hk
  have gs : ∀ j, (r.giveUp p).live.slot j = r.live.slot j := fun j => Live.slot_congr g1 j
  have w : Whole r.live (t.setSlot i f) :=
    ((whole_giveUp p r).trans (whole_takeProtector v q _)).trans (whole_setSlot _ i f)
  have hi' : i < t.slots.length := by rw [a3, g1]; exact hi
  have hs : (t.setSlot i f).slot i = f (t.slot i) := setSlot_slot_self hi' f
  have hn : ∀ j, j ≠ i → (t.setSlot i f).slot j = t.slot j := fun j hj => setSlot_slot_ne hj f
  have mv : ∀ j, SlotMoves (r.live.slot j) (t.slot j) := fun j => by
    have := a4 j
    rwa [gs] at this
  have hnf : t.slot i ≠ Slot.free := fun e => by
    have := (mv i).flank
    rw [e] at this
    rw [← this] at hk
    simp [Slot.free] at hk
  have sh : ∀ j, (r.live.slot j).sameHold ((t.setSlot i f).slot j) := by
    intro j
    have a := (mv j).told.sameHold
    by_cases e : j = i
    · subst e; rw [hs]; exact a
    · rw [hn j e]; exact a
  refine ⟨⟨w, ((shows_giveUp v p r).trans (shows_takeProtector v q _)).trans
    (shows_setSlot v _ i f ⟨rfl, rfl⟩), fun o => ?_, fun _ _ l n y hy => ?_, fun _ c z hz => ?_,
    exitsTied_keep (fun b j h => ?_) (fun j rt h => by rw [routeOf_eq (sh j).2.1 (sh j).1, h])⟩,
    fun _ hst => ⟨a5.trans (g3.trans hst), fun j hj => ?_⟩⟩
  · exact slotsOk_setSlot ⟨rfl, rfl⟩ (fun e => absurd e hnf) (slotsOk_told (fun j => (mv j).told) o)
  · have hy' : (t.control n).lock = some y := hy
    rw [a1, g4] at hy'
    refine lockOwned_same (l n y hy') sh (fun b => ?_)
    have hb : (t.setSlot i f).boundary b = r.live.boundary b := Live.boundary_congr (a7.trans g2) b
    rw [hb]; exact ⟨rfl, rfl⟩
  · have hz' : r.live.hasControl z.element := by unfold Live.hasControl at *; rwa [w.nums] at hz
    have hz2 : (r.giveUp p).live.hasControl z.element := by
      unfold Live.hasControl at *; rwa [(whole_giveUp p r).nums]
    have e1 : (t.setSlot i f).counted z = t.counted z := by cases z <;> rfl
    rw [e1, show t.counted z = _ from counted_takeProtector v q z _, counted_giveUp, counted_giveUp]
    have e2 := protecting_change (d := r.live) (e := t.setSlot i f) (by rw [w.slotCount]) hi
      (fun j hj => by rw [hn j hj, (mv j).flank]) z
    rw [hs] at e2
    have e3 : (f (t.slot i)).holdsOf z + (if h.protector = some z then 1 else 0)
        = (r.live.slot i).holdsOf z + (if x.protector = some z then 1 else 0) := by
      rw [← holdsOf_set (s := r.live.slot i) (x := x) hk z]
      unfold Slot.holdsOf; rw [hf]; simp only; rw [(mv i).flank]
    have e5 := c z hz'
    rw [hp, hx] at e3
    by_cases ep : z = p
    · subst ep
      by_cases eq : z = q
      · subst eq
        simp only [if_true] at e3
        rw [if_pos ⟨rfl, hz2⟩, if_pos ⟨rfl, hz'⟩]
        have : 0 < (r.live.slot i).holdsOf z := by
          unfold Slot.holdsOf
          exact List.countP_pos_iff.2 ⟨h, List.mem_of_getElem? hk, by simp [hp]⟩
        have e6 : (r.live.slot i).holdsOf z ≤ r.live.protecting z := by
          rw [protecting_eq]
          exact List.single_le_sum (by simp) _ (List.mem_map.2 ⟨i, by simpa using hi, rfl⟩)
        omega
      · rw [if_neg (fun k => eq k.1), if_pos ⟨rfl, hz'⟩]
        rw [if_pos rfl, if_neg (by simpa using fun k : q = z => eq k.symm)] at e3
        omega
    · by_cases eq : z = q
      · subst eq
        rw [if_pos ⟨rfl, hz2⟩, if_neg (fun k => ep k.1)]
        rw [if_neg (by simpa using fun k : p = z => ep k.symm), if_pos rfl] at e3
        omega
      · rw [if_neg (fun k => eq k.1), if_neg (fun k => ep k.1)]
        rw [if_neg (by simpa using fun k : p = z => ep k.symm),
          if_neg (by simpa using fun k : q = z => eq k.symm)] at e3
        omega
  · have hb : (t.setSlot i f).boundary b = r.live.boundary b := Live.boundary_congr (a7.trans g2) b
    rwa [hb] at h
  · by_cases e : j = i
    · subst e
      rw [hs] at hj
      exact (mv j).told.set hj
    · rw [hn j e] at hj
      exact (mv j).told.set hj

/-- A requirement given up and marked RELEASED after it. -/
theorem giveUp_released (i k : Nat) (p : Protector) (h : FlankHold) (r : Release)
    (hk : (r.live.slot i).flank[k]? = some h) (hp : h.protector = some p) :
    (r.giveUp p).live.setSlot i (fun s => { s with flank := s.flank.set k FlankHold.released })
      = (r.giveUpRecord i k).live := by
  unfold Release.giveUpRecord
  rw [hk]
  simp only [hp]
  cases p with
  | point n pos =>
    have e : ∀ f, (r.live.setSlot i f).control n = r.live.control n := fun _ => rfl
    unfold Release.giveUp
    simp only [e]
    split <;> rfl
  | signal n =>
    have e : ∀ f, (r.live.setSlot i f).control n = r.live.control n := fun _ => rfl
    unfold Release.giveUp
    simp only [e]
    split <;> rfl

/-- One re-search (R89): what it keeps, and that the other requirements of the slot stand. -/
theorem keeps_reSearch (v : Env) (i k p : Nat) (pos : Position) (r : Release)
    (h : ∀ x, (r.live.slot i).flank[k]? = some x → x.protector = some (.point p pos)) :
    Keeps v r.live (reSearch v i k p pos r).1.live
      ∧ ∀ j, j ≠ k → ((reSearch v i k p pos r).1.live.slot i).flank[j]? = (r.live.slot i).flank[j]? := by
  unfold reSearch
  split
  · next x hx =>
    have hp := h x hx
    simp only
    split
    · next q way _ =>
      refine ⟨keeps_swapRecord v i k (.point p pos) q x _ r hx hp rfl, fun j hj => ?_⟩
      obtain ⟨g1, _⟩ := giveUp_same (.point p pos) r
      obtain ⟨_, _, a3, a4, _⟩ := takeProtector_all v q (r.giveUp (.point p pos)).live
      have := (a4 i).flank
      rw [Live.slot_congr g1 i] at this
      show ((Live.setSlot _ i _).slot i).flank[j]? = _
      rw [Live.slot_setSlot]
      split
      · simp only
        rw [List.getElem?_set_ne (Ne.symm hj), this]
      · rw [this]
    · have e := giveUp_released i k (.point p pos) x r hx hp
      refine ⟨?_, fun j hj => ?_⟩
      · show Keeps v r.live (Live.setSlot _ i _)
        rw [e]
        exact keeps_giveUpRecord v i k r
      · show ((Live.setSlot _ i _).slot i).flank[j]? = _
        rw [e, giveUpRecord_slot]
        simp only [if_true]
        rw [List.getElem?_set_ne (Ne.symm hj)]
  · exact ⟨Keeps.refl v _, fun _ _ => rfl⟩

theorem keeps_reSearches (v : Env) (i p : Nat) (pos : Position) (ks : List Nat) (hd : ks.Nodup)
    (r : Release) (h : ∀ k ∈ ks, ∀ x, (r.live.slot i).flank[k]? = some x →
      x.protector = some (.point p pos)) :
    Keeps v r.live (reSearches v i p pos ks r).1.live := by
  induction ks generalizing r with
  | nil => exact Keeps.refl v _
  | cons k ks ih =>
    obtain ⟨a, b⟩ := keeps_reSearch v i k p pos r (h k List.mem_cons_self)
    rw [List.nodup_cons] at hd
    unfold reSearches
    split
    · next e =>
      rw [e] at a b
      exact a.trans (ih hd.2 _ (fun j hj x hx => h j (List.mem_cons_of_mem _ hj) x (by
        rw [← b j (by rintro rfl; exact hd.1 hj)]; exact hx)))
    · next e => rw [e] at a; exact a

theorem nodup_failedRecords (s : Slot) (p : Nat) (pos : Position) : (failedRecords s p pos).Nodup := by
  unfold failedRecords
  apply List.Nodup.sublist (List.Sublist.map _ List.filter_sublist)
  rw [List.zipIdx_map_snd]
  exact List.nodup_range'

theorem mem_failedRecords {s : Slot} {p k : Nat} {pos : Position} (h : k ∈ failedRecords s p pos) :
    ∀ x, s.flank[k]? = some x → x.protector = some (.point p pos) := by
  intro x hx
  unfold failedRecords at h
  simp only [List.mem_map, List.mem_filter, decide_eq_true_eq] at h
  obtain ⟨⟨y, j⟩, ⟨hm, hy⟩, rfl⟩ := h
  rw [List.mem_zipIdx_iff_getElem?] at hm
  simp only at hm hy hx
  rw [hm] at hx
  cases hx
  exact hy

theorem keeps_failReSearch (v : Env) (i : Nat) (r : Release) : Keeps v r.live (failReSearch v i r) := by
  unfold failReSearch
  split
  · next rt hr =>
    have t := (told_releaseExit v i false r.live).slot i
    have hr1 : (releaseExit v i false r.live).routeOf v i = some rt := by rw [routeOf_told t, hr]
    have k := (keeps_releaseExit v i false r.live).thenBut
      (keepsBut_wholeRelease v i rt { r with live := releaseExit v i false r.live } hr1 (not_exit_releaseExit hr))
    refine KeepsBut.computed (KeepsBut.mono (((((k.then (keeps_handOn v _)).then
      (keeps_report v _ _)).then (keeps_setReeval v _ _)).then (keeps_serve v _))) (fun n hn => ?_))
    obtain ⟨_, rt', b, c⟩ := hn
    have b' : (releaseExit v i false r.live).routeOf v i = some rt' := b
    rw [hr1] at b'
    cases b'
    exact c.symm
  · exact keeps_handOn v _

theorem keeps_reSearchSlot (v : Env) (p : Nat) (pos : Position) (t : Option Time) (i : Nat)
    (d : Live) : Keeps v d (reSearchSlot v p pos t i d) := by
  unfold reSearchSlot
  refine Keeps.ite (Keeps.refl v _) ?_
  have h := keeps_reSearches v i p pos (failedRecords (d.slot i) p pos) (nodup_failedRecords _ _ _)
    (Release.start d) (fun k hk => mem_failedRecords hk)
  split
  · next e => rw [e] at h; exact h.trans (keeps_failReSearch v _ _)
  · next e =>
    rw [e] at h
    refine Keeps.trans ?_ (keeps_testPositioning v _ _)
    have k := (h.trans (keeps_handOn v _)).trans (keeps_serve v _)
    have put : ∀ d2, Keeps v d2 (d2.setSlot i (Slot.retimed t)) := fun d2 =>
      keeps_setSlot_same v i _ d2 (by unfold Slot.retimed; split <;> exact ⟨rfl, rfl, rfl, rfl, rfl⟩)
        (fun e => by rw [e]; rfl)
    exact Keeps.trans (k.trans (keeps_handOrders v _ _ _)) (put _)

theorem keeps_throwFailed (v : Env) (p : Nat) (pos : Position) (d : Live) :
    Keeps v d (throwFailed v p pos d) := by
  unfold throwFailed
  refine Keeps.trans ?_ (Keeps.foldl _ (fun d i => keeps_failSetting v i _ d) _ _)
  refine Keeps.trans ?_ (Keeps.foldl _ (fun e i => keeps_reSearchSlot v p pos _ i e) _ _)
  exact Keeps.foldl _ (fun d i => keeps_setSlot_same v i _ d ⟨rfl, rfl, rfl, rfl, rfl⟩
    (fun e => by rw [e]; rfl)) _ _

theorem keeps_throwDue (p : Nat) (v : Env) (d : Live) : Keeps v d (throwDue p v d) := by
  unfold throwDue
  split
  · refine Keeps.ite ?_ (Keeps.refl v _)
    refine Keeps.trans ?_ (keeps_runArbiter v _ _)
    refine Keeps.trans ?_ (keeps_evaluateElement v _ _)
    refine Keeps.trans ?_ (keeps_throwFailed v _ _ _)
    exact ((moved_failFlight v _ _).keeps (shows_failFlight v _ _)).trans (keeps_raise v _ _ _ _)
  · exact Keeps.refl v _

end Sys2Proof.Machine
end

