-- ==== Sys2Proof/Laws/StartUp.lean ====
section
/-! SUPPORT. What a load and a restart leave: no slot held, the groups latched by their asserted sources (R132,
R176, R177). -/

namespace Sys2Proof.Machine

open Sys2Proof

/-- The restart values: no slot is active and every aspect is STOP (R177). -/
structure NothingHeld (d : Live) : Prop where
  slot : ∀ i, d.slot i = Slot.free
  stop : ∀ n, (d.control n).aspect = .stop

theorem NothingHeld.routeOf {d : Live} (h : NothingHeld d) (v : Env) (i : Nat) : d.routeOf v i = none := by
  unfold Live.routeOf; rw [h.slot]; rfl

theorem NothingHeld.computeAspect {d : Live} (h : NothingHeld d) (v : Env) (n : Nat) : computeAspect v n d = d := by
  have wanted : wantedAspect v d n = .stop := by
    unfold wantedAspect
    have : clearedFrom v d n = none := by
      unfold clearedFrom
      rw [List.findSome?_eq_none_iff]
      intro i _; rw [h.slot]; rfl
    rw [this]
  have chain : computeChain v 50 n d = d := by
    unfold computeChain
    simp only [wanted, h.stop, if_true]
  exact computeTurns_still v 49 n d chain

theorem NothingHeld.latch {d : Live} (h : NothingHeld d) (v : Env) (src : Source) (g : Nat) :
    latch v src g d = d ∨ latch v src g d = (d.setGroup g (fun _ => { active := true, since := some v.now, source := some src })).report (.groupState g true (some src)) := by
  unfold Sys2Proof.Machine.latch
  split
  · right
    simp only
    generalize hd : (d.setGroup g (fun _ => { active := true, since := some v.now, source := some src })).report (.groupState g true (some src)) = d2
    have h2 : NothingHeld d2 := by rw [← hd]; exact ⟨h.slot, h.stop⟩
    have e1 : evaluateMembers v g d2 = d2 := by
      unfold evaluateMembers
      apply eachSlot_id
      intro i; rw [h2.routeOf]
    rw [e1]
    unfold computeMembers
    generalize v.elements = es
    induction es with
    | nil => rfl
    | cons e es ih =>
      rw [List.foldl_cons]
      split
      · rw [h2.computeAspect]; exact ih
      · exact ih
  · exact Or.inl rfl

/-- The start-up latch touches the first `n` groups and the report queues alone (R132). -/
structure LatchedOnly (v : Env) (n : Nat) (d e : Live) : Prop where
  slots : e.slots = d.slots
  controls : e.controls = d.controls
  stored : e.stored = d.stored
  orders : e.orders = d.orders
  power : e.power = d.power
  links : e.links = d.links
  bounds : e.boundaries = d.boundaries
  requests : ∀ l, (e.lane l).requests = (d.lane l).requests
  reports : ∀ l, (d.lane l).reports <+: (e.lane l).reports
  count : e.groups.length = d.groups.length
  group : ∀ g, (e.group g).active = ((d.group g).active || decide (g < n) && decide (g < d.groups.length) && !(assertedSources v d g).isEmpty)

theorem asserted_links {v : Env} {d e : Live} (h : e.links = d.links) (g : Nat) : assertedSources v e g = assertedSources v d g := by
  unfold assertedSources
  apply List.filter_congr
  intro src _
  congr 1
  cases src <;> simp [levelOf, Live.linkAsserted, Live.link, h]

theorem startUpLatch_all (v : Env) (d : Live) (h : NothingHeld d) (n : Nat) :
    LatchedOnly v n d ((List.range n).foldl (fun d g => match assertedSources v d g with | src :: _ => latch v src g d | [] => d) d) := by
  induction n with
  | zero => exact ⟨rfl, rfl, rfl, rfl, rfl, rfl, rfl, fun _ => rfl, fun _ => List.prefix_rfl, rfl, fun g => by simp⟩
  | succ n ih =>
    rw [List.range_succ, List.foldl_append]
    simp only [List.foldl_cons, List.foldl_nil]
    generalize (List.range n).foldl _ d = e at *
    have he : NothingHeld e := by
      refine ⟨fun i => ?_, fun m => ?_⟩
      · rw [Live.slot_congr ih.slots]; exact h.slot i
      · rw [Live.control_congr ih.controls]; exact h.stop m
    have hsrc := asserted_links (v := v) ih.links n
    cases hs : assertedSources v e n with
    | nil =>
      simp only
      rw [hs] at hsrc
      refine { ih with group := fun g => ?_ }
      rw [ih.group g]
      by_cases hg : g = n
      · subst hg; rw [← hsrc]; simp
      · have : g < n + 1 ↔ g < n := by omega
        simp [this]
    | cons src rest =>
      simp only
      have hg2 : ∀ g, ((latch v src n e).group g).active = ((e.group g).active || decide (g = n) && decide (n < e.groups.length)) := by
        intro g
        have hhas : v.hasSource n src = true := by
          have : src ∈ assertedSources v e n := by rw [hs]; simp
          unfold assertedSources at this
          have := (List.mem_filter.mp this).2
          simp at this; exact this.1
        by_cases hc : n < e.groups.length ∧ (e.group n).active = false
        · have : latch v src n e = (e.setGroup n (fun _ => { active := true, since := some v.now, source := some src })).report (.groupState n true (some src)) := by
            rcases he.latch v src n with h1 | h1
            · have w : (latch v src n e).groups.length = e.groups.length := (watched_latch v src n
                  e).groupCount
              exfalso
              have hh : ∀ x, latch v src n e = x → x.group n = e.group n → False := by
                intro x hx hxe
                unfold Sys2Proof.Machine.latch at hx
                rw [if_pos (by simp [hc, hhas])] at hx
                simp only at hx
                have hgg := (((calm_report _ _).trans (calm_evaluateMembers v n _)).trans
                    (calm_computeMembers v n ((evaluateMembers v n ((e.setGroup n (fun _ =>
                        { active := true, since := some v.now, source := some src })).report
                            (.groupState n true (some src))))))).groups
                rw [hx] at hgg
                rw [Live.group_congr hgg, Live.group_setGroup] at hxe
                simp [hc.1] at hxe
                rw [← hxe] at hc; simp at hc
              exact hh e h1 rfl
            · exact h1
          rw [this]
          show ((e.setGroup n _).group g).active = _
          rw [Live.group_setGroup]
          by_cases hg : g = n
          · subst hg; simp [hc.1]
          · have : ¬ n = g := fun e => hg e.symm
            simp [hg, this]
        · have : latch v src n e = e := by
            unfold Sys2Proof.Machine.latch
            rw [if_neg (by simp; intro a _; cases hq : (e.group n).active <;> simp_all)]
          rw [this]
          by_cases hg : g = n
          · subst hg
            by_cases hl : g < e.groups.length
            · have : (e.group g).active = true := by cases hq : (e.group g).active <;> simp_all
              simp [this]
            · simp [hl]
          · simp [hg]
      have w := watched_latch v src n e
      have hsc : (latch v src n e).slots = e.slots ∧ (latch v src n e).controls = e.controls := by
        rcases he.latch v src n with h1 | h1 <;> rw [h1] <;> exact ⟨rfl, rfl⟩
      refine ⟨hsc.1.trans ih.slots, hsc.2.trans ih.controls, w.stored.trans ih.stored,
          w.orders.trans ih.orders, w.power.trans ih.power, w.links.trans ih.links,
        w.boundaries.trans ih.bounds, fun l => (w.requests l).trans (ih.requests l), fun l =>
            (ih.reports l).trans (w.appended l), w.groupCount.trans ih.count, fun g => ?_⟩
      rw [hg2, ih.group g, ih.count]
      rw [hs] at hsrc
      by_cases hg : g = n
      · subst hg
        rw [← hsrc]; simp
      · have : g < n + 1 ↔ g < n := by omega
        simp [this, hg]

theorem mem_insertBy {α : Type} (key : α → Nat) (x y : α) (l : List α) : y ∈ insertBy key x l ↔
    y = x ∨ y ∈ l := by
  induction l with
  | nil => simp [insertBy]
  | cons z zs ih =>
    unfold insertBy; split
    · simp
    · simp only [List.mem_cons, ih]
      constructor
      · rintro (h | h | h) <;> simp [h]
      · rintro (h | h | h) <;> simp [h]

theorem mem_sortBy {α : Type} (key : α → Nat) (y : α) (l : List α) : y ∈ sortBy key l ↔ y ∈ l := by
  unfold sortBy
  have : ∀ acc : List α, y ∈ l.foldl (fun a x => insertBy key x a) acc ↔ y ∈ l ∨ y ∈ acc := by
    induction l with
    | nil => simp
    | cons z zs ih =>
      intro acc
      rw [List.foldl_cons, ih, mem_insertBy]
      simp only [List.mem_cons]
      constructor
      · rintro (h | h | h) <;> simp [h]
      · rintro ((h | h) | h) <;> simp [h]
  simpa using this []

theorem restartLive_rest (v : Env) (a b : LanePort) : NothingHeld (restartLive v a b) := by
  constructor
  · intro i
    show (List.replicate 48 Slot.free).getD i Slot.free = Slot.free
    rw [List.getD_eq_getElem?_getD, List.getElem?_replicate]
    split <;> rfl
  · intro n
    unfold Live.control
    split
    · next c hc =>
      have := List.mem_of_find?_eq_some hc
      simp only [restartLive, List.mem_map] at this
      obtain ⟨e, _, rfl⟩ := this
      rfl
    · rfl

end Sys2Proof.Machine
end

