-- ==== Sys2Proof/Laws/Kept.lean ====
section
/-! SUPPORT. What every operation keeps of the capacities, the tables and detection (`Kept`). -/

namespace Sys2Proof.Machine

open Sys2Proof

/-- What every operation keeps: the capacities, the tables and sound detection. -/
structure Kept (s t : State) : Prop where
  bounded : s.live.bounded → t.live.bounded
  tables : s.tablesWhole → t.tablesWhole
  sound : s.env.detectionSound → t.env.detectionSound

theorem Kept.refl (s : State) : Kept s s := ⟨id, id, id⟩

theorem Kept.trans {s t u : State} (h : Kept s t) (k : Kept t u) : Kept s u :=
  ⟨k.bounded ∘ h.bounded, k.tables ∘ h.tables, k.sound ∘ h.sound⟩

theorem Whole.bounded {d e : Live} (h : Whole d e) (hb : d.bounded) : e.bounded :=
  ⟨fun l => ⟨h.reports l (hb.1 l).1, by rw [h.requests]; exact (hb.1 l).2⟩, h.stored hb.2.1,
    h.orders hb.2.2.1, h.within hb.2.2.2⟩

theorem Whole.tables {s t : State} (h : Whole s.live t.live) (hs : t.env.store = s.env.store)
    (he : t.env.elements.map Element.num = s.env.elements.map Element.num)
    (ht : s.tablesWhole) : t.tablesWhole := by
  refine ⟨h.linkCount.trans ht.1, fun ho => ?_⟩
  have ho' : s.env.operating = true
      := by rw [Env.operating, Env.part, hs] at ho; rw [Env.operating, Env.part]; exact ho
  have hd : t.env.defs = s.env.defs := by simp [Env.defs, hs]
  obtain ⟨h1, h2, h3, h4, h5⟩ := ht.2 ho'
  exact ⟨h.nums.trans (h1.trans he.symm), h.boundaryNums.trans (by rw [h2, hd]),
    h.slotCount.trans h3, h.powerCount.trans h4, h.groupCount.trans h5⟩

theorem kept_of {s t : State} (h : Whole s.live t.live) (hs : t.env.store = s.env.store)
    (he : t.env.elements.map Element.num = s.env.elements.map Element.num)
    (hd : s.env.detectionSound → t.env.detectionSound) : Kept s t :=
  ⟨h.bounded, h.tables hs he, hd⟩

theorem kept_live (s : State) (d : Live) (h : Whole s.live d) : Kept s { s with live := d } :=
  kept_of h rfl rfl id

theorem kept_act (s : State) (f : Env → Live → Live) (h : Whole s.live (f s.env s.live)) :
    Kept s (s.act f) := kept_live s _ (whole_act f s h)

theorem kept_refuse (s : State) (q : Request) (r : Reason) : Kept s (s.refuse q r) :=
  kept_live s _ (whole_report _ _)

theorem elementSound_congr {v w : Env} {e : Element} (ha : w.presentA = v.presentA)
    (hb : w.presentB = v.presentB) (h : Env.elementSound v e) : Env.elementSound w e := by
  have : w.mode = v.mode := by simp [Env.mode, ha, hb]
  unfold Env.elementSound Env.deriveAgreed Env.discrepancyHolds at *
  rw [ha, hb, this]; exact h

theorem agree_ok (now : Time) (x : Detection) (e : Element)
    (h2 : e.isSection = true → e.agreed = .occupied ∨ e.agreed = .clear)
    (hx : e.isSection = true → x = .occupied ∨ x = .clear)
    (h3 : e.isSection = true → e.agreed = .occupied → e.occupied = true)
    (h4 : e.pickUp.isSome = true → e.isSection = true ∧ e.occupied = true ∧ e.agreed ≠ .occupied) :
    (e.isSection = true → x = .occupied → (e.agree now x).occupied = true)
      ∧ ((e.agree now x).pickUp.isSome = true →
          e.isSection = true ∧ (e.agree now x).occupied = true ∧ x ≠ .occupied) := by
  unfold Element.agree
  split
  · next h => subst h; exact ⟨h3, h4⟩
  · next h =>
    obtain ⟨num, dfn, va, vb, ag, de, dc, occ, pu, ot, bl⟩ := e
    unfold Element.filter
    cases hs : (Element.isSection ⟨num, dfn, va, vb, ag, de, dc, occ, pu, ot, bl⟩) with
    | false =>
      have hs' : (Element.isSection ⟨num, dfn, va, vb, x, de, dc, occ, pu, ot, bl⟩) = false := hs
      simp only [hs'] at *
      simp only [hs] at *
      refine ⟨by simp, fun hp => ?_⟩
      exact absurd (h4 hp).1 (by simp)
    | true =>
      have hs' : (Element.isSection ⟨num, dfn, va, vb, x, de, dc, occ, pu, ot, bl⟩) = true := hs
      simp only [hs'] at *
      simp only [hs] at *
      simp only [Bool.not_true, Bool.false_eq_true, if_false, true_implies, true_and] at *
      rcases hx with rfl | rfl
      · simp
        cases occ
        · simp
          cases pu with
          | none => rfl
          | some t => simpa using h4 rfl
        · simp
      · simp
        rcases h2 with rfl | rfl
        · simp at h3; subst h3
          split <;> simp
        · exact absurd rfl h

/-- what derive needs -/
theorem elementSound_derive (v : Env) (e : Element)
    (h1 : ∀ l x, e.view l = some x → e.dfn.kind.takes x = true)
    (h2 : e.isSection = true → e.agreed = .occupied ∨ e.agreed = .clear)
    (h3 : e.isSection = true → e.agreed = .occupied → e.occupied = true)
    (h4 : e.pickUp.isSome = true → e.isSection = true ∧ e.occupied = true ∧ e.agreed ≠ .occupied) :
    Env.elementSound v (v.derive e) := by
  have hx : e.isSection = true → v.deriveAgreed e = .occupied ∨ v.deriveAgreed e = .clear := by
    intro hs
    have ht : ∀ l x, e.view l = some x → x = .occupied ∨ x = .clear := by
      intro l x hx
      have := h1 l x hx
      unfold Element.isSection at hs
      split at hs
      · next hk => rw [hk] at this; simpa [KindDef.takes, or_comm] using this
      · simp at hs
    have hsafe : e.dfn.kind.safe = .occupied := by
      unfold Element.isSection at hs
      split at hs
      · next hk => rw [hk]; rfl
      · simp at hs
    have ha := ht .a; have hb := ht .b
    simp only [Element.view] at ha hb
    unfold Env.deriveAgreed
    cases v.presentA <;> cases v.presentB <;> cases e1 : e.viewA <;> cases e2 : e.viewB <;>
      simp only [hsafe, Option.getD_some, Option.getD_none, true_or]
    all_goals first
      | exact ha _ e1 | exact hb _ e2 | skip
    split
    · exact ha _ e1
    · exact .inl rfl
  have hag := agree_ok v.now (v.deriveAgreed e) e h2 hx h3 h4
  have hs : (v.derive e).isSection = e.isSection := by unfold Element.isSection; simp
  refine ⟨fun l x hx => ?_, ?_, ?_, ?_, ?_⟩
  · rw [Env.view_derive] at hx
    simpa using h1 l x hx
  · rw [Env.derive_agreed]
    exact v.deriveAgreed_congr (by simp) (by simp) (by simp)
  · rw [hs, Env.derive_agreed]
    simpa [Env.derive] using hag.1
  · rw [hs, Env.derive_agreed]
    simpa [Env.derive] using hag.2
  · unfold Env.derive Env.timeDiscrepancy Env.discrepancyHolds
    simp
    intro hp
    split at hp
    · next h => simpa using h
    · simp at hp

theorem agreed_of_sound {v : Env} {e : Element} (h : Env.elementSound v e) :
    e.isSection = true → e.agreed = .occupied ∨ e.agreed = .clear := by
  intro hs
  obtain ⟨h1, h2, -⟩ := h
  have ht : ∀ l x, e.view l = some x → x = .occupied ∨ x = .clear := by
    intro l x hx
    have := h1 l x hx
    unfold Element.isSection at hs
    split at hs
    · next hk => rw [hk] at this; simpa [KindDef.takes, or_comm] using this
    · simp at hs
  have hsafe : e.dfn.kind.safe = .occupied := by
    unfold Element.isSection at hs
    split at hs
    · next hk => rw [hk]; rfl
    · simp at hs
  rw [h2]
  have ha := ht .a; have hb := ht .b
  simp only [Element.view] at ha hb
  unfold Env.deriveAgreed
  cases v.presentA <;> cases v.presentB <;> cases e1 : e.viewA <;> cases e2 : e.viewB <;>
    simp only [hsafe, Option.getD_some, Option.getD_none, true_or]
  all_goals first
    | exact ha _ e1 | exact hb _ e2 | skip
  split
  · exact ha _ e1
  · exact .inl rfl

theorem sound_setElement {v : Env} (n : Nat) (f : Element → Element) (hnum : ∀ e, (f e).num = e.num)
    (hf : ∀ e, v.element? n = some e → Env.elementSound v e → Env.elementSound v (f e)) (h :
        v.detectionSound) :
    (v.setElement n f).detectionSound := by
  intro m e he
  rw [Env.element?_setElement _ _ _ _ hnum] at he
  refine elementSound_congr (v := v) rfl rfl ?_
  by_cases hn : m = n
  · subst hn
    simp only [if_true, Option.map_eq_some_iff] at he
    obtain ⟨x, hx, rfl⟩ := he
    exact hf x hx (h m x hx)
  · simp only [hn, if_false] at he
    exact h m e he

theorem elementSound_view {v : Env} {e : Element} (l : LaneId) (x : Option Detection)
    (hx : ∀ y, x = some y → e.dfn.kind.takes y = true) (h : Env.elementSound v e) :
    Env.elementSound v (v.derive (e.setView l x)) := by
  obtain ⟨h1, h2, h3, h4, h5⟩ := id h
  have hs : (e.setView l x).isSection = e.isSection := by unfold Element.isSection; simp
  refine elementSound_derive v _ ?_ ?_ ?_ ?_
  · intro k y hy
    rw [Element.view_setView] at hy
    split at hy
    · simpa using hx y hy
    · simpa using h1 k y hy
  · rw [hs]; simpa using agreed_of_sound h
  · rw [hs]; simpa using h3
  · rw [hs]; simpa using h4

theorem nums_setElement (v : Env) (n : Nat) (f : Element → Element) (hf : ∀ e, (f e).num = e.num) :
    (v.setElement n f).elements.map Element.num = v.elements.map Element.num := by
  rw [Env.setElement_elements, List.map_map]
  refine List.map_congr_left fun e _ => ?_
  show (if e.num = n then f e else e).num = e.num
  split
  · exact hf e
  · rfl

theorem kept_applyPair (l : LaneId) (s : State) (p : Nat × Nat) : Kept s (State.applyPair l s p) := by
  refine kept_of (whole_applyPair l s p) ?_ ?_ ?_
  all_goals
    unfold State.applyPair
    cases hp : s.env.pairValue p with
    | none => first | done | rfl | exact id
    | some x =>
      dsimp only
      split
      · first | done | rfl | exact id
      · cases he : s.env.element? p.1 with
        | none => unfold State.updateElement; rw [he] <;> first | done | rfl | exact id
        | some e =>
          rw [State.updateElement_env _ _ _ _ he]
          first
          | rfl
          | exact nums_setElement _ _ _ (fun e => by simp)
          | (refine sound_setElement _ _ (fun e => by simp) (fun y hy ho => ?_)
             refine elementSound_view l (some x) (fun z hz => ?_) ho
             unfold Env.pairValue at hp
             rw [hy] at hp
             cases hz
             split at hp
             · next e2 _ h1 _ =>
               cases h1
               split at hp
               · next h => cases hp; exact h
               · cases hp
             · cases hp)

theorem bounded_setLane {d : Live} (l : LaneId) (f : LanePort → LanePort)
    (hr : (f (d.lane l)).reports.length ≤ Config.reportCapacity)
    (hq : (f (d.lane l)).requests.length ≤ Config.pendingCapacity) (h : d.bounded) :
    (d.setLane l f).bounded := by
  refine ⟨fun k => ?_, by simpa using h.2.1, by simpa using h.2.2.1, by simpa using h.2.2.2⟩
  rw [Live.lane_setLane]
  split
  · next hk => subst hk; exact ⟨hr, hq⟩
  · exact h.1 k

theorem tables_of {s t : State} (hs : t.env.store = s.env.store)
    (he : t.env.elements.map Element.num = s.env.elements.map Element.num)
    (h1 : t.live.links.length = s.live.links.length) (h2 : t.live.controls.map
        Control.num = s.live.controls.map Control.num)
    (h3 : t.live.boundaries.map Boundary.num = s.live.boundaries.map Boundary.num)
    (h4 : t.live.slots.length = s.live.slots.length) (h5 : t.live.power.length = s.live.power.length)
    (h6 : t.live.groups.length = s.live.groups.length)
    (ht : s.tablesWhole) : t.tablesWhole := by
  refine ⟨h1.trans ht.1, fun ho => ?_⟩
  have ho' : s.env.operating = true := by
    rw [Env.operating, Env.part, hs] at ho; rw [Env.operating, Env.part]; exact ho
  have hd : t.env.defs = s.env.defs := by simp [Env.defs, hs]
  obtain ⟨a1, a2, a3, a4, a5⟩ := ht.2 ho'
  exact ⟨h2.trans (a1.trans he.symm), h3.trans (by rw [a2, hd]), h4.trans a3, h5.trans a4, h6.trans a5⟩

theorem tables_setLane {s : State} (l : LaneId) (f : LanePort → LanePort) (h : s.tablesWhole) :
    State.tablesWhole { s with live := s.live.setLane l f } :=
  tables_of (s := s) rfl rfl (by simp) (by simp) (by simp) (by simp) (by simp) (by simp) h

theorem kept_setLane (s : State) (l : LaneId) (f : LanePort → LanePort)
    (hr : ∀ p : LanePort, p.reports.length ≤ Config.reportCapacity → (f p).reports.length ≤
        Config.reportCapacity)
    (hq : ∀ p : LanePort, p.requests.length ≤ Config.pendingCapacity → (f p).requests.length ≤
        Config.pendingCapacity) :
    Kept s { s with live := s.live.setLane l f } :=
  ⟨fun h => bounded_setLane l f (hr _ (h.1 l).1) (hq _ (h.1 l).2) h, tables_setLane l f, id⟩

theorem kept_shiftOut (s : State) (x : Exchange) : Kept s (s.shiftOut x) := by
  unfold State.shiftOut
  split
  · refine kept_setLane s _ _ (fun p h => ?_) (fun p h => h)
    show (p.reports.drop 1).length ≤ _
    rw [List.length_drop]; omega
  · exact Kept.refl s

theorem sound_env {v w : Env} (he : w.elements = v.elements) (ha : w.presentA = v.presentA)
    (hb : w.presentB = v.presentB) (h : v.detectionSound) : w.detectionSound := by
  intro n e hn
  refine elementSound_congr ha hb (h n e ?_)
  unfold Env.element? at *; rw [he] at hn; exact hn

theorem kept_env (s : State) (w : Env) (hs : w.store = s.env.store) (he : w.elements = s.env.elements)
    (ha : w.presentA = s.env.presentA) (hb : w.presentB = s.env.presentB) :
    Kept s { s with env := w } :=
  kept_of (Whole.refl _) hs
      (by rw [show ({ s with env := w } : State).env = w from rfl, he]) (sound_env he ha hb)

theorem kept_exchange (s : State) (x : Exchange) : Kept s (s.exchange x) :=
  (kept_shiftOut s x).trans (kept_env _ _ (by simp) (by simp) (by simp) (by simp))

theorem kept_pending (s : State) (l : List Instr) : Kept s { s with pending := l } := ⟨id, id, id⟩

theorem kept_answered (s : State) (x : Exchange) (f : Env → Live → Report) :
    Kept s (s.answered x f) := by
  unfold State.answered
  refine (kept_exchange s x).trans ?_
  refine kept_setLane _ _ _ (fun p h => ?_) (fun p h => ?_)
  · unfold LanePort.place
    split
    · simp; omega
    · exact h
  · rw [LanePort.place_requests]; exact h

theorem dropFirst_length (q : Request) (es : List PendingEntry) : (dropFirst q es).length ≤
    es.length := by
  induction es with
  | nil => exact Nat.le_refl _
  | cons e es ih =>
    unfold dropFirst
    split
    · simp
    · simp; exact ih

theorem kept_pairOrWait (s : State) (l : LaneId) (q : Request) (v : Env) :
    Kept s { s with live := (pairOrWait v l q s.live).1 } := by
  unfold pairOrWait
  split
  · refine kept_setLane s l.other (fun p => { p with requests := dropFirst q p.requests })
        (fun p h => ?_) (fun p h => ?_)
    · exact h
    · exact Nat.le_trans (dropFirst_length _ _) h
  · split
    · next hc =>
      refine ⟨fun h => bounded_setLane _ _ (h.1 l).1 ?_ h, tables_setLane _ _, id⟩
      simp; omega
    · refine kept_setLane _ _ _ (fun p h => ?_) (fun p h => ?_)
      · unfold LanePort.place
        split
        · simp; omega
        · exact h
      · rw [LanePort.place_requests]; exact h

theorem kept_vote (s : State) (l : LaneId) (q : Request) (v : Env) :
    Kept s { s with live := (vote v l q s.live).1 } := by
  unfold vote
  split
  · split
    · exact kept_pairOrWait s l q v
    · split
      · exact Kept.refl s
      · refine kept_setLane _ _ _ (fun p h => ?_) (fun p h => ?_)
        · unfold LanePort.place
          split
          · simp; omega
          · exact h
        · rw [LanePort.place_requests]; exact h
  · exact kept_pairOrWait s l q v

theorem kept_voted (s : State) (x : Exchange) (q : Request) (own : State → State)
    (h : ∀ s, Kept s (own s)) : Kept s (s.voted x q own) := by
  unfold State.voted
  have h1 := (kept_exchange s x).trans (kept_vote (s.exchange x) x.lane q (s.exchange x).env)
  dsimp only
  split
  · refine h1.trans ?_
    unfold State.hand
    split
    · exact kept_refuse _ _ _
    · exact h _
  · exact h1

theorem nums_derive (v : Env) : (v.elements.map v.derive).map Element.num = v.elements.map
    Element.num := by
  rw [List.map_map]; exact List.map_congr_left fun e _ => by simp

theorem element?_map (v : Env) (g : Element → Element) (hg : ∀ e, (g e).num = e.num) (n : Nat) (e :
    Element)
    (h : Env.element? { v with elements := v.elements.map g } n = some e) :
    ∃ x, v.element? n = some x ∧ e = g x := by
  unfold Env.element? at *
  simp only [List.find?_map] at h
  have : ((fun e : Element => decide (e.num = n)) ∘ g) = (fun e : Element => decide (e.num = n)) := by
    funext e; simp [hg]
  rw [this, Option.map_eq_some_iff] at h
  obtain ⟨x, hx, rfl⟩ := h
  exact ⟨x, hx, rfl⟩

/-- a mode change from an env w whose elements come from sound ones -/
theorem kept_changeMode (s : State) (m : LaneMode) (w : Env) (hs : w.store = s.env.store)
    (g : Element → Element) (hg : ∀ e, (g e).num = e.num) (he : w.elements = s.env.elements.map g)
    (hv : ∀ v e, Env.elementSound v e → (∀ l x, (g e).view l = some x → (g e).dfn.kind.takes x = true)
      ∧ (g e).isSection = e.isSection ∧ (g e).agreed = e.agreed ∧ (g e).occupied = e.occupied ∧
          (g e).pickUp = e.pickUp) :
    Kept s (State.changeMode m { s with env := w }) := by
  refine kept_of ((whole_report _ _).trans (whole_changeMode m { s with env := w })) hs ?_ ?_
  · rw [State.changeMode_env];
    show (w.elements.map w.derive).map Element.num = _
    rw [nums_derive, he, List.map_map]
    exact List.map_congr_left fun e _ => hg e
  · rw [State.changeMode_env]
    intro h n e hn
    obtain ⟨x, hx, rfl⟩ := element?_map w w.derive (by simp) n e hn
    have : ∃ y, s.env.element? n = some y ∧ x = g y := by
      refine element?_map s.env g hg n x ?_
      unfold Env.element? at *; rw [he] at hx; exact hx
    obtain ⟨y, hy, rfl⟩ := this
    have ho : Env.elementSound s.env y := h n y hy
    obtain ⟨h1, h2, h3, h4, h5⟩ := hv _ _ ho
    obtain ⟨-, -, o3, o4, -⟩ := id ho
    refine elementSound_congr (v := w) rfl rfl ?_
    refine elementSound_derive w (g y) h1 ?_ ?_ ?_
    · rw [h2, h3]; exact agreed_of_sound ho
    · rw [h2, h3, h4]; exact o3
    · rw [h2, h3, h4, h5]; exact o4

theorem kept_updateElement (s : State) (n : Nat) (f : Element → Element) (hf : ∀ e, (f e).num = e.num)
    (ho : ∀ e, s.env.element? n = some e → Env.elementSound s.env e → Env.elementSound s.env (f e)) :
    Kept s (s.updateElement n f) := by
  cases he : s.env.element? n with
  | none => unfold State.updateElement; rw [he]; exact Kept.refl s
  | some e =>
    refine kept_of (whole_updateElement _ _ _) ?_ ?_ ?_
    all_goals rw [State.updateElement_env _ _ _ _ he]
    · rfl
    · exact nums_setElement _ _ _ hf
    · exact sound_setElement _ _ hf ho

theorem kept_setEnvElement (s : State) (n : Nat) (f : Element → Element) (d : Live) (hw :
    Whole s.live d)
    (hf : ∀ e, (f e).num = e.num)
    (ho : ∀ e, s.env.element? n = some e → Env.elementSound s.env e → Env.elementSound s.env (f e)) :
    Kept s { s with env := s.env.setElement n f, live := d } :=
  kept_of hw rfl (nums_setElement _ _ _ hf) (sound_setElement _ _ hf ho)

theorem elementIs_some {v : Env} {n : Nat} {e : Element} {f : Element → Bool}
    (h : v.elementIs n f = true) (he : v.element? n = some e) : f e = true := by
  unfold Env.elementIs at h; rw [he] at h; exact h

theorem kept_setBlocked (s : State) (n : Nat) (b : Bool) : Kept s (s.setBlocked n b) :=
  kept_setEnvElement s n (fun e => { e with blocked := b }) _ (whole_setBlocked n b s) (fun _ =>
      rfl) (fun e _ h => h)

theorem kept_takeBlock (n : Nat) (s : State) : Kept s (takeBlock n s) := by
  unfold takeBlock
  split
  · exact kept_refuse _ _ _
  · split
    · exact Kept.refl s
    · exact kept_setBlocked _ _ _

theorem kept_takeUnblock (n : Nat) (s : State) : Kept s (takeUnblock n s) := by
  unfold takeUnblock
  split
  · exact kept_refuse _ _ _
  · split
    · refine (kept_setBlocked s n false).trans (kept_act _ _ ?_)
      exact (Whole.ite (whole_runArbiter _ _ _) (Whole.refl _)).trans (whole_setReeval _ _)
    · exact Kept.refl s

theorem bounded_restart (v : Env) (a b : LanePort)
    (ha : a.reports.length ≤ Config.reportCapacity ∧ a.requests.length ≤ Config.pendingCapacity)
    (hb : b.reports.length ≤ Config.reportCapacity ∧ b.requests.length ≤ Config.pendingCapacity) :
    (restartLive v a b).bounded := by
  refine ⟨fun l => by cases l <;> assumption, Nat.zero_le _, Nat.zero_le _, ?_⟩
  intro k hk
  simp only [restartLive, List.mem_map] at hk
  obtain ⟨l, _, rfl⟩ := hk
  unfold Link.start
  split
  · split <;> exact ⟨Nat.zero_le _, Nat.zero_le _⟩
  · exact ⟨Nat.zero_le _, Nat.zero_le _⟩

theorem whole_startUpLatch (v : Env) (d : Live) : Whole d (startUpLatch v d) := by
  unfold startUpLatch
  refine Whole.foldl _ (fun d g => ?_) _ d
  split
  · exact (watched_latch _ _ _ _).whole
  · exact Whole.refl _

theorem tables_restart (v w : Env) (a b : LanePort) (d : Live) (p : List Instr)
    (hw : Whole (restartLive w a b) d)
    (he : v.elements.map Element.num = w.elements.map Element.num) (hd :
        v.defs.boundaries = w.defs.boundaries) :
    State.tablesWhole { env := v, live := d, pending := p } := by
  refine ⟨hw.linkCount.trans (by simp [restartLive]), fun _ => ⟨?_, ?_, ?_, ?_, ?_⟩⟩
  · refine hw.nums.trans ?_
    show _ = v.elements.map Element.num
    rw [he]; simp [restartLive, Control.fresh]
  · refine hw.boundaryNums.trans ?_
    show _ = v.defs.boundaries.map BoundaryDef.number
    rw [hd]; simp [restartLive, Boundary.fresh]
  · exact hw.slotCount.trans (by simp [restartLive])
  · exact hw.powerCount.trans (by simp [restartLive])
  · exact hw.groupCount.trans (by simp [restartLive])

theorem elementSound_fresh (v : Env) (e : Element) (h1 : e.viewA = none) (h2 : e.viewB = none)
    (h3 : e.agreed = e.dfn.kind.safe) (h4 : e.occupied = e.isSection) (h5 : e.pickUp = none) (h6 :
        e.discExpiry = none) :
    Env.elementSound v e := by
  refine ⟨fun l x hx => ?_, ?_, ?_, ?_, ?_⟩
  · cases l <;> simp [Element.view, h1, h2] at hx
  · rw [h3]; unfold Env.deriveAgreed; rw [h1, h2]; cases v.presentA <;> cases v.presentB <;> rfl
  · intro a _; rw [h4]; exact a
  · rw [h5]; simp
  · rw [h6]; simp

theorem bounded_port_report {d : Live} (hb : d.bounded) (r : Report) : (d.report r).bounded :=
  (whole_report d r).bounded hb

theorem kept_endLoad (g : Nat) (s : State) : Kept s (s.endLoad g) := by
  have hfail : ∀ o, s.env.operating = false → Kept s (s.failLoad o) := fun o _ =>
    ⟨(whole_report s.live _).bounded, fun h => ⟨(whole_report s.live _).linkCount.trans h.1,
        fun h => by cases h⟩,
      sound_env (by simp [State.failLoad]) rfl rfl⟩
  unfold State.endLoad
  split
  · next t ht =>
    have ho : s.env.operating = false := by simp [Env.operating, Env.part, ht]
    split
    · exact hfail _ ho
    · split
      · exact hfail _ ho
      · unfold State.standLoad
        dsimp only
        refine ⟨fun h => ?_, fun h => ?_, fun h => ?_⟩
        · refine (whole_startUpLatch _ _).bounded (bounded_restart _ _ _ ?_ ?_)
          · exact (bounded_port_report h _).1 .a
          · exact (bounded_port_report h _).1 .b
        · exact tables_restart _ _ _ _ _ _ (whole_startUpLatch _ _) rfl rfl
        · intro n e he
          unfold Env.element? at he
          have hm := List.mem_of_find?_eq_some he
          replace hm : e ∈ loadedElements t.filed := hm
          unfold loadedElements at hm
          rw [mem_sortBy] at hm
          obtain ⟨y, _, hy⟩ := List.mem_filterMap.mp hm
          split at hy
          · simp only [Option.some.injEq] at hy
            subst hy
            exact elementSound_fresh _ _ rfl rfl rfl rfl rfl rfl
          · cases hy
  · exact Kept.refl s

theorem kept_restartKept (s : State) : Kept s s.restartKept := by
  unfold State.restartKept
  dsimp only
  refine ⟨fun h => ?_, fun h => ?_, fun h => ?_⟩
  · refine ((whole_report _ _).trans (whole_startUpLatch _ _)).bounded (bounded_restart _ _ _ ?_ ?_) <;>
      exact ⟨Nat.zero_le _, Nat.zero_le _⟩
  · exact tables_restart _ _ _ _ _ _ ((whole_report _ _).trans (whole_startUpLatch _ _)) rfl rfl
  · intro n e he
    obtain ⟨x, hx, rfl⟩ := element?_map s.env (fun e => e.restart e.blocked) (fun _ => rfl) n e he
    exact elementSound_fresh _ _ rfl rfl rfl rfl rfl rfl

theorem kept_bare (s : State) (v : Env) (a b : LanePort) (p : List Instr) (hv : v.elements = [])
    (ho : v.operating = false)
    (ha : a.reports = [] ∧ a.requests = []) (hb : b.reports = [] ∧ b.requests = []) :
    Kept s { env := v, live := { Live.bare with laneA := a, laneB := b }, pending := p } := by
  refine ⟨fun _ => ⟨fun l => ?_, Nat.zero_le _, Nat.zero_le _, ?_⟩, fun _ =>
      ⟨by simp [Live.bare], fun h => ?_⟩, fun _ => ?_⟩
  · cases l
    · exact ⟨by simp [Live.lane, ha], by simp [Live.lane, ha]⟩
    · exact ⟨by simp [Live.lane, hb], by simp [Live.lane, hb]⟩
  · intro k hk
    simp [Live.bare] at hk
    rw [hk.2]; exact ⟨Nat.zero_le _, Nat.zero_le _⟩
  · rw [show ({ env := v, live := { Live.bare with laneA := a, laneB := b }, pending := p } : State).env = v from rfl, ho] at h
    cases h
  · intro n e he
    unfold Env.element? at he
    rw [show ({ env := v, live := { Live.bare with laneA := a, laneB := b }, pending := p } : State).env = v from rfl, hv] at he
    cases he

theorem kept_restartUnloaded (s : State) : Kept s s.restartUnloaded := by
  unfold State.restartUnloaded
  split
  · exact Kept.refl s
  · exact kept_bare s _ _ _ _ rfl rfl ⟨rfl, rfl⟩ ⟨rfl, rfl⟩

theorem kept_cold (s : State) : Kept s s.cold :=
  kept_bare s _ LanePort.empty LanePort.empty _ rfl rfl ⟨rfl, rfl⟩ ⟨rfl, rfl⟩

theorem kept_takeRejoin (n : Nat) (s : State) : Kept s (takeRejoin n s) := by
  unfold takeRejoin
  split
  · next l _ =>
    split
    · exact kept_refuse _ _ _
    · refine kept_changeMode s _ _ (by simp) (fun e => e.setView l none) (fun _ => by simp) (by simp) ?_
      intro v e ho
      refine ⟨fun k x hx => ?_, by unfold Element.isSection; simp, by simp, by simp, by simp⟩
      rw [Element.view_setView] at hx
      split at hx
      · cases hx
      · simpa using ho.1 k x hx
  · exact kept_refuse _ _ _

theorem kept_takeAlone (q : Request) (s : State) : Kept s (State.takeAlone q s) := by
  unfold State.takeAlone
  split
  · exact kept_act _ _ (whole_takeCancelRoute _ _ _)
  · exact kept_act _ _ (whole_takeReleaseEmergency _ _ _)
  · exact kept_act _ _ (whole_takeAckFault _ _ _ _)
  · exact kept_takeBlock _ _
  · exact kept_act _ _ (whole_takeStopSet _ _ _)
  · exact Kept.refl s

theorem kept_dispose (l : LaneId) (s : State) (e : PendingEntry) : Kept s (State.dispose l s e) := by
  unfold State.dispose
  split
  · exact Kept.refl s
  · dsimp only
    have h : Kept s { s with live := s.live.setLane l (fun p => { p with requests := dropFirst e.request p.requests }) } := by
      refine kept_setLane _ _ _ (fun p h => ?_) (fun p h => ?_)
      · exact h
      · exact Nat.le_trans (dropFirst_length _ _) h
    split
    · exact h.trans (kept_takeAlone _ _)
    · exact h.trans (kept_refuse _ _ _)

theorem kept_disposeLists (l : LaneId) (s : State) : Kept s (State.disposeLists l s) := by
  unfold State.disposeLists
  have h1 : Kept s { s with live := refuseList l s.live } := by
    unfold refuseList
    have a : Kept s { s with live := (s.live.lane l).requests.foldl (fun d e => d.report (refusal e.request .laneDegraded)) s.live } :=
      kept_live s _ (Whole.foldl _ (fun _ _ => whole_report _ _) _ _)
    refine a.trans (kept_setLane _ l _ (fun p h => ?_) (fun p h => ?_))
    · exact h
    · exact Nat.zero_le _
  dsimp only
  split
  · refine h1.trans ?_
    have : ∀ (es : List PendingEntry) (t : State), Kept t (es.foldl (State.dispose l.other) t) := by
      intro es
      induction es with
      | nil => exact fun t => Kept.refl t
      | cons e es ih => exact fun t => (kept_dispose _ _ _).trans (ih _)
    exact this _ _
  · exact h1

theorem kept_loseLane (l : LaneId) (s : State) : Kept s (s.loseLane l) := by
  unfold State.loseLane
  refine Kept.trans ?_ (kept_disposeLists _ _)
  exact kept_changeMode s _ _ (by simp) id (fun _ => rfl) (by simp) (fun v e ho => ⟨ho.1, rfl, rfl, rfl, rfl⟩)

theorem kept_applyPairs (l : LaneId) (ps : List (Nat × Nat)) (s : State) : Kept s (s.applyPairs l ps) := by
  have h : ∀ (ps : List (Nat × Nat)) (s : State), Kept s (ps.foldl (State.applyPair l) s) := by
    intro ps
    induction ps with
    | nil => exact fun _ => Kept.refl _
    | cons p ps ih => exact fun s => (kept_applyPair l s p).trans (ih _)
  unfold State.applyPairs
  split
  · exact h ps s
  · exact Kept.refl _

theorem kept_openLoad (s : State) : Kept s s.openLoad :=
  ⟨id, fun h => ⟨h.1, fun h => by cases h⟩, sound_env rfl rfl rfl⟩

theorem kept_takeRecord (p : List Byte) (s : State) : Kept s (s.takeRecord p) := by
  unfold State.takeRecord
  split
  · exact ⟨id, fun h => ⟨h.1, fun h => by cases h⟩, sound_env rfl rfl rfl⟩
  · exact Kept.refl s

theorem kept_setInput (s : State) (i : AreaInput) (b : Bool) : Kept s { s with env := s.env.setInput i b } :=
  kept_env s _ (by simp) (by simp) (by simp) (by simp)

theorem kept_windowDue (l : LaneId) (s : State) : Kept s (s.act (windowDue l)) := by
  have h : Kept s { s with live := windowDue l s.env s.live } := by
    unfold windowDue
    split
    · have a : Kept s { s with live := s.live.setLane l (fun p => { p with requests := dropDue s.env.now p.requests }) } := by
        refine kept_setLane _ _ _ (fun p h => ?_) (fun p h => ?_)
        · exact h
        · refine Nat.le_trans ?_ h
          show (dropDue s.env.now p.requests).length ≤ _
          induction p.requests with
          | nil => exact Nat.le_refl _
          | cons e es ih =>
            unfold dropDue
            split
            · simp
            · simp; exact ih
      exact a.trans (kept_live _ _ (whole_report _ _))
    · exact Kept.refl s
  exact h.trans (kept_live _ _ (whole_serve _ _))

end Sys2Proof.Machine
end

