-- ==== Sys2Proof/Laws/Links.lean ====
section
/-! SUPPORT. What a link coming up or going down, a STATUS entry and the end of a berth do (R152, R156, R163, R165). -/

namespace Sys2Proof.Machine

open Sys2Proof

theorem setBoundary_each (bs : List BoundaryDef) (d : Live) :
    let e := bs.foldl (fun d b => d.setBoundary b.number Boundary.leaveUp) d
    (∀ k, e.boundary k = if (∃ b ∈ bs, b.number = k) ∧ d.hasBoundary k then Boundary.leaveUp
        (d.boundary k) else d.boundary k)
    ∧ e.links = d.links ∧ e.controls = d.controls ∧ e.boundaries.map Boundary.num = d.boundaries.map
        Boundary.num := by
  have hid : ∀ x : Boundary, (Boundary.leaveUp (Boundary.leaveUp x)) = Boundary.leaveUp x := by
    intro x; unfold Boundary.leaveUp; cases h : x.acceptance <;> simp
  have hnm : ∀ x, (Boundary.leaveUp x).num = x.num := fun _ => rfl
  induction bs generalizing d with
  | nil => simp
  | cons b bs ih =>
    obtain ⟨i1, i2, i3, i4⟩ := ih (d.setBoundary b.number Boundary.leaveUp)
    have hn := d.setBoundary_nums b.number Boundary.leaveUp hnm
    simp only [List.foldl_cons]
    refine ⟨fun k => ?_, i2, i3, i4.trans hn⟩
    rw [i1 k]
    have hb : (d.setBoundary b.number Boundary.leaveUp).hasBoundary k ↔
        d.hasBoundary k := by unfold Live.hasBoundary; rw [hn]
    have := d.boundary_setBoundary b.number k Boundary.leaveUp hnm
    rw [this]
    by_cases h1 : k = b.number
    · subst h1
      by_cases h2 : d.hasBoundary b.number <;> by_cases h3 : ∃ c ∈ bs, c.number = b.number <;> simp_all
    · have h1' : ¬ b.number = k := fun e => h1 e.symm
      have e0 : ¬ (k = b.number ∧ d.hasBoundary b.number) := fun hh => h1 hh.1
      have e1 : (∃ c ∈ b :: bs, c.number = k) ↔ ∃ c ∈ bs, c.number = k := by simp [h1']
      simp only [hb, e1, e0, if_false]

theorem faultsStand_edge (v : Env) (src : Source) (was : Bool) (d : Live) : d.faultsStand (edge v src was d) := by
  unfold edge; split
  · exact (latchAll_all v src d d.groups.length).faults
  · exact fun _ => rfl

theorem leaveUp_all (v : Env) (l : Nat) (d : Live) (st : LinkState) (hl : l < d.links.length) :
    let e := leaveUp v l st d
    (e.link l).state = st ∧ (e.link l).rx = [] ∧ (e.link l).tx = [] ∧ (e.link l).silence = none
    ∧ (e.link l).nextStatus = (if st = .disabled then none else (d.link l).nextStatus)
    ∧ (∀ j, j ≠ l → e.link j = d.link j)
    ∧ (∀ bd ∈ v.linkBoundaries l, (d.hasBoundary bd.number → e.boundary bd.number = Boundary.leaveUp (d.boundary bd.number))
      ∧ (st = .lost → d.hasControl bd.element → e.raised bd.element .linkLost v.now))
    ∧ (∀ b, (∀ bd ∈ v.linkBoundaries l, bd.number ≠ b) → e.boundary b = d.boundary b)
    ∧ (st ≠ .lost → d.faultsStand e) := by
  intro e
  let bs := v.linkBoundaries l
  let d1 := d.setLink l (fun k => { k with state := st, rx := [], tx := [], silence := none, deferred := false, nextStatus := if st = .disabled then none else k.nextStatus, hunt := if st = .disabled then [] else k.hunt })
  let d2 := bs.foldl (fun d b => d.setBoundary b.number Boundary.leaveUp) d1
  let d3 := if st = .lost then bs.foldl (fun d b => raise v b.element .linkLost none d) d2 else d2
  let d6 := evaluateExits v bs (bs.foldl (fun e b =>
      reportChange b.number (d.boundary b.number) none e) (d3.report (.linkState l st)))
  obtain ⟨b1, b2, b3, b4⟩ := setBoundary_each bs d1
  obtain ⟨r1, r2, r3, r4⟩ := raise_each v .linkLost rfl bs d2
  have w3 : Watched d2 d3 := by
    show Watched d2 (if st = .lost then _ else _); split
    · exact r1
    · exact Watched.refl _
  have c6 : Calm d3 d6 := by
    refine ((calm_report _ _).trans (Calm.foldl _ (fun e b => ?_) _ _)).trans (calm_evaluateExits v _ _)
    unfold reportChange; exact Calm.ite (calm_report _ _) (Calm.refl _)
  have hq : ∃ d7 : Live, Quiet d6 d7 ∧ e = (if (d.link l).deferred && st = .lost then sendStatus v l
      (edge v (.link l) (d.linkAsserted l) d7) else edge v (.link l) (d.linkAsserted l) d7) :=
    ⟨if bs.any (fun b => (d.boundary b.number).acceptance = .requested) then d6.setReeval true
        else d6, Quiet.ite (quiet_setReeval _ _) (Calm.refl _).quiet, rfl⟩
  obtain ⟨d7, q7, he⟩ := hq
  have w8 := watched_edge v (.link l) (d.linkAsserted l) d7
  have f8 := faultsStand_edge v (.link l) (d.linkAsserted l) d7
  generalize hd8 : edge v (.link l) (d.linkAsserted l) d7 = d8 at *
  have l8 : d8.links = d1.links := by
    rw [w8.links, show d7.links = d6.links from q7.links, c6.links, w3.links]; exact b2
  have bd8 : d8.boundaries = d2.boundaries := by
    rw [w8.boundaries, show d7.boundaries = d6.boundaries from q7.boundaries, c6.boundaries,
        w3.boundaries]
  have fl8 : ∀ n, (d8.control n).faults = (d3.control n).faults := by
    intro n
    rw [f8 n, show (d7.control n).faults = (d6.control n).faults from (show Calm d6 (d7.setReeval
        d6.reeval) from q7).faultsStand n, c6.faultsStand n]
  have k1 := d.link_setLink_self hl (fun k => { k with state := st, rx := [], tx := [], silence := none, deferred := false, nextStatus := if st = .disabled then none else k.nextStatus, hunt := if st = .disabled then [] else k.hunt })
  have hlink : (e.link l).state = st ∧ (e.link l).rx = [] ∧ (e.link l).tx = [] ∧
      (e.link l).silence = none ∧ (e.link l).nextStatus = (if st = .disabled then none else (d.link
          l).nextStatus) := by
    have g : d8.link l = d1.link l := Live.link_congr l8 l
    rw [he]; split
    · unfold sendStatus
      rw [d8.link_setLink_self (by rw [l8]; simp [d1, hl]) _, g]
      show (_ = st) ∧ _
      rw [k1]; simp
    · rw [g]; show ((d1.link l).state = st) ∧ _; rw [k1]; simp
  have heb : ∀ k, e.boundary k = d2.boundary k := by
    intro k; rw [he]; split
    · exact Live.boundary_congr bd8 k
    · exact Live.boundary_congr bd8 k
  have hef : ∀ n, (e.control n).faults = (d3.control n).faults := by
    intro n; rw [he]; split
    · exact fl8 n
    · exact fl8 n
  refine ⟨hlink.1, hlink.2.1, hlink.2.2.1, hlink.2.2.2.1, hlink.2.2.2.2, fun j hj => ?_,
      fun bd hb => ⟨fun hbb => ?_, fun hs hcc => ?_⟩, fun b hb => ?_, fun hs n => ?_⟩
  · have g : d8.link j = d.link j := by
      rw [Live.link_congr l8]; exact Live.link_setLink_ne _ (fun e => hj e.symm) _
    rw [he]; split
    · unfold sendStatus; rw [Live.link_setLink_ne _ (fun e => hj e.symm)]; exact g
    · exact g
  · rw [heb, b1, if_pos ⟨⟨bd, hb, rfl⟩, hbb⟩]; rfl
  · refine raised_of_faults (d := d3) ?_ (hef _)
    show (if st = .lost then _ else d2 : Live).raised _ _ _
    rw [if_pos hs]; exact r4 bd hb (by unfold Live.hasControl; rw [b3]; exact hcc)
  · rw [heb, b1, if_neg]
    · rfl
    · rintro ⟨⟨c, hc, hcn⟩, _⟩; exact hb c hc hcn
  · rw [hef]
    show ((if st = .lost then _ else d2 : Live).control n).faults = _
    rw [if_neg hs]
    rw [Live.control_congr b3]; rfl

/-- A STATUS applied to a boundary at rest: the views and home, no neighbour waiting, the consistency timer. -/
theorem applyEntry_rest (v : Env) (bd : BoundaryDef) (y : StatusEntry) (first : Bool) (d : Live)
    (hbd : v.boundary? bd.number = some bd) (hu : (d.link bd.link).state = .up) (hb :
        d.hasBoundary bd.number)
    (h1 : (d.boundary bd.number).exitSlot = none) (h2 : (d.boundary bd.number).acceptance = .none)
    (h4 : (d.boundary bd.number).berthLocked = false) (hw : y.waiting = false) :
    ∃ c : Option Time → Option Time, applyEntry v bd.number (some y) first d = d.setBoundary bd.number (fun x => { x with views := some y, home := y.home, waiting := false, consExpiry := c x.consExpiry }) := by
  have hlu : ∀ e : Live, e.links = d.links → linkUp v e bd.number = true := by
    intro e he; unfold linkUp; rw [hbd]; simp only; rw [Live.link_congr he, hu]; simp
  let d1 := d.setBoundary bd.number (fun x => { x with views := some y, home := y.home })
  let d3 := d1.setBoundary bd.number (fun x => { x with waiting := false })
  have B1 : d1.boundary bd.number = { d.boundary bd.number with views := some y, home := y.home } :=
    d.boundary_setBoundary_self hb _ (fun _ => rfl)
  have hb1 : d1.hasBoundary
      bd.number := by unfold Live.hasBoundary; rw [d.setBoundary_nums _ _ (by exact fun _ => rfl)]; exact hb
  have B3 : d3.boundary bd.number = { d1.boundary bd.number with waiting := false } :=
    d1.boundary_setBoundary_self hb1 _ (fun _ => rfl)
  have hex : ∀ e : Live, (e.boundary bd.number).exitSlot = none → ∀ f, exitNeeds e bd.number
      f = false := by
    intro e he f; unfold exitNeeds; rw [he]
  have hrr : ∀ p, reRequest v bd.number p y first d1 = d1 := by
    intro p
    unfold reRequest
    have a : trySeek v bd.number d1 = d1 := by
      unfold trySeek; rw [hbd]; simp only; rw [hex d1 (by rw [B1]; exact h1)]; simp
    have b : tryAccept v bd.number d1 = d1 := by
      unfold tryAccept; simp only; rw [hex d1 (by rw [B1]; exact h1)]; simp
    simp [a, b]
  have hws : waitingStep v bd.number y d1 = d3 := by
    unfold waitingStep; rw [hlu d1 rfl, hw]; simp; rfl
  have hcons : consumes (d1.boundary bd.number) y = false := by unfold consumes; rw [B1]; simp [h2]
  have haba : abandons (d1.boundary bd.number) y = false := by unfold abandons; rw [B1]; simp [h4]
  have hfb : ∀ r : Release, r.live = d3 → r.points = [] → r.signals = [] → r.any = false →
      finishBerth v bd.number (d1.boundary bd.number) (resetEnded (d1.boundary bd.number) bd.number
          d3) r = d3 := by
    rintro ⟨rl, rp, rs, ra⟩ rfl rfl rfl rfl
    have hre : resetEnded (d1.boundary bd.number) bd.number d3 = false := by
      unfold resetEnded; rw [B3, B1]; cases (d.boundary bd.number).resetExpiry <;> rfl
    have hdf : (d1.boundary bd.number).differs (d3.boundary bd.number) = false := by
      unfold Boundary.differs; rw [B3, B1]; simp
    unfold finishBerth
    rw [hre]
    simp only [Bool.false_eq_true, if_false]
    unfold reportChange
    rw [hdf]
    simp only [Bool.false_eq_true, if_false]
    rw [handOn_unmoved _ _ _ _ (by rw [B3, B1]) (by rw [B3, B1]) (by rw [B3, B1])]
    rfl
  have hea : exitAspect v bd.number d1 = d1 := by
    unfold exitAspect; rw [B1]; simp only [h1]
  have hcs : ∃ c : Option Time → Option Time, consistencyStep v bd.number (some y)
      d3 = d3.setBoundary bd.number (fun x => { x with consExpiry := c x.consExpiry }) := by
    unfold consistencyStep
    have hid : d3 = d3.setBoundary bd.number (fun x => { x with consExpiry := id x.consExpiry }) := by
      cases hd : d3
      unfold Live.setBoundary
      simp
    split
    · exact ⟨id, hid⟩
    · split
      · exact ⟨fun _ => none, rfl⟩
      · split
        · exact ⟨id, hid⟩
        · exact ⟨fun _ => _, rfl⟩
  obtain ⟨c, hc⟩ := hcs
  refine ⟨c, ?_⟩
  have hall : applyEntry v bd.number (some y) first d = consistencyStep v bd.number (some y) d3 := by
    unfold applyEntry
    rw [hlu d rfl]
    simp only [Bool.not_true, Bool.false_eq_true, if_false]
    have hd1 : d.setBoundary bd.number (fun x => { x with views := some y, home := y.home }) = d1 := rfl
    have hst : (Release.start d1).live = d1 := rfl
    simp only [hd1, hea, ite_self]
    unfold applyViews
    simp only [hcons, haba, Bool.false_eq_true, if_false, hst, hrr, hws]
    rw [hfb _ rfl rfl rfl rfl]
  rw [hall, hc]
  show Live.setBoundary _ _ _ = _
  simp only [d3, d1]
  unfold Live.setBoundary
  simp only [List.map_map]
  congr 1
  apply List.map_congr_left
  intro x _
  simp only [Function.comp]
  by_cases hx : x.num = bd.number <;> simp [hx]

theorem becomeUp_watched (v : Env) (l : Nat) (d : Live) :
    Watched (d.setLink l (fun k => { k with state := .up, silence := some (after v.now
        v.timing.linkTimeout) })) (becomeUp v l d) := by
  unfold becomeUp
  refine Watched.trans ?_ (watched_setReeval _ true)
  refine Watched.trans ?_ (calm_evaluateExits v _ _).watched
  refine Watched.trans ?_ (Watched.foldl _ (fun d b => watched_endFault v _ _ d) _ _)
  exact (calm_report _ _).watched

theorem modify_congr {α} (ls : List α) (l : Nat) (f g : α → α) (h : ∀ x, ls[l]? = some x →
    f x = g x) : ls.modify l f = ls.modify l g := by
  apply List.ext_getElem?
  intro j
  rw [List.getElem?_modify, List.getElem?_modify]
  by_cases hj : l = j
  · subst hj
    cases hx : ls[l]? with
    | none => rfl
    | some x => simp [h x hx]
  · simp [hj]

/-- The end of a BOUNDARY_RESET, from the record as its changes leave it: its entries turn GONE where the
berth is FREE, and one report and the hand-ons change nothing else that a claim watches. -/
theorem applyReset_end (v : Env) (b : Nat) (x : Boundary) (locked : Bool) (d d5 : Live)
    (h5 : d5 = if locked then d else clearBoundaryFaults v b d) :
    Watched d (handOnBoundary v b x (d5.report (boundaryReport d5 b none))) ∧
    (∀ bd, v.boundary? b = some bd → locked = false → ∀ k ∈ [FaultKind.contest, .restricted], ∀ f,
        ((handOnBoundary v b x (d5.report (boundaryReport d5 b none))).control bd.element).fault? k
          = some f → f.active = false) := by
  have hq : ∀ e r, Quiet (Live.report e r) (handOnBoundary v b x (e.report r)) := fun e r =>
    quiet_handOnBoundary _ _ _ _
  have qw : ∀ e f, Quiet e f → Watched e f := by
    intro e f h
    have := (show Calm e (f.setReeval e.reeval) from h).watched
    exact this.trans (watched_setReeval _ f.reeval)
  refine ⟨Watched.trans ?_ ((calm_report _ _).watched.trans (qw _ _ (hq d5 _))),
    fun bd hb hl k hk f hf => ?_⟩
  · rw [h5]
    exact Watched.ite (Watched.refl d) (watched_clearBoundaryFaults v b d)
  · have hx : ((handOnBoundary v b x (d5.report (boundaryReport d5 b none))).control
        bd.element).faults = (d5.control bd.element).faults := by
      have c : Calm (d5.report (boundaryReport d5 b none)) _ := hq d5 (boundaryReport d5 b none)
      have := c.faultsStand bd.element
      exact this
    unfold Control.fault? at hf
    rw [hx] at hf
    have hf1 : (d5.control bd.element).fault? k = some f := hf
    rw [h5, hl] at hf1
    simp only [Bool.false_eq_true, if_false] at hf1
    unfold clearBoundaryFaults at hf1
    rw [hb] at hf1
    simp only [List.mem_cons, List.not_mem_nil, or_false] at hk
    rcases hk with rfl | rfl
    · exact endFault_inactive _ _ _ _ _ (endFault_gone _ _ _ _) f hf1
    · exact endFault_gone _ _ _ _ f hf1

end Sys2Proof.Machine
end

