-- ==== Sys2Proof/Laws/Upheld.lean ====
section
/-! SUPPORT. What operations on the whole state keep of the aspects, the slots, the locks and the flank counts:
the environment may change, and with it lane mode and the blocked flags (R16, R77, R78, R146). -/

namespace Sys2Proof.Machine

open Sys2Proof

/-! ### Environments with the same definitions -/

/-- The definitions of two environments are the same. -/
structure EnvLike (v w : Env) : Prop where
  store : w.store = v.store
  dfn : ∀ n, (w.element? n).map Element.dfn = (v.element? n).map Element.dfn

theorem EnvLike.refl (v : Env) : EnvLike v v := ⟨rfl, fun _ => rfl⟩
theorem EnvLike.symm {v w : Env} (h : EnvLike v w) : EnvLike w v :=
  ⟨h.store.symm, fun n => (h.dfn n).symm⟩
theorem EnvLike.trans {u v w : Env} (h : EnvLike u v) (k : EnvLike v w) : EnvLike u w :=
  ⟨k.store.trans h.store, fun n => (k.dfn n).trans (h.dfn n)⟩

theorem EnvLike.defs {v w : Env} (h : EnvLike v w) : w.defs = v.defs := by
  unfold Env.defs; rw [h.store]
theorem EnvLike.operating {v w : Env} (h : EnvLike v w) : w.operating = v.operating := by
  unfold Env.operating Env.part; rw [h.store]
theorem EnvLike.route? {v w : Env} (h : EnvLike v w) : w.route? = v.route? := by
  funext r; unfold Env.route?; rw [h.defs]
theorem EnvLike.boundary? {v w : Env} (h : EnvLike v w) : w.boundary? = v.boundary? := by
  funext r; unfold Env.boundary?; rw [h.defs]
theorem EnvLike.routeOf {v w : Env} (h : EnvLike v w) (d : Live) : d.routeOf w = d.routeOf v := by
  funext i; unfold Live.routeOf; rw [h.route?]

/-- A test of an element's definition. -/
theorem EnvLike.elementIs {v w : Env} (h : EnvLike v w) (n : Nat) (f : Element → Bool)
    (g : ElementDef → Bool) (hf : ∀ e, f e = g e.dfn) : w.elementIs n f = v.elementIs n f := by
  have a : ∀ u : Env, u.elementIs n f = match (u.element? n).map Element.dfn with
      | some x => g x | none => false := by
    intro u
    unfold Env.elementIs
    cases u.element? n <;> simp [hf]
  rw [a, a, h.dfn]

theorem EnvLike.isSignal {v w : Env} (h : EnvLike v w) (n : Nat) :
    w.elementIs n Element.isSignal = v.elementIs n Element.isSignal :=
  h.elementIs n _ (fun x => match x.kind with | .signal .. => true | _ => false) (fun _ => rfl)

theorem EnvLike.inActiveGroup {v w : Env} (h : EnvLike v w) (d : Live) (n : Nat) :
    inActiveGroup w d n = inActiveGroup v d n := by
  have a : ∀ g, w.elementIs n (fun e => e.member g) = v.elementIs n (fun e => e.member g) := fun g =>
    h.elementIs n _ (fun x => match x.kind with
      | .point _ _ _ _ _ m => m.getLsbD g
      | .signal _ _ m _ => m.getLsbD g
      | _ => false) (fun _ => rfl)
  unfold Machine.inActiveGroup
  simp only [a]

theorem EnvLike.clearedAt {v w : Env} (h : EnvLike v w) {d : Live} {n : Nat} :
    d.clearedAt w n ↔ d.clearedAt v n := by
  unfold Live.clearedAt; rw [h.routeOf]

theorem EnvLike.lit {v w : Env} (h : EnvLike v w) {d : Live} {X : Nat → Prop} :
    d.litBut w X ↔ d.litBut v X := by
  unfold Live.litBut
  simp only [h.isSignal, h.clearedAt]

theorem EnvLike.slotsOk {v w : Env} (h : EnvLike v w) {d : Live} : d.slotsOk w ↔ d.slotsOk v := by
  unfold Live.slotsOk; rw [h.routeOf]
theorem EnvLike.exitsTied {v w : Env} (h : EnvLike v w) {d : Live} : d.exitsTied w ↔ d.exitsTied v := by
  unfold Live.exitsTied; rw [h.routeOf]
theorem EnvLike.tabled {v w : Env} (h : EnvLike v w) {d : Live} : d.tabled w ↔ d.tabled v := by
  unfold Live.tabled; rw [h.boundary?]
theorem EnvLike.locksTied {v w : Env} (h : EnvLike v w) {d : Live} : d.locksTied w ↔ d.locksTied v := by
  unfold Live.locksTied Live.lockOwned; rw [h.routeOf, h.boundary?]

theorem EnvLike.free {v w : Env} (h : EnvLike v w) {d : Live} {X : Nat → Prop} (hm : w.mode = v.mode)
    (hb : ∀ n, w.blocked n = v.blocked n) : d.freeBut w X ↔ d.freeBut v X := by
  unfold Live.freeBut forcedStop
  simp only [h.isSignal, h.inActiveGroup, hm, hb]

/-! ### The invariants in parts -/

theorem aspectsShown_iff {s : State} (ho : s.env.operating = true) : s.aspectsShown ↔
    s.live.litBut s.env (fun _ => False) ∧ s.live.freeBut s.env (fun _ => False) := by
  unfold State.aspectsShown Live.litBut Live.freeBut forcedStop
  constructor
  · intro h
    refine ⟨fun n hn _ ha => (h ho n hn ha).1, fun n hn _ ha => ?_⟩
    obtain ⟨_, a, b, c, e⟩ := h ho n hn ha
    simp [a, b, c, e]
  · intro h _ n hn ha
    have a := h.2 n hn (fun x => x) ha
    simp only [Bool.or_eq_false_iff, bne_eq_false_iff_eq, decide_eq_false_iff_not, Nat.not_lt,
      Nat.le_zero] at a
    exact ⟨h.1 n hn (fun x => x) ha, a.1.1.1, a.1.1.2, a.1.2, a.2⟩

theorem claimsTied_iff {s : State} (ho : s.env.operating = true) : s.claimsTied ↔
    s.live.locksTied s.env ∧ s.live.countsTied ∧ s.live.exitsTied s.env := by
  unfold State.claimsTied Live.locksTied Live.countsTied
  constructor
  · intro h
    refine ⟨(h ho).1, fun q hq => ?_, (h ho).2.2⟩
    cases q with
    | point n pos =>
      cases pos
      · exact ((h ho).2.1 n hq).1
      · exact ((h ho).2.1 n hq).2.1
    | signal n => exact ((h ho).2.1 n hq).2.2
  · intro h _
    exact ⟨h.1, fun n hn => ⟨h.2.1 (.point n .normal) hn, h.2.1 (.point n .reverse) hn,
      h.2.1 (.signal n) hn⟩, h.2.2⟩

theorem tabled_of_tables {s : State} (h : s.tablesWhole) : s.live.tabled s.env := by
  intro b bd hb
  cases ho : s.env.operating with
  | false =>
    have : s.env.defs = {} := by
      unfold Env.operating Env.part at ho
      unfold Env.defs
      cases hs : s.env.store <;> simp_all
    unfold Env.boundary? at hb
    rw [this] at hb
    cases hb
  | true =>
    unfold Live.hasBoundary
    rw [(h.2 ho).2.1]
    exact List.mem_map.2 ⟨bd, List.mem_of_find?_eq_some hb, boundary?_number hb⟩

/-! ### Operations on the whole state -/

/-- What an operation keeps of the tables, the aspects, the slots and the claims. -/
structure Upholds (s t : State) : Prop where
  tables : s.tablesWhole → t.tablesWhole
  shown : s.tablesWhole → s.aspectsShown → t.aspectsShown
  sound : s.tablesWhole → s.slotsSound → t.slotsSound
  tied : s.tablesWhole → s.slotsSound → s.claimsTied → t.claimsTied

theorem Upholds.refl (s : State) : Upholds s s := ⟨id, fun _ => id, fun _ => id, fun _ _ => id⟩
theorem Upholds.trans {s t u : State} (h : Upholds s t) (k : Upholds t u) : Upholds s u where
  tables a := k.tables (h.tables a)
  shown a b := k.shown (h.tables a) (h.shown a b)
  sound a b := k.sound (h.tables a) (h.sound a b)
  tied a b c := k.tied (h.tables a) (h.sound a b) (h.tied a b c)

theorem Upholds.ite {s t u : State} {c : Prop} [Decidable c] (h : Upholds s t) (k : Upholds s u) :
    Upholds s (if c then t else u) := by split <;> assumption

/-- A state out of OPERATING. -/
theorem upholds_idle {s t : State} (ho : t.env.operating = false) (ht : s.tablesWhole → t.tablesWhole) :
    Upholds s t :=
  ⟨ht, fun _ _ h => (by rw [ho] at h; cases h), fun _ _ h => (by rw [ho] at h; cases h),
    fun _ _ _ h => (by rw [ho] at h; cases h)⟩

/-- The aspects under another environment of the same lane mode and blocked flags. -/
theorem shown_of {s t : State} (he : EnvLike s.env t.env) (hm : t.env.mode = s.env.mode)
    (hb : ∀ n, t.env.blocked n = s.env.blocked n) (hs : Shows t.env s.live t.live)
    (h : s.aspectsShown) : t.aspectsShown := by
  intro ho
  have ho' : s.env.operating = true := by rw [← he.operating]; exact ho
  have a := (aspectsShown_iff ho').1 h
  exact (aspectsShown_iff ho).2 ⟨hs.lit _ (he.lit.2 a.1), hs.free _ ((he.free hm hb).2 a.2)⟩ ho

/-- An act under another environment of the same lane mode. -/
theorem sound_of {s t : State} (he : EnvLike s.env t.env) (hm : t.env.mode = s.env.mode)
    (hk : s.live.slotsOk s.env → Keeps t.env s.live t.live) (h : s.slotsSound) : t.slotsSound := by
  intro ho
  obtain ⟨a, b, c⟩ := h (by rw [← he.operating]; exact ho)
  have k := hk ⟨a, b⟩
  have o := k.slots (he.slotsOk.2 ⟨a, b⟩)
  refine ⟨o.1, o.2, fun n => ?_⟩
  obtain ⟨c1, c2⟩ := c (by rw [← hm]; exact n)
  obtain ⟨f1, f2⟩ := k.fades n c1
  exact ⟨f1, fun i => ⟨fun e => (c2 i).1 (f2 i e), fun e => (c2 i).2 (k.shows.dim n i e)⟩⟩

theorem tied_of {s t : State} (he : EnvLike s.env t.env)
    (hk : s.live.slotsOk s.env → Holds t.env s.live t.live) (ht : s.tablesWhole) (h : s.slotsSound)
    (c : s.claimsTied) : t.claimsTied := by
  intro ho
  have ho' : s.env.operating = true := by rw [← he.operating]; exact ho
  obtain ⟨a, b, _⟩ := h ho'
  have k := hk ⟨a, b⟩
  have o := he.slotsOk.2 (⟨a, b⟩ : s.live.slotsOk s.env)
  have x := (claimsTied_iff ho').1 c
  exact (claimsTied_iff ho).2 ⟨k.locks (he.tabled.2 (tabled_of_tables ht)) o (he.locksTied.2 x.1),
    k.counts o x.2.1, k.exits (he.exitsTied.2 x.2.2)⟩ ho

/-- An act on the live state under another environment of the same lane mode and blocked flags. -/
theorem upholds_of {s t : State} (he : EnvLike s.env t.env) (hm : t.env.mode = s.env.mode)
    (hb : ∀ n, t.env.blocked n = s.env.blocked n) (ht : s.tablesWhole → t.tablesWhole)
    (hk : Keeps t.env s.live t.live) : Upholds s t :=
  ⟨ht, fun _ => shown_of he hm hb hk.shows, fun _ => sound_of he hm (fun _ => hk),
    tied_of he (fun _ => hk.toHolds)⟩

theorem upholds_live (s : State) (d : Live) (h : Keeps s.env s.live d) : Upholds s { s with live := d } :=
  upholds_of (EnvLike.refl _) rfl (fun _ => rfl) (kept_live s d h.whole).tables h

theorem upholds_act (s : State) (f : Env → Live → Live) (h : Keeps s.env s.live (f s.env s.live)) :
    Upholds s (s.act f) := upholds_live s _ (h.trans (keeps_serve _ _))

/-- What touches no table that the aspects, the slots and the claims are read from. -/
theorem upholds_same {s t : State} (he : EnvLike s.env t.env) (hm : t.env.mode = s.env.mode)
    (hb : ∀ n, t.env.blocked n = s.env.blocked n) (ht : s.tablesWhole → t.tablesWhole)
    (h1 : t.live.slots = s.live.slots) (h2 : t.live.controls = s.live.controls)
    (h3 : t.live.groups = s.live.groups) (h4 : t.live.boundaries = s.live.boundaries)
    (h5 : t.live.stored = s.live.stored) : Upholds s t := by
  have sl : ∀ i, t.live.slot i = s.live.slot i := Live.slot_congr h1
  have ct : ∀ n, t.live.control n = s.live.control n := fun n => by unfold Live.control; rw [h2]
  have ro : ∀ v, t.live.routeOf v = s.live.routeOf v := fun v => by
    funext i; unfold Live.routeOf; rw [sl]
  have sh : Shows t.env s.live t.live := Shows.away h1 h3 h2
  have lk : ∀ v n k, t.live.lockOwned v n k ↔ s.live.lockOwned v n k := fun v n k => by
    unfold Live.lockOwned
    simp only [ro, sl, Live.boundary_congr h4]
  refine ⟨ht, fun _ => shown_of he hm hb sh, fun _ h ho => ?_, fun _ _ c ho => ?_⟩
  · obtain ⟨a, b, c⟩ := h (by rw [← he.operating]; exact ho)
    refine ⟨fun i => by rw [sl]; exact a i, fun i => ?_, fun n => ?_⟩
    · rw [sl, ro, he.routeOf]; exact b i
    · rw [h5]
      obtain ⟨c1, c2⟩ := c (by rw [← hm]; exact n)
      exact ⟨c1, fun i => by rw [sl]; exact c2 i⟩
  · have ho' : s.env.operating = true := by rw [← he.operating]; exact ho
    have x := (claimsTied_iff ho').1 c
    refine (claimsTied_iff ho).2 ⟨he.locksTied.2 (fun n k hk => ?_), fun q hq => ?_,
      he.exitsTied.2 (exitsTied_same h4 (fun i => by rw [sl]; exact ⟨rfl, rfl⟩) x.2.2)⟩ ho
    · rw [ct] at hk
      exact (lk _ n k).2 (x.1 n k hk)
    · have a : t.live.counted q = s.live.counted q := by cases q <;> simp [Live.counted, ct]
      have b : t.live.protecting q = s.live.protecting q := by unfold Live.protecting; rw [h1]
      rw [a, b]
      exact x.2.1 q (by unfold Live.hasControl at *; rwa [h2] at hq)

theorem upholds_refuse (s : State) (q : Request) (r : Reason) : Upholds s (s.refuse q r) :=
  upholds_live s _ (keeps_report _ _ _)

theorem upholds_setLane (s : State) (l : LaneId) (f : LanePort → LanePort) :
    Upholds s { s with live := s.live.setLane l f } := by
  refine upholds_same (EnvLike.refl _) rfl (fun _ => rfl) (tables_setLane l f) ?_ ?_ ?_ ?_ ?_ <;>
    cases l <;> rfl

/-- An environment with the same store, elements and presence marks. -/
theorem upholds_env (s : State) (w : Env) (hs : w.store = s.env.store)
    (he : w.elements = s.env.elements) (ha : w.presentA = s.env.presentA)
    (hb : w.presentB = s.env.presentB) : Upholds s { s with env := w } := by
  have e : ∀ n, w.element? n = s.env.element? n := fun n => by unfold Env.element?; rw [he]
  refine upholds_same ⟨hs, fun n => by rw [show (State.env _) = w from rfl, e]⟩ ?_ (fun n => ?_)
    (kept_env s w hs he ha hb).tables rfl rfl rfl rfl rfl
  · show w.mode = s.env.mode
    unfold Env.mode; rw [ha, hb]
  · show w.blocked n = s.env.blocked n
    unfold Env.blocked Env.elementIs; rw [e]

/-! ### The exchange and the vote -/

theorem upholds_exchange (s : State) (x : Exchange) : Upholds s (s.exchange x) := by
  have h1 : Upholds s (s.shiftOut x) := Upholds.ite (upholds_setLane s _ _) (Upholds.refl s)
  refine h1.trans ?_
  obtain ⟨a, b, h⟩ := heard_eq (s.shiftOut x).env x.lane
  have e : s.exchange x = { s.shiftOut x with env := (s.shiftOut x).env.heard x.lane } := rfl
  rw [e, h]
  exact upholds_env _ _ rfl rfl rfl rfl

theorem upholds_vote (s : State) (l : LaneId) (q : Request) (v : Env) :
    Upholds s { s with live := (vote v l q s.live).1 } := by
  have hp : Upholds s { s with live := (pairOrWait v l q s.live).1 } := by
    unfold pairOrWait
    split
    · exact upholds_setLane s l.other (fun p => { p with requests := dropFirst q p.requests })
    · split
      · exact upholds_setLane s l (fun p => { p with requests := p.requests ++
          [{ request := q, arrival := v.now, expiry := after v.now v.window }] })
      · exact upholds_setLane s _ _
  unfold vote
  split
  · split
    · exact hp
    · split
      · exact Upholds.refl s
      · exact upholds_setLane s _ _
  · exact hp

theorem upholds_voted (s : State) (x : Exchange) (q : Request) (own : State → State)
    (h : ∀ s, Upholds s (own s)) : Upholds s (s.voted x q own) := by
  unfold State.voted
  have h1 := (upholds_exchange s x).trans (upholds_vote (s.exchange x) x.lane q (s.exchange x).env)
  dsimp only
  split
  · refine h1.trans ?_
    unfold State.hand
    split
    · exact upholds_refuse _ _ _
    · exact h _
  · exact h1

/-! ### Elements changed (R6, R12, R14, R16) -/

theorem dfn_setElement (v : Env) (n : Nat) (f : Element → Element) (hn : ∀ e, (f e).num = e.num)
    (hd : ∀ e, (f e).dfn = e.dfn) (m : Nat) :
    ((v.setElement n f).element? m).map Element.dfn = (v.element? m).map Element.dfn := by
  rw [v.element?_setElement n m f hn]
  split
  · next h =>
    subst h
    cases v.element? m <;> simp [hd]
  · rfl

theorem like_setElement (v : Env) (n : Nat) (f : Element → Element) (hn : ∀ e, (f e).num = e.num)
    (hd : ∀ e, (f e).dfn = e.dfn) : EnvLike v (v.setElement n f) :=
  ⟨by simp, dfn_setElement v n f hn hd⟩

theorem blocked_setElement (v : Env) (n : Nat) (f : Element → Element) (hn : ∀ e, (f e).num = e.num)
    (m : Nat) (hb : ∀ e, m = n → (f e).blocked = e.blocked) :
    (v.setElement n f).blocked m = v.blocked m := by
  unfold Env.blocked Env.elementIs
  rw [v.element?_setElement n m f hn]
  by_cases h : m = n
  · rw [if_pos h, ← h]
    cases he : v.element? m with
    | none => rfl
    | some e => exact hb e h
  · rw [if_neg h]

theorem mode_setElement (v : Env) (n : Nat) (f : Element → Element) :
    (v.setElement n f).mode = v.mode := by unfold Env.mode; simp

/-- An element record changed but for its definition and its blocked flag, with an act that keeps. -/
theorem upholds_setElement (s : State) (n : Nat) (f : Element → Element) (d : Live)
    (hn : ∀ e, (f e).num = e.num) (hd : ∀ e, (f e).dfn = e.dfn) (hb : ∀ e, (f e).blocked = e.blocked)
    (ht : s.tablesWhole → State.tablesWhole { s with env := s.env.setElement n f, live := d })
    (hk : Keeps (s.env.setElement n f) s.live d) :
    Upholds s { s with env := s.env.setElement n f, live := d } :=
  upholds_of (like_setElement _ n f hn hd) (mode_setElement _ _ _)
    (fun m => blocked_setElement _ n f hn m (fun e _ => hb e)) ht hk

theorem tables_setElement (s : State) (n : Nat) (f : Element → Element) (d : Live)
    (hn : ∀ e, (f e).num = e.num) (hw : Whole s.live d) (h : s.tablesWhole) :
    State.tablesWhole { s with env := s.env.setElement n f, live := d } :=
  hw.tables (s := s) (by simp) (nums_setElement _ n f hn) h

theorem upholds_updateElement (s : State) (n : Nat) (f : Element → Element)
    (hn : ∀ e, (f e).num = e.num) (hd : ∀ e, (f e).dfn = e.dfn) (hb : ∀ e, (f e).blocked = e.blocked) :
    Upholds s (s.updateElement n f) := by
  unfold State.updateElement
  split
  · exact upholds_setElement s n f _ hn hd hb
      (tables_setElement s n f _ hn (whole_handOnElement _ _ _ _ _)) (keeps_handOnElement _ _ _ _ _)
  · exact Upholds.refl s

theorem derive_fixed (v : Env) (e : Element) : (v.derive e).num = e.num ∧ (v.derive e).dfn = e.dfn
    ∧ (v.derive e).blocked = e.blocked := by
  unfold Env.derive Env.timeDiscrepancy Element.agree Element.filter
  simp only
  refine ⟨?_, ?_, ?_⟩ <;> (repeat' split) <;> rfl

theorem setView_fixed (e : Element) (l : LaneId) (x : Option Detection) :
    (e.setView l x).num = e.num ∧ (e.setView l x).dfn = e.dfn ∧ (e.setView l x).blocked = e.blocked := by
  cases l <;> exact ⟨rfl, rfl, rfl⟩

theorem upholds_applyPairs (l : LaneId) (ps : List (Nat × Nat)) (s : State) :
    Upholds s (s.applyPairs l ps) := by
  have h1 : ∀ (s : State) (p : Nat × Nat), Upholds s (State.applyPair l s p) := by
    intro s p
    unfold State.applyPair
    split
    · next x _ =>
      refine Upholds.ite (Upholds.refl s) (upholds_updateElement s _ _ (fun e => ?_) (fun e => ?_) (fun e => ?_))
      · exact (derive_fixed _ _).1.trans (setView_fixed _ _ _).1
      · exact (derive_fixed _ _).2.1.trans (setView_fixed _ _ _).2.1
      · exact (derive_fixed _ _).2.2.trans (setView_fixed _ _ _).2.2
    · exact Upholds.refl s
  have h : ∀ (ps : List (Nat × Nat)) (s : State), Upholds s (ps.foldl (State.applyPair l) s) := by
    intro ps
    induction ps with
    | nil => exact fun _ => Upholds.refl _
    | cons p ps ih => exact fun s => (h1 s p).trans (ih _)
  unfold State.applyPairs
  exact Upholds.ite (h ps s) (Upholds.refl s)

theorem upholds_discrepancyDue (n : Nat) (s : State) : Upholds s (s.discrepancyDue n) := by
  unfold State.discrepancyDue
  refine Upholds.ite ?_ (Upholds.refl s)
  refine upholds_setElement s n _ _ (fun _ => rfl) (fun _ => rfl) (fun _ => rfl) ?_ ?_
  · exact tables_setElement s n _ _ (fun _ => rfl) ((watched_raise _ _ _ _ _).whole.trans (whole_serve _ _))
  · exact (keeps_raise _ _ _ _ _).trans (keeps_serve _ _)

/-- A blocked flag changed and handed on. -/
theorem upholds_setBlocked (s : State) (n : Nat) (b : Bool) : Upholds s (s.setBlocked n b) := by
  have like := like_setElement s.env n (fun e => { e with blocked := b }) (fun _ => rfl) (fun _ => rfl)
  have mode := mode_setElement s.env n (fun e => { e with blocked := b })
  unfold State.setBlocked
  dsimp only
  set v := s.env.setElement n (fun e => { e with blocked := b }) with hv
  have k1 := keeps_evaluateElement v n s.live
  have k2 : Keeps v s.live (if v.elementIs n Element.isSignal then
      computeAspect v n (evaluateElement v n s.live) else evaluateElement v n s.live) :=
    Keeps.ite (k1.trans (keeps_computeAspect v n _)) k1
  refine ⟨tables_setElement s n _ _ (fun _ => rfl) k2.whole, fun _ h => ?_,
    fun _ => sound_of like mode (fun _ => k2), tied_of like (fun _ => k2.toHolds)⟩
  intro ho
  have ho' : s.env.operating = true := by rw [← like.operating]; exact ho
  obtain ⟨a1, a2⟩ := (aspectsShown_iff ho').1 h
  have l0 : s.live.litBut v (fun _ => False) := like.lit.2 a1
  have f0 : s.live.freeBut v (fun m => False ∨ m = n) := by
    intro m hm hX ha
    have hmn : m ≠ n := fun e => hX (Or.inr e)
    have hb := blocked_setElement s.env n (fun e => { e with blocked := b }) (fun _ => rfl) m
      (fun _ e => absurd e hmn)
    have := a2 m (by rw [← like.isSignal]; exact hm) (fun x => x) ha
    unfold forcedStop at this ⊢
    rw [like.inActiveGroup, mode, hb]
    exact this
  refine (aspectsShown_iff ho).2 ⟨k2.shows.lit _ l0, ?_⟩ ho
  show Live.freeBut v _ (if v.elementIs n Element.isSignal then _ else _)
  split
  · exact (computes_computeAspect v n _).freeOf _ (k1.shows.free _ f0)
  · next hs =>
    exact (k1.shows.free _ f0).mono (fun m hm hx => by
      rcases hx with hx | rfl
      · exact hx
      · exact absurd hm hs)

theorem upholds_takeBlock (n : Nat) (s : State) : Upholds s (takeBlock n s) :=
  Upholds.ite (upholds_refuse _ _ _) (Upholds.ite (Upholds.refl s) (upholds_setBlocked _ _ _))

theorem upholds_takeUnblock (n : Nat) (s : State) : Upholds s (takeUnblock n s) := by
  refine Upholds.ite (upholds_refuse _ _ _) (Upholds.ite ?_ (Upholds.refl s))
  refine (upholds_setBlocked s n false).trans (upholds_act _ _ ?_)
  exact (Keeps.ite (keeps_runArbiter _ _ _) (Keeps.refl _ _)).trans (keeps_setReeval _ _ _)

/-! ### Changes of lane mode (R77, R146) -/

theorem stored_emptyStored (d : Live) : (emptyStored d).stored = [] := rfl

theorem holds_emptyStored (v : Env) (d : Live) : Keeps v d (emptyStored d) := by
  unfold emptyStored
  have h : ∀ e : Live, Keeps v e (e.setStored []) := fun e =>
    ⟨holds_setStored v e _ (fun _ => Nat.zero_le _), fun _ _ => ⟨rfl, fun _ h => h⟩⟩
  exact Keeps.trans (Keeps.foldl _ (fun d (x : Stored) => keeps_report v d (storedReport x.route .laneDegraded)) _ d)
    (h _)

/-- Each slot of a fold that leaves a slot out of a state, and brings none into it. -/
theorem eachSlot_out {P : Slot → Prop} (f : Nat → Live → Live) (Q : Live → Prop)
    (hq : ∀ i d, Q d → Q (f i d)) (h1 : ∀ i d, Q d → ∀ j, P ((f i d).slot j) → P (d.slot j))
    (h2 : ∀ i d, Q d → ¬ P ((f i d).slot i)) (h0 : ¬ P Slot.free) (d : Live) (hd : Q d) :
    ∀ j, ¬ P ((d.eachSlot f).slot j) := by
  have gen : ∀ (l : List Nat) (d : Live), Q d →
      (∀ j, P ((l.foldl (fun d i => f i d) d).slot j) → P (d.slot j))
        ∧ ∀ j ∈ l, ¬ P ((l.foldl (fun d i => f i d) d).slot j) := by
    intro l
    induction l with
    | nil => exact fun d _ => ⟨fun _ h => h, fun _ h => by simp at h⟩
    | cons i is ih =>
      intro d hd
      obtain ⟨a, b⟩ := ih (f i d) (hq i d hd)
      refine ⟨fun j hj => h1 i d hd j (a j hj), fun j hj => ?_⟩
      rcases List.mem_cons.1 hj with rfl | hj
      · exact fun hp => h2 j d hd (a j hp)
      · exact b j hj
  intro j hp
  obtain ⟨a, b⟩ := gen d.slotIds d hd
  by_cases hj : j < d.slots.length
  · exact b j (by unfold Live.slotIds; simpa using hj) hp
  · have := a j hp
    unfold Live.slot at this
    rw [List.getD_eq_getElem?_getD, List.getElem?_eq_none (by omega)] at this
    exact h0 this

/-- Outside NORMAL an evaluation leaves no slot in CLEAR. -/
theorem evaluate_not_clear (v : Env) (i : Nat) (d : Live) (m : v.mode ≠ .normal)
    (hc : (d.slot i).state = .clear) : ((evaluate v i d).slot i).state ≠ .clear := by
  have hp : proves v d i = false := by
    cases h : proves v d i with
    | false => rfl
    | true => exact absurd (proves_normal h) m
  have hi : i < d.slots.length := active_lt (by simp [Slot.active, hc])
  unfold evaluate evaluateBy
  rw [hc]
  simp only [hp, Bool.false_eq_true, if_false]
  unfold changeSlotBy
  have s1 : ((d.setSlot i Slot.toHeld).slot i).state = .held := by
    rw [setSlot_slot_self hi]; rfl
  simp only
  split
  · intro e
    have := (shows_computeAspect v _ _).dim m i e
    have this : ((d.setSlot i Slot.toHeld).slot i).state = .clear := this
    rw [s1] at this
    cases this
  · show ((d.setSlot i Slot.toHeld).slot i).state ≠ .clear
    rw [s1]
    simp

/-- Leaving NORMAL leaves no slot in CLEAR, and nothing stored. -/
theorem leaveNormal_clear (v : Env) (d : Live) (m : v.mode ≠ .normal) :
    ∀ i, ((leaveNormal v d).slot i).state ≠ .clear := by
  unfold leaveNormal
  refine eachSlot_out (P := fun s => s.state = .clear) _ (fun _ => True) (fun _ _ _ => trivial)
    (fun i e _ j hj => ?_) (fun i e _ hj => ?_) (by simp [Slot.free]) _ trivial
  · revert hj
    split
    · exact (shows_evaluate v i e).dim m j
    · exact id
  · revert hj
    split
    · next h => exact evaluate_not_clear v i e m h
    · next h => exact h

/-- A slot that fails while nothing is stored is SETTING no more. -/
theorem failSetting_not_setting (v : Env) (i : Nat) (re : Reason) (d : Live) (m : v.mode ≠ .normal)
    (hs : d.stored = []) (o : d.slotsOk v) : ((failSetting v i re d).slot i).state ≠ .setting := by
  unfold failSetting
  split
  · next h =>
    obtain ⟨rt, hr⟩ := o.2 i (by simp [h])
    unfold settingRelease
    rw [hr]
    simp only
    have g := giveUpSlot_all v i (some re) false d rt hr
    have k := (keeps_serve v (giveUpSlot v i (some re) false d)).trans (keeps_computeAspect v rt.entry _)
    intro e
    have := (k.fades m (by rw [g.stored]; exact hs)).2 i e
    rw [g.free] at this
    cases this
  · next h => exact h

theorem leaveNormal_setting (v : Env) (d : Live) (m : v.mode ≠ .normal) (o : d.slotsOk v) :
    (leaveNormal v d).stored = [] ∧ ∀ i, ((leaveNormal v d).slot i).state ≠ .setting := by
  unfold leaveNormal
  have k0 := holds_emptyStored v d
  set d1 := emptyStored d with h1
  set d2 := d1.eachSlot (fun i d => failSetting v i .laneDegraded d) with h2
  have s1 : d1.stored = [] := rfl
  have k2 : Keeps v d1 d2 := Keeps.eachSlot _ (fun i e => keeps_failSetting v i _ e) d1
  have n2 : ∀ i, (d2.slot i).state ≠ .setting := by
    refine eachSlot_out (P := fun s => s.state = .setting) _ (fun e => e.stored = [] ∧ e.slotsOk v)
      (fun i e h => ?_) (fun i e h j hj => ?_) (fun i e h => ?_) (by simp [Slot.free]) d1
      ⟨s1, k0.slots o⟩
    · have k := keeps_failSetting v i .laneDegraded e
      exact ⟨(k.fades m h.1).1, k.slots h.2⟩
    · exact ((keeps_failSetting v i .laneDegraded e).fades m h.1).2 j hj
    · exact failSetting_not_setting v i _ e m h.1 h.2
  have k3 : Keeps v d2 (d2.eachSlot (fun i d => if (d.slot i).state = .clear then evaluate v i d else d)) :=
    Keeps.eachSlot _ (fun i e => Keeps.ite (keeps_evaluate v i e) (Keeps.refl v e)) d2
  have f2 := k2.fades m s1
  obtain ⟨a, b⟩ := k3.fades m f2.1
  exact ⟨a, fun i h => n2 i (b i h)⟩

theorem keeps_leaveNormal (v : Env) (d : Live) : Keeps v d (leaveNormal v d) := by
  unfold leaveNormal
  exact ((holds_emptyStored v d).trans (Keeps.eachSlot _ (fun i e => keeps_failSetting v i _ e) _)).trans
    (Keeps.eachSlot _ (fun i e => Keeps.ite (keeps_evaluate v i e) (Keeps.refl v e)) _)

theorem keeps_returnNormal (v : Env) (d : Live) : Keeps v d (returnNormal v d) :=
  (Keeps.eachSlot _ (fun i e => Keeps.ite (keeps_evaluate v i e) (Keeps.refl v e)) d).trans
    (keeps_runArbiters v _ _)

/-- The acts of a change of lane mode: what comes before the agreed values are handed on, and the rest. -/
theorem changeMode_live (m : LaneMode) (s : State) (v : Env)
    (hv : v = { s.env with elements := s.env.elements.map s.env.derive }) :
    ∃ d1, d1 = (if m = .normal then leaveNormal v
          (s.live.report (.laneMode v.mode v.presentA v.presentB))
        else s.live.report (.laneMode v.mode v.presentA v.presentB))
      ∧ Keeps v d1 (State.changeMode m s).live := by
  refine ⟨_, rfl, ?_⟩
  unfold State.changeMode
  dsimp only
  rw [← hv]
  refine Keeps.trans ?_ (keeps_serve v _)
  refine Keeps.trans ?_ (Keeps.foldl _ (fun d e => keeps_reconsider v _ _) _ _)
  refine Keeps.trans ?_ (Keeps.ite (keeps_returnNormal v _) (Keeps.refl v _))
  have h : ∀ (xs : List (Element × Element)) (d : Live),
      Keeps v d (xs.foldl (fun d x => handOnElement v false x.1 x.2 d) d) :=
    fun xs d => Keeps.foldl _ (fun d x => keeps_handOnElement v false x.1 x.2 d) xs d
  have e1 : v.presentA = s.env.presentA := by rw [hv]
  have e2 : v.presentB = s.env.presentB := by rw [hv]
  rw [e1, e2]
  exact h _ _

/-- A change of lane mode, from the mode there was (R77, R146). -/
theorem upholds_changeMode (s : State) (w : Env) (g : Element → Element) (hs : w.store = s.env.store)
    (he : w.elements = s.env.elements.map g)
    (hg : ∀ e, (g e).num = e.num ∧ (g e).dfn = e.dfn ∧ (g e).blocked = e.blocked)
    (hv : ∀ v e, Env.elementSound v e → (∀ l x, (g e).view l = some x → (g e).dfn.kind.takes x = true)
      ∧ (g e).isSection = e.isSection ∧ (g e).agreed = e.agreed ∧ (g e).occupied = e.occupied ∧
          (g e).pickUp = e.pickUp) :
    Upholds s (State.changeMode s.env.mode { s with env := w }) := by
  have tables := (kept_changeMode s s.env.mode w hs g (fun e => (hg e).1) he hv).tables
  obtain ⟨d1, h1, k⟩ := changeMode_live s.env.mode { s with env := w } _ rfl
  have env := State.changeMode_env s.env.mode { s with env := w }
  set t := State.changeMode s.env.mode { s with env := w } with ht
  set v : Env := { w with elements := w.elements.map w.derive } with hvv
  have env' : t.env = v := env
  change Keeps v d1 t.live at k
  change d1 = (if s.env.mode = .normal then leaveNormal v
          (s.live.report (.laneMode v.mode v.presentA v.presentB))
        else s.live.report (.laneMode v.mode v.presentA v.presentB)) at h1
  have look : ∀ n, v.element? n = (s.env.element? n).map (fun e => w.derive (g e)) := by
    intro n
    unfold Env.element?
    show List.find? _ (w.elements.map w.derive) = _
    rw [he, List.map_map, List.find?_map]
    have : (fun e : Element => decide (e.num = n)) ∘ (w.derive ∘ g) = fun e => decide (e.num = n) := by
      funext e
      simp [(hg e).1]
    rw [this]
    rfl
  have like : EnvLike s.env v := by
    refine ⟨hs, fun n => ?_⟩
    rw [look, Option.map_map]
    congr 1
    funext e
    exact (derive_fixed w (g e)).2.1.trans (hg e).2.1
  have blk : ∀ n, v.blocked n = s.env.blocked n := by
    intro n
    unfold Env.blocked Env.elementIs
    rw [look]
    cases s.env.element? n with
    | none => rfl
    | some e => exact (derive_fixed w (g e)).2.2.trans (hg e).2.2
  have k0 := keeps_report v s.live (.laneMode v.mode v.presentA v.presentB)
  have k1 : Keeps v s.live d1 := by
    rw [h1]
    exact Keeps.ite (k0.trans (keeps_leaveNormal v _)) k0
  have kk : Keeps v s.live t.live := k1.trans k
  have like' : EnvLike s.env t.env := by rw [env']; exact like
  refine ⟨tables, fun _ h ho => ?_, fun _ h ho => ?_,
    tied_of like' (fun _ => by rw [env']; exact kk.toHolds)⟩
  · have ho' : s.env.operating = true := by rw [← like'.operating]; exact ho
    obtain ⟨a1, a2⟩ := (aspectsShown_iff ho').1 h
    have lit := kk.shows.lit _ (like.lit.2 a1)
    refine (aspectsShown_iff ho).2 ⟨by rw [env']; exact lit, ?_⟩ ho
    rw [env']
    by_cases hm : v.mode = .normal
    · refine kk.shows.free _ (fun n hn hX ha => ?_)
      have := a2 n (by rw [← like.isSignal]; exact hn) hX ha
      unfold forcedStop at this ⊢
      rw [like.inActiveGroup, blk, hm]
      simp only [Bool.or_eq_false_iff] at this ⊢
      exact ⟨⟨⟨rfl, this.1.1.2⟩, this.1.2⟩, this.2⟩
    · by_cases hn : s.env.mode = .normal
      · rw [if_pos hn] at h1
        intro n hsig _ ha
        obtain ⟨i, rt, hc, _⟩ := lit n hsig (fun x => x) ha
        have := k.shows.dim hm i hc
        rw [h1] at this
        exact absurd this (leaveNormal_clear v _ hm i)
      · refine kk.shows.free _ (fun n hsig hX ha => ?_)
        have := a2 n (by rw [← like.isSignal]; exact hsig) hX ha
        unfold forcedStop at this
        simp only [Bool.or_eq_false_iff, bne_eq_false_iff_eq] at this
        exact absurd this.1.1.1 hn
  · obtain ⟨a, b, c⟩ := h (by rw [← like'.operating]; exact ho)
    have o0 : s.live.slotsOk v := like.slotsOk.2 ⟨a, b⟩
    have o := kk.slots o0
    rw [env']
    refine ⟨o.1, o.2, fun n => ?_⟩
    by_cases hn : s.env.mode = .normal
    · rw [if_pos hn] at h1
      obtain ⟨e1, e2⟩ := leaveNormal_setting v _ n (k0.slots o0)
      rw [← h1] at e1 e2
      obtain ⟨f1, f2⟩ := k.fades n e1
      refine ⟨f1, fun i => ⟨fun e => e2 i (f2 i e), fun e => ?_⟩⟩
      have := k.shows.dim n i e
      rw [h1] at this
      exact leaveNormal_clear v _ n i this
    · obtain ⟨c1, c2⟩ := c hn
      obtain ⟨f1, f2⟩ := kk.fades n c1
      exact ⟨f1, fun i => ⟨fun e => (c2 i).1 (f2 i e), fun e => (c2 i).2 (kk.shows.dim n i e)⟩⟩

/-! ### BOUNDARY_RESET (R167) -/

theorem shows_applyReset (v : Env) (b : Nat) (d : Live) : Shows v d (applyReset v b d) := by
  unfold applyReset
  refine Shows.trans ?_ (shows_handOnBoundary v b _ _)
  refine Shows.trans ?_ (shows_report v _ _)
  have h5 : ∀ (c : Bool) (e : Live), Shows v e (if c then e else clearBoundaryFaults v b e) :=
    fun c e => Shows.ite (Shows.refl v e) (keeps_clearBoundaryFaults v b e).shows
  refine Shows.trans ?_ (h5 _ _)
  have h2 : ∀ e, Shows v e (resetExit v b e) := by
    intro e
    unfold resetExit
    have full : ∀ i, Shows v e (holdFull v i e) := fun i =>
      shows_changeSlot v i _ e rfl (fun _ => by simp [Slot.toCancelling, Slot.active])
        (fun _ h => by simp [Slot.toCancelling] at h)
    split
    · split
      · exact (keeps_settingRelease v _ _ _ e).shows
      · exact full _
      · exact full _
      · exact full _
      · exact Shows.refl v e
    · exact Shows.refl v e
  have h3 : ∀ e, Shows v d e → Shows v d (if (e.boundary b).acceptance = .none then e
      else sendFrom v b .acceptCancel (setAcceptance b .none none e)) := fun e h =>
    Shows.ite h ((h.trans (shows_setAcceptance v _ _ _ _)).trans (shows_sendFrom v _ _ _))
  exact (h3 _ (Shows.trans (shows_setBoundary v d b _) (h2 _))).trans (shows_setBoundary v _ b _)

theorem upholds_takeBoundaryReset (b : Nat) (s : State) : Upholds s (s.act (takeBoundaryReset b)) := by
  have k := fun o => (keeps_takeBoundaryReset b s.env s.live o).trans (keeps_serve _ _)
  have sh : Shows s.env s.live (takeBoundaryReset b s.env s.live) :=
    Shows.ite (shows_report _ _ _) (Shows.ite (shows_report _ _ _) (Shows.ite (shows_report _ _ _)
      (shows_applyReset _ _ _)))
  exact ⟨(kept_act s _ (whole_takeBoundaryReset b _ _)).tables,
    fun _ => shown_of (t := s.act _) (EnvLike.refl _) rfl (fun _ => rfl)
      (sh.trans (keeps_serve s.env _).shows),
    fun _ => sound_of (t := s.act _) (EnvLike.refl _) rfl k,
    tied_of (t := s.act _) (EnvLike.refl _) (fun o => (k o).toHolds)⟩

/-! ### Loads and restarts (R176 to R178) -/

/-- Nothing is held, locked or counted: the restart values but for groups and reports. -/
theorem upholds_started {s t : State} (v : Env) (a b : LanePort) (ht : s.tablesWhole → t.tablesWhole)
    (hk : Keeps t.env (restartLive v a b) t.live) (hm : t.env.mode = .normal) : Upholds s t := by
  have n := restartLive_rest v a b
  have ok : (restartLive v a b).slotsOk t.env :=
    ⟨fun i _ => n.slot i, fun i h => absurd (by rw [n.slot]; rfl) h⟩
  have free : ∀ m, (restartLive v a b).control m = Control.fresh m := by
    intro m
    unfold Live.control
    split
    · next c hc =>
      have h1 := List.mem_of_find?_eq_some hc
      have h2 := List.find?_some hc
      simp only [restartLive, List.mem_map] at h1
      obtain ⟨e, _, rfl⟩ := h1
      simp only [decide_eq_true_eq] at h2
      rw [← h2]; rfl
    · rfl
  have lk : (restartLive v a b).locksTied t.env := fun m k hk => by rw [free] at hk; cases hk
  have ct : (restartLive v a b).countsTied := by
    intro q _
    have e1 : (restartLive v a b).counted q = 0 := by
      cases q with
      | point m pos => unfold Live.counted; simp only; rw [free]; cases pos <;> rfl
      | signal m => unfold Live.counted; simp only; rw [free]; rfl
    have e2 : (restartLive v a b).protecting q = 0 := by
      rw [protecting_eq, List.sum_eq_zero]
      intro x hx
      obtain ⟨i, _, rfl⟩ := List.mem_map.1 hx
      rw [n.slot]; rfl
    rw [e1, e2]
  have xt : (restartLive v a b).exitsTied t.env := by
    intro c i h
    exfalso
    unfold Live.boundary at h
    split at h
    · next x hx =>
      have h1 := List.mem_of_find?_eq_some hx
      simp only [restartLive, List.mem_map] at h1
      obtain ⟨_, _, rfl⟩ := h1
      cases h
    · cases h
  refine ⟨ht, fun _ _ ho => ?_, fun _ _ ho => ?_, fun w _ _ ho => ?_⟩
  · refine (aspectsShown_iff ho).2 ⟨hk.shows.lit _ (fun m _ _ ha => absurd (n.stop m) ha),
      hk.shows.free _ (fun m _ _ ha => absurd (n.stop m) ha)⟩ ho
  · have o := hk.slots ok
    exact ⟨o.1, o.2, fun h => absurd hm h⟩
  · have tb := tabled_of_tables (ht w)
    have tb' : (restartLive v a b).tabled t.env := fun x y h => by
      have := tb x y h
      unfold Live.hasBoundary at *
      rwa [hk.whole.boundaryNums] at this
    exact (claimsTied_iff ho).2 ⟨hk.locks tb' ok lk, hk.counts ok ct, hk.exits xt⟩ ho

theorem keeps_startUpLatch (v : Env) (d : Live) : Keeps v d (startUpLatch v d) := by
  unfold startUpLatch
  refine Keeps.foldl _ (fun d g => ?_) _ d
  split
  · exact (watched_latch v _ _ _).keeps (shows_latch v _ _ _)
  · exact Keeps.refl v d

theorem upholds_endLoad (g : Nat) (s : State) : Upholds s (s.endLoad g) := by
  have tables := (kept_endLoad g s).tables
  revert tables
  unfold State.endLoad
  split
  · next t ht =>
    intro tables
    have fail : ∀ o, (s.tablesWhole → (s.failLoad o).tablesWhole) → Upholds s (s.failLoad o) :=
      fun o h => upholds_idle rfl h
    revert tables
    split
    · exact fail _
    · split
      · exact fail _
      · exact fun tables => upholds_started _ _ _ tables (keeps_startUpLatch _ _) rfl
  · exact fun _ => Upholds.refl s

theorem upholds_restartKept (s : State) : Upholds s s.restartKept :=
  upholds_started _ _ _ (kept_restartKept s).tables ((keeps_report _ _ _).trans (keeps_startUpLatch _ _)) rfl

theorem upholds_restartUnloaded (s : State) : Upholds s s.restartUnloaded := by
  have tables := (kept_restartUnloaded s).tables
  revert tables
  unfold State.restartUnloaded
  split
  · exact fun _ => Upholds.refl s
  · exact fun tables => upholds_idle rfl tables

theorem upholds_cold (s : State) : Upholds s s.cold := upholds_idle rfl (kept_cold s).tables

theorem upholds_openLoad (s : State) : Upholds s s.openLoad := upholds_idle rfl (kept_openLoad s).tables

theorem upholds_takeRecord (p : List Byte) (s : State) : Upholds s (s.takeRecord p) := by
  have tables := (kept_takeRecord p s).tables
  revert tables
  unfold State.takeRecord
  split
  · exact fun tables => upholds_idle rfl tables
  · exact fun _ => Upholds.refl s

/-! ### Lanes lost and rejoined (R145, R148, R174) -/

theorem upholds_takeRejoin (n : Nat) (s : State) : Upholds s (takeRejoin n s) := by
  unfold takeRejoin
  split
  · next l _ =>
    refine Upholds.ite (upholds_refuse _ _ _) ?_
    refine upholds_changeMode s _ (fun e => e.setView l none) (by simp) (by simp)
      (fun e => setView_fixed e l none) ?_
    intro v e ho
    refine ⟨fun k x hx => ?_, by unfold Element.isSection; simp, by simp, by simp, by simp⟩
    rw [Element.view_setView] at hx
    split at hx
    · cases hx
    · simpa using ho.1 k x hx
  · exact upholds_refuse _ _ _

theorem upholds_takeAlone (q : Request) (s : State) : Upholds s (State.takeAlone q s) := by
  unfold State.takeAlone
  split
  · exact upholds_act _ _ (keeps_takeCancelRoute _ _ _)
  · exact upholds_act _ _ (keeps_takeReleaseEmergency _ _ _)
  · exact upholds_act _ _ (keeps_takeAckFault _ _ _ _)
  · exact upholds_takeBlock _ _
  · exact upholds_act _ _ (keeps_takeStopSet _ _ _)
  · exact Upholds.refl s

theorem upholds_disposeLists (l : LaneId) (s : State) : Upholds s (State.disposeLists l s) := by
  have one : ∀ (s : State) (e : PendingEntry), Upholds s (State.dispose l.other s e) := by
    intro s e
    unfold State.dispose
    refine Upholds.ite (Upholds.refl s) ?_
    have h := upholds_setLane s l.other (fun p => { p with requests := dropFirst e.request p.requests })
    exact Upholds.ite (h.trans (upholds_takeAlone _ _)) (h.trans (upholds_refuse _ _ _))
  have all : ∀ (es : List PendingEntry) (t : State), Upholds t (es.foldl (State.dispose l.other) t) := by
    intro es
    induction es with
    | nil => exact fun t => Upholds.refl t
    | cons e es ih => exact fun t => (one _ _).trans (ih _)
  unfold State.disposeLists
  have h1 : Upholds s { s with live := refuseList l s.live } := by
    unfold refuseList
    have k : ∀ es : List PendingEntry, Keeps s.env s.live
        (es.foldl (fun d e => d.report (refusal e.request .laneDegraded)) s.live) := fun es =>
      Keeps.foldl _ (fun d (e : PendingEntry) =>
        keeps_report s.env d (refusal e.request .laneDegraded)) es s.live
    exact (upholds_live s _ (k (s.live.lane l).requests)).trans (upholds_setLane _ l _)
  dsimp only
  exact Upholds.ite (h1.trans (all _ _)) h1

theorem upholds_loseLane (l : LaneId) (s : State) : Upholds s (s.loseLane l) := by
  unfold State.loseLane
  refine Upholds.trans ?_ (upholds_disposeLists _ _)
  exact upholds_changeMode s _ id (by simp) (by simp) (fun _ => ⟨rfl, rfl, rfl⟩)
    (fun v e ho => ⟨ho.1, rfl, rfl, rfl, rfl⟩)

theorem upholds_windowDue (l : LaneId) (s : State) : Upholds s (s.act (windowDue l)) := by
  have h : Upholds s { s with live := windowDue l s.env s.live } := by
    unfold windowDue
    split
    · exact (upholds_setLane s l (fun p => { p with requests := dropDue s.env.now p.requests })).trans
        (upholds_live _ _ (keeps_report _ _ _))
    · exact Upholds.refl s
  exact h.trans (upholds_live _ _ (keeps_serve _ _))

theorem upholds_setInput (s : State) (i : AreaInput) (b : Bool) :
    Upholds s { s with env := s.env.setInput i b } :=
  upholds_env s _ (by simp) (by simp) (by simp) (by simp)

theorem upholds_answered (s : State) (x : Exchange) (f : Env → Live → Report) :
    Upholds s (s.answered x f) :=
  (upholds_exchange s x).trans (upholds_setLane _ _ _)

end Sys2Proof.Machine
end

