-- ==== Sys2Proof/Tests/Slice0.lean ====
section
/-! SUPPORT. The model's own tests: ill-formed commands refused, frames and code points the manual writes
out, single steps of its worked sequences, and for each statement of the certificates a state and operands
that meet its hypotheses. -/

namespace Sys2Proof.Tests

open Sys2Proof Sys2Proof.Machine

-- One theorem at a time: each thread of Lean's takes a stack of its own.
set_option Elab.async false

/-! ### Well-formedness: one ill-formed command for each check -/

def xa : Exchange := { lane := .a, whole := false }
def xb : Exchange := { lane := .b, whole := true }

/-- A payload of 61 bytes. -/
def long : List Byte := List.replicate 61 0

theorem test_illFormed_lane_operands_refused :
    [Instr.unknownRequest xa 256 [], .unknownRequest xa 0x40 long, .unknownRequest xa 0x11 [0],
      .detect xa [], .detect xa (List.replicate 21 (40, 0)), .detect xa [(65536, 0)],
      .detect xa [(40, 256)], .readElement xa 65536, .readSlot xa 256, .readRoute xa 65536,
      .readBoundary xa 256, .readGroups xa 256, .readFaults xa 65536, .setRoute xa 65536 0 0,
      .setRoute xa 0 256 0, .setRoute xa 0 0 256, .cancelRoute xa 65536, .releaseEmergency xa 65536,
      .throwPoint xa 65536 0, .throwPoint xa 7 256, .block xa 65536, .unblock xa 65536,
      .ackFault xa 65536 1, .ackFault xa 7 256, .stopSet xa 256, .stopRelease xa 256,
      .boundaryReset xa 256, .linkEnable xa 256, .linkDisable xa 256, .rejoin xa 256,
      .restartKeep xa 256, .restartKeep xa 1, .loadRecord xa [1], .loadRecord xa long,
      .loadEnd xa 65536].all (fun c => !c.wellFormed) = true := by decide

theorem test_illFormed_events_refused :
    [Instr.discrepancyExpiry 512, .pickUpExpiry 512, .occupationTimeAged 512, .settingTimerExpiry 48,
      .storedExpiry 384, .overlapExpiry 48, .holdExpiry 48, .speedRecordStale 512, .staggerExpiry 4,
      .settleExpiry 512, .throwExpiry 512, .confirmationExpiry 512, .neighbourFrameError 4 [],
      .neighbourFrameError 0 (List.replicate 65 0), .neighbourFrameReceived 4 (.dirGrant 0),
      .neighbourFrameReceived 0 (.dirRequest 256 .senior), .neighbourFrameReceived 0 (.dirGrant 256),
      .neighbourFrameReceived 0 (.dirRefuse 256), .neighbourFrameReceived 0 (.dirOffer 256),
      .neighbourFrameReceived 0 (.acceptRequest 256), .neighbourFrameReceived 0 (.acceptGrant 256 .stop),
      .neighbourFrameReceived 0 (.acceptRefuse 256 0), .neighbourFrameReceived 0 (.acceptRefuse 0 256),
      .neighbourFrameReceived 0 (.acceptCancel 256), .status 4, .dirRequest 4, .dirGrant 4,
      .dirRefuse 4, .dirOffer 4, .acceptRequest 4, .acceptGrant 4, .acceptRefuse 4, .acceptCancel 4,
      .statusIntervalExpiry 4, .linkSilenceExpiry 4, .dirRequestExpiry 16, .acceptanceExpiry 16,
      .consistencyExpiry 16, .resetExpiry 16, .queuedFrameSent 4].all (fun c => !c.wellFormed)
      = true := by decide

/-! ### Codes and frames the manual writes out -/

/-- "Over the nine bytes 31h to 39h the value is 29B1h" (R180). -/
theorem test_crc_check_value :
    crc16 [0x31, 0x32, 0x33, 0x34, 0x35, 0x36, 0x37, 0x38, 0x39] = 0x29B1 := by decide +kernel

/-- READ_SLOT of slot 5: kind 11h, length 1, one byte (R181). -/
theorem test_lane_frame_read_slot :
    decodeLaneFrame xa ([0x11, 0x01, 0x05] ++ wordBytes (crc16 [0x11, 0x01, 0x05]).toNat ++ [0, 0])
      = .readSlot xa 5 := by decide +kernel

/-- A length above 60 and a wrong CRC are frame errors (R169). -/
theorem test_lane_frame_errors :
    decodeLaneFrame xa [0x11, 61, 5, 0, 0] = .laneFrameError xa
      ∧ decodeLaneFrame xa [0x11, 1, 5, 0, 0] = .laneFrameError xa := by decide +kernel

/-- A DIR_OFFER for link boundary 3 with a stray start byte before it (R183). -/
theorem test_neighbour_frame_found :
    framesIn ([0xA5] ++ NFrame.bytes (.dirOffer 3)) = [.dirOffer 3] := by decide +kernel

/-! ### A small junction, in the manual's numbers: point 7, sections 37, 38, 40, 41, 42 and 44, signals 60
and 61, boundary 0 with its BOUNDARY element 90 -/

def aSection (n : Nat) : Element :=
  { num := n, dfn := { reaction := none, kind := .track 1000 }, viewA := some .clear
    viewB := some .clear, agreed := .clear, discExpiry := none, discrepant := false, occupied := false
    pickUp := none, occTime := some 4200, blocked := false }

def aSignal (n : Nat) : Element :=
  { aSection n with
    dfn := { reaction := none, kind := .signal true 2 1 none }
    viewA := some .proved, viewB := some .proved, agreed := .proved, occTime := none }

def point7 : Element :=
  { aSection 7 with
    dfn := { reaction := none, kind := .point 41 0 6000 4000 2 1 }
    viewA := some .normal, viewB := some .normal, agreed := .normal, occTime := none }

def boundary90 : Element :=
  { aSection 90 with
    dfn := { reaction := none, kind := .boundary 0 }
    viewA := none, viewB := none, agreed := .none, occTime := none }

/-- Route 12, from signal 60 to signal 61 over sections 41 and 40 and point 7, overlap section 42. -/
def route12 : RouteDef :=
  { number := 12, main := true, entry := 60, exit := .signal 61
    path := [{ element := 41, position := none }, { element := 7, position := some .normal },
      { element := 40, position := none }]
    overlap := [{ element := 42, position := none }], flank := [], autoReclear := false
    storable := true }

/-- Boundary 0 of link 0, known there as 3, with berth section 44 and home signal 61. -/
def boundary0 : BoundaryDef :=
  { number := 0, element := 90, link := 0, linkNumber := 3, seniority := .junior, berth := [44]
    home := 61 }

def link0 : LinkDef := { number := 0, enabled := true, interval := 500 }

/-- Group 0 has the sources AS0 and LANE and holds throws; group 1 has LINK0. -/
def junction : Defs :=
  { routes := [route12], approaches := [{ signal := 60, entries := [.track 38 600, .track 37 500] }]
    boundaries := [boundary0], power := [{ budget := 1, stagger := 1000, separated := false }]
    stops := [{ sources := 0x41, holdThrows := true, propagate := 0 },
      { sources := 0x04, holdThrows := false, propagate := 0 }]
    links := [link0] }

def baseEnv : Env :=
  { now := 150000, as0 := false, as1 := false, store := .standing junction, startHold := none
    presentA := true, presentB := true, silenceA := some 151000, silenceB := some 149900
    elements := [point7, aSection 37, aSection 38, aSection 40, aSection 41, aSection 42, aSection 44,
      aSignal 60, aSignal 61, boundary90] }

/-- The junction at restart values, every section clear and both lanes PRESENT. -/
def base : State :=
  { env := baseEnv, live := restartLive baseEnv LanePort.empty LanePort.empty, pending := [] }

/-- A state with its live part changed, or its environment. -/
def onLive (f : Live → Live) (s : State) : State := { s with live := f s.live }
def onEnv (f : Env → Env) (s : State) : State := { s with env := f s.env }

/-- A request waiting in lane B's pending list. -/
def asked (q : Request) (s : State) : State :=
  onLive (fun d => d.setLane .b (fun p =>
    { p with requests := [{ request := q, arrival := 149900, expiry := 150150 }] })) s

/-- The request waiting there pairs with the same request from lane A. -/
theorem pairs_asked (s : State) (q : Request)
    (h : (s.live.lane .b).requests.any (fun e => e.request = q) = true)
    (m : s.env.operating = true → s.env.mode = .normal) : s.pairs xa q := by
  obtain ⟨e, he, hq⟩ := List.any_eq_true.mp h
  exact ⟨⟨e, he, by simpa using hq⟩, m⟩

/-- Slot 0 holding route 12 in a state. -/
def slot12 (st : SlotState) : Slot :=
  { Slot.free with
    state := st, route := some 12, priority := some 1, pathMarks := List.replicate 3 Mark.none
    overlapMarks := [Mark.none] }
def withSlot (st : SlotState) (f : Slot → Slot) (s : State) : State :=
  onLive (fun d => d.setSlot 0 (fun _ => f (slot12 st))) s

/-- Lane B LOST: lane mode is DEGRADED. -/
def degraded (s : State) : State := onEnv (fun v => { v with presentB := false, silenceB := none }) s

/-- Link 0 UP with frames in its receive queue. -/
def linkUp (fs : List NFrame) (s : State) : State :=
  onLive (fun d => d.setLink 0 (fun k =>
    { k with state := .up, rx := fs, silence := some 149990 })) s
def withBoundary (f : Boundary → Boundary) (s : State) : State :=
  onLive (fun d => d.setBoundary 0 f) s
def withControl (n : Nat) (f : Control → Control) (s : State) : State :=
  onLive (fun d => d.setControl n f) s
def withElement (n : Nat) (f : Element → Element) (s : State) : State :=
  onEnv (fun v => v.setElement n f) s

/-- The state an outcome goes on in, `s` where it does not. -/
def nextOf (s : State) : Host.Outcome State Fault Refusal → State
  | .next t => t
  | _ => s

/-- Every slot of a fresh slot table is FREE. -/
theorem all_slots_free (s : State) (h : s.live.slots = List.replicate 48 Slot.free) {x : SlotState}
    (hx : SlotState.free ≠ x := by decide) : ∀ j, (s.live.slot j).state ≠ x := by
  intro j
  have : s.live.slot j = Slot.free := by
    unfold Live.slot
    rw [h, List.getD_eq_getElem?_getD, List.getElem?_replicate]
    split <;> rfl
  rw [this]
  exact hx

/-- The part while LOADING, with one staged record. -/
def loading : State :=
  onEnv (fun v => { v with store := .staged (Staged.open.take [0x0C, 0, 0, 40]) }) State.reset

/-! ### Hypotheses met: the step, the invariants, the frames -/

theorem witness_StepRunsFrontCommand :
    ({ base with pending := [.emptyRequest xa, .reset] } : State).pending
      = .emptyRequest xa :: [.reset] := rfl

/-- Nothing is due after reset; lane B's silence is due in the junction. -/
theorem witness_EmptyQueueStepIdles :
    State.reset.pending = [] ∧ dueCommands State.reset = []
      ∧ base.pending = [] ∧ dueCommands base = [.laneSilenceExpiry .b] := by decide +kernel

theorem witness_OnlyStartsChangeTimeBaseAndStandingSet_timeBase :
    (∃ t, exec .powerOn base = .next t) ∧ (∃ t, exec .reset base = .next t)
      ∧ (∃ t, exec (.emptyRequest xa) base = .next t)
      ∧ Instr.emptyRequest xa ≠ .powerOn ∧ Instr.emptyRequest xa ≠ .reset :=
  ⟨⟨_, rfl⟩, ⟨_, rfl⟩, ⟨_, rfl⟩, by decide, by decide⟩

theorem witness_OnlyStartsChangeTimeBaseAndStandingSet_standingSet :
    base.env.operating = true ∧ (∃ t, exec (.restartKeep xa 0) base = .next t)
      ∧ Instr.restartKeep xa 0 ≠ .powerOn ∧ Instr.restartKeep xa 0 ≠ .reset
      ∧ ∀ x, Instr.restartKeep xa 0 ≠ .restartUnload x :=
  ⟨by decide, ⟨_, rfl⟩, by decide, by decide, fun _ h => by cases h⟩

theorem base_sound : base.env.detectionSound := by
  intro n e h
  have hm : e ∈ baseEnv.elements := List.mem_of_find?_eq_some h
  simp only [baseEnv, List.mem_cons, List.not_mem_nil, or_false] at hm
  rcases hm with rfl | rfl | rfl | rfl | rfl | rfl | rfl | rfl | rfl | rfl <;>
    refine ⟨fun l x hx => ?_, by decide, by decide, by decide, by decide⟩ <;>
    cases l <;> cases hx <;> rfl

theorem base_bounded : base.live.bounded :=
  bounded_restart _ _ _ ⟨Nat.zero_le _, Nat.zero_le _⟩ ⟨Nat.zero_le _, Nat.zero_le _⟩

theorem witness_StepKeepsDetectionSound :
    base.env.detectionSound ∧ ∃ t, step base = .next t := ⟨base_sound, _, rfl⟩
theorem witness_StepKeepsQueuesBounded :
    base.live.bounded ∧ ∃ t, step base = .next t := ⟨base_bounded, _, rfl⟩
theorem witness_StepKeepsTablesWhole :
    base.tablesWhole ∧ ∃ t, step base = .next t :=
  ⟨tables_restart _ _ _ _ _ _ (Whole.refl _) rfl rfl, _, rfl⟩
theorem witness_StepLeavesNoReevaluationWaiting :
    base.live.reeval = false ∧ ∃ t, step base = .next t := ⟨rfl, _, rfl⟩

/-- Slot 0 in CLEAR with route 12, its locks placed and signal 60 at CAUTION. -/
def proceeding : State :=
  let path := some { holder := .slot 0, mode := .path : Lock }
  withControl 60 (fun c => { c with aspect := .caution })
    (withControl 41 (fun c => { c with lock := path }) (withControl 7 (fun c => { c with lock := path })
      (withControl 40 (fun c => { c with lock := path })
        (withControl 42 (fun c => { c with lock := some { holder := .slot 0, mode := .overlap } })
          (withSlot .clear id base)))))

theorem proceeding_whole : proceeding.tablesWhole := by
  unfold State.tablesWhole
  decide +kernel

/-- An element of the junction, or one with no control record. -/
theorem control_cases (n : Nat) :
    n ∈ [7, 37, 38, 40, 41, 42, 44, 60, 61, 90] ∨ proceeding.live.control n = Control.fresh n := by
  by_cases h : n ∈ proceeding.live.controls.map Control.num
  · exact .inl h
  · refine .inr ?_
    unfold Live.control
    have none : proceeding.live.controls.find? (fun c => c.num = n) = none :=
      List.find?_eq_none.mpr (fun c hc e => h (of_decide_eq_true e ▸ List.mem_map_of_mem hc))
    rw [none]

theorem slot_cases (i : Nat) :
    proceeding.live.slot i = Slot.free ∨ (i = 0 ∧ proceeding.live.slot i = slot12 .clear) := by
  match i with
  | 0 => exact .inr ⟨rfl, by decide⟩
  | i + 1 =>
    refine .inl ?_
    have : proceeding.live.slots = slot12 .clear :: List.replicate 47 Slot.free := by decide +kernel
    unfold Live.slot
    rw [this, List.getD_cons_succ, List.getD_eq_getElem?_getD, List.getElem?_replicate]
    split <;> rfl

theorem proceeding_slots : proceeding.slotsSound := by
  intro _
  refine ⟨fun i h => ?_, fun i h => ?_, fun m => absurd (by decide) m⟩
  · rcases slot_cases i with k | ⟨rfl, k⟩
    · exact k
    · rw [k] at h
      cases h
  · rcases slot_cases i with k | ⟨rfl, k⟩
    · rw [k] at h
      exact absurd rfl h
    · exact ⟨route12, by decide⟩

theorem witness_StepKeepsSlotsSound :
    proceeding.tablesWhole ∧ proceeding.slotsSound ∧ ∃ t, step proceeding = .next t :=
  ⟨proceeding_whole, proceeding_slots, _, rfl⟩

theorem witness_StepKeepsAspectsShown :
    proceeding.tablesWhole ∧ proceeding.aspectsShown ∧ (proceeding.live.control 60).aspect ≠ .stop
      ∧ ∃ t, step proceeding = .next t := by
  refine ⟨proceeding_whole, fun _ n _ ha => ?_, by decide, _, rfl⟩
  have key : ∀ m ∈ [7, 37, 38, 40, 41, 42, 44, 60, 61, 90],
      (proceeding.live.control m).aspect ≠ .stop → m = 60 := by decide
  have hn : n = 60 := by
    rcases control_cases n with h | h
    · exact key n h ha
    · rw [h] at ha
      exact absurd rfl ha
  subst hn
  exact ⟨⟨0, route12, by decide, by decide, rfl⟩, by decide, by decide, by decide, by decide⟩

theorem witness_StepKeepsClaimsTied :
    proceeding.tablesWhole ∧ proceeding.slotsSound ∧ proceeding.claimsTied
      ∧ (proceeding.live.control 42).lock = some { holder := .slot 0, mode := .overlap }
      ∧ ∃ t, step proceeding = .next t := by
  refine ⟨proceeding_whole, proceeding_slots, fun _ => ⟨fun n k hk => ?_, fun n hn => ?_, fun b i hb => ?_⟩,
    by decide, _, rfl⟩
  · have key : ∀ m ∈ [7, 37, 38, 40, 41, 42, 44, 60, 61, 90], ∀ k ∈ (proceeding.live.control m).lock,
        k = { holder := .slot 0, mode := .path } ∧ m ∈ [41, 7, 40]
          ∨ k = { holder := .slot 0, mode := .overlap } ∧ m ∈ [42] := by decide
    rcases control_cases n with h | h
    · rcases key n h k hk with ⟨rfl, hm⟩ | ⟨rfl, hm⟩
      · refine ⟨route12, by decide, .inl ⟨rfl, ?_⟩⟩
        revert hm
        have : ownPath route12 (proceeding.live.slot 0) = route12.path := by decide
        rw [this]
        revert n
        simp [route12]
      · refine ⟨route12, by decide, .inr ⟨rfl, ?_⟩⟩
        revert hm
        have : ownOverlap route12 (proceeding.live.slot 0) = route12.overlap := by decide
        rw [this]
        revert n
        simp [route12]
    · rw [h] at hk
      cases hk
  · have none : ∀ q, proceeding.live.protecting q = 0 := by
      intro q
      have : ∀ s ∈ proceeding.live.slots, s.flank = [] := by decide +kernel
      unfold Live.protecting
      exact List.sum_eq_zero (fun x hx => by
        obtain ⟨s, hs, rfl⟩ := List.mem_map.mp hx
        rw [this s hs]
        rfl)
    rw [none, none, none]
    have key : ∀ m ∈ [7, 37, 38, 40, 41, 42, 44, 60, 61, 90],
        (proceeding.live.control m).normalCount = 0 ∧ (proceeding.live.control m).reverseCount = 0
          ∧ (proceeding.live.control m).holdCount = 0 := by decide
    exact key n hn
  · have none : ∀ x ∈ proceeding.live.boundaries, x.exitSlot = none := by decide
    unfold Live.boundary at hb
    split at hb
    · next x hx => rw [none x (List.mem_of_find?_eq_some hx)] at hb; cases hb
    · cases hb

theorem witness_FramesRoundTrip_lane :
    (List.replicate 60 (0 : Byte)).length ≤ 60 ∧ ([] : List Byte).length ≤ 60 := by decide

theorem witness_FramesRoundTrip_link :
    (NFrame.acceptRefuse 255 255).wellFormed = true
      ∧ (NFrame.status true (List.replicate 4 { number := 255, direction := .inward, restricted := true, acceptance := .held, waiting := true, berthLocked := true, berthEntered := true, berthOccupied := true, berthReady := true, home := .clear })).wellFormed = true := by
  decide

/-! ### Hypotheses met: reads and detection -/

theorem witness_ReadsAnswerAskingLaneAlone :
    base.env.operating = true ∧ (base.env.element? 7).isSome = true
      ∧ (base.env.element? 8).isSome = false ∧ (base.env.route? 12).isSome = true
      ∧ (base.env.route? 13).isSome = false ∧ (base.env.boundary? 0).isSome = true
      ∧ (base.env.boundary? 1).isSome = false ∧ decide (47 < 48) = true ∧ decide (48 < 48) = false
      ∧ decide (7 < 8) = true ∧ decide (8 < 8) = false ∧ decide (511 < 512) = true
      ∧ decide (512 < 512) = false := by decide

/-- A section, a point, a signal; a FREE slot and one that holds route 12; the route in a slot, stored, in
neither; the boundary; the groups from both ends; the fault maps; the status while OPERATING and LOADING. -/
theorem witness_ReadAnswersGiveTheirFields :
    let u := base.exchange xa
    let w := (withSlot .clear id base).exchange xa
    let y := (onLive (fun d => d.setStored
      [{ route := 12, priority := 1, arrival := 140000, expiry := none }]) base).exchange xa
    base.env.operating = true
    ∧ (u.env.element? 40 = some (aSection 40) ∧ (aSection 40).isSection = true)
    ∧ (u.env.element? 7 = some point7 ∧ point7.isPoint = true)
    ∧ (u.env.element? 60 = some (aSignal 60) ∧ (aSignal 60).isSignal = true)
    ∧ u.live.slot 47 = Slot.free
    ∧ (w.live.routeOf w.env 0 = some route12 ∧ (w.live.slot 0).route = some route12.number
      ∧ (w.live.slot 0).priority = some 1)
    ∧ (u.env.route? 12 = some route12 ∧ w.live.slotOf 12 = some 0 ∧ u.live.slotOf 12 = none
      ∧ u.live.stored? 12 = none ∧ y.live.slotOf 12 = none ∧ (y.live.stored? 12).isSome = true)
    ∧ (u.env.boundary? 0 = some boundary0 ∧ boundary0.number = 0)
    ∧ u.env.store = .standing junction
    ∧ (loading.exchange xa).env.store = .staged (Staged.open.take [0x0C, 0, 0, 40])
    ∧ fitFaults 4 (((u.env.elements.filter (fun e => 0 ≤ e.num)).map
        (fun e => (e.num, (u.live.control e.num).faults))).filter (fun y => !y.2.isEmpty))
        = ([], none) := by decide +kernel

/-- Row 10000 of the first sequence of 1.7 is of this form: section 40 CLEAR on both sides, A: OCCUPIED. -/
theorem witness_DetectUpdatesViewAndAgreedValue :
    base.env.operating = true ∧ base.env.mode = .normal ∧ base.env.element? 40 = some (aSection 40)
      ∧ detectionOf 1 = some .occupied ∧ (aSection 40).dfn.kind.takes .occupied = true
      ∧ (aSection 40).view xa.lane ≠ some .occupied := by decide

theorem witness_DetectUpdatesViewAndAgreedValue_discards :
    State.reset.env.operating = false ∧ (degraded base).env.present xb.lane = false
      ∧ ∀ p ∈ [(8, 0), (90, 0), (40, 2)], base.env.element? p.1 = none
          ∨ (∃ e, base.env.element? p.1 = some e ∧ ∀ y, detectionOf p.2 = some y →
              e.dfn.kind.takes y = false) := by
  refine ⟨rfl, rfl, ?_⟩
  intro p hp
  simp only [List.mem_cons, List.not_mem_nil, or_false] at hp
  rcases hp with rfl | rfl | rfl
  · exact .inl (by decide)
  · exact .inr ⟨boundary90, by decide, fun _ h => by cases h; rfl⟩
  · exact .inr ⟨aSection 40, by decide, fun _ h => by cases h; rfl⟩

/-- Row 32700 of the first sequence of 1.7, at this Time Base. -/
def picking : State :=
  withElement 40 (fun e => { e with occupied := true, pickUp := some 150000 }) base

theorem witness_PickUpExpiryClearsSection :
    picking.env.element? 40 = some { aSection 40 with occupied := true, pickUp := some 150000 }
      ∧ reached picking.env.now 150000 = true := by decide

/-- A slot whose route is the only one: no other slot has a section. -/
theorem onlyAt_zero (s : State) (n : Nat) (h : ∀ j, j ≠ 0 → s.live.slot j = Slot.free) :
    s.live.onlyAt s.env n 0 := by
  intro j hj rt hr
  unfold Live.routeOf at hr
  rw [h j hj] at hr
  cases hr

theorem other_slots_free (s : State) (x : Slot)
    (h : s.live.slots = x :: List.replicate 47 Slot.free) : ∀ j, j ≠ 0 → s.live.slot j = Slot.free := by
  intro j hj
  match j, hj with
  | j + 1, _ =>
    unfold Live.slot
    rw [h, List.getD_cons_succ, List.getD_eq_getElem?_getD, List.getElem?_replicate]
    split <;> rfl

/-- Section 41, the first of route 12, in CLEAR, HELD and CANCELLING. -/
theorem witness_TrainEntersSlot :
    ∀ st ∈ [SlotState.clear, .held, .cancelling],
      let s := withSlot st id base
      s.env.operating = true ∧ s.env.mode = .normal ∧ s.env.element? 41 = some (aSection 41)
        ∧ (aSection 41).isSection = true ∧ (aSection 41).view xa.lane ≠ some .occupied
        ∧ (aSection 41).agreed ≠ .occupied ∧ (aSection 41).occupied = false
        ∧ s.live.routeOf s.env 0 = some route12
        ∧ route12.path.head?.any (fun y => y.element = 41) = true
        ∧ (markAt (s.live.slot 0).pathMarks 0).occ = false ∧ s.live.hasControl route12.entry
        ∧ s.live.stored = [] ∧ (s.live.slot 0).state = st ∧ s.live.onlyAt s.env 41 0
        ∧ ∀ bd ∈ s.env.defs.boundaries, 41 ∉ bd.berth := by
  intro st hst
  simp only [List.mem_cons, List.not_mem_nil, or_false] at hst
  rcases hst with rfl | rfl | rfl <;>
    exact ⟨rfl, by decide, by decide, rfl, by decide, by decide, rfl, by decide, by decide, rfl,
      by decide, rfl, rfl, onlyAt_zero _ _ (other_slots_free _ (slot12 _) rfl), by decide⟩

/-- A train that has run through section 41 into section 40. -/
def passing : State :=
  withElement 41 (fun e => { e with occupied := true, pickUp := some 150000 })
    (withElement 40 (fun e => { e with occupied := true })
      (withSlot .entered (fun x => { x with pathMarks :=
        [{ Mark.none with occ := true }, Mark.none, { Mark.none with occ := true }] }) base))

theorem witness_PassageReleasesUnits :
    passing.env.element? 41
        = some { aSection 41 with occupied := true, pickUp := some 150000 }
      ∧ reached passing.env.now 150000 = true
      ∧ passing.live.routeOf passing.env 0 = some route12
      ∧ (passing.live.slot 0).state = .entered ∧ passing.live.stored = []
      ∧ 41 ∈ entrySections route12.path ∧ passing.live.onlyAt passing.env 41 0
      ∧ (∀ bd ∈ passing.env.defs.boundaries, 41 ∉ bd.berth)
      ∧ sectionIndices route12.path = [0, 2] :=
  ⟨by decide, by decide, by decide, by decide, rfl, by decide,
    onlyAt_zero _ _ (other_slots_free _ _ rfl), by decide, by decide⟩

/-- Row 52000 of the second sequence of 1.7, at this Time Base. -/
def differing : State :=
  withElement 7 (fun e => { e with
    viewB := some .reverse, agreed := .none, discExpiry := some 150000 }) base

theorem witness_DetectionExpiriesRaiseFaults_discrepancy :
    differing.env.element? 7 = some { point7 with
        viewB := some .reverse, agreed := .none, discExpiry := some 150000 }
      ∧ differing.live.hasControl 7 ∧ reached differing.env.now 150000 = true
      ∧ differing.live.reeval = false := by decide

/-! ### Hypotheses met: agreement -/

/-- Lane A's list with a number of entries. -/
def waiting (n : Nat) (s : State) : State :=
  onLive (fun d => d.setLane .a (fun p =>
    { p with requests := List.replicate n { request := .block 40, arrival := 149900, expiry := 150000 } })) s

theorem witness_UntakenRequestWaitsOrIsRefused_waits :
    voteOf (.block xa 41) = some (xa, .block 41)
      ∧ (∀ n ∈ [7, 8], ((waiting n base).env.operating = true → (waiting n base).env.mode = .normal)
        ∧ (∀ e ∈ ((waiting n base).live.lane xa.lane.other).requests, e.request ≠ .block 41)
        ∧ ((waiting n base).live.lane xa.lane).requests.length = n) := by decide

theorem witness_UntakenRequestWaitsOrIsRefused_refused :
    (degraded base).env.operating = true ∧ (degraded base).env.mode ≠ .normal
      ∧ voteOf (.block xb 41) = some (xb, .block 41) ∧ (∀ n, Request.block 41 ≠ .rejoin n)
      ∧ (degraded base).env.present xb.lane = false
      ∧ voteOf (.unblock xa 41) = some (xa, .unblock 41) ∧ (∀ n, Request.unblock 41 ≠ .rejoin n)
      ∧ ∀ a b, Request.unblock 41 ≠ .cancelRoute a ∧ Request.unblock 41 ≠ .releaseEmergency a
        ∧ Request.unblock 41 ≠ .ackFault a b ∧ Request.unblock 41 ≠ .block a
        ∧ Request.unblock 41 ≠ .stopSet a := by
  refine ⟨rfl, by decide, rfl, (fun _ h => by cases h), rfl, rfl, (fun _ h => by cases h), fun a b => ?_⟩
  refine ⟨?_, ?_, ?_, ?_, ?_⟩ <;> intro h <;> cases h

theorem witness_PartStateGatesTakenRequests :
    (asked (.linkEnable 0) State.reset).pairs xa (.linkEnable 0)
      ∧ (asked (.linkEnable 0) State.reset).env.part = .unconfigured
      ∧ (asked (.linkEnable 0) loading).pairs xa (.linkEnable 0)
      ∧ (asked (.linkEnable 0) loading).env.part = .loading
      ∧ (asked .loadBegin base).pairs xa .loadBegin ∧ (asked .loadBegin base).env.operating = true :=
  ⟨pairs_asked _ _ (by decide) (by decide), by decide, pairs_asked _ _ (by decide) (by decide),
    by decide, pairs_asked _ _ (by decide) (by decide), by decide⟩

/-- Row 1250 of the sequence of 10.7 has this shape: the expired entry is followed by another. -/
theorem witness_WindowExpiryRefusesEntry :
    ((waiting 2 base).live.lane .a).requests
        = [] ++ { request := .block 40, arrival := 149900, expiry := 150000 }
          :: [{ request := .block 40, arrival := 149900, expiry := 150000 }]
      ∧ (∀ y ∈ ([] : List PendingEntry), reached (waiting 2 base).env.now y.expiry = false)
      ∧ reached (waiting 2 base).env.now 150000 = true ∧ (waiting 2 base).live.reeval = false := by
  decide

/-! ### Hypotheses met: routes -/

/-- What a take-up of route 12 places. -/
def placed12 : Live :=
  let s := (asked (.setRoute 12 1 0) base).paired xa (.setRoute 12 1 0)
  match place s.env 0 route12 1 s.live with
  | .ok d => d
  | .error _ => s.live

theorem witness_SetRouteTakesUpRoute :
    let s := asked (.setRoute 12 1 0) base
    s.env.operating = true ∧ s.pairs xa (.setRoute 12 1 0) ∧ s.env.startHold = none
      ∧ s.env.route? 12 = some route12 ∧ s.live.slotOf 12 = none ∧ s.live.stored = []
      ∧ s.live.freeSlot = some 0
      ∧ place (s.paired xa (.setRoute 12 1 0)).env 0 route12 1
          (s.paired xa (.setRoute 12 1 0)).live = .ok placed12
      ∧ (∀ e ∈ route12.path ++ route12.overlap, s.live.hasControl e.element)
      ∧ (∃ sig, route12.exit = .signal sig) ∧ ∀ j, (s.live.slot j).state ≠ .entered := by
  refine ⟨by decide, pairs_asked _ _ (by decide) (by decide), by decide, by decide, by decide +kernel,
    by decide, by decide +kernel, ?_, by decide, ⟨61, rfl⟩, ?_⟩
  · have h : (place ((asked (.setRoute 12 1 0) base).paired xa (.setRoute 12 1 0)).env 0 route12 1
        ((asked (.setRoute 12 1 0) base).paired xa (.setRoute 12 1 0)).live).toOption.isSome = true := by
      decide +kernel
    unfold placed12
    revert h
    dsimp only
    cases place ((asked (.setRoute 12 1 0) base).paired xa (.setRoute 12 1 0)).env 0 route12 1
        ((asked (.setRoute 12 1 0) base).paired xa (.setRoute 12 1 0)).live with
    | ok d => exact fun _ => rfl
    | error e => intro h; cases h
  · exact all_slots_free _ rfl

/-- The slots all in use by other routes. -/
def fullSlots (s : State) : State :=
  onLive (fun d => { d with slots := d.slots.map (fun _ =>
    { slot12 .clear with route := some 300 }) }) s
/-- A full stored request queue. -/
def fullQueue (s : State) : State :=
  onLive (fun d => d.setStored (List.replicate 16
    { route := 300, priority := 0, arrival := 140000, expiry := none })) s

theorem witness_SetRouteStoredOrRefused :
    let q := Request.setRoute 12 1 1
    let hold := asked q (onEnv (fun v => { v with startHold := some 1 }) base)
    let none_ := asked q (fullSlots base)
    let full := asked q (fullQueue (fullSlots base))
    let locked := asked q (withElement 60 (fun e => { e with blocked := true }) base)
    (hold.pairs xa q ∧ hold.env.startHold ≠ none)
    ∧ ((asked (.setRoute 13 1 1) base).pairs xa (.setRoute 13 1 1) ∧ base.env.route? 13 = none)
    ∧ (∀ st ∈ [SlotState.cancelling, .setting], (asked q (withSlot st id base)).pairs xa q
      ∧ (asked q (withSlot st id base)).live.slotOf 12 = some 0
      ∧ ((asked q (withSlot st id base)).live.slot 0).state = st)
    ∧ (none_.pairs xa q ∧ none_.env.operating = true ∧ none_.live.reeval = false
      ∧ none_.env.startHold = none ∧ none_.live.slotOf 12 = none ∧ none_.live.stored? 12 = none
      ∧ none_.env.route? 12 = some route12 ∧ none_.live.freeSlot = none
      ∧ none_.live.stored.length < 16)
    ∧ (full.live.freeSlot = none ∧ full.live.stored? 12 = none ∧ 16 ≤ full.live.stored.length)
    ∧ (locked.live.freeSlot = some 0
      ∧ place (locked.paired xa q).env 0 route12 1 (locked.paired xa q).live = .error .blocked) := by
  refine ⟨⟨pairs_asked _ _ (by decide) (by decide), by decide⟩,
    ⟨pairs_asked _ _ (by decide) (by decide), by decide⟩, fun st hst => ?_,
    ⟨pairs_asked _ _ (by decide) (by decide), by decide, rfl, rfl, by decide +kernel, by decide,
      by decide, by decide +kernel, by decide⟩, by decide +kernel, by decide +kernel, ?_⟩
  · simp only [List.mem_cons, List.not_mem_nil, or_false] at hst
    rcases hst with rfl | rfl <;>
      exact ⟨pairs_asked _ _ (by decide) (by decide), by decide +kernel, by decide⟩
  · have h : entryRefusal ((asked (.setRoute 12 1 1)
        (withElement 60 (fun e => { e with blocked := true }) base)).paired xa (.setRoute 12 1 1)).env
        ((asked (.setRoute 12 1 1)
        (withElement 60 (fun e => { e with blocked := true }) base)).paired xa (.setRoute 12 1 1)).live
        60 = some .blocked := by decide +kernel
    unfold place
    rw [show route12.entry = 60 from rfl, h]

/-- A stored request for route 12 with an expiry that has been reached. -/
def stored12 (t : Option Time) (s : State) : State :=
  onLive (fun d => d.setStored [{ route := 12, priority := 1, arrival := 140000, expiry := t }]) s

theorem witness_CancelAndEmergencyReleaseHoldSlot :
    let s := asked (.cancelRoute 12) (stored12 none base)
    let t := asked (.cancelRoute 12) (withElement 38 (fun e => { e with occupied := true })
      (withSlot .clear id base))
    let u := asked (.releaseEmergency 12) (withSlot .entered id base)
    (s.env.operating = true ∧ s.env.route? 12 = some route12 ∧ s.live.reeval = false
      ∧ s.pairs xa (.cancelRoute 12) ∧ s.live.slotOf 12 = none ∧ (s.live.stored? 12).isSome = true)
    ∧ (t.env.operating = true ∧ t.live.reeval = false ∧ t.pairs xa (.cancelRoute 12)
      ∧ t.live.slotOf 12 = some 0 ∧ (t.live.slot 0).state = .clear
      ∧ approachHold t.env t.live route12 = 180)
    ∧ (u.env.operating = true ∧ u.live.reeval = false ∧ u.pairs xa (.releaseEmergency 12)
      ∧ u.live.slotOf 12 = some 0 ∧ (u.live.slot 0).state = .entered
      ∧ u.env.timing.holdMax = 180) :=
  ⟨⟨by decide, by decide, by decide, pairs_asked _ _ (by decide) (by decide), by decide +kernel,
      by decide⟩,
    ⟨by decide, by decide, pairs_asked _ _ (by decide) (by decide), by decide +kernel, by decide,
      by decide +kernel⟩,
    ⟨by decide, by decide, pairs_asked _ _ (by decide) (by decide), by decide +kernel, by decide,
      by decide⟩⟩

/-- The zone of signal 60 clear, then occupied: for a SHUNT route, outside NORMAL, with no speed record,
and with one that is stale. -/
theorem witness_ApproachHoldWithinLimits :
    let occ := withElement 38 (fun e => { e with occupied := true }) base
    let old := withControl 60 (fun c => { c with speed := some { v := 278, time := 60000 } }) occ
    base.env.timing.holdMin ≤ base.env.timing.holdMax
      ∧ zoneOccupied base.env base.live route12.entry = false
      ∧ zoneOccupied occ.env occ.live route12.entry = true ∧ route12.main = true
      ∧ ({ route12 with main := false } : RouteDef).main = false
      ∧ (degraded occ).env.mode ≠ .normal ∧ (occ.live.control route12.entry).speed = none
      ∧ (old.live.control route12.entry).speed = some { v := 278, time := 60000 }
      ∧ 1000 * old.env.timing.speedValid < elapsed 60000 old.env.now := by decide +kernel

/-- Signal 60 proceeds from the slot in CLEAR; for a SHUNT route it shows SHUNT. -/
theorem witness_AspectProceedsOnlyFromClearSlot :
    let s := withSlot .clear id base
    let v := { s.env with store := .standing { junction with
      routes := [{ route12 with main := false }] } }
    wantedAspect s.env s.live 60 ≠ .stop
      ∧ clearedFrom v s.live 60 = some { route12 with main := false }
      ∧ forcedStop v s.live 60 = false := by decide +kernel

theorem witness_StoredEntryExpires :
    let s := stored12 (some 150000) base
    let t := asked (.setRoute 12 3 1) (stored12 (some 150001) base)
    (s.live.stored? 12 = some { route := 12, priority := 1, arrival := 140000, expiry := some 150000 }
      ∧ s.live.reeval = false ∧ reached s.env.now 150000 = true)
    ∧ (stored12 none base).live.stored? 12
        = some { route := 12, priority := 1, arrival := 140000, expiry := none }
    ∧ (t.live.stored? 12 = some { route := 12, priority := 1, arrival := 140000, expiry := some 150001 }
      ∧ reached t.env.now 150001 = false ∧ t.env.operating = true ∧ t.pairs xa (.setRoute 12 3 1)
      ∧ t.env.startHold = none ∧ t.env.route? 12 = some route12 ∧ t.live.slotOf 12 = none) :=
  ⟨by decide, by decide, by decide, by decide, by decide, pairs_asked _ _ (by decide) (by decide),
    by decide, by decide, by decide +kernel⟩

theorem witness_SettingAndHoldExpiriesFreeSlot :
    let s := withSlot .setting (fun x => { x with setting := some 150000 }) base
    let t := withSlot .cancelling (fun x => { x with hold := some 150000 }) base
    (s.live.routeOf s.env 0 = some route12 ∧ s.live.stored = [] ∧ (s.live.slot 0).state = .setting
      ∧ (s.live.slot 0).setting = some 150000)
    ∧ (t.live.routeOf t.env 0 = some route12 ∧ t.live.stored = [] ∧ (t.live.slot 0).state = .cancelling
      ∧ (t.live.slot 0).hold = some 150000) ∧ reached base.env.now 150000 = true := by
  decide +kernel

theorem witness_OverlapExpiryReleasesOverlap :
    let s := withSlot .entered (fun x => { x with overlapExpiry := some 150000 }) base
    s.live.routeOf s.env 0 = some route12 ∧ s.live.stored = []
      ∧ (s.live.slot 0).overlapExpiry = some 150000 ∧ reached s.env.now 150000 = true
      ∧ (s.live.slot 0).state = .entered := by decide +kernel

/-! ### Hypotheses met: points -/

theorem witness_ThrowPointRefusesOrStartsThrow_refused :
    let bad := asked (.throwPoint 40 0) base
    let wrong := asked (.throwPoint 7 2) base
    let locked := asked (.throwPoint 7 1) (withControl 7 (fun c =>
      { c with lock := some { holder := .slot 0, mode := .path } }) base)
    let counted := asked (.throwPoint 7 1) (withControl 7 (fun c => { c with reverseCount := 1 }) base)
    bad.pairs xa (.throwPoint 40 0) ∧ wrong.pairs xa (.throwPoint 7 2)
      ∧ locked.pairs xa (.throwPoint 7 1) ∧ counted.pairs xa (.throwPoint 7 1)
      ∧ base.env.operating = true ∧ base.live.reeval = false
      ∧ bad.env.elementIs 40 Element.isPoint = false ∧ 1 < 2
      ∧ locked.env.elementIs 7 Element.isPoint = true ∧ (locked.live.control 7).lock ≠ none
      ∧ 0 < (counted.live.control 7).reverseCount :=
  ⟨pairs_asked _ _ (by decide) (by decide), pairs_asked _ _ (by decide) (by decide),
    pairs_asked _ _ (by decide) (by decide), pairs_asked _ _ (by decide) (by decide), by decide,
    by decide, by decide, by decide, by decide, by decide, by decide⟩

theorem witness_ThrowPointRefusesOrStartsThrow_starts :
    let s := asked (.throwPoint 7 Position.reverse.code) base
    s.env.operating = true ∧ s.pairs xa (.throwPoint 7 Position.reverse.code) ∧ s.live.reeval = false
      ∧ s.env.element? 7 = some point7 ∧ point7.isPoint = true ∧ s.live.hasControl 7
      ∧ s.env.groupOf 7 < s.live.power.length ∧ (s.live.control 7).lock = none
      ∧ (s.live.control 7).normalCount = 0 ∧ (s.live.control 7).reverseCount = 0
      ∧ (s.live.control 7).flight = none ∧ s.live.orders = [] ∧ s.env.pointOccupied 7 = false
      ∧ s.env.blocked 7 = false ∧ throwHeld s.env s.live 7 = false
      ∧ s.env.detected 7 .reverse = false ∧ groupReady s.env s.live (s.env.groupOf 7) = true :=
  ⟨by decide, pairs_asked _ _ (by decide) (by decide), by decide +kernel⟩

/-- Point 7 with a throw to REVERSE in flight, arrived after 4100 ms. -/
def flight7 : Flight :=
  { position := .reverse, start := 143900, expiry := 149900, measured := some 4100
    settle := some 150000 }
def throwing : State :=
  withControl 7 (fun c => { c with commanded := some .reverse, flight := some flight7 }) base

theorem witness_SettleExpiryEndsThrow :
    (throwing.live.control 7).flight = some flight7 ∧ flight7.settle = some 150000
      ∧ reached throwing.env.now 150000 = true ∧ throwing.live.orders = []
      ∧ throwing.live.stored = [] ∧ throwing.live.hasControl 7
      ∧ throwing.env.element? 7 = some point7
      ∧ throwing.env.groupOf 7 < throwing.live.power.length
      ∧ flight7.measured = some 4100 ∧ point7.slow < 4100 := by decide +kernel

/-- The throw of point 7 with no slot in SETTING; with slot 0 in SETTING, which has the point in its path;
and with slot 0 in SETTING for a route without it, which counts on it for flank protection. -/
theorem witness_ThrowExpiryFailsThrow :
    let sets := withSlot .setting (fun x => { x with setting := some 170000 }) throwing
    let flank := withSlot .setting (fun x => { x with
      setting := some 170000
      pathMarks := List.replicate 3 { Mark.none with released := true }
      flank := [{ protector := some (.point 7 .reverse), position := [], excluded := [] }] }) throwing
    ((throwing.live.control 7).flight = some flight7
      ∧ reached throwing.env.now flight7.expiry = true ∧ throwing.live.orders = []
      ∧ throwing.live.reeval = false ∧ throwing.live.hasControl 7
      ∧ throwing.env.groupOf 7 < throwing.live.power.length
      ∧ ∀ i, (throwing.live.slot i).state ≠ .setting)
    ∧ (sets.live.stored = [] ∧ (sets.live.slot 0).state = .setting
      ∧ hasRoutePoint sets.env sets.live 7 0 = true ∧ (sets.live.slot 1).state ≠ .setting)
    ∧ ((flank.live.slot 0).state = .setting ∧ flank.live.routeOf flank.env 0 = some route12
      ∧ hasRoutePoint flank.env flank.live 7 0 = false
      ∧ ∃ h ∈ (flank.live.slot 0).flank, h.protector = some (.point 7 flight7.position)) :=
  ⟨⟨by decide, by decide, by decide, by decide, by decide, by decide +kernel, all_slots_free _ rfl⟩,
    by decide +kernel, by decide +kernel⟩

theorem witness_DetectionExpiriesRaiseFaults_confirmation :
    let s := withControl 7 (fun c => { c with confirm := some 150000 })
      (withControl 60 (fun c => { c with confirm := some 150000 }) base)
    (∀ n ∈ [7, 60], (s.live.control n).confirm = some 150000 ∧ s.live.hasControl n)
      ∧ reached s.env.now 150000 = true ∧ s.live.reeval = false
      ∧ s.env.elementIs 7 Element.isPoint = true ∧ s.env.elementIs 60 Element.isPoint = false := by
  decide +kernel

/-! ### Hypotheses met: elements, faults, groups, lanes -/

/-- Taken from both lanes, and BLOCK from the live lane alone while DEGRADED. -/
theorem witness_BlockAndUnblockSetFlag :
    let b := asked (.block 40) base
    let u := asked (.unblock 40) (withElement 40 (fun e => { e with blocked := true }) base)
    (b.env.operating = true ∧ b.live.reeval = false ∧ b.pairs xa (.block 40)
      ∧ b.env.element? 40 = some (aSection 40) ∧ (aSection 40).isBoundary = false)
    ∧ (u.env.operating = true ∧ u.live.reeval = false ∧ u.pairs xa (.unblock 40)
      ∧ u.env.element? 40 = some { aSection 40 with blocked := true }
      ∧ u.live.orders = [] ∧ u.live.stored = [])
    ∧ (degraded base).takenAs xa (.block 40) ((degraded base).exchange xa)
    ∧ (asked (.block 8) base).pairs xa (.block 8) ∧ base.env.element? 8 = none
    ∧ (asked (.unblock 90) base).pairs xa (.unblock 90)
    ∧ base.env.element? 90 = some boundary90 ∧ boundary90.isBoundary = true :=
  ⟨⟨by decide, by decide, pairs_asked _ _ (by decide) (by decide), by decide, by decide⟩,
    ⟨by decide, by decide, pairs_asked _ _ (by decide) (by decide), by decide, by decide, by decide⟩,
    .inr ⟨by decide, by decide, by decide, by decide, rfl⟩,
    pairs_asked _ _ (by decide) (by decide), by decide, pairs_asked _ _ (by decide) (by decide),
    by decide, by decide⟩

/-- THROW_FAIL on point 7, ACTIVE or GONE. -/
def failed7 (active : Bool) (s : State) : State :=
  withControl 7 (fun c => { c with
    faults := [{ kind := .throwFail, active := active, first := 52000, last := 52000, count := 1 }] }) s

/-- Taken from both lanes, and from the live lane alone while DEGRADED. -/
theorem witness_AckFaultRemovesGoneEntry :
    let q := Request.ackFault 7 3
    (∀ s ∈ [base, failed7 true base, failed7 false base],
      (asked q s).takenAs xa q ((asked q s).paired xa q) ∧ (asked q s).live.reeval = false
        ∧ (asked q s).env.operating = true ∧ (asked q s).live.stored = []
        ∧ (asked q s).env.element? 7 = some point7)
    ∧ (degraded base).takenAs xa q ((degraded base).exchange xa)
    ∧ (asked q State.reset).takenAs xa q ((asked q State.reset).paired xa q)
    ∧ (asked q State.reset).env.operating = false
    ∧ faultKindOf 3 = some .throwFail ∧ (base.live.control 7).fault? .throwFail = none
    ∧ (((failed7 true base).live.control 7).fault? .throwFail).any (fun f => f.active) = true
    ∧ (((failed7 false base).live.control 7).fault? .throwFail).any (fun f => !f.active) = true
    ∧ (base.env.element? 8 = none ∧ 9 < 10) := by
  refine ⟨?_, .inr ⟨by decide, by decide, by decide, by decide, rfl⟩,
    .inl ⟨pairs_asked _ _ (by decide) (by decide), rfl⟩, by decide, by decide, by decide, by decide,
    by decide, by decide⟩
  intro s hs
  simp only [List.mem_cons, List.not_mem_nil, or_false] at hs
  rcases hs with rfl | rfl | rfl <;>
    exact ⟨.inl ⟨pairs_asked _ _ (by decide) (by decide), rfl⟩, by decide, by decide, by decide,
      by decide⟩

/-- A group ACTIVE. -/
def latched (g : Nat) (s : State) : State :=
  onLive (fun d => d.setGroup g (fun _ => { active := true, since := some 1, source := some .lane })) s

theorem witness_StopSetLatchesGroup :
    let q := Request.stopSet 0
    ((asked q State.reset).takenAs xa q ((asked q State.reset).paired xa q)
      ∧ (asked q State.reset).env.operating = false)
    ∧ ((asked (.stopSet 8) base).takenAs xa (.stopSet 8) ((asked (.stopSet 8) base).paired xa (.stopSet 8))
      ∧ base.env.hasSource 1 .lane = false)
    ∧ ((asked q (latched 0 base)).takenAs xa q ((asked q (latched 0 base)).paired xa q)
      ∧ ((latched 0 base).live.group 0).active = true)
    ∧ ((degraded base).takenAs xa q ((degraded base).exchange xa) ∧ base.env.operating = true
      ∧ base.env.hasSource 0 .lane = true ∧ (base.live.group 0).active = false
      ∧ 0 < base.live.groups.length ∧ base.live.reeval = false) :=
  ⟨⟨.inl ⟨pairs_asked _ _ (by decide) (by decide), rfl⟩, by decide⟩,
    ⟨.inl ⟨pairs_asked _ _ (by decide) (by decide), rfl⟩, by decide⟩,
    ⟨.inl ⟨pairs_asked _ _ (by decide) (by decide), rfl⟩, by decide⟩,
    ⟨.inr ⟨by decide, by decide, by decide, by decide, rfl⟩, by decide, by decide, by decide,
      by decide, by decide⟩⟩

theorem witness_StopReleaseReleasesGroup :
    let q := Request.stopRelease 0
    let held := asked q (onEnv (fun v => { v with as0 := true }) base)
    ((degraded base).env.operating = true ∧ (degraded base).env.mode ≠ .normal)
    ∧ ((asked q State.reset).pairs xa q ∧ (asked q State.reset).env.operating = false)
    ∧ ((asked (.stopRelease 8) base).pairs xa (.stopRelease 8) ∧ base.env.operating = true)
    ∧ (held.pairs xa q ∧ ∃ src ∈ levelSources, held.env.hasSource 0 src = true
      ∧ levelOf held.env held.live src = true)
    ∧ ((asked q base).pairs xa q ∧ ((asked q base).live.group 0).active = false)
    ∧ ((asked q (latched 0 base)).pairs xa q ∧ (latched 0 base).live.stored = []
      ∧ ((latched 0 base).live.group 0).active = true
      ∧ ∀ src ∈ levelSources, base.env.hasSource 0 src = true →
          levelOf base.env base.live src = false) :=
  ⟨by decide, ⟨pairs_asked _ _ (by decide) (by decide), by decide⟩,
    ⟨pairs_asked _ _ (by decide) (by decide), by decide⟩,
    ⟨pairs_asked _ _ (by decide) (by decide), by decide⟩,
    ⟨pairs_asked _ _ (by decide) (by decide), by decide⟩,
    ⟨pairs_asked _ _ (by decide) (by decide), by decide, by decide, by decide⟩⟩

theorem witness_AreaStopEdgeLatchesGroups :
    base.live.reeval = false ∧ base.env.operating = true ∧ base.env.input .as0 = false
      ∧ State.reset.env.operating = false := by decide

theorem witness_LaneSilenceLosesLane :
    base.env.operating = true ∧ base.env.present .b = true ∧ base.env.silence .b = some 149900
      ∧ reached base.env.now 149900 = true ∧ base.env.present LaneId.b.other = true
      ∧ (proceeding.env.silence .b = some 149900 ∧ proceeding.env.mode = .normal
        ∧ proceeding.tablesWhole ∧ proceeding.slotsSound) :=
  ⟨by decide, by decide, by decide, by decide, by decide, by decide, by decide, proceeding_whole,
    proceeding_slots⟩

/-- REJOIN of lane B in DEGRADED, waiting from lane B; of lane B when it is PRESENT; of no lane. -/
theorem witness_RejoinMarksLanePresent :
    (degraded base).env.operating = true
      ∧ (∃ e ∈ ((asked (.rejoin 1) (degraded base)).live.lane xa.lane.other).requests,
          e.request = .rejoin 1)
      ∧ laneOf 1 = some .b ∧ (degraded base).env.present .b = false
      ∧ base.env.present .b = true ∧ laneOf 2 = none := by decide

/-! ### Hypotheses met: timers, loads, restarts -/

theorem witness_QuietExpiriesEndOneTimer :
    let h := onEnv (fun v => { v with startHold := some 150000 }) base
    let o := onEnv (fun v => { v with now := 2147487848 }) base
    let p := withControl 60 (fun c => { c with speed := some { v := 278, time := 60000 } }) base
    let r := withBoundary (fun y => { y with reqExpiry := some 150000 }) base
    let g := onLive (fun d => d.setPower 0 (fun y => { y with stagger := some 150000 })) base
    (h.live.reeval = false ∧ h.env.startHold = some 150000 ∧ reached h.env.now 150000 = true)
    ∧ (o.env.element? 40 = some (aSection 40) ∧ (aSection 40).occTime = some 4200
      ∧ 2147483648 ≤ elapsed 4200 o.env.now)
    ∧ ((p.live.control 60).speed = some { v := 278, time := 60000 }
      ∧ 1000 * p.env.timing.speedValid < elapsed 60000 p.env.now)
    ∧ (r.live.boundary 0).reqExpiry = some 150000
    ∧ ((g.live.powerGroup 0).stagger = some 150000 ∧ g.live.orders = []) := by decide +kernel

theorem loading_store : loading.env.store = .staged (Staged.open.take [0x0C, 0, 0, 40]) := rfl
/-- The digest of that one record, and its checks: none fails it. -/
theorem loading_valid : firstOffence (Staged.open.take [0x0C, 0, 0, 40]) = none := by decide +kernel
/-- A record of unknown kind offends at once. -/
theorem loading_offence :
    firstOffence (Staged.open.take [0x0E, 0]) = some (0, 14, 1) := by decide +kernel

theorem witness_LoadFillsAndFailsStagedSet :
    let bad := onEnv (fun v => { v with store := .staged (Staged.open.take [0x0E, 0]) }) State.reset
    let g := (Staged.open.take [0x0E, 0]).digest.toNat
    ((asked .loadBegin State.reset).pairs xa .loadBegin
      ∧ (asked .loadBegin State.reset).env.operating = false)
    ∧ (asked (.loadRecord [1, 2]) loading).pairs xa (.loadRecord [1, 2])
    ∧ ((asked (.loadEnd 0) loading).pairs xa (.loadEnd 0)
      ∧ (Staged.open.take [0x0C, 0, 0, 40]).digest.toNat ≠ 0)
    ∧ ((asked (.loadEnd g) bad).pairs xa (.loadEnd g)
      ∧ ∃ i k c, firstOffence (Staged.open.take [0x0E, 0]) = some (i, k, c)) :=
  ⟨⟨pairs_asked _ _ (by decide) (by decide), by decide⟩, pairs_asked _ _ (by decide) (by decide),
    ⟨pairs_asked _ _ (by decide) (by decide), by decide +kernel⟩,
    ⟨pairs_asked _ _ (by decide +kernel) (by decide), 0, 14, 1, loading_offence⟩⟩

theorem witness_StartsTakeUpRestartValues :
    let g := (Staged.open.take [0x0C, 0, 0, 40]).digest.toNat
    ((asked (.loadEnd g) loading).pairs xa (.loadEnd g)
      ∧ (asked (.loadEnd g) loading).env.store = .staged (Staged.open.take [0x0C, 0, 0, 40])
      ∧ firstOffence (Staged.open.take [0x0C, 0, 0, 40]) = none)
    ∧ ((asked (.restart 0) base).pairs xa (.restart 0) ∧ base.env.operating = true) :=
  ⟨⟨pairs_asked _ _ (by decide +kernel) (by decide), rfl, loading_valid⟩,
    ⟨pairs_asked _ _ (by decide) (by decide), by decide⟩⟩

theorem witness_RestartUnloadLeavesUnconfigured :
    ((asked (.restart 2) base).pairs xa (.restart 2) ∧ base.env.operating = true)
    ∧ ((asked (.restart 1) State.reset).pairs xa (.restart 1)
      ∧ State.reset.env.part = .unconfigured)
    ∧ ((asked (.restart 1) loading).pairs xa (.restart 1) ∧ loading.env.part = .loading)
    ∧ ((asked (.restart 1) base).pairs xa (.restart 1) ∧ base.env.part = .operating) :=
  ⟨⟨pairs_asked _ _ (by decide) (by decide), by decide⟩,
    ⟨pairs_asked _ _ (by decide) (by decide), by decide⟩,
    ⟨pairs_asked _ _ (by decide) (by decide), by decide⟩,
    ⟨pairs_asked _ _ (by decide) (by decide), by decide⟩⟩

/-! ### Hypotheses met: links -/

/-- Link 0 in a state. -/
def link (st : LinkState) (s : State) : State :=
  onLive (fun d => d.setLink 0 (fun k => { k with state := st })) s

theorem witness_LinkRequestsSetLinkState :
    let e := Request.linkEnable 0
    let f := Request.linkDisable 0
    base.live.reeval = false ∧ base.env.operating = true
    ∧ (base.env.link? 0 ≠ none → 0 < base.live.links.length)
    ∧ ((degraded base).env.operating = true ∧ (degraded base).env.mode ≠ .normal)
    ∧ ((asked e State.reset).pairs xa e ∧ State.reset.env.operating = false)
    ∧ ((asked (.linkEnable 1) base).pairs xa (.linkEnable 1) ∧ base.env.link? 1 = none)
    ∧ ((asked e base).pairs xa e ∧ base.env.link? 0 = some link0
      ∧ (base.live.link 0).state ≠ .disabled)
    ∧ ((asked e (link .disabled base)).pairs xa e ∧ ((link .disabled base).live.link 0).state = .disabled)
    ∧ ((asked f (withBoundary (fun y => { y with berthLocked := true }) base)).pairs xa f
      ∧ ∃ bd ∈ base.env.linkBoundaries 0,
          holdsLink ((withBoundary (fun y => { y with berthLocked := true }) base).live.boundary bd.number)
            = true)
    ∧ ((asked f (link .up base)).pairs xa f ∧ ∀ bd ∈ base.env.linkBoundaries 0,
        holdsLink ((link .up base).live.boundary bd.number) = false) := by
  refine ⟨by decide, by decide, by decide, by decide,
    ⟨pairs_asked _ _ (by decide) (by decide), by decide⟩,
    ⟨pairs_asked _ _ (by decide) (by decide), by decide⟩,
    ⟨pairs_asked _ _ (by decide) (by decide), by decide, by decide⟩,
    ⟨pairs_asked _ _ (by decide) (by decide), by decide⟩,
    ⟨pairs_asked _ _ (by decide) (by decide), by decide⟩,
    ⟨pairs_asked _ _ (by decide) (by decide), by decide⟩⟩

theorem witness_NeighbourFramesJoinQueue :
    let full := linkUp (List.replicate 8 (.dirGrant 3)) base
    let cut := onLive (fun d => d.setLink 0 (fun k => { k with hunt := [0xA5#8, 0x03#8] })) base
    base.live.reeval = false ∧ base.live.stored = [] ∧ 0 < base.live.links.length
    ∧ (base.env.link? 0 ≠ none ∧ (base.live.link 0).state ≠ .disabled ∧ (base.live.link 0).hunt = []
      ∧ (base.live.link 0).rx.length + 1 ≤ 8)
    ∧ ((linkUp (List.replicate 7 (.dirGrant 3)) base).live.link 0).rx.length = 7
    ∧ ((full.live.link 0).state = .up ∧ 8 ≤ (full.live.link 0).rx.length)
    ∧ base.env.link? 1 = none
    ∧ (nframeBreaksOff [0x00, 0x05, 0xA5] = true ∧ framesIn [0x00, 0x05, 0xA5] = [])
    ∧ (nframeBreaksOff (0x00 :: 0x00 :: 0x00 :: 0x00 :: NFrame.bytes (.dirGrant 3)) = false
      ∧ huntIn (0x00 :: 0x00 :: 0x00 :: 0x00 :: NFrame.bytes (.dirGrant 3)) = ([.dirGrant 3], []))
    ∧ ((cut.live.link 0).hunt ≠ []
      ∧ huntIn ((cut.live.link 0).hunt ++ NFrame.bytes (.dirGrant 3)) = ([.dirGrant 3], [])) := by
  decide +kernel

theorem witness_LinkSendsStatusAndQueue :
    let due := onLive (fun d => d.setLink 0 (fun k => { k with nextStatus := some 150000 })) base
    let busy := onLive (fun d => d.setLink 0 (fun k => { k with tx := [.dirGrant 3] })) due
    due.live.reeval = false ∧ 0 < due.live.links.length ∧ due.env.link? 0 = some link0
      ∧ (due.live.link 0).nextStatus = some 150000 ∧ reached due.env.now 150000 = true
      ∧ (due.live.link 0).tx = [] ∧ (busy.live.link 0).nextStatus = some 150000
      ∧ (busy.live.link 0).tx = [.dirGrant 3] := by decide +kernel

theorem witness_LinkSilenceLosesLink :
    let s := linkUp [] base
    (s.live.link 0).state = .up ∧ (s.live.link 0).silence = some 149990
      ∧ reached s.env.now 149990 = true ∧ s.live.stored = [] ∧ 0 < s.live.links.length
      ∧ s.env.linkBoundaries 0 = [boundary0]
      ∧ ∀ bd ∈ s.env.linkBoundaries 0, s.live.hasControl bd.element ∧ s.live.hasBoundary bd.number := by
  decide +kernel

/-! ### Hypotheses met: boundaries -/

theorem witness_BoundaryResetRestrictsOrCompletes :
    let q := Request.boundaryReset 0
    let run := withBoundary (fun y => { y with resetExpiry := some 150001 }) base
    let kept := withBoundary (fun y => { y with berthLocked := true, acceptance := .held, exitSlot := some 0 })
      (withSlot .clear id base)
    base.env.operating = true ∧ base.live.stored = [] ∧ base.live.reeval = false
    ∧ ((asked (.boundaryReset 1) base).pairs xa (.boundaryReset 1) ∧ base.env.boundary? 1 = none)
    ∧ ((asked q run).pairs xa q ∧ run.env.boundary? 0 ≠ none
      ∧ (run.live.boundary 0).resetExpiry ≠ none)
    ∧ ((asked q base).pairs xa q ∧ base.env.boundary? 0 = some boundary0
      ∧ (base.live.boundary 0).resetExpiry = none ∧ base.live.hasBoundary 0
      ∧ (base.live.boundary 0).exitSlot = none ∧ (base.live.boundary 0).berthLocked = false)
    ∧ ((asked q kept).pairs xa q ∧ (kept.live.boundary 0).resetExpiry = none
      ∧ (kept.live.boundary 0).exitSlot = some 0 ∧ (kept.live.slot 0).state = .clear
      ∧ (kept.live.boundary 0).berthLocked = true) :=
  ⟨by decide, by decide, by decide, ⟨pairs_asked _ _ (by decide) (by decide), by decide⟩,
    ⟨pairs_asked _ _ (by decide) (by decide), by decide, by decide⟩,
    ⟨pairs_asked _ _ (by decide) (by decide), by decide, by decide, by decide, by decide, by decide⟩,
    ⟨pairs_asked _ _ (by decide) (by decide), by decide, by decide, by decide, by decide⟩⟩

/-- Link 0 UP with one frame to take, boundary 0 unrestricted with a FREE berth. -/
theorem witness_DirectionFramesMoveDirection :
    let out := fun (f : NFrame) (g : Boundary → Boundary) => withBoundary g (linkUp [f] base)
    (∀ s ∈ [out (.dirRequest 3 .senior) id,
        out (.dirRequest 3 .senior) (fun y => { y with direction := .outward, acceptance := .held }),
        out (.dirGrant 3) (fun y => { y with reqExpiry := some 152000 }), out (.dirOffer 3) id,
        out (.dirRefuse 3) (fun y => { y with reqExpiry := some 152000 })],
      (s.live.link 0).state = .up ∧ (s.live.link 0).tx.length < 16 ∧ s.live.stored = []
        ∧ 0 < s.live.links.length ∧ s.env.namedBoundary 0 3 = some boundary0
        ∧ s.env.boundary? boundary0.number = some boundary0 ∧ s.live.hasBoundary boundary0.number
        ∧ (s.live.boundary 0).restricted = false ∧ (s.live.boundary 0).berthLocked = false
        ∧ (s.live.link 0).rx.length = 1)
    ∧ ((out (.dirRequest 3 .senior) id).live.boundary 0).reqExpiry = none
    ∧ ((out (.dirRequest 3 .senior) id).live.boundary 0).direction ≠ .outward
    ∧ boundaryBusy (out (.dirRequest 3 .senior)
        (fun y => { y with direction := .outward, acceptance := .held })).live 0 = true
    ∧ ((out (.dirGrant 3) (fun y => { y with reqExpiry := some 152000 })).live.boundary 0).reqExpiry
        ≠ none := by decide +kernel

/-- A DIR_REQUEST that meets an own request, from either seniority; a RESTRICTED boundary; a grant nobody
asked for and an offer for a LOCKED berth. The junction's end is JUNIOR. -/
theorem witness_ContestsAndDiscardedDirectionFrames :
    let out := fun (f : NFrame) (g : Boundary → Boundary) => withBoundary g (linkUp [f] base)
    (∀ s ∈ [out (.dirRequest 3 .senior) (fun y => { y with reqExpiry := some 152000 }),
        out (.dirRequest 3 .junior) (fun y => { y with reqExpiry := some 152000 }),
        out (.dirRequest 3 .senior) (fun y => { y with restricted := true }), out (.dirGrant 3) id,
        out (.dirOffer 3) (fun y => { y with berthLocked := true })],
      (s.live.link 0).state = .up ∧ (s.live.link 0).tx.length < 15 ∧ s.live.stored = []
        ∧ s.live.reeval = false ∧ 0 < s.live.links.length
        ∧ s.env.namedBoundary 0 3 = some boundary0
        ∧ s.env.boundary? boundary0.number = some boundary0 ∧ s.live.hasBoundary boundary0.number
        ∧ s.live.hasControl boundary0.element ∧ (s.live.link 0).rx.length = 1)
    ∧ boundary0.seniority = .junior
    ∧ ((out (.dirRequest 3 .senior) (fun y => { y with reqExpiry := some 152000 })).live.boundary
        0).restricted = false
    ∧ ((out (.dirGrant 3) id).live.boundary 0).reqExpiry = none
    ∧ (let s := onEnv (fun v => { v with store := .standing { junction with
        boundaries := [{ boundary0 with seniority := .senior }] } })
        (out (.dirRequest 3 .junior) (fun y => { y with reqExpiry := some 152000 }))
      s.env.boundary? 0 = some { boundary0 with seniority := .senior }
        ∧ s.env.namedBoundary 0 3 = some { boundary0 with seniority := .senior }
        ∧ (s.live.boundary 0).direction ≠ .outward) := by decide +kernel

/-- A route to boundary 0. -/
def route13 : RouteDef := { route12 with number := 13, exit := .boundary 90 0 }

/-- A contest between equal ends, with an exit slot in SETTING. -/
def contest : State :=
  onEnv (fun v => { v with store := .standing { junction with routes := [route13] } })
    (withBoundary (fun y => { y with reqExpiry := some 152000, exitSlot := some 0 })
      (withSlot .setting (fun x => { x with route := some 13 }) (linkUp [.dirRequest 3 .junior] base)))

theorem witness_ContestsAndDiscardedDirectionFrames_equal :
    boundary0.seniority = .junior ∧ (contest.live.link 0).rx = [.dirRequest 3 .junior]
      ∧ (contest.live.boundary 0).exitSlot = some 0 ∧ (contest.live.slot 0).state = .setting
      ∧ contest.live.exitsTied contest.env := by
  refine ⟨by decide, by decide, by decide, by decide, fun b i h => ?_⟩
  have one : ∀ x ∈ contest.live.boundaries, x.exitSlot = some 0 ∧ x.num = 0 := by decide
  unfold Live.boundary at h
  split at h
  · next x hx =>
    obtain ⟨h1, h2⟩ := one x (List.mem_of_find?_eq_some hx)
    have hb := List.find?_some hx
    rw [h1] at h
    cases h
    rw [decide_eq_true_eq, h2] at hb
    subst hb
    exact ⟨route13, 90, by decide, rfl⟩
  · cases h

/-- The berth free; the wrong direction; LOCKED; occupied. -/
theorem witness_AcceptRequestLocksBerth :
    let s := withBoundary (fun y => { y with direction := .inward }) (linkUp [.acceptRequest 3] base)
    let locked := withBoundary (fun y => { y with berthLocked := true }) s
    let occ := withElement 44 (fun e => { e with occupied := true }) s
    ((s.live.link 0).state = .up ∧ (s.live.link 0).tx.length < 16 ∧ s.live.reeval = false
      ∧ 0 < s.live.links.length ∧ s.env.namedBoundary 0 3 = some boundary0
      ∧ s.env.boundary? boundary0.number = some boundary0 ∧ s.live.hasBoundary boundary0.number
      ∧ (∀ k ∈ boundary0.berth, s.live.hasControl k) ∧ (s.live.link 0).rx = [.acceptRequest 3]
      ∧ (s.live.boundary 0).direction = .inward ∧ (s.live.boundary 0).restricted = false
      ∧ (s.live.boundary 0).berthLocked = false
      ∧ ∀ k ∈ boundary0.berth, berthFree s.env s.live k = true ∧ s.env.occupied k = false)
    ∧ ((linkUp [.acceptRequest 3] base).live.boundary 0).direction ≠ .inward
    ∧ (locked.live.boundary 0).berthLocked = true
    ∧ ((∀ k ∈ boundary0.berth, berthFree occ.env occ.live k = true)
      ∧ ∃ k ∈ boundary0.berth, occ.env.occupied k = true) := by decide +kernel

theorem witness_AcceptanceAnswered :
    let s := fun (f : NFrame) => withBoundary (fun y =>
      { y with acceptance := .requested, accExpiry := some 150000 }) (linkUp [f] base)
    ∀ f ∈ [NFrame.acceptGrant 3 .caution, .acceptRefuse 3 27],
      (s f).live.stored = [] ∧ (s f).env.boundary? 0 = some boundary0 ∧ boundary0.link = 0
        ∧ boundary0.linkNumber = 3 ∧ (s f).env.namedBoundary 0 3 = some boundary0
        ∧ (s f).live.hasBoundary 0 ∧ 0 < (s f).live.links.length
        ∧ ((s f).live.link 0).tx.length < 16 ∧ ((s f).live.boundary 0).acceptance = .requested
        ∧ ((s f).live.link 0).state = .up ∧ ((s f).live.link 0).rx = [f]
        ∧ ((s f).live.boundary 0).accExpiry = some 150000 ∧ reached (s f).env.now 150000 = true := by
  decide +kernel

theorem witness_BerthReleased_whole :
    let s := withBoundary (fun y => { y with
      berthLocked := true, marks := [Mark.none], resetExpiry := some 150000, restricted := true })
      (withControl 44 (fun c => { c with lock := some { holder := .berth 0, mode := .berth } })
        (linkUp [.acceptCancel 3] base))
    s.live.stored = [] ∧ s.env.boundary? boundary0.number = some boundary0
      ∧ s.env.namedBoundary 0 3 = some boundary0 ∧ s.live.hasBoundary boundary0.number
      ∧ 0 < s.live.links.length ∧ (s.live.link 0).state = .up
      ∧ (s.live.link 0).rx = [.acceptCancel 3] ∧ (s.live.boundary 0).berthLocked = true
      ∧ (∀ m ∈ (s.live.boundary 0).marks, m.occ = false)
      ∧ (s.live.boundary 0).resetExpiry = some 150000 ∧ reached s.env.now 150000 = true := by
  decide +kernel

/-- Berth section 44 behind a train: marked, and about to be filtered CLEAR. -/
theorem witness_BerthReleased_behindTrain :
    let s := withElement 44 (fun e => { e with occupied := true, pickUp := some 150000 })
      (withBoundary (fun y => { y with berthLocked := true, marks := [{ Mark.none with occ := true }] })
        base)
    s.live.stored = [] ∧ (∃ e, s.env.element? 44 = some e ∧ e.isSection = true ∧ e.occupied = true
        ∧ e.pickUp = some 150000)
      ∧ reached s.env.now 150000 = true ∧ s.env.boundary? boundary0.number = some boundary0
      ∧ s.live.hasBoundary boundary0.number ∧ 44 ∈ boundary0.berth
      ∧ (∀ b ∈ s.env.defs.boundaries, 44 ∈ b.berth → b = boundary0)
      ∧ (s.env.defs.boundaries.map BoundaryDef.number).Nodup ∧ boundary0 ∈ s.env.defs.boundaries
      ∧ (∀ i, s.live.noneAt s.env 44 i) ∧ (s.live.boundary boundary0.number).berthLocked = true
      ∧ (s.live.boundary boundary0.number).marks.length = boundary0.berth.length
      ∧ boundary0.berth.Nodup := by
  refine ⟨rfl, ⟨{ aSection 44 with occupied := true, pickUp := some 150000 }, by decide, rfl, rfl, rfl⟩,
    by decide, by decide, by decide, by decide, by decide, by decide, by decide, fun i rt hr => ?_,
    by decide, by decide, by decide⟩
  have h : ∀ j, (base.live.slot j).state ≠ .setting := all_slots_free base rfl
  have hs : base.live.slot i = Slot.free := by
    unfold Live.slot
    rw [show base.live.slots = List.replicate 48 Slot.free from rfl, List.getD_eq_getElem?_getD,
      List.getElem?_replicate]
    split <;> rfl
  unfold Live.routeOf at hr
  rw [show (withElement 44 (fun e => { e with occupied := true, pickUp := some 150000 })
      (withBoundary (fun y => { y with berthLocked := true, marks := [{ Mark.none with occ := true }] })
        base)).live.slot i = base.live.slot i from rfl, hs] at hr
  cases hr

/-- A STATUS entry for link boundary 3. -/
def entry3 : StatusEntry :=
  { number := 3, direction := .outward, restricted := false, acceptance := .none, waiting := false
    berthLocked := false, berthEntered := false, berthOccupied := false, berthReady := false
    home := .caution }

/-- A STATUS with an entry, and one without, on a link in each state; with an exit slot that needs the
boundary; with an acceptance to consume; with a LOCKED berth to give up; with a waiting neighbour. -/
theorem witness_StatusAppliedToEachBoundary :
    (∀ st ∈ [LinkState.disabled, .connecting, .up, .lost], ∀ es ∈ [[entry3], []],
      let s := link st (linkUp [.status true es] base)
      (s.live.link 0).rx = [.status true es] ∧ s.live.stored = [] ∧ s.live.reeval = false
        ∧ 0 < s.live.links.length ∧ (s.live.link 0).state = st
        ∧ (s.env.defs.boundaries.map BoundaryDef.number).Nodup
        ∧ (s.live.link 0).tx.length + 4 * (s.env.linkBoundaries 0).length ≤ 16
        ∧ boundary0 ∈ s.env.linkBoundaries 0 ∧ s.env.boundary? boundary0.number = some boundary0
        ∧ s.live.hasBoundary boundary0.number)
    ∧ [entry3].find? (fun e => e.number = boundary0.linkNumber) = some entry3
    ∧ (let s := withBoundary (fun y => { y with exitSlot := some 0, direction := .outward })
        (withSlot .setting (fun x => { x with dirNeed := true, accNeed := true }) base)
      exitNeeds s.live 0 Slot.accNeed = true ∧ exitNeeds s.live 0 Slot.dirNeed = true
        ∧ (s.live.boundary 0).direction = .outward ∧ (s.live.boundary 0).acceptance = .none
        ∧ (s.live.boundary 0).restricted = false ∧ (s.live.boundary 0).berthLocked = false
        ∧ (s.live.boundary 0).reqExpiry = none)
    ∧ (let s := withBoundary (fun y => { y with
        acceptance := .held, exitEntered := true, berthLocked := true, marks := [Mark.none] }) base
      (s.live.boundary 0).acceptance = .held ∧ (s.live.boundary 0).exitEntered = true
        ∧ entry3.berthLocked = false ∧ (s.live.boundary 0).berthLocked = true
        ∧ (∀ m ∈ (s.live.boundary 0).marks, m.occ = false) ∧ entry3.acceptance = .none)
    ∧ (exitNeeds base.live 0 (fun _ => true) = false
      ∧ ({ entry3 with waiting := true } : StatusEntry).waiting = true) := by decide +kernel

theorem witness_ConsistencyExpiryRestrictsBoundary :
    let s := withBoundary (fun y => { y with consExpiry := some 150000, exitSlot := some 0 })
      (withSlot .clear id base)
    (s.live.boundary 0).consExpiry = some 150000 ∧ reached s.env.now 150000 = true
      ∧ s.env.boundary? 0 = some boundary0 ∧ s.live.hasBoundary 0
      ∧ s.live.hasControl boundary0.element ∧ s.live.reeval = false
      ∧ (s.live.boundary 0).exitSlot = some 0 ∧ (s.live.slot 0).state ≠ .setting := by decide +kernel

/-! ### The manual's worked rows -/

/-- The three rows of 7.9: lengths and times in, dm/s out (R127). -/
theorem test_approach_speeds :
    approachSpeed 500 18000 = 278 ∧ approachSpeed 500 40 = 999 ∧ approachSpeed 500 600000 = 9 := by
  decide +kernel

/-- The holds of 7.9: section 38 OCCUPIED with a record, without one, too old a one, in DEGRADED, and
both sections CLEAR (R129). -/
theorem test_approach_holds :
    let s := withElement 38 (fun e => { e with occupied := true }) base
    let hold := fun (s : State) (r : Option Speed) =>
      approachHold s.env (withControl 60 (fun x => { x with speed := r }) s).live route12
    hold s (some { v := 278, time := 100000 }) = 64 ∧ hold s (some { v := 999, time := 150000 }) = 180
      ∧ hold s (some { v := 9, time := 150000 }) = 30 ∧ hold s none = 180
      ∧ hold (onEnv (fun v => { v with now := 170000 }) s) (some { v := 278, time := 100000 }) = 180
      ∧ hold (degraded s) (some { v := 278, time := 100000 }) = 180
      ∧ hold base (some { v := 278, time := 100000 }) = 0 := by decide +kernel

/-- Row 10000 of the first sequence of 1.7, at Time Base 150000. -/
theorem test_detect_occupied :
    (nextOf base (exec (.detect xa [(40, 1)]) base)).env.element? 40
      = some { aSection 40 with
          viewA := some .occupied, agreed := .occupied, occupied := true, occTime := some 150000
          discExpiry := some 152000 } := by decide +kernel

/-- Section 40 after row 10060 of it. -/
def taken40 : Element :=
  { aSection 40 with
    viewA := some .occupied, viewB := some .occupied, agreed := .occupied, occupied := true
    occTime := some 10000 }

/-- Rows 31000 and 31040: A then B report CLEAR, and only then does the pick-up timer start. -/
theorem test_detect_clear :
    let s := withElement 40 (fun _ => taken40) base
    let t := nextOf s (exec (.detect xa [(40, 0)]) s)
    [t, nextOf t (exec (.detect xb [(40, 0)]) t)].map (fun u => u.env.element? 40)
      = [some { taken40 with viewA := some .clear, discExpiry := some 152000 },
        some { taken40 with
          viewA := some .clear, viewB := some .clear, agreed := .clear, pickUp := some 151000 }] := by
  decide +kernel

/-- Rows 52000 and 53000 of the second sequence, for point 7: DISCREPANT raised, then GONE (R14, R15). -/
theorem test_discrepancy_raised_and_gone :
    let s := withElement 7 (fun e =>
      { e with viewB := some .reverse, agreed := .none, discExpiry := some 150000 }) base
    let t := nextOf s (exec (.discrepancyExpiry 7) s)
    let u := nextOf t (exec (.detect xb [(7, 2)]) t)
    (t.live.control 7).faults.filter (fun f => f.kind = .discrepant)
        = [{ kind := .discrepant, active := true, first := 150000, last := 150000, count := 1 }]
      ∧ (u.live.control 7).faults.filter (fun f => f.kind = .discrepant)
        = [{ kind := .discrepant, active := false, first := 150000, last := 150000, count := 1 }]
      ∧ (u.env.element? 7).map (fun e => e.agreed) = some .normal := by decide +kernel

/-- The take-up of route 12: point 7 stands NORMAL, so the slot goes on to CLEAR and the signal to CAUTION
(R62, R103, R68, R78). -/
theorem test_set_route_reports :
    let s := asked (.setRoute 12 1 0) base
    ((nextOf s (exec (.setRoute xa 12 1 0) s)).live.lane .a).reports
      = [.orderPoint 7 .normal, .routeState 12 (some 0) .setting none,
        .routeState 12 (some 0) .clear none, .orderAspect 60 .caution] := by decide +kernel

end Sys2Proof.Tests
end

section
/-! PROOF. STOP_SET by its table (R133): what the taken request does in each row, and the statement of its
row-by-row effect. The hand-ons of a latch are in `watched_latch`, `latch_group` and `latch_made` (R132). -/

namespace Sys2Proof.Machine

open Sys2Proof

/-- Only the load requests and RESTART(UNLOAD) have a meaning outside OPERATING (R175). -/
theorem gate_not_operating (v : Env) (q : Request) (h : v.operating = false)
    (hr : q ≠ .restart 1) (hb : q ≠ .loadBegin) (hl : ∀ p, q ≠ .loadRecord p)
    (he : ∀ g, q ≠ .loadEnd g) : gate v q = some .notConfigured := by
  have hp : v.part ≠ .operating := by simpa [Env.operating] using h
  unfold gate
  cases hv : v.part with
  | operating => exact absurd hv hp
  | unconfigured => cases q <;> simp_all
  | loading => cases q <;> simp_all

/-- An event that asks for no re-evaluation changes the live state by its own effect alone (R64). -/
theorem State.act_of_not_asked (s : State) (f : Env → Live → Live)
    (h : (f s.env s.live).reeval = false) : s.act f = { s with live := f s.env s.live } := by
  unfold State.act
  rw [serve_of_not_asked _ _ h]

/-! ### The rows of R133 on the live state -/

/-- A group outside the eight, or one that LANE may not latch, is refused to both lanes. -/
theorem takeStopSet_of_bad (v : Env) (d : Live) (g : Nat) (h : 8 ≤ g ∨ v.hasSource g .lane = false) :
    takeStopSet g v d = d.report (.refused 0x27 g .badOperand) := by
  unfold takeStopSet
  have hbad : Config.stopGroups ≤ g ∨ v.hasSource g .lane = false := h
  exact if_pos (by simpa using hbad)

/-- A good operand applies the LANE source to the group. -/
theorem takeStopSet_of_good (v : Env) (d : Live) (g : Nat) (h : g < 8) (hl : v.hasSource g .lane = true) :
    takeStopSet g v d = latch v .lane g d := by
  unfold takeStopSet
  have hg : g < Config.stopGroups := h
  exact if_neg (by simp [hl, hg])

/-- An ACTIVE group is not latched again, and makes no report (R132). -/
theorem latch_of_active (v : Env) (src : Source) (g : Nat) (d : Live) (h : (d.group g).active = true) :
    latch v src g d = d := by
  unfold latch
  exact if_neg (by simp [h])

/-- A STOP_SET asks for no re-evaluation of the stored request queue. -/
theorem takeStopSet_reeval (v : Env) (d : Live) (g : Nat) : (takeStopSet g v d).reeval = d.reeval := by
  unfold takeStopSet
  split
  · exact d.report_reeval _
  · exact reeval_latch v .lane g d

/-! ### The command -/

/-- A taken STOP_SET is handed to the Supervision Unit, paired or from the live lane alone. -/
theorem exec_stopSet_of_taken {x : Exchange} {g : Nat} {s p : State} (ht : s.takenAs x (.stopSet g) p) :
    exec (.stopSet x g) s = .next (p.hand (.stopSet g) (State.act (takeStopSet g))) :=
  congrArg Host.Outcome.next (takenAs_voted s p x _ _ ht)

/-- A taken STOP_SET outside OPERATING is refused to both lanes. -/
theorem exec_stopSet_of_not_operating {x : Exchange} {g : Nat} {s p : State}
    (ht : s.takenAs x (.stopSet g) p) (h : s.env.operating = false) :
    exec (.stopSet x g) s = .next { p with live := p.live.report (.refused 0x27 g .notConfigured) } := by
  have hp : p.env.operating = false := (both_of_taken (fun v _ => v.operating) s p x _ ht).trans h
  have hg : gate p.env (.stopSet g) = some .notConfigured :=
    gate_not_operating _ _ hp nofun nofun nofun nofun
  calc exec (.stopSet x g) s
      = .next (p.hand (.stopSet g) (State.act (takeStopSet g))) := exec_stopSet_of_taken ht
    _ = .next (p.refuse (.stopSet g) .notConfigured) := by rw [p.hand_of_refused _ _ _ hg]

/-- A taken STOP_SET in OPERATING has the effect of its row alone, from both lanes or from one. -/
theorem exec_stopSet_of_operating {x : Exchange} {g : Nat} {s p : State}
    (ht : s.takenAs x (.stopSet g) p) (h : s.env.operating = true) (hr : s.live.reeval = false) :
    exec (.stopSet x g) s = .next { p with live := takeStopSet g p.env p.live } := by
  have hp : p.env.operating = true := (both_of_taken (fun v _ => v.operating) s p x _ ht).trans h
  have hg : gate p.env (.stopSet g) = none := gate_operating _ _ hp ⟨nofun, nofun, nofun⟩
  have hq : (takeStopSet g p.env p.live).reeval = false :=
    (takeStopSet_reeval _ _ _).trans ((both_of_taken (fun _ d => d.reeval) s p x _ ht).trans hr)
  calc exec (.stopSet x g) s
      = .next (p.hand (.stopSet g) (State.act (takeStopSet g))) := exec_stopSet_of_taken ht
    _ = .next (p.act (takeStopSet g)) := by rw [p.hand_of_gate _ _ hg]
    _ = .next { p with live := takeStopSet g p.env p.live } := by rw [p.act_of_not_asked _ hq]

/-- Settles O40, row by row of R133: the refused rows are one report on the state that the taking leaves, and
the latching row is `latch` from the source LANE. -/
theorem stopSetLatchesGroup : Obligations.StopSetLatchesGroup := by
  intro x g s p ht hr
  have hsrc : p.env.hasSource g .lane = s.env.hasSource g .lane :=
    both_of_taken (fun v _ => v.hasSource g .lane) s p x _ ht
  have hgroup : p.live.group = s.live.group := both_of_taken (fun _ d => d.group) s p x _ ht
  refine ⟨fun ho => ⟨_, exec_stopSet_of_not_operating ht ho, rfl, rfl, rfl⟩, fun ho hbad => ?_,
    fun ho hg hl => ?_⟩
  · exact ⟨_, exec_stopSet_of_operating ht ho hr, rfl, rfl,
      takeStopSet_of_bad _ _ _ (by rwa [hsrc])⟩
  · rw [exec_stopSet_of_operating ht ho hr, takeStopSet_of_good _ _ _ hg (hsrc.trans hl)]
    refine ⟨fun ha => ?_, fun ha hlen => ?_⟩
    · rw [latch_of_active _ _ _ _ (by rwa [hgroup])]
    · have hlive : g < p.live.groups.length := by
        rwa [both_of_taken (fun _ d => d.groups) s p x _ ht]
      have hidle : (p.live.group g).active = false := by rwa [hgroup]
      have hnow : p.env.now = s.env.now := both_of_taken (fun v _ => v.now) s p x _ ht
      have hstored : p.live.stored = s.live.stored := both_of_taken (fun _ d => d.stored) s p x _ ht
      have hw : Watched p.live (latch p.env .lane g p.live) := watched_latch _ _ _ _
      obtain ⟨claims, throws, faults, handover, judged⟩ :=
        stands_of_taken s p x _ ht (latch p.env .lane g p.live)
      refine ⟨_, rfl, rfl, rfl, ?_, fun m hm => ?_, latch_made _ _ _ _ hlive (hsrc.trans hl) hidle,
        claims hw.claimsStand, throws hw.throwsStand, faults (latch_faults _ _ _ _),
        handover hw.handoverStands, hw.portsStand, judged hw.slotsJudged, hw.stored.trans hstored⟩
      · rw [latch_group, if_pos ⟨rfl, hlive, hsrc.trans hl, hidle⟩, hnow]
      · rw [latch_group, if_neg (fun h => hm h.1), hgroup]

end Sys2Proof.Machine
end

section
/-! PROOF. The answer to an ACCEPT_REQUEST (R164): the reason it is refused with, the berth locked at a grant,
and the one frame that goes out on the boundary's link. -/

namespace Sys2Proof.Machine

open Sys2Proof

/-! ### Boundary events that move nothing the Route Setter proves by (R157, R168) -/

/-- No field of a boundary record differs from itself. -/
@[simp] theorem Boundary.differs_self (x : Boundary) : x.differs x = false := by
  simp [Boundary.differs]

/-- An event that leaves its boundary as it was makes no report and hands nothing on. -/
theorem boundaryEvent_of_same {v : Env} {b : Nat} {r : Option Nat} {f : Live → Live} {d m : Live}
    (hf : f d = m) (hb : m.boundary b = d.boundary b) : boundaryEvent v b r f d = m := by
  have hreport : reportChange b (d.boundary b) r m = m := by
    unfold reportChange; rw [hb, if_neg (by simp)]
  unfold boundaryEvent
  simp only
  rw [hf, hreport]
  exact handOn_unmoved v b _ m (by rw [hb]) (by rw [hb]) (by rw [hb])

/-- A change of the berth state alone is reported and handed to nobody. -/
theorem boundaryEvent_of_berth {v : Env} {b : Nat} {r : Option Nat} {f : Live → Live} {d m : Live}
    {locked : Bool} {marks : List Mark} (hf : f d = m)
    (hb : m.boundary b = { d.boundary b with berthLocked := locked, marks := marks })
    (hne : (d.boundary b).berthLocked ≠ locked) :
    boundaryEvent v b r f d = m.report (boundaryReport m b r) := by
  have hdiffers : (d.boundary b).differs (m.boundary b) = true := by
    simp [Boundary.differs, hb, hne]
  have hreport : reportChange b (d.boundary b) r m = m.report (boundaryReport m b r) := by
    unfold reportChange; rw [if_pos hdiffers]
  have hsame : (m.report (boundaryReport m b r)).boundary b = m.boundary b := rfl
  unfold boundaryEvent
  simp only
  rw [hf, hreport]
  exact handOn_unmoved v b _ _ (by rw [hsame, hb]) (by rw [hsame, hb]) (by rw [hsame, hb])

/-! ### The reason of a refusal (R164) -/

/-- A boundary that is not INWARD, or is RESTRICTED, refuses with DIRECTION. -/
theorem berthRefusal_direction {v : Env} {d : Live} {bd : BoundaryDef}
    (h : (d.boundary bd.number).direction ≠ .inward ∨ (d.boundary bd.number).restricted = true) :
    berthRefusal v d bd = some .direction := by
  unfold berthRefusal
  exact if_pos (by simpa using h)

/-- An INWARD boundary whose berth is LOCKED, or has a section that is not free, refuses with
BERTH_LOCKED. -/
theorem berthRefusal_berthLocked {v : Env} {d : Live} {bd : BoundaryDef}
    (hd : (d.boundary bd.number).direction = .inward) (hr : (d.boundary bd.number).restricted = false)
    (h : (d.boundary bd.number).berthLocked = true ∨ ∃ k ∈ bd.berth, berthFree v d k = false) :
    berthRefusal v d bd = some .berthLocked := by
  unfold berthRefusal
  simp only
  rw [if_neg (by simp [hd, hr]), if_pos (by simpa using h)]

/-- A berth that is free but for its detection refuses with BERTH_OCCUPIED, or not at all. -/
theorem berthRefusal_of_free {v : Env} {d : Live} {bd : BoundaryDef}
    (hd : (d.boundary bd.number).direction = .inward) (hr : (d.boundary bd.number).restricted = false)
    (hl : (d.boundary bd.number).berthLocked = false) (hf : ∀ k ∈ bd.berth, berthFree v d k = true) :
    berthRefusal v d bd = if bd.berth.any (fun n => v.occupied n) then some .berthOccupied else none := by
  unfold berthRefusal
  simp only
  rw [if_neg (by simp [hd, hr]), if_neg (by simpa [hl] using hf)]

/-- A grant finds the berth FREE. -/
theorem berth_free_of_granted {v : Env} {d : Live} {bd : BoundaryDef} (h : berthRefusal v d bd = none) :
    (d.boundary bd.number).berthLocked = false := by
  by_cases hbad : (d.boundary bd.number).direction ≠ .inward ∨ (d.boundary bd.number).restricted = true
  · rw [berthRefusal_direction hbad] at h; cases h
  · obtain ⟨hd, hr⟩ := not_or.mp hbad
    cases hl : (d.boundary bd.number).berthLocked with
    | false => rfl
    | true =>
      rw [berthRefusal_berthLocked (not_not.mp hd) (by simpa using hr) (.inl hl)] at h
      cases h

/-! ### The frame of an answer -/

/-- What an answer to a neighbour's request leaves as it was: everything but the boundary, its link's
transmit queue, locks, and reports added to the queues. -/
structure Answered (l b : Nat) (d e : Live) : Prop where
  rx : (e.link l).rx = (d.link l).rx
  silence : (e.link l).silence = (d.link l).silence
  links : ∀ j, j ≠ l → e.link j = d.link j
  bounds : ∀ k, k ≠ b → e.boundary k = d.boundary k
  throws : d.throwsStand e
  faults : d.faultsStand e
  ports : d.portsStand e
  slots : e.slots = d.slots
  stored : e.stored = d.stored
  groups : e.groups = d.groups
  reeval : e.reeval = d.reeval

theorem Answered.trans {l b : Nat} {d e f : Live} (h : Answered l b d e) (k : Answered l b e f) :
    Answered l b d f where
  rx := k.rx.trans h.rx
  silence := k.silence.trans h.silence
  links j hj := (k.links j hj).trans (h.links j hj)
  bounds j hj := (k.bounds j hj).trans (h.bounds j hj)
  throws :=
    ⟨fun n => (k.throws.1 n).trans (h.throws.1 n), k.throws.2.1.trans h.throws.2.1,
      k.throws.2.2.trans h.throws.2.2⟩
  faults n := (k.faults n).trans (h.faults n)
  ports j :=
    have ⟨hreq, hout, hrep⟩ := h.ports j
    have ⟨kreq, kout, krep⟩ := k.ports j
    ⟨kreq.trans hreq, kout.trans hout, hrep.trans krep⟩
  slots := k.slots.trans h.slots
  stored := k.stored.trans h.stored
  groups := k.groups.trans h.groups
  reeval := k.reeval.trans h.reeval

/-- A local act that touches no slot and asks for no re-evaluation. -/
theorem Local.answered {l b : Nat} {d e : Live} (h : Local l b d e) (hs : e.slots = d.slots)
    (hr : e.reeval = d.reeval) : Answered l b d e :=
  have ⟨_, throws, faults⟩ := h.frames
  { rx := h.rx, silence := h.silence, links := h.links, bounds := h.bounds, throws := throws
    faults := faults, ports := h.ports, slots := hs, stored := h.stored, groups := h.groups
    reeval := hr }

/-! ### BERTH locks (R52) -/

/-- A berth locked holds its sections' locks, and no other lock changes. -/
theorem lockBerth_lock {bd : BoundaryDef} {d : Live} (hc : ∀ k ∈ bd.berth, d.hasControl k) (k : Nat) :
    ((lockBerth bd d).control k).lock = if k ∈ bd.berth then
      some { holder := .berth bd.number, mode := .berth } else (d.control k).lock := by
  obtain ⟨hlock, -⟩ := lockBerth_fold bd.number bd.berth d hc
  exact hlock k

/-- Locking a berth changes no field of a control record but its lock. -/
theorem lockBerth_unlocked {bd : BoundaryDef} {d : Live} (hc : ∀ k ∈ bd.berth, d.hasControl k) (k : Nat) :
    ({ (lockBerth bd d).control k with lock := none } : Control) = { d.control k with lock := none } := by
  obtain ⟨-, hrest, -⟩ := lockBerth_fold bd.number bd.berth d hc
  exact hrest k

theorem lockBerth_aspect {bd : BoundaryDef} {d : Live} (hc : ∀ k ∈ bd.berth, d.hasControl k) (k : Nat) :
    ((lockBerth bd d).control k).aspect = (d.control k).aspect := by
  have := congrArg Control.aspect (lockBerth_unlocked hc k)
  exact this

theorem lockBerth_links {bd : BoundaryDef} {d : Live} (hc : ∀ k ∈ bd.berth, d.hasControl k) :
    (lockBerth bd d).links = d.links := by
  obtain ⟨-, -, hlinks, -⟩ := lockBerth_fold bd.number bd.berth d hc
  exact hlinks

theorem lockBerth_boundaries {bd : BoundaryDef} {d : Live} (hc : ∀ k ∈ bd.berth, d.hasControl k) :
    (lockBerth bd d).boundaries = d.boundaries := by
  obtain ⟨-, -, -, hbounds, -⟩ := lockBerth_fold bd.number bd.berth d hc
  exact hbounds

theorem lockBerth_lane {bd : BoundaryDef} {d : Live} (hc : ∀ k ∈ bd.berth, d.hasControl k)
    (l : LaneId) : (lockBerth bd d).lane l = d.lane l := by
  obtain ⟨-, -, -, -, -, -, -, -, -, -, hA, hB⟩ := lockBerth_fold bd.number bd.berth d hc
  cases l
  · exact hA
  · exact hB

theorem answered_lockBerth {bd : BoundaryDef} {d : Live} (hc : ∀ k ∈ bd.berth, d.hasControl k)
    (l b : Nat) : Answered l b d (lockBerth bd d) := by
  obtain ⟨-, -, hlinks, hbounds, hslots, hstored, horders, hpower, hgroups, hreeval, -, -⟩ :=
    lockBerth_fold bd.number bd.berth d hc
  exact
    { rx := by rw [Live.link_congr (lockBerth_links hc)]
      silence := by rw [Live.link_congr (lockBerth_links hc)]
      links := fun j _ => Live.link_congr hlinks j
      bounds := fun k _ => Live.boundary_congr hbounds k
      throws := ⟨fun n => by
        have := congrArg Control.motion (lockBerth_unlocked hc n)
        exact this, horders, hpower⟩
      faults := fun n => by
        have := congrArg Control.faults (lockBerth_unlocked hc n)
        exact this
      ports := fun k => by rw [lockBerth_lane hc k]; exact (Calm.refl d).portsStand k
      slots := hslots, stored := hstored, groups := hgroups, reeval := hreeval }

/-- A path or overlap entry over a section that a berth has locked fails with CONFLICT: only an overlap is
transferred (R41, R45). -/
theorem entryFails_of_berth_lock {v : Env} {d : Live} {r : RouteDef} {e : Entry} {b : Nat}
    (h : (d.control e.element).lock = some { holder := .berth b, mode := .berth }) :
    entryFails v d r e = some .conflict := by
  have hkept : transfersFrom v d r e = none := by unfold transfersFrom; rw [h]
  unfold entryFails
  simp only
  rw [if_pos (by simp [h, hkept])]

/-! ### The two answers (R164) -/

/-- The record of a boundary whose berth has just been LOCKED. -/
def Boundary.berthTaken (bd : BoundaryDef) (x : Boundary) : Boundary :=
  { x with berthLocked := true, marks := bd.berth.map (fun _ => Mark.none) }

/-- A frame at the tail of a link's transmit queue. -/
def Link.send (f : NFrame) (k : Link) : Link := { k with tx := k.tx ++ [f] }

/-- The live state of a grant before it is reported. -/
def berthGranted (bd : BoundaryDef) (d : Live) : Live :=
  ((lockBerth bd d).setBoundary bd.number (Boundary.berthTaken bd)).setLink bd.link
    (Link.send (.acceptGrant bd.linkNumber (d.control bd.home).aspect))

section answers
variable {v : Env} {bd : BoundaryDef} {d : Live}

/-- The record of the boundary after a grant. -/
theorem berthGranted_boundary (hb : d.hasBoundary bd.number) (hc : ∀ k ∈ bd.berth, d.hasControl k) :
    (berthGranted bd d).boundary bd.number = (d.boundary bd.number).berthTaken bd := by
  have hl : (lockBerth bd d).hasBoundary bd.number := by
    unfold Live.hasBoundary; rw [lockBerth_boundaries hc]; exact hb
  calc (berthGranted bd d).boundary bd.number
      = ((lockBerth bd d).boundary bd.number).berthTaken bd :=
        (lockBerth bd d).boundary_setBoundary_self hl _ (fun _ => rfl)
    _ = (d.boundary bd.number).berthTaken bd := by rw [Live.boundary_congr (lockBerth_boundaries hc)]

/-- The link after a grant: ACCEPT_GRANT with the home signal's aspect stands at the tail. -/
theorem berthGranted_link (hl : bd.link < d.links.length) (hc : ∀ k ∈ bd.berth, d.hasControl k) :
    (berthGranted bd d).link bd.link
      = (d.link bd.link).send (.acceptGrant bd.linkNumber (d.control bd.home).aspect) := by
  have hcount : bd.link < ((lockBerth bd d).setBoundary bd.number (Boundary.berthTaken bd)).links.length := by
    rw [Live.setBoundary_links, lockBerth_links hc]; exact hl
  unfold berthGranted
  rw [Live.link_setLink_self _ hcount, Live.link_congr (Live.setBoundary_links _ _ _),
    Live.link_congr (lockBerth_links hc)]

theorem berthGranted_lane (hc : ∀ k ∈ bd.berth, d.hasControl k) (k : LaneId) :
    (berthGranted bd d).lane k = d.lane k := by
  rw [← lockBerth_lane hc k]
  cases k <;> rfl

/-- A grant is reported by a BOUNDARY_STATE that shows the berth LOCKED (R168). -/
theorem berthGranted_made (hb : d.hasBoundary bd.number) (hc : ∀ k ∈ bd.berth, d.hasControl k)
    (hdir : (d.boundary bd.number).direction = .inward)
    (hres : (d.boundary bd.number).restricted = false) :
    d.made (.boundaryState bd.number .inward (d.boundary bd.number).acceptance true false none)
      ((berthGranted bd d).report (boundaryReport (berthGranted bd d) bd.number none)) := by
  have hreport : boundaryReport (berthGranted bd d) bd.number none
      = .boundaryState bd.number .inward (d.boundary bd.number).acceptance true false none := by
    unfold boundaryReport
    rw [berthGranted_boundary hb hc, ← hdir, ← hres]
    rfl
  rw [hreport]
  exact (made_report _ _).of_same (fun k => congrArg LanePort.reports (berthGranted_lane hc k))

/-- A grant and its report leave all but the boundary, the berth's locks and the link's transmit queue. -/
theorem answered_berthGranted (hc : ∀ k ∈ bd.berth, d.hasControl k) (r : Report) :
    Answered bd.link bd.number d ((berthGranted bd d).report r) := by
  have hlock : Answered bd.link bd.number d (lockBerth bd d) := answered_lockBerth hc _ _
  have hbound := (loc_setBoundary (lockBerth bd d) bd.link bd.number (Boundary.berthTaken bd)
    (fun _ => rfl)).answered rfl rfl
  have hsend := (loc_send bd.link bd.number (.acceptGrant bd.linkNumber (d.control bd.home).aspect)
    ((lockBerth bd d).setBoundary bd.number (Boundary.berthTaken bd))).answered rfl rfl
  have hreport : Answered bd.link bd.number (berthGranted bd d) ((berthGranted bd d).report r) :=
    (calm_report _ r).quiet.loc.answered rfl rfl
  exact ((hlock.trans hbound).trans hsend).trans hreport

variable (hbd : v.boundary? bd.number = some bd) (hu : (d.link bd.link).state = .up)
  (ht : (d.link bd.link).tx.length < 16)
include hbd hu ht

/-- A refusal sends ACCEPT_REFUSE and does nothing else. -/
theorem applyAcceptRequest_of_refused {why : Reason} (h : berthRefusal v d bd = some why) :
    applyAcceptRequest v bd.number d
      = d.setLink bd.link (Link.send (.acceptRefuse bd.linkNumber why.code)) := by
  unfold applyAcceptRequest
  simp only [hbd, h]
  exact boundaryEvent_of_same (sendFrom_eq hbd _ d hu ht) rfl

/-- A grant locks the berth, sends ACCEPT_GRANT and reports the boundary. -/
theorem applyAcceptRequest_of_granted (hb : d.hasBoundary bd.number)
    (hc : ∀ k ∈ bd.berth, d.hasControl k) (h : berthRefusal v d bd = none) :
    applyAcceptRequest v bd.number d
      = (berthGranted bd d).report (boundaryReport (berthGranted bd d) bd.number none) := by
  have hlink : ((lockBerth bd d).setBoundary bd.number (Boundary.berthTaken bd)).link bd.link
      = d.link bd.link := Live.link_congr (lockBerth_links hc) _
  unfold applyAcceptRequest
  simp only [hbd, h]
  refine boundaryEvent_of_berth ?_ (berthGranted_boundary hb hc) (by simp [berth_free_of_granted h])
  show sendFrom v bd.number (fun n => .acceptGrant n ((lockBerth bd d).control bd.home).aspect)
      ((lockBerth bd d).setBoundary bd.number (Boundary.berthTaken bd)) = berthGranted bd d
  rw [sendFrom_eq hbd _ _ (by rw [hlink]; exact hu) (by rw [hlink]; exact ht), lockBerth_aspect hc]
  rfl

/-- Either answer leaves all but the boundary, the berth's locks and the link's transmit queue. -/
theorem answered_applyAcceptRequest (hb : d.hasBoundary bd.number)
    (hc : ∀ k ∈ bd.berth, d.hasControl k) :
    Answered bd.link bd.number d (applyAcceptRequest v bd.number d) := by
  cases h : berthRefusal v d bd with
  | none => rw [applyAcceptRequest_of_granted hbd hu ht hb hc h]; exact answered_berthGranted hc _
  | some why =>
    rw [applyAcceptRequest_of_refused hbd hu ht h]
    exact (loc_send bd.link bd.number _ d).answered rfl rfl

end answers

/-! ### The command -/

/-- The live state from which a frame taken on an UP link is applied (R151). -/
def frameTaken (v : Env) (l : Nat) (d : Live) : Live := restartSilence v l (popFrame l d)

/-- The link boundary number that an ACCEPT_REQUEST names. -/
def acceptRequestNumber : NFrame → Option (Nat × Unit)
  | .acceptRequest n => some (n, ())
  | _ => none

theorem exec_acceptRequest (l : Nat) (s : State) : exec (.acceptRequest l) s = .next (s.act (fun v =>
    takeFrame v l acceptRequestNumber (fun b _ => applyAcceptRequest v b))) := rfl

/-- An ACCEPT_REQUEST at the head of an UP link's receive queue is applied to the boundary it names. -/
theorem exec_acceptRequest_of_taken {l n : Nat} {fs : List NFrame} {bd : BoundaryDef} {s : State}
    (hrx : (s.live.link l).rx = .acceptRequest n :: fs) (hu : (s.live.link l).state = .up)
    (hn : s.env.namedBoundary l n = some bd)
    (hr : (applyAcceptRequest s.env bd.number (frameTaken s.env l s.live)).reeval = false) :
    exec (.acceptRequest l) s
      = .next { s with live := applyAcceptRequest s.env bd.number (frameTaken s.env l s.live) } := by
  have htake : takeFrame s.env l acceptRequestNumber (fun b _ => applyAcceptRequest s.env b) s.live
      = applyAcceptRequest s.env bd.number (frameTaken s.env l s.live) :=
    takeFrame_eq s.env l n _ _ s.live _ fs () bd hrx rfl hu hn
  rw [exec_acceptRequest, s.act_of_not_asked _ (htake ▸ hr), htake]

/-- Settles O56: the frame is taken, then the branch of `berthRefusal` says which answer is made. -/
theorem acceptRequestLocksBerth : Obligations.AcceptRequestLocksBerth := by
  intro l n fs bd s hu ht hreeval hl hn hbd hb hc hrx
  obtain ⟨rfl, rfl⟩ := named_spec hn
  obtain ⟨hself, hother⟩ := taken_state s.env bd.link _ fs s.live hl hrx
  set d := frameTaken s.env bd.link s.live with hd
  have hlink : d.link bd.link = { s.live.link bd.link with
    rx := fs, silence := some (after s.env.now s.env.timing.linkTimeout) } := hself
  have hud : (d.link bd.link).state = .up := by rw [hlink]; exact hu
  have htd : (d.link bd.link).tx.length < 16 := by rw [hlink]; exact ht
  have hld : bd.link < d.links.length := by simpa [hd, frameTaken, restartSilence, popFrame] using hl
  have frame := answered_applyAcceptRequest hbd hud htd hb hc
  refine ⟨_, exec_acceptRequest_of_taken hrx hu hn (frame.reeval.trans hreeval), rfl, rfl,
    by rw [frame.rx, hlink], by rw [frame.silence, hlink],
    fun j hj => (frame.links j hj).trans (hother j hj), frame.bounds, frame.throws, frame.faults,
    frame.ports, frame.slots, frame.stored, frame.groups,
    fun hdir hres hfree hberth => ?granted, fun why hwhy => ?refused⟩
  case granted =>
    have hnone : berthRefusal s.env d bd = none := by
      rw [berthRefusal_of_free (d := d) hdir hres hfree (fun k hk => (hberth k hk).1),
        if_neg (by simpa using fun k hk => (hberth k hk).2)]
    have hbound := berthGranted_boundary (d := d) hb hc
    have hlocks := lockBerth_lock (d := d) hc
    rw [applyAcceptRequest_of_granted hbd hud htd hb hc hnone]
    refine ⟨hbound, hlocks, ?_, ?_, fun r e he => ?_, rfl⟩
    · show ((berthGranted bd d).link bd.link).tx = _
      rw [berthGranted_link hld hc, hlink]; rfl
    · exact berthGranted_made (d := d) hb hc hdir hres
    · exact entryFails_of_berth_lock ((hlocks e.element).trans (if_pos he))
  case refused =>
    have hsome : berthRefusal s.env d bd = some why := by
      rcases hwhy with ⟨hbad, rfl⟩ | ⟨hdir, hres, hbad, rfl⟩ | ⟨hdir, hres, hfree, hberth, hocc, rfl⟩
      · exact berthRefusal_direction hbad
      · exact berthRefusal_berthLocked hdir hres hbad
      · rw [berthRefusal_of_free (d := d) hdir hres hfree hberth, if_pos (by simpa using hocc)]
    rw [applyAcceptRequest_of_refused hbd hud htd hsome]
    refine ⟨fun _ => rfl, fun _ => rfl, rfl, ?_⟩
    show ((d.setLink bd.link (Link.send _)).link bd.link).tx = _
    rw [d.link_setLink_self hld, hlink]; rfl

end Sys2Proof.Machine
end

section
/-! PROOF. What every command and every step keeps: the waiting commands, the invariants, the Time Base and the
standing set. A command is a voted request handed to its owner (`ownerOf`), an act of one block on the live
state (`effectOf`), a read, or one of the few that change the environment themselves. -/

namespace Sys2Proof.Machine

open Sys2Proof

/-! ### The shapes of a command -/

/-- The owner of the voted request that a command carries. -/
def ownerOf : Instr → State → State
  | .setRoute _ r p st => State.act (takeSetRoute r p st)
  | .cancelRoute _ r => State.act (takeCancelRoute r)
  | .releaseEmergency _ r => State.act (takeReleaseEmergency r)
  | .throwPoint _ n p => State.act (takeThrowPoint n p)
  | .block _ n => takeBlock n
  | .unblock _ n => takeUnblock n
  | .ackFault _ n k => State.act (takeAckFault n k)
  | .stopSet _ g => State.act (takeStopSet g)
  | .stopRelease _ g => State.act (takeStopRelease g)
  | .boundaryReset _ b => State.act (takeBoundaryReset b)
  | .linkEnable _ l => State.act (takeLinkEnable l)
  | .linkDisable _ l => State.act (takeLinkDisable l)
  | .rejoin _ l => takeRejoin l
  | .restartKeep _ o => takeRestartKeep o
  | .restartUnload _ => State.restartUnloaded
  | .loadBegin _ => State.openLoad
  | .loadRecord _ p => State.takeRecord p
  | .loadEnd _ g => State.endLoad g
  | _ => id

/-- The act of a command that changes the live state alone: a timer run out, or a frame of a neighbour. -/
def effectOf : Instr → Option (Env → Live → Live)
  | .agreementWindowExpiry l => some (windowDue l)
  | .settingTimerExpiry i => some (settingDue i)
  | .storedExpiry r => some (storedDue r)
  | .overlapExpiry i => some (overlapDue i)
  | .holdExpiry i => some (holdDue i)
  | .speedRecordStale n => some (speedAged n)
  | .staggerExpiry g => some (staggerDue g)
  | .settleExpiry p => some (settleDue p)
  | .throwExpiry p => some (throwDue p)
  | .confirmationExpiry n => some (confirmDue n)
  | .neighbourFrameError l bytes => some (frameDiscarded l bytes)
  | .neighbourFrameReceived l f => some (frameArrives l f)
  | .status l => some (fun v => takeStatus v l)
  | .dirRequest l => some (fun v => takeFrame v l
      (fun f => match f with | .dirRequest n q => some (n, q) | _ => none) (applyDirRequest v))
  | .dirGrant l => some (fun v => takeFrame v l
      (fun f => match f with | .dirGrant n => some (n, ()) | _ => none) (fun b _ => applyDirGrant v b))
  | .dirRefuse l => some (fun v => takeFrame v l
      (fun f => match f with | .dirRefuse n => some (n, ()) | _ => none) (fun b _ => applyDirRefuse b))
  | .dirOffer l => some (fun v => takeFrame v l
      (fun f => match f with | .dirOffer n => some (n, ()) | _ => none) (fun b _ => applyDirOffer v b))
  | .acceptRequest l => some (fun v => takeFrame v l
      (fun f => match f with | .acceptRequest n => some (n, ()) | _ => none)
      (fun b _ => applyAcceptRequest v b))
  | .acceptGrant l => some (fun v => takeFrame v l
      (fun f => match f with | .acceptGrant n a => some (n, a) | _ => none) (applyAcceptGrant v))
  | .acceptRefuse l => some (fun v => takeFrame v l
      (fun f => match f with | .acceptRefuse n r => some (n, r) | _ => none) (applyAcceptRefuse v))
  | .acceptCancel l => some (fun v => takeFrame v l
      (fun f => match f with | .acceptCancel n => some (n, ()) | _ => none)
      (fun b _ => applyAcceptCancel v b))
  | .statusIntervalExpiry l => some (statusDue l)
  | .linkSilenceExpiry l => some (linkSilent l)
  | .dirRequestExpiry b => some (dirRequestDue b)
  | .acceptanceExpiry b => some (acceptanceDue b)
  | .consistencyExpiry b => some (consistencyDue b)
  | .resetExpiry b => some (resetDue b)
  | .queuedFrameSent l => some (frameSent l)
  | _ => none

/-- The answer that a read, or a frame with no known request, gives to the asking lane. -/
def answerOf : Instr → Option (Exchange × (Env → Live → Report))
  | .unknownRequest x k p => some (x, fun _ _ => refusedBy k (frameOperand k p) .badOperand)
  | .readElement x n => some (x, answerElement n)
  | .readSlot x i => some (x, answerSlot i)
  | .readRoute x r => some (x, answerRoute r)
  | .readBoundary x b => some (x, answerBoundary b)
  | .readGroups x g => some (x, answerGroups g)
  | .readStatus x => some (x, answerStatus)
  | .readFaults x n => some (x, answerFaults n)
  | _ => none

theorem exec_of_vote {c : Instr} {x : Exchange} {q : Request} (h : voteOf c = some (x, q)) (s : State) :
    exec c s = .next (s.voted x q (ownerOf c)) := by
  cases c <;> cases h <;> rfl

theorem exec_of_effect {c : Instr} {f : Env → Live → Live} (h : effectOf c = some f) (s : State) :
    exec c s = .next (s.act f) := by
  cases c <;> cases h <;> rfl

theorem exec_of_answer {c : Instr} {x : Exchange} {f : Env → Live → Report} (h : answerOf c = some (x, f))
    (s : State) : exec c s = .next (s.answered x f) := by
  cases c <;> cases h <;> rfl

/-- What holds of every voted request, every act on the live state, every read, and each of the eleven commands
of another shape, holds of every command. -/
theorem exec_cases {P : State → Instr → State → Prop} (s : State)
    (voted : ∀ c x q, voteOf c = some (x, q) → P s c (s.voted x q (ownerOf c)))
    (acts : ∀ c f, effectOf c = some f → P s c (s.act f))
    (answers : ∀ c x f, answerOf c = some (x, f) → P s c (s.answered x f))
    (powerOn : P s .powerOn s.cold) (reset : P s .reset s.cold)
    (frameError : ∀ x, P s (.laneFrameError x) (s.shiftOut x))
    (empty : ∀ x, P s (.emptyRequest x) (s.exchange x))
    (detect : ∀ x ps, P s (.detect x ps) ((s.exchange x).applyPairs x.lane ps))
    (silence : ∀ l, P s (.laneSilenceExpiry l)
      (if s.env.operating && s.env.present l && due s.env.now (s.env.silence l) then s.loseLane l else s))
    (startHold : P s .startHoldExpiry
      (if due s.env.now s.env.startHold then { s with env := { s.env with startHold := none } } else s))
    (discrepancy : ∀ n, P s (.discrepancyExpiry n) (s.discrepancyDue n))
    (pickUp : ∀ n, P s (.pickUpExpiry n)
      (if s.env.elementIs n (fun e => due s.env.now e.pickUp) then
        s.updateElement n (fun e => { e with occupied := false, pickUp := none }) else s))
    (aged : ∀ n, P s (.occupationTimeAged n)
      (if s.env.elementIs n (occAged s.env.now) then
        { s with env := s.env.setElement n (fun e => { e with occTime := none }) } else s))
    (input : ∀ i a, P s (.areaStopInputChange i a)
      (if (s.env.setInput i a).operating then
        State.act (fun v => edge v (inputSource i) (s.env.input i)) { s with env := s.env.setInput i a }
      else { s with env := s.env.setInput i a }))
    (c : Instr) : ∃ t, exec c s = .next t ∧ P s c t := by
  cases hv : voteOf c with
  | some y => exact ⟨_, exec_of_vote hv s, voted c y.1 y.2 hv⟩
  | none =>
    cases he : effectOf c with
    | some f => exact ⟨_, exec_of_effect he s, acts c f he⟩
    | none =>
      cases ha : answerOf c with
      | some y => exact ⟨_, exec_of_answer ha s, answers c y.1 y.2 ha⟩
      | none =>
        cases c with
        | powerOn => exact ⟨_, rfl, powerOn⟩
        | reset => exact ⟨_, rfl, reset⟩
        | laneFrameError x => exact ⟨_, rfl, frameError x⟩
        | emptyRequest x => exact ⟨_, rfl, empty x⟩
        | detect x ps => exact ⟨_, rfl, detect x ps⟩
        | laneSilenceExpiry l => exact ⟨_, rfl, silence l⟩
        | startHoldExpiry => exact ⟨_, rfl, startHold⟩
        | discrepancyExpiry n => exact ⟨_, rfl, discrepancy n⟩
        | pickUpExpiry n => exact ⟨_, rfl, pickUp n⟩
        | occupationTimeAged n => exact ⟨_, rfl, aged n⟩
        | areaStopInputChange i a => exact ⟨_, rfl, input i a⟩
        | _ => simp [voteOf, effectOf, answerOf] at hv he ha

/-! ### What every command keeps -/

/-- What every operation on the whole state keeps: the capacities, the tables, detection (`Kept`), the aspects,
the slots, the claims (`Upholds`), the mark of a re-evaluation, and the waiting commands. -/
structure Preserves (s t : State) : Prop where
  kept : Kept s t
  upheld : Upholds s t
  served : s.live.reeval = false → t.live.reeval = false
  queue : t.pending = s.pending

theorem Preserves.refl (s : State) : Preserves s s := ⟨.refl s, .refl s, id, rfl⟩

theorem Preserves.trans {s t u : State} (h : Preserves s t) (k : Preserves t u) : Preserves s u :=
  ⟨h.kept.trans k.kept, h.upheld.trans k.upheld, k.served ∘ h.served, k.queue.trans h.queue⟩

theorem Preserves.ite {s t u : State} {c : Prop} [Decidable c] (h : Preserves s t) (k : Preserves s u) :
    Preserves s (if c then t else u) := by
  split
  · exact h
  · exact k

theorem preserves_act (s : State) {f : Env → Live → Live} (h : Keeps s.env s.live (f s.env s.live)) :
    Preserves s (s.act f) :=
  ⟨kept_act s f h.whole, upholds_act s f h, fun _ => serve_reeval _ _, rfl⟩

theorem preserves_refuse (s : State) (q : Request) (r : Reason) : Preserves s (s.refuse q r) :=
  ⟨kept_refuse s q r, upholds_refuse s q r, fun h => by simpa [State.refuse] using h, rfl⟩

theorem preserves_exchange (s : State) (x : Exchange) : Preserves s (s.exchange x) :=
  ⟨kept_exchange s x, upholds_exchange s x, fun h => by simpa using h, State.exchange_pending s x⟩

/-! ### Votes and reads -/

/-- Pairing and waiting ask for no re-evaluation. -/
theorem pairOrWait_reeval (v : Env) (l : LaneId) (q : Request) (d : Live) :
    (pairOrWait v l q d).1.reeval = d.reeval := by
  unfold pairOrWait
  split
  · simp
  · split <;> simp

theorem vote_reeval (v : Env) (l : LaneId) (q : Request) (d : Live) :
    (vote v l q d).1.reeval = d.reeval := by
  unfold vote
  split
  · split
    · exact pairOrWait_reeval v l q d
    · split <;> simp
  · exact pairOrWait_reeval v l q d

theorem preserves_hand (s : State) (q : Request) {own : State → State} (h : ∀ s, Preserves s (own s)) :
    Preserves s (s.hand q own) := by
  unfold State.hand
  split
  · exact preserves_refuse s q _
  · exact h s

theorem preserves_vote (s : State) (l : LaneId) (q : Request) (v : Env) :
    Preserves s { s with live := (vote v l q s.live).1 } :=
  ⟨kept_vote s l q v, upholds_vote s l q v, fun h => (vote_reeval v l q s.live).trans h, rfl⟩

theorem preserves_voted (s : State) (x : Exchange) (q : Request) {own : State → State}
    (h : ∀ s, Preserves s (own s)) : Preserves s (s.voted x q own) :=
  (preserves_exchange s x).trans ((preserves_vote _ x.lane q _).trans
    (Preserves.ite (preserves_hand _ q h) (.refl _)))

theorem preserves_answered (s : State) (x : Exchange) (f : Env → Live → Report) :
    Preserves s (s.answered x f) :=
  ⟨kept_answered s x f, upholds_answered s x f, fun h => by simpa [State.answered] using h,
    State.exchange_pending s x⟩

/-! ### Owners of voted requests -/

theorem setBlocked_reeval (s : State) (n : Nat) (b : Bool) :
    (s.setBlocked n b).live.reeval = s.live.reeval := by
  unfold State.setBlocked
  simp only
  split
  · exact (calm_computeAspect _ _ _).reeval.trans (calm_evaluateElement _ _ _).reeval
  · exact (calm_evaluateElement _ _ _).reeval

theorem preserves_takeBlock (n : Nat) (s : State) : Preserves s (takeBlock n s) where
  kept := kept_takeBlock n s
  upheld := upholds_takeBlock n s
  served h := by
    unfold takeBlock
    split
    · simpa [State.refuse] using h
    · split
      · exact h
      · exact (setBlocked_reeval s n true).trans h
  queue := by
    unfold takeBlock
    split
    · rfl
    · split <;> rfl

theorem preserves_takeUnblock (n : Nat) (s : State) : Preserves s (takeUnblock n s) where
  kept := kept_takeUnblock n s
  upheld := upholds_takeUnblock n s
  served h := by
    unfold takeUnblock
    split
    · simpa [State.refuse] using h
    · split
      · exact serve_reeval _ _
      · exact h
  queue := by
    unfold takeUnblock
    split
    · rfl
    · split <;> rfl

theorem preserves_takeRejoin (n : Nat) (s : State) : Preserves s (takeRejoin n s) where
  kept := kept_takeRejoin n s
  upheld := upholds_takeRejoin n s
  served h := by
    unfold takeRejoin
    split
    · split
      · simpa [State.refuse] using h
      · exact serve_reeval _ _
    · simpa [State.refuse] using h
  queue := by
    unfold takeRejoin
    split
    · split <;> rfl
    · rfl

/-- The start-up latch asks for no re-evaluation. -/
theorem startUpLatch_reeval (v : Env) (d : Live) : (startUpLatch v d).reeval = d.reeval := by
  unfold startUpLatch
  generalize List.range d.groups.length = gs
  induction gs generalizing d with
  | nil => rfl
  | cons g gs ih =>
    rw [List.foldl_cons, ih]
    split
    · exact reeval_latch v _ g d
    · rfl

theorem preserves_restartKept (s : State) : Preserves s s.restartKept where
  kept := kept_restartKept s
  upheld := upholds_restartKept s
  served _ := (startUpLatch_reeval _ _).trans rfl
  queue := rfl

theorem preserves_restartUnloaded (s : State) : Preserves s s.restartUnloaded where
  kept := kept_restartUnloaded s
  upheld := upholds_restartUnloaded s
  served h := by
    unfold State.restartUnloaded
    split
    · exact h
    · rfl
  queue := by
    unfold State.restartUnloaded
    split <;> rfl

theorem preserves_openLoad (s : State) : Preserves s s.openLoad :=
  ⟨kept_openLoad s, upholds_openLoad s, id, rfl⟩

theorem preserves_takeRecord (p : List Byte) (s : State) : Preserves s (s.takeRecord p) where
  kept := kept_takeRecord p s
  upheld := upholds_takeRecord p s
  served h := by
    unfold State.takeRecord
    split <;> exact h
  queue := by
    unfold State.takeRecord
    split <;> rfl

theorem preserves_endLoad (g : Nat) (s : State) : Preserves s (s.endLoad g) where
  kept := kept_endLoad g s
  upheld := upholds_endLoad g s
  served h := by
    have hfail : ∀ o, (s.failLoad o).live.reeval = false := fun o => by simpa [State.failLoad] using h
    unfold State.endLoad
    split
    · split
      · exact hfail _
      · split
        · exact hfail _
        · exact (startUpLatch_reeval _ _).trans rfl
    · exact h
  queue := by
    unfold State.endLoad
    split
    · split
      · rfl
      · split <;> rfl
    · rfl

/-- What every owner of a voted request keeps. -/
theorem preserves_owner (c : Instr) (s : State) : Preserves s (ownerOf c s) := by
  cases c with
  | setRoute x r p st => exact preserves_act s (keeps_takeSetRoute r p st _ _)
  | cancelRoute x r => exact preserves_act s (keeps_takeCancelRoute r _ _)
  | releaseEmergency x r => exact preserves_act s (keeps_takeReleaseEmergency r _ _)
  | throwPoint x n p => exact preserves_act s (keeps_takeThrowPoint n p _ _)
  | block x n => exact preserves_takeBlock n s
  | unblock x n => exact preserves_takeUnblock n s
  | ackFault x n k => exact preserves_act s (keeps_takeAckFault n k _ _)
  | stopSet x g => exact preserves_act s (keeps_takeStopSet g _ _)
  | stopRelease x g => exact preserves_act s (keeps_takeStopRelease g _ _)
  | boundaryReset x b =>
    exact ⟨kept_act s _ (whole_takeBoundaryReset b _ _), upholds_takeBoundaryReset b s,
      fun _ => serve_reeval _ _, rfl⟩
  | linkEnable x l => exact preserves_act s (keeps_takeLinkEnable l _ _)
  | linkDisable x l => exact preserves_act s (keeps_takeLinkDisable l _ _)
  | rejoin x l => exact preserves_takeRejoin l s
  | restartKeep x o =>
    exact Preserves.ite (preserves_restartKept s) (preserves_refuse s _ _)
  | restartUnload x => exact preserves_restartUnloaded s
  | loadBegin x => exact preserves_openLoad s
  | loadRecord x p => exact preserves_takeRecord p s
  | loadEnd x g => exact preserves_endLoad g s
  | _ => exact .refl s

/-! ### Timers and frames -/

/-- Every act on the live state alone but the end of an agreement window, which empties a place of a pending
list, is within `Keeps`. -/
theorem keeps_effect {c : Instr} {f : Env → Live → Live} (h : effectOf c = some f)
    (hw : ∀ l, c ≠ .agreementWindowExpiry l) (v : Env) (d : Live) : Keeps v d (f v d) := by
  cases c with
  | agreementWindowExpiry l => exact absurd rfl (hw l)
  | settingTimerExpiry i => cases h; exact keeps_settingDue i v d
  | storedExpiry r => cases h; exact keeps_storedDue r v d
  | overlapExpiry i => cases h; exact keeps_overlapDue i v d
  | holdExpiry i => cases h; exact keeps_holdDue i v d
  | speedRecordStale n => cases h; exact keeps_speedAged n v d
  | staggerExpiry g => cases h; exact keeps_staggerDue g v d
  | settleExpiry p => cases h; exact keeps_settleDue p v d
  | throwExpiry p => cases h; exact keeps_throwDue p v d
  | confirmationExpiry n => cases h; exact keeps_confirmDue n v d
  | neighbourFrameError l bytes => cases h; exact keeps_receiveBytes v l _ _ d
  | neighbourFrameReceived l f => cases h; exact keeps_frameArrives l f v d
  | status l => cases h; exact keeps_takeStatus v l d
  | dirRequest l => cases h; exact keeps_takeFrame v l _ _ (keeps_applyDirRequest v) d
  | dirGrant l => cases h; exact keeps_takeFrame v l _ _ (fun b _ => keeps_applyDirGrant v b) d
  | dirRefuse l => cases h; exact keeps_takeFrame v l _ _ (fun b _ => keeps_applyDirRefuse v b) d
  | dirOffer l => cases h; exact keeps_takeFrame v l _ _ (fun b _ => keeps_applyDirOffer v b) d
  | acceptRequest l => cases h; exact keeps_takeFrame v l _ _ (fun b _ => keeps_applyAcceptRequest v b) d
  | acceptGrant l => cases h; exact keeps_takeFrame v l _ _ (keeps_applyAcceptGrant v) d
  | acceptRefuse l => cases h; exact keeps_takeFrame v l _ _ (keeps_applyAcceptRefuse v) d
  | acceptCancel l => cases h; exact keeps_takeFrame v l _ _ (fun b _ => keeps_applyAcceptCancel v b) d
  | statusIntervalExpiry l => cases h; exact keeps_statusDue l v d
  | linkSilenceExpiry l => cases h; exact keeps_linkSilent l v d
  | dirRequestExpiry b => cases h; exact keeps_dirRequestDue b v d
  | acceptanceExpiry b => cases h; exact keeps_acceptanceDue b v d
  | consistencyExpiry b => cases h; exact keeps_consistencyDue b v d
  | resetExpiry b => cases h; exact keeps_resetDue b v d
  | queuedFrameSent l => cases h; exact keeps_frameSent l v d
  | _ => cases h

theorem preserves_effect {c : Instr} {f : Env → Live → Live} (h : effectOf c = some f) (s : State) :
    Preserves s (s.act f) := by
  by_cases hw : ∃ l, c = .agreementWindowExpiry l
  · obtain ⟨l, rfl⟩ := hw
    cases h
    exact ⟨kept_windowDue l s, upholds_windowDue l s, fun _ => serve_reeval _ _, rfl⟩
  · exact preserves_act s (keeps_effect h (fun l hl => hw ⟨l, hl⟩) _ _)

/-! ### Commands that change the environment themselves -/

theorem preserves_cold (s : State) : Preserves s s.cold :=
  ⟨kept_cold s, upholds_cold s, fun _ => rfl, rfl⟩

theorem preserves_shiftOut (s : State) (x : Exchange) : Preserves s (s.shiftOut x) := by
  unfold State.shiftOut
  split
  · refine ⟨?_, upholds_setLane s _ _, fun h => by simpa using h, rfl⟩
    have := kept_shiftOut s { x with whole := true }
    exact this
  · exact .refl s

theorem applyPair_reeval (l : LaneId) (s : State) (p : Nat × Nat) (h : s.live.reeval = false) :
    (s.applyPair l p).live.reeval = false := by
  unfold State.applyPair
  split
  · split
    · exact h
    · unfold State.updateElement
      split
      · exact serve_reeval _ _
      · exact h
  · exact h

@[simp] theorem applyPair_pending (l : LaneId) (s : State) (p : Nat × Nat) :
    (s.applyPair l p).pending = s.pending := by
  unfold State.applyPair
  split
  · split
    · rfl
    · exact State.updateElement_pending _ _ _
  · rfl

theorem preserves_applyPairs (l : LaneId) (ps : List (Nat × Nat)) (s : State) :
    Preserves s (s.applyPairs l ps) where
  kept := kept_applyPairs l ps s
  upheld := upholds_applyPairs l ps s
  served h := by
    unfold State.applyPairs
    split
    · exact List.foldlRecOn (motive := fun t : State => t.live.reeval = false) ps _ h
        (fun t ht p _ => applyPair_reeval l t p ht)
    · exact h
  queue := by
    unfold State.applyPairs
    split
    · exact List.foldlRecOn (motive := fun t => t.pending = s.pending) ps _ rfl
        (fun t ht p _ => (applyPair_pending l t p).trans ht)
    · rfl

theorem preserves_takeAlone (q : Request) (s : State) :
    (s.live.reeval = false → (s.takeAlone q).live.reeval = false)
      ∧ (s.takeAlone q).pending = s.pending := by
  cases q with
  | block n => exact ⟨(preserves_takeBlock n s).served, (preserves_takeBlock n s).queue⟩
  | cancelRoute r => exact ⟨fun _ => serve_reeval _ _, rfl⟩
  | releaseEmergency r => exact ⟨fun _ => serve_reeval _ _, rfl⟩
  | ackFault n k => exact ⟨fun _ => serve_reeval _ _, rfl⟩
  | stopSet g => exact ⟨fun _ => serve_reeval _ _, rfl⟩
  | _ => exact ⟨id, rfl⟩

theorem dispose_served (l : LaneId) (s : State) (e : PendingEntry) :
    (s.live.reeval = false → (s.dispose l e).live.reeval = false)
      ∧ (s.dispose l e).pending = s.pending := by
  unfold State.dispose
  split
  · exact ⟨id, rfl⟩
  · simp only
    split
    · exact ⟨fun h => (preserves_takeAlone _ _).1 (by simpa using h), (preserves_takeAlone _ _).2⟩
    · exact ⟨fun h => by simpa [State.refuse] using h, rfl⟩

theorem refuseList_reeval (l : LaneId) (d : Live) : (refuseList l d).reeval = d.reeval := by
  unfold refuseList
  rw [Live.setLane_reeval]
  exact List.foldlRecOn (motive := fun e : Live => e.reeval = d.reeval) _ _ rfl
    (fun e he _ _ => (Live.report_reeval _ _).trans he)

theorem disposeLists_served (l : LaneId) (s : State) :
    (s.live.reeval = false → (s.disposeLists l).live.reeval = false)
      ∧ (s.disposeLists l).pending = s.pending := by
  unfold State.disposeLists
  simp only
  split
  · refine ⟨fun h => ?_, ?_⟩
    · exact List.foldlRecOn (motive := fun t : State => t.live.reeval = false) _ _
        ((refuseList_reeval l _).trans h) (fun t ht e _ => (dispose_served _ t e).1 ht)
    · exact List.foldlRecOn (motive := fun t : State => t.pending = s.pending) _ _
        rfl (fun t ht e _ => (dispose_served _ t e).2.trans ht)
  · exact ⟨fun h => (refuseList_reeval l _).trans h, rfl⟩

theorem preserves_loseLane (l : LaneId) (s : State) : Preserves s (s.loseLane l) where
  kept := kept_loseLane l s
  upheld := upholds_loseLane l s
  served _ := (disposeLists_served l _).1 (serve_reeval _ _)
  queue := (disposeLists_served l _).2.trans (State.changeMode_pending _ _)

theorem kept_discrepancyDue (n : Nat) (s : State) : Kept s (s.discrepancyDue n) := by
  unfold State.discrepancyDue
  split
  · refine kept_setEnvElement s n _ _ ((watched_raise _ _ _ _ _).whole.trans (whole_serve _ _))
      (fun _ => rfl) (fun e _ he => ?_)
    obtain ⟨hview, hagreed, hocc, hpick, -⟩ := he
    exact ⟨hview, hagreed, hocc, hpick, nofun⟩
  · exact .refl s

theorem preserves_discrepancyDue (n : Nat) (s : State) : Preserves s (s.discrepancyDue n) where
  kept := kept_discrepancyDue n s
  upheld := upholds_discrepancyDue n s
  served h := by
    unfold State.discrepancyDue
    split
    · exact serve_reeval _ _
    · exact h
  queue := by
    unfold State.discrepancyDue
    split <;> rfl

theorem preserves_startHoldExpiry (s : State) :
    Preserves s { s with env := { s.env with startHold := none } } :=
  ⟨kept_env s _ rfl rfl rfl rfl, upholds_env s _ rfl rfl rfl rfl, id, rfl⟩

/-- The filter at a pick-up expiry: the section, agreed CLEAR since the timer ran, becomes filtered CLEAR. -/
theorem preserves_pickUp (n : Nat) (s : State)
    (h : s.env.elementIs n (fun e => due s.env.now e.pickUp) = true) :
    Preserves s (s.updateElement n (fun e => { e with occupied := false, pickUp := none })) where
  kept := by
    refine kept_updateElement s n _ (fun _ => rfl) (fun e he hs => ?_)
    have hdue : due s.env.now e.pickUp = true := elementIs_some h he
    have hrun : e.pickUp.isSome = true := by
      cases hp : e.pickUp with
      | none => simp [hp, due] at hdue
      | some t => rfl
    obtain ⟨hview, hagreed, -, hpick, hdisc⟩ := hs
    exact ⟨hview, hagreed, fun _ ho => absurd ho (hpick hrun).2.2, nofun, hdisc⟩
  upheld := upholds_updateElement s n _ (fun _ => rfl) (fun _ => rfl) (fun _ => rfl)
  served hr := by
    unfold State.updateElement
    split
    · exact serve_reeval _ _
    · exact hr
  queue := State.updateElement_pending _ _ _

theorem preserves_aged (n : Nat) (s : State) :
    Preserves s { s with env := s.env.setElement n (fun e => { e with occTime := none }) } where
  kept := kept_setEnvElement s n _ s.live (.refl _) (fun _ => rfl) (fun _ _ he => he)
  upheld := upholds_setElement s n _ s.live (fun _ => rfl) (fun _ => rfl) (fun _ => rfl)
    (tables_setElement s n _ s.live (fun _ => rfl) (.refl _)) (.refl _ _)
  served := id
  queue := rfl

theorem preserves_areaStop (i : AreaInput) (a : Bool) (s : State) :
    Preserves s (if (s.env.setInput i a).operating then
        State.act (fun v => edge v (inputSource i) (s.env.input i)) { s with env := s.env.setInput i a }
      else { s with env := s.env.setInput i a }) :=
  have hset : Preserves s { s with env := s.env.setInput i a } :=
    ⟨kept_setInput s i a, upholds_setInput s i a, id, rfl⟩
  Preserves.ite (hset.trans (preserves_act _ (keeps_edge _ _ _ _))) hset

/-- Every command answers a next state and keeps what `Preserves` names. -/
theorem exec_preserves (c : Instr) (s : State) : ∃ t, exec c s = .next t ∧ Preserves s t :=
  exec_cases s (P := fun s _ t => Preserves s t)
    (voted := fun c x q _ => preserves_voted s x q (preserves_owner c))
    (acts := fun _ _ h => preserves_effect h s)
    (answers := fun _ x f _ => preserves_answered s x f)
    (powerOn := preserves_cold s) (reset := preserves_cold s)
    (frameError := preserves_shiftOut s)
    (empty := preserves_exchange s)
    (detect := fun x ps => (preserves_exchange s x).trans (preserves_applyPairs x.lane ps _))
    (silence := fun l => Preserves.ite (preserves_loseLane l s) (.refl s))
    (startHold := Preserves.ite (preserves_startHoldExpiry s) (.refl s))
    (discrepancy := fun n => preserves_discrepancyDue n s)
    (pickUp := fun n => by
      split
      · next h => exact preserves_pickUp n s h
      · exact .refl s)
    (aged := fun n => Preserves.ite (preserves_aged n s) (.refl s))
    (input := fun i a => preserves_areaStop i a s) c

/-! ### Steps -/

/-- What a step keeps: all that a command does, but the waiting commands. -/
structure StepKeeps (s t : State) : Prop where
  kept : Kept s t
  upheld : Upholds s t
  served : s.live.reeval = false → t.live.reeval = false

/-- Idling changes nothing that an invariant reads: the Time Base counts, or the due events are queued
(log 2). -/
theorem stepKeeps_idle (s : State) : StepKeeps s (idle s) := by
  unfold idle
  split
  · exact ⟨kept_env s _ rfl rfl rfl rfl, upholds_env s _ rfl rfl rfl rfl, id⟩
  · exact ⟨kept_pending s _,
      upholds_same (.refl _) rfl (fun _ => rfl) id rfl rfl rfl rfl rfl, id⟩

theorem step_keeps {s t : State} (h : step s = .next t) : StepKeeps s t := by
  cases hp : s.pending with
  | nil =>
    rw [step_nil s hp] at h
    cases h
    exact stepKeeps_idle s
  | cons c rest =>
    rw [step_cons s c rest hp] at h
    obtain ⟨u, hu, k⟩ := exec_preserves c { s with pending := rest }
    cases hu.symm.trans h
    have hq : Upholds s { s with pending := rest } :=
      upholds_same (.refl _) rfl (fun _ => rfl) id rfl rfl rfl rfl rfl
    exact ⟨(kept_pending s rest).trans k.kept, hq.trans k.upheld, k.served⟩

/-- Settles O7. -/
theorem stepKeepsDetectionSound : Obligations.StepKeepsDetectionSound :=
  fun _ _ hs h => (step_keeps h).kept.sound hs

/-- Settles O8. -/
theorem stepKeepsQueuesBounded : Obligations.StepKeepsQueuesBounded :=
  fun _ _ hs h => (step_keeps h).kept.bounded hs

/-- Settles O9. -/
theorem stepKeepsTablesWhole : Obligations.StepKeepsTablesWhole :=
  fun _ _ hs h => (step_keeps h).kept.tables hs

/-- Settles O10. -/
theorem stepKeepsAspectsShown : Obligations.StepKeepsAspectsShown :=
  fun _ _ ht hs h => (step_keeps h).upheld.shown ht hs

/-- Settles O11. -/
theorem stepKeepsSlotsSound : Obligations.StepKeepsSlotsSound :=
  fun _ _ ht hs h => (step_keeps h).upheld.sound ht hs

/-- Settles O12. -/
theorem stepKeepsClaimsTied : Obligations.StepKeepsClaimsTied :=
  fun _ _ ht hs hc h => (step_keeps h).upheld.tied ht hs hc

/-- Settles O13. -/
theorem stepLeavesNoReevaluationWaiting : Obligations.StepLeavesNoReevaluationWaiting :=
  fun _ _ hs h => (step_keeps h).served hs

/-- Settles O3. -/
theorem everyCommandCompletesKeepingQueue : Obligations.EveryCommandCompletesKeepingQueue := by
  intro c s
  obtain ⟨t, ht, k⟩ := exec_preserves c s
  exact ⟨t, ht, k.queue⟩

/-- Settles O1. -/
theorem stepRunsFrontCommand : Obligations.StepRunsFrontCommand := step_cons

/-- Settles O2. -/
theorem emptyQueueStepIdles : Obligations.EmptyQueueStepIdles := by
  intro s hs
  rw [step_nil s hs]
  unfold idle
  cases hd : dueCommands s with
  | nil => exact ⟨fun _ => rfl, fun h => absurd rfl h⟩
  | cons c cs => exact ⟨nofun, fun _ => rfl⟩

end Sys2Proof.Machine
end

section
/-! PROOF. What the starts set and every other command leaves: the Time Base, the standing set, the state at
reset (R21, R176 to R178); and the frames that carry no voted request (R169, R171). -/

namespace Sys2Proof.Machine

open Sys2Proof

/-! ### The Time Base and the standing set -/

/-- An element's number and definition. -/
def Element.ident (e : Element) : Nat × ElementDef := (e.num, e.dfn)

/-- The Time Base and the definitions stand. -/
structure SameSet (s t : State) : Prop where
  now : t.env.now = s.env.now
  store : t.env.store = s.env.store
  idents : t.env.elements.map Element.ident = s.env.elements.map Element.ident

theorem SameSet.refl (s : State) : SameSet s s := ⟨rfl, rfl, rfl⟩

theorem SameSet.trans {s t u : State} (h : SameSet s t) (k : SameSet t u) : SameSet s u :=
  ⟨k.now.trans h.now, k.store.trans h.store, k.idents.trans h.idents⟩

theorem SameSet.ite {s t u : State} {c : Prop} [Decidable c] (h : SameSet s t) (k : SameSet s u) :
    SameSet s (if c then t else u) := by
  split
  · exact h
  · exact k

theorem SameSet.of_env {s t : State} (h : t.env = s.env) : SameSet s t := by
  rw [show t = { t with env := s.env } by rw [← h]]
  exact ⟨rfl, rfl, rfl⟩

/-- Elements changed in place keep their numbers and definitions where the change does. -/
theorem idents_map (f : Element → Element) (hf : ∀ e, (f e).ident = e.ident) (es : List Element) :
    (es.map f).map Element.ident = es.map Element.ident := by
  rw [List.map_map]
  exact List.map_congr_left (fun e _ => hf e)

theorem sameSet_setElement (s : State) (n : Nat) (f : Element → Element)
    (hf : ∀ e, (f e).ident = e.ident) (d : Live) :
    SameSet s { s with env := s.env.setElement n f, live := d } where
  now := rfl
  store := rfl
  idents := idents_map _ (fun e => by split; exacts [hf e, rfl]) _

theorem sameSet_exchange (s : State) (x : Exchange) : SameSet s (s.exchange x) := by
  constructor <;> rw [State.exchange_env] <;> simp

theorem sameSet_answered (s : State) (x : Exchange) (f : Env → Live → Report) :
    SameSet s (s.answered x f) :=
  (sameSet_exchange s x).trans (.of_env rfl)

theorem sameSet_changeMode (s : State) (w : Env) (m : LaneMode) (hn : w.now = s.env.now)
    (hs : w.store = s.env.store)
    (hi : w.elements.map Element.ident = s.env.elements.map Element.ident) :
    SameSet s (State.changeMode m { s with env := w }) := by
  constructor <;> rw [State.changeMode_env]
  · exact hn
  · exact hs
  · exact (idents_map _ (fun e => by simp [Element.ident]) _).trans hi

theorem sameSet_updateElement (s : State) (n : Nat) (f : Element → Element)
    (hf : ∀ e, (f e).ident = e.ident) : SameSet s (s.updateElement n f) := by
  unfold State.updateElement
  split
  · exact sameSet_setElement s n f hf _
  · exact .refl s

theorem sameSet_setBlocked (s : State) (n : Nat) (b : Bool) : SameSet s (s.setBlocked n b) :=
  sameSet_setElement s n (fun e => { e with blocked := b }) (fun _ => rfl) _

theorem sameSet_takeBlock (n : Nat) (s : State) : SameSet s (takeBlock n s) :=
  .ite (.of_env rfl) (.ite (.refl s) (sameSet_setBlocked s n true))

theorem sameSet_takeUnblock (n : Nat) (s : State) : SameSet s (takeUnblock n s) :=
  .ite (.of_env rfl) (.ite ((sameSet_setBlocked s n false).trans (.of_env rfl)) (.refl s))

theorem sameSet_takeRejoin (n : Nat) (s : State) : SameSet s (takeRejoin n s) := by
  unfold takeRejoin
  split
  · refine .ite (.of_env rfl) (sameSet_changeMode s _ _ (by simp) (by simp) ?_)
    exact (idents_map _ (fun e => by simp [Element.ident]) _).trans (by simp)
  · exact .of_env rfl

theorem sameSet_restartKept (s : State) : SameSet s s.restartKept where
  now := rfl
  store := rfl
  idents := idents_map (fun e => e.restart e.blocked) (fun _ => rfl) _

/-- The commands that a part state's gate alone keeps from the standing set, while OPERATING or otherwise. -/
def endsSet : Instr → Bool
  | .loadBegin _ | .loadRecord .. | .loadEnd .. | .restartUnload _ => true
  | _ => false

theorem sameSet_owner {c : Instr} (h : endsSet c = false) (s : State) : SameSet s (ownerOf c s) := by
  cases c with
  | block x n => exact sameSet_takeBlock n s
  | unblock x n => exact sameSet_takeUnblock n s
  | rejoin x l => exact sameSet_takeRejoin l s
  | restartKeep x o => exact .ite (sameSet_restartKept s) (.of_env rfl)
  | restartUnload x => simp [endsSet] at h
  | loadBegin x => simp [endsSet] at h
  | loadRecord x p => simp [endsSet] at h
  | loadEnd x g => simp [endsSet] at h
  | _ => exact .of_env rfl

/-- A load or an UNLOAD leaves the Time Base. -/
theorem now_owner (c : Instr) (s : State) : (ownerOf c s).env.now = s.env.now := by
  cases hc : endsSet c with
  | false => exact (sameSet_owner hc s).now
  | true =>
    cases c with
    | restartUnload x =>
      show s.restartUnloaded.env.now = _
      unfold State.restartUnloaded
      split <;> rfl
    | loadBegin x => rfl
    | loadRecord x p =>
      show (s.takeRecord p).env.now = _
      unfold State.takeRecord
      split <;> rfl
    | loadEnd x g =>
      show (s.endLoad g).env.now = _
      unfold State.endLoad
      split
      · split
        · rfl
        · split <;> rfl
      · rfl
    | _ => simp [endsSet] at hc

/-- The state that a voted request leaves before its owner acts. -/
theorem sameSet_pairing (s : State) (x : Exchange) (d : Live) :
    SameSet s { s.exchange x with live := d } := (sameSet_exchange s x).trans (.of_env rfl)

theorem now_voted (s : State) (x : Exchange) (q : Request) {own : State → State}
    (h : ∀ s, (own s).env.now = s.env.now) : (s.voted x q own).env.now = s.env.now := by
  unfold State.voted State.hand
  dsimp only
  split
  · split
    · exact (sameSet_exchange s x).now
    · exact (h _).trans (sameSet_exchange s x).now
  · exact (sameSet_exchange s x).now

theorem operating_exchange (s : State) (x : Exchange) : (s.exchange x).env.operating = s.env.operating := by
  unfold Env.operating Env.part
  rw [(sameSet_exchange s x).store]

/-- While OPERATING a voted request keeps the definitions where its owner does, or where the gate refuses
it. -/
theorem sameSet_voted (s : State) (x : Exchange) (q : Request) {own : State → State}
    (h : (∀ s, SameSet s (own s))
      ∨ (s.env.operating = true ∧ ∀ v : Env, v.operating = true → gate v q ≠ none)) :
    SameSet s (s.voted x q own) := by
  unfold State.voted State.hand
  dsimp only
  split
  · split
    · exact sameSet_pairing s x _
    · next hg =>
      rcases h with h | ⟨ho, h⟩
      · exact (sameSet_pairing s x _).trans (h _)
      · exact absurd hg (h _ ((operating_exchange s x).trans ho))
  · exact sameSet_pairing s x _

/-- A load request is refused while OPERATING. -/
theorem gate_refuses_loads {c : Instr} {x : Exchange} {q : Request} (hv : voteOf c = some (x, q))
    (hl : endsSet c = true) (hu : ∀ y, c ≠ .restartUnload y) (v : Env) (h : v.operating = true) :
    gate v q ≠ none := by
  have hp := part_of_operating h
  cases c with
  | restartUnload y => exact absurd rfl (hu y)
  | loadBegin y =>
    cases hv
    simp [gate, hp]
  | loadRecord y p =>
    cases hv
    simp [gate, hp]
  | loadEnd y g =>
    cases hv
    simp [gate, hp]
  | _ => simp [endsSet] at hl

theorem sameSet_applyPair (l : LaneId) (s : State) (p : Nat × Nat) : SameSet s (s.applyPair l p) := by
  unfold State.applyPair
  split
  · exact .ite (.refl s) (sameSet_updateElement s _ _ (fun e => by simp [Element.ident]))
  · exact .refl s

theorem sameSet_foldl {α : Type} (f : State → α → State) (hf : ∀ s a, SameSet s (f s a)) (l : List α)
    (s : State) : SameSet s (l.foldl f s) :=
  List.foldlRecOn (motive := fun t => SameSet s t) l f (.refl s) (fun t h a _ => h.trans (hf t a))

theorem sameSet_takeAlone (q : Request) (s : State) : SameSet s (s.takeAlone q) := by
  cases q with
  | block n => exact sameSet_takeBlock n s
  | _ => exact .of_env rfl

theorem sameSet_dispose (l : LaneId) (s : State) (e : PendingEntry) : SameSet s (s.dispose l e) :=
  .ite (.refl s) (.ite (.trans (.of_env (by rfl)) (sameSet_takeAlone _ _)) (.of_env rfl))

theorem sameSet_disposeLists (l : LaneId) (s : State) : SameSet s (s.disposeLists l) := by
  have h : SameSet s { s with live := refuseList l s.live } := .of_env rfl
  exact .ite (h.trans (sameSet_foldl _ (sameSet_dispose _) _ _)) h

theorem sameSet_loseLane (l : LaneId) (s : State) : SameSet s (s.loseLane l) :=
  (sameSet_changeMode s _ _ (by simp) (by simp) (by simp)).trans (sameSet_disposeLists l _)

theorem sameSet_discrepancyDue (n : Nat) (s : State) : SameSet s (s.discrepancyDue n) :=
  .ite (sameSet_setElement s n _ (fun _ => by rfl) _) (.refl s)

/-- What O4 says of one command. -/
def LeavesSet (s : State) (c : Instr) (t : State) : Prop :=
  (c = .powerOn ∨ c = .reset → t.env.now = 0)
    ∧ (c ≠ .powerOn → c ≠ .reset → t.env.now = s.env.now
      ∧ (s.env.operating = true → (∀ x, c ≠ .restartUnload x) →
        t.env.store = s.env.store
          ∧ t.env.elements.map (fun e => (e.num, e.dfn)) = s.env.elements.map (fun e => (e.num, e.dfn))))

theorem LeavesSet.of {s t : State} {c : Instr} (hc : c ≠ .powerOn ∧ c ≠ .reset) (h : SameSet s t) :
    LeavesSet s c t :=
  ⟨fun k => absurd k (by simp [hc.1, hc.2]), fun _ _ => ⟨h.now, fun _ _ => ⟨h.store, h.idents⟩⟩⟩

theorem leavesSet_cold (s : State) (c : Instr) (hc : c = .powerOn ∨ c = .reset) : LeavesSet s c s.cold :=
  ⟨fun _ => rfl, fun h k => by rcases hc with hc | hc <;> contradiction⟩

theorem leavesSet_voted (s : State) {c : Instr} {x : Exchange} {q : Request} (hv : voteOf c = some (x, q)) :
    LeavesSet s c (s.voted x q (ownerOf c)) := by
  have hc : c ≠ .powerOn ∧ c ≠ .reset := by
    constructor <;> rintro rfl <;> simp [voteOf] at hv
  cases hl : endsSet c with
  | false => exact .of hc (sameSet_voted s x q (.inl (sameSet_owner hl)))
  | true =>
    refine ⟨fun k => absurd k (by simp [hc.1, hc.2]), fun _ _ => ⟨now_voted s x q (now_owner c), ?_⟩⟩
    intro ho hu
    have h := sameSet_voted (own := ownerOf c) s x q (.inr ⟨ho, gate_refuses_loads hv hl hu⟩)
    exact ⟨h.store, h.idents⟩

theorem exec_leavesSet (c : Instr) (s : State) : ∃ t, exec c s = .next t ∧ LeavesSet s c t := by
  refine exec_cases s
    (voted := fun c x q hv => leavesSet_voted s hv)
    (acts := fun c f hf => .of (by constructor <;> rintro rfl <;> simp [effectOf] at hf) (.of_env rfl))
    (answers := fun c x f hf =>
      .of (by constructor <;> rintro rfl <;> simp [answerOf] at hf) (sameSet_answered s x f))
    (powerOn := leavesSet_cold s _ (.inl rfl)) (reset := leavesSet_cold s _ (.inr rfl))
    (frameError := fun x => .of (by simp) (.of_env ?_))
    (empty := fun x => .of (by simp) (sameSet_exchange s x))
    (detect := fun x ps => .of (by simp) ((sameSet_exchange s x).trans
      (.ite (sameSet_foldl _ (sameSet_applyPair _) _ _) (.refl _))))
    (silence := fun l => .of (by simp) (.ite (sameSet_loseLane l s) (.refl s)))
    (startHold := .of (by simp) (.ite ⟨rfl, rfl, rfl⟩ (.refl s)))
    (discrepancy := fun n => .of (by simp) (sameSet_discrepancyDue n s))
    (pickUp := fun n => .of (by simp) (.ite (sameSet_updateElement s n _ (fun _ => rfl)) (.refl s)))
    (aged := fun n => .of (by simp) (.ite (sameSet_setElement s n _ (fun _ => by rfl) _) (.refl s)))
    (input := fun i a => .of (by simp) ?_) c
  · unfold State.shiftOut
    split <;> rfl
  · have h : SameSet s { s with env := s.env.setInput i a } :=
      ⟨Env.setInput_now _ _ _, Env.setInput_store _ _ _, by simp⟩
    exact .ite (h.trans (.of_env rfl)) h

/-- Settles O4: the relation `SameSet` holds across every command but the starts, the end of a set, and the
loads, which the part state refuses while OPERATING. -/
theorem onlyStartsChangeTimeBaseAndStandingSet : Obligations.OnlyStartsChangeTimeBaseAndStandingSet := by
  intro c s t h
  obtain ⟨u, hu, k⟩ := exec_leavesSet c s
  cases hu.symm.trans h
  exact k

/-! ### Reset -/

/-- Settles O5: the cold state, read off. -/
theorem powerOnAndResetGiveColdState : Obligations.PowerOnAndResetGiveColdState := by
  refine ⟨⟨rfl, rfl, rfl, rfl, rfl, rfl, ?_, rfl, ?_, rfl, rfl, rfl, rfl, rfl, rfl⟩, ?_⟩
  · intro l
    cases l <;> exact ⟨rfl, rfl, rfl⟩
  · intro k hk
    obtain rfl := List.eq_of_mem_replicate hk
    exact ⟨rfl, rfl, rfl⟩
  · intro s c hc
    simp only [List.mem_cons, List.not_mem_nil, or_false] at hc
    rcases hc with rfl | rfl <;> rfl

theorem reset_bounded : State.reset.live.bounded := by
  refine ⟨?_, Nat.zero_le _, Nat.zero_le _, ?_⟩
  · intro l
    cases l <;> exact ⟨Nat.zero_le _, Nat.zero_le _⟩
  · intro k hk
    obtain rfl := List.eq_of_mem_replicate hk
    exact ⟨Nat.zero_le _, Nat.zero_le _⟩

/-- Settles O6: at reset no element is defined and the part is not OPERATING, so that the invariants of the
tables, the aspects, the slots and the claims ask for nothing but the four links. -/
theorem invariantsHoldAtReset : Obligations.InvariantsHoldAtReset := by
  have ho : State.reset.env.operating ≠ true := by decide
  refine ⟨?_, reset_bounded, ⟨rfl, fun h => absurd h ho⟩, fun h => absurd h ho, fun h => absurd h ho,
    fun h => absurd h ho, rfl⟩
  intro n e h
  simp [State.reset, Env.bare, Env.element?] at h

/-! ### Frames with no voted request -/

theorem LanePort.shiftOut_eq (v : Env) :
    LanePort.shiftOut v = fun p : LanePort =>
      { p with reports := p.reports.drop 1, reportsLost := false, out := reportFrame v p } := rfl

theorem Env.heard_eq_ite (v : Env) (l : LaneId) :
    v.heard l = if v.operating = true ∧ v.present l = true then
      v.setSilence l (some (after v.now v.timing.laneTimeout)) else v := by
  simp [Env.heard, Bool.and_eq_true]

/-- Settles O15: both commands are the exchange, the first without the silence timer. -/
theorem exchangesWithoutRequest : Obligations.ExchangesWithoutRequest := by
  intro x s
  refine ⟨?_, s.exchange x, rfl, ?_, ?_, State.exchange_pending s x⟩
  · show Host.Outcome.next (s.shiftOut x) = _
    simp [State.shiftOut, LanePort.shiftOut_eq]
  · rw [State.exchange_live, LanePort.shiftOut_eq]
  · rw [State.exchange_env, Env.heard_eq_ite]

theorem answered_other (s : State) (x : Exchange) (f : Env → Live → Report) :
    (s.answered x f).live.lane x.lane.other = s.live.lane x.lane.other := by
  rw [← State.exchange_other s x]
  cases hx : x.lane <;> simp [State.answered, Live.reportTo, hx, Live.setLane, Live.lane, LaneId.other]

/-- Settles O16: the refusal is the answer that an unknown request gets. -/
theorem unknownRequestRefusedToSender : Obligations.UnknownRequestRefusedToSender := by
  intro x kind p s
  exact ⟨_, frameOperand kind p, exec_of_answer rfl s, rfl, State.exchange_pending s x, rfl,
    answered_other s x _⟩

/-! ### Reads -/

/-- Which answer a read gives: one with its code, or a refusal outside OPERATING, or one of a bad
operand where the thing read of does not exist. -/
def ReadsAs (code n : Nat) (has : Bool) (v : Env) (r : Report) : Prop :=
  (v.operating = false → r = .refused code n .notConfigured)
    ∧ (v.operating = true → has = true → ∃ body, r = .answer (code + 0x80) body)
    ∧ (v.operating = true → has = false → r = .refused code n .badOperand)

theorem readsAs_element (n : Nat) (v : Env) (d : Live) :
    ReadsAs 0x10 n (v.element? n).isSome v (answerElement n v d) := by
  unfold answerElement ReadsAs
  cases v.operating <;> cases v.element? n <;> simp [refusedBy]

theorem readsAs_slot (n : Nat) (v : Env) (d : Live) :
    ReadsAs 0x11 n (decide (n < 48)) v (answerSlot n v d) := by
  unfold answerSlot ReadsAs
  by_cases h : n < 48 <;> cases v.operating <;> simp [refusedBy, Config.slotCount, h, Nat.not_le.2, Nat.not_lt.1]

theorem readsAs_route (n : Nat) (v : Env) (d : Live) :
    ReadsAs 0x12 n (v.route? n).isSome v (answerRoute n v d) := by
  unfold answerRoute ReadsAs
  cases v.operating <;> cases v.route? n <;> simp [refusedBy]

theorem readsAs_boundary (n : Nat) (v : Env) (d : Live) :
    ReadsAs 0x13 n (v.boundary? n).isSome v (answerBoundary n v d) := by
  unfold answerBoundary ReadsAs
  cases v.operating <;> cases v.boundary? n <;> simp [refusedBy]

theorem readsAs_groups (n : Nat) (v : Env) (d : Live) :
    ReadsAs 0x14 n (decide (n < 8)) v (answerGroups n v d) := by
  unfold answerGroups ReadsAs
  by_cases h : n < 8 <;> cases v.operating <;> simp [refusedBy, Config.stopGroups, h, Nat.not_le.2, Nat.not_lt.1]

theorem readsAs_faults (n : Nat) (v : Env) (d : Live) :
    ReadsAs 0x16 n (decide (n < 512)) v (answerFaults n v d) := by
  unfold answerFaults ReadsAs
  by_cases h : n < 512 <;> cases v.operating <;> simp [refusedBy, h, Nat.not_le.2, Nat.not_lt.1]

/-- A read that is answered by its code, as O17 says of one command. -/
theorem read_outcome {c : Instr} {x : Exchange} {f : Env → Live → Report} {code n : Nat} {has : Env → Bool}
    (hc : answerOf c = some (x, f)) (hk : code ≠ 0x15) (h : ∀ v d, ReadsAs code n (has v) v (f v d))
    (s : State) :
    ∃ t r, exec c s = .next t
      ∧ t = { s.exchange x with live := (s.exchange x).live.setLane x.lane (LanePort.place r) }
      ∧ t.live.lane x.lane.other = s.live.lane x.lane.other
      ∧ (s.env.operating = false → code ≠ 0x15 → r = .refused code n .notConfigured)
      ∧ (code = 0x15 → ∃ body, r = .answer 0x95 body)
      ∧ ((∃ body, r = .answer (code + 0x80) body) ∨ r = .refused code n .notConfigured
          ∨ r = .refused code n .badOperand) := by
  obtain ⟨hno, hyes, hbad⟩ := h (s.exchange x).env (s.exchange x).live
  refine ⟨_, f (s.exchange x).env (s.exchange x).live, exec_of_answer hc s, rfl, answered_other s x f,
    fun ho _ => hno ((operating_exchange s x).trans ho), fun k => absurd k hk, ?_⟩
  cases ho : (s.exchange x).env.operating with
  | false => exact .inr (.inl (hno ho))
  | true =>
    cases hh : has (s.exchange x).env with
    | false => exact .inr (.inr (hbad ho hh))
    | true => exact .inl (hyes ho hh)

theorem status_outcome (x : Exchange) (n : Nat) (s : State) :
    ∃ t r, exec (.readStatus x) s = .next t
      ∧ t = { s.exchange x with live := (s.exchange x).live.setLane x.lane (LanePort.place r) }
      ∧ t.live.lane x.lane.other = s.live.lane x.lane.other
      ∧ (s.env.operating = false → 0x15 ≠ 0x15 → r = .refused 0x15 n .notConfigured)
      ∧ (0x15 = 0x15 → ∃ body, r = .answer 0x95 body)
      ∧ ((∃ body, r = .answer (0x15 + 0x80) body) ∨ r = .refused 0x15 n .notConfigured
          ∨ r = .refused 0x15 n .badOperand) :=
  ⟨_, _, exec_of_answer rfl s, rfl, answered_other s x answerStatus, fun _ k => absurd rfl k,
    fun _ => ⟨_, rfl⟩, .inl ⟨_, rfl⟩⟩

/-- While OPERATING a read of what the part has is answered, and any other refused. -/
theorem read_operating {c : Instr} {x : Exchange} {f : Env → Live → Report} {code n : Nat} {has : Bool}
    {s : State} (ho : s.env.operating = true) (hc : answerOf c = some (x, f))
    (h : ∀ d, ReadsAs code n has (s.exchange x).env (f (s.exchange x).env d)) :
    ∃ t r, exec c s = .next t
      ∧ t.live = (s.exchange x).live.setLane x.lane (LanePort.place r)
      ∧ (has = true → ∃ body, r = .answer (code + 0x80) body)
      ∧ (has = false → r = .refused code n .badOperand) := by
  obtain ⟨_, hyes, hbad⟩ := h (s.exchange x).live
  have ho' := (operating_exchange s x).trans ho
  exact ⟨_, _, exec_of_answer hc s, rfl, hyes ho', hbad ho'⟩

theorem element?_exchange (s : State) (x : Exchange) (n : Nat) :
    (s.exchange x).env.element? n = s.env.element? n := by
  rw [State.exchange_env]
  simp [Env.element?]

theorem defs_exchange (s : State) (x : Exchange) : (s.exchange x).env.defs = s.env.defs := by
  unfold Env.defs
  rw [(sameSet_exchange s x).store]

/-- Settles O17: a read per case, by what its answer does. -/
theorem readsAnswerAskingLaneAlone : Obligations.ReadsAnswerAskingLaneAlone := by
  intro x n s
  constructor
  · intro c hc
    simp only [List.mem_cons, List.not_mem_nil, or_false] at hc
    rcases hc with rfl | rfl | rfl | rfl | rfl | rfl | rfl
    · exact read_outcome rfl (by decide) (readsAs_element n) s
    · exact read_outcome (has := fun _ => decide (n < 48)) rfl (by decide) (readsAs_slot n) s
    · exact read_outcome rfl (by decide) (readsAs_route n) s
    · exact read_outcome rfl (by decide) (readsAs_boundary n) s
    · exact read_outcome (has := fun _ => decide (n < 8)) rfl (by decide) (readsAs_groups n) s
    · exact read_outcome (has := fun _ => decide (n < 512)) rfl (by decide) (readsAs_faults n) s
    · exact status_outcome x n s
  · intro ho
    have hr : (s.exchange x).env.route? n = s.env.route? n := by unfold Env.route?; rw [defs_exchange]
    have hb : (s.exchange x).env.boundary? n = s.env.boundary? n := by
      unfold Env.boundary?
      rw [defs_exchange]
    simp only [List.forall_mem_cons]
    exact ⟨read_operating ho rfl (fun d => element?_exchange s x n ▸ readsAs_element n _ d),
      read_operating ho rfl (readsAs_slot n _), read_operating ho rfl (fun d => hr ▸ readsAs_route n _ d),
      read_operating ho rfl (fun d => hb ▸ readsAs_boundary n _ d),
      read_operating ho rfl (readsAs_groups n _), read_operating ho rfl (readsAs_faults n _), by simp⟩


end Sys2Proof.Machine
end

section
/-! PROOF. What each read answers, field by field (R19, R35, R80, R144, R168, R179): the answer's body of each
read for each kind of record. -/

namespace Sys2Proof.Machine

open Sys2Proof

theorem flagByte_eq (b : Bool) : BitVec.ofNat 8 (if b then 1 else 0) = flagByte b := by
  cases b <;> rfl

/-! ### Elements -/

theorem elementBody_section (d : Live) {e : Element} (h : e.isSection = true) :
    elementBody d e = wordBytes e.num ++ [2, viewByte e.viewA, viewByte e.viewB, byteOf e.agreed.code,
        flagByte e.discExpiry.isSome, flagByte e.discrepant, flagByte e.blocked,
        flagByte e.occupied, flagByte e.pickUp.isSome] ++ optTime e.occTime
      ++ holderBytes (d.control e.num).lock
      ++ [optByte ((d.control e.num).lock.map (fun l => l.mode.code)), 0xFF, 0xFF,
        0xFF, 0xFF, 0xFF, 0xFF, optByte ((d.control e.num).commanded.map Position.code), 0xFF, 0xFF,
        countByte (d.control e.num).faults.length] := by
  unfold Element.isSection at h
  split at h
  · next hk =>
    simp [elementBody, hk, Element.isBoundary, Element.isSection, Element.isPoint, Element.isSignal, optFlag,
      optWord, optByte, flagByte_eq, KindDef.code, byteOf]
  · contradiction

theorem elementBody_point (d : Live) {e : Element} (h : e.isPoint = true) :
    elementBody d e = wordBytes e.num ++ [0, viewByte e.viewA, viewByte e.viewB, byteOf e.agreed.code,
        flagByte e.discExpiry.isSome, flagByte e.discrepant, flagByte e.blocked, 0xFF, 0xFF]
      ++ optTime e.occTime ++ holderBytes (d.control e.num).lock
      ++ [optByte ((d.control e.num).lock.map (fun l => l.mode.code))]
      ++ wordBytes (d.control e.num).normalCount ++ wordBytes (d.control e.num).reverseCount
      ++ [0xFF, 0xFF, optByte ((d.control e.num).commanded.map Position.code),
        flagByte ((d.control e.num).flight.isSome || d.orders.any (fun o => o.point = e.num)), 0xFF,
        countByte (d.control e.num).faults.length] := by
  have hs : (!d.standing e.num)
      = ((d.control e.num).flight.isSome || d.orders.any (fun o => o.point = e.num)) := by
    simp [Live.standing, Live.order?, Bool.not_and, List.isSome_find?]
  unfold Element.isPoint at h
  split at h
  · next hk =>
    simp [elementBody, hk, Element.isBoundary, Element.isSection, Element.isPoint, Element.isSignal, optFlag,
      optWord, optByte, hs, KindDef.code, byteOf]
  · contradiction

theorem elementBody_signal (d : Live) {e : Element} (h : e.isSignal = true) :
    elementBody d e = wordBytes e.num ++ [1, viewByte e.viewA, viewByte e.viewB, byteOf e.agreed.code,
        flagByte e.discExpiry.isSome, flagByte e.discrepant, flagByte e.blocked, 0xFF, 0xFF]
      ++ optTime e.occTime ++ holderBytes (d.control e.num).lock
      ++ [optByte ((d.control e.num).lock.map (fun l => l.mode.code)), 0xFF, 0xFF, 0xFF, 0xFF]
      ++ wordBytes (d.control e.num).holdCount
      ++ [optByte ((d.control e.num).commanded.map Position.code), 0xFF,
        byteOf (d.control e.num).aspect.code, countByte (d.control e.num).faults.length] := by
  unfold Element.isSignal at h
  split at h
  · next hk =>
    simp [elementBody, hk, Element.isBoundary, Element.isSection, Element.isPoint, Element.isSignal, optFlag,
      optWord, optByte, KindDef.code, byteOf]
  · contradiction

/-! ### Slots and routes -/

theorem slotBody_free (v : Env) (d : Live) {i : Nat} (h : d.slot i = Slot.free) :
    slotBody v d i = [0, 0xFF, 0xFF, 0xFF, 0xFF, 0xFF] ++ optTime none ++ optTime none ++ optTime none
      ++ [0xFF, 0xFF, 0xFF, 0xFF] := by
  have hr : d.routeOf v i = none := by simp [Live.routeOf, h, Slot.free, Slot.active]
  simp [slotBody, hr, h, Slot.free, Slot.active, optWord, optByte, optFlag, SlotState.code, byteOf]

theorem slotBody_held (v : Env) (d : Live) {i p : Nat} {rt : RouteDef} (h : d.routeOf v i = some rt)
    (hr : (d.slot i).route = some rt.number) (hp : (d.slot i).priority = some p) :
    slotBody v d i = [byteOf (d.slot i).state.code] ++ wordBytes rt.number
      ++ [byteOf p, flagByte (d.slot i).everCleared, flagByte (d.slot i).reclear]
      ++ optTime (d.slot i).setting ++ optTime (d.slot i).overlapExpiry ++ optTime (d.slot i).hold
      ++ [byteOf (min (unpositioned v d i).length 255)]
      ++ (match rt.exit with
          | .boundary _ _ => [flagByte (d.slot i).dirNeed, flagByte (d.slot i).accNeed]
          | .signal _ => [0xFF, 0xFF])
      ++ (d.slot i).pathMarks.map markByte ++ (d.slot i).overlapMarks.map markByte
      ++ [byteOf ((d.slot i).flank.filterMap FlankHold.protector).length] := by
  have ha : (d.slot i).active = true := by
    unfold Live.routeOf at h
    split at h
    · assumption
    · contradiction
  cases hx : rt.exit <;>
    simp [slotBody, h, hr, hp, ha, hx, optWord, optByte, optFlag, protectors]

/-- The fields of a route's definition in the answer of R35, before those of its use. -/
theorem routeBody_eq (d : Live) (rt : RouteDef) :
    routeBody d rt = wordBytes rt.number ++ [if rt.main then (0 : Byte) else 1] ++ wordBytes rt.entry
      ++ wordBytes (match rt.exit with | .signal m => m | .boundary m _ => m)
      ++ [flagByte rt.autoReclear, flagByte rt.storable, byteOf rt.path.length,
        byteOf rt.overlap.length, byteOf rt.flank.length]
      ++ ([optByte (d.slotOf rt.number),
          optByte ((d.slotOf rt.number).map (fun i => (d.slot i).state.code)),
          optByte ((if (d.slotOf rt.number).isSome then none else d.stored? rt.number).map Stored.priority)]
        ++ optTime ((if (d.slotOf rt.number).isSome then none else d.stored? rt.number).bind
          Stored.expiry)) := by
  have hx : rt.exit.element = (match rt.exit with | .signal m => m | .boundary m _ => m) := by
    cases rt.exit <;> rfl
  simp [routeBody, hx]

/-! ### Boundaries, groups, the status -/

theorem boundaryBody_eq (d : Live) (bd : BoundaryDef) :
    boundaryBody d bd = [byteOf (d.boundary bd.number).direction.code, flagByte (d.boundary bd.number).restricted]
      ++ optTime (d.boundary bd.number).reqExpiry
      ++ [flagByte (d.boundary bd.number).waiting, byteOf (d.boundary bd.number).acceptance.code]
      ++ optTime (d.boundary bd.number).accExpiry
      ++ [optByte (d.boundary bd.number).exitSlot, flagByte (d.boundary bd.number).exitEntered,
        flagByte (d.boundary bd.number).berthLocked]
      ++ (if (d.boundary bd.number).berthLocked then (d.boundary bd.number).marks.map markByte
        else bd.berth.map (fun _ => 0))
      ++ optTime (d.boundary bd.number).resetExpiry ++ optTime (d.boundary bd.number).consExpiry
      ++ (match (d.boundary bd.number).views with
          | some y => [byteOf y.number, byteOf y.direction.code, flagByte y.restricted,
              byteOf y.acceptance.code, flagByte y.waiting, flagByte y.berthLocked,
              flagByte y.berthEntered, flagByte y.berthOccupied, flagByte y.berthReady,
              byteOf y.home.code]
          | none => List.replicate 10 0xFF)
      ++ [byteOf (d.link bd.link).state.code] := by
  cases hv : (d.boundary bd.number).views <;> simp [boundaryBody, hv, viewsBytes, berthByte]

theorem groupsBody_eq (v : Env) (d : Live) (n : Nat) :
    groupsBody v d n = (List.range 4).flatMap (fun j => if n + j < 8 then
        [flagByte (d.group (n + j)).active] ++ optTime (d.group (n + j)).since
          ++ [optByte ((d.group (n + j)).source.map Source.code),
            byteOf (((assertedSources v d (n + j)).map (fun src => 2 ^ src.code)).foldl (· + ·) 0)]
        else [0xFF, 0, 0, 0, 0, 0, 0xFF, 0xFF])
      ++ [flagByte v.as0, flagByte v.as1] ++ [0, 1, 2, 3].map (fun l => flagByte (ownStopFlag v d l))
      ++ [if n < 4 then byteOf (n + 4) else 0xFF] := by
  have hn : optByte (if n + 4 < Config.stopGroups then some (n + 4) else none)
      = if n < 4 then byteOf (n + 4) else 0xFF := by
    have h8 : (n + 4 < Config.stopGroups) ↔ n < 4 := by unfold Config.stopGroups; omega
    simp only [h8]
    split <;> rfl
  unfold groupsBody
  rw [hn]
  rfl

theorem statusBody_standing (v : Env) (d : Live) {st : Defs} (h : v.store = .standing st) :
    statusBody v d = [byteOf v.part.code, byteOf v.mode.code,
        if v.presentA then 0 else 1, if v.presentB then 0 else 1]
      ++ optTime v.startHold ++ wordBytes st.digest.toNat
      ++ [byteOf (min st.records 255), 0xFF, 0xFF, 0xFF] ++ timeBytes v.now
      ++ [countByte d.laneA.requests.length, countByte d.laneA.reports.length,
        countByte d.laneB.requests.length, countByte d.laneB.reports.length,
        byteOf (d.slots.filter Slot.active).length, byteOf d.stored.length,
        byteOf d.orders.length] := by
  have ho : v.operating = true := by simp [Env.operating, Env.part, h]
  have hd : v.defs = st := by simp [Env.defs, h]
  have hl : ∀ p : Bool, byteOf (if p then 0 else 1) = if p then 0 else 1 := by decide
  simp [statusBody, ho, hd, h, optByte, optWord, hl]

theorem statusBody_staged (v : Env) (d : Live) {st : Staged} (h : v.store = .staged st) :
    statusBody v d = [byteOf v.part.code, 0xFF, 0xFF, 0xFF] ++ optTime v.startHold
      ++ [0xFF, 0xFF, 0xFF, byteOf (min st.records.length 255)]
      ++ wordBytes st.digest.toNat ++ timeBytes v.now
      ++ [countByte d.laneA.requests.length, countByte d.laneA.reports.length,
        countByte d.laneB.requests.length, countByte d.laneB.reports.length, 0xFF, 0xFF, 0xFF] := by
  have ho : v.operating = false := by simp [Env.operating, Env.part, h]
  simp [statusBody, ho, h, optByte, optWord]

/-! ### The answers -/

/-- A read whose answer is known. -/
theorem exec_answers {c : Instr} {x : Exchange} {f : Env → Live → Report} {r : Report} {s : State}
    (hc : answerOf c = some (x, f)) (hf : f (s.exchange x).env (s.exchange x).live = r) :
    exec c s = .next { s.exchange x with
      live := (s.exchange x).live.setLane x.lane (LanePort.place r) } := by
  rw [exec_of_answer hc, ← hf]
  rfl

section answers
variable {n : Nat} {v : Env} {d : Live} (ho : v.operating = true)
include ho

theorem answerElement_eq {e : Element} (he : v.element? n = some e) :
    answerElement n v d = .answer 0x90 (elementBody d e) := by
  simp [answerElement, ho, he]

theorem answerSlot_eq (hn : n < 48) : answerSlot n v d = .answer 0x91 (slotBody v d n) := by
  simp [answerSlot, ho, Config.slotCount, Nat.not_le.2 hn]

theorem answerRoute_eq {rt : RouteDef} (hr : v.route? n = some rt) :
    answerRoute n v d = .answer 0x92 (routeBody d rt) := by
  simp [answerRoute, ho, hr]

theorem answerBoundary_eq {bd : BoundaryDef} (hb : v.boundary? n = some bd) :
    answerBoundary n v d = .answer 0x93 (boundaryBody d bd) := by
  simp [answerBoundary, ho, hb]

theorem answerGroups_eq (hn : n < 8) : answerGroups n v d = .answer 0x94 (groupsBody v d n) := by
  simp [answerGroups, ho, Config.stopGroups, Nat.not_le.2 hn]

theorem answerFaults_eq (hn : n < 512) : answerFaults n v d = .answer 0x96 (faultsBody v d n) := by
  simp [answerFaults, ho, Nat.not_le.2 hn]

end answers

/-- Settles O18: each answer by the body of its read. -/
theorem readAnswersGiveTheirFields : Obligations.ReadAnswersGiveTheirFields := by
  intro x n s u hu c code body ho h
  subst hu
  have op : ∀ {d : Instr}, d = c → d ≠ .readStatus x → (s.exchange x).env.operating = true := by
    intro d hd hne
    exact (operating_exchange s x).trans (ho.resolve_right (hd ▸ hne))
  rcases h with ⟨e, k, rfl, rfl, he, rfl, rfl, hk, rfl⟩ | ⟨e, k, rfl, rfl, he, rfl, rfl, hk, rfl⟩
    | ⟨e, k, rfl, rfl, he, rfl, rfl, hk, rfl⟩ | ⟨k, rfl, rfl, hn, rfl, hk, rfl⟩
    | ⟨k, rt, p, rfl, rfl, hn, rfl, hr, hrt, hp, rfl⟩
    | ⟨rt, rfl, rfl, hr, rfl, exit, use, rfl, huse, rfl⟩ | ⟨bd, k, rfl, rfl, hb, rfl, rfl, rfl⟩
    | ⟨rfl, rfl, hn, rfl⟩ | ⟨st, rfl, rfl, hs, rfl⟩ | ⟨st, rfl, rfl, hs, rfl⟩
    | ⟨listed, next, rfl, rfl, hn, hf, rfl⟩
  · exact exec_answers rfl ((answerElement_eq (op rfl (by simp)) he).trans (congrArg _ (elementBody_section _ hk)))
  · exact exec_answers rfl ((answerElement_eq (op rfl (by simp)) he).trans (congrArg _ (elementBody_point _ hk)))
  · exact exec_answers rfl ((answerElement_eq (op rfl (by simp)) he).trans (congrArg _ (elementBody_signal _ hk)))
  · exact exec_answers rfl ((answerSlot_eq (op rfl (by simp)) hn).trans (congrArg _ (slotBody_free _ _ hk)))
  · exact exec_answers rfl ((answerSlot_eq (op rfl (by simp)) hn).trans (congrArg _ (slotBody_held _ _ hr hrt hp)))
  · refine exec_answers rfl ?_
    rw [answerRoute_eq (op rfl (by simp)) hr, routeBody_eq]
    rcases huse with ⟨i, hi, rfl⟩ | ⟨y, hi, hy, rfl⟩ | ⟨hi, hy, rfl⟩
    · simp [hi, optByte, optTime] <;> rfl
    · simp [hi, hy, optByte] <;> rfl
    · simp [hi, hy, optByte] <;> rfl
  · exact exec_answers rfl ((answerBoundary_eq (op rfl (by simp)) hb).trans (congrArg _ (boundaryBody_eq ..)))
  · exact exec_answers rfl ((answerGroups_eq (op rfl (by simp)) hn).trans (congrArg _ (groupsBody_eq ..)))
  · exact exec_answers rfl (congrArg _ (statusBody_standing _ _ hs))
  · exact exec_answers rfl (congrArg _ (statusBody_staged _ _ hs))
  · refine exec_answers rfl ?_
    rw [answerFaults_eq (op rfl (by simp)) hn]
    have hq : fitFaults 4 (faultMaps (s.exchange x).env (s.exchange x).live n) = (listed, next) := hf
    unfold faultsBody
    rw [hq]
    rfl

end Sys2Proof.Machine
end

section
/-! PROOF. Frames read back (R169, R180, R181, R183): numbers and codes from their bytes, the payload of each
neighbour frame, and the hunt, whose bound never matters. -/

namespace Sys2Proof.Machine

open Sys2Proof

/-! ### Numbers and codes -/

theorem byteOf_toNat {n : Nat} (h : n < 256) : (byteOf n).toNat = n := by
  simp [byteOf, Nat.mod_eq_of_lt h]

theorem wordOf_bytes (c : Crc) : wordOf (byteOf (c.toNat / 256)) (byteOf c.toNat) = c.toNat := by
  have h := c.isLt
  simp only [wordOf, byteOf, BitVec.toNat_ofNat]
  omega

theorem direction_ofCode (x : Direction) : Direction.ofCode (byteOf x.code).toNat = some x := by
  cases x <;> rfl

theorem acceptance_ofCode (x : Acceptance) : Acceptance.ofCode (byteOf x.code).toNat = some x := by
  cases x <;> rfl

theorem aspect_ofCode (x : Aspect) : Aspect.ofCode (byteOf x.code).toNat = some x := by
  cases x <;> rfl

theorem seniority_ofCode (x : Seniority) : Seniority.ofCode (byteOf x.code).toNat = some x := by
  cases x <;> rfl

/-- The flags of a STATUS entry, in the order of their bits. -/
theorem flags_read : ∀ a b c d e f : Bool,
    (byteOf (flagBit a 0 + flagBit b 1 + flagBit c 2 + flagBit d 3 + flagBit e 4 + flagBit f 5)).getLsbD 0 = a
      ∧ (byteOf (flagBit a 0 + flagBit b 1 + flagBit c 2 + flagBit d 3 + flagBit e 4 + flagBit f 5)).getLsbD 1
        = b
      ∧ (byteOf (flagBit a 0 + flagBit b 1 + flagBit c 2 + flagBit d 3 + flagBit e 4 + flagBit f 5)).getLsbD 2
        = c
      ∧ (byteOf (flagBit a 0 + flagBit b 1 + flagBit c 2 + flagBit d 3 + flagBit e 4 + flagBit f 5)).getLsbD 3
        = d
      ∧ (byteOf (flagBit a 0 + flagBit b 1 + flagBit c 2 + flagBit d 3 + flagBit e 4 + flagBit f 5)).getLsbD 4
        = e
      ∧ (byteOf (flagBit a 0 + flagBit b 1 + flagBit c 2 + flagBit d 3 + flagBit e 4 + flagBit f 5)).getLsbD 5
        = f := by
  decide

/-! ### Lane frames -/

/-- A covered run of bytes with its CRC after it, and anything after that. -/
theorem decodeLaneFrame_covered (x : Exchange) (kind : Byte) (p fill : List Byte) (h : p.length ≤ 60) :
    decodeLaneFrame x (kind :: byteOf p.length :: (p
        ++ wordBytes (crc16 (kind :: byteOf p.length :: p)).toNat ++ fill))
      = requestOf x kind.toNat p := by
  have hl : (byteOf p.length).toNat = p.length := byteOf_toNat (by omega)
  simp [decodeLaneFrame, hl, wordBytes, wordOf_bytes, h]

/-! ### The payload of a neighbour frame -/

theorem statusEntry_read {e : StatusEntry} (h : e.number < 256) (rest : List Byte) :
    statusEntriesOf (e.bytes ++ rest) = (statusEntriesOf rest).map (fun es => e :: es) := by
  obtain ⟨h0, h1, h2, h3, h4, h5⟩ :=
    flags_read e.restricted e.waiting e.berthLocked e.berthEntered e.berthOccupied e.berthReady
  simp only [StatusEntry.bytes, List.cons_append, List.nil_append, statusEntriesOf, statusEntryOf,
    direction_ofCode, acceptance_ofCode, aspect_ofCode, byteOf_toNat h, h0, h1, h2, h3, h4, h5]
  cases statusEntriesOf rest <;> rfl

theorem statusEntries_read (es : List StatusEntry) (h : ∀ e ∈ es, e.number < 256) :
    statusEntriesOf (es.flatMap StatusEntry.bytes) = some es := by
  induction es with
  | nil => rfl
  | cons e es ih =>
    rw [List.flatMap_cons, statusEntry_read (h e (List.mem_cons_self ..)),
      ih (fun k hk => h k (List.mem_cons_of_mem _ hk))]
    rfl

theorem statusEntries_length (es : List StatusEntry) :
    (es.flatMap StatusEntry.bytes).length = 5 * es.length := by
  induction es with
  | nil => rfl
  | cons e es ih =>
    rw [List.flatMap_cons, List.length_append, ih, List.length_cons]
    simp only [StatusEntry.bytes, List.length_cons, List.length_nil]
    omega

theorem flagBit_read (a : Bool) : ((byteOf (flagBit a 0)).toNat != 0) = a := by
  cases a <;> rfl

theorem byteOk_iff (n : Nat) : byteOk n = true ↔ n < 256 := by
  simp [byteOk]

/-- A well-formed frame's kind and payload spell it. -/
theorem nframeOf_body {f : NFrame} (h : f.wellFormed = true) :
    nframeOf (byteOf f.body.1).toNat f.body.2 = some f := by
  cases f with
  | status a es =>
    simp only [NFrame.wellFormed, Bool.and_eq_true, decide_eq_true_eq, List.all_eq_true, byteOk_iff] at h
    obtain ⟨hl, hn⟩ := h
    have hc : (byteOf es.length).toNat = es.length := byteOf_toNat (by omega)
    show nframeOf 0x01 (byteOf (flagBit a 0) :: byteOf es.length :: es.flatMap StatusEntry.bytes) = _
    simp [-List.length_flatMap, nframeOf, hc, hl, statusEntries_length, statusEntries_read es hn, flagBit_read]
  | dirRequest n s =>
    have hn := byteOf_toNat ((byteOk_iff n).1 h)
    show nframeOf 0x02 [byteOf n, byteOf s.code] = _
    simp [nframeOf, hn, seniority_ofCode]
  | acceptGrant n a =>
    have hn := byteOf_toNat ((byteOk_iff n).1 h)
    show nframeOf 0x07 [byteOf n, byteOf a.code] = _
    simp [nframeOf, hn, aspect_ofCode]
  | acceptRefuse n r =>
    simp only [NFrame.wellFormed, Bool.and_eq_true, byteOk_iff] at h
    show nframeOf 0x08 [byteOf n, byteOf r] = _
    simp [nframeOf, byteOf_toNat h.1, byteOf_toNat h.2]
  | dirGrant n =>
    show some (NFrame.dirGrant (byteOf n).toNat) = _
    rw [byteOf_toNat ((byteOk_iff n).1 h)]
  | dirRefuse n =>
    show some (NFrame.dirRefuse (byteOf n).toNat) = _
    rw [byteOf_toNat ((byteOk_iff n).1 h)]
  | dirOffer n =>
    show some (NFrame.dirOffer (byteOf n).toNat) = _
    rw [byteOf_toNat ((byteOk_iff n).1 h)]
  | acceptRequest n =>
    show some (NFrame.acceptRequest (byteOf n).toNat) = _
    rw [byteOf_toNat ((byteOk_iff n).1 h)]
  | acceptCancel n =>
    show some (NFrame.acceptCancel (byteOf n).toNat) = _
    rw [byteOf_toNat ((byteOk_iff n).1 h)]

/-- No well-formed payload is longer than the 22 bytes of a STATUS with four entries. -/
theorem body_length {f : NFrame} (h : f.wellFormed = true) : f.body.2.length ≤ 59 := by
  cases f with
  | status a es =>
    simp only [NFrame.wellFormed, Bool.and_eq_true, decide_eq_true_eq] at h
    have hl := statusEntries_length es
    simp only [NFrame.body, List.length_cons]
    omega
  | _ => simp [NFrame.body]

/-! ### The hunt -/

theorem nframeAt_bytes {f : NFrame} (h : f.wellFormed = true) (rest : List Byte) :
    nframeAt ((f.bytes ++ rest).drop 1) = some (f, rest) := by
  have hl := body_length h
  have hn : (byteOf f.body.2.length).toNat = f.body.2.length := byteOf_toNat (by omega)
  simp [NFrame.bytes, nframeAt, hn, hl, wordBytes, wordOf_bytes, nframeOf_body h]

/-- A frame leaves fewer bytes than it was read from. -/
theorem nframeAt_shorter {bs rest : List Byte} {f : NFrame} (h : nframeAt bs = some (f, rest)) :
    rest.length < bs.length := by
  unfold nframeAt at h
  split at h
  · next kind len more =>
    dsimp only at h
    split at h
    · next c1 c0 tail hd =>
      split at h
      · obtain ⟨g, _, hg⟩ := Option.map_eq_some_iff.1 h
        obtain rfl : tail = rest := congrArg Prod.snd hg
        have hlen := congrArg List.length hd
        simp only [List.length_drop, List.length_cons] at hlen ⊢
        omega
      · contradiction
    · contradiction
  · contradiction

/-- The bound of a hunt is enough once it is the number of bytes. -/
theorem huntFrames_enough : ∀ (k : Nat) (bs : List Byte), bs.length ≤ k →
    huntFrames k bs = huntFrames bs.length bs := by
  intro k
  induction k using Nat.strongRecOn with
  | ind k ih =>
    intro bs hk
    have both : ∀ cs : List Byte, cs.length < bs.length → ∀ j, cs.length ≤ j → j < k →
        huntFrames j cs = huntFrames cs.length cs := fun cs _ j hj hjk => ih j hjk cs hj
    cases bs with
    | nil => cases k <;> rfl
    | cons b bs =>
      obtain ⟨j, rfl⟩ : ∃ j, k = j + 1 := ⟨k - 1, by simp only [List.length_cons] at hk; omega⟩
      simp only [List.length_cons, Nat.add_le_add_iff_right] at hk
      have hbs : huntFrames j bs = huntFrames bs.length bs := ih j (by omega) bs hk
      simp only [List.length_cons, huntFrames]
      split
      · cases hf : nframeAt bs with
        | none => exact hbs
        | some y =>
          obtain ⟨f, rest⟩ := y
          have hr := nframeAt_shorter hf
          have h1 := ih j (by omega) rest (by omega)
          have h2 := ih bs.length (by omega) rest (by omega)
          exact congrArg (f :: ·) (h1.trans h2.symm)
      · exact hbs

theorem framesIn_frame {f : NFrame} (h : f.wellFormed = true) (rest : List Byte) :
    framesIn (f.bytes ++ rest) = f :: framesIn rest := by
  obtain ⟨bs, hbs⟩ : ∃ bs, f.bytes ++ rest = 0xA5#8 :: bs := ⟨_, rfl⟩
  have hat : nframeAt bs = some (f, rest) := by
    have := nframeAt_bytes h rest
    rwa [hbs] at this
  have hr := nframeAt_shorter hat
  rw [hbs]
  show huntFrames (bs.length + 1) (0xA5#8 :: bs) = _
  simp only [huntFrames, if_true, hat]
  exact congrArg (f :: ·) (huntFrames_enough bs.length rest (by omega))

/-- Settles O14. -/
theorem framesRoundTrip : Obligations.FramesRoundTrip :=
  ⟨decodeLaneFrame_covered, fun _ rest h => framesIn_frame h rest⟩

end Sys2Proof.Machine
end

section
/-! PROOF. The agreement of voted requests: when one waits, is refused, or is taken and handed on (R172 to R175),
and what a request taken while OPERATING leaves to its owner. -/

namespace Sys2Proof.Machine

open Sys2Proof

/-! ### What the exchange leaves to read -/

@[simp] theorem Env.timing_heard (v : Env) (l : LaneId) : (v.heard l).timing = v.timing := by
  simp [Env.timing]

@[simp] theorem Env.route?_heard (v : Env) (l : LaneId) (r : Nat) : (v.heard l).route? r = v.route? r := by
  simp [Env.route?]

@[simp] theorem Env.boundary?_heard (v : Env) (l : LaneId) (b : Nat) :
    (v.heard l).boundary? b = v.boundary? b := by
  simp [Env.boundary?]

@[simp] theorem Env.link?_heard (v : Env) (l : LaneId) (k : Nat) : (v.heard l).link? k = v.link? k := by
  simp [Env.link?]

@[simp] theorem Env.element?_heard (v : Env) (l : LaneId) (n : Nat) :
    (v.heard l).element? n = v.element? n := by
  simp [Env.element?]

/-! ### A request that is not taken -/

theorem State.voted_not_taken {s : State} {x : Exchange} {q : Request} {own : State → State}
    (h : (vote (s.exchange x).env x.lane q (s.exchange x).live).2 = false) :
    s.voted x q own
      = { s.exchange x with live := (vote (s.exchange x).env x.lane q (s.exchange x).live).1 } := by
  simp [State.voted, h]

/-- A voted request is left to the pairing of R172 unless lane mode is not NORMAL. -/
theorem vote_of_normal {v : Env} {l : LaneId} {q : Request} {d : Live}
    (h : v.operating = true → v.mode = .normal) : vote v l q d = pairOrWait v l q d := by
  unfold vote
  cases ho : v.operating with
  | false => rfl
  | true => simp [h ho]

theorem vote_of_degraded {v : Env} {l : LaneId} {q : Request} {d : Live} (ho : v.operating = true)
    (hm : v.mode ≠ .normal) (hq : isRejoin q = false)
    (ha : v.present l = false ∨ takenAlone q = false) :
    vote v l q d = (d.reportTo l (refusal q .laneDegraded), false) := by
  have hb : (v.present l && takenAlone q) = false := by rcases ha with h | h <;> simp [h]
  simp [vote, ho, hm, hq, hb]

theorem pairOrWait_of_room {v : Env} {l : LaneId} {q : Request} {d : Live}
    (hn : ∀ e ∈ (d.lane l.other).requests, e.request ≠ q)
    (hl : (d.lane l).requests.length < Config.pendingCapacity) :
    pairOrWait v l q d = (d.setLane l (fun p => { p with
      requests := p.requests ++ [{ request := q, arrival := v.now, expiry := after v.now v.window }] }),
      false) := by
  have hany : (d.lane l.other).requests.any (fun e => e.request = q) = false := by simpa using hn
  simp [pairOrWait, hany, hl]

theorem pairOrWait_of_full {v : Env} {l : LaneId} {q : Request} {d : Live}
    (hn : ∀ e ∈ (d.lane l.other).requests, e.request ≠ q)
    (hl : Config.pendingCapacity ≤ (d.lane l).requests.length) :
    pairOrWait v l q d = (d.reportTo l (refusal q .queueFull), false) := by
  have hany : (d.lane l.other).requests.any (fun e => e.request = q) = false := by simpa using hn
  simp [pairOrWait, hany, Nat.not_lt.2 hl]

theorem takenAlone_false {q : Request}
    (h : ∀ a b, q ≠ .cancelRoute a ∧ q ≠ .releaseEmergency a ∧ q ≠ .ackFault a b ∧ q ≠ .block a
      ∧ q ≠ .stopSet a) : takenAlone q = false := by
  cases q with
  | cancelRoute a | releaseEmergency a | block a | stopSet a => simpa using h a 0
  | ackFault a b => simpa using h a b
  | _ => rfl

theorem isRejoin_false {q : Request} (h : ∀ n, q ≠ .rejoin n) : isRejoin q = false := by
  cases q with
  | rejoin n => exact absurd rfl (h n)
  | _ => rfl

/-- While lane mode is not NORMAL, a request that may not be taken alone is refused to its lane. -/
theorem exec_of_degraded {c : Instr} {x : Exchange} {q : Request} {s : State} (hv : voteOf c = some (x, q))
    (ho : s.env.operating = true) (hm : s.env.mode ≠ .normal) (hq : isRejoin q = false)
    (ha : s.env.present x.lane = false ∨ takenAlone q = false) :
    exec c s = .next { s.exchange x with
      live := (s.exchange x).live.setLane x.lane
        (LanePort.place (.refused (requestKind q) (requestOperand q) .laneDegraded)) } := by
  have hvote : vote (s.exchange x).env x.lane q (s.exchange x).live = _ :=
    vote_of_degraded (by simpa [State.exchange_env] using ho) (by simpa [State.exchange_env] using hm) hq
      (by simpa [State.exchange_env] using ha)
  rw [exec_of_vote hv, State.voted_not_taken (by rw [hvote]), hvote]
  rfl

/-- A request that nothing matches is not taken. -/
theorem exec_of_unmatched {c : Instr} {x : Exchange} {q : Request} {s : State} {d : Live}
    (hv : voteOf c = some (x, q)) (hm : s.env.operating = true → s.env.mode = .normal)
    (hp : pairOrWait (s.exchange x).env x.lane q (s.exchange x).live = (d, false)) :
    exec c s = .next { s.exchange x with live := d } := by
  have hvote : vote (s.exchange x).env x.lane q (s.exchange x).live = (d, false) := by
    rw [vote_of_normal (by simpa [State.exchange_env] using hm), hp]
  rw [exec_of_vote hv, State.voted_not_taken (by rw [hvote]), hvote]

/-- Settles O24: the pairing finds no match and room or none; outside NORMAL the vote refuses. -/
theorem untakenRequestWaitsOrIsRefused : Obligations.UntakenRequestWaitsOrIsRefused := by
  constructor
  · intro c x q s hv hm hn
    have hn' : ∀ e ∈ ((s.exchange x).live.lane x.lane.other).requests, e.request ≠ q := by simpa using hn
    have hr : ((s.exchange x).live.lane x.lane).requests.length = (s.live.lane x.lane).requests.length := by
      simp
    have hw : (s.exchange x).env.window = if s.env.operating then s.env.timing.window else 250 := by
      simp [Env.window, State.exchange_env, Config.loadWindow]
    have hnow : (s.exchange x).env.now = s.env.now := by simp [State.exchange_env]
    constructor
    · intro hl
      refine ⟨_, exec_of_unmatched hv hm (pairOrWait_of_room hn' (hr ▸ hl)), rfl,
        State.exchange_pending s x, ?_⟩
      rw [hnow, hw]
    · intro hl
      exact ⟨_, exec_of_unmatched hv hm (pairOrWait_of_full hn' (hr ▸ hl)), rfl,
        State.exchange_pending s x, rfl⟩
  · intro c x q s hv ho hm hj ha
    exact ⟨_, exec_of_degraded hv ho hm (isRejoin_false hj) (ha.imp_right takenAlone_false), rfl,
      State.exchange_pending s x, rfl⟩

/-! ### A request that is taken -/

theorem exec_of_pairs {c : Instr} {x : Exchange} {q : Request} {s : State} (hv : voteOf c = some (x, q))
    (hp : s.pairs x q) : exec c s = .next ((s.paired x q).hand q (ownerOf c)) := by
  rw [exec_of_vote hv, State.voted_of_pairs s x q _ hp]

theorem exec_of_taken {c : Instr} {x : Exchange} {q : Request} {s p : State} (hv : voteOf c = some (x, q))
    (ht : s.takenAs x q p) : exec c s = .next (p.hand q (ownerOf c)) := by
  rw [exec_of_vote hv, takenAs_voted s p x q _ ht]

theorem gate_paired (s : State) (x : Exchange) (q r : Request) :
    gate (s.paired x q).env r = gate s.env r := by
  simp [gate]

/-- A taken request that the part state refuses. -/
theorem exec_of_gate {c : Instr} {x : Exchange} {q : Request} {s : State} {r : Reason}
    (hv : voteOf c = some (x, q)) (hp : s.pairs x q) (hg : gate s.env q = some r) :
    exec c s = .next { s.paired x q with
      live := (s.paired x q).live.report (.refused (requestKind q) (requestOperand q) r) } := by
  rw [exec_of_pairs hv hp, State.hand_of_refused _ _ _ r (by rw [gate_paired, hg])]
  rfl

/-- A taken request that the part state hands on. -/
theorem exec_of_handed {c : Instr} {x : Exchange} {q : Request} {s : State} (hv : voteOf c = some (x, q))
    (hp : s.pairs x q) (hg : gate s.env q = none) : exec c s = .next (ownerOf c (s.paired x q)) := by
  rw [exec_of_pairs hv hp, State.hand_of_gate _ _ _ (by rw [gate_paired, hg])]

theorem gate_of_not_load {c : Instr} {x : Exchange} {q : Request} {v : Env} (hv : voteOf c = some (x, q))
    (hl : endsSet c = false) (ho : v.operating = true) : gate v q = none := by
  have hpart := part_of_operating ho
  cases c with
  | loadBegin y => simp [endsSet] at hl
  | loadRecord y p => simp [endsSet] at hl
  | loadEnd y g => simp [endsSet] at hl
  | _ => cases hv <;> simp [gate, hpart]

theorem gate_of_not_operating {v : Env} {q : Request} (h : v.part ≠ .operating) (hb : q ≠ .loadBegin)
    (hu : q ≠ .restart 1)
    (hl : v.part = .unconfigured ∨ ((∀ p, q ≠ .loadRecord p) ∧ ∀ g, q ≠ .loadEnd g)) :
    gate v q = some .notConfigured := by
  rcases hl with hp | ⟨hr, he⟩
  · cases q with
    | loadBegin => exact absurd rfl hb
    | restart o => simp [gate, hp, show o ≠ 1 from fun k => hu (k ▸ rfl)]
    | _ => simp [gate, hp]
  · exact gate_not_operating v q (by simpa [Env.operating] using h) hu hb hr he

/-- Settles O25: the part state's gate, by the request. -/
theorem partStateGatesTakenRequests : Obligations.PartStateGatesTakenRequests := by
  intro c x q s hv hp
  constructor
  · intro ho hb hu hl
    refine ⟨_, exec_of_gate hv hp ?_, rfl, State.paired_pending s x q, rfl⟩
    exact gate_of_not_operating ho hb hu hl
  · intro ho hq
    refine ⟨_, exec_of_gate hv hp ?_, rfl, State.paired_pending s x q, rfl⟩
    have hpart := part_of_operating ho
    rcases hq with rfl | ⟨p, rfl⟩ | ⟨g, rfl⟩ <;> simp [gate, hpart]

/-! ### The owner's act -/

theorem exec_of_operating {c : Instr} {x : Exchange} {q : Request} {s : State} (hv : voteOf c = some (x, q))
    (hp : s.pairs x q) (hl : endsSet c = false) (ho : s.env.operating = true) :
    exec c s = .next (ownerOf c (s.paired x q)) :=
  exec_of_handed hv hp (gate_of_not_load hv hl ho)

/-- A taken request whose owner acts on the live state, and asks for no re-evaluation. -/
theorem exec_of_act {c : Instr} {x : Exchange} {q : Request} {s : State} {f : Env → Live → Live}
    (hv : voteOf c = some (x, q)) (hp : s.pairs x q) (hl : endsSet c = false) (ho : s.env.operating = true)
    (hf : ownerOf c = State.act f) (hr : (f (s.paired x q).env (s.paired x q).live).reeval = false) :
    exec c s
      = .next { s.paired x q with live := f (s.paired x q).env (s.paired x q).live } := by
  rw [exec_of_operating hv hp hl ho, hf, State.act_of_not_asked _ _ hr]

/-- A taken request that its owner refuses to both lanes. -/
theorem exec_of_refusal {c : Instr} {x : Exchange} {q : Request} {s : State} {f : Env → Live → Live}
    {r : Reason} (hv : voteOf c = some (x, q)) (hp : s.pairs x q) (hl : endsSet c = false)
    (ho : s.env.operating = true) (hr : s.live.reeval = false) (hf : ownerOf c = State.act f)
    (h : f (s.paired x q).env (s.paired x q).live = refuseBoth q r (s.paired x q).live) :
    exec c s = .next { s.paired x q with
      live := (s.paired x q).live.report (.refused (requestKind q) (requestOperand q) r) } := by
  rw [exec_of_act hv hp hl ho hf (by rw [h]; simpa [refuseBoth] using hr), h]
  rfl

/-- A timer or a neighbour's frame whose act asks for no re-evaluation. -/
theorem exec_of_effect_alone {c : Instr} {f : Env → Live → Live} {s : State} (h : effectOf c = some f)
    (hr : (f s.env s.live).reeval = false) : exec c s = .next { s with live := f s.env s.live } := by
  rw [exec_of_effect h, State.act_of_not_asked _ _ hr]

/-! ### The agreement window -/

theorem dueEntry_of_first {now : Time} {before after_ : List PendingEntry} {e : PendingEntry}
    (hb : ∀ y ∈ before, reached now y.expiry = false) (he : reached now e.expiry = true) :
    dueEntry now (before ++ e :: after_) = some e
      ∧ dropDue now (before ++ e :: after_) = before ++ after_ := by
  induction before with
  | nil => simp [dueEntry, dropDue, he]
  | cons y ys ih =>
    obtain ⟨h1, h2⟩ := ih (fun z hz => hb z (List.mem_cons_of_mem _ hz))
    have hy := hb y (List.mem_cons_self ..)
    simp only [List.cons_append, dueEntry, List.find?_cons, hy, dropDue] at h1 h2 ⊢
    exact ⟨h1, by simp [h2]⟩

theorem setLane_requests (d : Live) (l : LaneId) (f : LanePort → List PendingEntry) :
    d.setLane l (fun p => { p with requests := f p })
      = d.setLane l (fun p => { p with requests := f (d.lane l) }) := by
  cases l <;> rfl

/-- Settles O26: `dueEntry` and `dropDue` single out the first entry due. -/
theorem windowExpiryRefusesEntry : Obligations.WindowExpiryRefusesEntry := by
  intro l before after_ e s hl hb he hr
  obtain ⟨h1, h2⟩ := dueEntry_of_first hb he
  have h : windowDue l s.env s.live = (s.live.setLane l (fun p => { p with
      requests := before ++ after_ })).report
        (.refused (requestKind e.request) (requestOperand e.request) .agreementTimeout) := by
    unfold windowDue
    rw [hl, h1, setLane_requests s.live l (fun p => dropDue s.env.now p.requests), hl, h2]
    rfl
  exact ⟨_, exec_of_effect_alone rfl (by rw [h]; simpa using hr), rfl, rfl, h⟩


end Sys2Proof.Machine
end

section
/-! PROOF. The Element Table's events (R6 to R14): one pair of a DETECT, the pick-up and the discrepancy
expiry; and the expiries that end one timer or record alone (R13, R99, R126, R158, R177). -/

namespace Sys2Proof.Machine

open Sys2Proof

/-! ### Elements changed in place -/

theorem element?_setElement_self {v : Env} {n : Nat} {e : Element} (f : Element → Element)
    (hf : ∀ e, (f e).num = e.num) (h : v.element? n = some e) :
    (v.setElement n f).element? n = some (f e) := by
  rw [Env.element?_setElement v n n f hf, if_pos rfl, h]
  rfl

theorem element?_setElement_ne {v : Env} {n m : Nat} (f : Element → Element)
    (hf : ∀ e, (f e).num = e.num) (h : m ≠ n) : (v.setElement n f).element? m = v.element? m := by
  rw [Env.element?_setElement v n m f hf, if_neg h]

theorem Env.with_elements {v : Env} {es : List Element} (h : v.elements = es) : { v with elements := es } = v := by
  subst h
  rfl

/-! ### DETECT -/

/-- A pair that belongs to its element, with a value that its view does not hold yet. -/
theorem applyPair_new {l : LaneId} {s : State} {n c : Nat} {y : Detection} {e : Element}
    (he : s.env.element? n = some e) (hc : detectionOf c = some y) (ht : e.dfn.kind.takes y = true)
    (hv : e.view l ≠ some y) :
    s.applyPair l (n, c) = s.updateElement n (fun k => s.env.derive (k.setView l (some y))) := by
  have hp : s.env.pairValue (n, c) = some y := by simp [Env.pairValue, he, hc, ht]
  unfold State.applyPair
  rw [hp]
  simp [Env.elementIs, he, hv]

/-- A pair that names nothing, or a value that does not belong to what it names. -/
theorem applyPair_foreign {l : LaneId} {s : State} {p : Nat × Nat}
    (h : s.env.element? p.1 = none
      ∨ ∃ e, s.env.element? p.1 = some e ∧ ∀ y, detectionOf p.2 = some y → e.dfn.kind.takes y = false) :
    s.applyPair l p = s := by
  have hp : s.env.pairValue p = none := by
    rcases h with h | ⟨e, h, hy⟩
    · simp [Env.pairValue, h]
    · cases hd : detectionOf p.2 with
      | none => simp [Env.pairValue, h, hd]
      | some y => simp [Env.pairValue, h, hd, hy y hd]
  unfold State.applyPair
  rw [hp]

theorem applyPairs_foreign {l : LaneId} {ps : List (Nat × Nat)} {s : State}
    (h : ∀ p ∈ ps, s.env.element? p.1 = none
      ∨ ∃ e, s.env.element? p.1 = some e ∧ ∀ y, detectionOf p.2 = some y → e.dfn.kind.takes y = false) :
    s.applyPairs l ps = s := by
  unfold State.applyPairs
  split
  · refine List.foldlRecOn (motive := fun t => t = s) ps _ rfl (fun t ht p hp => ?_)
    subst ht
    exact applyPair_foreign (h p hp)
  · rfl

theorem applyPairs_one {l : LaneId} {s : State} (ho : s.env.operating = true) (hp : s.env.present l = true)
    (p : Nat × Nat) : s.applyPairs l [p] = s.applyPair l p := by
  simp [State.applyPairs, ho, hp]

/-- Settles O19. -/
theorem detectUpdatesViewAndAgreedValue : Obligations.DetectUpdatesViewAndAgreedValue := by
  constructor
  · intro x n c y e s ho hm he hc ht hv
    have heu : (s.exchange x).env.element? n = some e := (element?_exchange s x n).trans he
    have hmu : (s.exchange x).env.mode = .normal := by simpa [State.exchange_env] using hm
    have hexec : exec (.detect x [(n, c)]) s
        = .next ((s.exchange x).updateElement n
          (fun k => (s.exchange x).env.derive (k.setView x.lane (some y)))) := by
      show Host.Outcome.next ((s.exchange x).applyPairs x.lane [(n, c)]) = _
      rw [applyPairs_one ((operating_exchange s x).trans ho)
        (Env.present_of_normal hmu x.lane), applyPair_new heu hc ht hv]
    have henv := State.updateElement_env n
      (fun k => (s.exchange x).env.derive (k.setView x.lane (some y))) (s.exchange x) e heu
    refine ⟨_, (s.exchange x).env.derive (e.setView x.lane (some y)), hexec, ?_, ?_, ?_, ?_, ?_, ?_, ?_, ?_, ?_⟩
    · rw [henv]
      exact element?_setElement_self _ (by simp) heu
    · simp
    · simp [Element.view_setView]
    · rw [Env.derive_agreed, Env.deriveAgreed_normal hmu _ x.lane y (by simp [Element.view_setView])]
      simp [Element.view_setView]
    · simp
    · simp
    · intro m hmn
      rw [henv, element?_setElement_ne _ (by simp) hmn, element?_exchange]
    · rw [henv, State.exchange_env]
      exact Env.with_elements (Env.heard_elements s.env x.lane)
    · simp
  · intro x ps s h
    show Host.Outcome.next ((s.exchange x).applyPairs x.lane ps) = _
    congr 1
    rcases h with h | h | h
    · simp [State.applyPairs, operating_exchange, h]
    · have hp : (s.exchange x).env.present x.lane = false := by simpa [State.exchange_env] using h
      simp [State.applyPairs, hp]
    · exact applyPairs_foreign (by simpa [element?_exchange] using h)

/-! ### Expiries of an element record -/

/-- Settles O20. -/
theorem pickUpExpiryClearsSection : Obligations.PickUpExpiryClearsSection := by
  intro n e at_ s he hp hd
  have hdue : s.env.elementIs n (fun e => due s.env.now e.pickUp) = true := by
    simp [Env.elementIs, he, hp, due, hd]
  have hexec : exec (.pickUpExpiry n) s
      = .next (s.updateElement n (fun e => { e with occupied := false, pickUp := none })) := by
    show Host.Outcome.next (if _ then _ else _) = _
    rw [if_pos hdue]
  have henv := State.updateElement_env n (fun e => { e with occupied := false, pickUp := none }) s e he
  refine ⟨_, hexec, ?_, ?_, ?_, by simp⟩
  · rw [henv]
    exact element?_setElement_self _ (fun _ => by rfl) he
  · intro m hm
    rw [henv]
    exact element?_setElement_ne _ (fun _ => by rfl) hm
  · rw [henv]
    rfl

/-- What one raise leaves of the rest of the live state. -/
theorem raise_leaves (v : Env) (n : Nat) (k : FaultKind) (d : Live) :
    (∀ m, m ≠ n → ((raise v n k none d).control m).faults = (d.control m).faults)
      ∧ d.claimsStand (raise v n k none d) ∧ d.throwsStand (raise v n k none d)
      ∧ d.handoverStands (raise v n k none d) ∧ d.portsStand (raise v n k none d)
      ∧ d.slotsJudged (raise v n k none d) ∧ (raise v n k none d).stored = d.stored := by
  have h := watched_raise v n k none d
  refine ⟨fun m hm => ?_, h.claimsStand, h.throwsStand, h.handoverStands, h.portsStand, h.slotsJudged,
    h.stored⟩
  rw [raise_faults, if_neg (fun hc => hm hc.1)]

theorem discrepancyDue_raises {n : Nat} {e : Element} {at_ : Time} {s : State}
    (he : s.env.element? n = some e) (hx : e.discExpiry = some at_) (hd : reached s.env.now at_ = true)
    (hr : s.live.reeval = false) :
    exec (.discrepancyExpiry n) s = .next { s with
      env := s.env.setElement n (fun e => { e with discExpiry := none, discrepant := true })
      live := raise (s.env.setElement n (fun e => { e with discExpiry := none, discrepant := true })) n
        .discrepant none s.live } := by
  have hdue : s.env.elementIs n (fun e => due s.env.now e.discExpiry) = true := by
    simp [Env.elementIs, he, hx, due, hd]
  show Host.Outcome.next (s.discrepancyDue n) = _
  unfold State.discrepancyDue
  rw [if_pos hdue]
  dsimp only
  rw [serve_of_not_asked _ _ (by rw [reeval_raise]; exact hr)]

/-- The live state with an element's confirmation put away. -/
def Live.unconfirmed (d : Live) (n : Nat) : Live := d.setControl n (fun c => { c with confirm := none })

theorem watched_unconfirmed (d : Live) (n : Nat) : Watched d (d.unconfirmed n) :=
  watched_setControl d n _ (fun _ => by rfl)

/-- Settles O23: each expiry is one raise, after the timer is put away. -/
theorem detectionExpiriesRaiseFaults : Obligations.DetectionExpiriesRaiseFaults := by
  constructor
  · intro n e at_ s he hc hx hd hr
    obtain ⟨hf, hcl, hth, hho, hpo, hsl, hst⟩ := raise_leaves
      (s.env.setElement n (fun e => { e with discExpiry := none, discrepant := true })) n .discrepant s.live
    exact ⟨_, discrepancyDue_raises he hx hd hr, element?_setElement_self _ (fun _ => by rfl) he,
      fun m hm => element?_setElement_ne _ (fun _ => by rfl) hm, rfl, raise_raised _ _ _ _ _ hc rfl,
      hf, hcl, hth, hho, hpo, hsl, hst, rfl⟩
  · intro n at_ s hx hd hc hr
    generalize hk : (if s.env.elementIs n Element.isPoint then FaultKind.lostDetection else .lampFail) = k
    have hgone : k.goneAtRaise = false := by
      subst hk
      split <;> rfl
    have hdue : confirmDue n s.env s.live = raise s.env n k none (s.live.unconfirmed n) := by
      unfold confirmDue
      rw [hx, ← hk]
      simp only [due, hd, if_true]
      rfl
    have hnum : (s.live.unconfirmed n).hasControl n := by
      unfold Live.hasControl Live.unconfirmed
      rw [Live.setControl_nums _ _ _ (fun _ => by rfl)]
      exact hc
    have hw := (watched_unconfirmed s.live n).trans (watched_raise s.env n k none _)
    refine ⟨_, exec_of_effect_alone rfl (by rw [hdue, reeval_raise]; exact hr), rfl, rfl, ?_⟩
    rw [hdue]
    refine ⟨raise_raised _ _ _ _ _ hnum hgone, ?_, ?_, hw.claimsStand, hw.throwsStand, hw.handoverStands,
      hw.portsStand, hw.slotsJudged, hw.stored⟩
    · rw [raise_confirm, Live.unconfirmed, Live.control_setControl_self _ hc _ (fun _ => by rfl)]
    · intro m hm
      rw [raise_faults, if_neg (fun h => hm h.1), Live.unconfirmed,
        Live.control_setControl_ne _ hm _ (fun _ => by rfl)]

/-! ### Expiries that end one thing -/

theorem hasControl_of_speed {d : Live} {n : Nat} {q : Speed} (h : (d.control n).speed = some q) :
    d.hasControl n := by
  unfold Live.control at h
  split at h
  · next c hc =>
    have hn : c.num = n := by simpa using List.find?_some hc
    exact List.mem_map.2 ⟨c, List.mem_of_find?_eq_some hc, hn⟩
  · simp [Control.fresh] at h

theorem staggerDue_of_due {n : Nat} {at_ : Time} {v : Env} {d : Live}
    (h : (d.powerGroup n).stagger = some at_) (hd : reached v.now at_ = true) (ho : d.orders = []) :
    staggerDue n v d = d.setPower n (fun y =>
      if (v.power n).separated then { y with stagger := none, lastEnd := none }
      else { y with stagger := none, lastStart := none }) := by
  unfold staggerDue
  rw [h]
  simp only [due, hd, if_true]
  exact runArbiter_of_no_orders _ _ _ _ (by simpa using ho)

/-- Settles O45. -/
theorem quietExpiriesEndOneTimer : Obligations.QuietExpiriesEndOneTimer := by
  intro n at_ s hr
  refine ⟨?_, ?_, ?_, ?_, ?_⟩
  · intro h hd
    show Host.Outcome.next (if _ then _ else _) = _
    rw [if_pos (by rw [h]; exact hd)]
  · intro e he ho ha
    have hdue : s.env.elementIs n (occAged s.env.now) = true := by
      simp [Env.elementIs, he, occAged, ho, ha]
    refine ⟨{ s with env := s.env.setElement n (fun e => { e with occTime := none }) }, ?_,
      element?_setElement_self _ (fun _ => by rfl) he, fun m hm => element?_setElement_ne _ (fun _ => by rfl) hm,
      rfl, rfl, rfl⟩
    show Host.Outcome.next (if _ then _ else _) = _
    rw [if_pos hdue]
  · intro q hq hs
    have h : speedAged n s.env s.live = s.live.setControl n (fun c => { c with speed := none }) := by
      unfold speedAged
      rw [hq]
      simp [speedStale, hs]
    refine ⟨_, exec_of_effect_alone rfl (by rw [h]; exact hr), rfl, rfl, h, ?_⟩
    rw [h, Live.control_setControl_self _ (hasControl_of_speed hq) _ (fun _ => by rfl)]
  · intro hq hd
    have h : dirRequestDue n s.env s.live = s.live.setBoundary n (fun y => { y with reqExpiry := none }) := by
      unfold dirRequestDue
      rw [hq]
      simp [due, hd]
    exact ⟨_, exec_of_effect_alone rfl (by rw [h]; exact hr), rfl, rfl, h⟩
  · intro hq hd ho
    have h := staggerDue_of_due hq hd ho
    exact ⟨_, exec_of_effect_alone rfl (by rw [h]; exact hr), rfl, rfl, h⟩

end Sys2Proof.Machine
end

section
/-! PROOF. The route requests that no placement answers (R57 to R61, R66, R122, R125), the approach hold (R129)
and the computed aspect (R78). -/

namespace Sys2Proof.Machine

open Sys2Proof

/-! ### The approach hold -/

/-- Settles O30. -/
theorem approachHoldWithinLimits : Obligations.ApproachHoldWithinLimits := by
  intro v d rt hlim
  constructor
  · intro hz
    simp [approachHold, hz]
  · intro hz
    cases hm : rt.main with
    | false =>
      have h : approachHold v d rt = v.timing.holdMin := by simp [approachHold, hz, hm]
      exact ⟨h.ge, h.le.trans hlim, fun _ => h, nofun⟩
    | true =>
      cases hs : (d.control rt.entry).speed with
      | none =>
        have h : approachHold v d rt = v.timing.holdMax := by simp [approachHold, hz, hm, hs]
        exact ⟨h ▸ hlim, h.le, nofun, fun _ _ => h⟩
      | some q =>
        have h : approachHold v d rt = if v.mode ≠ .normal ∨ 1000 * v.timing.speedValid < elapsed q.time v.now
            then v.timing.holdMax
            else min v.timing.holdMax (max v.timing.holdMin
              (v.timing.react + ceilDiv (q.v * 10) v.timing.braking)) := by
          simp [approachHold, hz, hm, hs, speedStale]
        refine ⟨?_, ?_, nofun, fun _ hk => ?_⟩
        · rw [h]
          split <;> omega
        · rw [h]
          split <;> omega
        · rw [h, if_pos]
          rcases hk with hk | hk | ⟨q', hq', hk⟩
          · exact .inl hk
          · contradiction
          · cases hq'
            exact .inr hk

/-! ### The computed aspect -/

theorem clearedFrom_slot {v : Env} {d : Live} {sig : Nat} {rt : RouteDef} (h : clearedFrom v d sig = some rt) :
    ∃ i, (d.slot i).state = .clear ∧ d.routeOf v i = some rt ∧ rt.entry = sig := by
  obtain ⟨i, _, hi⟩ := List.exists_of_findSome?_eq_some h
  split at hi
  · next hc =>
    split at hi
    · next r hr =>
      split at hi
      · next he =>
        cases hi
        exact ⟨i, hc, hr, he⟩
      · contradiction
    · contradiction
  · contradiction

theorem forcedStop_eq_false {v : Env} {d : Live} {sig : Nat} :
    forcedStop v d sig = false ↔ v.mode = .normal ∧ inActiveGroup v d sig = false
      ∧ (d.control sig).holdCount = 0 ∧ v.blocked sig = false := by
  simp [forcedStop, and_assoc]

/-- Settles O31. -/
theorem aspectProceedsOnlyFromClearSlot : Obligations.AspectProceedsOnlyFromClearSlot := by
  intro v d sig
  constructor
  · intro h
    unfold wantedAspect at h
    split at h
    · next rt hc =>
      cases hf : forcedStop v d sig with
      | true => simp [hf] at h
      | false =>
        obtain ⟨hm, hg, hh, hb⟩ := forcedStop_eq_false.1 hf
        obtain ⟨i, hi⟩ := clearedFrom_slot hc
        refine ⟨⟨i, rt, hi⟩, hm, hh, hb, fun g hgl ha => ?_⟩
        have hany := List.any_eq_false.1 hg g (List.mem_range.2 hgl)
        simpa [ha] using hany
    · contradiction
  · intro rt hc hf hm
    simp [wantedAspect, hc, hf, routeAspect, hm]

/-! ### The stored request queue -/

theorem insertStored_find {now : Time} {x : Stored} {l : List Stored} (h : ∀ y ∈ l, y.route ≠ x.route) :
    (insertStored now x l).find? (fun y => y.route = x.route) = some x := by
  induction l with
  | nil => simp [insertStored]
  | cons y ys ih =>
    have hy := h y (List.mem_cons_self ..)
    simp only [insertStored]
    split
    · simp
    · simp [hy, ih (fun z hz => h z (List.mem_cons_of_mem _ hz))]

theorem insertStored_filter (now : Time) (x : Stored) (l : List Stored) :
    (insertStored now x l).filter (fun y => y.route != x.route) = l.filter (fun y => y.route != x.route) := by
  induction l with
  | nil => simp [insertStored]
  | cons y ys ih =>
    simp only [insertStored]
    split
    · simp
    · simp [List.filter_cons, ih]

theorem stored?_route {d : Live} {r : Nat} {e : Stored} (h : d.stored? r = some e) : e.route = r := by
  simpa using List.find?_some h

/-- A stored entry taken up again with another priority keeps its arrival and expiry, and its queue. -/
theorem restore_stored {v : Env} {d : Live} {r priority : Nat} {e : Stored} (h : d.stored? r = some e) :
    (restore v e priority d).stored? r = some { e with priority := priority }
      ∧ (restore v e priority d).stored.filter (fun y => y.route != r)
        = d.stored.filter (fun y => y.route != r) := by
  have hr : e.route = r := stored?_route h
  subst hr
  by_cases hp : e.priority = priority
  · subst hp
    have hq : (restore v e e.priority d).stored = d.stored := by simp [restore]
    exact ⟨by unfold Live.stored?; rw [hq]; exact h, by rw [hq]⟩
  · have hq : (restore v e priority d).stored
        = insertStored v.now { e with priority := priority } (d.stored.filter (fun y => y.route != e.route)) := by
      simp [restore, hp, Live.dropStored]
    constructor
    · unfold Live.stored?
      rw [hq]
      exact insertStored_find (x := { e with priority := priority }) (by simp)
    · rw [hq]
      exact (insertStored_filter _ { e with priority := priority } _).trans (by simp)

/-- The tests of R57 passed. -/
theorem setRouteRefusal_none {v : Env} {r priority store : Nat} {rt : RouteDef} (hm : v.mode = .normal)
    (hs : v.startHold = none) (hr : v.route? r = some rt) (hp : priority ≤ 3) (hst : store ≤ 1) :
    setRouteRefusal v r priority store = none := by
  simp [setRouteRefusal, hm, hs, hr, Nat.not_lt.2 hp, Nat.not_lt.2 hst]

section paired
variable {s : State} {x : Exchange} {q : Request}

theorem route?_paired (r : Nat) : (s.paired x q).env.route? r = s.env.route? r := by simp

theorem slotOf_paired (r : Nat) : (s.paired x q).live.slotOf r = s.live.slotOf r :=
  live_of_paired (fun d => d.slotOf r) s x q

theorem stored?_paired (r : Nat) : (s.paired x q).live.stored? r = s.live.stored? r :=
  live_of_paired (fun d => d.stored? r) s x q

theorem freeSlot_paired : (s.paired x q).live.freeSlot = s.live.freeSlot :=
  live_of_paired (fun d => d.freeSlot) s x q

theorem slot_paired : (s.paired x q).live.slot = s.live.slot := live_of_paired (fun d => d.slot) s x q

theorem mode_paired (h : s.pairs x q) (ho : s.env.operating = true) : (s.paired x q).env.mode = .normal := by
  simpa using h.2 ho

end paired

/-- Settles O32. -/
theorem storedEntryExpires : Obligations.StoredEntryExpires := by
  intro r e s he hr
  refine ⟨?_, ?_, ?_⟩
  · intro at_ hx hd
    have h : storedDue r s.env s.live = (s.live.setStored (s.live.stored.filter (fun y => y.route != r))).report
        (.routeState r none .free (some .expired)) := by
      unfold storedDue
      rw [he]
      simp only [hx, due, hd, if_true]
      rfl
    exact ⟨_, exec_of_effect_alone rfl (by rw [h]; simpa using hr), rfl, rfl, h⟩
  · intro hx
    have hnot : due s.env.now e.expiry = false := by
      rcases hx with hx | ⟨at_, hx, hd⟩
      · rw [hx]; rfl
      · rw [hx]; exact hd
    have h : storedDue r s.env s.live = s.live := by
      unfold storedDue
      rw [he]
      simp [hnot]
    rw [exec_of_effect_alone (c := .storedExpiry r) rfl (by rw [h]; exact hr), h]
  · intro x priority store rt ho hp hs hrt hpr hst hsl
    have h : takeSetRoute r priority store (s.paired x (.setRoute r priority store)).env
        (s.paired x (.setRoute r priority store)).live
        = restore (s.paired x (.setRoute r priority store)).env e priority
          (s.paired x (.setRoute r priority store)).live := by
      unfold takeSetRoute
      rw [setRouteRefusal_none (mode_paired hp ho) (by simpa using hs) ((route?_paired r).trans hrt) hpr hst,
        route?_paired, hrt, slotOf_paired, hsl, stored?_paired, he]
    obtain ⟨h1, h2⟩ := restore_stored (v := (s.paired x (.setRoute r priority store)).env)
      (priority := priority) ((stored?_paired (x := x) (q := .setRoute r priority store) r).trans he)
    refine ⟨_, exec_of_act rfl hp rfl ho rfl (by rw [h]; simpa [restore] using hr), rfl, ?_, ?_, ?_⟩
    · rw [h]; exact h1
    · rw [h, h2, State.paired_stored]
    · rw [h]
      exact (stored?_route he) ▸ (made_report _ _).of_same (fun l => by cases l <;> rfl)

/-! ### SET_ROUTE refused or stored -/

/-- A route that cannot be taken up. -/
theorem storeOrRefuse_eq {v : Env} {d : Live} {rt : RouteDef} {r priority store : Nat} {why : Reason}
    (hn : rt.number = r) :
    storeOrRefuse v rt priority store why d =
      if rt.storable = true ∧ store = 1 then
        if d.stored.length < 16 then
          (d.setStored (insertStored v.now { route := r, priority := priority, arrival := v.now
                                             expiry := storedExpiryAt v } d.stored)).report
            (.routeState r none .free (some .stored))
        else d.report (.refused 0x20 r .queueFull)
      else d.report (.refused 0x20 r why) := by
  subst hn
  simp only [storeOrRefuse, Bool.and_eq_true, decide_eq_true_eq]
  rfl

theorem setRouteRefusal_bad {v : Env} {r priority store : Nat} (hm : v.mode = .normal)
    (hs : v.startHold = none) (h : v.route? r = none ∨ 3 < priority ∨ 1 < store) :
    setRouteRefusal v r priority store = some .badOperand := by
  rcases h with h | h | h <;> simp [setRouteRefusal, hm, hs, h]

/-- A SET_ROUTE that finds no slot free, or a test that fails. -/
theorem takeSetRoute_not_placed {v : Env} {d : Live} {r priority store : Nat} {rt : RouteDef} {why : Reason}
    (hm : v.mode = .normal) (hs : v.startHold = none) (hr : v.route? r = some rt) (hp : priority ≤ 3)
    (hst : store ≤ 1) (hsl : d.slotOf r = none) (hsd : d.stored? r = none)
    (h : (d.freeSlot = none ∧ why = .noSlot)
      ∨ ∃ i, d.freeSlot = some i ∧ place v i rt priority d = .error why) :
    takeSetRoute r priority store v d = storeOrRefuse v rt priority store why d := by
  unfold takeSetRoute
  rw [setRouteRefusal_none hm hs hr hp hst, hr, hsl, hsd]
  rcases h with ⟨hf, rfl⟩ | ⟨i, hf, hpl⟩
  · rw [hf]
  · rw [hf]
    simp [tryTakeUp, hpl]

/-- A SET_ROUTE of a route that a slot other than one in HELD holds. -/
theorem takeSetRoute_again {v : Env} {d : Live} {r priority store i : Nat} {rt : RouteDef} {why : Reason}
    (hm : v.mode = .normal) (hs : v.startHold = none) (hr : v.route? r = some rt) (hp : priority ≤ 3)
    (hst : store ≤ 1) (hsl : d.slotOf r = some i)
    (h : ((d.slot i).state = .cancelling ∧ why = .busy)
      ∨ (((d.slot i).state = .setting ∨ (d.slot i).state = .clear ∨ (d.slot i).state = .entered)
        ∧ why = .alreadySet)) :
    takeSetRoute r priority store v d = d.report (.refused 0x20 r why) := by
  have htake : takeSetRoute r priority store v d = setAgain v (.setRoute r priority store) i d := by
    unfold takeSetRoute
    rw [setRouteRefusal_none hm hs hr hp hst, hr, hsl]
  rw [htake]
  unfold setAgain
  rcases h with ⟨h, rfl⟩ | ⟨h | h | h, rfl⟩ <;>
    · rw [h]
      rfl

theorem takeSetRoute_refused {v : Env} {d : Live} {r priority store : Nat} {why : Reason}
    (h : setRouteRefusal v r priority store = some why) :
    takeSetRoute r priority store v d = d.report (.refused 0x20 r why) := by
  unfold takeSetRoute
  rw [h]
  rfl

/-- What a SET_ROUTE that is not taken up leaves: one refusal, or the queue with the entry stored. -/
def setRouteLeaves (d : Live) (r : Nat) : Except Reason (List Stored) → Live
  | .error why => d.report (.refused 0x20 r why)
  | .ok queue => (d.setStored queue).report (.routeState r none .free (some .stored))

theorem setRouteLeaves_reeval (d : Live) (r : Nat) (out : Except Reason (List Stored)) :
    (setRouteLeaves d r out).reeval = d.reeval := by
  cases out <;> simp [setRouteLeaves]

/-- Settles O28: each case is one branch of `takeSetRoute`. -/
theorem setRouteStoredOrRefused : Obligations.SetRouteStoredOrRefused := by
  intro x r priority store s ho hp hr out hout
  suffices h : takeSetRoute r priority store (s.paired x (.setRoute r priority store)).env
      (s.paired x (.setRoute r priority store)).live
      = setRouteLeaves (s.paired x (.setRoute r priority store)).live r out by
    refine ⟨_, exec_of_act rfl hp rfl ho rfl ?_, rfl, State.paired_pending s x (.setRoute r priority store), ?_⟩
    · rw [h, setRouteLeaves_reeval]
      simpa using hr
    · rw [h]
      cases out <;> rfl
  have hm := mode_paired hp ho
  have hold : ∀ {t}, s.env.startHold = t → (s.paired x (.setRoute r priority store)).env.startHold = t := by
    simp
  rcases hout with ⟨rfl, hs⟩ | ⟨rfl, hs, hbad⟩ | ⟨hs, hrt, hpr, hst, i, hsl, hcase⟩
    | ⟨hs, hpr, hst, hsl, hsd, rt, why, hrt, hplace, hcase⟩
  · refine takeSetRoute_refused ?_
    obtain ⟨t, ht⟩ := Option.ne_none_iff_exists'.1 hs
    simp [setRouteRefusal, -State.paired_env, hm, hold ht]
  · exact takeSetRoute_refused (setRouteRefusal_bad hm (hold hs) (by rwa [route?_paired]))
  · obtain ⟨rt, hrt⟩ := Option.ne_none_iff_exists'.1 hrt
    have again := fun why => takeSetRoute_again (d := (s.paired x (.setRoute r priority store)).live)
      (why := why) hm (hold hs) ((route?_paired r).trans hrt) hpr hst
      ((slotOf_paired r).trans hsl)
    rw [slot_paired] at again
    rcases hcase with ⟨h, rfl⟩ | ⟨h, rfl⟩
    · exact again _ (.inl ⟨h, rfl⟩)
    · exact again _ (.inr ⟨h, rfl⟩)
  · rw [takeSetRoute_not_placed hm (hold hs) ((route?_paired r).trans hrt) hpr hst
      ((slotOf_paired r).trans hsl) ((stored?_paired r).trans hsd) (by rwa [freeSlot_paired]),
      storeOrRefuse_eq (route?_number hrt), State.paired_stored]
    rcases hcase with ⟨h1, h2, h3, rfl⟩ | ⟨h1, h2, h3, rfl⟩ | ⟨h1, rfl⟩
    · rw [if_pos ⟨h1, h2⟩, if_pos h3]
      simp [setRouteLeaves, storedExpiryAt]
    · rw [if_pos ⟨h1, h2⟩, if_neg (Nat.not_lt.2 h3)]
      rfl
    · rw [if_neg (by rcases h1 with h | h <;> simp [h])]
      rfl

/-! ### Holds -/

theorem approachHold_paired (s : State) (x : Exchange) (q : Request) (rt : RouteDef) :
    approachHold (s.paired x q).env (s.paired x q).live rt = approachHold s.env s.live rt :=
  both_of_paired (fun v d => approachHold v d rt) s x q

/-- A CANCEL_ROUTE in CLEAR or HELD with a hold, and a RELEASE_EMERGENCY, are one change of the slot. -/
theorem takes_hold {v : Env} {d : Live} {r i h : Nat} {rt : RouteDef} (hr : v.route? r = some rt)
    (hi : d.slotOf r = some i) :
    (((d.slot i).state = .clear ∨ (d.slot i).state = .held) → h = approachHold v d rt → h ≠ 0 →
      takeCancelRoute r v d = changeSlot v i (Slot.toCancelling (after v.now (1000 * h))) d)
    ∧ (((d.slot i).state = .clear ∨ (d.slot i).state = .held ∨ (d.slot i).state = .entered) →
      h = v.timing.holdMax →
      takeReleaseEmergency r v d = changeSlot v i (Slot.toCancelling (after v.now (1000 * h))) d) := by
  constructor
  · rintro hst rfl hne
    unfold takeCancelRoute
    rw [hr]
    rcases hst with h | h <;> simp [hi, h, cancelSlot, hne]
  · rintro hst rfl
    unfold takeReleaseEmergency
    rw [hr]
    rcases hst with h | h | h <;> simp [hi, h, holdFull]

/-- Settles O29: the stored entry goes by `dropStored`; a hold is `changeSlot` to CANCELLING. -/
theorem cancelAndEmergencyReleaseHoldSlot : Obligations.CancelAndEmergencyReleaseHoldSlot := by
  intro x r rt s ho hrt hr
  constructor
  · intro e hp hsl hsd
    have h : takeCancelRoute r (s.paired x (.cancelRoute r)).env (s.paired x (.cancelRoute r)).live
        = ((s.paired x (.cancelRoute r)).live.setStored
            (s.live.stored.filter (fun y => y.route != r))).report
            (.routeState r none .free (some .storedRemoved)) := by
      unfold takeCancelRoute
      rw [route?_paired, hrt, slotOf_paired, hsl, stored?_paired, hsd, ← State.paired_stored s x (.cancelRoute r)]
      rfl
    exact ⟨_, exec_of_act rfl hp rfl ho rfl (by rw [h]; simpa using hr), rfl,
      State.paired_pending s x (.cancelRoute r), h⟩
  · intro i h c q hsl hp hcase
    have hheld := takes_hold (v := (s.paired x q).env) (d := (s.paired x q).live) (h := h)
      ((route?_paired r).trans hrt) ((slotOf_paired r).trans hsl)
    rw [slot_paired, approachHold_paired] at hheld
    obtain ⟨hcancel, hemergency⟩ := hheld
    have hnow : (s.paired x q).env.now = s.env.now := by simp
    have hmax : (s.paired x q).env.timing.holdMax = s.env.timing.holdMax := by simp
    rw [hnow] at hcancel hemergency
    rw [hmax] at hemergency
    obtain ⟨hi, _, hroute⟩ := slotOf_spec hsl
    obtain ⟨a, b, A, B, hpq⟩ := paired_eq s x q
    obtain ⟨hslot, hothers, hcl, hth, hfa, hho, hpo, hsd, hgr, hre⟩ :=
      toCancelling (s.paired x q).env i (after s.env.now (1000 * h)) s (s.paired x q).live A B
        (by rw [hpq]) hi
    obtain ⟨f, hf, hown, hl, hv⟩ : ∃ f, f (s.paired x q).env (s.paired x q).live
        = changeSlot (s.paired x q).env i (Slot.toCancelling (after s.env.now (1000 * h))) (s.paired x q).live
        ∧ ownerOf c = State.act f ∧ endsSet c = false ∧ voteOf c = some (x, q) := by
      rcases hcase with ⟨rfl, rfl, hst, hh, hne⟩ | ⟨rfl, rfl, hst, hh⟩
      · exact ⟨_, hcancel hst hh hne, rfl, rfl, rfl⟩
      · exact ⟨_, hemergency hst hh, rfl, rfl, rfl⟩
    refine ⟨_, exec_of_act hv hp hl ho hown (by rw [hf, hre]; exact hr), rfl, State.paired_pending s x q, ?_⟩
    rw [hf]
    refine ⟨hslot, hothers, ?_, hcl, hth, hfa, hho, hpo, hsd, hgr⟩
    have hmade := changeSlot_made (s.paired x q).env i (Slot.toCancelling (after s.env.now (1000 * h)))
      (s.paired x q).live
    have hrep : slotReport ((s.paired x q).live.setSlot i (Slot.toCancelling (after s.env.now (1000 * h)))) i none
        = .routeState r (some i) .cancelling none := by
      have hi' : i < (s.paired x q).live.slots.length := by simpa using hi
      unfold slotReport
      rw [setSlot_slot_self hi', slot_paired]
      simp [Slot.toCancelling, hroute]
    rwa [hrep] at hmade

end Sys2Proof.Machine
end

section
/-! PROOF. BLOCK and UNBLOCK (R16, R17), ACK_FAULT by its table (R143), STOP_RELEASE by its table (R134, R135)
and the edges of the area-stop inputs (R131, R132). -/

namespace Sys2Proof.Machine

open Sys2Proof

/-! ### What a taken request leaves to read -/

section taken
variable {s p : State} {x : Exchange} {q : Request} (ht : s.takenAs x q p)
include ht

theorem element?_taken (n : Nat) : p.env.element? n = s.env.element? n :=
  both_of_taken (fun v _ => v.element? n) s p x q ht

theorem elements_taken : p.env.elements = s.env.elements := both_of_taken (fun v _ => v.elements) s p x q ht

theorem operating_taken : p.env.operating = s.env.operating :=
  both_of_taken (fun v _ => v.operating) s p x q ht

theorem reeval_taken : p.live.reeval = s.live.reeval := both_of_taken (fun _ d => d.reeval) s p x q ht

theorem pending_taken : p.pending = s.pending := by
  obtain ⟨a, b, A, B, h⟩ := takenAs_eq s p x q ht
  rw [h]

/-- What a calm act leaves standing of the state that a taken request began with. -/
theorem calm_of_taken {e : Live} (h : Calm p.live e) :
    s.live.claimsStand e ∧ s.live.throwsStand e ∧ s.live.faultsStand e ∧ s.live.handoverStands e
      ∧ s.live.slotsJudged e ∧ p.live.portsStand e ∧ e.stored = s.live.stored ∧ e.groups = s.live.groups := by
  obtain ⟨h1, h2, h3, h4, h5⟩ := stands_of_taken s p x q ht e
  exact ⟨h1 h.claimsStand, h2 h.throwsStand, h3 h.faultsStand, h4 h.handoverStands, h5 h.slotsJudged,
    h.portsStand, h.stored.trans (both_of_taken (fun _ d => d.stored) s p x q ht),
    h.groups.trans (both_of_taken (fun _ d => d.groups) s p x q ht)⟩

end taken

/-- A taken request that its owner may act on. -/
theorem exec_of_taken_handed {c : Instr} {x : Exchange} {q : Request} {s p : State}
    (hv : voteOf c = some (x, q)) (ht : s.takenAs x q p) (hl : endsSet c = false)
    (ho : s.env.operating = true) : exec c s = .next (ownerOf c p) := by
  rw [exec_of_taken hv ht,
    State.hand_of_gate _ _ _ (gate_of_not_load hv hl ((operating_taken ht).trans ho))]

/-! ### BLOCK and UNBLOCK -/

/-- A blocked flag set or cleared: that flag alone, and a judgement of the Route Setter. -/
structure BlockSet (n : Nat) (b : Bool) (e : Element) (p t : State) : Prop where
  pending : t.pending = p.pending
  self : t.env.element? n = some { e with blocked := b }
  others : ∀ m, m ≠ n → t.env.element? m = p.env.element? m
  rest : ({ t.env with elements := p.env.elements } : Env) = p.env
  calm : Calm p.live t.live

theorem blockSet_setBlocked {n : Nat} {b : Bool} {e : Element} {p : State} (he : p.env.element? n = some e) :
    BlockSet n b e p (p.setBlocked n b) := by
  obtain ⟨h1, h2, h3, h4, h5⟩ := setBlocked_all n b p e he
  exact ⟨h5, h1, h2, h3, h4⟩

/-- A flag that stands already as it is asked for. -/
theorem blockSet_same {n : Nat} {b : Bool} {e : Element} {p : State} (he : p.env.element? n = some e)
    (hb : e.blocked = b) : BlockSet n b e p p := by
  refine ⟨rfl, ?_, fun _ _ => rfl, rfl, .refl _⟩
  rw [he, ← hb]

theorem blockable_of {v : Env} {n : Nat} {e : Element} (he : v.element? n = some e) :
    v.blockable n = !e.isBoundary := by
  simp [Env.blockable, Env.elementIs, he]

theorem blockable_false {v : Env} {n : Nat}
    (h : v.element? n = none ∨ ∃ e, v.element? n = some e ∧ e.isBoundary = true) : v.blockable n = false := by
  rcases h with h | ⟨e, h, hb⟩
  · simp [Env.blockable, Env.elementIs, h]
  · simp [blockable_of h, hb]

theorem blockSet_takeBlock {n : Nat} {e : Element} {p : State} (he : p.env.element? n = some e)
    (hb : e.isBoundary = false) : BlockSet n true e p (takeBlock n p) := by
  unfold takeBlock
  rw [blockable_of he, hb]
  simp only [Bool.not_false, Bool.not_true, Bool.false_eq_true, if_false]
  split
  · next h => exact blockSet_same he (by simpa [Env.blocked, Env.elementIs, he] using h)
  · exact blockSet_setBlocked he

/-- With no order pending and nothing stored an UNBLOCK hands nothing on that changes anything. -/
theorem act_unblockHandOn {n : Nat} {s : State} (ho : s.live.orders = []) (hs : s.live.stored = [])
    (hr : s.live.reeval = false) : s.act (unblockHandOn n) = s := by
  have h : unblockHandOn n s.env s.live = s.live.setReeval true := by
    unfold unblockHandOn
    rw [runArbiter_of_no_orders _ _ _ _ ho, ite_self]
  have hserve : serve s.env (unblockHandOn n s.env s.live) = s.live := by
    rw [h, serve_of_no_stored _ _ (by exact hs)]
    exact Live.setReeval_self s.live hr
  unfold State.act
  rw [hserve]

theorem blockSet_takeUnblock {n : Nat} {e : Element} {p : State} (he : p.env.element? n = some e)
    (hb : e.isBoundary = false) (ho : p.live.orders = []) (hs : p.live.stored = [])
    (hr : p.live.reeval = false) : BlockSet n false e p (takeUnblock n p) := by
  unfold takeUnblock
  rw [blockable_of he, hb]
  simp only [Bool.not_false, Bool.not_true, Bool.false_eq_true, if_false]
  split
  · have h := blockSet_setBlocked (b := false) he
    rw [act_unblockHandOn (h.calm.orders.trans ho) (h.calm.stored.trans hs) (h.calm.reeval.trans hr)]
    exact h
  · next h =>
    refine blockSet_same he ?_
    simpa [Env.blocked, Env.elementIs, he] using h

/-- Settles O38: both requests are `BlockSet`, or refused to both lanes. -/
theorem blockAndUnblockSetFlag : Obligations.BlockAndUnblockSetFlag := by
  intro x n s p ho hr c hc ht
  obtain ⟨hv, hl, hset, hrefuse⟩ : voteOf c.1 = some (x, c.2.1) ∧ endsSet c.1 = false
      ∧ (∀ e, p.env.element? n = some e → e.isBoundary = false →
        (c.2.2 = false → p.live.orders = [] ∧ p.live.stored = []) → BlockSet n c.2.2 e p (ownerOf c.1 p))
      ∧ (p.env.blockable n = false → ownerOf c.1 p
        = { p with live := p.live.report (.refused (requestKind c.2.1) n .badOperand) }) := by
    have hr' : p.live.reeval = false := (reeval_taken ht).trans hr
    simp only [List.mem_cons, List.not_mem_nil, or_false] at hc
    rcases hc with rfl | rfl
    · refine ⟨rfl, rfl, fun e he hb _ => blockSet_takeBlock he hb, fun h => ?_⟩
      show takeBlock n p = _
      simp only [takeBlock, h]
      rfl
    · refine ⟨rfl, rfl, fun e he hb hn => blockSet_takeUnblock he hb (hn rfl).1 (hn rfl).2 hr', fun h => ?_⟩
      show takeUnblock n p = _
      simp only [takeUnblock, h]
      rfl
  have hexec := exec_of_taken_handed hv ht hl ho
  constructor
  · intro e he hb hn
    have hn' : c.2.2 = false → p.live.orders = [] ∧ p.live.stored = [] := fun hf =>
      ⟨(both_of_taken (fun _ d => d.orders) s p x _ ht).trans (hn hf).1,
        (both_of_taken (fun _ d => d.stored) s p x _ ht).trans (hn hf).2⟩
    have h := hset e ((element?_taken ht n).trans he) hb hn'
    obtain ⟨h1, h2, h3, h4, h5, h6, h7, h8⟩ := calm_of_taken ht h.calm
    exact ⟨_, hexec, h.pending.trans (pending_taken ht), h.self,
      fun m hm => (h.others m hm).trans (element?_taken ht m), elements_taken ht ▸ h.rest,
      h1, h2, h3, h4, h5, h6, h7, h8⟩
  · intro hbad
    have h := hrefuse (blockable_false (by rwa [element?_taken ht]))
    have hp : p.pending = s.pending := pending_taken ht
    exact ⟨_, hexec.trans (congrArg _ h), hp, rfl, rfl⟩

/-! ### ACK_FAULT -/

theorem removeFault_reeval (v : Env) (n : Nat) (f : FaultEntry) (d : Live) :
    (removeFault v n f d).reeval = (f.kind.blocking || d.reeval) := by
  have h := (calm_faultHandOn v n f.kind ((d.setControl n (fun c =>
    { c with faults := c.faults.filter (fun x => x.kind != f.kind) })).report
      (faultReport n f .removed none))).reeval
  unfold removeFault
  cases hb : f.kind.blocking with
  | true => simp
  | false => simpa using h

theorem removeFault_groups (v : Env) (n : Nat) (f : FaultEntry) (d : Live) :
    (removeFault v n f d).groups = d.groups := by
  have h := (calm_faultHandOn v n f.kind ((d.setControl n (fun c =>
    { c with faults := c.faults.filter (fun x => x.kind != f.kind) })).report
      (faultReport n f .removed none))).groups
  unfold removeFault
  dsimp only
  split <;> simpa using h

theorem Live.control_of_no_record {d : Live} {n : Nat} (h : ¬ d.hasControl n) : d.control n = Control.fresh n := by
  have hf : d.controls.find? (fun c => c.num = n) = none :=
    List.find?_eq_none.2 (fun c hc hn => h (List.mem_map.2 ⟨c, hc, by simpa using hn⟩))
  simp [Live.control, hf]

/-- A fault map without the entries of a kind. -/
def Control.unfaulted (k : FaultKind) (c : Control) : Control :=
  { c with faults := c.faults.filter (fun x => x.kind != k) }

theorem control_unfaulted (d : Live) (n j : Nat) (k : FaultKind) :
    ((d.setControl n (Control.unfaulted k)).control j).faults
      = if j = n then ((d.control j).unfaulted k).faults else (d.control j).faults := by
  rw [Live.control_setControl _ _ _ _ (fun _ => by rfl)]
  by_cases hj : j = n
  · subst hj
    by_cases hc : d.hasControl j
    · simp [hc]
    · simp [hc, Live.control_of_no_record hc, Control.fresh, Control.unfaulted]
  · simp [hj]

theorem removeFault_faults (v : Env) (n : Nat) (f : FaultEntry) (d : Live) (j : Nat) :
    ((removeFault v n f d).control j).faults
      = if j = n then ((d.control j).unfaulted f.kind).faults else (d.control j).faults := by
  have h := (calm_faultHandOn v n f.kind ((d.setControl n (Control.unfaulted f.kind)).report
    (faultReport n f .removed none))).faultsStand j
  rw [(calm_report (d.setControl n (Control.unfaulted f.kind)) _).faultsStand j, control_unfaulted] at h
  rw [← h]
  unfold removeFault
  dsimp only
  split <;> rfl

theorem fault?_unfaulted (c : Control) (k k' : FaultKind) :
    (c.unfaulted k).fault? k' = if k' = k then none else c.fault? k' := by
  unfold Control.unfaulted Control.fault?
  rw [List.find?_filter]
  split
  · next h =>
    subst h
    simp
  · next h =>
    congr 1
    funext f
    by_cases hf : f.kind = k'
    · simp [hf, h]
    · simp [hf]

theorem removeFault_made (v : Env) (n : Nat) (f : FaultEntry) (d : Live) :
    d.made (faultReport n f .removed none) (removeFault v n f d) := by
  have h0 : d.made (faultReport n f .removed none)
      ((d.setControl n (Control.unfaulted f.kind)).report (faultReport n f .removed none)) :=
    (made_report _ _).of_same (fun l => by cases l <;> rfl)
  have h1 := h0.whole (calm_faultHandOn v n f.kind _).whole
  unfold removeFault
  dsimp only
  split
  · exact h1.whole (whole_setReeval _ _)
  · exact h1

/-- An ACK_FAULT refused, on the state that the taking leaves. -/
theorem takeAckFault_bad {v : Env} {d : Live} {n kind : Nat} (h : v.element? n = none ∨ kind = 0 ∨ 9 < kind) :
    takeAckFault n kind v d = d.report (.refused 0x26 n .badOperand) := by
  unfold takeAckFault
  rcases h with h | h
  · rw [h]
    rfl
  · rw [(faultKind_iff kind).2 h]
    cases v.element? n <;> rfl

theorem takeAckFault_of {v : Env} {d : Live} {n kind : Nat} {e : Element} {k : FaultKind}
    (he : v.element? n = some e) (hk : faultKindOf kind = some k) :
    takeAckFault n kind v d = match (d.control n).fault? k with
      | none => d.report (.refused 0x26 n .noFault)
      | some f => if f.active then d.report (.refused 0x26 n .active) else removeFault v n f d := by
  unfold takeAckFault
  rw [he, hk]
  rfl

theorem exec_ackFault_of_operating {x : Exchange} {n kind : Nat} {s p : State}
    (ht : s.takenAs x (.ackFault n kind) p) (ho : s.env.operating = true) :
    exec (.ackFault x n kind) s = .next (p.act (takeAckFault n kind)) :=
  exec_of_taken_handed rfl ht rfl ho

/-- A row of R143 that ends in one refusal. -/
theorem exec_ackFault_refused {x : Exchange} {n kind : Nat} {s p : State} {r : Reason}
    (ht : s.takenAs x (.ackFault n kind) p) (hr : s.live.reeval = false) (ho : s.env.operating = true)
    (h : takeAckFault n kind p.env p.live = p.live.report (.refused 0x26 n r)) :
    ∃ t, exec (.ackFault x n kind) s = .next t ∧ t.env = p.env ∧ t.pending = p.pending
      ∧ t.live = p.live.report (.refused 0x26 n r) := by
  refine ⟨_, exec_ackFault_of_operating ht ho, rfl, rfl, ?_⟩
  have hr' : (takeAckFault n kind p.env p.live).reeval = false := by
    rw [h]
    simpa using (reeval_taken ht).trans hr
  rw [act_next _ _ hr', h]

/-- Settles O39, row by row of R143. -/
theorem ackFaultRemovesGoneEntry : Obligations.AckFaultRemovesGoneEntry := by
  intro x n kind s p ht hr
  have hcontrol : p.live.control = s.live.control := both_of_taken (fun _ d => d.control) s p x _ ht
  refine ⟨fun ho => ?_, fun ho hbad => ?_, fun e k ho he hk => ⟨fun hf => ?_, fun f hf => ⟨fun ha => ?_, fun ha => ?_⟩⟩⟩
  · have hp : p.env.operating = false := (operating_taken ht).trans ho
    refine ⟨_, exec_of_taken rfl ht, ?_⟩
    rw [State.hand_of_refused _ _ _ .notConfigured
      (gate_not_operating p.env (.ackFault n kind) hp nofun nofun (fun _ => nofun) (fun _ => nofun))]
    exact ⟨rfl, rfl, rfl⟩
  · exact exec_ackFault_refused ht hr ho (takeAckFault_bad (by rwa [element?_taken ht]))
  · refine exec_ackFault_refused ht hr ho ?_
    rw [takeAckFault_of ((element?_taken ht n).trans he) hk, hcontrol, hf]
  · refine exec_ackFault_refused ht hr ho ?_
    rw [takeAckFault_of ((element?_taken ht n).trans he) hk, hcontrol, hf]
    simp [ha]
  · have htake : takeAckFault n kind p.env p.live = removeFault p.env n f p.live := by
      rw [takeAckFault_of ((element?_taken ht n).trans he) hk, hcontrol, hf]
      simp [ha]
    obtain rfl : f.kind = k := Control.fault?_kind hf
    have hlive : (p.act (takeAckFault n kind)).live = serve p.env (removeFault p.env n f p.live) := by
      rw [State.act_live, htake]
    have hw := watched_removeFault p.env n f p.live
    obtain ⟨h1, h2, _, h4, h5⟩ := stands_of_taken s p x _ ht (removeFault p.env n f p.live)
    have hst : (removeFault p.env n f p.live).stored = s.live.stored :=
      hw.stored.trans (both_of_taken (fun _ d => d.stored) s p x _ ht)
    refine ⟨_, removeFault p.env n f p.live, exec_ackFault_of_operating ht ho, rfl, rfl, hlive, ?_, ?_, ?_,
      ?_, ?_, ?_, h1 hw.claimsStand, h2 hw.throwsStand, h4 hw.handoverStands, hw.portsStand,
      h5 hw.slotsJudged, hst, ?_⟩
    · rw [removeFault_reeval, (reeval_taken ht).trans hr, Bool.or_false]
    · intro hs
      rw [hlive, serve_of_no_stored _ _ (hst.trans hs)]
    · rw [hlive]
      exact (removeFault_made p.env n f p.live).whole (whole_serve _ _)
    · rw [fault_of_faults ((removeFault_faults p.env n f p.live n).trans (if_pos rfl)), fault?_unfaulted,
        if_pos rfl]
    · intro k' hk'
      rw [fault_of_faults ((removeFault_faults p.env n f p.live n).trans (if_pos rfl)), fault?_unfaulted,
        if_neg hk', hcontrol]
    · intro m hm
      rw [removeFault_faults, if_neg hm, hcontrol]
    · rw [removeFault_groups]
      exact both_of_taken (fun _ d => d.groups) s p x _ ht

end Sys2Proof.Machine
end

section
/-! PROOF. STOP_RELEASE by its table (R134, R135), and the edges of the area-stop inputs (R131, R132). -/

namespace Sys2Proof.Machine

open Sys2Proof

/-! ### STOP_RELEASE -/

/-- A group set INACTIVE, and nothing more than the Route Setter and the arbiters may move (R135). -/
def Unlatched (g : Nat) (d e : Live) : Prop := Moved (d.setGroup g (fun _ => StopGroup.inactive)) e

section unlatched
variable {g : Nat} {d e : Live} (h : Unlatched g d e)
include h

theorem Unlatched.self (hg : g < d.groups.length) : e.group g = StopGroup.inactive := by
  rw [Live.group_congr h.groups, Live.group_setGroup, if_pos ⟨rfl, hg⟩]

theorem Unlatched.others {m : Nat} (hm : m ≠ g) : e.group m = d.group m := by
  rw [Live.group_congr h.groups, Live.group_setGroup, if_neg (fun k => hm k.1.symm)]

theorem Unlatched.claimsStand : d.claimsStand e :=
  Moved.claimsStand (d := d.setGroup g (fun _ => StopGroup.inactive)) h
theorem Unlatched.handoverStands : d.handoverStands e :=
  Moved.handoverStands (d := d.setGroup g (fun _ => StopGroup.inactive)) h
theorem Unlatched.slotsJudged : d.slotsJudged e :=
  Moved.slotsJudged (d := d.setGroup g (fun _ => StopGroup.inactive)) h
theorem Unlatched.stored_eq : e.stored = d.stored :=
  Moved.stored (d := d.setGroup g (fun _ => StopGroup.inactive)) h

end unlatched

theorem calm_unlatch (v : Env) (g : Nat) (d : Live) :
    Calm ((d.setGroup g (fun _ => StopGroup.inactive)).report (.groupState g false none))
      (evaluateMembers v g (computeMembers v g
        ((d.setGroup g (fun _ => StopGroup.inactive)).report (.groupState g false none)))) :=
  (calm_computeMembers v g _).trans (calm_evaluateMembers v g _)

theorem unlatched_unlatch (v : Env) (g : Nat) (d : Live) : Unlatched g d (unlatch v g d) :=
  ((calm_report _ _).trans (calm_unlatch v g d)).moved.trans (moved_setReeval _ true)

theorem unlatch_made (v : Env) (g : Nat) (d : Live) :
    d.made (.groupState g false none) (unlatch v g d) :=
  ((made_report _ _).of_same (c := d) (fun l => by cases l <;> rfl)).mono (calm_unlatch v g d).appended

theorem takeStopRelease_of_released {v : Env} {d : Live} {g : Nat} (hg : g < 8)
    (hs : ∀ src ∈ levelSources, v.hasSource g src = true → levelOf v d src = false)
    (ha : (d.group g).active = true) : takeStopRelease g v d = releaseGroup v g d := by
  unfold takeStopRelease
  dsimp only
  rw [if_neg (by simpa [Config.stopGroups] using hg), (assertedSources_empty v d g).2 hs, ha]
  rfl

/-- The refusals of R134, in the order of its table. -/
theorem takeStopRelease_of_refused {v : Env} {d : Live} {g : Nat} {why : Reason}
    (h : (8 ≤ g ∧ why = .badOperand)
      ∨ (g < 8 ∧ (∃ src ∈ levelSources, v.hasSource g src = true ∧ levelOf v d src = true)
          ∧ why = .stillAsserted)
      ∨ (g < 8 ∧ (∀ src ∈ levelSources, v.hasSource g src = true → levelOf v d src = false)
          ∧ (d.group g).active = false ∧ why = .notActive)) :
    takeStopRelease g v d = refuseBoth (.stopRelease g) why d := by
  unfold takeStopRelease
  dsimp only
  rcases h with ⟨hg, rfl⟩ | ⟨hg, ⟨src, hmem, hhas, hlevel⟩, rfl⟩ | ⟨hg, hs, ha, rfl⟩
  · rw [if_pos (by simpa [Config.stopGroups] using hg)]
  · have hne : (assertedSources v d g).isEmpty = false := by
      by_contra hf
      have hlow := (assertedSources_empty v d g).1 (by simpa using hf) src hmem hhas
      simp [hlevel] at hlow
    rw [if_neg (by simpa [Config.stopGroups] using hg), hne]
    rfl
  · rw [if_neg (by simpa [Config.stopGroups] using hg), (assertedSources_empty v d g).2 hs, ha]
    rfl

/-- With no stored request a release moves no more than its group, and so does a re-evaluation after it. -/
theorem unlatched_serve_release {v : Env} {g : Nat} {d : Live} (h : d.stored = []) :
    Unlatched g d (serve v (releaseGroup v g d)) := by
  have hserve {e : Live} (he : Unlatched g d e) : Unlatched g d (serve v e) := by
    rw [serve_of_no_stored v e (he.stored_eq.trans h)]
    exact he.trans (moved_setReeval _ _)
  have h1 := hserve (unlatched_unlatch v g d)
  unfold releaseGroup
  dsimp only
  split
  · exact hserve (h1.trans (moved_runArbiters_of_no_stored v _ _ (h1.stored_eq.trans h)))
  · exact hserve h1

/-- Settles O41, row by row of R134. -/
theorem stopReleaseReleasesGroup : Obligations.StopReleaseReleasesGroup := by
  intro x g s hr
  refine ⟨fun ho hm => ⟨_, exec_of_degraded rfl ho hm rfl (Or.inr rfl), rfl, State.exchange_pending s x, rfl⟩, fun hp => ?_⟩
  let p := s.paired x (.stopRelease g)
  have hgroup : p.live.group = s.live.group := live_of_paired (fun d => d.group) s x _
  have hsource (src : Source) : p.env.hasSource g src = s.env.hasSource g src :=
    env_of_paired (fun v => v.hasSource g src) s x _
  have hlevel (src : Source) : levelOf p.env p.live src = levelOf s.env s.live src :=
    both_of_paired (fun v d => levelOf v d src) s x _
      (fun _ _ _ _ _ _ => by cases src <;> rfl)
  have hpending : p.pending = s.pending := State.paired_pending s x (.stopRelease g)
  constructor
  · intro why hwhy
    rcases hwhy with ⟨ho, rfl⟩ | ⟨ho, hwhy⟩ | ⟨ho, hwhy⟩ | ⟨ho, hwhy⟩
    · exact ⟨_, exec_of_gate rfl hp (gate_not_operating s.env _ ho nofun nofun (fun _ => nofun)
        (fun _ => nofun)), rfl, hpending, rfl⟩
    all_goals
      refine ⟨_, exec_of_refusal (f := takeStopRelease g) rfl hp rfl ho hr rfl
        (takeStopRelease_of_refused (v := p.env) (d := p.live) ?_), rfl, hpending, rfl⟩
    · exact .inl hwhy
    · simpa only [hsource, hlevel] using Or.inr (Or.inl hwhy)
    · simpa only [hsource, hlevel, hgroup] using Or.inr (Or.inr hwhy)
  · intro ho hg hs ha
    have htake : takeStopRelease g p.env p.live = releaseGroup p.env g p.live :=
      takeStopRelease_of_released hg (by simpa only [hsource, hlevel] using hs) (by rwa [hgroup])
    have hlen : g < p.live.groups.length := by
      by_contra hn
      have hout : p.live.group g = StopGroup.inactive := by
        simp [Live.group, List.getD_eq_getElem?_getD, List.getElem?_eq_none (Nat.le_of_not_lt hn)]
      rw [← hgroup, hout] at ha
      cases ha
    have hd := unlatched_unlatch p.env g p.live
    have hlive : (p.act (takeStopRelease g)).live = serve p.env (releaseGroup p.env g p.live) := by
      rw [State.act_live, htake]
    have hhold : (p.env.stop g).holdThrows = (s.env.stop g).holdThrows :=
      env_of_paired (fun v => (v.stop g).holdThrows) s x _
    have hstored : p.live.stored = s.live.stored := live_of_paired (fun d => d.stored) s x _
    obtain ⟨hclaims, -, -, hhandover, hjudged⟩ := stands_of_paired s x (.stopRelease g) (unlatch p.env g p.live)
    refine ⟨p.act (takeStopRelease g), unlatch p.env g p.live, exec_of_operating rfl hp rfl ho, rfl, hpending,
      fun h => ?_, ?_, rfl, ?_, hd.self hlen, fun m hm => ?_, hclaims hd.claimsStand,
      hhandover hd.handoverStands, hjudged hd.slotsJudged, hd.stored_eq.trans hstored,
      fun hno => ?_⟩
    · rw [hlive, releaseGroup, hhold, h]
      exact serve_of_not_asked _ _ (serve_reeval _ _)
    · rintro v rfl h
      rw [hlive, releaseGroup, hhold, h]
      rfl
    · rw [hlive]
      refine (unlatch_made p.env g p.live).whole (Whole.trans ?_ (whole_serve _ _))
      exact Whole.ite ((whole_serve _ _).trans (whole_runArbiters _ _ _)) (whole_serve _ _)
    · rw [hd.others hm, hgroup]
    · have ht : Unlatched g p.live (p.act (takeStopRelease g)).live :=
        hlive ▸ unlatched_serve_release (hstored.trans hno)
      obtain ⟨claims, _, _, handover, judged⟩ := stands_of_paired s x (.stopRelease g) (p.act (takeStopRelease g)).live
      refine ⟨(ht.self hlen).trans (hd.self hlen).symm, fun m hm => ?_, claims ht.claimsStand,
        handover ht.handoverStands, judged ht.slotsJudged, ht.stored_eq.trans (hstored.trans hno)⟩
      rw [ht.others hm, hgroup]

/-! ### The area-stop inputs -/

theorem Env.setInput_input (v : Env) (i : AreaInput) (b : Bool) : (v.setInput i b).input i = b := by
  cases i <;> rfl

theorem Env.setInput_other (v : Env) (i : AreaInput) (b : Bool) {j : AreaInput} (h : j ≠ i) :
    (v.setInput i b).input j = v.input j := by
  cases i <;> cases j <;> simp_all [Env.setInput, Env.input]

theorem Env.setInput_rest (v : Env) (i : AreaInput) (b : Bool) :
    ({ v.setInput i b with as0 := v.as0, as1 := v.as1 } : Env) = v := by
  cases i <;> rfl

theorem levelOf_inputSource (v : Env) (d : Live) (i : AreaInput) :
    levelOf v d (inputSource i) = v.input i := by
  cases i <;> rfl

/-- The live state after an input has taken its level. -/
theorem execAreaStopInputChange_eq {i : AreaInput} {level : Bool} {s : State} (hr : s.live.reeval = false) :
    exec (.areaStopInputChange i level) s = .next
      { s with
        env := s.env.setInput i level
        live := if s.env.operating = true ∧ s.env.input i = false ∧ level = true
          then latchAll (s.env.setInput i level) (inputSource i) s.live else s.live } := by
  have hop : (s.env.setInput i level).operating = s.env.operating := by cases i <;> rfl
  have hedge : edge (s.env.setInput i level) (inputSource i) (s.env.input i) s.live
      = if s.env.input i = false ∧ level = true
        then latchAll (s.env.setInput i level) (inputSource i) s.live else s.live := by
    simp [edge, levelOf_inputSource, Env.setInput_input]
  have hreeval : (edge (s.env.setInput i level) (inputSource i) (s.env.input i) s.live).reeval = false := by
    rw [hedge]
    split
    · exact (latchAll_all _ _ _ _).reeval.trans hr
    · exact hr
  show Host.Outcome.next (if (s.env.setInput i level).operating = true then _ else _) = _
  rw [hop]
  split
  · next ho =>
    rw [State.act_of_not_asked _ _ hreeval]
    simp only [hedge, ho, true_and]
  · next ho => simp [ho]

/-- Settles O42: an asserting edge is `latchAll` in group number order. -/
theorem areaStopEdgeLatchesGroups : Obligations.AreaStopEdgeLatchesGroups := by
  intro i level s hr
  refine ⟨_, execAreaStopInputChange_eq hr, rfl, Env.setInput_input _ _ _,
    fun j hj => Env.setInput_other _ _ _ hj, Env.setInput_rest _ _ _, fun h => ?_, fun ho hi hl => ?_⟩
  · refine if_neg (fun k => ?_)
    rcases h with h | h | h
    · simp [h] at k
    · simp [h] at k
    · simp [h] at k
  · have h := latchAll_all (s.env.setInput i level) (inputSource i) s.live s.live.groups.length
    have hlive : (if s.env.operating = true ∧ s.env.input i = false ∧ level = true
          then latchAll (s.env.setInput i level) (inputSource i) s.live else s.live)
        = latchAll (s.env.setInput i level) (inputSource i) s.live := if_pos ⟨ho, hi, hl⟩
    have hnow : (s.env.setInput i level).now = s.env.now := by cases i <;> rfl
    have hsource (g : Nat) (src : Source) :
        (s.env.setInput i level).hasSource g src = s.env.hasSource g src := by cases i <;> rfl
    dsimp only
    rw [hlive]
    refine ⟨fun g => ?_, h.watched.claimsStand, h.watched.throwsStand, h.faults, h.watched.handoverStands,
      h.watched.portsStand, h.watched.slotsJudged, h.watched.stored⟩
    refine (h.group g).trans ?_
    rw [hnow, hsource]
    simp

end Sys2Proof.Machine
end

section
/-! PROOF. THROW_POINT (R54, R98, R102), and a throw completed at its settle expiry (R105). -/

namespace Sys2Proof.Machine

open Sys2Proof

/-! ### The throw of a free point (R100 to R102) -/

/-- The throw that an order starts now, with a limit (R102). -/
def ThrowOrder.flight (o : ThrowOrder) (now : Time) (limit : Nat) : Flight :=
  { position := o.position, start := now, expiry := after now limit, measured := none, settle := none }

/-- A point's record as its throw starts (R102). -/
def Control.starting (o : ThrowOrder) (f : Flight) (c : Control) : Control :=
  { c with flight := some f, commanded := some o.position, failed := false }

/-- The live state as a throw starts, before it is reported and handed on (R102). -/
def Live.started (d : Live) (v : Env) (g : Nat) (o : ThrowOrder) (limit : Nat) : Live :=
  ((d.dropOrder o.point).setControl o.point (Control.starting o (o.flight v.now limit))).setPower g
    (PowerGroup.start (v.power g) v.now)

/-- A start as it is reported and handed on (R102). -/
def Live.startHanded (d : Live) (v : Env) (g : Nat) (o : ThrowOrder) (limit : Nat) : Live :=
  reconsider v o.point (evaluateElement v o.point
    ((d.started v g o limit).report (.orderPoint o.point o.position)))

theorem watched_startHanded (v : Env) (g : Nat) (o : ThrowOrder) (limit : Nat) (d : Live) :
    Watched (d.started v g o limit) (d.startHanded v g o limit) :=
  (((calm_report _ _).trans (calm_evaluateElement v o.point _)).watched).trans
    (watched_reconsider v o.point _)

theorem startHanded_groups (v : Env) (g : Nat) (o : ThrowOrder) (limit : Nat) (d : Live) :
    (d.startHanded v g o limit).groups = d.groups :=
  (groups_reconsider v o.point _).trans ((calm_evaluateElement v o.point _).groups.trans (by simp; rfl))

theorem started_control (v : Env) (g : Nat) (o : ThrowOrder) (limit : Nat) (d : Live) (n : Nat) :
    (d.started v g o limit).control n = if n = o.point ∧ d.hasControl o.point then
        Control.starting o (o.flight v.now limit) (d.control o.point)
      else d.control n :=
  Live.control_setControl (d.dropOrder o.point) o.point n _ (fun _ => by rfl)

theorem startHanded_motion {v : Env} {g : Nat} {o : ThrowOrder} {limit : Nat} {d : Live}
    (h : d.hasControl o.point) : ((d.startHanded v g o limit).control o.point).motion
      = (some o.position, some (o.flight v.now limit), false) := by
  rw [(watched_startHanded v g o limit d).throwsStand.1, started_control, if_pos ⟨rfl, h⟩]
  rfl

theorem startHanded_motion_other {v : Env} {g : Nat} {o : ThrowOrder} {limit : Nat} {d : Live} {n : Nat}
    (h : n ≠ o.point) : ((d.startHanded v g o limit).control n).motion = (d.control n).motion := by
  rw [(watched_startHanded v g o limit d).throwsStand.1, started_control, if_neg (fun k => h k.1)]

theorem startHanded_claims (v : Env) (g : Nat) (o : ThrowOrder) (limit : Nat) (d : Live) :
    d.claimsStand (d.startHanded v g o limit) := by
  intro n
  rw [(watched_startHanded v g o limit d).claimsStand n, started_control]
  split
  · next h => rw [h.1]; rfl
  · rfl

theorem startHanded_faults (v : Env) (g : Nat) (o : ThrowOrder) (limit : Nat) (d : Live) :
    d.faultsStand (d.startHanded v g o limit) := by
  intro n
  refine (reconsider_faults v o.point _ n).trans ?_
  rw [(calm_evaluateElement v o.point _).faultsStand n, (calm_report _ _).faultsStand n, started_control]
  split
  · next h => rw [h.1]; rfl
  · rfl

theorem startHanded_power {v : Env} {g : Nat} {o : ThrowOrder} {limit : Nat} {d : Live}
    (h : g < d.power.length) : (d.startHanded v g o limit).powerGroup g
      = PowerGroup.start (v.power g) v.now (d.powerGroup g) := by
  unfold Live.powerGroup
  rw [(watched_startHanded v g o limit d).power]
  exact (Live.powerGroup_setPower _ g g _).trans (if_pos ⟨rfl, h⟩)

theorem startHanded_made (v : Env) (g : Nat) (o : ThrowOrder) (limit : Nat) (d : Live) :
    d.made (.orderPoint o.point o.position) (d.startHanded v g o limit) :=
  ((made_report _ _).of_same (c := d) (fun l => by cases l <;> rfl)).mono
    ((calm_evaluateElement v o.point _).watched.trans (watched_reconsider v o.point _)).appended

theorem startHanded_reeval (v : Env) (g : Nat) (o : ThrowOrder) (limit : Nat) (d : Live) :
    (d.startHanded v g o limit).reeval = d.reeval :=
  (reconsider_reeval v o.point _).trans ((calm_evaluateElement v o.point _).reeval.trans (by simp; rfl))

/-- Detection away from the ordered position is no arrival. -/
theorem arrival_of_away {v : Env} {p : Nat} {d : Live}
    (h : ∀ f, (d.control p).flight = some f → v.detected p f.position = false) :
    arrival v p d = (d, none) := by
  unfold arrival
  split
  · next f hf => rw [h f hf]; rfl
  · rfl

theorem startThrow_of_away {q : Requeue} {v : Env} {g : Nat} {o : ThrowOrder} {d : Live} {e : Element}
    (he : v.element? o.point = some e) (hc : d.hasControl o.point)
    (h : v.detected o.point o.position = false) :
    startThrow q v g o d = (d.startHanded v g o e.limit, false) := by
  have haway : arrival v o.point (d.startHanded v g o e.limit) = (d.startHanded v g o e.limit, none) := by
    refine arrival_of_away (fun f hf => ?_)
    have hm := startHanded_motion (v := v) (g := g) (limit := e.limit) hc
    rw [Control.motion, hf] at hm
    obtain rfl : f = o.flight v.now e.limit := by simpa using congrArg (fun m => m.2.1) hm
    exact h
  unfold startThrow
  simp only [he]
  show (match arrival v o.point (d.startHanded v g o e.limit) with
    | (d5, some f1) => (completion q v (some g) o.point (endFlight v o.point f1 d5), true)
    | (d5, none) => (d5, false)) = _
  rw [haway]

/-- The arbiter with one order pending, which may start. -/
theorem runArbiter_of_one {q : Requeue} {v : Env} {o : ThrowOrder} {d : Live} {e : Element}
    (ho : d.orders = [o]) (he : v.element? o.point = some e) (hc : d.hasControl o.point)
    (hp : pointReady v d o.point = true) (hd : v.detected o.point o.position = false)
    (hg : groupReady v d (v.groupOf o.point) = true) :
    runArbiter q v (v.groupOf o.point) d = d.startHanded v (v.groupOf o.point) o e.limit := by
  have hrun : arbiterRun q v (v.groupOf o.point) d
      = (d.startHanded v (v.groupOf o.point) o e.limit, false) := by
    have horder : d.order? o.point = some o := by simp [Live.order?, ho]
    have hstart : arbitrate q v (v.groupOf o.point) o d
        = (d.startHanded v (v.groupOf o.point) o e.limit, false) := by
      rw [arbitrate, hp, hd, hg]
      exact startThrow_of_away he hc hd
    simp [arbiterRun, ho, arbitrateAt, horder, hstart]
  have hstored : (d.startHanded v (v.groupOf o.point) o e.limit).stored = d.stored :=
    (watched_startHanded v _ o e.limit d).stored
  obtain ⟨k, hk⟩ : ∃ k, (Config.orderCapacity + 1) * (d.stored.length + 1) = k + 1 :=
    Nat.exists_eq_succ_of_ne_zero (by simp [Config.orderCapacity])
  rw [runArbiter, hk, arbiterRuns]
  simp [hrun, hstored]

/-! ### THROW_POINT -/

theorem takeThrowPoint_of_refused {v : Env} {d : Live} {p position : Nat} {why : Reason}
    (h : throwRefusal v d p position = some why) :
    takeThrowPoint p position v d = refuseBoth (.throwPoint p position) why d := by
  unfold takeThrowPoint
  simp only [h]

theorem positionOf_of_gt {n : Nat} (h : 1 < n) : positionOf n = none := by
  match n, h with
  | n + 2, _ => rfl

theorem positionOf_isSome {n : Nat} (h : n ≤ 1) : (positionOf n).isSome = true := by
  interval_cases n <;> rfl

/-- The refusals of R54. -/
theorem throwRefusal_of_bad {v : Env} {d : Live} {p position : Nat} {why : Reason}
    (h : ((v.elementIs p Element.isPoint = false ∨ 1 < position) ∧ why = .badOperand)
      ∨ (v.elementIs p Element.isPoint = true ∧ position ≤ 1
          ∧ ((d.control p).lock ≠ none ∨ 0 < (d.control p).normalCount ∨ 0 < (d.control p).reverseCount)
          ∧ why = .locked)) :
    throwRefusal v d p position = some why := by
  unfold throwRefusal
  rcases h with ⟨hbad, rfl⟩ | ⟨hpoint, hpos, hheld, rfl⟩
  · rcases hbad with hbad | hbad
    · simp [hbad]
    · simp [positionOf_of_gt hbad]
  · have hsome := positionOf_isSome hpos
    have hheld' : ((d.control p).lock.isSome || decide (0 < (d.control p).normalCount)
        || decide (0 < (d.control p).reverseCount)) = true := by
      rcases hheld with h | h | h
      · simp [Option.isSome_iff_ne_none.2 h]
      · simp [h]
      · simp [h]
    rw [if_neg (by simp [hpoint, Option.isSome_iff_ne_none.1 hsome]), if_pos hheld']

/-- A free point with no order pending is handed to the arbiter of its group (R54, R97). -/
theorem takeThrowPoint_of_free {v : Env} {d : Live} {p : Nat} {pos : Position} {e : Element}
    (he : v.element? p = some e) (hpt : e.isPoint = true) (hlock : (d.control p).lock = none)
    (hn : (d.control p).normalCount = 0) (hr : (d.control p).reverseCount = 0)
    (hf : (d.control p).flight = none) (ho : d.orders = []) :
    takeThrowPoint p pos.code v d = runArbiter .now v (v.groupOf p)
      (d.setOrders [{ point := p, position := pos, origin := .lane, arrival := v.now }]) := by
  have hrefusal : throwRefusal v d p pos.code = none := by
    simp [throwRefusal, Env.elementIs, he, hpt, positionOf_code, hlock, hn, hr]
  have horder : d.order? p = none := by simp [Live.order?, ho]
  have hlane : laneOrderRefusal v d p pos = none := by simp [laneOrderRefusal, hf, ho, Config.orderCapacity]
  unfold takeThrowPoint
  simp only [hrefusal, positionOf_code, hlane]
  unfold applyOrder
  simp [hf, horder, ho, Config.orderCapacity, callArbiter]

/-- Settles O35: the refusals of R54, and a start by the arbiter of the point's group. -/
theorem throwPointRefusesOrStartsThrow : Obligations.ThrowPointRefusesOrStartsThrow := by
  constructor
  · intro x p position s ho hp hr why hwhy
    refine ⟨_, exec_of_refusal (f := takeThrowPoint p position) rfl hp rfl ho hr rfl
      (takeThrowPoint_of_refused (throwRefusal_of_bad ?_)), rfl,
      State.paired_pending s x (.throwPoint p position), rfl⟩
    have helement : (s.paired x (.throwPoint p position)).env.elementIs p Element.isPoint
        = s.env.elementIs p Element.isPoint :=
      env_of_paired (fun v => v.elementIs p Element.isPoint) s x _
    rw [helement, (tables_of_paired s x _).1]
    exact hwhy
  · intro x p pos e s ho hp hr he hpt hc hg hlock hn hrev hf hord hocc hblock hheld hdet hready
    let q : Request := .throwPoint p pos.code
    let t := s.paired x q
    let o : ThrowOrder := { point := p, position := pos, origin := .lane, arrival := s.env.now }
    have hcontrol : t.live.control = s.live.control := (tables_of_paired s x q).1
    have hgroup : t.env.groupOf p = s.env.groupOf p := env_of_paired (fun v => v.groupOf p) s x q
    have hnow : t.env.now = s.env.now := env_of_paired (fun v => v.now) s x q
    have hel : t.env.element? p = some e := (env_of_paired (fun v => v.element? p) s x q).trans he
    have hmode : t.env.mode = .normal := (env_of_paired (fun v => v.mode) s x q).trans (hp.2 ho)
    have hpower : t.live.power = s.live.power := live_of_paired (fun d => d.power) s x q
    have hpt' : pointReady t.env (t.live.setOrders [o]) p = true := by
      have h := both_of_paired (fun v d => pointReady v (d.setOrders [o]) p) s x q
      refine h.trans ?_
      have hthrow : throwHeld s.env (s.live.setOrders [o]) p = false := hheld
      simp [pointReady, hocc, hblock, hthrow, hp.2 ho]
    have hready' : groupReady t.env (t.live.setOrders [o]) (t.env.groupOf p) = true :=
      (both_of_paired (fun v d => groupReady v (d.setOrders [o]) (v.groupOf p)) s x q).trans hready
    have htake : takeThrowPoint p pos.code t.env t.live
        = (t.live.setOrders [o]).startHanded t.env (t.env.groupOf p) o e.limit := by
      rw [takeThrowPoint_of_free hel hpt (by rw [hcontrol, hlock]) (by rw [hcontrol, hn])
        (by rw [hcontrol, hrev]) (by rw [hcontrol, hf])
        ((live_of_paired (fun d => d.orders) s x q).trans hord), hnow]
      exact runArbiter_of_one (o := o) rfl hel ((live_of_paired (fun d => d.hasControl p) s x q) ▸ hc) hpt'
        ((env_of_paired (fun v => v.detected p pos) s x q).trans hdet) hready'
    have hreeval : (takeThrowPoint p pos.code t.env t.live).reeval = false := by
      rw [htake, startHanded_reeval]
      exact (live_of_paired (fun d => d.reeval) s x q).trans hr
    have hexec := exec_of_act (f := takeThrowPoint p pos.code) (c := .throwPoint x p pos.code) rfl hp rfl ho rfl
      hreeval
    obtain ⟨claims, _, faults, handover, judged⟩ := stands_of_paired s x q
      ((t.live.setOrders [o]).startHanded t.env (t.env.groupOf p) o e.limit)
    have hw := watched_startHanded t.env (t.env.groupOf p) o e.limit (t.live.setOrders [o])
    have hgpower : ((t.live.setOrders [o]).startHanded t.env (t.env.groupOf p) o e.limit).powerGroup
          (s.env.groupOf p)
        = PowerGroup.start (t.env.power (t.env.groupOf p)) t.env.now (t.live.powerGroup (t.env.groupOf p)) := by
      rw [← hgroup]
      exact startHanded_power (d := t.live.setOrders [o]) (by rw [hgroup]; exact hpower ▸ hg)
    have hflights : (t.live.powerGroup (s.env.groupOf p)).flights = (s.live.powerGroup (s.env.groupOf p)).flights :=
      live_of_paired (fun d => (d.powerGroup (s.env.groupOf p)).flights) s x q
    refine ⟨_, hexec, rfl, State.paired_pending s x q, ?_⟩
    dsimp only
    rw [htake]
    refine ⟨?_, fun n hne => ?_, ?_, ?_, ?_, ?_, claims ?_, faults ?_, handover hw.handoverStands,
      judged hw.slotsJudged, hw.stored.trans (live_of_paired (fun d => d.stored) s x q), ?_⟩
    · rw [startHanded_motion (o := o) ((live_of_paired (fun d => d.hasControl p) s x q) ▸ hc), hnow]
      rfl
    · rw [startHanded_motion_other hne]
      exact congrArg (fun c => (c n).motion) hcontrol
    · refine hw.orders.trans ?_
      simp [Live.started, Live.dropOrder, o]
    · rw [hgpower, hgroup]
      exact congrArg (· + 1) hflights
    · rw [hgpower, ← hnow]
      rfl
    · exact startHanded_made t.env _ o e.limit (t.live.setOrders [o])
    · exact startHanded_claims t.env _ o e.limit (t.live.setOrders [o])
    · exact startHanded_faults t.env _ o e.limit (t.live.setOrders [o])
    · exact (startHanded_groups t.env _ o e.limit _).trans (live_of_paired (fun d => d.groups) s x q)


/-! ### SETTLE_EXPIRY -/

/-- The record of a throw discarded and its end counted, before the fault map and the Route Setter follow
(R105, step 1). -/
def Live.landed (d : Live) (v : Env) (p : Nat) : Live :=
  (d.setControl p (fun c => { c with flight := none })).setPower (v.groupOf p)
    (PowerGroup.finish (v.power (v.groupOf p)) v.now)

theorem landed_control (v : Env) (p : Nat) (d : Live) (n : Nat) :
    (d.landed v p).control n
      = if n = p ∧ d.hasControl p then { d.control p with flight := none } else d.control n :=
  Live.control_setControl d p n (fun c => { c with flight := none }) (fun _ => by rfl)

theorem landed_claims (v : Env) (p : Nat) (d : Live) : d.claimsStand (d.landed v p) := by
  intro n
  rw [landed_control]
  split
  · next h => rw [h.1]; rfl
  · rfl

theorem endFlight_of_slow {v : Env} {p m : Nat} {f : Flight} {e : Element} {d : Live}
    (he : v.element? p = some e) (hm : f.measured = some m) (hs : e.slow < m) :
    endFlight v p f d = raise v p .slowThrow (some m) (d.landed v p) := by
  unfold endFlight
  simp only [hm]
  rw [if_pos (by simp [Env.elementIs, he, hs])]
  rfl

theorem watched_endFlight (v : Env) (p : Nat) (f : Flight) (d : Live) :
    Watched (d.landed v p) (endFlight v p f d) := by
  unfold endFlight
  dsimp only
  split
  · exact Watched.ite (watched_raise v p _ _ _) (Watched.refl _)
  · exact Watched.refl _

theorem watched_completionFirst (v : Env) (p : Nat) (d : Live) : Watched d (completionFirst v p d) :=
  ((((watched_endFault v p _ d).trans (watched_foundInPosition v p _)).trans
    (watched_reconsider v p _)).thenCalm (calm_testPoint v p _)).trans (watched_setReeval _ true)

theorem completionFirst_fault {v : Env} {p : Nat} {k : FaultKind} (hk : k ≠ .lostDetection) (d : Live) (n : Nat) :
    ((completionFirst v p d).control n).fault? k = ((endFault v p .throwFail d).control n).fault? k := by
  have hcalm := calm_testPoint v p (reconsider v p (foundInPosition v p (endFault v p .throwFail d)))
  calc ((completionFirst v p d).control n).fault? k
      = ((foundInPosition v p (endFault v p .throwFail d)).control n).fault? k :=
        fault_of_faults ((hcalm.faultsStand n).trans (reconsider_faults v p _ n)) k
    _ = ((endFault v p .throwFail d).control n).fault? k := foundInPosition_faults v p _ n k hk

/-- A throw that ends with no order pending and nothing stored (R105). -/
def Live.settled (d : Live) (v : Env) (p : Nat) (f : Flight) : Live :=
  evaluateElement v p ((completionFirst v p (endFlight v p f d)).setReeval false)

theorem watched_settled (v : Env) (p : Nat) (f : Flight) (d : Live) :
    Watched (d.landed v p) (d.settled v p f) :=
  (((watched_endFlight v p f d).trans (watched_completionFirst v p _)).trans
    (watched_setReeval _ false)).thenCalm (calm_evaluateElement v p _)

theorem settled_groups (v : Env) (p : Nat) (f : Flight) (d : Live) : (d.settled v p f).groups = d.groups :=
  (((moved_endFlight v p f d).trans (moved_completionFirst v p _)).trans
    ((moved_setReeval _ false).thenCalm (calm_evaluateElement v p _))).groups

theorem settled_fault {v : Env} {p : Nat} {f : Flight} {k : FaultKind} (hk : k ≠ .lostDetection) (d : Live)
    (n : Nat) : ((d.settled v p f).control n).fault? k
      = ((endFault v p .throwFail (endFlight v p f d)).control n).fault? k :=
  (fault_of_faults ((calm_evaluateElement v p _).faultsStand n) k).trans (completionFirst_fault hk _ n)

theorem settled_slowThrow {v : Env} {p m : Nat} {f : Flight} {e : Element} {d : Live}
    (hc : d.hasControl p) (he : v.element? p = some e) (hm : f.measured = some m) (hs : e.slow < m) :
    ∃ g, ((d.settled v p f).control p).fault? .slowThrow = some g ∧ g.active = false ∧ g.last = v.now := by
  have hnums : (d.landed v p).controls.map Control.num = d.controls.map Control.num :=
    (moved_setControl d p (fun c => { c with flight := none }) (fun _ => by rfl)).nums
  have hc' : (d.landed v p).hasControl p := by
    unfold Live.hasControl
    rwa [hnums]
  refine ⟨raisedEntry v.now .slowThrow (((d.landed v p).control p).fault? .slowThrow), ?_, ?_, ?_⟩
  · rw [settled_fault (by decide), endFault_faults, if_neg (by simp), endFlight_of_slow he hm hs,
      raise_fault v p .slowThrow _ _ hc']
  · unfold raisedEntry
    split <;> rfl
  · unfold raisedEntry
    split <;> rfl

theorem flightDone_of_quiet {v : Env} {p : Nat} {f : Flight} {d : Live} (ho : d.orders = [])
    (hs : d.stored = []) : flightDone v p f d = d.settled v p f := by
  have hend : (completionFirst v p (endFlight v p f d)).stored = [] :=
    ((watched_endFlight v p f d).trans (watched_completionFirst v p _)).stored.trans hs
  have hcompletion : completion .now v none p (endFlight v p f d) = d.settled v p f := by
    unfold completion Requeue.now
    rw [serveIn_of_no_stored v none _ hend]
    rfl
  unfold flightDone
  rw [hcompletion]
  exact runArbiter_of_no_orders _ _ _ _ ((watched_settled v p f d).orders.trans ho)

/-- Settles O36: the throw is landed, and the fault map and the Route Setter follow. -/
theorem settleExpiryEndsThrow : Obligations.SettleExpiryEndsThrow := by
  intro p f at_ e s hf hat hre ho hs hc he hg
  have hdue : settleDue p s.env s.live = s.live.settled s.env p f := by
    unfold settleDue
    simp only [hf, hat, due, hre, if_true]
    exact flightDone_of_quiet ho hs
  have hw := watched_settled s.env p f s.live
  have hlive : (s.act (settleDue p)).live = (s.live.settled s.env p f).setReeval false := by
    rw [State.act_live, hdue, serve_of_no_stored _ _ (hw.stored.trans hs)]
  have hpower : (s.live.settled s.env p f).powerGroup (s.env.groupOf p)
      = PowerGroup.finish (s.env.power (s.env.groupOf p)) s.env.now
          (s.live.powerGroup (s.env.groupOf p)) := by
    unfold Live.powerGroup
    rw [hw.power]
    exact (Live.powerGroup_setPower _ _ _ _).trans (if_pos ⟨rfl, hg⟩)
  refine ⟨s.act (settleDue p), exec_of_effect rfl s, rfl, rfl, ?_⟩
  rw [hlive]
  refine ⟨(hw.throwsStand.1 p).trans ?_, fun n hn => (hw.throwsStand.1 n).trans ?_, hw.orders.trans ho,
    congrArg PowerGroup.flights hpower, congrArg PowerGroup.lastEnd hpower,
    fun ⟨m, hm, hslow⟩ => settled_slowThrow hc he hm hslow, fun g hfault => ?_, fun n => ?_,
    hw.handoverStands, hw.slotsJudged, hw.portsStand, settled_groups _ _ _ _, hw.stored.trans hs⟩
  · rw [landed_control, if_pos ⟨rfl, hc⟩]
    rfl
  · rw [landed_control, if_neg (fun h => hn h.1)]
  · exact endFault_gone s.env p .throwFail _ g ((settled_fault (by decide) _ _).symm.trans hfault)
  · exact (hw.claimsStand n).trans (landed_claims s.env p s.live n)


end Sys2Proof.Machine
end

section
/-! PROOF. A lane lost at its silence expiry (R145, R146, R174), and a lane rejoined (R148). -/

namespace Sys2Proof.Machine

open Sys2Proof

/-! ### Dealing with the pending lists (R174) -/

/-- What the requests taken or refused on the loss of a lane leave of a state: they may set a blocked flag and
make reports, and change nothing else outside the live state. -/
structure Passed (s t : State) : Prop where
  pending : t.pending = s.pending
  rest : ({ t.env with elements := s.env.elements } : Env) = s.env
  element : ∀ n e, s.env.element? n = some e → ∃ b, t.env.element? n = some { e with blocked := b }
  appended : ∀ l, (s.live.lane l).reports <+: (t.live.lane l).reports

theorem Passed.refl (s : State) : Passed s s := ⟨rfl, rfl, fun _ e h => ⟨e.blocked, h⟩, fun _ => List.prefix_rfl⟩

theorem Passed.trans {s t u : State} (h : Passed s t) (k : Passed t u) : Passed s u where
  pending := k.pending.trans h.pending
  rest := by
    have hk : ({ u.env with elements := s.env.elements } : Env) = { t.env with elements := s.env.elements } :=
      congrArg (fun v : Env => { v with elements := s.env.elements }) k.rest
    exact hk.trans h.rest
  element n e he := by
    obtain ⟨b, hb⟩ := h.element n e he
    exact k.element n { e with blocked := b } hb
  appended l := (h.appended l).trans (k.appended l)

theorem passed_live (s : State) (d : Live) (h : ∀ l, (s.live.lane l).reports <+: (d.lane l).reports) :
    Passed s { s with live := d } :=
  ⟨rfl, rfl, fun _ e he => ⟨e.blocked, he⟩, h⟩

theorem passed_setLane (s : State) (l : LaneId) (f : LanePort → LanePort)
    (h : ∀ p, (f p).reports = p.reports) : Passed s { s with live := s.live.setLane l f } := by
  refine passed_live s _ (fun k => ?_)
  rw [Live.lane_setLane]
  split
  · rw [h]
  · exact List.prefix_rfl

/-- A request taken alone on the loss of a lane, or refused: the pending lists stand. -/
structure TakenAlone (s t : State) : Prop extends Passed s t where
  requests : ∀ l, (t.live.lane l).requests = (s.live.lane l).requests

theorem takenAlone_act {s : State} {f : Env → Live → Live} (h : Whole s.live (f s.env s.live)) :
    TakenAlone s (s.act f) :=
  have hw : Whole s.live (s.act f).live := h.trans (whole_serve _ _)
  ⟨passed_live s _ hw.appended, hw.requests⟩

theorem takenAlone_refuse (s : State) (q : Request) (r : Reason) : TakenAlone s (s.refuse q r) :=
  ⟨passed_live s _ (whole_report s.live _).appended, (whole_report s.live _).requests⟩

theorem takenAlone_setBlocked {s : State} {n : Nat} {b : Bool} {e : Element} (he : s.env.element? n = some e) :
    TakenAlone s (s.setBlocked n b) := by
  have h := blockSet_setBlocked (b := b) he
  refine ⟨⟨h.pending, h.rest, fun m f hf => ?_, h.calm.appended⟩, h.calm.requests⟩
  by_cases hm : m = n
  · subst hm
    obtain rfl : e = f := by simpa [he] using hf
    exact ⟨b, h.self⟩
  · exact ⟨f.blocked, (h.others m hm).trans hf⟩

theorem takenAlone_takeBlock (n : Nat) (s : State) : TakenAlone s (takeBlock n s) := by
  unfold takeBlock
  split
  · exact takenAlone_refuse _ _ _
  · next hb =>
    split
    · exact ⟨.refl s, fun _ => rfl⟩
    · cases he : s.env.element? n with
      | none => simp [Env.blockable, Env.elementIs, he] at hb
      | some e => exact takenAlone_setBlocked he

theorem takenAlone_takeAlone (q : Request) (s : State) : TakenAlone s (s.takeAlone q) := by
  unfold State.takeAlone
  split
  · exact takenAlone_act (whole_takeCancelRoute _ _ _)
  · exact takenAlone_act (whole_takeReleaseEmergency _ _ _)
  · exact takenAlone_act (whole_takeAckFault _ _ _ _)
  · exact takenAlone_takeBlock _ _
  · exact takenAlone_act (whole_takeStopSet _ _ _)
  · exact ⟨.refl s, fun _ => rfl⟩

theorem dropFirst_of_front {q : Request} {pre post : List PendingEntry} {e : PendingEntry}
    (h : ∀ y ∈ pre, y.request ≠ q) (he : e.request = q) : dropFirst q (pre ++ e :: post) = pre ++ post := by
  induction pre with
  | nil => simp [dropFirst, he]
  | cons y ys ih =>
    simp [dropFirst, h y (by simp), ih (fun z hz => h z (by simp [hz]))]

/-- One entry dealt with: a REJOIN stays, any other goes. -/
theorem dispose_all (l : LaneId) (s : State) (e : PendingEntry) :
    Passed s (s.dispose l e)
      ∧ ((s.dispose l e).live.lane l.other).requests = (s.live.lane l.other).requests
      ∧ ((s.dispose l e).live.lane l).requests = if isRejoin e.request = true then (s.live.lane l).requests
          else dropFirst e.request (s.live.lane l).requests := by
  unfold State.dispose
  by_cases hr : isRejoin e.request = true
  · simp [hr, Passed.refl]
  · have htaken : TakenAlone { s with
          live := s.live.setLane l (fun p => { p with requests := dropFirst e.request p.requests }) }
        (if takenAlone e.request = true then State.takeAlone e.request { s with
            live := s.live.setLane l (fun p => { p with requests := dropFirst e.request p.requests }) }
          else State.refuse e.request .laneDegraded { s with
            live := s.live.setLane l (fun p => { p with requests := dropFirst e.request p.requests }) }) := by
      split
      · exact takenAlone_takeAlone _ _
      · exact takenAlone_refuse _ _ _
    have hlane := passed_setLane s l (fun p => { p with requests := dropFirst e.request p.requests })
      (fun _ => rfl)
    simp only [hr, Bool.false_eq_true, if_false]
    refine ⟨hlane.trans htaken.toPassed, (htaken.requests _).trans ?_, (htaken.requests _).trans ?_⟩
    · simp [Live.lane_setLane]
    · simp

/-- The live lane's list dealt with in list order: the REJOINs stay. -/
theorem disposeAll (l : LaneId) (es : List PendingEntry) {s : State} {pre : List PendingEntry}
    (h : (s.live.lane l).requests = pre ++ es) (hpre : ∀ y ∈ pre, isRejoin y.request = true) :
    Passed s (es.foldl (State.dispose l) s)
      ∧ ((es.foldl (State.dispose l) s).live.lane l.other).requests = (s.live.lane l.other).requests
      ∧ ((es.foldl (State.dispose l) s).live.lane l).requests
          = pre ++ es.filter (fun y => isRejoin y.request) := by
  induction es generalizing s pre with
  | nil => exact ⟨.refl s, rfl, by simpa using h⟩
  | cons e es ih =>
    obtain ⟨hpassed, hother, hself⟩ := dispose_all l s e
    have hnext : ((s.dispose l e).live.lane l).requests
        = (pre ++ [e].filter (fun y => isRejoin y.request)) ++ es := by
      rw [hself, h]
      cases hr : isRejoin e.request with
      | true => simp [hr]
      | false =>
        have hne : ∀ y ∈ pre, y.request ≠ e.request := fun y hy heq => by
          have := hpre y hy
          rw [heq, hr] at this
          cases this
        simp [hr, dropFirst_of_front hne rfl]
    obtain ⟨h1, h2, h3⟩ := ih hnext (fun y hy => by
      rcases List.mem_append.1 hy with hy | hy
      · exact hpre y hy
      · exact (List.mem_filter.1 hy).2)
    refine ⟨hpassed.trans h1, h2.trans hother, h3.trans ?_⟩
    cases hr : isRejoin e.request <;> simp [hr]

/-- The pending lists when a lane becomes LOST. -/
theorem disposeLists_all (l : LaneId) (s : State) :
    Passed s (s.disposeLists l) ∧ ((s.disposeLists l).live.lane l).requests = []
      ∧ ((s.disposeLists l).live.lane l.other).requests
          = if s.env.mode = .degraded then
              (s.live.lane l.other).requests.filter (fun y => isRejoin y.request)
            else (s.live.lane l.other).requests := by
  have hw : Whole s.live ((s.live.lane l).requests.foldl
      (fun d e => d.report (refusal e.request .laneDegraded)) s.live) :=
    Whole.foldl _ (fun d (e : PendingEntry) => whole_report d (refusal e.request .laneDegraded)) _ _
  have hrefuse : Passed s { s with live := refuseList l s.live } :=
    (passed_live s _ hw.appended).trans (passed_setLane _ l (fun p => { p with requests := [] }) (fun _ => rfl))
  have hself : ((refuseList l s.live).lane l).requests = [] := by simp [refuseList]
  have hother : ((refuseList l s.live).lane l.other).requests = (s.live.lane l.other).requests := by
    unfold refuseList
    rw [Live.lane_setLane_other]
    exact hw.requests _
  have hall := disposeAll l.other ((refuseList l s.live).lane l.other).requests
    (s := { s with live := refuseList l s.live }) (pre := []) rfl (by simp)
  obtain ⟨h1, h2, h3⟩ := hall
  unfold State.disposeLists
  dsimp only
  split
  · refine ⟨hrefuse.trans h1, ?_, ?_⟩
    · simpa [LaneId.other_other] using h2.trans (by simpa [LaneId.other_other] using hself)
    · rw [h3, hother]
      rfl
  · exact ⟨hrefuse, hself, hother⟩

/-! ### A change of lane mode (R9, R146) -/

theorem element?_of_map {v w : Env} {g : Element → Element} (hg : ∀ e, (g e).num = e.num)
    (h : w.elements = v.elements.map g) (n : Nat) : w.element? n = (v.element? n).map g := by
  unfold Env.element?
  rw [h, List.find?_map]
  congr 2
  funext e
  simp [hg]

theorem changeMode_element {m : LaneMode} {s : State} {n : Nat} {e : Element} (he : s.env.element? n = some e) :
    (State.changeMode m s).env.element? n = some (s.env.derive e) := by
  rw [element?_of_map (v := s.env) (g := s.env.derive) (by simp) rfl, he]
  rfl

theorem changeMode_made (m : LaneMode) (s : State) :
    s.live.made (.laneMode s.env.mode s.env.presentA s.env.presentB) (State.changeMode m s).live :=
  (made_report _ _).whole (whole_changeMode m s)

/-! ### LANE_SILENCE_EXPIRY -/

/-- The environment in which a lane has just become LOST. -/
def Env.losing (v : Env) (l : LaneId) : Env := (v.setPresent l false).setSilence l none

theorem exec_laneSilenceExpiry {l : LaneId} {at_ : Time} {s : State} (ho : s.env.operating = true)
    (hp : s.env.present l = true) (hs : s.env.silence l = some at_) (hr : reached s.env.now at_ = true) :
    exec (.laneSilenceExpiry l) s = .next (s.loseLane l) := by
  show Host.Outcome.next (if (s.env.operating && s.env.present l && due s.env.now (s.env.silence l)) = true
    then _ else _) = _
  rw [if_pos (by simp [ho, hp, hs, due, hr])]

theorem mode_losing (v : Env) (l : LaneId) : (v.losing l).mode ≠ .normal
    ∧ ((v.losing l).mode = .degraded ↔ v.present l.other = true) := by
  cases l <;> cases ha : v.presentA <;> cases hb : v.presentB <;>
    simp [Env.losing, Env.mode, Env.setPresent, Env.setSilence, Env.present, LaneId.other, ha, hb]

theorem Passed.env_eq {α : Type} {s t : State} (h : Passed s t) (F : Env → α)
    (hF : ∀ (v : Env) es, F { v with elements := es } = F v := by intros; rfl) : F t.env = F s.env :=
  (hF t.env s.env.elements).symm.trans (congrArg F h.rest)

/-- What neither a change of lane mode nor the pending lists can change. -/
theorem env_of_loseLane {α : Type} (l : LaneId) (s : State) (F : Env → α)
    (hF : ∀ (v : Env) a b x y es,
      F { v with presentA := a, presentB := b, silenceA := x, silenceB := y, elements := es } = F v := by
        intros; rfl) : F (s.loseLane l).env = F s.env := by
  have h := (disposeLists_all l (State.changeMode s.env.mode { s with env := s.env.losing l })).1
  refine (h.env_eq F (fun v es => hF v v.presentA v.presentB v.silenceA v.silenceB es)).trans ?_
  cases l
  · exact hF s.env false s.env.presentB none s.env.silenceB _
  · exact hF s.env s.env.presentA false s.env.silenceA none _

/-- The lane marks and timers after a lane is lost. -/
theorem lanes_of_loseLane (l : LaneId) (s : State) :
    (s.loseLane l).env.present l = false ∧ (s.loseLane l).env.silence l = none
      ∧ (s.loseLane l).env.present l.other = s.env.present l.other
      ∧ (s.loseLane l).env.silence l.other = s.env.silence l.other
      ∧ (s.loseLane l).env.mode = (s.env.losing l).mode := by
  have h := (disposeLists_all l (State.changeMode s.env.mode { s with env := s.env.losing l })).1
  refine ⟨(h.env_eq (fun v => v.present l)).trans ?_, (h.env_eq (fun v => v.silence l)).trans ?_,
    (h.env_eq (fun v => v.present l.other)).trans ?_, (h.env_eq (fun v => v.silence l.other)).trans ?_,
    h.env_eq (fun v => v.mode)⟩ <;> cases l <;> rfl

theorem element_of_loseLane {l : LaneId} {s : State} {n : Nat} {e : Element} (he : s.env.element? n = some e) :
    ∃ f, (s.loseLane l).env.element? n = some f ∧ f.viewA = e.viewA ∧ f.viewB = e.viewB
      ∧ f.agreed = (s.loseLane l).env.deriveAgreed f ∧ f.dfn = e.dfn := by
  have h := (disposeLists_all l (State.changeMode s.env.mode { s with env := s.env.losing l })).1
  have he' : (s.env.losing l).element? n = some e := by simpa [Env.losing, Env.element?] using he
  obtain ⟨b, hb⟩ := h.element n _ (changeMode_element he')
  refine ⟨_, hb, by simp, by simp, ?_, by simp⟩
  have hpresence : (s.loseLane l).env.deriveAgreed = (s.env.losing l).deriveAgreed := by
    funext f
    exact deriveAgreed_presence (h.env_eq (fun v => v.presentA)) (h.env_eq (fun v => v.presentB)) f
  rw [hpresence]
  exact ((s.env.losing l).derive_agreed e).trans (Env.deriveAgreed_congr _ (by simp) (by simp) (by simp))

/-- Settles O43: the change of lane mode to one without the lane, and then the pending lists. The slots outside
NORMAL come from `upholds_loseLane`. -/
theorem laneSilenceLosesLane : Obligations.LaneSilenceLosesLane := by
  intro l at_ s ho hp hs hr
  let c := State.changeMode s.env.mode { s with env := s.env.losing l }
  obtain ⟨hpassed, hself, hother⟩ := disposeLists_all l c
  obtain ⟨h1, h2, h3, h4, hmode⟩ := lanes_of_loseLane l s
  have hw := whole_changeMode s.env.mode { s with env := s.env.losing l }
  have hreport := whole_report s.live (.laneMode (s.env.losing l).mode (s.env.losing l).presentA
    (s.env.losing l).presentB)
  refine ⟨s.loseLane l, exec_laneSilenceExpiry ho hp hs hr, hpassed.pending, h1, h2, h3, h4,
    env_of_loseLane l s (fun v => v.store), env_of_loseLane l s (fun v => v.startHold),
    env_of_loseLane l s (fun v => v.now), env_of_loseLane l s (fun v => v.as0),
    env_of_loseLane l s (fun v => v.as1), fun n e he => element_of_loseLane he, hself, hother.trans ?_,
    fun _ htables hslots => ?_, ?_⟩
  · have hlist : (c.live.lane l.other).requests = (s.live.lane l.other).requests :=
      (hw.requests _).trans (hreport.requests _)
    have hdegraded : c.env.mode = .degraded ↔ s.env.present l.other = true := (mode_losing s.env l).2
    simp only [hlist, hdegraded]
  · have hop : (s.loseLane l).env.operating = true :=
      (env_of_loseLane l s (fun v => v.operating)).trans ho
    obtain ⟨-, -, hout⟩ := (upholds_loseLane l s).sound htables hslots hop
    exact hout (hmode ▸ (mode_losing s.env l).1)
  · have hrep : Report.laneMode (s.loseLane l).env.mode (s.loseLane l).env.presentA (s.loseLane l).env.presentB
        = .laneMode (s.env.losing l).mode (s.env.losing l).presentA (s.env.losing l).presentB :=
      hpassed.env_eq (fun v => Report.laneMode v.mode v.presentA v.presentB)
    rw [hrep]
    exact (changeMode_made s.env.mode { s with env := s.env.losing l }).mono hpassed.appended

/-! ### REJOIN -/

/-- A REJOIN that the other lane has asked for too is taken, whatever the lane mode (R172). -/
theorem exec_rejoin_of_waiting {x : Exchange} {n : Nat} {s : State} (ho : s.env.operating = true)
    (h : ∃ e ∈ (s.live.lane x.lane.other).requests, e.request = .rejoin n) :
    exec (.rejoin x n) s = .next (takeRejoin n (s.paired x (.rejoin n))) := by
  obtain ⟨e, he, hq⟩ := h
  have hany : ((s.exchange x).live.lane x.lane.other).requests.any
      (fun e => decide (e.request = .rejoin n)) = true := by
    rw [State.exchange_requests]
    exact List.any_eq_true.mpr ⟨e, he, by simp [hq]⟩
  have hpair : pairOrWait (s.exchange x).env x.lane (.rejoin n) (s.exchange x).live
      = ((s.exchange x).live.setLane x.lane.other (LanePort.without (.rejoin n)), true) := by
    unfold pairOrWait
    rw [hany]
    rfl
  have hvote : vote (s.exchange x).env x.lane (.rejoin n) (s.exchange x).live
      = ((s.exchange x).live.setLane x.lane.other (LanePort.without (.rejoin n)), true) := by
    unfold vote
    simp only [isRejoin, if_true, hpair, ite_self]
  have hgate : gate (s.paired x (.rejoin n)).env (.rejoin n) = none :=
    (gate_paired s x _ _).trans (gate_of_not_load (c := .rejoin x n) rfl rfl ho)
  have hhand := State.hand_of_gate (s.paired x (.rejoin n)) (.rejoin n) (takeRejoin n) hgate
  refine (exec_of_vote (c := .rejoin x n) rfl s).trans (congrArg _ ?_)
  unfold State.voted
  simp only [hvote, if_true]
  exact hhand

/-- The environment in which a lane has just been marked PRESENT. -/
def Env.joining (v : Env) (l : LaneId) : Env :=
  { (v.setPresent l true).setSilence l (some (after v.now v.timing.laneTimeout)) with
    elements := v.elements.map (fun e => e.setView l none) }

theorem takeRejoin_of_lost {l : LaneId} {n : Nat} {p : State} (hl : laneOf n = some l)
    (hp : p.env.present l = false) :
    takeRejoin n p = State.changeMode p.env.mode { p with env := p.env.joining l } := by
  unfold takeRejoin
  simp only [hl, hp]
  simp [Env.joining]

theorem takeRejoin_of_bad {n : Nat} {p : State}
    (h : laneOf n = none ∨ ∃ l, laneOf n = some l ∧ p.env.present l = true) :
    takeRejoin n p = p.refuse (.rejoin n) .badOperand := by
  unfold takeRejoin
  rcases h with h | ⟨l, h, hp⟩
  · simp only [h]
  · simp [h, hp]

/-- A lane rejoined (R148). -/
def State.rejoined (l : LaneId) (p : State) : State :=
  State.changeMode p.env.mode { p with env := p.env.joining l }

theorem env_of_rejoined {α : Type} (l : LaneId) (p : State) (F : Env → α)
    (hF : ∀ (v : Env) a b x y es,
      F { v with presentA := a, presentB := b, silenceA := x, silenceB := y, elements := es } = F v := by
        intros; rfl) : F (p.rejoined l).env = F p.env := by
  cases l
  · exact hF p.env true p.env.presentB _ p.env.silenceB _
  · exact hF p.env p.env.presentA true p.env.silenceA _ _

theorem lanes_of_rejoined (l : LaneId) (p : State) :
    (p.rejoined l).env.present l = true ∧ (p.rejoined l).env.present l.other = p.env.present l.other
      ∧ (p.rejoined l).env.silence l = some (after p.env.now p.env.timing.laneTimeout) := by
  cases l <;> exact ⟨rfl, rfl, rfl⟩

theorem element_of_rejoined {l : LaneId} {p : State} {m : Nat} {e : Element} (he : p.env.element? m = some e) :
    ∃ f, (p.rejoined l).env.element? m = some f ∧ f.view l = none ∧ f.view l.other = e.view l.other
      ∧ f.agreed = (p.rejoined l).env.deriveAgreed f ∧ f.dfn = e.dfn ∧ f.blocked = e.blocked := by
  have hjoin : (p.env.joining l).element? m = some (e.setView l none) := by
    rw [element?_of_map (v := p.env) (g := fun e => e.setView l none) (by simp) rfl, he]
    rfl
  refine ⟨_, changeMode_element (m := p.env.mode) (s := { p with env := p.env.joining l }) hjoin, ?_, ?_, ?_, ?_, ?_⟩
  · simp
  · cases l <;> simp [LaneId.other]
  · have hpresence : (p.rejoined l).env.deriveAgreed = (p.env.joining l).deriveAgreed := by
      funext f
      exact deriveAgreed_presence rfl rfl f
    rw [hpresence, Env.derive_agreed]
    exact Env.deriveAgreed_congr _ (by simp) (by simp) (by simp)
  · simp
  · simp

theorem rejoined_made (l : LaneId) (p : State) : p.live.made
    (.laneMode (p.rejoined l).env.mode (p.rejoined l).env.presentA (p.rejoined l).env.presentB)
      (p.rejoined l).live :=
  changeMode_made p.env.mode { p with env := p.env.joining l }

/-- Settles O44: the change of lane mode to one with the lane, its views UNREPORTED. -/
theorem rejoinMarksLanePresent : Obligations.RejoinMarksLanePresent := by
  intro x n s ho hq
  have hexec := exec_rejoin_of_waiting ho hq
  have hpending : (s.paired x (.rejoin n)).pending = s.pending := State.paired_pending s x (.rejoin n)
  have hpresent (l : LaneId) : (s.paired x (.rejoin n)).env.present l = s.env.present l :=
    env_of_paired (fun v => v.present l) s x _ (fun _ _ _ => by cases l <;> rfl)
  have hnow : (s.paired x (.rejoin n)).env.now = s.env.now := env_of_paired (fun v => v.now) s x _
  have htiming : (s.paired x (.rejoin n)).env.timing = s.env.timing := env_of_paired (fun v => v.timing) s x _
  have hstore : (s.paired x (.rejoin n)).env.store = s.env.store := env_of_paired (fun v => v.store) s x _
  have hhold : (s.paired x (.rejoin n)).env.startHold = s.env.startHold :=
    env_of_paired (fun v => v.startHold) s x _
  have helement (m : Nat) : (s.paired x (.rejoin n)).env.element? m = s.env.element? m :=
    env_of_paired (fun v => v.element? m) s x _
  refine ⟨fun hbad => ⟨_, hexec.trans (congrArg _ (takeRejoin_of_bad ?_)), rfl, hpending, rfl⟩,
    fun l hl hlost => ?_⟩
  · simpa only [hpresent] using hbad
  · have htake := takeRejoin_of_lost hl ((hpresent l).trans hlost)
    generalize s.paired x (.rejoin n) = p at *
    obtain ⟨h1, h2, h3⟩ := lanes_of_rejoined l p
    refine ⟨p.rejoined l, hexec.trans (congrArg _ htake), hpending, h1, h2.trans (hpresent _), ?_,
      (env_of_rejoined l p (fun v => v.store)).trans hstore,
      (env_of_rejoined l p (fun v => v.startHold)).trans hhold,
      (env_of_rejoined l p (fun v => v.now)).trans hnow,
      fun m e he => element_of_rejoined ((helement m).trans he), rejoined_made l p⟩
    · rw [h3, hnow, htiming]

end Sys2Proof.Machine
end

section
/-! PROOF. The loads (R22, R176), the starts (R132, R177) and RESTART(UNLOAD) (R178). -/

namespace Sys2Proof.Machine

open Sys2Proof

/-! ### LOAD_BEGIN, LOAD_RECORD and a failing LOAD_END -/

/-- Outside OPERATING no silence timer restarts. -/
theorem paired_env_of_not_operating {s : State} {x : Exchange} {q : Request} (h : s.env.operating = false) :
    (s.paired x q).env = s.env := by
  have henv : (s.paired x q).env = s.env.heard x.lane := State.exchange_env s x
  rw [henv, Env.heard_eq_ite, if_neg (by simp [h])]

theorem part_of_staged {v : Env} {st : Staged} (h : v.store = .staged st) : v.part = .loading := by
  simp [Env.part, h]

theorem operating_of_staged {v : Env} {st : Staged} (h : v.store = .staged st) : v.operating = false := by
  simp [Env.operating, part_of_staged h]

theorem gate_loadBegin {v : Env} (h : v.operating = false) : gate v .loadBegin = none := by
  have hpart : v.part ≠ .operating := by simpa [Env.operating] using h
  unfold gate
  cases hv : v.part with
  | operating => exact absurd hv hpart
  | unconfigured => rfl
  | loading => rfl

/-- The request that pairs while LOADING reaches its owner with the environment as it stood. -/
theorem exec_of_loading {c : Instr} {x : Exchange} {q : Request} {s : State} {st : Staged}
    (hv : voteOf c = some (x, q)) (hp : s.pairs x q) (hs : s.env.store = .staged st)
    (hg : gate s.env q = none) :
    exec c s = .next (ownerOf c { s.paired x q with env := s.env }) := by
  rw [exec_of_handed hv hp hg, ← paired_env_of_not_operating (x := x) (q := q) (operating_of_staged hs)]

theorem gate_loadRecord {v : Env} {st : Staged} (h : v.store = .staged st) (p : List Byte) :
    gate v (.loadRecord p) = none := by
  unfold gate
  rw [part_of_staged h]

theorem gate_loadEnd {v : Env} {st : Staged} (h : v.store = .staged st) (g : Nat) :
    gate v (.loadEnd g) = none := by
  unfold gate
  rw [part_of_staged h]

/-- When a payload is filed (R22). -/
theorem Staged.take_eq (p : List Byte) (st : Staged) : ∃ y : StagedRecord,
    st.take p = { records := st.records ++ [y], digest := crcFrom st.digest p }
      ∧ y.payload = p ∧ y.record = recordOf p
      ∧ (y.filed = true ↔ ∃ q, recordOf p = some q ∧ keyOk q = true
          ∧ ∀ z ∈ st.filed, clashes z.2 q = false) := by
  refine ⟨_, rfl, rfl, rfl, ?_⟩
  dsimp only
  cases recordOf p with
  | none => simp
  | some r => simp

theorem endLoad_of_failed {s : State} {g : Nat} {st : Staged} {o : LoadOutcome} (hs : s.env.store = .staged st)
    (h : (st.digest.toNat ≠ g ∧ o = .digestFailed)
      ∨ (st.digest.toNat = g ∧ ∃ i k c, firstOffence st = some (i, k, c) ∧ o = .invalid i k c)) :
    s.endLoad g = s.failLoad o := by
  unfold State.endLoad
  simp only [hs]
  rcases h with ⟨hd, rfl⟩ | ⟨rfl, i, k, c, hoff, rfl⟩
  · simp [hd]
  · simp [hoff]

/-- Settles O46: the owners of the three requests, on the state that the pairing leaves. -/
theorem loadFillsAndFailsStagedSet : Obligations.LoadFillsAndFailsStagedSet := by
  intro x s
  refine ⟨fun hp ho => ⟨_, exec_of_handed (c := .loadBegin x) rfl hp (gate_loadBegin ho), ?_⟩, fun p st hp hs => ?_, fun g st o hp hs hfail => ?_⟩
  · show State.openLoad (s.paired x .loadBegin) = _
    rw [← paired_env_of_not_operating (x := x) (q := .loadBegin) ho]
    rfl
  · obtain ⟨y, htake, h1, h2, h3⟩ := Staged.take_eq p st
    refine ⟨_, y, exec_of_loading (c := .loadRecord x p) rfl hp hs (gate_loadRecord hs p), ?_, h1, h2, h3⟩
    show State.takeRecord p { s.paired x (.loadRecord p) with env := s.env } = _
    unfold State.takeRecord
    simp only [hs, htake]
  · have hend := endLoad_of_failed (s := { s.paired x (.loadEnd g) with env := s.env }) hs hfail
    exact ⟨_, (exec_of_loading (c := .loadEnd x g) rfl hp hs (gate_loadEnd hs g)).trans (congrArg _ hend),
      State.paired_pending s x (.loadEnd g), rfl, rfl⟩

/-! ### RESTART(UNLOAD) -/

theorem gate_unload (v : Env) : gate v (.restart 1) = none := by
  unfold gate
  cases v.part <;> rfl

/-- Settles O48. -/
theorem restartUnloadLeavesUnconfigured : Obligations.RestartUnloadLeavesUnconfigured := by
  intro x s
  refine ⟨fun o hp ho h0 h1 => ?_, fun hp => ?_⟩
  · have hkeep : takeRestartKeep o (s.paired x (.restart o)) = (s.paired x (.restart o)).refuse (.restart o) .badOperand :=
      if_neg h0
    exact ⟨_, (exec_of_operating (c := .restartKeep x o) rfl hp rfl ho).trans (congrArg _ hkeep), rfl,
      State.paired_pending s x (.restart o), rfl⟩
  · have hexec := exec_of_handed (c := .restartUnload x) rfl hp (gate_unload s.env)
    have hpart : (s.paired x (.restart 1)).env.part = s.env.part := env_of_paired (fun v => v.part) s x _
    refine ⟨fun hu => hexec.trans (congrArg _ (if_pos (hpart.trans hu))), fun hu => ?_⟩
    have hun : (s.paired x (.restart 1)).restartUnloaded = _ := if_neg (hpart ▸ hu)
    refine ⟨_, hexec.trans (congrArg _ hun), State.paired_pending s x (.restart 1), ?_, rfl, fun l => ?_⟩
    · have henv := env_of_paired (fun v => ({ Env.bare v.as0 v.as1 with now := v.now } : Env)) s x (.restart 1)
      exact henv
    · cases l <;> rfl

/-! ### The starts (R132, R177) -/

/-- The restart values, whatever the report queues hold. -/
def Restarted (v : Env) (d : Live) : Prop :=
  ({ d with laneA := LanePort.empty, laneB := LanePort.empty } : Live)
    = restartLive v LanePort.empty LanePort.empty

theorem Restarted.nothingHeld {v : Env} {d : Live} (h : Restarted v d) : NothingHeld d := by
  have hrest := restartLive_rest v LanePort.empty LanePort.empty
  rw [← h] at hrest
  exact ⟨hrest.slot, hrest.stop⟩

theorem Restarted.groups {v : Env} {d : Live} (h : Restarted v d) :
    d.groups = List.replicate 8 StopGroup.inactive := congrArg Live.groups h

theorem latchedOnly_startUpLatch {v : Env} {d : Live} (h : Restarted v d) :
    LatchedOnly v 8 d (startUpLatch v d) := by
  have hlen : d.groups.length = 8 := by rw [h.groups]; rfl
  have hall := startUpLatch_all v d h.nothingHeld d.groups.length
  rw [hlen] at hall
  unfold startUpLatch
  rw [hlen]
  exact hall

theorem not_isEmpty_assertedSources (v : Env) (d : Live) (g : Nat) : (!(assertedSources v d g).isEmpty) = true ↔
    ∃ src ∈ levelSources, v.hasSource g src = true ∧ levelOf v d src = true := by
  rw [Bool.not_eq_true', ← Bool.not_eq_true, assertedSources_empty]
  push Not
  simp

theorem levelOf_congr {v w : Env} {d e : Live} (h0 : v.as0 = w.as0) (h1 : v.as1 = w.as1) (h : d.links = e.links)
    (src : Source) : levelOf v d src = levelOf w e src := by
  cases src <;> simp [levelOf, Live.linkAsserted, Live.link, h0, h1, h]

/-- A group after the start-up latch. -/
theorem startUpLatch_group {v : Env} {d : Live} (h : Restarted v.startUp d) {g : Nat} (hg : g < 8) :
    ((startUpLatch v.startUp d).group g).active = true ↔
      ∃ src ∈ levelSources, v.hasSource g src = true ∧ levelOf v (startUpLatch v.startUp d) src = true := by
  have hl := latchedOnly_startUpLatch h
  have hinactive : (d.group g).active = false := by
    rw [Live.group, h.groups, List.getD_eq_getElem?_getD, List.getElem?_replicate, if_pos hg]
    rfl
  have hlen : d.groups.length = 8 := by rw [h.groups]; rfl
  rw [hl.group g, hinactive, hlen]
  simp only [hg, decide_true, Bool.false_or, Bool.true_and]
  rw [not_isEmpty_assertedSources]
  have hlevel (src : Source) : levelOf v.startUp d src = levelOf v (startUpLatch v.startUp d) src :=
    levelOf_congr rfl rfl hl.links.symm src
  simp only [hlevel]
  rfl

/-- What every start leaves of the live state. -/
theorem startUpLatch_restarted {v : Env} {d : Live} (h : Restarted v.startUp d) :
    (startUpLatch v.startUp d).slots = List.replicate 48 Slot.free
      ∧ (startUpLatch v.startUp d).stored = [] ∧ (startUpLatch v.startUp d).orders = []
      ∧ (startUpLatch v.startUp d).controls = v.elements.map (fun e => Control.fresh e.num)
      ∧ (startUpLatch v.startUp d).boundaries = v.defs.boundaries.map (fun b => Boundary.fresh b.number)
      ∧ (startUpLatch v.startUp d).links = (List.range 4).map (Link.start v.startUp)
      ∧ (startUpLatch v.startUp d).power = List.replicate 4 PowerGroup.idle := by
  have hl := latchedOnly_startUpLatch h
  exact ⟨hl.slots.trans (congrArg Live.slots h), hl.stored.trans (congrArg Live.stored h),
    hl.orders.trans (congrArg Live.orders h), hl.controls.trans (congrArg Live.controls h),
    hl.bounds.trans (congrArg Live.boundaries h), hl.links.trans (congrArg Live.links h),
    hl.power.trans (congrArg Live.power h)⟩

/-- An element with the values of a load or a restart. -/
def Element.afresh (e : Element) : Prop :=
  e.viewA = none ∧ e.viewB = none ∧ e.agreed = e.dfn.kind.safe ∧ e.occupied = e.isSection
    ∧ e.discExpiry = none ∧ e.pickUp = none

theorem afresh_of_loaded {rs : List (Nat × Record)} {e : Element} (h : e ∈ loadedElements rs) :
    e.afresh ∧ e.blocked = false := by
  rw [loadedElements, mem_sortBy] at h
  obtain ⟨x, _, hx⟩ := List.mem_filterMap.1 h
  split at hx
  · next n df _ _ =>
    obtain rfl : newElement n df = e := by simpa using hx
    refine ⟨⟨rfl, rfl, rfl, ?_, rfl, rfl⟩, rfl⟩
    unfold newElement Element.isSection
    cases df.kind <;> rfl
  · cases hx

theorem afresh_restart (b : Bool) (e : Element) : (e.restart b).afresh := ⟨rfl, rfl, rfl, rfl, rfl, rfl⟩

theorem endLoad_of_passed {s : State} {g : Nat} {st : Staged} (hs : s.env.store = .staged st)
    (hd : st.digest.toNat = g) (hoff : firstOffence st = none) : s.endLoad g = s.standLoad st := by
  unfold State.endLoad
  simp [hs, hd, hoff]

/-- A restart reports the lane mode first (R177). -/
theorem restarted_reports (w : Env) (A B : LanePort) (l : LaneId) :
    ((startUpLatch w.startUp ((restartLive w.startUp A.emptied B.emptied).report
        (.laneMode .normal true true))).lane l).reports.head? = some (.laneMode .normal true true) := by
  have hl := latchedOnly_startUpLatch (v := w.startUp)
    (d := (restartLive w.startUp A.emptied B.emptied).report (.laneMode .normal true true)) rfl
  obtain ⟨rest, hrest⟩ := hl.reports l
  rw [← hrest]
  cases l <;> rfl

theorem restarted_requests (w : Env) (A B : LanePort) (l : LaneId) :
    ((startUpLatch w.startUp ((restartLive w.startUp A.emptied B.emptied).report
        (.laneMode .normal true true))).lane l).requests = [] := by
  have hl := latchedOnly_startUpLatch (v := w.startUp)
    (d := (restartLive w.startUp A.emptied B.emptied).report (.laneMode .normal true true)) rfl
  rw [hl.requests l]
  cases l <;> rfl

/-- Settles O47. -/
theorem startsTakeUpRestartValues : Obligations.StartsTakeUpRestartValues := by
  intro x s v load c q h
  rcases h with ⟨rfl, g, st, rfl, rfl, hp, hs, hd, hoff, rfl⟩ | ⟨rfl, rfl, rfl, hp, ho, rfl⟩
  · have hend := endLoad_of_passed (s := { s.paired x (.loadEnd g) with env := s.env }) hs hd hoff
    have hexec := (exec_of_loading (c := .loadEnd x g) rfl hp hs (gate_loadEnd hs g)).trans (congrArg _ hend)
    let d := (s.paired x (.loadEnd g)).live.report
      (.loadResult (.loaded (adjustments st).length ((adjustments st).take 8)))
    let w : Env := { s.env with store := .standing (standingOf st), elements := loadedElements st.filed }
    have hd : Restarted w.startUp (restartLive w.startUp d.laneA d.laneB) := rfl
    obtain ⟨h1, h2, h3, h4, h5, h6, h7⟩ := startUpLatch_restarted hd
    refine ⟨_, hexec, rfl, State.paired_pending s x (.loadEnd g), rfl, rfl, h1, h2, h3, h4, h5, h6, h7,
      fun g hg => startUpLatch_group hd hg, fun e he => ?_, fun _ l => ?_, nofun⟩
    · obtain ⟨⟨a1, a2, a3, a4, a5, a6⟩, hb⟩ := afresh_of_loaded he
      exact ⟨a1, a2, a3, a4, a5, a6, fun _ => hb⟩
    · have hd0 : (d.lane l).requests = ((s.paired x (.loadEnd g)).live.lane l).requests :=
        (calm_report _ _).requests l
      refine ((latchedOnly_startUpLatch hd).requests l).trans (Eq.trans ?_ hd0)
      cases l <;> rfl
  · let p := s.paired x (.restart 0)
    let w : Env := { s.env with elements := s.env.elements.map (fun e => e.restart e.blocked) }
    have hw : Env.startUp { p.env with elements := p.env.elements.map (fun e => e.restart e.blocked) }
        = w.startUp :=
      env_of_paired (fun v => Env.startUp { v with elements := v.elements.map (fun e => e.restart e.blocked) })
        s x (.restart 0)
    let d := (restartLive w.startUp p.live.laneA.emptied p.live.laneB.emptied).report (.laneMode .normal true true)
    have hkeep : takeRestartKeep 0 p = { p with env := w.startUp, live := startUpLatch w.startUp d } := by
      show State.restartKept p = _
      unfold State.restartKept
      simp only [hw]
      rfl
    have hexec := (exec_of_operating (c := .restartKeep x 0) rfl hp rfl ho).trans (congrArg _ hkeep)
    have hd : Restarted w.startUp d := rfl
    obtain ⟨h1, h2, h3, h4, h5, h6, h7⟩ := startUpLatch_restarted hd
    refine ⟨_, hexec, rfl, State.paired_pending s x (.restart 0), ho, rfl, h1, h2, h3, h4, h5, h6, h7,
      fun g hg => startUpLatch_group hd hg, fun e he => ?_, nofun,
      fun _ l => ⟨restarted_requests w _ _ l, restarted_reports w _ _ l⟩⟩
    obtain ⟨y, _, rfl⟩ := List.mem_map.1 he
    obtain ⟨a1, a2, a3, a4, a5, a6⟩ := afresh_restart y.blocked y
    exact ⟨a1, a2, a3, a4, a5, a6, nofun⟩

end Sys2Proof.Machine
end

section
/-! PROOF. A slot released whole at its setting timer or its hold (R70, R124), and an overlap at its timer
(R117). -/

namespace Sys2Proof.Machine

open Sys2Proof

/-! ### Whole releases, with no stored request -/

theorem quiet_serve_of_no_stored {v : Env} {d : Live} (h : d.stored = []) : Quiet d (serve v d) := by
  rw [serve_of_no_stored v d h]
  exact quiet_setReeval d false

theorem Quiet.moved {d e : Live} (h : Quiet d e) : Moved d e := by
  have hm : Moved d (e.setReeval d.reeval) := Calm.moved h
  exact hm.trans (moved_setReeval (e.setReeval d.reeval) e.reeval)

theorem lock_of_claims {d e : Live} (h : d.claimsStand e) (n : Nat) : (e.control n).lock = (d.control n).lock :=
  congrArg Prod.fst (h n)

theorem GaveUp.moved {rt : RouteDef} {i : Nat} {d e f : Live} (h : GaveUp rt i d e) (k : Moved e f) :
    GaveUp rt i d f := by
  refine ⟨?_, k.stored.trans h.stored, fun n => (lock_of_claims k.claimsStand n).trans (h.locks n), fun j hj => ?_,
    fun j hj => (h.told j hj).trans (k.slot j).told, portsStand_trans h.ports k.portsStand⟩
  · exact ((k.slot i).still (by rw [h.free]; rfl)).trans h.free
  · obtain ⟨h1, h2, h3, h4⟩ := h.others j hj
    exact ⟨(k.slot j).route.trans h1, (k.slot j).pathMarks.trans h2, (k.slot j).overlapMarks.trans h3,
      (k.slot j).flank.trans h4⟩

/-- A slot given up on an event of R71, with nothing stored. -/
theorem gaveUp_failSetting {v : Env} {i : Nat} {re : Reason} {d : Live} {rt : RouteDef}
    (hrt : d.routeOf v i = some rt) (hs : (d.slot i).state = .setting) (hst : d.stored = []) :
    GaveUp rt i d (failSetting v i re d) := by
  have h := giveUpSlot_all v i (some re) false d rt hrt
  have hserve := h.moved (quiet_serve_of_no_stored (v := v) (h.stored.trans hst)).moved
  unfold failSetting settingRelease
  rw [if_pos hs]
  simp only [hrt]
  exact hserve.moved (calm_computeAspect v rt.entry _).moved

/-- Settles O33: both expiries give the slot up whole. -/
theorem settingAndHoldExpiriesFreeSlot : Obligations.SettingAndHoldExpiriesFreeSlot := by
  intro i rt at_ c s hrt hst hc hre
  obtain ⟨f, heff, hgave⟩ : ∃ f, effectOf c = some f ∧ GaveUp rt i s.live (f s.env s.live) := by
    rcases hc with ⟨rfl, hstate, htime⟩ | ⟨rfl, hstate, htime⟩
    · refine ⟨settingDue i, rfl, ?_⟩
      have hdue : settingDue i s.env s.live = failSetting s.env i .settingTimeout s.live :=
        if_pos (by simp [htime, due, hre])
      rw [hdue]
      exact gaveUp_failSetting hrt hstate hst
    · refine ⟨holdDue i, rfl, ?_⟩
      have hdue : holdDue i s.env s.live = giveUpSlot s.env i none false s.live :=
        if_pos (by simp [hstate, htime, due, hre])
      rw [hdue]
      exact giveUpSlot_all s.env i none false s.live rt hrt
  have h : GaveUp rt i s.live (s.act f).live :=
    hgave.moved (quiet_serve_of_no_stored (hgave.stored.trans hst)).moved
  exact ⟨_, exec_of_effect heff s, rfl, rfl, h.free, h.locks, h.others, h.stored.trans hst, h.ports⟩

/-! ### OVERLAP_EXPIRY -/

/-- A slot whose overlap has just been released whole. -/
def Slot.overlapFreed (s : Slot) : Slot :=
  { s with
    overlapExpiry := none
    overlapMarks := s.overlapMarks.map (fun m => if m.transferred then m else { m with released := true }) }

theorem Slot.overlapFreed_done (s : Slot) : s.overlapFreed.overlapDone = true := by
  unfold Slot.overlapDone Slot.overlapFreed
  simp only [List.all_map, List.all_eq_true, Function.comp]
  intro m _
  split
  · next h => simp [h]
  · simp

theorem portsStand_of_same {d e : Live} (h : SameTables d e) : d.portsStand e := by
  intro l
  have hl : e.lane l = d.lane l := by
    cases l
    · exact h.laneA
    · exact h.laneB
  rw [hl]
  exact ⟨rfl, rfl, List.prefix_rfl⟩

/-- The overlap of a slot in ENTERED released whole, with nothing stored. -/
structure OverlapFreed (rt : RouteDef) (i : Nat) (d e : Live) : Prop where
  expiry : (e.slot i).overlapExpiry = none
  done : (e.slot i).overlapDone = true
  locks : ∀ n, (e.control n).lock = if (ownOverlap rt (d.slot i)).any (fun e => e.element = n)
      && (d.control n).lock.any (fun k => k.holder = .slot i) then none else (d.control n).lock
  stored : e.stored = d.stored
  ports : d.portsStand e

/-- The removals of an overlap released whole, before they are handed on. -/
def overlapRemoval (v : Env) (rt : RouteDef) (i : Nat) (d : Live) : Release :=
  (Release.start (d.setSlot i Slot.overlapFreed)).removeLocks v (.slot i)
    ((ownOverlap rt (d.slot i)).map Entry.element)

theorem overlapWhole_eq {v : Env} {rt : RouteDef} {i : Nat} {d : Live} (h : d.routeOf v i = some rt) :
    overlapWhole v i d = endPassage v i ((overlapRemoval v rt i d).handOn v) := by
  unfold overlapWhole
  simp only [h]
  rfl

theorem overlapFreed_handOn {v : Env} {rt : RouteDef} {i : Nat} {d : Live} (hi : i < d.slots.length)
    (hs : (d.slot i).state = .entered) : OverlapFreed rt i d ((overlapRemoval v rt i d).handOn v)
      ∧ ((overlapRemoval v rt i d).handOn v).slot i = (d.slot i).overlapFreed := by
  obtain ⟨hsame, hslots, hlocks⟩ := removeLocks_all v (.slot i) ((ownOverlap rt (d.slot i)).map Entry.element)
    (Release.start (d.setSlot i Slot.overlapFreed))
  have hm : Moved (overlapRemoval v rt i d).live ((overlapRemoval v rt i d).handOn v) := moved_handOn v _
  have hslot : (overlapRemoval v rt i d).live.slot i = (d.slot i).overlapFreed :=
    (Live.slot_congr hslots i).trans (setSlot_slot_self hi _)
  have hslot' : ((overlapRemoval v rt i d).handOn v).slot i = (d.slot i).overlapFreed := by
    refine ((hm.slot i).still ?_).trans hslot
    rw [hslot]
    simp [Slot.needsExit, Slot.overlapFreed, hs]
  refine ⟨⟨by rw [hslot']; rfl, by rw [hslot', Slot.overlapFreed_done], fun n => ?_, hm.stored.trans hsame.stored,
    ?_⟩, hslot'⟩
  · refine (lock_of_claims hm.claimsStand n).trans ((hlocks n).trans ?_)
    have hlock : ((Release.start (d.setSlot i Slot.overlapFreed)).live.control n).lock = (d.control n).lock := rfl
    rw [hlock]
    simp only [List.mem_map, Bool.and_eq_true, List.any_eq_true, decide_eq_true_eq]
  · exact portsStand_trans (portsStand_of_same (d := d.setSlot i Slot.overlapFreed) hsame) hm.portsStand

/-- Settles O34: the overlap released whole, and with it perhaps the whole slot. -/
theorem overlapExpiryReleasesOverlap : Obligations.OverlapExpiryReleasesOverlap := by
  intro i rt at_ s hrt hst htime hre hstate
  obtain ⟨hfreed, hslot⟩ := overlapFreed_handOn (v := s.env) (rt := rt) (active_lt (routeOf_active hrt)) hstate
  obtain ⟨hpassage, hclaims, hports, hstored⟩ := endPassage_all s.env i
    ((overlapRemoval s.env rt i s.live).handOn s.env)
  have hdue : overlapDue i s.env s.live
      = endPassage s.env i ((overlapRemoval s.env rt i s.live).handOn s.env) := by
    unfold overlapDue
    rw [if_pos (by simp [htime, due, hre]), overlapWhole_eq hrt]
  have hq : Quiet (overlapDue i s.env s.live) (s.act (overlapDue i)).live :=
    quiet_serve_of_no_stored (by rw [hdue, hstored, hfreed.stored, hst])
  rw [hdue] at hq
  have hm := hq.moved
  have hend : ((s.act (overlapDue i)).live.slot i).overlapExpiry = none
      ∧ ((s.act (overlapDue i)).live.slot i).overlapDone = true := by
    rcases hpassage with h | ⟨h, -, -⟩
    · rw [h] at hm
      rw [(hm.slot i).still (by rw [hslot]; simp [Slot.needsExit, Slot.overlapFreed, hstate])]
      exact ⟨hfreed.expiry, hfreed.done⟩
    · rw [(hm.slot i).still (by rw [h]; rfl), h]
      exact ⟨rfl, rfl⟩
  refine ⟨_, exec_of_effect rfl s, rfl, rfl, hend.1, hend.2, fun n => ?_,
    hm.stored.trans (hstored.trans (hfreed.stored.trans hst)),
    portsStand_trans (portsStand_trans hfreed.ports hports) hm.portsStand⟩
  exact (lock_of_claims hm.claimsStand n).trans ((lock_of_claims hclaims n).trans (hfreed.locks n))

end Sys2Proof.Machine
end

section
/-! PROOF. A SET_ROUTE taken up (R46, R62): its locks are in `TookUp`; here its flank protectors and the counts
that have grown by them. -/

namespace Sys2Proof.Machine

open Sys2Proof

/-! ### The flank protectors of a slot -/

/-- Every flank count has grown by the requirements of a slot that hold the protector, and each of its `n`
requirements holds one (R46). -/
structure Protected (i n : Nat) (d e : Live) : Prop where
  lt : i < e.slots.length
  exit : (e.slot i).needsExit = true
  length : (e.slot i).flank.length = n
  held : ∀ h ∈ (e.slot i).flank, h.protector ≠ none
  nums : e.controls.map Control.num = d.controls.map Control.num
  count : ∀ q : Protector, d.hasControl q.element → e.counted q = d.counted q + (e.slot i).holdsOf q

theorem counted_of_claims {d e : Live} (h : d.claimsStand e) (q : Protector) : e.counted q = d.counted q := by
  refine counted_of_ties (fun n => ?_) q
  have hn := h n
  simp only [Control.claims, Prod.mk.injEq] at hn
  simp [Control.ties, hn]

/-- An act that changes no flank requirement of the slot and no flank count. -/
theorem Protected.told {i n : Nat} {d e f : Live} (h : Protected i n d e) (hs : SlotTold (e.slot i) (f.slot i))
    (hl : i < f.slots.length) (hn : f.controls.map Control.num = e.controls.map Control.num)
    (hc : e.claimsStand f) : Protected i n d f := by
  obtain ⟨-, -, -, hflank, -⟩ := told_fields hs
  refine ⟨hl, hs.goes h.exit, by rw [hflank, h.length], by rw [hflank]; exact h.held, hn.trans h.nums, fun q hq => ?_⟩
  rw [counted_of_claims hc, h.count q hq]
  unfold Slot.holdsOf
  rw [hflank]

theorem Protected.moved {i n : Nat} {d e f : Live} (h : Protected i n d e) (k : Moved e f) : Protected i n d f :=
  h.told (k.slot i).told (k.slotCount ▸ h.lt) k.nums k.claimsStand

/-- A change of the slot that leaves its requirements. -/
theorem Protected.setSlot {i n j : Nat} {d e : Live} (h : Protected i n d e) {f : Slot → Slot}
    (hf : ∀ s, (f s).flank = s.flank ∧ (f s).state = s.state) : Protected i n d (e.setSlot j f) := by
  have hflank : ((e.setSlot j f).slot i).flank = (e.slot i).flank
      ∧ ((e.setSlot j f).slot i).state = (e.slot i).state := by
    rw [Live.slot_setSlot]
    split
    · next hj => exact hf _
    · exact ⟨rfl, rfl⟩
  refine ⟨by simpa using h.lt, ?_, by rw [hflank.1, h.length], by rw [hflank.1]; exact h.held, h.nums, fun q hq => ?_⟩
  · have hexit := h.exit
    unfold Slot.needsExit at hexit ⊢
    rwa [hflank.2]
  · have hcount := h.count q hq
    unfold Slot.holdsOf at hcount ⊢
    rw [hflank.1, ← hcount]
    cases q <;> rfl

/-! ### The placement -/

/-- An entry placed changes no flank requirement and no flank count. -/
theorem placeEntry_flanks (v : Env) (i : Nat) (r : RouteDef) (m : LockMode) (e : Entry) (d : Live) :
    (∀ j, ((placeEntry v i r m e d).slot j).flank = (d.slot j).flank)
      ∧ ∀ q, (placeEntry v i r m e d).counted q = d.counted q := by
  have hgive : ∀ d1 : Live, d1.controls = d.controls → (∀ j, (d1.slot j).flank = (d.slot j).flank) →
      (∀ j, ((d1.setControl e.element (fun c =>
          { c with lock := some { holder := .slot i, mode := m } })).slot j).flank = (d.slot j).flank)
        ∧ ∀ q, (d1.setControl e.element (fun c =>
          { c with lock := some { holder := .slot i, mode := m } })).counted q = d.counted q := by
    intro d1 hc hs
    refine ⟨hs, fun q => (counted_setControl e.element
      (fun c => { c with lock := some { holder := .slot i, mode := m } }) (fun _ => rfl)
      (fun _ => ⟨rfl, rfl, rfl⟩) q).trans ?_⟩
    cases q <;> simp [Live.counted, Live.control_congr hc]
  unfold placeEntry
  dsimp only
  refine hgive _ ?_ ?_
  · split
    · split <;> rfl
    · rfl
  · intro j
    split
    · split
      · rw [Live.slot_setSlot]
        split <;> rfl
      · rfl
    · rfl

theorem placeEntries_flanks {v : Env} {i : Nat} {r : RouteDef} {m : LockMode} {es : List Entry} {d p : Live}
    (h : placeEntries v i r m es d = .ok p) :
    (∀ j, (p.slot j).flank = (d.slot j).flank) ∧ ∀ q, p.counted q = d.counted q := by
  induction es generalizing d with
  | nil =>
    cases h
    exact ⟨fun _ => rfl, fun _ => rfl⟩
  | cons e es ih =>
    unfold placeEntries at h
    split at h
    · cases h
    · obtain ⟨h1, h2⟩ := placeEntry_flanks v i r m e d
      obtain ⟨k1, k2⟩ := ih h
      exact ⟨fun j => (k1 j).trans (h1 j), fun q => (k2 q).trans (h2 q)⟩

/-- A requirement's protector taken and recorded. -/
theorem Protected.take {i n : Nat} {d e : Live} (h : Protected i n d e) (v : Env) (q : Protector) (way : List (Nat × Nat)) :
    Protected i (n + 1) d ((takeProtector v q e).setSlot i (fun s =>
      { s with flank := s.flank ++ [{ protector := some q, position := way, excluded := [] }] })) := by
  obtain ⟨-, hnums, hcount, hslot, -⟩ := takeProtector_all v q e
  have hlt : i < (takeProtector v q e).slots.length := hcount ▸ h.lt
  have hself := setSlot_slot_self hlt (fun s =>
    { s with flank := s.flank ++ [{ protector := some q, position := way, excluded := [] }] })
  have hflank : ((takeProtector v q e).slot i).flank = (e.slot i).flank := (hslot i).flank
  refine ⟨by simpa using hlt, ?_, ?_, ?_, hnums.trans h.nums, fun p hp => ?_⟩
  · rw [hself]
    exact (hslot i).goes h.exit
  · rw [hself]
    simp [hflank, h.length]
  · rw [hself]
    intro x hx
    rcases List.mem_append.1 hx with hx | hx
    · exact h.held x (hflank ▸ hx)
    · obtain rfl : x = _ := List.mem_singleton.1 hx
      simp
  · have hcounted : ((takeProtector v q e).setSlot i (fun s =>
        { s with flank := s.flank ++ [{ protector := some q, position := way, excluded := [] }] })).counted p
        = (takeProtector v q e).counted p := by cases p <;> rfl
    have hp' : e.hasControl p.element := by
      unfold Live.hasControl at hp ⊢
      rwa [h.nums]
    rw [hcounted, counted_takeProtector, hself, holdsOf_append]
    have hholds : ((takeProtector v q e).slot i).holdsOf p = (e.slot i).holdsOf p := by
      unfold Slot.holdsOf
      rw [hflank]
    have hold := h.count p hp
    by_cases hpq : p = q
    · subst hpq
      rw [if_pos ⟨rfl, hp'⟩, if_pos rfl, hholds]
      omega
    · rw [if_neg (fun k => hpq k.1), if_neg (fun k => hpq (Option.some.inj k).symm), hholds]
      omega

theorem protected_placeFlanks {v : Env} {i n : Nat} {qs : List Requirement} {d e f : Live}
    (h : Protected i n d e) (hok : placeFlanks v i qs e = .ok f) : Protected i (n + qs.length) d f := by
  induction qs generalizing n e with
  | nil =>
    cases hok
    exact h
  | cons q qs ih =>
    unfold placeFlanks at hok
    split at hok
    · cases hok
    · next pr way _ =>
      have := ih (h.take v pr way) hok
      rwa [List.length_cons, Nat.add_comm qs.length 1, ← Nat.add_assoc]

theorem protected_place {v : Env} {i : Nat} {rt : RouteDef} {p : Nat} {d e : Live} (hi : i < d.slots.length)
    (hc : ∀ e ∈ rt.path ++ rt.overlap, d.hasControl e.element) (h : place v i rt p d = .ok e) :
    Protected i rt.flank.length d e := by
  unfold place at h
  split at h
  · cases h
  · simp only [bind, Except.bind] at h
    split at h
    · cases h
    · next d2 h2 =>
      split at h
      · cases h
      · next d3 h3 =>
        split at h
        · cases h
        · next d4 h4 =>
          split at h
          · cases h
          · cases h
            obtain ⟨p1, -⟩ := placeEntries_all v i rt .path rt.path (d.setSlot i (fun _ => Slot.taken rt p)) d2
              (fun e he => hc e (List.mem_append_left _ he)) h2
            obtain ⟨p2, -⟩ := placeEntries_all v i rt .overlap rt.overlap _ d3 (fun e he => by
              unfold Live.hasControl
              rw [p1.nums]
              exact hc e (List.mem_append_right _ he)) h3
            obtain ⟨f2, c2⟩ := placeEntries_flanks h2
            obtain ⟨f3, c3⟩ := placeEntries_flanks h3
            have hp := p1.trans p2
            have hself : (d.setSlot i (fun _ => Slot.taken rt p)).slot i = Slot.taken rt p :=
              setSlot_slot_self hi _
            have hflank : (d3.slot i).flank = [] := (f3 i).trans ((f2 i).trans (by rw [hself]; rfl))
            have hstate : (d3.slot i).state = .setting := (hp.slot i).2.1.trans (by rw [hself]; rfl)
            have h0 : Protected i 0 d d3 := by
              refine ⟨?_, ?_, by rw [hflank]; rfl, by simp [hflank], hp.nums, fun q _ => ?_⟩
              · rw [hp.slotCount]
                simpa using hi
              · simp [Slot.needsExit, hstate]
              · rw [c3, c2]
                unfold Slot.holdsOf
                rw [hflank]
                cases q <;> rfl
            have := protected_placeFlanks h0 h4
            rwa [Nat.zero_add] at this

/-! ### The rest of a take-up (R62) -/

theorem eachSlot_preserves {P : Live → Prop} {f : Nat → Live → Live} (hf : ∀ i d, P d → P (f i d)) {d : Live}
    (h : P d) : P (d.eachSlot f) := by
  unfold Live.eachSlot
  generalize d.slotIds = l
  induction l generalizing d with
  | nil => exact h
  | cons i is ih => exact ih (hf i d h)

theorem Protected.transfersDone {v : Env} {i n : Nat} {d before e : Live} (h : Protected i n d e) :
    Protected i n d (transfersDone v before e) := by
  have hone (x : Nat) (e : Live) (h : Protected i n d e) :
      Protected i n d (endPassage v x (e.setSlot x (fun s => { s with overlapExpiry := none }))) := by
    have h1 : Protected i n d (e.setSlot x (fun s => { s with overlapExpiry := none })) :=
      h.setSlot (fun _ => ⟨rfl, rfl⟩)
    obtain ⟨hend, hclaims, -, -⟩ := endPassage_all v x (e.setSlot x (fun s => { s with overlapExpiry := none }))
    have hw := whole_endPassage v x (e.setSlot x (fun s => { s with overlapExpiry := none }))
    refine h1.told ?_ (hw.slotCount ▸ h1.lt) hw.nums hclaims
    rcases hend with hsame | ⟨-, hentered, hothers⟩
    · rw [hsame]
      exact .refl _
    · refine hothers i ?_
      rintro rfl
      have hexit := h1.exit
      simp [Slot.needsExit, hentered] at hexit
  unfold Machine.transfersDone
  refine eachSlot_preserves (P := Protected i n d) (fun x e he => ?_) h
  split
  · exact hone x e he
  · exact he

/-- What a take-up leaves of slot `i`: the route with its locks and its protectors (R46, R62). -/
structure Taken (i n r p : Nat) (F : Nat → Option Lock) (d e : Live) : Prop where
  took : TookUp i r p F e
  guarded : Protected i n d e

theorem Taken.moved {i n r p : Nat} {F : Nat → Option Lock} {d e f : Live} (h : Taken i n r p F d e)
    (k : Moved e f) : Taken i n r p F d f := ⟨h.took.moved k, h.guarded.moved k⟩

theorem Taken.askBoundary {i n r p : Nat} {F : Nat → Option Lock} {d e : Live} (h : Taken i n r p F d e)
    (v : Env) (b : Nat) : Taken i n r p F d (askBoundary v i b e) := by
  have hactive : (e.slot i).state ≠ .free := fun k => by
    have hexit := h.took.exit
    simp [Slot.needsExit, k] at hexit
  have ht := told_askBoundary v i b e hactive
  obtain ⟨⟨h1, h2, h3, h4, h5, h6⟩, g1, g2, g3, g4, g5, g6⟩ := h
  have htook : TookUp i r p F (e.setBoundary b (fun x => { x with exitSlot := some i, exitEntered := false })) :=
    ⟨h1, h2, h3, h4, h5, h6⟩
  have hguard : Protected i n d (e.setBoundary b (fun x => { x with exitSlot := some i, exitEntered := false })) :=
    ⟨g1, g2, g3, g4, g5, fun q hq => (by cases q <;> rfl : _ = e.counted q).trans (g6 q hq)⟩
  exact ⟨htook.told ht, hguard.told (ht.slot i) (ht.slotCount ▸ g1) ht.whole.nums ht.claimsStand⟩

/-- The setting timer of a take-up starts. -/
theorem Taken.setTimer {i n r p : Nat} {F : Nat → Option Lock} {d e : Live} (h : Taken i n r p F d e)
    (t : Option Time) : Taken i n r p F d (e.setSlot i (fun s => { s with setting := t })) := by
  have hself := setSlot_slot_self h.took.lt (fun s => { s with setting := t })
  refine ⟨⟨?_, ?_, ?_, by simpa using h.took.lt, h.took.stored, h.took.locks⟩,
    h.guarded.setSlot (fun _ => ⟨rfl, rfl⟩)⟩
  · rw [hself]; exact h.took.route
  · rw [hself]; exact h.took.prio
  · rw [hself]; exact h.took.exit

/-- Steps 1 to 7 of R62. -/
theorem taken_takeUp {v : Env} {run : Option Nat} {i n p : Nat} {rt : RouteDef} {F : Nat → Option Lock}
    {d before placed : Live} (h : Taken i n rt.number p F d placed) :
    Taken i n rt.number p F d (takeUp v run i rt before placed)
      ∧ (((takeUp v run i rt before placed).slot i).state = .setting →
        ((takeUp v run i rt before placed).slot i).setting = some (after v.now (1000 * v.timing.settingLimit))) := by
  unfold takeUp
  extract_lets d1 d2 d3 d4 d5
  have h1 : Taken i n rt.number p F d d1 :=
    ⟨(transfersDone_all v i rt.number p F before placed h.took).1, h.guarded.transfersDone⟩
  have h2 : Taken i n rt.number p F d d2 := h1.moved (moved_handOrders v run _ d1)
  have h3 : Taken i n rt.number p F d d3 := by
    unfold d3
    split
    · exact h2.askBoundary v _
    · exact h2
  have h4 : Taken i n rt.number p F d d4 := h3.setTimer _
  have hcalm : Calm d4 (testPositioning v i (computeAspect v rt.entry d5)) :=
    ((calm_report d4 _).trans (calm_computeAspect v rt.entry d5)).trans (calm_testPositioning v i _)
  refine ⟨h4.moved hcalm.moved, fun hs => ?_⟩
  rw [(hcalm.slot i).set hs]
  exact congrArg Slot.setting (setSlot_slot_self h3.took.lt _)

/-- With no train about and the exit at a signal, a take-up leaves links, boundaries and groups (R62). -/
theorem handoverKept_takeUp {v : Env} {run : Option Nat} {i p sig : Nat} {rt : RouteDef} {F : Nat → Option Lock}
    {before placed : Live} (h : TookUp i rt.number p F placed) (hx : rt.exit = .signal sig)
    (hn : ∀ j, (placed.slot j).state ≠ .entered) : HandoverKept placed (takeUp v run i rt before placed) := by
  unfold takeUp
  extract_lets d1 d2 d3 d4 d5
  have h1 : HandoverKept placed d1 := (transfersDone_all v i rt.number p F before placed h).2 hn
  have h2 : HandoverKept placed d2 := h1.trans (moved_handOrders v run _ d1).handoverKept
  have h3 : d3 = d2 := by
    unfold d3
    rw [hx]
  have h4 : HandoverKept d3 d4 := by
    refine ⟨rfl, rfl, rfl, fun j hj => ?_⟩
    unfold d4 at hj
    rw [Live.slot_setSlot] at hj
    split at hj
    · exact hj
    · exact hj
  have hcalm : Calm d4 (testPositioning v i (computeAspect v rt.entry d5)) :=
    ((calm_report d4 _).trans (calm_computeAspect v rt.entry d5)).trans (calm_testPositioning v i _)
  exact (h2.trans (h3 ▸ h4)).trans hcalm.moved.handoverKept

/-! ### SET_ROUTE -/

theorem takeSetRoute_placed {v : Env} {d placed : Live} {r priority store i : Nat} {rt : RouteDef}
    (hm : v.mode = .normal) (hs : v.startHold = none) (hr : v.route? r = some rt) (hp : priority ≤ 3)
    (hst : store ≤ 1) (hsl : d.slotOf r = none) (hsd : d.stored = []) (hf : d.freeSlot = some i)
    (hpl : place v i rt priority d = .ok placed) :
    takeSetRoute r priority store v d = takeUp v none i rt d placed := by
  have hstored : d.stored? r = none := by simp [Live.stored?, hsd]
  unfold takeSetRoute
  rw [setRouteRefusal_none hm hs hr hp hst, hr, hsl, hstored, hf]
  simp [tryTakeUp, hpl]

/-- Settles O27: the placement gives the locks and the protectors, and the rest of the take-up keeps them. -/
theorem setRouteTakesUpRoute : Obligations.SetRouteTakesUpRoute := by
  intro x r priority store i rt placed s ho hp hhold hrt hpr hst hsl hsd hf hpl hc
  let q : Request := .setRoute r priority store
  let t := s.paired x q
  have hnum : rt.number = r := route?_number hrt
  have hstored : t.live.stored = [] := (State.paired_stored s x q).trans hsd
  have hcontrol : t.live.control = s.live.control := (tables_of_paired s x q).1
  have hfree : t.live.freeSlot = some i := freeSlot_paired.trans hf
  have hnow : t.env.now = s.env.now := env_of_paired (fun v => v.now) s x q
  have hlimit : t.env.timing = s.env.timing := env_of_paired (fun v => v.timing) s x q
  have htake := takeSetRoute_placed (mode_paired hp ho) (by simpa using hhold) ((route?_paired r).trans hrt) hpr hst
    ((slotOf_paired r).trans hsl) hstored hfree hpl
  have hlt : i < t.live.slots.length := freeSlot_lt hfree
  have hc' : ∀ e ∈ rt.path ++ rt.overlap, t.live.hasControl e.element := fun e he =>
    (live_of_paired (fun d => d.hasControl e.element) s x q) ▸ hc e he
  obtain ⟨htook, hkept⟩ := place_all t.env i rt priority t.live placed hpl hlt hstored hc'
  have hdisjoint := place_disjoint t.env i rt priority t.live placed hpl hlt hc'
  obtain ⟨htaken, htimer⟩ := taken_takeUp (v := t.env) (run := none) (before := t.live)
    ⟨htook, protected_place hlt hc' hpl⟩
  have hlive : (t.act (takeSetRoute r priority store)).live
      = (takeUp t.env none i rt t.live placed).setReeval false := by
    rw [State.act_live, htake, serve_of_no_stored _ _ htaken.took.stored]
  have hkeep (sig : Nat) := handoverKept_takeUp (run := none) (sig := sig) (v := t.env) (before := t.live) htook
  generalize takeUp t.env none i rt t.live placed = e at htaken htimer hlive hkeep
  have hcontrols (n : Nat) : s.live.hasControl n = t.live.hasControl n :=
    (live_of_paired (fun d => d.hasControl n) s x q).symm
  obtain ⟨⟨hroute, hprio, hexit, -, hst', hlocks⟩, -, -, hlength, hheld, -, hcount⟩ :=
    htaken.moved (moved_setReeval _ false)
  refine ⟨t.act (takeSetRoute r priority store), exec_of_operating rfl hp rfl ho, rfl, State.paired_pending s x q, ?_⟩
  rw [hlive]
  refine ⟨hnum ▸ hroute, hprio, hexit, fun h => ?_, fun e he => ?_, fun e he => ?_, fun n hn => ?_, hlength, hheld,
    fun n hn => ⟨?_, ?_, ?_⟩, hst', fun ⟨sig, hsig⟩ hidle => ?_⟩
  · rw [← hnow, ← hlimit]
    exact htimer h
  · rw [hlocks, if_pos (List.mem_map_of_mem he)]
  · rw [hlocks, if_neg (fun h => ?_), if_pos (List.mem_map_of_mem he)]
    obtain ⟨b, hb, heq⟩ := List.mem_map.1 h
    exact hdisjoint e he b hb heq
  · rw [hlocks, if_neg (fun h => ?_), if_neg (fun h => ?_), hcontrol]
    · obtain ⟨e, he, heq⟩ := List.mem_map.1 h
      exact hn e (List.mem_append_left _ he) heq
    · obtain ⟨e, he, heq⟩ := List.mem_map.1 h
      exact hn e (List.mem_append_right _ he) heq
  · rw [← hcontrol]
    exact hcount (.point n .normal) (hcontrols n ▸ hn)
  · rw [← hcontrol]
    exact hcount (.point n .reverse) (hcontrols n ▸ hn)
  · rw [← hcontrol]
    exact hcount (.signal n) (hcontrols n ▸ hn)
  · have hentered : ∀ j, (placed.slot j).state ≠ .entered := fun j hj => hidle j (by
      rw [← slot_paired (x := x) (q := q)]
      exact hkept.states j hj)
    obtain ⟨h1, h2, h3, -⟩ := hkept.trans (hkeep sig hsig hentered)
    exact ⟨⟨h1.trans (State.paired_links s x q), h2.trans (State.paired_boundaries s x q)⟩,
      h3.trans (State.paired_groups s x q)⟩


end Sys2Proof.Machine
end

section
/-! PROOF. The link requests (R153), the frames that arrive (R151, R183) and leave (R150), and a link lost at its
silence (R152). -/

namespace Sys2Proof.Machine

open Sys2Proof

/-! ### Changes of one link -/

theorem Live.setLink_congr {d : Live} {l : Nat} {f g : Link → Link}
    (h : f (d.link l) = g (d.link l)) : d.setLink l f = d.setLink l g := by
  unfold Live.setLink
  rw [modify_congr d.links l f g (fun x hx => ?_)]
  have hlink : d.link l = x := by
    unfold Live.link
    rw [List.getD_eq_getElem?_getD, hx]
    rfl
  rwa [hlink] at h

theorem Live.setLink_id (d : Live) (l : Nat) : d.setLink l (fun k => k) = d := by
  unfold Live.setLink
  have : d.links.modify l (fun k => k) = d.links := List.ext_getElem? (fun j => by
    rw [List.getElem?_modify]
    split <;> simp)
  rw [this]

theorem Live.setLink_setLink (d : Live) (l : Nat) (f g : Link → Link) :
    (d.setLink l f).setLink l g = d.setLink l (fun k => g (f k)) := by
  unfold Live.setLink
  dsimp only
  have : (d.links.modify l f).modify l g = d.links.modify l (fun k => g (f k)) := List.ext_getElem? (fun j => by
    simp only [List.getElem?_modify]
    split
    · exact Option.map_map ..
    · simp)
  rw [this]

/-! ### What goes out (R150) -/

/-- A STATUS depends on no link record. -/
theorem sendStatus_setLink (v : Env) (l : Nat) (f : Link → Link) (d : Live) :
    sendStatus v l (d.setLink l f)
      = d.setLink l (fun k => { f k with lastStatus := some (buildStatus v d l), deferred := false }) :=
  d.setLink_setLink l f (fun k => { k with lastStatus := some (buildStatus v d l), deferred := false })

theorem statusDue_of_due {l : Nat} {v : Env} {d : Live} {k : LinkDef} {at_ : Time} (hl : l < d.links.length)
    (hk : v.link? l = some k) (hn : (d.link l).nextStatus = some at_) (hr : reached v.now at_ = true) :
    statusDue l v d = d.setLink l (fun y =>
      if (d.link l).tx = [] then
        { y with nextStatus := some (after v.now k.interval), deferred := false
                 lastStatus := some (buildStatus v d l) }
      else { y with nextStatus := some (after v.now k.interval), deferred := true }) := by
  have htx : ((d.setLink l (fun x => { x with nextStatus := some (after v.now k.interval) })).link l).tx
      = (d.link l).tx := by rw [d.link_setLink_self hl]
  unfold statusDue
  simp only [hk, hn, due, hr, if_true, htx]
  cases hq : (d.link l).tx with
  | nil => exact sendStatus_setLink v l (fun x => { x with nextStatus := some (after v.now k.interval) }) d
  | cons f fs =>
    exact d.setLink_setLink l (fun x => { x with nextStatus := some (after v.now k.interval) })
      (fun x => { x with deferred := true })

theorem frameSent_of_cons {l : Nat} {v : Env} {d : Live} {f : NFrame} {fs : List NFrame}
    (htx : (d.link l).tx = f :: fs) :
    frameSent l v d = d.setLink l (fun y =>
      if (d.link l).deferred then
        { y with tx := fs, deferred := false, lastStatus := some (buildStatus v d l) }
      else { y with tx := fs }) := by
  unfold frameSent
  simp only [htx, List.isEmpty_cons, Bool.false_eq_true, if_false]
  cases hd : (d.link l).deferred with
  | true =>
    refine (sendStatus_setLink v l (fun x => { x with tx := x.tx.drop 1 }) d).trans
      (Live.setLink_congr ?_)
    simp [htx]
  | false => exact Live.setLink_congr (by simp [htx])

/-- Settles O51. -/
theorem linkSendsStatusAndQueue : Obligations.LinkSendsStatusAndQueue := by
  intro l s hr hl
  refine ⟨fun k at_ hk hn hdue => ?_, fun f fs htx => ?_⟩
  · have h := statusDue_of_due hl hk hn hdue
    exact ⟨_, exec_of_effect_alone (f := statusDue l) rfl (by rw [h]; exact hr), rfl, rfl, h⟩
  · have h := frameSent_of_cons (v := s.env) htx
    exact ⟨_, exec_of_effect_alone (f := frameSent l) rfl (by rw [h]; exact hr), rfl, rfl, h⟩

/-! ### A link that leaves UP (R152) -/

/-- A link record as it leaves UP. -/
def Link.leftUp (st : LinkState) (k : Link) : Link :=
  { k with
    state := st, rx := [], tx := [], silence := none, deferred := false
    nextStatus := if st = .disabled then none else k.nextStatus
    hunt := if st = .disabled then [] else k.hunt }

theorem lane_clearUp (bs : List BoundaryDef) (d : Live) (k : LaneId) :
    (bs.foldl (fun d b => d.setBoundary b.number Boundary.leaveUp) d).lane k = d.lane k := by
  induction bs generalizing d with
  | nil => rfl
  | cons b bs ih => exact ih _

/-- The last acts of a link that leaves UP: the groups of its source may latch, and a STATUS that waited may
go out. -/
theorem leaveUp_end (v : Env) (l : Nat) (st : LinkState) (d : Live) :
    ∃ e, e.links = (d.setLink l (Link.leftUp st)).links ∧ (st ≠ .lost → d.made (.linkState l st) e)
      ∧ (leaveUp v l st d = e ∨ leaveUp v l st d = sendStatus v l e) := by
  let bs := v.linkBoundaries l
  let d2 := bs.foldl (fun d b => d.setBoundary b.number Boundary.leaveUp) (d.setLink l (Link.leftUp st))
  let d3 := if st = .lost then bs.foldl (fun d b => raise v b.element .linkLost none d) d2 else d2
  let d6 := evaluateExits v bs (bs.foldl (fun e b =>
      reportChange b.number (d.boundary b.number) none e) (d3.report (.linkState l st)))
  let d7 := if bs.any (fun b => (d.boundary b.number).acceptance = .requested) then d6.setReeval true else d6
  let d8 := edge v (.link l) (d.linkAsserted l) d7
  have hd2 : d2.links = (d.setLink l (Link.leftUp st)).links :=
    (setBoundary_each bs (d.setLink l (Link.leftUp st))).2.1
  have w3 : Watched d2 d3 := by
    show Watched d2 (if st = .lost then _ else _)
    exact Watched.ite (raise_each v .linkLost rfl bs d2).1 (Watched.refl _)
  have c6 : Calm (d3.report (.linkState l st)) d6 :=
    (Calm.foldl _ (fun e b => Calm.ite (calm_report _ _) (Calm.refl _)) _ _).trans (calm_evaluateExits v _ _)
  have q7 : Quiet d6 d7 := Quiet.ite (quiet_setReeval _ _) (Calm.refl _).quiet
  have w8 : Watched d7 d8 := watched_edge v _ _ d7
  refine ⟨d8, ?_, ?_, ?_⟩
  · rw [w8.links, show d7.links = d6.links from q7.links, c6.links, Live.report_links, w3.links, hd2]
  · intro hst
    have h3 : d3 = d2 := if_neg hst
    refine ((((made_report d3 (.linkState l st)).mono c6.appended).mono q7.appended).mono
      w8.appended).of_same (fun k => ?_)
    rw [h3]
    exact congrArg LanePort.reports (lane_clearUp bs (d.setLink l (Link.leftUp st)) k)
  · show (if _ then sendStatus v l d8 else d8) = d8 ∨ (if _ then sendStatus v l d8 else d8) = sendStatus v l d8
    split
    · exact Or.inr rfl
    · exact Or.inl rfl

theorem leaveUp_link (v : Env) {l : Nat} (st : LinkState) {d : Live} (hl : l < d.links.length) :
    ((leaveUp v l st d).link l).hunt = (Link.leftUp st (d.link l)).hunt := by
  obtain ⟨e, he, _, hd⟩ := leaveUp_end v l st d
  have hlink : e.link l = Link.leftUp st (d.link l) := by
    rw [Live.link_congr he l, d.link_setLink_self hl]
  rcases hd with hd | hd
  · rw [hd, hlink]
  · rw [hd, sendStatus, e.link_setLink_self (by rw [he]; simpa using hl), hlink]

theorem leaveUp_made (v : Env) (l : Nat) (st : LinkState) (d : Live) (hst : st ≠ .lost) :
    d.made (.linkState l st) (leaveUp v l st d) := by
  obtain ⟨e, _, hm, hd⟩ := leaveUp_end v l st d
  rcases hd with hd | hd
  · rw [hd]; exact hm hst
  · rw [hd]; exact (hm hst).mono (sent_sendStatus v l e).appended

/-- Settles O52. -/
theorem linkSilenceLosesLink : Obligations.LinkSilenceLosesLink := by
  intro l at_ s hup hsil hr hst hl hbs
  have hact : linkSilent l s.env s.live = leaveUp s.env l .lost s.live := by
    unfold linkSilent
    simp [hup, hsil, due, hr]
  have hsent := sent_leaveUp s.env l .lost s.live
  obtain ⟨h1, h2, h3, h4, _, h6, h7, h8, _⟩ := leaveUp_all s.env l s.live .lost hl
  have hlive : (s.act (linkSilent l)).live = (leaveUp s.env l .lost s.live).setReeval false := by
    rw [State.act_live, hact, serve_of_no_stored _ _ (hsent.stored.trans hst)]
  refine ⟨_, exec_of_effect rfl s, rfl, rfl, ?_⟩
  rw [hlive]
  exact ⟨h1, h2, h3, h4, h6, fun bd hbd => ⟨(h7 bd hbd).1 (hbs bd hbd).2, (h7 bd hbd).2 rfl (hbs bd hbd).1⟩,
    h8, hsent.claimsStand, hsent.throwsStand, hsent.slotsJudged, hsent.portsStand, hsent.stored.trans hst⟩

/-! ### Frames that arrive (R151) -/

/-- The frames found are received in order, and what is not whole waits. -/
def arrived (l : Nat) (found : List NFrame × List Byte) (v : Env) (d : Live) : Live :=
  if (v.link? l).isNone || (d.link l).state = .disabled then d
  else (found.1.foldl (fun d f => receive v l f d) d).setLink l (fun k => { k with hunt := found.2 })

theorem receives_of_room (v : Env) (l : Nat) (fs : List NFrame) (d : Live) (hk : v.link? l ≠ none)
    (hd : (d.link l).state ≠ .disabled) (hl : l < d.links.length)
    (hroom : (d.link l).rx.length + fs.length ≤ Config.receiveCapacity) :
    fs.foldl (fun d f => receive v l f d) d = d.setLink l (fun k => { k with rx := k.rx ++ fs }) := by
  induction fs generalizing d with
  | nil => simp only [List.foldl_nil, List.append_nil]; exact (Live.setLink_id d l).symm
  | cons f fs ih =>
    have hone : receive v l f d = d.setLink l (fun k => { k with rx := k.rx ++ [f] }) := by
      unfold receive
      rw [if_neg (by simp [hk, hd]), if_pos (by rw [List.length_cons] at hroom; omega)]
    have hlink := d.link_setLink_self hl (fun k => { k with rx := k.rx ++ [f] })
    rw [List.foldl_cons, hone, ih _ (by rw [hlink]; exact hd) (by simpa using hl)
      (by rw [hlink]; simpa [Nat.add_assoc, Nat.add_comm] using hroom), Live.setLink_setLink]
    simp only [List.append_assoc, List.singleton_append]

theorem receive_of_full (v : Env) {l : Nat} (f : NFrame) {d : Live} (hk : v.link? l ≠ none)
    (hd : (d.link l).state ≠ .disabled) (hfull : Config.receiveCapacity ≤ (d.link l).rx.length) :
    receive v l f d = if (d.link l).state = .up then leaveUp v l .lost d else d := by
  unfold receive
  rw [if_neg (by simp [hk, hd]), if_neg (by omega)]

theorem receive_hunt (v : Env) {l : Nat} (f : NFrame) {d : Live} (hl : l < d.links.length) :
    ((receive v l f d).link l).hunt = (d.link l).hunt := by
  unfold receive
  split
  · rfl
  split
  · rw [d.link_setLink_self hl]
  split
  · rw [leaveUp_link v .lost hl]; rfl
  · rfl

theorem frameArrives_of_idle {l : Nat} (f : NFrame) (v : Env) {d : Live} (hl : l < d.links.length)
    (h : (d.link l).hunt = []) : frameArrives l f v d = arrived l ([f], []) v d := by
  unfold frameArrives arrived
  rw [if_pos h]
  split
  · next hno => rw [receive, if_pos hno]
  · refine ((Live.setLink_congr ?_).trans (Live.setLink_id _ l)).symm
    exact congrArg (fun hunt => ({ (receive v l f d).link l with hunt := hunt } : Link))
      ((receive_hunt v f hl).trans h).symm

theorem frameArrives_of_hunting {l : Nat} (f : NFrame) (v : Env) {d : Live} (h : (d.link l).hunt ≠ []) :
    frameArrives l f v d = arrived l (huntIn ((d.link l).hunt ++ f.bytes)) v d := by
  unfold frameArrives receiveBytes arrived
  rw [if_neg h]
  rfl

theorem frameDiscarded_eq (l : Nat) (bytes : List Byte) (v : Env) (d : Live) :
    frameDiscarded l bytes v d =
      arrived l (let all := (d.link l).hunt ++ (if (d.link l).hunt = [] then bytes else 0xA5#8 :: bytes)
        if nframeBreaksOff bytes then (framesIn all, []) else huntIn all) v d := rfl

/-- What arrives on a link, in the three forms of a frame or its loss. -/
theorem exec_of_arrived {l : Nat} {f : NFrame} {bytes : List Byte} {s : State} {c : Instr}
    {found : List NFrame × List Byte} (hl : l < s.live.links.length)
    (h : (c = .neighbourFrameReceived l f ∧ (s.live.link l).hunt = [] ∧ found = ([f], []))
      ∨ (c = .neighbourFrameReceived l f ∧ (s.live.link l).hunt ≠ []
        ∧ found = huntIn ((s.live.link l).hunt ++ f.bytes))
      ∨ (c = .neighbourFrameError l bytes ∧ ∃ all : List Byte,
        ((s.live.link l).hunt = [] ∧ all = bytes
          ∨ (s.live.link l).hunt ≠ [] ∧ all = (s.live.link l).hunt ++ 0xA5#8 :: bytes)
        ∧ (nframeBreaksOff bytes = true ∧ found = (framesIn all, [])
          ∨ nframeBreaksOff bytes = false ∧ found = huntIn all))) :
    exec c s = .next (s.act (arrived l found)) := by
  have hact : ∀ g, effectOf c = some g → g s.env s.live = arrived l found s.env s.live →
      exec c s = .next (s.act (arrived l found)) := by
    intro g hg he
    rw [exec_of_effect hg]
    unfold State.act
    rw [he]
  rcases h with ⟨rfl, hh, rfl⟩ | ⟨rfl, hh, rfl⟩ | ⟨rfl, all, ha, hb⟩
  · exact hact _ rfl (frameArrives_of_idle f s.env hl hh)
  · exact hact _ rfl (frameArrives_of_hunting f s.env hh)
  · refine hact _ rfl ((frameDiscarded_eq l bytes s.env s.live).trans ?_)
    have hall : (s.live.link l).hunt ++ (if (s.live.link l).hunt = [] then bytes else 0xA5#8 :: bytes)
        = all := by
      rcases ha with ⟨h0, rfl⟩ | ⟨h0, rfl⟩
      · simp [h0]
      · simp [h0]
    dsimp only
    rw [hall]
    rcases hb with ⟨h0, rfl⟩ | ⟨h0, rfl⟩
    · rw [h0]; rfl
    · rw [h0]; rfl

theorem exec_of_act_eq {c : Instr} {s : State} {g : Env → Live → Live} {d : Live}
    (h : exec c s = .next (s.act g)) (hd : g s.env s.live = d) (hr : d.reeval = false) :
    exec c s = .next { s with live := d } := by
  rw [h, State.act_of_not_asked _ _ (by rw [hd]; exact hr), hd]

/-- Settles O50. -/
theorem neighbourFramesJoinQueue : Obligations.NeighbourFramesJoinQueue := by
  intro l f bytes s hr hl c found hc
  have hexec := exec_of_arrived hl hc
  refine ⟨fun hno => ?_, fun hk hd hroom => ?_, fun g hk hd hone hfull => ⟨fun hup => ?_, fun hup hst => ?_⟩⟩
  · exact exec_of_act_eq hexec (if_pos (by simpa using hno)) hr
  · refine exec_of_act_eq hexec ?_ hr
    unfold arrived
    rw [if_neg (by simp [hk, hd]), receives_of_room _ _ _ _ hk hd hl hroom, Live.setLink_setLink]
  · refine exec_of_act_eq hexec ?_ hr
    unfold arrived
    rw [if_neg (by simp [hk, hd]), hone, List.foldl_cons, receive_of_full _ _ hk hd hfull, if_neg hup]
    rfl
  · have hact : arrived l found s.env s.live
        = (leaveUp s.env l .lost s.live).setLink l (fun k => { k with hunt := found.2 }) := by
      unfold arrived
      rw [if_neg (by simp [hk, hd]), hone, List.foldl_cons, receive_of_full _ _ hk hd hfull, if_pos hup]
      rfl
    have hsent := sent_leaveUp s.env l .lost s.live
    have hlive : (s.act (arrived l found)).live = ((leaveUp s.env l .lost s.live).setLink l
        (fun k => { k with hunt := found.2 })).setReeval false := by
      rw [State.act_live, hact]
      exact serve_of_no_stored _ _ (hsent.stored.trans hst)
    obtain ⟨h1, h2, h3, _⟩ := leaveUp_all s.env l s.live .lost hl
    have hlink := (leaveUp s.env l .lost s.live).link_setLink_self (l := l)
      (by rw [hsent.linkCount]; exact hl) (fun k => { k with hunt := found.2 })
    have hsent' := hsent.trans (sent_setLink _ l (fun k => { k with hunt := found.2 }) (fun _ h => h))
    refine ⟨_, hexec, rfl, rfl, ?_⟩
    rw [hlive]
    refine ⟨?_, ?_, ?_, ?_, hsent'.claimsStand, hsent'.throwsStand, hsent'.slotsJudged, hsent'.portsStand⟩
    · exact (congrArg Link.state hlink).trans h1
    · exact (congrArg Link.rx hlink).trans h2
    · exact (congrArg Link.tx hlink).trans h3
    · exact congrArg Link.hunt hlink

/-! ### LINK_ENABLE and LINK_DISABLE (R153) -/

theorem takeLinkEnable_of_unknown {l : Nat} {v : Env} (h : v.link? l = none) (d : Live) :
    takeLinkEnable l v d = refuseBoth (.linkEnable l) .badOperand d := by
  unfold takeLinkEnable
  rw [h]

theorem takeLinkEnable_of_known {l : Nat} {v : Env} {k : LinkDef} (h : v.link? l = some k) (d : Live) :
    takeLinkEnable l v d = if (d.link l).state = .disabled then
      (d.setLink l (fun x =>
        { x with state := .connecting, nextStatus := some (after v.now k.interval) })).report
        (.linkState l .connecting) else d := by
  unfold takeLinkEnable
  rw [h]

theorem takeLinkDisable_of_unknown {l : Nat} {v : Env} (h : v.link? l = none) (d : Live) :
    takeLinkDisable l v d = refuseBoth (.linkDisable l) .badOperand d :=
  if_pos (by simp [h])

theorem takeLinkDisable_of_held {l : Nat} {v : Env} {d : Live} (h : v.link? l ≠ none)
    (hb : ∃ bd ∈ v.linkBoundaries l, holdsLink (d.boundary bd.number) = true) :
    takeLinkDisable l v d = refuseBoth (.linkDisable l) .linkBusy d :=
  (if_neg (by simpa using h)).trans (if_pos (List.any_eq_true.2 hb))

theorem takeLinkDisable_of_free {l : Nat} {v : Env} {d : Live} (h : v.link? l ≠ none)
    (hb : ∀ bd ∈ v.linkBoundaries l, holdsLink (d.boundary bd.number) = false) :
    takeLinkDisable l v d = match (d.link l).state with
      | .disabled => d
      | .up => leaveUp v l .disabled d
      | _ => (d.setLink l (fun x =>
          { x with state := .disabled, nextStatus := none, rx := [], tx := [], hunt := [] })).report
          (.linkState l .disabled) := by
  refine ((if_neg (by simpa using h)).trans (if_neg ?_)).trans rfl
  rw [List.any_eq_true]
  rintro ⟨bd, hbd, ht⟩
  simp [hb bd hbd] at ht

/-- A link switched off, whatever its state was before. -/
structure SwitchedOff (l : Nat) (d e : Live) : Prop where
  made : d.made (.linkState l .disabled) e
  state : (e.link l).state = .disabled
  nextStatus : (e.link l).nextStatus = none
  rx : (e.link l).rx = []
  tx : (e.link l).tx = []
  hunt : (e.link l).hunt = []
  others : ∀ j, j ≠ l → e.link j = d.link j
  faults : d.faultsStand e
  sent : Sent d e

theorem switchedOff_leaveUp (v : Env) {l : Nat} {d : Live} (hl : l < d.links.length) :
    SwitchedOff l d (leaveUp v l .disabled d) := by
  obtain ⟨h1, h2, h3, _, h5, h6, _, _, h9⟩ := leaveUp_all v l d .disabled hl
  exact ⟨leaveUp_made v l .disabled d nofun, h1, h5, h2, h3, leaveUp_link v .disabled hl, h6, h9 nofun,
    sent_leaveUp v l .disabled d⟩

theorem switchedOff_report {l : Nat} {d : Live} (hl : l < d.links.length) :
    SwitchedOff l d ((d.setLink l (fun x =>
      { x with state := .disabled, nextStatus := none, rx := [], tx := [], hunt := [] })).report
      (.linkState l .disabled)) := by
  let off : Link → Link := fun x =>
    { x with state := .disabled, nextStatus := none, rx := [], tx := [], hunt := [] }
  have hself : ((d.setLink l off).report (.linkState l .disabled)).link l = off (d.link l) :=
    d.link_setLink_self hl off
  refine ⟨made_report (d.setLink l off) _, congrArg Link.state hself, congrArg Link.nextStatus hself,
    congrArg Link.rx hself, congrArg Link.tx hself, congrArg Link.hunt hself,
    fun j hj => Live.link_setLink_ne d (fun h => hj h.symm) off, fun _ => rfl,
    (sent_setLink d l off (fun _ _ => ⟨?_, ?_⟩)).trans (calm_report _ _).sent⟩
  · simp [off]
  · simp [off]

theorem switchedOff_takeLinkDisable {l : Nat} {v : Env} {d : Live} (h : v.link? l ≠ none)
    (hb : ∀ bd ∈ v.linkBoundaries l, holdsLink (d.boundary bd.number) = false)
    (hl : l < d.links.length) (hs : (d.link l).state ≠ .disabled) :
    SwitchedOff l d (takeLinkDisable l v d) := by
  rw [takeLinkDisable_of_free h hb]
  cases hst : (d.link l).state with
  | disabled => exact absurd hst hs
  | up => exact switchedOff_leaveUp v hl
  | connecting => exact switchedOff_report hl
  | lost => exact switchedOff_report hl

/-- A request of both lanes is refused outside NORMAL to its lane, and outside OPERATING to both. -/
theorem linkRequest_not_handed {c : Instr} {x : Exchange} {q : Request} {s : State}
    (hv : voteOf c = some (x, q)) (hr : isRejoin q = false) (ha : takenAlone q = false)
    (hg : s.env.operating = false → gate s.env q = some .notConfigured) :
    (s.env.operating = true → s.env.mode ≠ .normal → ∃ t, exec c s = .next t
        ∧ t.env = (s.exchange x).env ∧ t.pending = s.pending
        ∧ t.live = (s.exchange x).live.setLane x.lane
            (LanePort.place (.refused (requestKind q) (requestOperand q) .laneDegraded)))
    ∧ (s.env.operating = false → s.pairs x q → ∃ t, exec c s = .next t
        ∧ t.env = (s.exchange x).env ∧ t.pending = s.pending
        ∧ t.live = (s.paired x q).live.report
            (.refused (requestKind q) (requestOperand q) .notConfigured)) :=
  ⟨fun ho hm => ⟨_, exec_of_degraded hv ho hm hr (Or.inr ha), rfl, State.exchange_pending s x, rfl⟩,
    fun ho hp => ⟨_, exec_of_gate hv hp (hg ho), rfl, State.paired_pending s x q, rfl⟩⟩

/-- Settles O49. -/
theorem linkRequestsSetLinkState : Obligations.LinkRequestsSetLinkState := by
  intro x l s hr hlen
  refine ⟨fun c hc => ?_, fun ho hp => ?_, fun ho hp => ?_⟩
  · simp only [List.mem_cons, List.not_mem_nil, or_false] at hc
    rcases hc with rfl | rfl
    · exact linkRequest_not_handed (q := .linkEnable l) rfl rfl rfl
        (fun ho => gate_not_operating s.env _ ho nofun nofun (fun _ => nofun) (fun _ => nofun))
    · exact linkRequest_not_handed (q := .linkDisable l) rfl rfl rfl
        (fun ho => gate_not_operating s.env _ ho nofun nofun (fun _ => nofun) (fun _ => nofun))
  · let p := s.paired x (.linkEnable l)
    have hpending : p.pending = s.pending := State.paired_pending s x (.linkEnable l)
    have hlink? : p.env.link? l = s.env.link? l := env_of_paired (fun v => v.link? l) s x _
    have hlink : p.live.link = s.live.link := live_of_paired (fun d => d.link) s x _
    have hreeval : p.live.reeval = false := (State.paired_reeval s x _).trans hr
    refine ⟨fun hno => ⟨_, exec_of_refusal rfl hp rfl ho hr rfl
      (takeLinkEnable_of_unknown (hlink?.trans hno) p.live), rfl, hpending, rfl⟩,
      fun k hk => ⟨fun hs => ?_, fun hs => ?_⟩⟩
    · have htake : takeLinkEnable l p.env p.live = p.live := by
        rw [takeLinkEnable_of_known (hlink?.trans hk), if_neg (by rwa [hlink])]
      rw [exec_of_act (f := takeLinkEnable l) rfl hp rfl ho rfl (by rw [htake]; exact hreeval), htake]
    · have htake := takeLinkEnable_of_known (hlink?.trans hk) p.live
      rw [if_pos (by rwa [hlink])] at htake
      have hnow : p.env.now = s.env.now := env_of_paired (fun v => v.now) s x _
      rw [hnow] at htake
      exact ⟨_, exec_of_act (f := takeLinkEnable l) rfl hp rfl ho rfl (by rw [htake]; exact hreeval), rfl,
        hpending, htake⟩
  · let p := s.paired x (.linkDisable l)
    have hpending : p.pending = s.pending := State.paired_pending s x (.linkDisable l)
    have hlink? : p.env.link? l = s.env.link? l := env_of_paired (fun v => v.link? l) s x _
    have hbs : p.env.linkBoundaries l = s.env.linkBoundaries l :=
      env_of_paired (fun v => v.linkBoundaries l) s x _
    have hlink : p.live.link = s.live.link := live_of_paired (fun d => d.link) s x _
    have hboundary : p.live.boundary = s.live.boundary := live_of_paired (fun d => d.boundary) s x _
    have hreeval : p.live.reeval = false := (State.paired_reeval s x _).trans hr
    have hstands := stands_of_paired s x (.linkDisable l)
    refine ⟨fun why hwhy => ?_, fun hk hb => ⟨fun hs => ?_, fun hs => ?_⟩⟩
    · rcases hwhy with ⟨hno, rfl⟩ | ⟨hk, hb, rfl⟩
      · exact ⟨_, exec_of_refusal rfl hp rfl ho hr rfl
          (takeLinkDisable_of_unknown (hlink?.trans hno) p.live), rfl, hpending, rfl⟩
      · exact ⟨_, exec_of_refusal rfl hp rfl ho hr rfl
          (takeLinkDisable_of_held (v := p.env) (d := p.live) (by rwa [hlink?]) (by rwa [hbs, hboundary])),
          rfl, hpending, rfl⟩
    all_goals
      have hk' : p.env.link? l ≠ none := by rwa [hlink?]
      have hb' : ∀ bd ∈ p.env.linkBoundaries l, holdsLink (p.live.boundary bd.number) = false := by
        rwa [hbs, hboundary]
    · have htake : takeLinkDisable l p.env p.live = p.live := by
        rw [takeLinkDisable_of_free hk' hb', hlink, hs]
      rw [exec_of_act (f := takeLinkDisable l) rfl hp rfl ho rfl (by rw [htake]; exact hreeval), htake]
    · have hoff := switchedOff_takeLinkDisable hk' hb'
        (by rw [show p.live.links = s.live.links from State.paired_links s x _]; exact hlen hk)
        (by rwa [hlink])
      have hstored : p.live.stored = s.live.stored := live_of_paired (fun d => d.stored) s x _
      obtain ⟨claims, throws, faults, _, judged⟩ := hstands (takeLinkDisable l p.env p.live)
      have hlive : (p.act (takeLinkDisable l)).live = serve p.env (takeLinkDisable l p.env p.live) :=
        State.act_live _ _
      refine ⟨_, takeLinkDisable l p.env p.live, exec_of_operating rfl hp rfl ho, rfl,
        hpending, hlive, fun hno => ?_, ?_, hoff.state, hoff.nextStatus, hoff.rx, hoff.tx,
        hoff.hunt, fun j hj => (hoff.others j hj).trans (congrFun hlink j), claims hoff.sent.claimsStand,
        throws hoff.sent.throwsStand, faults hoff.faults, judged hoff.sent.slotsJudged,
        hoff.sent.stored.trans hstored⟩
      · exact hlive.trans (serve_of_no_stored _ _ (hoff.sent.stored.trans (hstored.trans hno)))
      · exact hoff.made.whole (whole_serve _ _)

end Sys2Proof.Machine
end

section
/-! PROOF. What a neighbour frame and an expiry do to one boundary: the direction frames (R159 to R161), the end of
a REQUESTED acceptance (R162), and the consistency expiry (R166). -/

namespace Sys2Proof.Machine

open Sys2Proof

/-! ### CONSISTENCY_EXPIRY (R166) -/

/-- The boundary restricted, with its entry raised and the exit slot judged. -/
theorem consistencyDue_of_due {b : Nat} {v : Env} {d : Live} {at_ : Time} {bd : BoundaryDef}
    (hc : (d.boundary b).consExpiry = some at_) (hr : reached v.now at_ = true) (hbd : v.boundary? b = some bd)
    (hs : ∀ i, (d.boundary b).exitSlot = some i → (d.slot i).state ≠ .setting) (hb : d.hasBoundary b) :
    Calm (raise v bd.element .restricted none
        (d.setBoundary b (fun x => { x with consExpiry := none, restricted := true })))
      (consistencyDue b v d) := by
  let f : Boundary → Boundary := fun x => { x with consExpiry := none, restricted := true }
  let d2 := raise v bd.element .restricted none (d.setBoundary b f)
  let d3 := reportChange b (d.boundary b) none d2
  have h3 : Calm d2 d3 := Calm.ite (calm_report d2 _) (Calm.refl d2)
  have hexit : (d3.boundary b).exitSlot = (d.boundary b).exitSlot := by
    rw [Live.boundary_congr h3.boundaries, Live.boundary_congr (watched_raise _ _ _ _ _).boundaries,
      d.boundary_setBoundary_self hb f (fun _ => rfl)]
  have hslot (i : Nat) (h : (d.slot i).state ≠ .setting) : (d3.slot i).state ≠ .setting :=
    fun e => h ((congrArg Slot.state ((((watched_raise v bd.element .restricted none
      (d.setBoundary b f)).slot i).trans (h3.slot i)).set e)).symm.trans e)
  have hdue : consistencyDue b v d = evaluateExit v b (match (d3.boundary b).exitSlot with
      | some i => failSetting v i .boundaryUnavailable d3
      | none => d3) := by
    unfold consistencyDue
    rw [if_pos (by rw [hc]; exact hr)]
    simp only [hbd]
    rfl
  rw [hdue]
  refine h3.trans ?_
  rw [hexit]
  cases he : (d.boundary b).exitSlot with
  | none => exact calm_evaluateExit v b d3
  | some i =>
    dsimp only
    rw [failSetting_not v i _ d3 (hslot i (hs i he))]
    exact calm_evaluateExit v b d3

/-- Settles O60. -/
theorem consistencyExpiryRestrictsBoundary : Obligations.ConsistencyExpiryRestrictsBoundary := by
  intro b at_ bd s hc hr hbd hb hctl hre hs
  let d1 := s.live.setBoundary b (fun x => { x with consExpiry := none, restricted := true })
  have hcalm := consistencyDue_of_due hc hr hbd hs hb
  have hraise := watched_raise s.env bd.element .restricted none d1
  have hreeval : (consistencyDue b s.env s.live).reeval = false :=
    hcalm.reeval.trans ((reeval_raise _ _ _ _ _).trans hre)
  have hself := s.live.boundary_setBoundary_self hb (fun x => { x with consExpiry := none, restricted := true })
    (fun _ => rfl)
  have hw := hraise.trans hcalm.watched
  refine ⟨_, exec_of_effect_alone (f := consistencyDue b) rfl hreeval, rfl, rfl, ?_, ?_, fun k hk => ?_,
    hw.links, hw.claimsStand, hw.throwsStand, hw.slotsJudged, hw.portsStand, hw.stored⟩
  · exact (Live.boundary_congr hw.boundaries b).trans hself
  · exact raised_of_faults (raise_raised _ _ _ _ d1 hctl rfl) (hcalm.faultsStand _)
  · exact (Live.boundary_congr hw.boundaries k).trans
      ((s.live.boundary_setBoundary b k _ (fun _ => by rfl)).trans (if_neg (fun h => hk h.1)))

/-! ### A frame taken on an UP link (R151) -/

theorem exec_of_frame {α : Type} {c : Instr} {s : State} {l n : Nat} {pick : NFrame → Option (Nat × α)}
    {ap : Env → Nat → α → Live → Live} {f : NFrame} {fs : List NFrame} {a : α} {bd : BoundaryDef}
    (h : effectOf c = some (fun v => takeFrame v l pick (ap v))) (hrx : (s.live.link l).rx = f :: fs)
    (hp : pick f = some (n, a)) (hu : (s.live.link l).state = .up) (hn : s.env.namedBoundary l n = some bd) :
    exec c s = .next { s with
      live := serve s.env (ap s.env bd.number a (frameTaken s.env l s.live)) } := by
  rw [exec_of_effect h]
  unfold State.act
  dsimp only
  rw [takeFrame_eq s.env l n pick (ap s.env) s.live f fs a bd hrx hp hu hn]
  rfl

theorem frameTaken_link {v : Env} {l : Nat} {f : NFrame} {fs : List NFrame} {d : Live} (hl : l < d.links.length)
    (hrx : (d.link l).rx = f :: fs) : (frameTaken v l d).link l = { d.link l with
      rx := fs, silence := some (after v.now v.timing.linkTimeout) } :=
  (taken_state v l f fs d hl hrx).1

/-- What an act on one boundary and its link leaves after a frame has been taken from that link. -/
structure TookFrame (v : Env) (l b : Nat) (fs : List NFrame) (d e : Live) : Prop where
  state : (e.link l).state = (d.link l).state
  rx : (e.link l).rx = fs
  silence : (e.link l).silence = some (after v.now v.timing.linkTimeout)
  links : ∀ j, j ≠ l → e.link j = d.link j
  bounds : ∀ k, k ≠ b → e.boundary k = d.boundary k
  claims : d.claimsStand e
  throws : d.throwsStand e
  faults : d.faultsStand e
  ports : d.portsStand e
  stored : e.stored = d.stored
  groups : e.groups = d.groups

theorem Local.tookFrame {v : Env} {l b : Nat} {f : NFrame} {fs : List NFrame} {d e : Live}
    (h : Local l b (frameTaken v l d) e) (hl : l < d.links.length) (hrx : (d.link l).rx = f :: fs) :
    TookFrame v l b fs d e := by
  have hself := frameTaken_link (v := v) hl hrx
  obtain ⟨claims, throws, faults⟩ := h.frames
  exact ⟨h.state.trans (by rw [hself]), h.rx.trans (by rw [hself]), h.silence.trans (by rw [hself]),
    fun j hj => (h.links j hj).trans ((taken_state v l f fs d hl hrx).2 j hj), h.bounds,
    claims, throws, faults, h.ports, h.stored, h.groups⟩

/-! ### The end of a REQUESTED acceptance (R162) -/

/-- An acceptance that ends: NONE, with no expiry, and an idle boundary may offer its direction. -/
theorem acceptance_ends {v : Env} {b : Nat} {bd : BoundaryDef} (hbd : v.boundary? b = some bd)
    (reason : Option Nat) {d : Live} (hb : d.hasBoundary b) (ht : (d.link bd.link).tx.length < 16) :
    let e := boundaryEvent v b reason (fun d => tryOffer v b (setAcceptance b .none none d)) d
    Local bd.link b d e ∧ (e.boundary b).acceptance = .none ∧ (e.boundary b).accExpiry = none := by
  intro e
  let d1 := setAcceptance b .none none d
  have h1 : Local bd.link b d d1 := loc_setAcceptance _ _ _ _ _
  have hb1 : d1.hasBoundary b := by unfold Live.hasBoundary; rw [h1.bnums]; exact hb
  obtain ⟨h2, dir, w, hoffer⟩ := tryOffer_all hbd d1 hb1
    (by rw [Live.link_congr (links_setAcceptance b .none none d)]; exact ht)
  have hq : Quiet (tryOffer v b d1) e := 
    quiet_boundaryEvent v b reason (fun d => tryOffer v b (setAcceptance b .none none d)) d
  have hself : e.boundary b = { d1.boundary b with direction := dir, waiting := w } :=
    (hq.boundary b).trans hoffer
  have hacc := boundary_setAcceptance b .none none d hb
  refine ⟨(h1.trans h2).trans hq.loc, ?_, ?_⟩
  · exact (congrArg Boundary.acceptance hself).trans (congrArg Boundary.acceptance hacc)
  · exact (congrArg Boundary.accExpiry hself).trans (congrArg Boundary.accExpiry hacc)

theorem acceptance_granted {v : Env} {b : Nat} (l : Nat) (home : Aspect) {d : Live} (hb : d.hasBoundary b)
    (hr : (d.boundary b).acceptance = .requested) :
    let e := applyAcceptGrant v b home d
    Local l b d e ∧ (e.boundary b).acceptance = .held ∧ (e.boundary b).accExpiry = none
      ∧ (e.boundary b).home = home := by
  intro e
  let f : Boundary → Boundary := fun x => { x with home := home }
  let d1 := d.setBoundary b f
  let d2 := boundaryEvent v b none (fun d => setAcceptance b .held none (d.setBoundary b f)) d
  have hq : Quiet (setAcceptance b .held none d1) d2 := 
    quiet_boundaryEvent v b none (fun d => setAcceptance b .held none (d.setBoundary b f)) d
  have he : e = if neighbourHome v d2 b != neighbourHome v d b then exitAspect v b d2 else d2 := if_pos hr
  have hc : Calm d2 e := he ▸ Calm.ite (calm_exitAspect v b d2) (Calm.refl d2)
  have hb1 : d1.hasBoundary b := by
    unfold Live.hasBoundary; rw [d.setBoundary_nums b f (fun _ => rfl)]; exact hb
  have hself : e.boundary b = _ :=
    (Live.boundary_congr hc.boundaries b).trans ((hq.boundary b).trans (boundary_setAcceptance b .held none d1 hb1))
  rw [d.boundary_setBoundary_self hb f (fun _ => rfl)] at hself
  have h1 : Local l b d d1 := loc_setBoundary d l b f (fun _ => rfl)
  exact ⟨((h1.trans (loc_setAcceptance l b .held none d1)).trans hq.loc).trans hc.quiet.loc,
    congrArg Boundary.acceptance hself, congrArg Boundary.accExpiry hself, congrArg Boundary.home hself⟩

/-- Settles O57. -/
theorem acceptanceAnswered : Obligations.AcceptanceAnswered := by
  intro l n b reason a fs bd s hst hbd hlink hnum hn hb hl ht hreq c acc hc
  subst hlink
  have hnumber : bd.number = b := by simpa using List.find?_some hbd
  rcases hc with ⟨rfl, rfl, hu, hrx⟩ | ⟨rfl, rfl, hu, hrx⟩ | ⟨rfl, rfl, at_, hexp, hdue⟩
  · obtain ⟨hloc, hacc, hexp, hhome⟩ := acceptance_granted (v := s.env) (b := b) bd.link a
      (d := frameTaken s.env bd.link s.live) hb hreq
    have took := hloc.tookFrame hl hrx
    have hexec := exec_of_frame (c := .acceptGrant bd.link) rfl hrx rfl hu hn
    rw [hnumber, serve_of_no_stored _ _ (took.stored.trans hst)] at hexec
    exact ⟨_, hexec, rfl, rfl, hacc, hexp, fun _ => hhome, fun _ => took.rx, took.links, took.bounds,
      took.claims, took.throws, took.faults, took.ports, took.stored.trans hst, took.groups⟩
  · have hrefuse : applyAcceptRefuse s.env b reason (frameTaken s.env bd.link s.live) = _ := if_pos hreq
    obtain ⟨hloc, hacc, hexp⟩ := acceptance_ends hbd (some reason) (d := frameTaken s.env bd.link s.live) hb
      (by rw [frameTaken_link hl hrx]; exact ht)
    rw [← hrefuse] at hloc hacc hexp
    have took := hloc.tookFrame hl hrx
    have hexec := exec_of_frame (c := .acceptRefuse bd.link) rfl hrx rfl hu hn
    rw [hnumber, serve_of_no_stored _ _ (took.stored.trans hst)] at hexec
    exact ⟨_, hexec, rfl, rfl, hacc, hexp, nofun, fun _ => took.rx, took.links, took.bounds,
      took.claims, took.throws, took.faults, took.ports, took.stored.trans hst, took.groups⟩
  · have hact : acceptanceDue b s.env s.live = _ := if_pos (by rw [hexp]; exact hdue)
    obtain ⟨hloc, hacc, hexp⟩ := acceptance_ends hbd none (d := s.live) hb ht
    rw [← hact] at hloc hacc hexp
    obtain ⟨claims, throws, faults⟩ := hloc.frames
    have hlive : (s.act (acceptanceDue b)).live = (acceptanceDue b s.env s.live).setReeval false := by
      rw [State.act_live, serve_of_no_stored _ _ (hloc.stored.trans hst)]
    refine ⟨_, exec_of_effect rfl s, rfl, rfl, ?_⟩
    rw [hlive]
    exact ⟨hacc, hexp, nofun, fun h => absurd rfl h, hloc.links, hloc.bounds, claims, throws, faults,
      hloc.ports, hloc.stored.trans hst, hloc.groups⟩


/-! ### Direction frames (R159, R161) -/

theorem tryOffer_of_kept {v : Env} {b : Nat} {d : Live}
    (h : (d.boundary b).direction ≠ .outward ∨ boundaryBusy d b = true) : tryOffer v b d = d := by
  refine if_neg ?_
  rcases h with h | h
  · simp [h]
  · simp [h]

/-- An event that changes one boundary and sends one frame about it. -/
theorem boundaryEvent_of_send {v : Env} {b : Nat} {bd : BoundaryDef} (hbd : v.boundary? b = some bd)
    {reason : Option Nat} {f : Live → Live} {frame : Nat → NFrame} {d m : Live} (hf : f d = sendFrom v b frame m)
    (hm : Local bd.link b d m) (hlinks : m.links = d.links) (hu : (d.link bd.link).state = .up)
    (ht : (d.link bd.link).tx.length < 16) (hl : bd.link < d.links.length) :
    Local bd.link b d (boundaryEvent v b reason f d)
      ∧ (boundaryEvent v b reason f d).boundary b = m.boundary b
      ∧ ((boundaryEvent v b reason f d).link bd.link).tx
          = (d.link bd.link).tx ++ [frame bd.linkNumber] := by
  have hlink : m.link bd.link = d.link bd.link := Live.link_congr hlinks _
  have hq : Quiet (sendFrom v b frame m) (boundaryEvent v b reason f d) := quiet_event hf
  have hmu : (m.link bd.link).state = .up := by rw [hlink]; exact hu
  have hmt : (m.link bd.link).tx.length < 16 := by rw [hlink]; exact ht
  refine ⟨(hm.trans (loc_sendFrom hbd frame m hmu hmt)).trans hq.loc,
    (hq.boundary b).trans (boundary_sendFrom hbd frame m hmu hmt b), ?_⟩
  rw [hq.link, sendFrom_eq hbd frame m hmu hmt, m.link_setLink_self (by rw [hlinks]; exact hl), hlink]

/-- Neighbour waiting set, and a refusal sent. -/
def refuseDirection (v : Env) (b : Nat) (d : Live) : Live :=
  tryOffer v b (sendFrom v b .dirRefuse (d.setBoundary b (fun x => { x with waiting := true })))

theorem refuseDirection_of_kept {v : Env} {b : Nat} {bd : BoundaryDef} (hbd : v.boundary? b = some bd) {d : Live}
    (hb : d.hasBoundary b) (hu : (d.link bd.link).state = .up) (ht : (d.link bd.link).tx.length < 16)
    (h : (d.boundary b).direction ≠ .outward ∨ boundaryBusy d b = true) :
    refuseDirection v b d
      = sendFrom v b .dirRefuse (d.setBoundary b (fun x => { x with waiting := true })) := by
  have hself := d.boundary_setBoundary_self hb (fun x => { x with waiting := true }) (fun _ => rfl)
  refine tryOffer_of_kept ?_
  rw [sendFrom_eq hbd .dirRefuse (d.setBoundary b (fun x => { x with waiting := true })) hu ht]
  have hboundary (g : Link → Link) : ((d.setBoundary b (fun x => { x with waiting := true })).setLink bd.link g).boundary b
      = { d.boundary b with waiting := true } := hself
  refine h.imp (fun h => ?_) (fun h => ?_)
  · rw [hboundary]; exact h
  · unfold boundaryBusy at h ⊢
    rw [hboundary]
    exact h

/-- What a direction frame leaves of its boundary and its link. -/
structure DirectionMoved (l b : Nat) (dir : Direction) (req : Option Time) (sent : List NFrame) (d e : Live) :
    Prop where
  loc : Local l b d e
  direction : (e.boundary b).direction = dir
  reqExpiry : (e.boundary b).reqExpiry = req
  restricted : (e.boundary b).restricted = (d.boundary b).restricted
  berthLocked : (e.boundary b).berthLocked = (d.boundary b).berthLocked
  waiting : (∃ n, sent = [.dirRefuse n]) → (e.boundary b).waiting = true
  tx : (d.link l).tx ++ sent <+: (e.link l).tx

section frames

variable {v : Env} {bd : BoundaryDef} {d : Live} (hbd : v.boundary? bd.number = some bd)
  (hu : (d.link bd.link).state = .up) (ht : (d.link bd.link).tx.length < 16) (hl : bd.link < d.links.length)
  (hb : d.hasBoundary bd.number)

include hbd hu ht hl hb

/-- A DIR_REQUEST granted: the boundary is INWARD. -/
theorem directionMoved_grant (g : Live → Live)
    (hg : g d = d ∨ g d = d.setBoundary bd.number (fun x => { x with waiting := false })) :
    DirectionMoved bd.link bd.number .inward (d.boundary bd.number).reqExpiry [.dirGrant bd.linkNumber] d
      (boundaryEvent v bd.number none
        (fun d => sendFrom v bd.number .dirGrant (setDirection bd.number .inward (g d))) d) := by
  have hloc : Local bd.link bd.number d (g d) := by
    rcases hg with hg | hg
    · rw [hg]; exact Local.refl _ _ d
    · rw [hg]; exact loc_setBoundary d _ _ _ (fun _ => rfl)
  have hlinks : (g d).links = d.links := by
    rcases hg with hg | hg
    · rw [hg]
    · rw [hg]; rfl
  have hboundary : ∃ w, (g d).boundary bd.number = { d.boundary bd.number with waiting := w } := by
    rcases hg with hg | hg
    · rw [hg]; exact ⟨_, rfl⟩
    · rw [hg]; exact ⟨_, d.boundary_setBoundary_self hb _ (fun _ => rfl)⟩
  have hbg : (g d).hasBoundary bd.number := by unfold Live.hasBoundary; rw [hloc.bnums]; exact hb
  obtain ⟨w, hw⟩ := hboundary
  obtain ⟨h1, h2, h3⟩ := boundaryEvent_of_send hbd (reason := none)
    (f := fun d => sendFrom v bd.number .dirGrant (setDirection bd.number .inward (g d))) rfl (hloc.trans (loc_setDirection _ _ .inward _)) ((links_setDirection _ _ _).trans hlinks) hu ht hl
  rw [boundary_setDirection _ _ _ hbg, hw] at h2
  exact ⟨h1, by rw [h2], by rw [h2], by rw [h2], by rw [h2], nofun, by rw [h3]⟩

/-- A DIR_REQUEST refused: the boundary waits on itself. -/
theorem directionMoved_refuse
    (hk : (d.boundary bd.number).direction ≠ .outward ∨ boundaryBusy d bd.number = true) :
    DirectionMoved bd.link bd.number (d.boundary bd.number).direction (d.boundary bd.number).reqExpiry
      [.dirRefuse bd.linkNumber] d (boundaryEvent v bd.number none (refuseDirection v bd.number) d) := by
  obtain ⟨h1, h2, h3⟩ := boundaryEvent_of_send hbd (reason := none) (refuseDirection_of_kept hbd hb hu ht hk)
    (loc_setBoundary d _ _ (fun x => { x with waiting := true }) (fun _ => rfl)) rfl hu ht hl
  rw [d.boundary_setBoundary_self hb (fun x => { x with waiting := true }) (fun _ => rfl)] at h2
  exact ⟨h1, by rw [h2], by rw [h2], by rw [h2], by rw [h2], fun _ => by rw [h2], by rw [h3]⟩

omit hl in
theorem directionMoved_outward :
    DirectionMoved bd.link bd.number .outward none [] d
      (boundaryEvent v bd.number none (becomeOutward v bd.number) d) := by
  obtain ⟨hloc, acc, t, hself⟩ := becomeOutward_all hbd d hb hu ht
  have hq := quiet_boundaryEvent v bd.number none (becomeOutward v bd.number) d
  have h2 := (hq.boundary bd.number).trans hself
  exact ⟨hloc.trans hq.loc, by rw [h2], by rw [h2], by rw [h2], by rw [h2], nofun, by
    rw [List.append_nil]; exact (hloc.trans hq.loc).tx⟩

omit hbd hu ht hl in
theorem directionMoved_applyDirRefuse :
    DirectionMoved bd.link bd.number (d.boundary bd.number).direction none [] d
      (applyDirRefuse bd.number d) := by
  have hself : (applyDirRefuse bd.number d).boundary bd.number = _ :=
    d.boundary_setBoundary_self hb (fun x => { x with reqExpiry := none }) (fun _ => rfl)
  have hloc : Local bd.link bd.number d (applyDirRefuse bd.number d) :=
    loc_setBoundary d _ _ (fun x => { x with reqExpiry := none }) (fun _ => rfl)
  exact ⟨hloc, by rw [hself], by rw [hself], by rw [hself], by rw [hself], nofun,
    by rw [List.append_nil]; exact hloc.tx⟩

theorem directionMoved_applyDirRequest (q : Seniority) (hr : (d.boundary bd.number).restricted = false)
    (hq : (d.boundary bd.number).reqExpiry = none) {dir : Direction} {sent : List NFrame}
    (h : (((d.boundary bd.number).direction ≠ .outward ∨ boundaryBusy d bd.number = false)
          ∧ dir = .inward ∧ sent = [.dirGrant bd.linkNumber])
        ∨ ((d.boundary bd.number).direction = .outward ∧ boundaryBusy d bd.number = true
          ∧ dir = .outward ∧ sent = [.dirRefuse bd.linkNumber])) :
    DirectionMoved bd.link bd.number dir none sent d (applyDirRequest v bd.number q d) := by
  have hgrant (g : Live → Live)
      (hg : g d = d ∨ g d = d.setBoundary bd.number (fun x => { x with waiting := false })) :=
    directionMoved_grant hbd hu ht hl hb g hg
  rw [hq] at hgrant
  rcases h with ⟨hfree, rfl, rfl⟩ | ⟨hdir, hbusy, rfl, rfl⟩
  · cases hdir : (d.boundary bd.number).direction with
    | outward =>
      have hbusy : boundaryBusy d bd.number = false := hfree.resolve_left (fun h => h hdir)
      simp only [applyDirRequest, hr, hq, hdir, hbusy]
      exact hgrant (fun d => d.setBoundary bd.number (fun x => { x with waiting := false })) (Or.inr rfl)
    | inward =>
      simp only [applyDirRequest, hr, hq, hdir]
      exact hgrant id (Or.inl rfl)
    | neutral =>
      simp only [applyDirRequest, hr, hq, hdir]
      exact hgrant id (Or.inl rfl)
  · have happly : applyDirRequest v bd.number q d
        = boundaryEvent v bd.number none (refuseDirection v bd.number) d := by
      simp only [applyDirRequest, hr, hq, hdir, hbusy]
      rfl
    have hmoved := directionMoved_refuse hbd hu ht hl hb (Or.inr hbusy)
    rw [hdir, hq] at hmoved
    rw [happly]
    exact hmoved

end frames

/-- A direction frame applied after it has been taken. -/
theorem DirectionMoved.taken {v : Env} {bd : BoundaryDef} {dir : Direction} {req : Option Time}
    {sent : List NFrame} {f : NFrame} {fs : List NFrame} {d e : Live}
    (h : DirectionMoved bd.link bd.number dir req sent (frameTaken v bd.link d) e)
    (hl : bd.link < d.links.length) (hrx : (d.link bd.link).rx = f :: fs)
    (hu : (d.link bd.link).state = .up) (hr : (d.boundary bd.number).restricted = false)
    (hb : (d.boundary bd.number).berthLocked = false) (hst : d.stored = []) :
    (e.boundary bd.number).direction = dir ∧ (e.boundary bd.number).reqExpiry = req
      ∧ (e.boundary bd.number).restricted = false ∧ (e.boundary bd.number).berthLocked = false
      ∧ (sent = [.dirRefuse bd.linkNumber] → (e.boundary bd.number).waiting = true)
      ∧ (e.link bd.link).state = .up ∧ (e.link bd.link).rx = fs
      ∧ (e.link bd.link).silence = some (after v.now v.timing.linkTimeout)
      ∧ (d.link bd.link).tx ++ sent <+: (e.link bd.link).tx
      ∧ (∀ j, j ≠ bd.link → e.link j = d.link j)
      ∧ (∀ b, b ≠ bd.number → e.boundary b = d.boundary b)
      ∧ d.claimsStand e ∧ d.throwsStand e ∧ d.faultsStand e ∧ d.portsStand e ∧ e.stored = []
      ∧ e.groups = d.groups := by
  have took := h.loc.tookFrame hl hrx
  have htx : ((frameTaken v bd.link d).link bd.link).tx = (d.link bd.link).tx := by
    rw [frameTaken_link hl hrx]
  exact ⟨h.direction, h.reqExpiry, h.restricted.trans hr, h.berthLocked.trans hb, fun hs => h.waiting ⟨_, hs⟩,
    took.state.trans hu, took.rx, took.silence, htx ▸ h.tx, took.links, took.bounds, took.claims, took.throws,
    took.faults, took.ports, took.stored.trans hst, took.groups⟩

/-- Settles O54. -/
theorem directionFramesMoveDirection : Obligations.DirectionFramesMoveDirection := by
  intro l n q fs bd s hu ht hst hl hn hbd hb hr hfree c f dir sent req hrx hc
  obtain ⟨rfl, rfl⟩ := named_spec hn
  let d := frameTaken s.env bd.link s.live
  have hlink : d.link bd.link = _ := frameTaken_link hl hrx
  have hud : (d.link bd.link).state = .up := by rw [hlink]; exact hu
  have htd : (d.link bd.link).tx.length < 16 := by rw [hlink]; exact ht
  have hld : bd.link < d.links.length := by simpa [d, frameTaken, restartSilence, popFrame] using hl
  have htaken : ∃ e, exec c s = .next { s with live := serve s.env e }
      ∧ DirectionMoved bd.link bd.number dir req sent d e := by
    rcases hc with ⟨rfl, rfl, hq, rfl, hd⟩ | ⟨rfl, rfl, hq, rfl, rfl, rfl⟩ | ⟨rfl, rfl, rfl, rfl, rfl⟩ |
      ⟨rfl, rfl, rfl, rfl, rfl⟩
    · exact ⟨_, exec_of_frame rfl hrx rfl hu hn,
        directionMoved_applyDirRequest hbd hud htd hld hb q hr hq hd⟩
    · have happly : applyDirGrant s.env bd.number d = _ :=
        if_pos (by rw [show d.boundary bd.number = s.live.boundary bd.number from rfl, directionFree,
          show d.boundary bd.number = s.live.boundary bd.number from rfl, hr, hfree]
                   simpa [Option.isSome_iff_ne_none] using hq)
      exact ⟨_, exec_of_frame rfl hrx rfl hu hn, happly ▸ directionMoved_outward hbd hud htd hb⟩
    · have happly : applyDirOffer s.env bd.number d = _ :=
        if_pos (by rw [directionFree, show d.boundary bd.number = s.live.boundary bd.number from rfl, hr, hfree]
                   rfl)
      exact ⟨_, exec_of_frame rfl hrx rfl hu hn, happly ▸ directionMoved_outward hbd hud htd hb⟩
    · exact ⟨_, exec_of_frame (ap := fun _ b _ => applyDirRefuse b) rfl hrx rfl hu hn,
        directionMoved_applyDirRefuse (d := d) hb⟩
  obtain ⟨e, hexec, hmoved⟩ := htaken
  rw [serve_of_no_stored _ _ ((hmoved.loc.tookFrame hl hrx).stored.trans hst)] at hexec
  exact ⟨_, hexec, rfl, rfl, hmoved.taken hl hrx hu hr hfree hst⟩

end Sys2Proof.Machine
end

section
/-! PROOF. A BOUNDARY_RESET taken (R167): its refusals, the exit slot set CANCELLING, and the boundary completed or
restricted until its berth is free. -/

namespace Sys2Proof.Machine

open Sys2Proof

/-! ### The exit slot -/

/-- What a reset does to an exit slot that is not in SETTING. -/
structure ExitReset (v : Env) (b : Nat) (d e : Live) : Prop where
  held : ∀ i, (d.boundary b).exitSlot = some i →
    ((d.slot i).state = .clear ∨ (d.slot i).state = .held ∨ (d.slot i).state = .entered) →
    (e.slot i).state = .cancelling ∧ (e.slot i).hold = some (after v.now (1000 * v.timing.holdMax))
  boundaries : e.boundaries = d.boundaries
  claims : d.claimsStand e
  throws : d.throwsStand e
  ports : d.portsStand e
  stored : e.stored = d.stored

theorem exitReset_of_same {v : Env} {b : Nat} {d e : Live} (h : e = d)
    (hs : ∀ i, (d.boundary b).exitSlot = some i →
      ¬ ((d.slot i).state = .clear ∨ (d.slot i).state = .held ∨ (d.slot i).state = .entered)) :
    ExitReset v b d e := by
  subst h
  exact ⟨fun i hi h => absurd h (hs i hi), rfl, (Calm.refl _).claimsStand, (Calm.refl _).throwsStand,
    (Calm.refl _).portsStand, rfl⟩

theorem exitReset_holdFull {v : Env} {b i : Nat} {d : Live} (hx : (d.boundary b).exitSlot = some i)
    (hi : i < d.slots.length) : ExitReset v b d (holdFull v i d) := by
  have hc := calm_changeSlot v i (Slot.toCancelling (after v.now (1000 * v.timing.holdMax))) d
  obtain ⟨hslot, _, claims, throws, _, _, ports, stored, _⟩ := toCancelling v i
    (after v.now (1000 * v.timing.holdMax)) { env := v, live := d, pending := [] } d d.laneA d.laneB rfl hi
  refine ⟨fun j hj _ => ?_, hc.boundaries, claims, throws, ports, stored⟩
  obtain rfl : i = j := Option.some.inj (hx.symm.trans hj)
  exact ⟨congrArg Slot.state hslot, congrArg Slot.hold hslot⟩

theorem exitReset_resetExit {v : Env} {b : Nat} {d : Live}
    (h : ∀ i, (d.boundary b).exitSlot = some i → (d.slot i).state ≠ .setting) :
    ExitReset v b d (resetExit v b d) := by
  have hlt (i : Nat) (hi : (d.slot i).state ≠ .free) : i < d.slots.length :=
    active_lt (by simpa [Slot.active] using hi)
  unfold resetExit
  cases hx : (d.boundary b).exitSlot with
  | none => exact exitReset_of_same rfl (fun i hi => by rw [hx] at hi; cases hi)
  | some i =>
    have only (hs : ¬ ((d.slot i).state = .clear ∨ (d.slot i).state = .held ∨ (d.slot i).state = .entered)) :
        ExitReset v b d d := exitReset_of_same rfl (fun j hj => by
      obtain rfl : i = j := Option.some.inj (hx.symm.trans hj)
      exact hs)
    dsimp only
    cases hs : (d.slot i).state with
    | setting => exact absurd hs (h i hx)
    | clear => exact exitReset_holdFull hx (hlt i (by rw [hs]; nofun))
    | held => exact exitReset_holdFull hx (hlt i (by rw [hs]; nofun))
    | entered => exact exitReset_holdFull hx (hlt i (by rw [hs]; nofun))
    | free => exact only (by simp [hs])
    | cancelling => exact only (by simp [hs])

/-! ### The acceptance -/

/-- A boundary record but for what its acceptance, its requests and its link may change. -/
def Boundary.standing (x : Boundary) : Boundary := { x.lasting with awaiting := false }

/-- The acceptance of a boundary given up, and the neighbour told. -/
def giveUpAcceptance (v : Env) (b : Nat) (d : Live) : Live :=
  if (d.boundary b).acceptance = .none then d
  else sendFrom v b .acceptCancel (setAcceptance b .none none d)

theorem giveUpAcceptance_all (v : Env) {b : Nat} {d : Live} (hb : d.hasBoundary b) :
    Told d (giveUpAcceptance v b d) ∧ ((giveUpAcceptance v b d).boundary b).acceptance = .none
      ∧ ((giveUpAcceptance v b d).boundary b).standing = (d.boundary b).standing := by
  unfold giveUpAcceptance
  split
  · next h => exact ⟨Told.refl d, h, rfl⟩
  · have hset := boundary_setAcceptance b .none none d hb
    have hsent := sent_sendFrom v b .acceptCancel (setAcceptance b .none none d)
    refine ⟨(told_setAcceptance b .none none d).trans hsent.told, ?_, ?_⟩
    · have hacc := hsent.acceptance b
      rw [hset] at hacc
      exact hacc.elim id (fun h => h.2)
    · have hlast := congrArg (fun x : Boundary => ({ x with awaiting := false } : Boundary)) (hsent.boundary b)
      rw [hset] at hlast
      exact hlast

/-! ### The reset -/

/-- What a taken BOUNDARY_RESET leaves of a boundary, the exit slot not in SETTING. -/
structure BoundaryReset (v : Env) (b : Nat) (d e : Live) : Prop where
  acceptance : (e.boundary b).acceptance = .none
  berthLocked : (e.boundary b).berthLocked = (d.boundary b).berthLocked
  exitSlot : (e.boundary b).exitSlot = (d.boundary b).exitSlot
  completed : (d.boundary b).berthLocked = false → (e.boundary b).direction = .neutral
    ∧ (e.boundary b).restricted = false ∧ (e.boundary b).resetExpiry = none
  cleared : (d.boundary b).berthLocked = false → ∀ bd, v.boundary? b = some bd →
    ∀ k ∈ [FaultKind.contest, .restricted], ∀ f, (e.control bd.element).fault? k = some f → f.active = false
  waits : (d.boundary b).berthLocked = true → (e.boundary b).direction = (d.boundary b).direction
    ∧ (e.boundary b).restricted = true
    ∧ (e.boundary b).resetExpiry = some (after v.now (1000 * v.timing.holdMax))
  held : ∀ i, (d.boundary b).exitSlot = some i →
    ((d.slot i).state = .clear ∨ (d.slot i).state = .held ∨ (d.slot i).state = .entered) →
    (e.slot i).state = .cancelling ∧ (e.slot i).hold = some (after v.now (1000 * v.timing.holdMax))
  claims : d.claimsStand e
  throws : d.throwsStand e
  ports : d.portsStand e
  stored : e.stored = d.stored

/-- The boundary as a reset begins. -/
def Boundary.resetBegun (x : Boundary) : Boundary :=
  { x with restricted := true, consExpiry := none, reqExpiry := none, waiting := false }

/-- The boundary as a reset leaves it. -/
def Boundary.resetLeft (v : Env) (locked : Bool) (x : Boundary) : Boundary :=
  if locked then { x with resetExpiry := some (after v.now (1000 * v.timing.holdMax)) } else x.resetDone

theorem boundaryReset_applyReset {v : Env} {b : Nat} {d : Live} (hb : d.hasBoundary b)
    (h : ∀ i, (d.boundary b).exitSlot = some i → (d.slot i).state ≠ .setting) :
    BoundaryReset v b d (applyReset v b d) := by
  let d1 := d.setBoundary b Boundary.resetBegun
  let d2 := resetExit v b d1
  let d3 := giveUpAcceptance v b d2
  let locked := (d3.boundary b).berthLocked
  let d4 := d3.setBoundary b (Boundary.resetLeft v locked)
  let d5 := if locked then d4 else clearBoundaryFaults v b d4
  have hleft : ∀ x, (Boundary.resetLeft v locked x).num = x.num := fun x => by
    unfold Boundary.resetLeft; split <;> rfl
  have h1 : d1.boundary b = (d.boundary b).resetBegun := d.boundary_setBoundary_self hb _ (fun _ => rfl)
  have hexit : ExitReset v b d1 d2 := exitReset_resetExit (fun i hi => h i (by rw [h1] at hi; exact hi))
  have h2 : d2.boundary b = (d.boundary b).resetBegun := (Live.boundary_congr hexit.boundaries b).trans h1
  have hb2 : d2.hasBoundary b := by
    unfold Live.hasBoundary
    rw [hexit.boundaries, d.setBoundary_nums b Boundary.resetBegun (fun _ => rfl)]
    exact hb
  obtain ⟨told, hacc, hstand⟩ := giveUpAcceptance_all v hb2
  have hb3 : d3.hasBoundary b := by unfold Live.hasBoundary; rw [told.boundaryNums]; exact hb2
  have hlocked : locked = (d.boundary b).berthLocked :=
    (congrArg Boundary.berthLocked hstand).trans (by rw [h2]; rfl)
  obtain ⟨hw, hclear⟩ := applyReset_end v b (d.boundary b) locked d4 d5 rfl
  have he : (applyReset v b d).boundary b = Boundary.resetLeft v locked (d3.boundary b) :=
    (Live.boundary_congr hw.boundaries b).trans (d3.boundary_setBoundary_self hb3 _ hleft)
  have hslot (i : Nat) : SlotTold (d2.slot i) ((applyReset v b d).slot i) :=
    (told.slot i).trans (hw.slot i).told
  have hstanding : ∀ {α : Type} (F : Boundary → α), (∀ x : Boundary, F x = F x.standing) →
      F (d3.boundary b) = F (d.boundary b).resetBegun := fun F hF => by
    rw [hF, show (d3.boundary b).standing = _ from hstand, h2, ← hF]
  refine ⟨?_, ?_, ?_, fun hfree => ?_, fun hfree bd hbd k hk f hf =>
      hclear bd hbd (hlocked.trans hfree) k hk f hf, fun hlock => ?_, fun i hi hs => ?_,
    fun n => (hw.claimsStand n).trans ((told.claimsStand n).trans (hexit.claims n)), ?_, ?_, ?_⟩
  · rw [he]
    unfold Boundary.resetLeft
    split
    · exact hacc
    · exact hacc
  · refine Eq.trans ?_ hlocked
    rw [he]
    unfold Boundary.resetLeft
    split <;> rfl
  · refine Eq.trans ?_ (hstanding Boundary.exitSlot (fun _ => rfl))
    rw [he]
    unfold Boundary.resetLeft
    split <;> rfl
  · rw [he, hlocked, hfree]
    exact ⟨rfl, rfl, rfl⟩
  · rw [he, hlocked, hlock]
    exact ⟨hstanding Boundary.direction (fun _ => rfl), hstanding Boundary.restricted (fun _ => rfl), rfl⟩
  · obtain ⟨hcan, hhold⟩ := hexit.held i (by rw [h1]; exact hi) hs
    obtain ⟨-, -, -, -, -, hsame, -⟩ := told_fields (hslot i)
    refine ⟨((hslot i).still ?_).trans hcan, hsame.trans hhold⟩
    simp [Slot.needsExit, hcan]
  · exact ⟨fun n => (hw.throwsStand.1 n).trans ((told.throwsStand.1 n).trans (hexit.throws.1 n)),
      hw.orders.trans (told.orders.trans hexit.throws.2.1), hw.power.trans (told.power.trans hexit.throws.2.2)⟩
  · exact portsStand_trans hexit.ports (portsStand_trans told.portsStand hw.portsStand)
  · exact hw.stored.trans (told.stored.trans hexit.stored)

/-! ### The command -/

theorem takeBoundaryReset_of_unknown {b : Nat} {v : Env} (h : v.boundary? b = none) (d : Live) :
    takeBoundaryReset b v d = refuseBoth (.boundaryReset b) .badOperand d :=
  if_pos (by simp [h])

theorem takeBoundaryReset_of_busy {b : Nat} {v : Env} {d : Live} (h : v.boundary? b ≠ none)
    (hm : v.mode = .normal) (hx : (d.boundary b).resetExpiry ≠ none) :
    takeBoundaryReset b v d = refuseBoth (.boundaryReset b) .busy d := by
  unfold takeBoundaryReset
  rw [if_neg (by simpa using h), if_neg (by simp [hm]), if_pos (by simpa [Option.isSome_iff_ne_none] using hx)]

theorem takeBoundaryReset_of_free {b : Nat} {v : Env} {d : Live} (h : v.boundary? b ≠ none)
    (hm : v.mode = .normal) (hx : (d.boundary b).resetExpiry = none) :
    takeBoundaryReset b v d = applyReset v b d := by
  unfold takeBoundaryReset
  rw [if_neg (by simpa using h), if_neg (by simp [hm]), if_neg (by simp [hx])]


/-- Settles O53. -/
theorem boundaryResetRestrictsOrCompletes : Obligations.BoundaryResetRestrictsOrCompletes := by
  intro x b s ho hp hst hre
  let p := s.paired x (.boundaryReset b)
  have hpending : p.pending = s.pending := State.paired_pending s x (.boundaryReset b)
  have hmode : p.env.mode = .normal := mode_paired hp ho
  have hdefined : p.env.boundary? b = s.env.boundary? b := env_of_paired (fun v => v.boundary? b) s x _
  have hboundary : p.live.boundary = s.live.boundary := (tables_of_paired s x _).2.2.1
  have hslot : p.live.slot = s.live.slot := (tables_of_paired s x _).2.1
  refine ⟨fun why hwhy => ?_, fun bd hbd hx hb hs => ?_⟩
  · rcases hwhy with ⟨hno, rfl⟩ | ⟨hbd, hx, rfl⟩
    · exact ⟨_, exec_of_refusal rfl hp rfl ho hre rfl
        (takeBoundaryReset_of_unknown (hdefined.trans hno) p.live), rfl, hpending, rfl⟩
    · exact ⟨_, exec_of_refusal rfl hp rfl ho hre rfl
        (takeBoundaryReset_of_busy (v := p.env) (d := p.live) (by rwa [hdefined]) hmode (by rwa [hboundary])),
        rfl, hpending, rfl⟩
  · have htake : takeBoundaryReset b p.env p.live = applyReset p.env b p.live :=
      takeBoundaryReset_of_free (by rw [hdefined, hbd]; nofun) hmode (by rwa [hboundary])
    have hb' : p.live.hasBoundary b := by
      unfold Live.hasBoundary
      rw [show p.live.boundaries = s.live.boundaries from State.paired_boundaries s x _]
      exact hb
    have reset := boundaryReset_applyReset (v := p.env) hb' (by rw [hboundary, hslot]; exact hs)
    have hstored : (applyReset p.env b p.live).stored = [] :=
      reset.stored.trans ((State.paired_stored s x _).trans hst)
    have hlive : (p.act (takeBoundaryReset b)).live = (applyReset p.env b p.live).setReeval false := by
      rw [State.act_live, htake, serve_of_no_stored _ _ hstored]
    have hhold : after p.env.now (1000 * p.env.timing.holdMax)
        = after s.env.now (1000 * s.env.timing.holdMax) :=
      env_of_paired (fun v => after v.now (1000 * v.timing.holdMax)) s x _
    have hclear := fun h => reset.cleared h bd (hdefined.trans hbd)
    obtain ⟨claims, throws, _⟩ := stands_of_paired s x (.boundaryReset b) (applyReset p.env b p.live)
    have hberth := reset.berthLocked
    have hexit := reset.exitSlot
    have hfree := reset.completed
    have hlock := reset.waits
    have hheld := reset.held
    rw [hboundary] at hberth hexit hfree hlock hheld hclear
    rw [hslot] at hheld
    rw [hhold] at hlock hheld
    refine ⟨_, exec_of_operating rfl hp rfl ho, rfl, hpending, ?_⟩
    show (((p.act (takeBoundaryReset b)).live).boundary b).acceptance = .none ∧ _
    rw [show (ownerOf (.boundaryReset x b) p).live = (p.act (takeBoundaryReset b)).live from rfl, hlive]
    exact ⟨reset.acceptance, hberth, hexit,
      fun h => ⟨(hfree h).1, (hfree h).2.1, (hfree h).2.2, hclear h⟩, hlock, hheld,
      claims reset.claims, throws reset.throws, hstored, reset.ports⟩

end Sys2Proof.Machine
end

section
/-! PROOF. A change of a section's filtered value handed on (R15), and the release of a berth: whole, and section
by section behind a train (R165, R167). -/

namespace Sys2Proof.Machine

open Sys2Proof

/-! ### A section that turns CLEAR at its pick-up expiry (R14, R15) -/

/-- An element record after its pick-up expiry. -/
def Element.pickedUp (e : Element) : Element := { e with occupied := false, pickUp := none }

theorem exec_pickUpExpiry_of_due {n : Nat} {e : Element} {at_ : Time} {s : State}
    (he : s.env.element? n = some e) (hs : e.isSection = true) (ho : e.occupied = true)
    (hp : e.pickUp = some at_) (hr : reached s.env.now at_ = true) :
    exec (.pickUpExpiry n) s = .next { s with
      env := s.env.setElement n Element.pickedUp
      live := serve (s.env.setElement n Element.pickedUp)
        (sectionChanged (s.env.setElement n Element.pickedUp) n false true s.live) } := by
  have hnum : e.num = n := by simpa [Env.element?] using List.find?_some he
  have hsignal : e.pickedUp.isSignal = false := by
    unfold Element.isSection at hs
    unfold Element.isSignal Element.pickedUp
    cases hk : e.dfn.kind <;> simp_all
  have hdue : s.env.elementIs n (fun e => due s.env.now e.pickUp) = true := by
    simp [Env.elementIs, he, hp, due, hr]
  show Host.Outcome.next (if _ then s.updateElement n Element.pickedUp else s) = _
  rw [if_pos hdue]
  unfold State.updateElement
  rw [he]
  dsimp only
  unfold handOnElement
  have hoccupied : e.occupied ≠ e.pickedUp.occupied := by rw [ho]; nofun
  have hdiscrepant : (e.discrepant && !e.pickedUp.discrepant) = false := by
    rw [show e.pickedUp.discrepant = e.discrepant from rfl]
    cases e.discrepant <;> rfl
  simp only [hsignal, hdiscrepant, if_neg hoccupied, show e.agreed = e.pickedUp.agreed from rfl, if_true,
    Bool.false_eq_true, if_false, show e.pickedUp.num = n from hnum]
  rfl

theorem occupied_pickedUp {v : Env} {n : Nat} {e : Element} (he : v.element? n = some e) (m : Nat) :
    (v.setElement n Element.pickedUp).occupied m = false ↔ m = n ∨ v.occupied m = false := by
  unfold Env.occupied
  by_cases hm : m = n
  · subst hm
    rw [element?_setElement_self Element.pickedUp (fun _ => rfl) he]
    simp [Element.pickedUp]
  · rw [element?_setElement_ne Element.pickedUp (fun _ => rfl) hm]
    simp [hm]

/-! ### What a section change does at the slots -/

theorem mem_entrySections {es : List Entry} {n : Nat} (h : n ∈ entrySections es) :
    ∃ y ∈ es, y.element = n := by
  unfold entrySections at h
  obtain ⟨y, hy, he⟩ := List.mem_filterMap.1 h
  refine ⟨y, hy, ?_⟩
  split at he
  · exact Option.some.inj he
  · cases he

theorem concerns_of_noneAt {v : Env} {n i : Nat} {d : Live} (h : d.noneAt v n i) :
    concerns v d n i = false := by
  unfold concerns
  cases hr : d.routeOf v i with
  | none => rfl
  | some rt =>
    obtain ⟨hentry, hlists, hflank⟩ := h rt hr
    have hnot : n ∉ slotElements rt (d.slot i) := by
      intro hn
      rcases List.mem_append.1 hn with hn | hn
      · obtain ⟨y, hy, rfl⟩ := List.mem_map.1 hn
        refine hlists y (List.mem_append.2 ?_) rfl
        refine (List.mem_append.1 hy).imp (fun hy => ?_) (fun hy => ?_)
        · obtain ⟨j, _, hj, -⟩ := mem_ownPath.1 hy
          exact List.mem_of_getElem? hj
        · obtain ⟨j, _, hj, -⟩ := mem_ownOverlap.1 hy
          exact List.mem_of_getElem? hj
      · obtain ⟨q, hq, rfl⟩ := List.mem_map.1 hn
        exact hflank q hq rfl
    simp [hentry, hnot]

/-- A slot that has nothing of a section is left as it is. -/
theorem sectionAtSlot_of_noneAt {v : Env} {n i : Nat} {d : Live} (h : d.noneAt v n i) (occ movement : Bool) :
    sectionAtSlot v n occ movement i d = d := by
  unfold sectionAtSlot
  cases hr : d.routeOf v i with
  | none => rfl
  | some rt =>
    obtain ⟨-, hlists, -⟩ := h rt hr
    have hhead : rt.path.head?.any (fun e => e.element = n) = false := by
      cases hp : rt.path with
      | nil => rfl
      | cons y ys =>
        simpa using hlists y (List.mem_append_left _ (by simp [hp]))
    have hsection : hasSection rt n = false := by
      unfold hasSection
      rw [List.contains_eq_mem, decide_eq_false_iff_not]
      intro hn
      obtain ⟨y, hy, he⟩ := mem_entrySections hn
      exact hlists y hy he
    simp only [hhead, hsection, concerns_of_noneAt h, Bool.and_false, Bool.false_and, Bool.false_eq_true,
      if_false]
    split <;> rfl

/-- What comes after the slots when a section has turned CLEAR. -/
theorem sectionChanged_clear (v : Env) (n : Nat) (movement : Bool) (d : Live) :
    sectionChanged v n false movement d
      = ((v.defs.boundaries.foldl (fun d bd => berthChanged v n false movement bd.number d)
          (runArbiters .now v (hasOrder v (fun p => v.elementIs p (fun e => e.containing = some n)))
            (d.eachSlot (sectionAtSlot v n false movement)))).setReeval true) := rfl

theorem foldl_of_fixed {α β : Type} {f : β → α → β} {l : List α} {d : β} (h : ∀ a ∈ l, f d a = d) :
    l.foldl f d = d := by
  induction l with
  | nil => rfl
  | cons a l ih => rw [List.foldl_cons, h a (by simp), ih (fun b hb => h b (by simp [hb]))]

/-- A fold in which all but one leave what they find. -/
theorem foldl_of_only {α β : Type} {f : β → α → β} {l : List α} {a : α} {d : β} (ha : a ∈ l) (hl : l.Nodup)
    (hb : ∀ b ∈ l, b ≠ a → f d b = d) (hc : ∀ b ∈ l, b ≠ a → f (f d a) b = f d a) : l.foldl f d = f d a := by
  obtain ⟨l1, l2, rfl⟩ := List.append_of_mem ha
  have hnot : a ∉ l1 ∧ a ∉ l2 := by
    have := List.nodup_append.1 hl
    refine ⟨fun h => ?_, (List.nodup_cons.1 this.2.1).1⟩
    exact this.2.2 a h a (by simp) rfl
  rw [List.foldl_append, List.foldl_cons,
    foldl_of_fixed (fun b h => hb b (by simp [h]) (fun e => hnot.1 (e ▸ h))),
    foldl_of_fixed (fun b h => hc b (by simp [h]) (fun e => hnot.2 (e ▸ h)))]

/-! ### The berths of a section -/

theorem boundary?_of_mem {v : Env} {bd : BoundaryDef} (hm : bd ∈ v.defs.boundaries)
    (hn : (v.defs.boundaries.map BoundaryDef.number).Nodup) : v.boundary? bd.number = some bd := by
  unfold Env.boundary?
  generalize v.defs.boundaries = l at hm hn
  induction l with
  | nil => cases hm
  | cons x l ih =>
    rw [List.map_cons, List.nodup_cons] at hn
    rw [List.find?_cons]
    rcases List.mem_cons.1 hm with rfl | hm
    · simp
    · have hne : x.number ≠ bd.number := fun h => hn.1 (h ▸ List.mem_map_of_mem hm)
      simp [hne, ih hm hn.2]

theorem berthChanged_of_not_mem {v : Env} {n b : Nat} {d : Live} (occ movement : Bool)
    (h : ∀ bd, v.boundary? b = some bd → n ∉ bd.berth) : berthChanged v n occ movement b d = d := by
  unfold berthChanged
  cases hb : v.boundary? b with
  | none => rfl
  | some bd => simp [h bd hb]

/-- The entry of a berth passes the test of R165 by itself. -/
def berthTest (v : Env) (ns : List Nat) (ms : List Mark) (k : Nat) : Prop :=
  ∃ m y, ms[k]? = some m ∧ ns[k]? = some y ∧ (m.released = true ∨ (m.occ = true ∧ v.occupied y = false))

/-- The entries of a berth that are released now: not released before, and passed with all before them. -/
def berthFreed (v : Env) (ns : List Nat) (ms : List Mark) (y : Nat) : Prop :=
  ∃ j m, ns[j]? = some y ∧ ms[j]? = some m ∧ m.released = false ∧ ∀ h ≤ j, berthTest v ns ms h

theorem berthTest_zero {v : Env} {n : Nat} {ns : List Nat} {m : Mark} {ms : List Mark} :
    berthTest v (n :: ns) (m :: ms) 0
      ↔ (m.released = true ∨ (m.occ = true ∧ v.occupied n = false)) := by
  simp [berthTest]

theorem berthTest_succ {v : Env} {n : Nat} {ns : List Nat} {m : Mark} {ms : List Mark} {k : Nat} :
    berthTest v (n :: ns) (m :: ms) (k + 1) ↔ berthTest v ns ms k := by
  simp [berthTest]

theorem berthTest_all_succ {v : Env} {n : Nat} {ns : List Nat} {m : Mark} {ms : List Mark} {k : Nat} :
    (∀ j ≤ k + 1, berthTest v (n :: ns) (m :: ms) j)
      ↔ (m.released = true ∨ (m.occ = true ∧ v.occupied n = false)) ∧ ∀ j ≤ k, berthTest v ns ms j := by
  constructor
  · exact fun h => ⟨berthTest_zero.1 (h 0 (by omega)), fun j hj => berthTest_succ.1 (h (j + 1) (by omega))⟩
  · rintro ⟨h0, h⟩ (_ | j) hj
    · exact berthTest_zero.2 h0
    · exact berthTest_succ.2 (h j (by omega))

/-- The sweep goes past the front entry, which it may release. -/
theorem berthSweep_cons_of_pass {v : Env} {n : Nat} {ns : List Nat} {m : Mark} {ms : List Mark}
    (h : m.released = true ∨ (m.occ = true ∧ v.occupied n = false)) :
    berthSweep v (n :: ns) (m :: ms)
      = ((if m.released then [] else [n]) ++ (berthSweep v ns ms).1,
        { m with released := true } :: (berthSweep v ns ms).2) := by
  rw [berthSweep]
  by_cases hr : m.released = true
  · obtain ⟨occ, _, transferred⟩ := m
    obtain rfl : _ = true := hr
    simp
  · have := h.resolve_left hr
    simp [hr, this]

theorem berthSweep_cons_of_fail {v : Env} {n : Nat} {ns : List Nat} {m : Mark} {ms : List Mark}
    (h : ¬ (m.released = true ∨ (m.occ = true ∧ v.occupied n = false))) :
    berthSweep v (n :: ns) (m :: ms) = ([], m :: ms) := by
  rw [berthSweep]
  simp only [not_or, not_and, Bool.not_eq_false] at h
  rw [if_neg h.1, if_neg (by simpa using h.2)]

theorem berthFreed_cons {v : Env} {n : Nat} {ns : List Nat} {m : Mark} {ms : List Mark} (y : Nat) :
    berthFreed v (n :: ns) (m :: ms) y
      ↔ (m.released = true ∨ (m.occ = true ∧ v.occupied n = false))
        ∧ ((n = y ∧ m.released = false) ∨ berthFreed v ns ms y) := by
  constructor
  · rintro ⟨_ | j, k, hj, hk, hr, hall⟩
    · simp only [List.getElem?_cons_zero, Option.some.injEq] at hj hk
      subst hk
      exact ⟨berthTest_zero.1 (hall 0 (by omega)), Or.inl ⟨hj, hr⟩⟩
    · obtain ⟨h0, hrest⟩ := berthTest_all_succ.1 hall
      exact ⟨h0, Or.inr ⟨j, k, by simpa using hj, by simpa using hk, hr, hrest⟩⟩
  · rintro ⟨h0, ⟨rfl, hr⟩ | ⟨j, k, hj, hk, hr, hall⟩⟩
    · refine ⟨0, m, rfl, rfl, hr, fun h hh => ?_⟩
      obtain rfl : h = 0 := by omega
      exact berthTest_zero.2 h0
    · exact ⟨j + 1, k, by simpa using hj, by simpa using hk, hr, berthTest_all_succ.2 ⟨h0, hall⟩⟩

theorem mem_berthSweep_iff {v : Env} {ns : List Nat} {ms : List Mark} (y : Nat) :
    y ∈ (berthSweep v ns ms).1 ↔ berthFreed v ns ms y := by
  induction ns generalizing ms with
  | nil => simp [berthSweep, berthFreed]
  | cons n ns ih =>
    cases ms with
    | nil => simp [berthSweep, berthFreed]
    | cons m ms =>
      rw [berthFreed_cons]
      by_cases h : m.released = true ∨ (m.occ = true ∧ v.occupied n = false)
      · rw [berthSweep_cons_of_pass h]
        simp only [List.mem_append, h, true_and, ih]
        refine or_congr_left ?_
        cases hr : m.released with
        | true => simp
        | false => simp [eq_comm (a := y)]
      · rw [berthSweep_cons_of_fail h]
        simp [h]

/-- The marks after a sweep. -/
theorem berthSweep_mark {v : Env} {ns : List Nat} {ms : List Mark} (hlen : ms.length = ns.length) {k : Nat} {m : Mark}
    (hm : ms[k]? = some m) : ∃ m', (berthSweep v ns ms).2[k]? = some m' ∧ m'.occ = m.occ
      ∧ (m'.released = true ↔ m.released = true ∨ ∀ j ≤ k, berthTest v ns ms j) := by
  induction ns generalizing ms k with
  | nil =>
    obtain rfl : ms = [] := List.length_eq_zero_iff.1 hlen
    cases hm
  | cons n ns ih =>
    cases ms with
    | nil => cases hm
    | cons x ms =>
      by_cases h : x.released = true ∨ (x.occ = true ∧ v.occupied n = false)
      · rw [berthSweep_cons_of_pass h]
        cases k with
        | zero =>
          obtain rfl : x = m := by simpa using hm
          refine ⟨_, rfl, rfl, ⟨fun _ => Or.inr (fun j hj => ?_), fun _ => rfl⟩⟩
          obtain rfl : j = 0 := by omega
          exact berthTest_zero.2 h
        | succ k =>
          obtain ⟨m', h1, h2, h3⟩ := ih (by simpa using hlen) (by simpa using hm)
          refine ⟨m', by simpa using h1, h2, h3.trans (or_congr_right ?_)⟩
          rw [berthTest_all_succ]
          exact ⟨fun hall => ⟨h, hall⟩, fun hall => hall.2⟩
      · rw [berthSweep_cons_of_fail h]
        refine ⟨m, hm, rfl, ⟨Or.inl, fun hor => hor.elim id (fun hall => ?_)⟩⟩
        exact absurd (berthTest_zero.1 (hall 0 (by omega))) h

theorem berthSweep_length (v : Env) (ns : List Nat) (ms : List Mark) :
    (berthSweep v ns ms).2.length = ms.length := by
  induction ns generalizing ms with
  | nil => rw [berthSweep]; nofun
  | cons n ns ih =>
    cases ms with
    | nil => rw [berthSweep]; nofun
    | cons m ms =>
      by_cases h : m.released = true ∨ (m.occ = true ∧ v.occupied n = false)
      · rw [berthSweep_cons_of_pass h]
        simp [ih]
      · rw [berthSweep_cons_of_fail h]

theorem berthSweep_all_released {v : Env} {ns : List Nat} {ms : List Mark} (hlen : ms.length = ns.length) :
    (berthSweep v ns ms).2.all Mark.released = true ↔ ∀ k < ns.length, berthTest v ns ms k := by
  rw [List.all_eq_true]
  constructor
  · intro h k hk
    have hm : ms[k]? = some ms[k] := List.getElem?_eq_getElem (by omega)
    obtain ⟨m', h1, -, h3⟩ := berthSweep_mark (v := v) hlen hm
    rcases h3.1 (h m' (List.mem_of_getElem? h1)) with hr | hall
    · exact ⟨_, _, hm, List.getElem?_eq_getElem hk, Or.inl hr⟩
    · exact hall k le_rfl
  · intro h m' hm'
    obtain ⟨k, hk⟩ := List.getElem?_of_mem hm'
    have hlt : k < ms.length := by
      rw [← berthSweep_length v ns ms]
      exact (List.getElem?_eq_some_iff.1 hk).1
    obtain ⟨m, hm⟩ : ∃ m, ms[k]? = some m := ⟨_, List.getElem?_eq_getElem hlt⟩
    obtain ⟨m'', h1, -, h3⟩ := berthSweep_mark (v := v) hlen hm
    obtain rfl : m'' = m' := Option.some.inj (h1.symm.trans hk)
    exact h3.2 (Or.inr (fun j hj => h j (by omega)))

theorem Slot.judged.trans {s t u : Slot} (h : s.judged t) (k : t.judged u) : s.judged u := by
  obtain ⟨h1, h2, h3⟩ := h
  obtain ⟨k1, k2, k3⟩ := k
  refine ⟨?_, fun hs => ?_, fun hs => k3 (h3 hs)⟩
  · have := congrArg (fun x : Slot => { x with
      state := s.state, everCleared := s.everCleared, reclear := s.reclear, setting := s.setting }) k1
    exact this.trans h1
  · rw [k2 (by rw [h2 hs]; exact hs), h2 hs]

/-! ### A berth released whole (R52, R165) -/

/-- What the end of an event at a berth leaves, after its locks have gone. -/
structure BerthEvent (b : Nat) (f : Boundary → Boundary) (freed : Nat → Prop) (d e : Live) : Prop where
  boundary : d.hasBoundary b → e.boundary b = f (d.boundary b)
  bounds : ∀ k, k ≠ b → e.boundary k = d.boundary k
  locks : ∀ k, (freed k ∧ (d.control k).lock.any (fun y => y.holder = .berth b) = true →
      (e.control k).lock = none)
    ∧ (¬ (freed k ∧ (d.control k).lock.any (fun y => y.holder = .berth b) = true) →
      (e.control k).lock = (d.control k).lock)
  links : e.links = d.links
  groups : e.groups = d.groups
  ports : d.portsStand e
  judged : d.slotsJudged e
  stored : e.stored = d.stored

theorem SameTables.portsStand {d e : Live} (h : SameTables d e) : d.portsStand e := by
  intro l
  have hl : e.lane l = d.lane l := by cases l <;> simp [Live.lane, h.laneA, h.laneB]
  rw [hl]
  exact ⟨rfl, rfl, List.prefix_rfl⟩

/-- The berth's locks gone from some sections, and its boundary record changed; nothing else. -/
structure Unlocked (b : Nat) (f : Boundary → Boundary) (ns : List Nat) (d e : Live) : Prop where
  same : SameTables d { e with boundaries := d.boundaries }
  slots : e.slots = d.slots
  nums : e.boundaries.map Boundary.num = d.boundaries.map Boundary.num
  boundary : d.hasBoundary b → e.boundary b = f (d.boundary b)
  bounds : ∀ k, k ≠ b → e.boundary k = d.boundary k
  lock : ∀ k, (e.control k).lock
    = if k ∈ ns ∧ (d.control k).lock.any (fun y => y.holder = .berth b) = true then none
      else (d.control k).lock

theorem Unlocked.setBoundary {b : Nat} {f : Boundary → Boundary} {ns : List Nat} {d e : Live}
    (h : Unlocked b f ns d e) {g : Boundary → Boundary} (hg : ∀ x, (g x).num = x.num) :
    Unlocked b (fun x => g (f x)) ns d (e.setBoundary b g) where
  same := h.same
  slots := h.slots
  nums := (e.setBoundary_nums b g hg).trans h.nums
  boundary hb := by
    rw [e.boundary_setBoundary_self (by unfold Live.hasBoundary; rw [h.nums]; exact hb) g hg, h.boundary hb]
  bounds k hk := (e.boundary_setBoundary_ne hk g hg).trans (h.bounds k hk)
  lock := h.lock

theorem unlocked_removeLocks (v : Env) (b : Nat) (ns : List Nat) {f : Boundary → Boundary}
    (hf : ∀ x, (f x).num = x.num) (d : Live) :
    Unlocked b f ns d ((Release.start (d.setBoundary b f)).removeLocks v (.berth b) ns).live := by
  obtain ⟨same, hslots, hlocks⟩ := removeLocks_all v (.berth b) ns (Release.start (d.setBoundary b f))
  have hbounds := Live.boundary_congr same.boundaries
  exact ⟨⟨same.laneA, same.laneB, same.stored, same.orders, same.power, same.groups, same.links, rfl⟩, hslots,
    (congrArg (List.map Boundary.num) same.boundaries).trans (d.setBoundary_nums b f hf),
    fun hb => (hbounds b).trans (d.boundary_setBoundary_self hb f hf),
    fun k hk => (hbounds k).trans (d.boundary_setBoundary_ne hk f hf), hlocks⟩

theorem berthEvent_finishBerth (v : Env) (b : Nat) {f : Boundary → Boundary} (x : Boundary) (done : Bool)
    {ns : List Nat} {d : Live} {r : Release} (hst : d.stored = []) (h : Unlocked b f ns d r.live) :
    BerthEvent b f (fun k => k ∈ ns) d (finishBerth v b x done r) := by
  obtain ⟨h1, h2, h3, h4, h5, h6, h7⟩ := finishBerth_all v b x done r (h.same.stored.trans hst)
  have hlock (k : Nat) := (lock_of_claims h5 k).trans (h.lock k)
  refine ⟨fun hb => (Live.boundary_congr h3 b).trans (h.boundary hb),
    fun k hk => (Live.boundary_congr h3 k).trans (h.bounds k hk),
    fun k => ⟨fun hk => (hlock k).trans (if_pos hk), fun hk => (hlock k).trans (if_neg hk)⟩,
    h2.trans h.same.links, h4.trans h.same.groups, portsStand_trans h.same.portsStand h6, fun i => ?_,
    h1.trans hst.symm⟩
  have hslot : r.live.slot i = d.slot i := by unfold Live.slot; rw [h.slots]
  exact hslot ▸ h7 i

theorem berthGone_num (x : Boundary) : x.berthGone.num = x.num := by
  unfold Boundary.berthGone
  split <;> rfl

theorem unlocked_berthWhole {v : Env} {b : Nat} {bd : BoundaryDef} (hbd : v.boundary? b = some bd) (d : Live) :
    Unlocked b Boundary.berthGone bd.berth d (berthWhole v b (Release.start d)).live := by
  have h := (unlocked_removeLocks v b bd.berth (f := fun x => x) (fun _ => rfl) d).setBoundary berthGone_num
  unfold berthWhole
  rw [hbd]
  rwa [show d.setBoundary b (fun x => x) = d by simp [Live.setBoundary]] at h

theorem Boundary.berthGone_berthLocked (x : Boundary) : x.berthGone.berthLocked = false := by
  unfold Boundary.berthGone
  split <;> rfl

theorem Boundary.berthGone_marks (x : Boundary) : x.berthGone.marks = [] := by
  unfold Boundary.berthGone
  split <;> rfl

theorem Boundary.berthGone_resetExpiry (x : Boundary) : x.berthGone.resetExpiry = none := by
  unfold Boundary.berthGone
  split
  · rfl
  · next h => simpa using h

theorem Boundary.berthGone_of_reset {x : Boundary} (h : x.resetExpiry ≠ none) :
    x.berthGone.direction = .neutral ∧ x.berthGone.restricted = false := by
  unfold Boundary.berthGone
  rw [if_pos (by simpa [Option.isSome_iff_ne_none] using h)]
  exact ⟨rfl, rfl⟩

/-- A berth released whole on a state with nothing stored. -/
theorem berthEvent_whole {v : Env} {b : Nat} {bd : BoundaryDef} (hbd : v.boundary? b = some bd) {d : Live}
    (hst : d.stored = []) :
    BerthEvent b Boundary.berthGone (fun k => k ∈ bd.berth) d
      (finishBerth v b (d.boundary b)
        (resetEnded (d.boundary b) b (berthWhole v b (Release.start d)).live)
        (berthWhole v b (Release.start d))) :=
  berthEvent_finishBerth v b _ _ hst (unlocked_berthWhole hbd d)

/-! ### Section by section behind a train (R165) -/

/-- The sections of a berth that a change of one of them to CLEAR releases, and the record so left. -/
theorem berthEvent_berthChanged {v : Env} {n : Nat} {movement : Bool} {bd : BoundaryDef} {d : Live}
    (hbd : v.boundary? bd.number = some bd) (hst : d.stored = []) (hn : n ∈ bd.berth)
    (hlock : (d.boundary bd.number).berthLocked = true)
    (hlen : (d.boundary bd.number).marks.length = bd.berth.length) :
    let ms := (d.boundary bd.number).marks
    let swept : Boundary → Boundary := fun x => { x with marks := (berthSweep v bd.berth ms).2 }
    ((∀ k < bd.berth.length, berthTest v bd.berth ms k) →
      BerthEvent bd.number (fun x => (swept x).berthGone) (berthFreed v bd.berth ms) d
        (berthChanged v n false movement bd.number d))
    ∧ ((∃ k < bd.berth.length, ¬ berthTest v bd.berth ms k) →
      BerthEvent bd.number swept (berthFreed v bd.berth ms) d
        (berthChanged v n false movement bd.number d)) := by
  intro ms swept
  have hchanged : berthChanged v n false movement bd.number d
      = (let r := (Release.start (d.setBoundary bd.number swept)).removeLocks v (.berth bd.number)
          (berthSweep v bd.berth ms).1
        let r1 := if (berthSweep v bd.berth ms).2.all Mark.released then
            { r with live := r.live.setBoundary bd.number Boundary.berthGone } else r
        finishBerth v bd.number (d.boundary bd.number)
          (resetEnded (d.boundary bd.number) bd.number r1.live) r1) := by
    unfold berthChanged
    simp only [hbd, hlock, List.contains_eq_mem, hn, decide_true, Bool.not_true, Bool.or_self,
      Bool.false_eq_true, if_false]
    rfl
  have hfreed : berthFreed v bd.berth ms = fun k => k ∈ (berthSweep v bd.berth ms).1 :=
    funext (fun k => propext (mem_berthSweep_iff k).symm)
  have hall : (berthSweep v bd.berth ms).2.all Mark.released = true
      ↔ ∀ k < bd.berth.length, berthTest v bd.berth ms k := berthSweep_all_released hlen
  have hun := unlocked_removeLocks v bd.number (berthSweep v bd.berth ms).1 (f := swept) (fun _ => rfl) d
  rw [hchanged, hfreed]
  dsimp only
  refine ⟨fun h => ?_, fun h => ?_⟩
  · rw [if_pos (hall.2 h)]
    exact berthEvent_finishBerth v bd.number _ _ hst (hun.setBoundary berthGone_num)
  · rw [if_neg (fun hr => by
      obtain ⟨k, hk, hn⟩ := h
      exact hn (hall.1 hr k hk))]
    exact berthEvent_finishBerth v bd.number _ _ hst hun


/-- Of the berth's locks only those on freed sections go. -/
theorem BerthEvent.lock_cases {b : Nat} {f : Boundary → Boundary} {freed : Nat → Prop} {d e : Live}
    (h : BerthEvent b f freed d e) (k : Nat) :
    (freed k → ∀ y, (d.control k).lock = some y → y.holder = .berth b → (e.control k).lock = none)
    ∧ ((e.control k).lock = (d.control k).lock
      ∨ ((e.control k).lock = none ∧ (∃ y, (d.control k).lock = some y ∧ y.holder = .berth b) ∧ freed k)) := by
  obtain ⟨hgone, hstands⟩ := h.locks k
  refine ⟨fun hk y hy hb => hgone ⟨hk, by simp [hy, hb]⟩, ?_⟩
  by_cases hk : freed k ∧ (d.control k).lock.any (fun y => y.holder = .berth b) = true
  · refine Or.inr ⟨hgone hk, ?_, hk.1⟩
    cases hy : (d.control k).lock with
    | none => simp [hy] at hk
    | some y => exact ⟨y, rfl, by simpa [hy] using hk.2⟩
  · exact Or.inl (hstands hk)

/-- A section of one berth and of no slot, turned CLEAR. -/
theorem exec_pickUpExpiry_of_berth {n : Nat} {e : Element} {at_ : Time} {bd : BoundaryDef} {s : State}
    (he : s.env.element? n = some e) (hs : e.isSection = true) (ho : e.occupied = true)
    (hp : e.pickUp = some at_) (hr : reached s.env.now at_ = true) (hst : s.live.stored = [])
    (honly : ∀ b ∈ s.env.defs.boundaries, n ∈ b.berth → b = bd)
    (hnodup : (s.env.defs.boundaries.map BoundaryDef.number).Nodup) (hmem : bd ∈ s.env.defs.boundaries)
    (hnone : ∀ i, s.live.noneAt s.env n i) :
    ∃ d, Moved s.live d ∧ exec (.pickUpExpiry n) s = .next { s with
      env := s.env.setElement n Element.pickedUp
      live := serve (s.env.setElement n Element.pickedUp)
        ((berthChanged (s.env.setElement n Element.pickedUp) n false true bd.number d).setReeval true) } := by
  let v := s.env.setElement n Element.pickedUp
  let d := runArbiters .now v (hasOrder v (fun p => v.elementIs p (fun e => e.containing = some n))) s.live
  have hmoved : Moved s.live d := moved_runArbiters_of_no_stored v _ s.live hst
  have hslots : s.live.eachSlot (sectionAtSlot v n false true) = s.live :=
    foldl_of_fixed (fun i _ => sectionAtSlot_of_noneAt (v := v) (hnone i) false true)
  have hother (b : BoundaryDef) (hb : b ∈ s.env.defs.boundaries) (hne : b ≠ bd) (d : Live) :
      berthChanged v n false true b.number d = d := by
    refine berthChanged_of_not_mem false true (fun b' hb' hn => hne (honly b hb ?_))
    obtain rfl : b = b' := Option.some.inj ((boundary?_of_mem (v := v) hb hnodup).symm.trans hb')
    exact hn
  have hberths : v.defs.boundaries.foldl (fun d bd => berthChanged v n false true bd.number d) d
      = berthChanged v n false true bd.number d :=
    foldl_of_only (f := fun d bd => berthChanged v n false true bd.number d) hmem (List.Nodup.of_map _ hnodup)
      (fun b hb hne => hother b hb hne d) (fun b hb hne => hother b hb hne _)
  refine ⟨d, hmoved, (exec_pickUpExpiry_of_due he hs ho hp hr).trans ?_⟩
  rw [sectionChanged_clear, hslots]
  exact congrArg (fun e => Host.Outcome.next { s with env := v, live := serve v (e.setReeval true) }) hberths

/-- Settles O58. -/
theorem berthReleased : Obligations.BerthReleased := by
  refine ⟨?_, ?_⟩
  · intro l n fs bd s hst hbd hn hb hl c hc
    obtain ⟨ls, e, hexec, ev, hrx⟩ : ∃ ls e, exec c s = .next { s with live := serve s.env e }
        ∧ BerthEvent bd.number Boundary.berthGone (fun k => k ∈ bd.berth) { s.live with links := ls } e
        ∧ (c = .acceptCancel l → (e.link l).rx = fs) := by
      rcases hc with ⟨rfl, hu, hrx, hlock, hmarks⟩ | ⟨rfl, at_, hexp, hdue⟩
      · let d := frameTaken s.env l s.live
        have happly : applyAcceptCancel s.env bd.number d = _ := if_pos (by
          show ((s.live.boundary bd.number).berthLocked
            && (s.live.boundary bd.number).marks.all (fun m => !m.occ)) = true
          rw [hlock, Bool.true_and, List.all_eq_true]
          exact fun m hm => by rw [hmarks m hm]; rfl)
        have ev := berthEvent_whole hbd (d := d) hst
        rw [← happly] at ev
        exact ⟨d.links, _, exec_of_frame (ap := fun v b _ => applyAcceptCancel v b) rfl hrx rfl hu hn, ev,
          fun _ => by rw [Live.link_congr ev.links, frameTaken_link hl hrx]⟩
      · have happly : resetDue bd.number s.env s.live = _ := if_pos (by rw [hexp]; exact hdue)
        have ev := berthEvent_whole hbd hst
        rw [← happly] at ev
        exact ⟨s.live.links, _, exec_of_effect (f := resetDue bd.number) rfl s, ev, nofun⟩
    have hself := ev.boundary hb
    rw [serve_of_no_stored _ _ (ev.stored.trans hst)] at hexec
    refine ⟨_, hexec, rfl, rfl, ?_, ?_, ?_, fun hx => ?_, ev.bounds, fun k => ?_, hrx, ev.ports, ev.judged,
      ev.stored.trans hst, ev.groups⟩
    · exact (congrArg Boundary.berthLocked hself).trans (Boundary.berthGone_berthLocked _)
    · exact (congrArg Boundary.marks hself).trans (Boundary.berthGone_marks _)
    · exact (congrArg Boundary.resetExpiry hself).trans (Boundary.berthGone_resetExpiry _)
    · have := Boundary.berthGone_of_reset hx
      exact ⟨(congrArg Boundary.direction hself).trans this.1, (congrArg Boundary.restricted hself).trans this.2⟩
    · split
      · next h => exact (ev.locks k).1 h
      · next h => exact (ev.locks k).2 h
  · intro n e at_ bd s hst he hs ho hp hr hbd hb hn honly hnodup hmem hnone hlock hlen _ test htest
    obtain ⟨d, hmoved, hexec⟩ := exec_pickUpExpiry_of_berth he hs ho hp hr hst honly hnodup hmem hnone
    let v := s.env.setElement n Element.pickedUp
    let ms := (s.live.boundary bd.number).marks
    have hms : d.boundary bd.number = s.live.boundary bd.number := Live.boundary_congr hmoved.boundaries _
    have hT (k : Nat) : test k ↔ berthTest v bd.berth ms k := by
      rw [htest k]
      unfold berthTest
      simp only [v, occupied_pickedUp he]
      rfl
    obtain ⟨hwhole, hpart⟩ := berthEvent_berthChanged (v := v) (movement := true) hbd (hmoved.stored.trans hst) hn
      (by rw [hms]; exact hlock) (by rw [hms]; exact hlen)
    rw [hms] at hwhole hpart
    let swept : Boundary → Boundary := fun x => { x with marks := (berthSweep v bd.berth ms).2 }
    obtain ⟨f, ev, hall, hex⟩ : ∃ f, BerthEvent bd.number f (berthFreed v bd.berth ms) d
          (berthChanged v n false true bd.number d)
        ∧ ((∀ k < bd.berth.length, test k) → f = fun x => (swept x).berthGone)
        ∧ ((∃ k < bd.berth.length, ¬ test k) → f = swept) := by
      simp only [hT]
      by_cases h : ∀ k < bd.berth.length, berthTest v bd.berth ms k
      · exact ⟨_, hwhole h, fun _ => rfl, fun ⟨k, hk, hn⟩ => absurd (h k hk) hn⟩
      · have h' : ∃ k < bd.berth.length, ¬ berthTest v bd.berth ms k := by simpa using h
        exact ⟨_, hpart h', fun hc => absurd hc h, fun _ => rfl⟩
    have hfreed (k : Nat) : berthFreed v bd.berth ms k ↔ ∃ j m, bd.berth[j]? = some k ∧ ms[j]? = some m
        ∧ m.released = false ∧ ∀ h ≤ j, test h := by
      simp only [berthFreed, hT]
    have hlocks := ev.lock_cases
    simp only [lock_of_claims hmoved.claimsStand, hfreed] at hlocks
    have hself := ev.boundary (by unfold Live.hasBoundary; rw [hmoved.boundaries]; exact hb)
    rw [hms] at hself
    have hstored := ev.stored.trans (hmoved.stored.trans hst)
    have hserve : serve v ((berthChanged v n false true bd.number d).setReeval true)
        = (berthChanged v n false true bd.number d).setReeval false := serve_of_no_stored v _ hstored
    have hnext : exec (.pickUpExpiry n) s = .next { s with
        env := v, live := (berthChanged v n false true bd.number d).setReeval false } :=
      hexec.trans (congrArg (fun e => Host.Outcome.next { s with env := v, live := e }) hserve)
    refine ⟨_, hnext, rfl,
      fun h => ?_, fun h => ?_, hlocks,
      fun b hb => (ev.bounds b hb).trans (Live.boundary_congr hmoved.boundaries b),
      portsStand_trans hmoved.portsStand ev.ports,
      fun i => (hmoved.slot i).judged.trans (ev.judged i), hstored⟩
    · have hgone : (berthChanged v n false true bd.number d).boundary bd.number = _ := hself
      rw [hall h] at hgone
      refine ⟨(congrArg Boundary.berthLocked hgone).trans (Boundary.berthGone_berthLocked _),
        (congrArg Boundary.marks hgone).trans (Boundary.berthGone_marks _), fun k hk y hy hholder => ?_⟩
      obtain ⟨j, hj⟩ := List.getElem?_of_mem hk
      have hjlt : j < bd.berth.length := (List.getElem?_eq_some_iff.1 hj).1
      have hm : ms[j]? = some ms[j] := List.getElem?_eq_getElem (hjlt.trans_eq hlen.symm)
      refine ⟨j, ms[j], hj, hm, ?_⟩
      by_contra hnot
      have hgoes := (hlocks k).1 ⟨j, ms[j], hj, hm, by simpa using hnot, fun i hi => h i (by omega)⟩
      rcases (hlocks k).2 with hsame | ⟨hgone, -⟩
      · cases hy.symm.trans (hgoes y (hsame.symm.trans hy) hholder)
      · cases hy.symm.trans hgone
    · have hkept : (berthChanged v n false true bd.number d).boundary bd.number = _ := hself
      rw [hex h] at hkept
      refine ⟨(congrArg Boundary.berthLocked hkept).trans hlock, fun k m hm => ?_⟩
      obtain ⟨m', h1, h2, h3⟩ := berthSweep_mark (v := v) hlen hm
      exact ⟨m', (congrArg (fun x => x.marks[k]?) hkept).trans h1, h2, by simpa only [hT] using h3⟩

end Sys2Proof.Machine
end

section
/-! PROOF. What a release and a judgement leave standing: the fault entries that no throw and no link raises or ends
(R139), and the slots in SETTING (R74 to R76). -/

namespace Sys2Proof.Machine

open Sys2Proof

/-! ### Fault entries of one kind -/

/-- Neither a throw nor a link raises or ends an entry of this kind (R139). -/
def FaultKind.apart (k : FaultKind) : Prop :=
  k ≠ .throwFail ∧ k ≠ .lostDetection ∧ k ≠ .slowThrow ∧ k ≠ .linkLost

/-- Every entry of this kind stands. -/
def Live.entriesStand (k : FaultKind) (d e : Live) : Prop :=
  ∀ n, (e.control n).fault? k = (d.control n).fault? k

section entries

variable {k : FaultKind} {v : Env}

theorem Live.entriesStand.refl (d : Live) : d.entriesStand k d := fun _ => rfl

theorem Live.entriesStand.trans {d e f : Live} (h : d.entriesStand k e) (j : e.entriesStand k f) :
    d.entriesStand k f := fun n => (j n).trans (h n)

theorem Live.entriesStand.ite {d e f : Live} {c : Prop} [Decidable c] (h : d.entriesStand k e)
    (j : d.entriesStand k f) : d.entriesStand k (if c then e else f) := by
  split
  · exact h
  · exact j

theorem Live.entriesStand.foldl {α : Type} {f : Live → α → Live} (h : ∀ (d : Live) a, d.entriesStand k (f d a))
    (l : List α) (d : Live) : d.entriesStand k (l.foldl f d) := by
  induction l generalizing d with
  | nil => exact .refl d
  | cons a l ih => exact (h d a).trans (ih _)

theorem Live.faultsStand.entries {d e : Live} (h : d.faultsStand e) : d.entriesStand k e :=
  fun n => fault_of_faults (h n) k

theorem Calm.entries {d e : Live} (h : Calm d e) : d.entriesStand k e := h.faultsStand.entries

theorem entriesStand_setControl (d : Live) (n : Nat) (f : Control → Control) (hf : ∀ c, (f c).num = c.num)
    (hk : ∀ c, (f c).fault? k = c.fault? k) : d.entriesStand k (d.setControl n f) := by
  intro m
  rw [d.control_setControl n m f hf]
  split
  · next h => rw [hk, h.1]
  · rfl

theorem entriesStand_raise {j : FaultKind} (h : k ≠ j) (n : Nat) (m : Option Nat) (d : Live) :
    d.entriesStand k (raise v n j m d) := by
  intro i
  unfold Control.fault?
  rw [raise_faults]
  split
  · next hi =>
    have hkind : (raisedEntry v.now j ((d.control n).fault? j)).kind = j :=
      raisedEntry_kind _ _ _ (fun _ => Control.fault?_kind)
    rw [insertFault_other _ _ k (by rw [hkind]; exact h), hi.1]
  · rfl

theorem entriesStand_endFault {j : FaultKind} (h : k ≠ j) (n : Nat) (d : Live) :
    d.entriesStand k (endFault v n j d) :=
  fun i => (endFault_faults v n j d i k).trans (if_neg (fun hi => h hi.2))

/-! ### Throws and releases -/

theorem throwing_entries (hk : k.apart) : Throwing v (Live.entriesStand k) where
  refl := .refl
  trans := .trans
  control d p f hf := entriesStand_setControl d p f
    (fun c => (congrArg Control.num (hf c) : (f c).unthrown.num = c.unthrown.num))
    (fun c => (congrArg (fun c : Control => c.fault? k) (hf c) :
      (f c).unthrown.fault? k = c.unthrown.fault? k))
  power _ _ _ := fun _ => rfl
  orders _ _ _ := fun _ => rfl
  ordered d p pos := (calm_report d _).entries
  first p d := fun n => (completionFirst_fault hk.2.1 d n).trans (entriesStand_endFault hk.1 p d n)
  ended p f d := by
    have hset : d.entriesStand k (d.setControl p (fun c => { c with flight := none })) :=
      entriesStand_setControl d p _ (fun _ => by rfl) (fun _ => rfl)
    have hlanded : d.entriesStand k (d.landed v p) := hset
    unfold endFlight
    dsimp only
    split
    · exact Live.entriesStand.ite (hlanded.trans (entriesStand_raise hk.2.2.1 p _ _)) hlanded
    · exact hlanded
  evaluated p d := (calm_evaluateElement v p d).entries
  reconsidered p d := fun n => fault_of_faults (reconsider_faults v p d n) k

theorem entriesStand_withdrawOrder (p : Nat) (d : Live) : d.entriesStand k (withdrawOrder v p d) := by
  unfold withdrawOrder
  split
  · exact Live.entriesStand.ite (calm_testPoint v p (d.dropOrder p)).entries (.refl d)
  · exact .refl d

theorem entriesStand_handOn (hk : k.apart) (r : Release) : r.live.entriesStand k (r.handOn v) := by
  have hpoints : r.live.entriesStand k (pointsReleased v r.points r.live) :=
    (Live.entriesStand.foldl (fun d p => entriesStand_withdrawOrder p d) _ _).trans
      (Live.entriesStand.foldl (fun d p => (throwing_entries hk).runArbiter (q := .later)
        (fun _ d => .refl d) (v.groupOf p) d) _ _)
  have hsignals : r.live.entriesStand k (r.signals.foldl (fun d n => computeAspect v n d)
      (pointsReleased v r.points r.live)) :=
    hpoints.trans (Live.entriesStand.foldl (fun d n => (calm_computeAspect v n d).entries) r.signals _)
  exact Live.entriesStand.ite hsignals hsignals

theorem entriesStand_removeLock (h : Holder) (n : Nat) (r : Release) :
    r.live.entriesStand k (r.removeLock v h n).live := by
  unfold Release.removeLock
  split
  · split
    · exact entriesStand_setControl r.live n _ (fun _ => by rfl) (fun _ => rfl)
    · exact .refl _
  · exact .refl _

theorem entriesStand_giveUp (q : Protector) (r : Release) : r.live.entriesStand k (r.giveUp q).live := by
  unfold Release.giveUp
  cases q with
  | point n pos =>
    have h : r.live.entriesStand k (r.live.setControl n (fun c => c.setCount pos ((r.live.control n).count pos - 1))) :=
      entriesStand_setControl r.live n _ (fun c => by cases pos <;> rfl) (fun c => by cases pos <;> rfl)
    dsimp only
    split
    · exact h
    · exact h
  | signal n =>
    have h : r.live.entriesStand k (r.live.setControl n (fun c => { c with holdCount := (r.live.control n).holdCount - 1 })) :=
      entriesStand_setControl r.live n _ (fun _ => by rfl) (fun _ => rfl)
    dsimp only
    split
    · exact h
    · exact h

theorem entriesStand_giveUpRecord (i j : Nat) (r : Release) :
    r.live.entriesStand k (r.giveUpRecord i j).live := by
  unfold Release.giveUpRecord
  split
  · dsimp only
    split
    · exact entriesStand_giveUp _ { r with live := r.live.setSlot i _ }
    · exact .refl _
  · exact .refl _

theorem entriesStand_removeLocks (h : Holder) (ns : List Nat) (r : Release) :
    r.live.entriesStand k (r.removeLocks v h ns).live := by
  unfold Release.removeLocks
  induction ns generalizing r with
  | nil => exact .refl _
  | cons n ns ih => exact (entriesStand_removeLock h n r).trans (ih _)

theorem entriesStand_giveUpRecords (i : Nat) (ks : List Nat) (r : Release) :
    r.live.entriesStand k (r.giveUpRecords i ks).live := by
  unfold Release.giveUpRecords
  induction ks generalizing r with
  | nil => exact .refl _
  | cons j ks ih => exact (entriesStand_giveUpRecord i j r).trans (ih _)

theorem entriesStand_wholeRelease (i : Nat) (r : Release) : r.live.entriesStand k (wholeRelease v i r).live := by
  have h : r.live.entriesStand k (match r.live.routeOf v i with
      | some rt => (r.removeLocks v (.slot i)
          ((ownPath rt (r.live.slot i) ++ ownOverlap rt (r.live.slot i)).map Entry.element)).giveUpRecords i
          (List.range (r.live.slot i).flank.length)
      | none => r).live := by
    split
    · exact (entriesStand_removeLocks _ _ r).trans (entriesStand_giveUpRecords i _ _)
    · exact .refl _
  exact h

end entries


/-! ### Slots in SETTING -/

/-- Every slot in SETTING stands. -/
def Live.settingStands (d e : Live) : Prop := ∀ i, (d.slot i).state = .setting → e.slot i = d.slot i

section settings

variable {v : Env}

theorem Live.settingStands.refl (d : Live) : d.settingStands d := fun _ _ => rfl

theorem Live.settingStands.trans {d e f : Live} (h : d.settingStands e) (j : e.settingStands f) :
    d.settingStands f :=
  fun i hi => (j i (by rw [h i hi]; exact hi)).trans (h i hi)

theorem Live.settingStands.ite {d e f : Live} {c : Prop} [Decidable c] (h : d.settingStands e)
    (j : d.settingStands f) : d.settingStands (if c then e else f) := by
  split
  · exact h
  · exact j

theorem Live.settingStands.eachSlot {f : Nat → Live → Live} (h : ∀ i (d : Live), d.settingStands (f i d))
    (d : Live) : d.settingStands (d.eachSlot f) :=
  eachSlot_preserves (P := fun e => d.settingStands e) (fun i e he => he.trans (h i e)) (.refl d)

theorem Live.settingStands.foldl {α : Type} {f : Live → α → Live} (h : ∀ (d : Live) a, d.settingStands (f d a))
    (l : List α) (d : Live) : d.settingStands (l.foldl f d) := by
  induction l generalizing d with
  | nil => exact .refl d
  | cons a l ih => exact (h d a).trans (ih _)

theorem settingStands_of_slots {d e : Live} (h : e.slots = d.slots) : d.settingStands e := by
  intro i _
  unfold Live.slot
  rw [h]

theorem Live.settingStands.eachSlot_of_slots {f : Nat → Live → Live} {d e : Live} (hs : e.slots = d.slots)
    (h : ∀ i (d : Live), d.settingStands (f i d)) : d.settingStands (e.eachSlot f) :=
  (settingStands_of_slots hs).trans (.eachSlot h e)

theorem settingStands_setSlot {d : Live} {i : Nat} (f : Slot → Slot) (h : (d.slot i).state ≠ .setting) :
    d.settingStands (d.setSlot i f) := by
  intro j hj
  refine setSlot_slot_ne ?_ f
  rintro rfl
  exact h hj

theorem settingStands_computeChain (k sig : Nat) (d : Live) : d.settingStands (computeChain v k sig d) := by
  induction k generalizing sig d with
  | zero => exact .refl d
  | succ k ih =>
    unfold computeChain
    dsimp only
    split
    · exact .refl d
    · refine Live.settingStands.eachSlot_of_slots rfl (fun i e => ?_)
      split
      · exact ih _ _
      · exact .refl e

theorem settingStands_evaluateBy {aspect : Nat → Live → Live} (ha : ∀ n (d : Live), d.settingStands (aspect n d))
    (i : Nat) (d : Live) : d.settingStands (evaluateBy aspect v i d) := by
  have hchange (f : Slot → Slot) (h : (d.slot i).state ≠ .setting) :
      d.settingStands (changeSlotBy aspect v i f d) := by
    unfold changeSlotBy
    dsimp only
    have hset : d.settingStands ((d.setSlot i f).report (slotReport (d.setSlot i f) i none)) :=
      settingStands_setSlot f h
    split
    · exact hset.trans (ha _ _)
    · exact hset
  unfold evaluateBy
  split
  · next h =>
    split
    · split
      · exact ha _ _
      · exact .refl d
    · exact hchange _ (by rw [h]; nofun)
  · next h => exact Live.settingStands.ite (hchange _ (by rw [h]; nofun)) (.refl d)
  · exact .refl d

theorem settingStands_computeTurns (k sig : Nat) (d : Live) : d.settingStands (computeTurns v k sig d) := by
  induction k generalizing sig d with
  | zero => exact settingStands_computeChain 50 sig d
  | succ k ih =>
    unfold computeTurns
    refine (settingStands_computeChain 50 sig d).trans (Live.settingStands.eachSlot (fun i e => ?_) _)
    exact Live.settingStands.ite (settingStands_evaluateBy (fun n x => ih n x) i e) (.refl e)

theorem settingStands_computeAspect (sig : Nat) (d : Live) : d.settingStands (computeAspect v sig d) :=
  settingStands_computeTurns 50 sig d

theorem settingStands_evaluate (i : Nat) (d : Live) : d.settingStands (evaluate v i d) :=
  settingStands_evaluateBy settingStands_computeAspect i d

theorem settingStands_evaluateElement (n : Nat) (d : Live) : d.settingStands (evaluateElement v n d) :=
  Live.settingStands.eachSlot (fun i e => .ite (settingStands_evaluate i e) (.refl e)) d

theorem settingStands_latch (src : Source) (g : Nat) (d : Live) : d.settingStands (latch v src g d) := by
  unfold latch
  refine Live.settingStands.ite ?_ (.refl d)
  refine Live.settingStands.trans ?_ (Live.settingStands.foldl (fun d e => ?_) _ _)
  · refine Live.settingStands.eachSlot_of_slots rfl (fun i e => ?_)
    split
    · exact Live.settingStands.ite (settingStands_evaluate i e) (.refl e)
    · exact .refl e
  · exact Live.settingStands.ite (settingStands_computeAspect _ d) (.refl d)

/-- A fault raised judges slots in CLEAR and HELD alone (R132, R141). -/
theorem settingStands_raise (n : Nat) (k : FaultKind) (m : Option Nat) (d : Live) :
    d.settingStands (raise v n k m d) := by
  let d2 := (d.setControl n (fun c => { c with
    faults := insertFault (raisedEntry v.now k ((d.control n).fault? k)) c.faults })).report
    (faultReport n (raisedEntry v.now k ((d.control n).fault? k)) (raisedEntry v.now k ((d.control n).fault? k)).state m)
  have hlatch (o : Option Nat) : d.settingStands (match o with | some g => latch v .fault g d2 | none => d2) := by
    have h2 : d.settingStands d2 := settingStands_of_slots rfl
    cases o with
    | none => exact h2
    | some g => exact h2.trans (settingStands_latch .fault g d2)
  unfold raise faultHandOn
  have hproved (e : Live) (h : d.settingStands e) :
      d.settingStands (if k.blocking then evaluateElement v n e else e) :=
    .ite (h.trans (settingStands_evaluateElement n e)) h
  have hrear (e : Live) : e.settingStands (computeRear v n e) := by
    refine Live.settingStands.eachSlot (fun i e => ?_) e
    split
    · exact settingStands_computeAspect _ e
    · exact .refl e
  have h := hproved _ (hlatch (pulsed v n k (!(match (d.control n).fault? k with | some x => x.active | none => false))))
  exact .ite (h.trans (hrear _)) h

end settings

/-! ### A slot given up, at its exit boundary -/

/-- A slot given up changes no boundary and no link but by what the Handover Controller does when it is told. -/
theorem giveUpSlot_handover {v : Env} {i : Nat} {rt : RouteDef} {d : Live} (h : d.routeOf v i = some rt)
    (re : Option Reason) (quiet : Bool) :
    (giveUpSlot v i re quiet d).links = (releaseExit v i quiet d).links
      ∧ (giveUpSlot v i re quiet d).boundaries = (releaseExit v i quiet d).boundaries
      ∧ ∀ k : FaultKind, k.apart → (releaseExit v i quiet d).entriesStand k (giveUpSlot v i re quiet d) := by
  unfold giveUpSlot
  simp only [h]
  have told := told_releaseExit v i quiet d
  generalize releaseExit v i quiet d = d1 at told
  have hactive := routeOf_active h
  have hroute : d1.routeOf v i = some rt := by
    rw [← h]
    exact routeOf_eq (told_fields (told.slot i)).1 (by rw [hactive, told_active (told.slot i) hactive])
  obtain ⟨same, -, -, -⟩ := wholeRelease_all v i d1 rt hroute (active_lt (routeOf_active hroute))
  have hmoved := moved_handOn v (wholeRelease v i (Release.start d1))
  refine ⟨hmoved.links.trans same.links, hmoved.boundaries.trans same.boundaries, fun k hk => ?_⟩
  have h1 : d1.entriesStand k (wholeRelease v i (Release.start d1)).live := entriesStand_wholeRelease i _
  have h2 := entriesStand_handOn (v := v) hk (wholeRelease v i (Release.start d1))
  exact h1.trans (h2.trans (calm_report _ (freeReport rt i re)).entries)

end Sys2Proof.Machine
end

section
/-! PROOF. A DIR_REQUEST that meets an own request, and the direction frames that are discarded (R159 to R161). -/

namespace Sys2Proof.Machine

open Sys2Proof

/-! ### Frames that change nothing but their link -/

theorem frameTaken_eq {v : Env} {l : Nat} {f : NFrame} {fs : List NFrame} {d : Live} (hrx : (d.link l).rx = f :: fs) :
    frameTaken v l d = d.setLink l (fun y =>
      { y with rx := fs, silence := some (after v.now v.timing.linkTimeout) }) := by
  refine (Live.setLink_setLink d l _ _).trans (Live.setLink_congr ?_)
  rw [hrx]
  rfl

/-- An event that changes nothing that a boundary report or a hand-on reads. -/
theorem boundaryEvent_of_unseen {v : Env} {b : Nat} {r : Option Nat} {f : Live → Live} {d m : Live} {w : Bool}
    (hf : f d = m) (hb : m.boundary b = { d.boundary b with waiting := w }) : boundaryEvent v b r f d = m := by
  have hreport : reportChange b (d.boundary b) r m = m := by
    unfold reportChange
    rw [hb, if_neg (by simp [Boundary.differs])]
  unfold boundaryEvent
  dsimp only
  rw [hf, hreport]
  exact handOn_unmoved v b _ m (by rw [hb]) (by rw [hb]) (by rw [hb])

section frames

variable {v : Env} {bd : BoundaryDef} {d : Live} (hbd : v.boundary? bd.number = some bd)
  (hu : (d.link bd.link).state = .up) (hl : bd.link < d.links.length) (hb : d.hasBoundary bd.number)

theorem link_send (hl : bd.link < d.links.length) (f : NFrame) :
    (d.setLink bd.link (fun k => { k with tx := k.tx ++ [f] })).link bd.link = (d.link bd.link).send f :=
  d.link_setLink_self hl _

include hbd hu

/-- A RESTRICTED boundary answers with a refusal. -/
theorem applyDirRequest_of_restricted (ht : (d.link bd.link).tx.length < 16) (q : Seniority)
    (hr : (d.boundary bd.number).restricted = true) :
    applyDirRequest v bd.number q d
      = d.setLink bd.link (fun k => { k with tx := k.tx ++ [.dirRefuse bd.linkNumber] }) := by
  unfold applyDirRequest
  rw [if_pos hr]
  exact boundaryEvent_of_same (sendFrom_eq hbd _ d hu ht) rfl

/-- The SENIOR end keeps its request, and refuses. -/
theorem refuse_of_kept (hb : d.hasBoundary bd.number) (ht : (d.link bd.link).tx.length < 16)
    (h : (d.boundary bd.number).direction ≠ .outward ∨ boundaryBusy d bd.number = true) :
    boundaryEvent v bd.number none (refuseDirection v bd.number) d
      = (d.setBoundary bd.number (fun x => { x with waiting := true })).setLink bd.link
          (fun k => { k with tx := k.tx ++ [.dirRefuse bd.linkNumber] }) := by
  refine boundaryEvent_of_unseen (w := true) ((refuseDirection_of_kept hbd hb hu ht h).trans
    (sendFrom_eq hbd .dirRefuse (d.setBoundary bd.number (fun x => { x with waiting := true })) hu ht)) ?_
  exact d.boundary_setBoundary_self hb (fun x => { x with waiting := true }) (fun _ => rfl)

/-- The SENIOR end's refusal, with the offer that may follow it. -/
theorem loc_refuseDirection (hl : bd.link < d.links.length) (ht : (d.link bd.link).tx.length < 15) :
    Local bd.link bd.number d (boundaryEvent v bd.number none (refuseDirection v bd.number) d) := by
  let d1 := d.setBoundary bd.number (fun x => { x with waiting := true })
  have h1 : Local bd.link bd.number d d1 := loc_setBoundary d _ _ _ (fun _ => rfl)
  have hsend : sendFrom v bd.number .dirRefuse d1 = _ := sendFrom_eq hbd .dirRefuse d1 hu (by
    show (d.link bd.link).tx.length < 16
    omega)
  have hlink : (sendFrom v bd.number .dirRefuse d1).link bd.link
      = (d.link bd.link).send (.dirRefuse bd.linkNumber) := by
    rw [hsend]
    exact link_send (d := d1) hl _
  have h2 := h1.trans (loc_sendFrom hbd .dirRefuse d1 hu (by
    show (d.link bd.link).tx.length < 16
    omega))
  have h3 := h2.trans (loc_tryOffer hbd _ (by rw [hlink]; exact hu) (by
    rw [hlink]
    simp only [Link.send, List.length_append, List.length_singleton]
    omega))
  exact h3.trans (quiet_boundaryEvent v bd.number none (refuseDirection v bd.number) d).loc

/-! ### The JUNIOR end -/

theorem grant_of_junior (hl : bd.link < d.links.length) (hb : d.hasBoundary bd.number)
    (ht : (d.link bd.link).tx.length < 16) :
    let e := boundaryEvent v bd.number (some Reason.boundaryUnavailable.code) (fun d =>
      sendFrom v bd.number .dirGrant (setDirection bd.number .inward
        (d.setBoundary bd.number (fun x => { x with reqExpiry := none })))) d
    Local bd.link bd.number d e
      ∧ e.boundary bd.number = { d.boundary bd.number with direction := .inward, reqExpiry := none }
      ∧ (e.link bd.link).tx = (d.link bd.link).tx ++ [.dirGrant bd.linkNumber]
      ∧ (∀ i, (e.slot i).dirNeed = (d.slot i).dirNeed ∧ (e.slot i).accNeed = (d.slot i).accNeed)
      ∧ ((d.boundary bd.number).direction ≠ .inward → (d.boundary bd.number).restricted = false →
        d.made (.boundaryState bd.number .inward (d.boundary bd.number).acceptance
          (d.boundary bd.number).berthLocked false (some Reason.boundaryUnavailable.code)) e) := by
  intro e
  let d1 := d.setBoundary bd.number (fun x => { x with reqExpiry := none })
  let m := setDirection bd.number .inward d1
  have hb1 : d1.hasBoundary bd.number := by
    unfold Live.hasBoundary
    rw [d.setBoundary_nums _ _ (fun _ => by rfl)]
    exact hb
  have h1 : Local bd.link bd.number d d1 := loc_setBoundary d _ _ _ (fun _ => rfl)
  have hm : m.boundary bd.number = { d.boundary bd.number with direction := .inward, reqExpiry := none } := by
    rw [boundary_setDirection _ _ _ hb1, d.boundary_setBoundary_self hb _ (fun _ => by rfl)]
  obtain ⟨hloc, hself, htx⟩ := boundaryEvent_of_send hbd (reason := some Reason.boundaryUnavailable.code)
    (f := fun d => sendFrom v bd.number .dirGrant (setDirection bd.number .inward
        (d.setBoundary bd.number (fun x => { x with reqExpiry := none })))) (d := d) (m := m) rfl
    (h1.trans (loc_setDirection _ _ _ _)) (links_setDirection _ _ _) hu ht hl
  have hsent : sendFrom v bd.number .dirGrant m = _ := sendFrom_eq hbd .dirGrant m
    (by rw [Live.link_congr (links_setDirection _ _ _)]; exact hu)
    (by rw [Live.link_congr (links_setDirection _ _ _)]; exact ht)
  have hslots : (sendFrom v bd.number .dirGrant m).slots = d.slots := by rw [hsent]; rfl
  refine ⟨hloc, hself.trans hm, htx, fun i => ?_, fun hdir hres => ?_⟩
  · have hq : Quiet (sendFrom v bd.number .dirGrant m) e := quiet_event rfl
    have hcore := (hq.slot i).core
    have hslot : (sendFrom v bd.number .dirGrant m).slot i = d.slot i := by unfold Live.slot; rw [hslots]
    rw [hslot] at hcore
    have hdir : (e.slot i).core.dirNeed = (d.slot i).core.dirNeed := congrArg Slot.dirNeed hcore
    have hacc : (e.slot i).core.accNeed = (d.slot i).core.accNeed := congrArg Slot.accNeed hcore
    exact ⟨hdir, hacc⟩
  · have hb2 : (sendFrom v bd.number .dirGrant m).boundary bd.number = m.boundary bd.number := by
      rw [hsent]; rfl
    let r := boundaryReport (sendFrom v bd.number .dirGrant m) bd.number (some Reason.boundaryUnavailable.code)
    have hr : r = .boundaryState bd.number .inward (d.boundary bd.number).acceptance
        (d.boundary bd.number).berthLocked false (some Reason.boundaryUnavailable.code) := by
      show boundaryReport _ _ _ = _
      unfold boundaryReport
      rw [hb2, hm]
      simp only [hres]
    have hreport : reportChange bd.number (d.boundary bd.number) (some Reason.boundaryUnavailable.code)
        (sendFrom v bd.number .dirGrant m) = (sendFrom v bd.number .dirGrant m).report r := by
      refine if_pos ?_
      rw [hb2, hm]
      simp [Boundary.differs, hdir]
    have hmade := made_report (sendFrom v bd.number .dirGrant m) r
    rw [← hreport, hr] at hmade
    refine (hmade.mono (quiet_handOnBoundary v bd.number (d.boundary bd.number) _).appended).of_same (fun k => ?_)
    rw [hsent]
    rfl

/-! ### Equal ends (R160, R71) -/

/-- The exit slot leaves its boundary, which stands but for its acceptance and its request. -/
theorem dropExit_of_not_outward (hb : d.hasBoundary bd.number)
    (ht : (d.link bd.link).tx.length < 16) (hdir : (d.boundary bd.number).direction ≠ .outward) :
    Local bd.link bd.number d (dropExit v bd.number d)
      ∧ ∃ acc t w, (dropExit v bd.number d).boundary bd.number = { d.boundary bd.number with
          exitSlot := none, exitEntered := false, reqExpiry := none, acceptance := acc, accExpiry := t
          awaiting := w } := by
  let d1 := d.setBoundary bd.number (fun x =>
    { x with exitSlot := none, exitEntered := false, reqExpiry := none })
  have h1 : Local bd.link bd.number d d1 := loc_setBoundary d _ _ _ (fun _ => rfl)
  have hself : d1.boundary bd.number = _ := d.boundary_setBoundary_self hb _ (fun _ => rfl)
  have hb1 : d1.hasBoundary bd.number := by unfold Live.hasBoundary; rw [h1.bnums]; exact hb
  let d2 := if (d.boundary bd.number).acceptance = .none then d1
    else if (d.boundary bd.number).acceptance = .held && (d.boundary bd.number).exitEntered then
      d1.setBoundary bd.number (fun x => { x with awaiting := true })
    else sendFrom v bd.number .acceptCancel (setAcceptance bd.number .none none d1)
  have h2 : Local bd.link bd.number d d2 ∧ ∃ acc t w, d2.boundary bd.number = { d.boundary bd.number with
      exitSlot := none, exitEntered := false, reqExpiry := none, acceptance := acc, accExpiry := t
      awaiting := w } := by
    by_cases ha : (d.boundary bd.number).acceptance = .none
    · rw [show d2 = d1 from if_pos ha]
      exact ⟨h1, _, _, _, hself⟩
    by_cases he : ((d.boundary bd.number).acceptance = .held && (d.boundary bd.number).exitEntered) = true
    · rw [show d2 = _ from (if_neg ha).trans (if_pos he)]
      refine ⟨h1.trans (loc_setBoundary d1 _ _ (fun x => { x with awaiting := true }) (fun _ => rfl)),
        (d.boundary bd.number).acceptance, (d.boundary bd.number).accExpiry, true, ?_⟩
      rw [d1.boundary_setBoundary_self hb1 (fun x => { x with awaiting := true }) (fun _ => rfl), hself]
    · rw [show d2 = _ from (if_neg ha).trans (if_neg he)]
      have hlinks := links_setAcceptance bd.number .none none d1
      have hus : ((setAcceptance bd.number .none none d1).link bd.link).state = .up := by
        rw [Live.link_congr hlinks]; exact hu
      have hts : ((setAcceptance bd.number .none none d1).link bd.link).tx.length < 16 := by
        rw [Live.link_congr hlinks]; exact ht
      refine ⟨(h1.trans (loc_setAcceptance _ _ .none none d1)).trans (loc_sendFrom hbd _ _ hus hts), .none, none,
        false, ?_⟩
      rw [boundary_sendFrom hbd _ _ hus hts, boundary_setAcceptance bd.number .none none d1 hb1, hself]
      rfl
  obtain ⟨hloc, acc, t, w, hd2⟩ := h2
  have hdrop : dropExit v bd.number d = d2 := tryOffer_of_kept (d := d2) (Or.inl (by rw [hd2]; exact hdir))
  rw [hdrop]
  exact ⟨hloc, acc, t, w, hd2⟩

/-- What a boundary event that fails the exit slot leaves, at a boundary that is not OUTWARD. -/
structure ExitFailed (l b : Nat) (d e : Live) : Prop where
  rx : (e.link l).rx = (d.link l).rx
  tx : (d.link l).tx <+: (e.link l).tx
  bounds : ∀ k, k ≠ b → e.boundary k = d.boundary k
  ports : d.portsStand e
  stored : e.stored = d.stored
  restricted : (e.boundary b).restricted = (d.boundary b).restricted
  direction : (e.boundary b).direction = (d.boundary b).direction
  reqExpiry : (d.boundary b).reqExpiry = none → (e.boundary b).reqExpiry = none
  consExpiry : (e.boundary b).consExpiry = (d.boundary b).consExpiry
  berthLocked : (e.boundary b).berthLocked = (d.boundary b).berthLocked
  entries : d.entriesStand .contest e

theorem exitFailed_failSetting (hb : d.hasBoundary bd.number)
    (ht : (d.link bd.link).tx.length < 16) (hdir : (d.boundary bd.number).direction ≠ .outward) (re : Reason)
    {i y : Nat} {rt : RouteDef} (hrt : d.routeOf v i = some rt) (hx : rt.exit = .boundary y bd.number)
    (hexit : (d.boundary bd.number).exitSlot = some i) (hs : (d.slot i).state = .setting) (hst : d.stored = []) :
    ExitFailed bd.link bd.number d (failSetting v i re d) := by
  have hgave := gaveUp_failSetting (re := re) hrt hs hst
  obtain ⟨hlinks, hbounds, hentries⟩ := giveUpSlot_handover hrt (some re) false
  obtain ⟨hloc, acc, t, w, hself⟩ := dropExit_of_not_outward hbd hu hb ht hdir
  have hrelease : releaseExit v i false d = boundaryEvent v bd.number none (dropExit v bd.number) d := by
    unfold releaseExit
    rw [hrt]
    simp only [hx, hexit, if_true, Bool.false_eq_true, if_false]
  have hq := quiet_boundaryEvent v bd.number none (dropExit v bd.number) d
  rw [← hrelease] at hq
  have hloc2 : Local bd.link bd.number d (releaseExit v i false d) := hloc.trans hq.loc
  have hboundary := (hq.boundary bd.number).trans hself
  have hgiven : (giveUpSlot v i (some re) false d).stored = [] :=
    (giveUpSlot_all v i (some re) false d rt hrt).stored.trans hst
  have hfail : failSetting v i re d
      = computeAspect v rt.entry ((giveUpSlot v i (some re) false d).setReeval false) := by
    unfold failSetting settingRelease
    rw [if_pos hs, serve_of_no_stored _ _ hgiven]
    simp only [hrt]
  have hcalm := calm_computeAspect v rt.entry ((giveUpSlot v i (some re) false d).setReeval false)
  rw [← hfail] at hcalm
  have hlinks2 : (failSetting v i re d).links = (releaseExit v i false d).links := hcalm.links.trans hlinks
  have hbounds2 : (failSetting v i re d).boundaries = (releaseExit v i false d).boundaries :=
    hcalm.boundaries.trans hbounds
  have hb2 : (failSetting v i re d).boundary bd.number = _ := (Live.boundary_congr hbounds2 _).trans hboundary
  have hlink : (failSetting v i re d).link bd.link = _ := Live.link_congr hlinks2 _
  refine ⟨by rw [hlink]; exact hloc2.rx, by rw [hlink]; exact hloc2.tx,
    fun k hk => (Live.boundary_congr hbounds2 k).trans (hloc2.bounds k hk), hgave.ports, hgave.stored,
    by rw [hb2], by rw [hb2], fun _ => by rw [hb2], by rw [hb2], by rw [hb2], ?_⟩
  have h1 : d.entriesStand .contest (releaseExit v i false d) := hloc2.frames.2.2.entries
  exact (h1.trans (hentries .contest ⟨nofun, nofun, nofun, nofun⟩)).trans hcalm.entries

/-- What a contest between equal ends leaves. -/
structure Contested (now : Time) (l b n el : Nat) (d e : Live) : Prop where
  rx : (e.link l).rx = (d.link l).rx
  tx : (d.link l).tx ++ [.dirRefuse n] <+: (e.link l).tx
  bounds : ∀ k, k ≠ b → e.boundary k = d.boundary k
  ports : d.portsStand e
  stored : e.stored = d.stored
  restricted : (e.boundary b).restricted = true
  direction : (e.boundary b).direction = .neutral
  reqExpiry : (e.boundary b).reqExpiry = none
  consExpiry : (e.boundary b).consExpiry = none
  berthLocked : (e.boundary b).berthLocked = (d.boundary b).berthLocked
  raised : e.raised el .contest now

omit hbd hu in
theorem ExitFailed.refl (l b : Nat) (d : Live) : ExitFailed l b d d :=
  ⟨rfl, List.prefix_rfl, fun _ _ => rfl, (Local.refl l b d).ports, rfl, rfl, rfl, id, rfl, rfl, .refl d⟩

omit hbd hu in
theorem Contested.failed {now : Time} {l b n el : Nat} {d e f : Live} (h : Contested now l b n el d e)
    (k : ExitFailed l b e f) : Contested now l b n el d f :=
  ⟨k.rx.trans h.rx, h.tx.trans k.tx, fun j hj => (k.bounds j hj).trans (h.bounds j hj),
    portsStand_trans h.ports k.ports, k.stored.trans h.stored, k.restricted.trans h.restricted,
    k.direction.trans h.direction, k.reqExpiry h.reqExpiry, k.consExpiry.trans h.consExpiry,
    k.berthLocked.trans h.berthLocked, by
      obtain ⟨f, hf, hrest⟩ := h.raised
      exact ⟨f, (k.entries el).trans hf, hrest⟩⟩

omit hbd hu in
theorem Contested.setReeval {now : Time} {l b n el : Nat} {d e : Live} (h : Contested now l b n el d e) (r : Bool) :
    Contested now l b n el d (e.setReeval r) :=
  ⟨h.rx, h.tx, h.bounds, h.ports, h.stored, h.restricted, h.direction, h.reqExpiry, h.consExpiry, h.berthLocked,
    h.raised⟩

omit hbd hu in
theorem slot_setReeval (d : Live) (r : Bool) (i : Nat) : (d.setReeval r).slot i = d.slot i := rfl

omit hbd hu in
theorem Quiet.exitFailed {l b : Nat} {d e : Live} (h : Quiet d e) : ExitFailed l b d e := by
  have hloc : Local l b d e := h.loc
  have hself := h.boundary b
  exact ⟨hloc.rx, hloc.tx, hloc.bounds, hloc.ports, hloc.stored, by rw [hself], by rw [hself],
    by rw [hself]; exact id, by rw [hself], by rw [hself], hloc.frames.2.2.entries⟩

theorem contested_contestEqual (hl : bd.link < d.links.length) (hb : d.hasBoundary bd.number)
    (ht : (d.link bd.link).tx.length < 15) (hc : d.hasControl bd.element) (hst : d.stored = [])
    (htied : ∀ i, (d.boundary bd.number).exitSlot = some i →
      ∃ rt y, d.routeOf v i = some rt ∧ rt.exit = .boundary y bd.number) :
    Contested v.now bd.link bd.number bd.linkNumber bd.element d (contestEqual v bd.number d)
      ∧ ∀ i, (d.boundary bd.number).exitSlot = some i → (d.slot i).state = .setting →
        (contestEqual v bd.number d).slot i = Slot.free := by
  let g : Boundary → Boundary := fun x =>
    { x with restricted := true, direction := .neutral, reqExpiry := none, consExpiry := none }
  let d1 := d.setBoundary bd.number g
  let d2 := sendFrom v bd.number .dirRefuse d1
  let d3 := raise v bd.element .contest none d2
  let d4 := reportChange bd.number (d.boundary bd.number) (some Reason.boundaryUnavailable.code) d3
  have hd2 : d2 = d1.setLink bd.link (fun k => { k with tx := k.tx ++ [.dirRefuse bd.linkNumber] }) :=
    sendFrom_eq hbd .dirRefuse d1 hu (by
      show (d.link bd.link).tx.length < 16
      omega)
  have hw : Watched d2 d4 := (watched_raise v bd.element .contest none d2).thenCalm
    (Calm.ite (calm_report _ _) (Calm.refl _))
  have hset : d2.settingStands d4 := (settingStands_raise bd.element .contest none d2).trans
    (.ite (settingStands_of_slots rfl) (.refl _))
  have hc2 : d2.hasControl bd.element := by rw [hd2]; exact hc
  have hcalm34 : Calm d3 d4 := .ite (calm_report _ _) (.refl _)
  have hraised : d4.raised bd.element .contest v.now :=
    raised_of_faults (raise_raised v bd.element .contest none d2 hc2 rfl) (hcalm34.faultsStand bd.element)
  have hlink4 : d4.link bd.link = (d.link bd.link).send (.dirRefuse bd.linkNumber) := by
    rw [Live.link_congr hw.links, hd2]
    exact link_send (d := d1) hl _
  have hself4 : d4.boundary bd.number = g (d.boundary bd.number) := by
    rw [Live.boundary_congr hw.boundaries, hd2]
    exact d.boundary_setBoundary_self hb g (fun _ => rfl)
  have hbounds4 (k : Nat) (hk : k ≠ bd.number) : d4.boundary k = d.boundary k := by
    rw [Live.boundary_congr hw.boundaries, hd2]
    exact d.boundary_setBoundary_ne hk g (fun _ => rfl)
  have hports4 : d.portsStand d4 := portsStand_trans (e := d2) (by rw [hd2]; exact (Local.refl 0 0 d).ports)
    hw.portsStand
  have hslot2 (i : Nat) : d2.slot i = d.slot i := by rw [hd2]; rfl
  have hstart : Contested v.now bd.link bd.number bd.linkNumber bd.element d d4 :=
    ⟨by rw [hlink4]; rfl, by rw [hlink4]; exact List.prefix_rfl, hbounds4, hports4,
      hw.stored.trans (by rw [hd2]; rfl), by rw [hself4], by rw [hself4], by rw [hself4], by rw [hself4],
      by rw [hself4], hraised⟩
  let d5 := match (d4.boundary bd.number).exitSlot with
    | some i => failSetting v i .boundaryUnavailable d4
    | none => d4
  have heq : contestEqual v bd.number d = (evaluateExit v bd.number d5).setReeval true := by
    unfold contestEqual
    simp only [hbd]
    rfl
  have hcalm := calm_evaluateExit v bd.number d5
  have hend : Quiet d5 (contestEqual v bd.number d) := heq ▸ hcalm.quiet.trans (quiet_setReeval _ true)
  have hexit4 : (d4.boundary bd.number).exitSlot = (d.boundary bd.number).exitSlot := by rw [hself4]
  have hdecide : ExitFailed bd.link bd.number d4 d5 ∧ ∀ i, (d.boundary bd.number).exitSlot = some i →
      (d.slot i).state = .setting → d5.slot i = Slot.free := by
    cases hx : (d.boundary bd.number).exitSlot with
    | none =>
      have hd5 : d5 = d4 := by
        show (match (d4.boundary bd.number).exitSlot with | some i => _ | none => d4) = d4
        rw [hexit4, hx]
      rw [hd5]
      exact ⟨.refl _ _ d4, nofun⟩
    | some i =>
      have hd5 : d5 = failSetting v i .boundaryUnavailable d4 := by
        show (match (d4.boundary bd.number).exitSlot with
          | some i => failSetting v i .boundaryUnavailable d4 | none => d4) = _
        rw [hexit4, hx]
      rw [hd5]
      by_cases hs : (d.slot i).state = .setting
      · have hslot4 : d4.slot i = d.slot i := (hset i (by rw [hslot2]; exact hs)).trans (hslot2 i)
        obtain ⟨rt, y, hrt, hxr⟩ := htied i hx
        have hrt4 : d4.routeOf v i = some rt :=
          (routeOf_eq (by rw [hslot4]) (by rw [hslot4])).trans hrt
        have hst4 : d4.stored = [] := hstart.stored.trans hst
        refine ⟨exitFailed_failSetting hbd (by rw [hlink4]; exact hu) ?_ ?_ ?_ .boundaryUnavailable hrt4 hxr
          (hexit4.trans hx) (by rw [hslot4]; exact hs) hst4, fun j hj _ => ?_⟩
        · unfold Live.hasBoundary
          rw [hw.boundaries, hd2]
          exact (d.setBoundary_nums bd.number g (fun _ => rfl)) ▸ hb
        · rw [hlink4]
          simp only [Link.send, List.length_append, List.length_singleton]
          omega
        · rw [hself4]; nofun
        · obtain rfl : i = j := Option.some.inj hj
          exact (gaveUp_failSetting hrt4 (by rw [hslot4]; exact hs) hst4).free
      · have hs4 : (d4.slot i).state ≠ .setting := fun h =>
          hs (by rw [← hslot2 i, ← (hw.slot i).set h]; exact h)
        rw [failSetting_not v i _ d4 hs4]
        exact ⟨.refl _ _ d4, fun j hj h => by
          obtain rfl : i = j := Option.some.inj hj
          exact absurd h hs⟩
  obtain ⟨hfailed, hfree⟩ := hdecide
  refine ⟨(hstart.failed hfailed).failed hend.exitFailed, fun i hi hs => ?_⟩
  have hstill : (contestEqual v bd.number d).slot i = d5.slot i :=
    (hend.slot i).still (by rw [hfree i hi hs]; rfl)
  rw [hstill, hfree i hi hs]

end frames

/-! ### The frames taken from the head of a receive queue -/

/-- The contests of R160 by the two ends' seniority. -/
theorem contest_eq {v : Env} {bd : BoundaryDef} (hbd : v.boundary? bd.number = some bd) (q : Seniority) (d : Live) :
    contest v bd.number q d = match bd.seniority, q with
      | .senior, .junior => boundaryEvent v bd.number none (refuseDirection v bd.number) d
      | .junior, .senior => boundaryEvent v bd.number (some Reason.boundaryUnavailable.code) (fun d =>
          sendFrom v bd.number .dirGrant (setDirection bd.number .inward
            (d.setBoundary bd.number (fun x => { x with reqExpiry := none })))) d
      | _, _ => contestEqual v bd.number d := by
  unfold contest
  simp only [hbd]
  rfl

/-- A DIR_REQUEST that meets an own request outstanding is a contest. -/
theorem applyDirRequest_of_outstanding {v : Env} {b : Nat} {d : Live} (q : Seniority)
    (hr : (d.boundary b).restricted = false) (hq : (d.boundary b).reqExpiry ≠ none) :
    applyDirRequest v b q d = contest v b q d := by
  unfold applyDirRequest
  dsimp only
  rw [if_neg (by simp [hr]), if_pos (Option.isSome_iff_ne_none.mpr hq)]

/-- DIR_GRANT and DIR_OFFER for a boundary that is RESTRICTED or whose berth is LOCKED are discarded. -/
theorem directionFree_eq_false {d : Live} {b : Nat}
    (h : (d.boundary b).restricted = true ∨ (d.boundary b).berthLocked = true) : directionFree d b = false := by
  unfold directionFree
  rcases h with h | h <;> simp [h]

/-- Settles O55: the contest by its three outcomes; a RESTRICTED boundary and a discarded frame change their link
alone. -/
theorem contestsAndDiscardedDirectionFrames : Obligations.ContestsAndDiscardedDirectionFrames := by
  intro l n q f fs bd x s hu ht hst hreeval hl hn hbd hb hc hrx hx
  obtain ⟨rfl, rfl⟩ := named_spec hn
  subst hx
  let d := frameTaken s.env bd.link s.live
  have hlink : d.link bd.link = _ := frameTaken_link hl hrx
  have hud : (d.link bd.link).state = .up := by rw [hlink]; exact hu
  have htd : (d.link bd.link).tx = (s.live.link bd.link).tx := by rw [hlink]
  have htd15 : (d.link bd.link).tx.length < 15 := by rw [htd]; exact ht
  have hld : bd.link < d.links.length := by simpa [d, frameTaken, restartSilence, popFrame] using hl
  have hasked : d.reeval = false := hreeval
  refine ⟨?_, ?_, ?_⟩
  · rintro rfl hr hq htied
    have hexec := exec_of_frame (c := .dirRequest bd.link) rfl hrx rfl hu hn
    rw [applyDirRequest_of_outstanding (d := d) q hr hq, contest_eq hbd] at hexec
    cases hs : bd.seniority <;> cases q
    case senior.junior =>
      simp only [hs] at hexec
      have took := (loc_refuseDirection hbd hud hld htd15).tookFrame hl hrx
      rw [serve_of_no_stored _ _ (took.stored.trans hst)] at hexec
      refine ⟨_, hexec, rfl, rfl, took.rx, took.bounds, took.ports, took.stored.trans hst, fun _ _ hkept => ?_,
        nofun, nofun⟩
      have heq := refuse_of_kept hbd hud (d := d) hb (by omega) hkept
      refine ⟨?_, ?_, took.claims, ?_⟩
      · rw [heq]
        exact d.boundary_setBoundary_self hb (fun x => { x with waiting := true }) (fun _ => rfl)
      · rw [heq, ← htd]
        exact congrArg Link.tx (link_send (d := d.setBoundary bd.number _) hld _)
      · rw [heq]
        rfl
    case junior.senior =>
      simp only [hs] at hexec
      obtain ⟨hloc, hself, htx, hneeds, hmade⟩ := grant_of_junior hbd hud hld hb (by omega)
      have took := hloc.tookFrame hl hrx
      rw [serve_of_no_stored _ _ (took.stored.trans hst)] at hexec
      exact ⟨_, hexec, rfl, rfl, took.rx, took.bounds, took.ports, took.stored.trans hst,
        nofun, fun _ _ => ⟨hself, htx.trans (by rw [htd]), hneeds, fun hdir => hmade hdir hr, took.claims⟩, nofun⟩
    case senior.senior | junior.junior =>
      simp only [hs] at hexec
      obtain ⟨hend, hfree⟩ := contested_contestEqual hbd hud hld hb htd15 hc hst (htied hs bd.number)
      have he := hend.setReeval false
      rw [serve_of_no_stored _ _ (hend.stored.trans hst)] at hexec
      exact ⟨_, hexec, rfl, rfl, he.rx.trans (by rw [hlink]), he.bounds, he.ports, he.stored.trans hst,
        fun h h' => absurd (h.symm.trans h') nofun, fun h h' => absurd (h.symm.trans h') nofun, fun _ => ⟨he.restricted, he.direction, he.reqExpiry, he.consExpiry, he.berthLocked,
          by rw [← htd]; exact he.tx, he.raised, fun i _ hi hset _ => (slot_setReeval _ _ i).trans (hfree i hi hset)⟩⟩
  · rintro rfl hr
    have hexec := exec_of_frame (c := .dirRequest bd.link) rfl hrx rfl hu hn
    rw [applyDirRequest_of_restricted (d := d) hbd hud (by omega) q hr,
      serve_of_not_asked s.env (d.setLink bd.link _) hasked] at hexec
    have hself := link_send (bd := bd) hld (.dirRefuse bd.linkNumber)
    refine ⟨_, hexec, rfl, rfl, ?_, ?_, fun _ => rfl, rfl, fun _ => rfl⟩
    · rw [hself]; exact congrArg Link.rx hlink
    · rw [hself, ← htd]; rfl
  · rintro c (⟨rfl, rfl, hkept⟩ | ⟨rfl, rfl, hkept⟩)
    · have hexec := exec_of_frame (c := .dirGrant bd.link) rfl hrx rfl hu hn
      have hignored : applyDirGrant s.env bd.number d = d := if_neg (by
        rcases hkept with h | h
        · rw [show (d.boundary bd.number).reqExpiry = none from h]; simp
        · rw [directionFree_eq_false (d := d) h]; simp)
      rw [hignored, serve_of_not_asked s.env d hasked] at hexec
      rw [hexec, show d = _ from frameTaken_eq hrx]
    · have hexec := exec_of_frame (c := .dirOffer bd.link) rfl hrx rfl hu hn
      have hignored : applyDirOffer s.env bd.number d = d := if_neg (by
        rw [directionFree_eq_false (d := d) hkept]; simp)
      rw [hignored, serve_of_not_asked s.env d hasked] at hexec
      rw [hexec, show d = _ from frameTaken_eq hrx]


end Sys2Proof.Machine
end

section
/-! PROOF. The release behind a train and the end of its passage (R115, R116, R118, R120). -/

namespace Sys2Proof.Machine

open Sys2Proof

/-! ### A section change at the one slot that has the section -/

theorem SlotTold.active_eq {s t : Slot} (h : SlotTold s t) : t.active = s.active := by
  cases ha : s.active with
  | true => exact told_active h ha
  | false =>
    have hfree : s.state = .free := by simpa [Slot.active] using ha
    have hstate := h.still (by unfold Slot.needsExit; rw [hfree]; rfl)
    unfold Slot.active
    rw [hstate, hfree]
    rfl

theorem noneAt_of_told {v : Env} {n j : Nat} {d e : Live} (h : d.noneAt v n j)
    (ht : SlotTold (d.slot j) (e.slot j)) : e.noneAt v n j := by
  obtain ⟨hroute, -, -, hflank, -⟩ := told_fields ht
  unfold Live.noneAt protectors
  rw [routeOf_eq (v := v) hroute ht.active_eq, hflank]
  exact h

/-- Only the slot that has the section does anything at its change. -/
theorem eachSlot_sectionAtSlot_of_only {v : Env} {n i : Nat} {d : Live} {occ movement : Bool}
    (h : d.onlyAt v n i) (hi : i < d.slots.length)
    (ht : ∀ j, j ≠ i → SlotTold (d.slot j) ((sectionAtSlot v n occ movement i d).slot j)) :
    d.eachSlot (sectionAtSlot v n occ movement) = sectionAtSlot v n occ movement i d :=
  foldl_of_only (f := fun d i => sectionAtSlot v n occ movement i d) (List.mem_range.2 hi) List.nodup_range
    (fun j _ hj => sectionAtSlot_of_noneAt (h j hj) occ movement)
    (fun j _ hj => sectionAtSlot_of_noneAt (noneAt_of_told (h j hj) (ht j hj)) occ movement)

/-! ### The units that a sweep releases -/

/-- The units that a sweep releases, in order: it passes over those it may skip, and ends at the first other that
fails the test. -/
def unitsFreed (skip : Nat → Bool) (pass : Nat → List Nat → Bool) : List Nat → List Nat
  | [] => []
  | k :: ks =>
    if skip k then unitsFreed skip pass ks
    else if pass k ks then k :: unitsFreed skip pass ks
    else []

/-- The test of R115 at a path unit, by the marks `ms`. -/
def pathPass (v : Env) (rt : RouteDef) (ms : List Mark) (k : Nat) (ks : List Nat) : Bool :=
  (markAt ms k).occ && (rt.path[k]?).any (fun e => !v.occupied e.element)
    && (match ks with | j :: _ => (markAt ms j).occ | [] => true)

/-- The test of R118 at an overlap unit. -/
def lapPass (v : Env) (rt : RouteDef) (ms : List Mark) (k : Nat) (ks : List Nat) : Bool :=
  (markAt ms k).occ && (rt.overlap[k]?).any (fun e => !v.occupied e.element)
    && (match ks.find? (fun j => !(markAt ms j).transferred) with
        | some j => (markAt ms j).occ
        | none => true)

/-- An overlap unit that is passed over. -/
def lapSkip (ms : List Mark) (k : Nat) : Bool := (markAt ms k).released || (markAt ms k).transferred

theorem lapSkip_of_kept {ms : List Mark} {k : Nat} (h : (markAt ms k).transferred = false) :
    lapSkip ms k = (markAt ms k).released := by
  rw [lapSkip, h, Bool.or_false]

def pathFreed (v : Env) (rt : RouteDef) (ms : List Mark) : List Nat → List Nat :=
  unitsFreed (fun k => (markAt ms k).released) (pathPass v rt ms)

def lapFreed (v : Env) (rt : RouteDef) (ms : List Mark) : List Nat → List Nat :=
  unitsFreed (lapSkip ms) (lapPass v rt ms)

/-- A unit is released when it may not be skipped, and it and all before it pass. -/
theorem mem_unitsFreed {skip : Nat → Bool} {pass : Nat → List Nat → Bool} {test : Nat → Prop} {ks : List Nat}
    (h : ∀ before k after_, ks = before ++ k :: after_ → (test k ↔ skip k = true ∨ pass k after_ = true)) (x : Nat) :
    x ∈ unitsFreed skip pass ks
      ↔ ∃ before after_, ks = before ++ x :: after_ ∧ skip x = false ∧ ∀ j ∈ before ++ [x], test j := by
  induction ks with
  | nil => simp [unitsFreed]
  | cons k ks ih =>
    have ih := ih (fun before j after_ hks => h (k :: before) j after_ (by rw [hks]; rfl))
    have hk := h [] k ks rfl
    have hcons : (∃ before after_, k :: ks = before ++ x :: after_ ∧ skip x = false ∧ ∀ j ∈ before ++ [x], test j)
        ↔ test k ∧ ((x = k ∧ skip x = false) ∨ ∃ before after_, ks = before ++ x :: after_ ∧ skip x = false
          ∧ ∀ j ∈ before ++ [x], test j) := by
      constructor
      · rintro ⟨_ | ⟨b, before⟩, after_, heq, hskip, hall⟩
        · obtain ⟨rfl, rfl⟩ := List.cons.inj heq
          exact ⟨hall k (by simp), Or.inl ⟨rfl, hskip⟩⟩
        · obtain ⟨rfl, rfl⟩ := List.cons.inj heq
          exact ⟨hall k (by simp), Or.inr ⟨before, after_, rfl, hskip, fun j hj => hall j (by
            rw [List.cons_append]; exact List.mem_cons_of_mem _ hj)⟩⟩
      · rintro ⟨ht, ⟨rfl, hskip⟩ | ⟨before, after_, rfl, hskip, hall⟩⟩
        · exact ⟨[], ks, rfl, hskip, by simpa using ht⟩
        · refine ⟨k :: before, after_, rfl, hskip, fun j hj => ?_⟩
          rcases List.mem_cons.1 hj with rfl | hj
          · exact ht
          · exact hall j hj
    rw [hcons, unitsFreed]
    by_cases hskip : skip k = true
    · have hne : x = k → skip x = false → False := fun e hf => by rw [e, hskip] at hf; cases hf
      rw [if_pos hskip, ih]
      constructor
      · exact fun hx => ⟨hk.2 (Or.inl hskip), Or.inr hx⟩
      · rintro ⟨-, ⟨e, hf⟩ | hx⟩
        · exact (hne e hf).elim
        · exact hx
    · rw [if_neg hskip]
      by_cases hpass : pass k ks = true
      · rw [if_pos hpass, List.mem_cons, ih]
        have htest := hk.2 (Or.inr hpass)
        constructor
        · rintro (rfl | hx)
          · exact ⟨htest, Or.inl ⟨rfl, by simpa using hskip⟩⟩
          · exact ⟨htest, Or.inr hx⟩
        · rintro ⟨-, ⟨rfl, -⟩ | hx⟩
          · exact Or.inl rfl
          · exact Or.inr hx
      · rw [if_neg hpass]
        have htest : ¬ test k := fun ht => (hk.1 ht).elim hskip hpass
        simp [htest]

/-! ### Section indices and units -/

theorem mem_sectionIndices {es : List Entry} {k : Nat} :
    k ∈ sectionIndices es ↔ ∃ y, es[k]? = some y ∧ y.position = none := by
  unfold sectionIndices
  simp only [List.mem_map, List.mem_filter, List.mem_zipIdx_iff_getElem?, Option.isNone_iff_eq_none, Prod.exists,
    exists_eq_right]

theorem sectionIndices_nodup (es : List Entry) : (sectionIndices es).Nodup := by
  unfold sectionIndices
  refine List.Nodup.sublist (List.Sublist.map _ List.filter_sublist) ?_
  rw [List.zipIdx_map_snd]
  exact List.nodup_range'

theorem split_unique {ks a b c d : List Nat} {k : Nat} (hn : ks.Nodup) (h : ks = a ++ k :: b)
    (h' : ks = c ++ k :: d) : a = c ∧ b = d := by
  subst h
  induction a generalizing c with
  | nil =>
    cases c with
    | nil => exact ⟨rfl, (List.cons.inj h').2⟩
    | cons x c =>
      obtain ⟨rfl, rfl⟩ := List.cons.inj h'
      exact absurd (by simp) (List.nodup_cons.1 hn).1
  | cons y a ih =>
    cases c with
    | nil =>
      obtain ⟨rfl, rfl⟩ := List.cons.inj h'
      exact absurd (by simp) (List.nodup_cons.1 hn).1
    | cons x c =>
      obtain ⟨rfl, htail⟩ := List.cons.inj h'
      obtain ⟨rfl, rfl⟩ := ih (c := c) (List.nodup_cons.1 hn).2 htail
      exact ⟨rfl, rfl⟩

/-- A unit has no other section in it. -/
theorem not_mem_unitIndices {v : Env} {es : List Entry} {j k : Nat} (hj : j ∈ sectionIndices es) (hne : j ≠ k) :
    j ∉ unitIndices v es k := by
  obtain ⟨y, hy, hp⟩ := mem_sectionIndices.1 hj
  unfold unitIndices
  cases hk : es[k]? with
  | none => simp
  | some sec =>
    simp only [List.mem_map, List.mem_filter, List.mem_zipIdx_iff_getElem?, Prod.exists, exists_eq_right]
    rintro ⟨x, hx, hc⟩
    obtain rfl : x = y := Option.some.inj (hx.symm.trans hy)
    simp [hne, hp] at hc

theorem mem_unitIndices_self {v : Env} {es : List Entry} {k : Nat} (hk : k ∈ sectionIndices es) :
    k ∈ unitIndices v es k := by
  obtain ⟨y, hy, hp⟩ := mem_sectionIndices.1 hk
  unfold unitIndices
  simp only [hy, List.mem_map, List.mem_filter, List.mem_zipIdx_iff_getElem?, Prod.exists, exists_eq_right]
  exact ⟨y, rfl, by simp⟩

/-! ### Marks set "released" -/

theorem markAt_markReleased (ks : List Nat) (ms : List Mark) (j : Nat) :
    markAt (markReleased ks ms) j = if j ∈ ks ∧ j < ms.length then { markAt ms j with released := true }
      else markAt ms j := by
  unfold markAt
  rw [List.getD_eq_getElem?_getD, List.getD_eq_getElem?_getD, getElem?_markReleased]
  by_cases hj : j < ms.length
  · rw [List.getElem?_eq_getElem hj]
    simp [hj]
  · simp [hj]

theorem markReleased_nil (ms : List Mark) : markReleased [] ms = ms := by
  refine List.ext_getElem? (fun j => ?_)
  rw [getElem?_markReleased]
  simp

theorem markReleased_markReleased (ks ls : List Nat) (ms : List Mark) :
    markReleased ls (markReleased ks ms) = markReleased (ks ++ ls) ms := by
  refine List.ext_getElem? (fun j => ?_)
  simp only [getElem?_markReleased]
  cases ms[j]? with
  | none => rfl
  | some m =>
    by_cases h1 : j ∈ ks <;> by_cases h2 : j ∈ ls <;> simp [h1, h2]

theorem markReleased_length (ks : List Nat) (ms : List Mark) : (markReleased ks ms).length = ms.length := by
  unfold markReleased
  simp

theorem elementsAt_append (es : List Entry) (ks ls : List Nat) :
    elementsAt es (ks ++ ls) = elementsAt es ks ++ elementsAt es ls := List.filterMap_append

/-! ### Units released: marks, flank records and locks (R49, R94, R116, R118) -/

/-- What the release of path entries `ps` and overlap entries `os` of a slot leaves, before it is handed on. -/
structure UnitsOff (i : Nat) (rt : RouteDef) (ps os : List Nat) (d e : Live) : Prop where
  tables : SameTables d e
  others : ∀ j, j ≠ i → e.slot j = d.slot j
  state : (e.slot i).state = (d.slot i).state
  route : (e.slot i).route = (d.slot i).route
  pathMarks : (e.slot i).pathMarks = markReleased ps (d.slot i).pathMarks
  overlapMarks : (e.slot i).overlapMarks = markReleased os (d.slot i).overlapMarks
  kept : ∀ (k : Nat) (h : FlankHold), (e.slot i).flank[k]? = some h → h.protector = none ∨ (d.slot i).flank[k]? = some h
  given : ∀ (k : Nat) (q : Requirement) (h : FlankHold), rt.flank[k]? = some q → q.index ∈ ps → (e.slot i).flank[k]? = some h → h.protector = none
  locks : ∀ m, (e.control m).lock =
    if m ∈ elementsAt rt.path ps ++ elementsAt rt.overlap os
        ∧ (d.control m).lock.any (fun l => l.holder = .slot i) = true
      then none else (d.control m).lock

theorem UnitsOff.refl (i : Nat) (rt : RouteDef) (d : Live) : UnitsOff i rt [] [] d d :=
  ⟨SameTables.refl d, fun _ _ => rfl, rfl, rfl, (markReleased_nil _).symm, (markReleased_nil _).symm,
    fun _ _ h => Or.inr h, nofun, fun _ => by simp [elementsAt]⟩

theorem UnitsOff.trans {i : Nat} {rt : RouteDef} {ps os ps' os' : List Nat} {d e f : Live}
    (h : UnitsOff i rt ps os d e) (k : UnitsOff i rt ps' os' e f) : UnitsOff i rt (ps ++ ps') (os ++ os') d f where
  tables := h.tables.trans k.tables
  others j hj := (k.others j hj).trans (h.others j hj)
  state := k.state.trans h.state
  route := k.route.trans h.route
  pathMarks := by rw [k.pathMarks, h.pathMarks, markReleased_markReleased]
  overlapMarks := by rw [k.overlapMarks, h.overlapMarks, markReleased_markReleased]
  kept j y hy := (k.kept j y hy).elim Or.inl (h.kept j y)
  given j q y hq hmem hy := by
    rcases List.mem_append.1 hmem with hmem | hmem
    · exact (k.kept j y hy).elim id (h.given j q y hq hmem)
    · exact k.given j q y hq hmem hy
  locks m := by
    rw [k.locks, h.locks, elementsAt_append, elementsAt_append]
    by_cases hany : (d.control m).lock.any (fun l => l.holder = .slot i) = true
    · by_cases h1 : m ∈ elementsAt rt.path ps ++ elementsAt rt.overlap os
      · have : m ∈ (elementsAt rt.path ps ++ elementsAt rt.path ps')
            ++ (elementsAt rt.overlap os ++ elementsAt rt.overlap os') := by
          simp only [List.mem_append] at h1 ⊢
          tauto
        have hnone : (if m ∈ elementsAt rt.path ps ++ elementsAt rt.overlap os
            ∧ (d.control m).lock.any (fun l => l.holder = .slot i) = true
            then none else (d.control m).lock) = none := if_pos ⟨h1, hany⟩
        rw [hnone, ite_self, if_pos ⟨this, hany⟩]
      · simp only [h1, if_false, hany, and_true]
        simp only [List.mem_append, not_or] at h1
        simp [h1]
    · simp [hany]

theorem sameTables_setSlot (d : Live) (i : Nat) (f : Slot → Slot) : SameTables d (d.setSlot i f) :=
  ⟨rfl, rfl, rfl, rfl, rfl, rfl, rfl, rfl⟩

theorem unitsOff_releasePathUnit {v : Env} {i : Nat} (k : Nat) (rt : RouteDef) {r : Release}
    (hs : (r.live.slot i).active = true) :
    UnitsOff i rt (unitIndices v rt.path k) [] r.live (releasePathUnit v i k rt r).live := by
  let ks := unitIndices v rt.path k
  let d1 := r.live.setSlot i (fun s => { s with pathMarks := markReleased ks s.pathMarks })
  let r2 := ({ r with live := d1 } : Release).removeLocks v (.slot i) (elementsAt rt.path ks)
  let js := (rt.flank.zipIdx.filter (fun q => ks.contains q.1.index)).map Prod.snd
  have hend : releasePathUnit v i k rt r = r2.giveUpRecords i js := rfl
  obtain ⟨htables, hslots, hlocks⟩ := removeLocks_all v (.slot i) (elementsAt rt.path ks) { r with live := d1 }
  obtain ⟨gtables, -, -, glocks⟩ := giveUpRecords_all i js r2
  have hself : d1.slot i = { r.live.slot i with pathMarks := markReleased ks (r.live.slot i).pathMarks } :=
    setSlot_slot_self (active_lt hs) _
  have hslot (j : Nat) : (releasePathUnit v i k rt r).live.slot j = { d1.slot j with
      flank := if j = i then js.foldl (fun l k => l.set k FlankHold.released) (d1.slot j).flank
        else (d1.slot j).flank } := by
    rw [hend, giveUpRecords_slot, Live.slot_congr hslots]
  have hflank (j : Nat) : ((releasePathUnit v i k rt r).live.slot i).flank[j]?
      = if j ∈ js then (r.live.slot i).flank[j]?.map (fun _ => FlankHold.released)
        else (r.live.slot i).flank[j]? := by
    rw [hslot, hself]
    simp only [if_true]
    exact foldl_released js _ j
  refine ⟨?_, fun j hj => ?_, by rw [hslot, hself], by rw [hslot, hself], by rw [hslot, hself], ?_, ?_, ?_, ?_⟩
  · rw [hend]
    exact ((sameTables_setSlot r.live i _).trans htables).trans gtables
  · rw [hslot, if_neg hj]
    exact setSlot_slot_ne hj _
  · rw [hslot, hself]
    exact (markReleased_nil _).symm
  · intro j h hj
    rw [hflank] at hj
    split at hj
    · obtain ⟨x, -, rfl⟩ := Option.map_eq_some_iff.1 hj
      exact Or.inl rfl
    · exact Or.inr hj
  · intro j q h hq hmem hj
    rw [hflank, if_pos] at hj
    · obtain ⟨x, -, rfl⟩ := Option.map_eq_some_iff.1 hj
      rfl
    · simp only [js, List.mem_map, List.mem_filter, List.mem_zipIdx_iff_getElem?, Prod.exists, exists_eq_right]
      exact ⟨q, hq, by simpa using hmem⟩
  · intro m
    rw [hend, glocks]
    refine (hlocks m).trans ?_
    rw [show elementsAt rt.overlap [] = [] from rfl, List.append_nil]
    rfl

theorem unitsOff_releaseOverlapUnit {v : Env} {i : Nat} (k : Nat) (rt : RouteDef) {r : Release}
    (hs : (r.live.slot i).active = true) :
    UnitsOff i rt [] ((unitIndices v rt.overlap k).filter
        (fun j => !(markAt (r.live.slot i).overlapMarks j).transferred))
      r.live (releaseOverlapUnit v i k rt r).live := by
  let ks := (unitIndices v rt.overlap k).filter (fun j => !(markAt (r.live.slot i).overlapMarks j).transferred)
  let d1 := r.live.setSlot i (fun s => { s with overlapMarks := markReleased ks s.overlapMarks })
  have hend : releaseOverlapUnit v i k rt r
      = ({ r with live := d1 } : Release).removeLocks v (.slot i) (elementsAt rt.overlap ks) := rfl
  obtain ⟨htables, hslots, hlocks⟩ := removeLocks_all v (.slot i) (elementsAt rt.overlap ks) { r with live := d1 }
  have hself : d1.slot i = { r.live.slot i with overlapMarks := markReleased ks (r.live.slot i).overlapMarks } :=
    setSlot_slot_self (active_lt hs) _
  have hslot (j : Nat) : (releaseOverlapUnit v i k rt r).live.slot j = d1.slot j := by
    rw [hend, Live.slot_congr hslots]
  refine ⟨?_, fun j hj => ?_, by rw [hslot, hself], by rw [hslot, hself], ?_, by rw [hslot, hself], ?_, nofun, ?_⟩
  · rw [hend]
    exact (sameTables_setSlot r.live i _).trans htables
  · rw [hslot]
    exact setSlot_slot_ne hj _
  · rw [hslot, hself]
    exact (markReleased_nil _).symm
  · intro j h hj
    rw [hslot, hself] at hj
    exact Or.inr hj
  · intro m
    rw [hend]
    exact hlocks m


/-! ### The sweeps as the release of their units in order (R116, R118) -/

theorem sweepPath_cons (v : Env) (i : Nat) (rt : RouteDef) (k : Nat) (ks : List Nat) (r : Release) :
    sweepPath v i rt (k :: ks) r
      = if (markAt (r.live.slot i).pathMarks k).released then sweepPath v i rt ks r
        else if pathPass v rt (r.live.slot i).pathMarks k ks then sweepPath v i rt ks (releasePathUnit v i k rt r)
        else r := rfl

theorem pathPass_congr {v : Env} {rt : RouteDef} {ms ns : List Mark} {k : Nat} {ks : List Nat}
    (h : ∀ j ∈ k :: ks, markAt ms j = markAt ns j) : pathPass v rt ms k ks = pathPass v rt ns k ks := by
  unfold pathPass
  rw [h k List.mem_cons_self]
  cases ks with
  | nil => rfl
  | cons j ks => exact congrArg (fun m : Mark => _ && m.occ) (h j (by simp))

theorem sweepOverlap_cons (v : Env) (i : Nat) (rt : RouteDef) (k : Nat) (ks : List Nat) (r : Release) :
    sweepOverlap v i rt (k :: ks) r
      = if lapSkip (r.live.slot i).overlapMarks k then sweepOverlap v i rt ks r
        else if lapPass v rt (r.live.slot i).overlapMarks k ks then
          sweepOverlap v i rt ks (releaseOverlapUnit v i k rt r)
        else r := rfl

theorem lapPass_congr {v : Env} {rt : RouteDef} {ms ns : List Mark} {k : Nat} {ks : List Nat}
    (h : ∀ j ∈ k :: ks, markAt ms j = markAt ns j) : lapPass v rt ms k ks = lapPass v rt ns k ks := by
  have hfind : ks.find? (fun j => !(markAt ms j).transferred) = ks.find? (fun j => !(markAt ns j).transferred) :=
    List.find?_congr (fun j hj => by rw [h j (List.mem_cons_of_mem _ hj)])
  unfold lapPass
  rw [h k List.mem_cons_self, hfind]
  cases hf : ks.find? (fun j => !(markAt ns j).transferred) with
  | none => rfl
  | some j => exact congrArg (fun m : Mark => _ && m.occ) (h j (List.mem_cons_of_mem _ (List.mem_of_find?_eq_some hf)))

theorem sweepPath_eq {v : Env} {i : Nat} {rt : RouteDef} {ms : List Mark} {ks : List Nat} {r : Release}
    (hs : (r.live.slot i).active = true) (hsec : ∀ k ∈ ks, k ∈ sectionIndices rt.path) (hnodup : ks.Nodup)
    (hms : ∀ k ∈ ks, markAt (r.live.slot i).pathMarks k = markAt ms k) :
    sweepPath v i rt ks r = (pathFreed v rt ms ks).foldl (fun r k => releasePathUnit v i k rt r) r := by
  induction ks generalizing r with
  | nil => rfl
  | cons k ks ih =>
    have hk := hms k List.mem_cons_self
    have hsec' : ∀ j ∈ ks, j ∈ sectionIndices rt.path := fun j hj => hsec j (List.mem_cons_of_mem _ hj)
    have hnodup' := List.nodup_cons.1 hnodup
    have hrest : ∀ j ∈ ks, markAt (r.live.slot i).pathMarks j = markAt ms j :=
      fun j hj => hms j (List.mem_cons_of_mem _ hj)
    rw [sweepPath_cons, hk, pathPass_congr hms]
    unfold pathFreed unitsFreed
    split
    · exact ih hs hsec' hnodup'.2 hrest
    · split
      · have hoff := unitsOff_releasePathUnit (v := v) k rt hs
        refine ih (by unfold Slot.active; rw [hoff.state]; exact hs) hsec' hnodup'.2 (fun j hj => ?_)
        rw [hoff.pathMarks, markAt_markReleased, if_neg, hrest j hj]
        exact fun h => not_mem_unitIndices (hsec' j hj) (fun e : j = k => hnodup'.1 (e ▸ hj)) h.1
      · rfl

theorem markAt_markReleased_transferred (ks : List Nat) (ms : List Mark) (j : Nat) :
    (markAt (markReleased ks ms) j).transferred = (markAt ms j).transferred := by
  rw [markAt_markReleased]
  split <;> rfl

/-- The entries of an overlap unit that are not transferred. -/
def lapUnit (v : Env) (rt : RouteDef) (ms : List Mark) (k : Nat) : List Nat :=
  (unitIndices v rt.overlap k).filter (fun j => !(markAt ms j).transferred)

theorem sweepOverlap_eq {v : Env} {i : Nat} {rt : RouteDef} {ms : List Mark} {ks : List Nat} {r : Release}
    (hs : (r.live.slot i).active = true) (hsec : ∀ k ∈ ks, k ∈ sectionIndices rt.overlap) (hnodup : ks.Nodup)
    (hms : ∀ k ∈ ks, markAt (r.live.slot i).overlapMarks k = markAt ms k) :
    sweepOverlap v i rt ks r = (lapFreed v rt ms ks).foldl (fun r k => releaseOverlapUnit v i k rt r) r := by
  induction ks generalizing r with
  | nil => rfl
  | cons k ks ih =>
    have hk := hms k List.mem_cons_self
    have hsec' : ∀ j ∈ ks, j ∈ sectionIndices rt.overlap := fun j hj => hsec j (List.mem_cons_of_mem _ hj)
    have hnodup' := List.nodup_cons.1 hnodup
    have hrest : ∀ j ∈ ks, markAt (r.live.slot i).overlapMarks j = markAt ms j :=
      fun j hj => hms j (List.mem_cons_of_mem _ hj)
    rw [sweepOverlap_cons, lapPass_congr hms, show lapSkip (r.live.slot i).overlapMarks k = lapSkip ms k by
      unfold lapSkip; rw [hk]]
    unfold lapFreed unitsFreed
    split
    · exact ih hs hsec' hnodup'.2 hrest
    · split
      · have hoff := unitsOff_releaseOverlapUnit (v := v) k rt hs
        refine ih (by unfold Slot.active; rw [hoff.state]; exact hs) hsec' hnodup'.2 (fun j hj => ?_)
        rw [hoff.overlapMarks, markAt_markReleased, if_neg, hrest j hj]
        exact fun h => not_mem_unitIndices (hsec' j hj) (fun e : j = k => hnodup'.1 (e ▸ hj)) (List.mem_of_mem_filter h.1)
      · rfl

theorem unitsOff_pathUnits {v : Env} {i : Nat} (rt : RouteDef) (ks : List Nat) {r : Release}
    (hs : (r.live.slot i).active = true) :
    UnitsOff i rt (ks.flatMap (unitIndices v rt.path)) [] r.live
      (ks.foldl (fun r k => releasePathUnit v i k rt r) r).live := by
  induction ks generalizing r with
  | nil => exact UnitsOff.refl i rt r.live
  | cons k ks ih =>
    have hoff := unitsOff_releasePathUnit (v := v) k rt hs
    rw [List.flatMap_cons, List.foldl_cons]
    exact hoff.trans (ih (by unfold Slot.active; rw [hoff.state]; exact hs))

theorem unitsOff_overlapUnits {v : Env} {i : Nat} (rt : RouteDef) (ms : List Mark) (ks : List Nat) {r : Release}
    (hs : (r.live.slot i).active = true)
    (hms : ∀ j, (markAt (r.live.slot i).overlapMarks j).transferred = (markAt ms j).transferred) :
    UnitsOff i rt [] (ks.flatMap (lapUnit v rt ms)) r.live
      (ks.foldl (fun r k => releaseOverlapUnit v i k rt r) r).live := by
  induction ks generalizing r with
  | nil => exact UnitsOff.refl i rt r.live
  | cons k ks ih =>
    have hoff := unitsOff_releaseOverlapUnit (v := v) k rt hs
    rw [List.flatMap_cons, List.foldl_cons]
    have hrest := ih (r := releaseOverlapUnit v i k rt r) (by unfold Slot.active; rw [hoff.state]; exact hs)
      (fun j => by rw [hoff.overlapMarks, markAt_markReleased_transferred, hms j])
    have hunit : lapUnit v rt ms k = (unitIndices v rt.overlap k).filter
        (fun j => !(markAt (r.live.slot i).overlapMarks j).transferred) :=
      List.filter_congr (fun j _ => by rw [hms j])
    rw [hunit]
    exact hoff.trans hrest


/-! ### The tests of R115 and R118 -/

/-- A path section, by its index, passes the test of R115 by itself. -/
def pathTest (v : Env) (rt : RouteDef) (ms : List Mark) (k : Nat) : Prop :=
  (markAt ms k).released = true
    ∨ ((markAt ms k).occ = true ∧ (∃ y, rt.path[k]? = some y ∧ v.occupied y.element = false)
      ∧ ∀ before j after_, sectionIndices rt.path = before ++ k :: j :: after_ → (markAt ms j).occ = true)

/-- An overlap section the test of R118. -/
def lapTest (v : Env) (rt : RouteDef) (ms : List Mark) (k : Nat) : Prop :=
  (markAt ms k).released = true ∨ (markAt ms k).transferred = true
    ∨ ((markAt ms k).occ = true ∧ (∃ y, rt.overlap[k]? = some y ∧ v.occupied y.element = false)
      ∧ ∀ before after_ j, sectionIndices rt.overlap = before ++ k :: after_ →
          after_.find? (fun q => !(markAt ms q).transferred) = some j → (markAt ms j).occ = true)

theorem any_not_occupied {v : Env} {o : Option Entry} :
    o.any (fun e => !v.occupied e.element) = true ↔ ∃ y, o = some y ∧ v.occupied y.element = false := by
  cases o <;> simp

theorem pathTest_iff (v : Env) {rt : RouteDef} (ms : List Mark) (before : List Nat) (k : Nat) (after_ : List Nat)
    (h : sectionIndices rt.path = before ++ k :: after_) :
    pathTest v rt ms k ↔ (markAt ms k).released = true ∨ pathPass v rt ms k after_ = true := by
  unfold pathTest pathPass
  refine or_congr_right ?_
  rw [Bool.and_eq_true, Bool.and_eq_true, any_not_occupied, and_assoc]
  refine and_congr_right (fun _ => and_congr_right (fun _ => ?_))
  cases after_ with
  | nil =>
    refine ⟨fun _ => rfl, fun _ b j a hj => ?_⟩
    exact absurd (split_unique (sectionIndices_nodup _) h hj).2 nofun
  | cons j after_ =>
    refine ⟨fun hall => hall before j after_ h, fun hocc b j' a hj => ?_⟩
    obtain ⟨rfl, rfl⟩ := List.cons.inj (split_unique (sectionIndices_nodup _) h hj).2
    exact hocc

theorem lapTest_iff (v : Env) {rt : RouteDef} (ms : List Mark) (before : List Nat) (k : Nat) (after_ : List Nat)
    (h : sectionIndices rt.overlap = before ++ k :: after_) :
    lapTest v rt ms k ↔ lapSkip ms k = true ∨ lapPass v rt ms k after_ = true := by
  unfold lapTest lapPass lapSkip
  rw [← or_assoc, Bool.or_eq_true]
  refine or_congr_right ?_
  rw [Bool.and_eq_true, Bool.and_eq_true, any_not_occupied, and_assoc]
  refine and_congr_right (fun _ => and_congr_right (fun _ => ?_))
  constructor
  · intro hall
    cases hf : after_.find? (fun j => !(markAt ms j).transferred) with
    | none => rfl
    | some j => exact hall before after_ j h hf
  · intro hocc b a j hj hf
    obtain ⟨rfl, rfl⟩ := split_unique (sectionIndices_nodup _) h hj
    rw [hf] at hocc
    exact hocc

/-- The path units that a sweep releases. -/
theorem mem_pathFreed {v : Env} {rt : RouteDef} {ms : List Mark} {k : Nat} :
    k ∈ pathFreed v rt ms (sectionIndices rt.path) ↔ ∃ before after_, sectionIndices rt.path = before ++ k :: after_
      ∧ (markAt ms k).released = false ∧ ∀ j ∈ before ++ [k], pathTest v rt ms j :=
  mem_unitsFreed (pathTest_iff v ms) k

theorem mem_pathFreed_split {v : Env} {rt : RouteDef} {ms : List Mark} {before after_ : List Nat} {k : Nat}
    (h : sectionIndices rt.path = before ++ k :: after_) :
    k ∈ pathFreed v rt ms (sectionIndices rt.path)
      ↔ (markAt ms k).released = false ∧ ∀ j ∈ before ++ [k], pathTest v rt ms j := by
  rw [mem_pathFreed]
  refine ⟨?_, fun hk => ⟨before, after_, h, hk⟩⟩
  rintro ⟨b, a, hks, hk⟩
  obtain ⟨rfl, rfl⟩ := split_unique (sectionIndices_nodup _) h hks
  exact hk

theorem or_false_and {b : Bool} {p : Prop} : b = true ∨ (b = false ∧ p) ↔ b = true ∨ p := by
  cases b <;> simp

theorem mem_lapFreed {v : Env} {rt : RouteDef} {ms : List Mark} {k : Nat} :
    k ∈ lapFreed v rt ms (sectionIndices rt.overlap)
      ↔ ∃ before after_, sectionIndices rt.overlap = before ++ k :: after_
        ∧ lapSkip ms k = false ∧ ∀ j ∈ before ++ [k], lapTest v rt ms j :=
  mem_unitsFreed (lapTest_iff v ms) k

theorem mem_lapFreed_split {v : Env} {rt : RouteDef} {ms : List Mark} {before after_ : List Nat} {k : Nat}
    (h : sectionIndices rt.overlap = before ++ k :: after_) :
    k ∈ lapFreed v rt ms (sectionIndices rt.overlap)
      ↔ lapSkip ms k = false ∧ ∀ j ∈ before ++ [k], lapTest v rt ms j := by
  rw [mem_lapFreed]
  refine ⟨?_, fun hk => ⟨before, after_, h, hk⟩⟩
  rintro ⟨b, a, hks, hk⟩
  obtain ⟨rfl, rfl⟩ := split_unique (sectionIndices_nodup _) h hks
  exact hk

/-- Whether a section is released once the units of a list are, at marks that released units have set. -/
theorem released_markReleased {v : Env} {es : List Entry} {ms : List Mark} {ks : List Nat} {unit : Nat → List Nat}
    (hunit : ∀ j, unit j ⊆ unitIndices v es j) {k : Nat} (hk : k ∈ sectionIndices es)
    (hself : k ∈ ks → k ∈ unit k ∧ k < ms.length) :
    (markAt (markReleased (ks.flatMap unit) ms) k).released = true ↔ (markAt ms k).released = true ∨ k ∈ ks := by
  have hmem : k ∈ ks.flatMap unit → k ∈ ks := by
    intro h
    obtain ⟨j, hj, hkj⟩ := List.mem_flatMap.1 h
    by_cases hne : k = j
    · rw [hne]; exact hj
    · exact absurd (hunit j hkj) (not_mem_unitIndices hk hne)
  rw [markAt_markReleased]
  constructor
  · intro h
    split at h
    · next hc => exact Or.inr (hmem hc.1)
    · exact Or.inl h
  · rintro (h | h)
    · split
      · rfl
      · exact h
    · rw [if_pos ⟨List.mem_flatMap.2 ⟨k, h, (hself h).1⟩, (hself h).2⟩]

theorem lt_of_markAt_occ {ms : List Mark} {k : Nat} (h : (markAt ms k).occ = true) : k < ms.length := by
  by_contra hk
  unfold markAt at h
  rw [List.getD_eq_default _ _ (by omega)] at h
  cases h

theorem pathTest_lt {v : Env} {rt : RouteDef} {ms : List Mark} {k : Nat} (h : pathTest v rt ms k) : k < ms.length := by
  rcases h with h | ⟨h, -⟩
  · by_contra hk
    unfold markAt at h
    rw [List.getD_eq_default _ _ (by omega)] at h
    cases h
  · exact lt_of_markAt_occ h

theorem mem_elementsAt_flatMap {es : List Entry} {ks : List Nat} {f : Nat → List Nat} {m : Nat} :
    m ∈ elementsAt es (ks.flatMap f) ↔ ∃ k ∈ ks, m ∈ elementsAt es (f k) := by
  unfold elementsAt
  rw [List.filterMap_flatMap, List.mem_flatMap]

theorem elementsAt_subset {es : List Entry} {ks ls : List Nat} (h : ks ⊆ ls) : elementsAt es ks ⊆ elementsAt es ls := by
  intro m hm
  unfold elementsAt at *
  obtain ⟨k, hk, hy⟩ := List.mem_filterMap.1 hm
  exact List.mem_filterMap.2 ⟨k, h hk, hy⟩

/-- The path entries released, by the marks before. -/
def pathOff (v : Env) (rt : RouteDef) (ms : List Mark) : List Nat :=
  (pathFreed v rt ms (sectionIndices rt.path)).flatMap (unitIndices v rt.path)

/-- The overlap entries released. -/
def lapOff (v : Env) (rt : RouteDef) (ms : List Mark) : List Nat :=
  (lapFreed v rt ms (sectionIndices rt.overlap)).flatMap (lapUnit v rt ms)

/-- The sections of a path released by a sweep. -/
theorem released_pathOff {v : Env} {rt : RouteDef} (ms : List Mark) {k : Nat} (hk : k ∈ sectionIndices rt.path) :
    (markAt (markReleased (pathOff v rt ms) ms) k).released = true
      ↔ (markAt ms k).released = true ∨ k ∈ pathFreed v rt ms (sectionIndices rt.path) := by
  refine released_markReleased (unit := unitIndices v rt.path) (fun _ => List.Subset.refl _) hk (fun h => ?_)
  obtain ⟨before, after_, -, -, hall⟩ := mem_pathFreed.1 h
  exact ⟨mem_unitIndices_self hk, pathTest_lt (hall k (by simp))⟩

/-- The sections of an overlap, not transferred, released by a sweep. -/
theorem released_lapOff {v : Env} {rt : RouteDef} (ms : List Mark) {k : Nat} (hk : k ∈ sectionIndices rt.overlap)
    (ht : (markAt ms k).transferred = false) :
    (markAt (markReleased (lapOff v rt ms) ms) k).released = true
      ↔ (markAt ms k).released = true ∨ k ∈ lapFreed v rt ms (sectionIndices rt.overlap) := by
  refine released_markReleased (v := v) (unit := lapUnit v rt ms) (fun _ => List.filter_sublist.subset) hk (fun h => ?_)
  obtain ⟨before, after_, -, hskip, hall⟩ := mem_lapFreed.1 h
  refine ⟨List.mem_filter.2 ⟨mem_unitIndices_self hk, by rw [ht]; rfl⟩, ?_⟩
  rcases hall k (by simp) with hr | hr | ⟨hocc, -⟩
  · simp [lapSkip, hr] at hskip
  · simp [lapSkip, hr] at hskip
  · exact lt_of_markAt_occ hocc

/-- Every section of a path that is done after a sweep passes the test. -/
theorem pathTest_of_done {v : Env} {rt : RouteDef} {ms : List Mark}
    (h : (markReleased (pathOff v rt ms) ms).all Mark.released = true) {k : Nat} (hk : k ∈ sectionIndices rt.path)
    (hlt : k < ms.length) : pathTest v rt ms k := by
  have hrel : (markAt (markReleased (pathOff v rt ms) ms) k).released = true := by
    have hlt' : k < (markReleased (pathOff v rt ms) ms).length := by rw [markReleased_length]; exact hlt
    unfold markAt
    rw [List.getD_eq_getElem _ _ hlt']
    exact List.all_eq_true.1 h _ (List.getElem_mem hlt')
  rcases (released_pathOff ms hk).1 hrel with h | h
  · exact Or.inl h
  · obtain ⟨before, after_, -, -, hall⟩ := mem_pathFreed.1 h
    exact hall k (by simp)

/-! ### The release test of a slot in ENTERED (R116, R118, R120) -/

/-- The release that the test of a slot makes, before it is handed on. -/
def sweptRelease (v : Env) (i n : Nat) (rt : RouteDef) (d : Live) : Release :=
  let r1 := if (entrySections rt.path).contains n then
      sweepPath v i rt (sectionIndices rt.path) (Release.start d)
    else Release.start d
  if pathDone (r1.live.slot i)
      && (!pathDone (d.slot i) || (entrySections (ownOverlap rt (d.slot i))).contains n) then
    sweepOverlap v i rt (sectionIndices rt.overlap) r1
  else r1

theorem releaseTest_of_entered {v : Env} {i n : Nat} {rt : RouteDef} {d : Live} (hr : d.routeOf v i = some rt)
    (hs : (d.slot i).state = .entered) :
    releaseTest v i n d = endPassage v i ((sweptRelease v i n rt d).handOn v) := by
  unfold releaseTest
  rw [hr]
  dsimp only
  rw [if_pos hs]
  rfl

/-- A change of a path section releases the path units that pass, and the overlap units once the path is done. -/
theorem unitsOff_sweptRelease {v : Env} {i n : Nat} {rt : RouteDef} {d : Live} (hs : (d.slot i).active = true)
    (hn : n ∈ entrySections rt.path) :
    ∃ os, UnitsOff i rt (pathOff v rt (d.slot i).pathMarks) os d (sweptRelease v i n rt d).live
      ∧ (os = [] ∨ (pathDone ((sweptRelease v i n rt d).live.slot i) = true
          ∧ os = lapOff v rt (d.slot i).overlapMarks))
      ∧ (pathDone ((sweptRelease v i n rt d).live.slot i) = true → pathDone (d.slot i) = false →
          os = lapOff v rt (d.slot i).overlapMarks) := by
  let r1 := sweepPath v i rt (sectionIndices rt.path) (Release.start d)
  have hoff1 : UnitsOff i rt (pathOff v rt (d.slot i).pathMarks) [] d r1.live := by
    have hsweep := sweepPath_eq (v := v) (r := Release.start d) (ms := (d.slot i).pathMarks) hs (fun _ h => h)
      (sectionIndices_nodup rt.path) (fun _ _ => rfl)
    rw [show r1 = _ from hsweep]
    exact unitsOff_pathUnits rt _ (r := Release.start d) hs
  have hs1 : (r1.live.slot i).active = true := by unfold Slot.active; rw [hoff1.state]; exact hs
  have heq : sweptRelease v i n rt d = if pathDone (r1.live.slot i)
      && (!pathDone (d.slot i) || (entrySections (ownOverlap rt (d.slot i))).contains n) then
    sweepOverlap v i rt (sectionIndices rt.overlap) r1 else r1 := by
    have hin : (entrySections rt.path).contains n = true := by simpa using hn
    unfold sweptRelease
    simp only [hin, if_true]
    rfl
  by_cases hc : (pathDone (r1.live.slot i)
      && (!pathDone (d.slot i) || (entrySections (ownOverlap rt (d.slot i))).contains n)) = true
  · rw [heq, if_pos hc]
    have hms : (r1.live.slot i).overlapMarks = (d.slot i).overlapMarks := by
      rw [hoff1.overlapMarks, markReleased_nil]
    have hoff2 : UnitsOff i rt [] (lapOff v rt (d.slot i).overlapMarks) r1.live
        (sweepOverlap v i rt (sectionIndices rt.overlap) r1).live := by
      rw [sweepOverlap_eq hs1 (fun _ h => h) (sectionIndices_nodup _) (fun _ _ => by rw [hms])]
      exact unitsOff_overlapUnits rt _ _ hs1 (fun _ => by rw [hms])
    have hdone : pathDone ((sweepOverlap v i rt (sectionIndices rt.overlap) r1).live.slot i) = true := by
      unfold pathDone
      rw [hoff2.pathMarks, markReleased_nil]
      exact (Bool.and_eq_true_iff.1 hc).1
    refine ⟨_, ?_, Or.inr ⟨hdone, rfl⟩, fun _ _ => rfl⟩
    have := hoff1.trans hoff2
    rwa [List.append_nil, List.nil_append] at this
  · rw [heq, if_neg hc]
    refine ⟨[], hoff1, Or.inl rfl, fun h1 h2 => absurd ?_ hc⟩
    rw [h1, h2]
    rfl

/-- The test of R120. -/
def Slot.passed (s : Slot) : Bool :=
  pathDone s && s.overlapDone && s.flank.all (fun h => h.protector.isNone)

theorem endPassage_of_passed {v : Env} {i : Nat} {rt : RouteDef} {d : Live} (hr : d.routeOf v i = some rt)
    (hs : (d.slot i).state = .entered) (hp : (d.slot i).passed = true) :
    (endPassage v i d).slot i = Slot.free := by
  have hlt : i < (releaseExit v i false d).slots.length :=
    active_lt (told_active ((told_releaseExit v i false d).slot i) (routeOf_active hr))
  unfold endPassage
  rw [hr]
  dsimp only
  rw [if_pos (by unfold Slot.passed at hp; simpa [hs, and_assoc] using hp)]
  exact setSlot_slot_self hlt (fun _ => Slot.free)

theorem endPassage_of_not_passed {v : Env} {i : Nat} {d : Live} (hp : (d.slot i).passed = false) :
    endPassage v i d = d := by
  unfold endPassage
  split
  · refine if_neg (fun h => ?_)
    unfold Slot.passed at hp
    simp only [Bool.and_assoc] at h hp
    rw [hp, Bool.and_false] at h
    cases h
  · rfl

/-- What the release test leaves of the state `m` in which the units are released: the slot FREE when the passage
has ended, and as it stands in `m` otherwise. -/
theorem endPassage_handOn {v : Env} {i : Nat} {rt : RouteDef} {r : Release} (hr : r.live.routeOf v i = some rt)
    (hs : (r.live.slot i).state = .entered) :
    let e := endPassage v i (r.handOn v)
    r.live.claimsStand e ∧ r.live.portsStand e ∧ e.stored = r.live.stored
      ∧ (∀ j, j ≠ i → SlotTold (r.live.slot j) (e.slot j))
      ∧ (((r.live.slot i).passed = true ∧ e.slot i = Slot.free)
        ∨ ((r.live.slot i).passed = false ∧ e.slot i = r.live.slot i)) := by
  have hm := moved_handOn v r
  have hself : (r.handOn v).slot i = r.live.slot i := (hm.slot i).still (by unfold Slot.needsExit; rw [hs]; rfl)
  have hr' : (r.handOn v).routeOf v i = some rt := (routeOf_eq (by rw [hself]) (by rw [hself])).trans hr
  obtain ⟨hcases, hclaims, hports, hstored⟩ := endPassage_all v i (r.handOn v)
  refine ⟨fun m => (hclaims m).trans (hm.claimsStand m), portsStand_trans hm.portsStand hports,
    hstored.trans hm.stored, fun j hj => ?_, ?_⟩
  · rcases hcases with h | ⟨-, -, h⟩
    · rw [h]; exact (hm.slot j).told
    · exact (hm.slot j).told.trans (h j hj)
  · cases hp : (r.live.slot i).passed with
    | true => exact Or.inl ⟨rfl, endPassage_of_passed hr' (by rw [hself]; exact hs) (by rw [hself]; exact hp)⟩
    | false => exact Or.inr ⟨rfl, by rw [endPassage_of_not_passed (by rw [hself]; exact hp), hself]⟩


/-! ### A path section turned CLEAR -/

theorem elementIs_pickedUp {v : Env} {n : Nat} {e : Element} (he : v.element? n = some e) (m : Nat)
    {f : Element → Bool} (hf : ∀ x, f x.pickedUp = f x) :
    (v.setElement n Element.pickedUp).elementIs m f = v.elementIs m f := by
  unfold Env.elementIs
  by_cases hm : m = n
  · subst hm
    rw [element?_setElement_self Element.pickedUp (fun _ => rfl) he, he]
    exact hf e
  · rw [element?_setElement_ne Element.pickedUp (fun _ => rfl) hm]

theorem unitIndices_pickedUp {v : Env} {n : Nat} {e : Element} (he : v.element? n = some e) (es : List Entry)
    (k : Nat) : unitIndices (v.setElement n Element.pickedUp) es k = unitIndices v es k := by
  unfold unitIndices
  cases es[k]? with
  | none => rfl
  | some sec =>
    dsimp only
    simp only [elementIs_pickedUp he _ (f := fun e => decide (e.containing = some sec.element)) (fun _ => rfl)]

/-- What a change to CLEAR of a section of one slot and no berth leaves: the release test of that slot, and no
more than throws. -/
theorem exec_pickUpExpiry_of_slot {n i : Nat} {e : Element} {at_ : Time} {rt : RouteDef} {s : State}
    (he : s.env.element? n = some e) (hs : e.isSection = true) (ho : e.occupied = true)
    (hp : e.pickUp = some at_) (hr : reached s.env.now at_ = true) (hrt : s.live.routeOf s.env i = some rt)
    (hent : (s.live.slot i).state = .entered) (hn : n ∈ entrySections rt.path) (honly : s.live.onlyAt s.env n i)
    (hberth : ∀ bd ∈ s.env.defs.boundaries, n ∉ bd.berth)
    (htold : ∀ j, j ≠ i → SlotTold (s.live.slot j)
      ((releaseTest (s.env.setElement n Element.pickedUp) i n s.live).slot j))
    (hst : (releaseTest (s.env.setElement n Element.pickedUp) i n s.live).stored = []) :
    ∃ d, Moved (releaseTest (s.env.setElement n Element.pickedUp) i n s.live) d
      ∧ exec (.pickUpExpiry n) s = .next { s with env := s.env.setElement n Element.pickedUp, live := d } := by
  let v := s.env.setElement n Element.pickedUp
  let e1 := releaseTest v i n s.live
  have hat : sectionAtSlot v n false true i s.live = e1 := by
    have hsection : hasSection rt n = true := by
      unfold hasSection entrySections at *
      rw [List.filterMap_append]
      simpa using Or.inl (by simpa using hn)
    unfold sectionAtSlot
    rw [show s.live.routeOf v i = some rt from hrt]
    simp only [hent, hsection, if_true, Bool.false_and, Bool.false_eq_true, if_false]
    rfl
  have hslots : s.live.eachSlot (sectionAtSlot v n false true) = e1 :=
    (eachSlot_sectionAtSlot_of_only (v := v) honly (active_lt (routeOf_active hrt))
      (by rw [hat]; exact htold)).trans hat
  let d1 := runArbiters .now v (hasOrder v (fun p => v.elementIs p (fun e => e.containing = some n))) e1
  have hmoved : Moved e1 d1 := moved_runArbiters_of_no_stored v _ e1 hst
  have hberths : v.defs.boundaries.foldl (fun d bd => berthChanged v n false true bd.number d) d1 = d1 :=
    foldl_of_fixed (fun bd _ => berthChanged_of_not_mem false true (fun bd' hbd' => by
      exact hberth bd' (List.mem_of_find?_eq_some hbd')))
  have hserve : serve v (d1.setReeval true) = d1.setReeval false := serve_of_no_stored v _ (hmoved.stored.trans hst)
  refine ⟨d1.setReeval false, hmoved.trans (moved_setReeval _ _),
    (exec_pickUpExpiry_of_due he hs ho hp hr).trans ?_⟩
  rw [sectionChanged_clear, hslots]
  exact congrArg (fun e => Host.Outcome.next { s with env := v, live := e })
    ((congrArg (fun e => serve v (e.setReeval true)) hberths).trans hserve)

/-- Settles O22: the release test of the slot, by the units that its sweeps release. -/
theorem passageReleasesUnits : Obligations.PassageReleasesUnits := by
  intro n i e at_ rt s he hs ho hp hr hrt hent hst hn honly hberth test ltest htest hltest
  let v := s.env.setElement n Element.pickedUp
  let ms := (s.live.slot i).pathMarks
  let ls := (s.live.slot i).overlapMarks
  have hunits (es : List Entry) (k : Nat) : unitIndices v es k = unitIndices s.env es k := unitIndices_pickedUp he es k
  have hT (k : Nat) : test k ↔ pathTest v rt ms k := by
    rw [htest k]
    unfold pathTest
    simp only [v, occupied_pickedUp he]
    rfl
  have hL (k : Nat) : ltest k ↔ lapTest v rt ls k := by
    rw [hltest k]
    unfold lapTest
    simp only [v, occupied_pickedUp he]
    rfl
  have hrtv : s.live.routeOf v i = some rt := hrt
  let r := sweptRelease v i n rt s.live
  obtain ⟨os, hoff, hos, hosall⟩ := unitsOff_sweptRelease (v := v) (routeOf_active hrt) hn
  have hstate : (r.live.slot i).state = .entered := hoff.state.trans hent
  have hrtr : r.live.routeOf v i = some rt :=
    (routeOf_of hoff.state hoff.route).trans hrtv
  have hend : releaseTest v i n s.live = endPassage v i (r.handOn v) := releaseTest_of_entered hrtv hent
  obtain ⟨hclaims, hports, hstored, htold, hself⟩ := endPassage_handOn hrtr hstate
  rw [← hend] at hclaims hports hstored htold hself
  have hst' := hstored.trans (hoff.tables.stored.trans hst)
  have htold' (j : Nat) (hj : j ≠ i) : SlotTold (s.live.slot j) ((releaseTest v i n s.live).slot j) := by
    have := htold j hj
    rwa [show r.live.slot j = s.live.slot j from hoff.others j hj] at this
  obtain ⟨d, hmoved, hexec⟩ := exec_pickUpExpiry_of_slot he hs ho hp hr hrt hent hn honly hberth htold' hst'
  have hfreed (k : Nat) : k ∈ pathFreed v rt ms (sectionIndices rt.path)
      ↔ ∃ before after_, sectionIndices rt.path = before ++ k :: after_
        ∧ (markAt ms k).released = false ∧ ∀ j ∈ before ++ [k], test j := by
    simp only [mem_pathFreed, hT]
  have hdone (h : pathDone (r.live.slot i) = true) (k : Nat) (hk : k ∈ sectionIndices rt.path)
      (hlt : k < ms.length) : test k := by
    unfold pathDone at h
    rw [hoff.pathMarks] at h
    exact (hT k).2 (pathTest_of_done h hk hlt)
  have hslot : d.slot i = (releaseTest v i n s.live).slot i := by
    refine (hmoved.slot i).still ?_
    rcases hself with ⟨-, h⟩ | ⟨-, h⟩
    · rw [h]; rfl
    · rw [h]; unfold Slot.needsExit; rw [hstate]; rfl
  have hlock (m : Nat) : (d.control m).lock =
      if m ∈ elementsAt rt.path (pathOff v rt ms) ++ elementsAt rt.overlap os
          ∧ (s.live.control m).lock.any (fun l => l.holder = .slot i) = true
        then none else (s.live.control m).lock :=
    ((lock_of_claims hmoved.claimsStand m).trans (lock_of_claims hclaims m)).trans (hoff.locks m)
  refine ⟨_, hexec, rfl, ?_, ?_, ?_, ?_, portsStand_trans (portsStand_trans hoff.tables.portsStand hports)
    hmoved.portsStand, hmoved.stored.trans hst'⟩
  · rcases hself with ⟨hpassed, h⟩ | ⟨hpassed, h⟩
    · refine Or.inl ⟨hslot.trans h, hdone ?_⟩
      unfold Slot.passed at hpassed
      simp only [Bool.and_eq_true] at hpassed
      exact hpassed.1.1
    · rw [show ({ s with env := v, live := d } : State).live.slot i = r.live.slot i from hslot.trans h]
      refine Or.inr ⟨hstate, ?_, ?_, ?_, ?_, ?_⟩
      · rintro ⟨h1, h2, h3⟩
        unfold Slot.passed at hpassed
        rw [h1, h2, Bool.and_self, Bool.true_and, ← Bool.not_eq_true, List.all_eq_true] at hpassed
        exact hpassed (fun f hf => by rw [h3 f hf]; rfl)
      · intro before k after_ hks
        have hk : k ∈ sectionIndices rt.path := by rw [hks]; simp
        rw [hoff.pathMarks, released_pathOff _ hk]
        simp only [mem_pathFreed_split hks, hT]
        exact or_false_and
      · rintro k q f hq hf ⟨before, j, after_, hks, hrel, hall, hmem⟩
        refine hoff.given k q f hq (List.mem_flatMap.2 ⟨j, (hfreed j).2 ⟨before, after_, hks, hrel, hall⟩, ?_⟩) hf
        rw [hunits]
        exact hmem
      · intro hnot
        rcases hos with rfl | ⟨hyes, -⟩
        · rw [hoff.overlapMarks, markReleased_nil]
        · rw [show pathDone (r.live.slot i) = true from hyes] at hnot
          cases hnot
      · intro hyes hno before k after_ hks ht
        have hk : k ∈ sectionIndices rt.overlap := by rw [hks]; simp
        rw [hoff.overlapMarks, hosall hyes hno, released_lapOff _ hk ht]
        simp only [mem_lapFreed_split hks, hL, lapSkip_of_kept ht]
        exact or_false_and
  · intro before k after_ hks hrel hall m hm l hl hholder
    have hmem : m ∈ elementsAt rt.path (pathOff v rt ms) :=
      mem_elementsAt_flatMap.2 ⟨k, (hfreed k).2 ⟨before, after_, hks, hrel, hall⟩, by rw [hunits]; exact hm⟩
    have hany : (s.live.control m).lock.any (fun l => l.holder = .slot i) = true := by
      by_contra hn
      have hlm := hlock m
      rw [if_neg (fun h => hn h.2)] at hlm
      have hl' : (s.live.control m).lock = some l := hlm.symm.trans hl
      rw [hl'] at hn
      exact hn (by simp [hholder])
    have hlm := hlock m
    rw [if_pos ⟨List.mem_append_left _ hmem, hany⟩] at hlm
    cases hl.symm.trans hlm
  · intro m
    by_cases hc : m ∈ elementsAt rt.path (pathOff v rt ms) ++ elementsAt rt.overlap os
        ∧ (s.live.control m).lock.any (fun l => l.holder = .slot i) = true
    · obtain ⟨hm, hany⟩ := hc
      refine Or.inr ⟨(hlock m).trans (if_pos ⟨hm, hany⟩), by simpa [Option.any_eq_true] using hany, ?_⟩
      rcases List.mem_append.1 hm with hm | hm
      · obtain ⟨k, hk, hmk⟩ := mem_elementsAt_flatMap.1 hm
        obtain ⟨before, after_, hks, hrel, hall⟩ := (hfreed k).1 hk
        exact Or.inl ⟨before, k, after_, hks, hrel, hall, by rw [← hunits]; exact hmk⟩
      · rcases hos with rfl | ⟨hyes, rfl⟩
        · cases hm
        · obtain ⟨k, hk, hmk⟩ := mem_elementsAt_flatMap.1 hm
          obtain ⟨before, after_, hks, -, hall⟩ := mem_lapFreed.1 hk
          refine Or.inr ⟨hdone hyes, k, by rw [hks]; simp, (hL k).2 (hall k (by simp)), ?_⟩
          rw [← hunits]
          exact elementsAt_subset List.filter_sublist.subset hmk
    · exact Or.inl ((hlock m).trans (if_neg hc))
  · intro j hj
    have htj := (htold' j hj).trans (hmoved.slot j).told
    obtain ⟨h1, h2, h3, h4, -⟩ := told_fields htj
    exact ⟨h1, h2, h3, h4⟩

end Sys2Proof.Machine
end

section
/-! PROOF. What a slot's acts at a section change leave of another slot (R113 to R118). -/

namespace Sys2Proof.Machine

open Sys2Proof

/-! ### Fault entries that no loss of a link ends -/

section entries

variable {k : FaultKind} {v : Env}

theorem entriesStand_of_controls {d e : Live} (h : e.controls = d.controls) : d.entriesStand k e := by
  intro n
  unfold Live.control
  rw [h]

theorem entriesStand_sendStatus (l : Nat) (d : Live) : d.entriesStand k (sendStatus v l d) :=
  entriesStand_of_controls rfl

theorem entriesStand_setReeval (d : Live) (b : Bool) : d.entriesStand k (d.setReeval b) := entriesStand_of_controls rfl

theorem entriesStand_reportChange (b : Nat) (x : Boundary) (r : Option Nat) (d : Live) :
    d.entriesStand k (reportChange b x r d) := by
  unfold reportChange
  exact .ite (calm_report d _).entries (.refl d)

theorem entriesStand_raiseEach {j : FaultKind} (h : k ≠ j) (bs : List BoundaryDef) (d : Live) :
    d.entriesStand k (bs.foldl (fun d b => raise v b.element j none d) d) := by
  induction bs generalizing d with
  | nil => exact Live.entriesStand.refl d
  | cons b bs ih =>
    rw [List.foldl_cons]
    exact Live.entriesStand.trans (entriesStand_raise h b.element none d) (ih _)

theorem entriesStand_reportEach (was : BoundaryDef → Boundary) (bs : List BoundaryDef) (d : Live) :
    d.entriesStand k (bs.foldl (fun e b => reportChange b.number (was b) none e) d) := by
  induction bs generalizing d with
  | nil => exact Live.entriesStand.refl d
  | cons b bs ih =>
    rw [List.foldl_cons]
    exact Live.entriesStand.trans (entriesStand_reportChange b.number (was b) none d) (ih _)

theorem entriesStand_edge (src : Source) (was : Bool) (d : Live) : d.entriesStand k (edge v src was d) := by
  unfold edge latchAll
  exact .ite (.foldl (fun d g => (latch_faults v src g d).entries) _ d) (.refl d)

theorem Quiet.entries {d e : Live} (h : Quiet d e) : d.entriesStand k e := by
  have hloc : Local 0 0 d e := h.loc
  exact hloc.frames.2.2.entries

theorem entriesStand_leaveUp (hk : k ≠ .linkLost) (l : Nat) (st : LinkState) (d : Live) :
    d.entriesStand k (leaveUp v l st d) := by
  let bs := v.linkBoundaries l
  let d1 := d.setLink l (fun x => { x with
    state := st, rx := [], tx := [], silence := none, deferred := false
    nextStatus := if st = .disabled then none else x.nextStatus
    hunt := if st = .disabled then [] else x.hunt })
  let d2 := bs.foldl (fun d b => d.setBoundary b.number Boundary.leaveUp) d1
  let d3 := if st = .lost then bs.foldl (fun d b => raise v b.element .linkLost none d) d2 else d2
  let d4 := d3.report (.linkState l st)
  let d5 := bs.foldl (fun e b => reportChange b.number (d.boundary b.number) none e) d4
  let d6 := evaluateExits v bs d5
  have h1 : d.entriesStand k d1 := entriesStand_of_controls rfl
  have h2 : d1.entriesStand k d2 :=
    .foldl (f := fun d b => d.setBoundary b.number Boundary.leaveUp) (fun d b => entriesStand_of_controls rfl) bs d1
  have h3 : d2.entriesStand k d3 := .ite (entriesStand_raiseEach hk bs d2) (.refl d2)
  have h4 : d3.entriesStand k d4 := (calm_report d3 _).entries
  have h5 : d4.entriesStand k d5 :=
    entriesStand_reportEach (fun b => d.boundary b.number) bs d4
  have h6 : d5.entriesStand k d6 := (calm_evaluateExits v bs d5).entries
  have h : d.entriesStand k d6 := ((((h1.trans h2).trans h3).trans h4).trans h5).trans h6
  have h7 (c : Bool) : d.entriesStand k (if c then d6.setReeval true else d6) :=
    .ite (h.trans (entriesStand_setReeval d6 true)) h
  have h8 (c : Bool) := (h7 c).trans (entriesStand_edge (v := v) (.link l) (d.linkAsserted l) _)
  have h9 (c e : Bool) : d.entriesStand k (if e
      then sendStatus v l (edge v (.link l) (d.linkAsserted l) (if c then d6.setReeval true else d6))
      else edge v (.link l) (d.linkAsserted l) (if c then d6.setReeval true else d6)) :=
    .ite ((h8 c).trans (entriesStand_sendStatus l _)) (h8 c)
  exact h9 (bs.any (fun b => (d.boundary b.number).acceptance = .requested)) ((d.link l).deferred && st = .lost)

theorem entriesStand_sendFrom (hk : k ≠ .linkLost) (b : Nat) (f : Nat → NFrame) (d : Live) :
    d.entriesStand k (sendFrom v b f d) := by
  unfold sendFrom
  split
  · unfold enqueue
    split
    · split
      · exact fun _ => rfl
      · exact entriesStand_leaveUp hk _ _ d
    · exact .refl d
  · exact .refl d

end entries

/-! ### A slot beside the one that acts -/

/-- What another slot's acts leave of a slot. -/
structure SlotKept (s t : Slot) : Prop where
  told : SlotTold s t
  reclear : s.needsExit = false → t.reclear = s.reclear

theorem SlotKept.refl (s : Slot) : SlotKept s s := ⟨SlotTold.refl s, fun _ => rfl⟩

theorem SlotTold.needsExit_eq {s t : Slot} (h : SlotTold s t) : t.needsExit = s.needsExit := by
  cases hs : s.needsExit with
  | true => exact h.goes hs
  | false =>
    have hstate := h.still hs
    unfold Slot.needsExit at *
    rw [hstate, hs]

theorem SlotKept.trans {s t u : Slot} (h : SlotKept s t) (j : SlotKept t u) : SlotKept s u :=
  ⟨h.told.trans j.told, fun hs => (j.reclear (h.told.needsExit_eq.trans hs)).trans (h.reclear hs)⟩

theorem SlotMoves.kept {s t : Slot} (h : SlotMoves s t) : SlotKept s t := ⟨h.told, fun hs => by rw [h.still hs]⟩

/-- What an act leaves of slot `i`, of the stored requests, and of a GONE entry raised now at signal `m`. -/
structure Beside (now : Time) (i m : Nat) (d e : Live) : Prop where
  slot : SlotKept (d.slot i) (e.slot i)
  stored : e.stored = d.stored
  gone : d.raisedGone m .passedAtStop now → e.raisedGone m .passedAtStop now

section beside

variable {now : Time} {i m : Nat} {v : Env}

theorem Beside.refl (d : Live) : Beside now i m d d := ⟨SlotKept.refl _, rfl, id⟩

theorem Beside.trans {d e f : Live} (h : Beside now i m d e) (j : Beside now i m e f) : Beside now i m d f :=
  ⟨h.slot.trans j.slot, j.stored.trans h.stored, fun hg => j.gone (h.gone hg)⟩

theorem Beside.ite {d e f : Live} {c : Prop} [Decidable c] (h : Beside now i m d e) (j : Beside now i m d f) :
    Beside now i m d (if c then e else f) := by
  split
  · exact h
  · exact j

theorem Beside.foldl {α : Type} {f : Live → α → Live} {l : List α} (h : ∀ (d : Live), ∀ a ∈ l, Beside now i m d (f d a))
    (d : Live) : Beside now i m d (l.foldl f d) := by
  induction l generalizing d with
  | nil => exact .refl d
  | cons a l ih => exact (h d a List.mem_cons_self).trans (ih (fun d b hb => h d b (List.mem_cons_of_mem _ hb)) _)

theorem raisedGone_of_entries {d e : Live} (h : d.entriesStand .passedAtStop e)
    (hg : d.raisedGone m .passedAtStop now) : e.raisedGone m .passedAtStop now := by
  obtain ⟨f, hf, hrest⟩ := hg
  exact ⟨f, (h m).trans hf, hrest⟩

theorem beside_of_moves {d e : Live} (hs : SlotMoves (d.slot i) (e.slot i)) (hst : e.stored = d.stored)
    (he : d.entriesStand .passedAtStop e) : Beside now i m d e := ⟨hs.kept, hst, raisedGone_of_entries he⟩

/-- An act that changes neither this slot, nor a stored request, nor a fault map. -/
theorem beside_of_same {d e : Live} (hs : e.slot i = d.slot i) (hst : e.stored = d.stored)
    (he : d.entriesStand .passedAtStop e) : Beside now i m d e :=
  beside_of_moves (by rw [hs]; exact SlotMoves.refl _) hst he

theorem Calm.beside {d e : Live} (h : Calm d e) : Beside now i m d e :=
  beside_of_moves (h.slot i) h.stored h.entries

theorem Quiet.beside {d e : Live} (h : Quiet d e) : Beside now i m d e :=
  beside_of_moves (h.slot i) h.stored h.entries

theorem passedAtStop_apart : FaultKind.apart .passedAtStop := ⟨nofun, nofun, nofun, nofun⟩

theorem beside_setSlot {j : Nat} (hj : i ≠ j) (f : Slot → Slot) (d : Live) : Beside now i m d (d.setSlot j f) :=
  beside_of_same (setSlot_slot_ne hj f) rfl (fun _ => rfl)

/-- An entry raised as PASSED_AT_STOP is GONE. -/
theorem raise_raisedGone (n : Nat) {d : Live} (h : d.hasControl n) :
    (raise v n .passedAtStop none d).raisedGone n .passedAtStop v.now := by
  refine ⟨_, raise_fault v n .passedAtStop none d h, ?_, ?_⟩
  · unfold raisedEntry
    split <;> rfl
  · unfold raisedEntry
    split <;> rfl

theorem beside_raise (n : Nat) (d : Live) : Beside v.now i m d (raise v n .passedAtStop none d) := by
  have h := watched_raise v n .passedAtStop none d
  refine ⟨(h.slot i).kept, h.stored, fun hg => ?_⟩
  by_cases hc : m = n ∧ d.hasControl n
  · rw [hc.1]
    exact raise_raisedGone n hc.2
  · obtain ⟨f, hf, hrest⟩ := hg
    refine ⟨f, ?_, hrest⟩
    rw [← hf]
    refine fault_of_faults ?_ _
    rw [raise_faults, if_neg hc]

/-! ### Acts at an exit boundary -/

theorem beside_setNeeds (b : Nat) {f : Slot → Slot} (hf : ∀ s, SlotKept s (f s)) (d : Live) :
    Beside now i m d (setNeeds b f d) := by
  unfold setNeeds
  split
  · refine ⟨?_, rfl, id⟩
    rw [d.slot_setSlot]
    split
    · exact hf _
    · exact SlotKept.refl _
  · exact .refl d

theorem slotKept_needs (s : Slot) (x y : Bool) (h : s ≠ Slot.free ∨ (x = false ∧ y = false)) :
    SlotKept s { s with dirNeed := x, accNeed := y } := by
  refine ⟨⟨rfl, fun _ => rfl, id, id, fun hs => ?_, fun h n => ⟨h, n⟩⟩, fun _ => rfl⟩
  rcases h with h | ⟨rfl, rfl⟩
  · exact absurd hs h
  · subst hs; rfl

theorem beside_setAcceptance (b : Nat) (acc : Acceptance) (t : Option Time) (d : Live) :
    Beside now i m d (setAcceptance b acc t d) := by
  have hset : Beside now i m d (d.setBoundary b (fun x => { x with
      acceptance := acc, accExpiry := t, awaiting := if acc = .none then false else x.awaiting })) :=
    beside_of_same rfl rfl (fun _ => rfl)
  unfold setAcceptance
  refine .ite (hset.trans (beside_setNeeds b (fun s => ?_) _))
    (.ite (hset.trans (beside_setNeeds b (fun s => ?_) _)) hset)
  · exact ⟨⟨rfl, fun _ => rfl, id, id, fun h => by rw [h]; rfl, fun h n => ⟨h, n⟩⟩, fun _ => rfl⟩
  · split
    · next h => exact slotKept_needs s s.dirNeed true (Or.inl (fun k => by rw [k] at h; cases h))
    · exact SlotKept.refl s

theorem beside_setDirection (b : Nat) (dir : Direction) (d : Live) : Beside now i m d (setDirection b dir d) := by
  have hset : Beside now i m d (d.setBoundary b (fun x => { x with direction := dir })) :=
    beside_of_same rfl rfl (fun _ => rfl)
  unfold setDirection
  refine .ite (hset.trans (beside_setNeeds b (fun s => ?_) _)) hset
  exact ⟨⟨rfl, fun _ => rfl, id, id, fun h => by rw [h]; rfl, fun h n => ⟨h, n⟩⟩, fun _ => rfl⟩

theorem beside_sendFrom (b : Nat) (f : Nat → NFrame) (d : Live) : Beside now i m d (sendFrom v b f d) :=
  have h := sent_sendFrom v b f d
  beside_of_moves (h.slot i) h.stored (entriesStand_sendFrom (k := .passedAtStop) nofun b f d)

theorem beside_dropExit (b : Nat) (d : Live) : Beside now i m d (dropExit v b d) := by
  have hset (d : Live) (f : Boundary → Boundary) : Beside now i m d (d.setBoundary b f) :=
    beside_of_same rfl rfl (fun _ => rfl)
  unfold dropExit tryOffer
  refine Beside.trans (e := if (d.boundary b).acceptance = .none then _ else _) ?_ (.ite
    (((hset _ _).trans (beside_setDirection b .inward _)).trans (beside_sendFrom b _ _)) (.refl _))
  exact .ite (hset d _) (.ite ((hset d _).trans (hset _ _))
    (((hset d _).trans (beside_setAcceptance b .none none _)).trans (beside_sendFrom b _ _)))

theorem beside_releaseExit (j : Nat) (quiet : Bool) (d : Live) : Beside now i m d (releaseExit v j quiet d) := by
  unfold releaseExit
  split
  · split
    · exact .refl d
    · next b _ =>
      exact .ite (.ite (beside_dropExit b d)
        ((beside_dropExit b d).trans (quiet_boundaryEvent v b none (dropExit v b) d).beside)) (.refl d)
  · exact .refl d

/-! ### Acts of another slot -/

variable {j : Nat} (hj : i ≠ j)

include hj

theorem beside_releasePathUnit (k : Nat) (rt : RouteDef) (r : Release) :
    Beside now i m r.live (releasePathUnit v j k rt r).live := by
  let r1 : Release := { r with live := r.live.setSlot j (fun s =>
    { s with pathMarks := markReleased (unitIndices v rt.path k) s.pathMarks }) }
  let r2 := r1.removeLocks v (.slot j) (elementsAt rt.path (unitIndices v rt.path k))
  have h1 : Beside now i m r.live r1.live := beside_setSlot hj _ r.live
  have h2 : Beside now i m r1.live r2.live := by
    obtain ⟨same, hslots, -⟩ := removeLocks_all v (.slot j) (elementsAt rt.path (unitIndices v rt.path k)) r1
    exact beside_of_same (Live.slot_congr hslots i) same.stored (entriesStand_removeLocks _ _ r1)
  have h3 (ks : List Nat) : Beside now i m r2.live (r2.giveUpRecords j ks).live := by
    obtain ⟨same, hother, -, -⟩ := giveUpRecords_all j ks r2
    exact beside_of_same (hother i hj) same.stored (entriesStand_giveUpRecords j ks r2)
  exact (h1.trans h2).trans (h3 _)

theorem beside_releaseOverlapUnit (k : Nat) (rt : RouteDef) (r : Release) :
    Beside now i m r.live (releaseOverlapUnit v j k rt r).live := by
  let ks := (unitIndices v rt.overlap k).filter (fun q => !(markAt (r.live.slot j).overlapMarks q).transferred)
  let r1 : Release := { r with live := r.live.setSlot j (fun s =>
    { s with overlapMarks := markReleased ks s.overlapMarks }) }
  have h1 : Beside now i m r.live r1.live := beside_setSlot hj _ r.live
  obtain ⟨same, hslots, -⟩ := removeLocks_all v (.slot j) (elementsAt rt.overlap ks) r1
  exact h1.trans (beside_of_same (Live.slot_congr hslots i) same.stored (entriesStand_removeLocks _ _ r1))

theorem beside_sweepPath (rt : RouteDef) (ks : List Nat) (r : Release) :
    Beside now i m r.live (sweepPath v j rt ks r).live := by
  induction ks generalizing r with
  | nil => exact .refl _
  | cons k ks ih =>
    rw [sweepPath_cons]
    split
    · exact ih r
    · split
      · exact (beside_releasePathUnit hj k rt r).trans (ih _)
      · exact .refl _

theorem beside_sweepOverlap (rt : RouteDef) (ks : List Nat) (r : Release) :
    Beside now i m r.live (sweepOverlap v j rt ks r).live := by
  induction ks generalizing r with
  | nil => exact .refl _
  | cons k ks ih =>
    rw [sweepOverlap_cons]
    split
    · exact ih r
    · split
      · exact (beside_releaseOverlapUnit hj k rt r).trans (ih _)
      · exact .refl _

theorem beside_endPassage (d : Live) : Beside now i m d (endPassage v j d) := by
  unfold endPassage
  split
  · next rt _ =>
    refine .ite ?_ (.refl d)
    exact ((beside_releaseExit j false d).trans (beside_setSlot hj _ _)).trans
      ((calm_report _ (freeReport rt j none)).beside.trans (beside_of_same rfl rfl (fun _ => rfl)))
  · exact .refl d

theorem beside_releaseTest (n : Nat) (d : Live) : Beside now i m d (releaseTest v j n d) := by
  cases hr : d.routeOf v j with
  | none =>
    unfold releaseTest
    rw [hr]
    exact .refl d
  | some rt =>
    by_cases hs : (d.slot j).state = .entered
    · rw [releaseTest_of_entered hr hs]
      have hswept : Beside now i m d (sweptRelease v j n rt d).live := by
        have h1 : Beside now i m d (if (entrySections rt.path).contains n then
            sweepPath v j rt (sectionIndices rt.path) (Release.start d) else Release.start d).live := by
          split
          · exact beside_sweepPath hj rt _ (Release.start d)
          · exact .refl d
        have h2 (c : Bool) (r : Release) (h : Beside now i m d r.live) :
            Beside now i m d (if c then sweepOverlap v j rt (sectionIndices rt.overlap) r else r).live := by
          split
          · exact h.trans (beside_sweepOverlap hj rt _ r)
          · exact h
        exact h2 _ _ h1
      have hmoved := moved_handOn v (sweptRelease v j n rt d)
      exact (hswept.trans (beside_of_moves (hmoved.slot i) hmoved.stored
        (entriesStand_handOn passedAtStop_apart _))).trans (beside_endPassage hj _)
    · unfold releaseTest
      rw [hr]
      dsimp only
      rw [if_neg hs]
      exact .refl d

theorem beside_startOverlapTimer (d : Live) : Beside now i m d (startOverlapTimer v j d) :=
  .ite (beside_setSlot hj _ d) (.refl d)

theorem beside_markMovement (n : Nat) (rt : RouteDef) (d : Live) : Beside now i m d (markMovement v n j rt d) := by
  unfold markMovement
  exact .ite ((beside_setSlot hj _ d).trans (beside_startOverlapTimer hj _)) (beside_setSlot hj _ d)

theorem beside_enterSlot (rt : RouteDef) (d : Live) : Beside v.now i m d (enterSlot v j rt d) := by
  let d1 := d.setSlot j (fun s => entryMarks v rt { s with state := .entered, reclear := false, hold := none })
  let d2 := computeAspect v rt.entry (d1.report (slotReport d1 j none))
  have h2 : Beside v.now i m d d2 := (beside_setSlot hj _ d).trans
    ((calm_report _ _).beside.trans (calm_computeAspect v rt.entry _).beside)
  let d3 := if (d.slot j).state = .clear then d2 else raise v rt.entry .passedAtStop none d2
  have h3 : Beside v.now i m d d3 := .ite h2 (h2.trans (beside_raise rt.entry d2))
  let d4 := match rt.exit with
    | .boundary _ b =>
      if (d3.boundary b).exitSlot = some j then d3.setBoundary b (fun x => { x with exitEntered := true }) else d3
    | .signal _ => d3
  have h4 : Beside v.now i m d d4 := by
    show Beside v.now i m d (match rt.exit with
      | .boundary _ b =>
        if (d3.boundary b).exitSlot = some j then d3.setBoundary b (fun x => { x with exitEntered := true }) else d3
      | .signal _ => d3)
    split
    · exact .ite (h3.trans (beside_of_same rfl rfl (fun _ => rfl))) h3
    · exact h3
  exact .ite (h4.trans (beside_startOverlapTimer hj d4)) h4

/-- A slot's act at a section change leaves another slot as it was but for a judgement and its needs. -/
theorem beside_sectionAtSlot (n : Nat) (occ movement : Bool) (d : Live) :
    Beside v.now i m d (sectionAtSlot v n occ movement j d) := by
  have henter (rt : RouteDef) (c e : Bool) (f : Live) (hf : Beside v.now i m d f) :
      Beside v.now i m d (if c then enterSlot v j rt d else if e then f else d) :=
    .ite (beside_enterSlot hj rt d) (.ite hf (.refl d))
  unfold sectionAtSlot
  split
  · next rt _ =>
    dsimp only
    split
    · exact henter rt _ _ _ (calm_evaluate v j d).beside
    · exact henter rt _ _ _ (calm_evaluate v j d).beside
    · exact .ite (beside_enterSlot hj rt d) (.refl d)
    · refine .ite (.trans (e := if occ && movement then markMovement v n j rt d else d) ?_
        (beside_releaseTest hj n _)) (.refl d)
      exact .ite (beside_markMovement hj n rt d) (.refl d)
    · exact .refl d
  · exact .refl d

end beside

end Sys2Proof.Machine
end

section
/-! PROOF. The entry of a train into a slot (R113, R114, R117). -/

namespace Sys2Proof.Machine

open Sys2Proof

/-! ### A slot that a train enters -/

/-- A slot's overlap timer started where the conditions of R117 hold. -/
def Slot.timed (v : Env) (s : Slot) : Slot :=
  if !s.overlapDone && s.overlapExpiry.isNone && s.overlapMarks.all (fun m => !m.occ) then
    { s with overlapExpiry := some (after v.now (1000 * v.timing.overlapTime)) }
  else s

/-- A slot that becomes ENTERED, with the marks of R114. -/
def Slot.marked (v : Env) (rt : RouteDef) (s : Slot) : Slot :=
  entryMarks v rt { s with state := .entered, reclear := false, hold := none }

/-- A slot that a train has entered. -/
def Slot.entry (v : Env) (rt : RouteDef) (s : Slot) : Slot :=
  if (sectionIndices rt.path).getLast?.any (fun k => (markAt (s.marked v rt).pathMarks k).occ) then
    (s.marked v rt).timed v
  else s.marked v rt

theorem Slot.timed_body (v : Env) (s : Slot) :
    (s.timed v).state = s.state ∧ (s.timed v).reclear = s.reclear ∧ (s.timed v).hold = s.hold
      ∧ (s.timed v).route = s.route ∧ (s.timed v).flank = s.flank ∧ (s.timed v).pathMarks = s.pathMarks
      ∧ (s.timed v).overlapMarks = s.overlapMarks := by
  unfold Slot.timed
  split <;> exact ⟨rfl, rfl, rfl, rfl, rfl, rfl, rfl⟩

theorem Slot.entry_body (v : Env) (rt : RouteDef) (s : Slot) :
    (s.entry v rt).state = .entered ∧ (s.entry v rt).reclear = false ∧ (s.entry v rt).hold = none
      ∧ (s.entry v rt).route = s.route ∧ (s.entry v rt).flank = s.flank
      ∧ (s.entry v rt).pathMarks = (s.marked v rt).pathMarks
      ∧ (s.entry v rt).overlapMarks = (s.marked v rt).overlapMarks := by
  unfold Slot.entry
  split
  · exact (s.marked v rt).timed_body v
  · exact ⟨rfl, rfl, rfl, rfl, rfl, rfl, rfl⟩

theorem Slot.marked_pathMark {v : Env} {rt : RouteDef} {s : Slot} {k : Nat} {y : Entry} {m : Mark}
    (hy : rt.path[k]? = some y) (hm : s.pathMarks[k]? = some m) :
    (s.marked v rt).pathMarks[k]?
      = some { m with occ := m.occ || k = 0 || (y.position.isNone && v.occupied y.element) } := by
  show ((markEntries _ _ rt.path s.pathMarks).modify 0 (fun m => { m with occ := true }))[k]? = _
  rw [List.getElem?_modify, getElem?_markEntries _ _ _ _ hy hm]
  cases hocc : (y.position.isNone && v.occupied y.element) <;> cases k <;> simp

theorem Slot.marked_overlapMark {v : Env} {rt : RouteDef} {s : Slot} {k : Nat} {y : Entry} {m : Mark}
    (hy : rt.overlap[k]? = some y) (hm : s.overlapMarks[k]? = some m) :
    (s.marked v rt).overlapMarks[k]?
      = some { m with occ := m.occ || (!m.released && !m.transferred && y.position.isNone
          && v.occupied y.element) } := by
  show (markEntries _ _ rt.overlap s.overlapMarks)[k]? = _
  rw [getElem?_markEntries _ _ _ _ hy hm]
  obtain ⟨occ, released, transferred⟩ := m
  cases hocc : (y.position.isNone && v.occupied y.element) <;> cases released <;> cases transferred <;>
    simp [hocc]

theorem Slot.overlapDone_eq_false (s : Slot) :
    s.overlapDone = false ↔ ∃ m ∈ s.overlapMarks, m.released = false ∧ m.transferred = false := by
  unfold Slot.overlapDone
  rw [List.all_eq_false]
  simp

theorem Slot.entry_overlapExpiry (v : Env) (rt : RouteDef) (s : Slot) :
    (s.entry v rt).overlapExpiry =
      if (sectionIndices rt.path).getLast?.any (fun k => (markAt (s.entry v rt).pathMarks k).occ) = true
          ∧ (∃ m ∈ (s.entry v rt).overlapMarks, m.released = false ∧ m.transferred = false)
          ∧ s.overlapExpiry = none ∧ (∀ m ∈ (s.entry v rt).overlapMarks, m.occ = false)
        then some (after v.now (1000 * v.timing.overlapTime))
        else s.overlapExpiry := by
  obtain ⟨-, -, -, -, -, hpath, hlap⟩ := s.entry_body v rt
  rw [hpath, hlap]
  simp only [← Slot.overlapDone_eq_false]
  have hexp : (s.marked v rt).overlapExpiry = s.overlapExpiry := rfl
  unfold Slot.entry
  by_cases hlast : (sectionIndices rt.path).getLast?.any (fun k => (markAt (s.marked v rt).pathMarks k).occ) = true
  · rw [if_pos hlast]
    unfold Slot.timed
    by_cases hc : (s.marked v rt).overlapDone = false ∧ s.overlapExpiry = none
        ∧ ∀ m ∈ (s.marked v rt).overlapMarks, m.occ = false
    · rw [if_pos (by simpa [hexp, and_assoc] using hc), if_pos ⟨hlast, hc⟩]
    · rw [if_neg (fun h => hc (by simpa [hexp, and_assoc] using h)), if_neg (fun h => hc h.2)]
      exact hexp
  · rw [if_neg hlast, if_neg (fun h => hlast h.1)]
    exact hexp

/-! ### What an entry does (R114) -/

/-- The boundary of the exit records the entry. -/
def recordEntry (rt : RouteDef) (i : Nat) (d : Live) : Live :=
  match rt.exit with
  | .boundary _ b =>
    if (d.boundary b).exitSlot = some i then d.setBoundary b (fun x => { x with exitEntered := true }) else d
  | .signal _ => d

theorem recordEntry_stands (rt : RouteDef) (i : Nat) (d : Live) :
    (recordEntry rt i d).slots = d.slots ∧ (recordEntry rt i d).controls = d.controls
      ∧ (recordEntry rt i d).stored = d.stored ∧ ∀ l, (recordEntry rt i d).lane l = d.lane l := by
  unfold recordEntry
  split
  · split
    · exact ⟨rfl, rfl, rfl, fun l => by cases l <;> rfl⟩
    · exact ⟨rfl, rfl, rfl, fun _ => rfl⟩
  · exact ⟨rfl, rfl, rfl, fun _ => rfl⟩

theorem recordEntry_exit {rt : RouteDef} {i y b : Nat} {d : Live} (hx : rt.exit = .boundary y b)
    (hs : (d.boundary b).exitSlot = some i) (hb : d.hasBoundary b) :
    ((recordEntry rt i d).boundary b).exitEntered = true := by
  unfold recordEntry
  simp only [hx, hs, if_true]
  rw [d.boundary_setBoundary_self hb _ (fun _ => by rfl)]

theorem startOverlapTimer_stands (v : Env) (i : Nat) (d : Live) :
    (startOverlapTimer v i d).controls = d.controls ∧ (startOverlapTimer v i d).stored = d.stored
      ∧ (startOverlapTimer v i d).boundaries = d.boundaries ∧ (∀ l, (startOverlapTimer v i d).lane l = d.lane l)
      ∧ ∀ j, j ≠ i → (startOverlapTimer v i d).slot j = d.slot j := by
  unfold startOverlapTimer
  dsimp only
  split
  · exact ⟨rfl, rfl, rfl, fun l => by cases l <;> rfl, fun j hj => setSlot_slot_ne hj _⟩
  · exact ⟨rfl, rfl, rfl, fun _ => rfl, fun _ _ => rfl⟩

theorem startOverlapTimer_slot {v : Env} {i : Nat} {d : Live} (hi : i < d.slots.length) :
    (startOverlapTimer v i d).slot i = (d.slot i).timed v := by
  unfold startOverlapTimer Slot.timed
  dsimp only
  split
  · exact setSlot_slot_self hi _
  · rfl

/-- What the entry of a train into slot `i` leaves. -/
structure Entered (v : Env) (i : Nat) (rt : RouteDef) (d e : Live) : Prop where
  slot : e.slot i = (d.slot i).entry v rt
  others : ∀ j, j ≠ i → SlotMoves (d.slot j) (e.slot j)
  stored : e.stored = d.stored
  control : ∀ n, (e.control n).base = (d.control n).base
  silent : (d.slot i).state = .clear → d.faultsStand e
  gone : (d.slot i).state ≠ .clear → d.hasControl rt.entry → e.raisedGone rt.entry .passedAtStop v.now
  made : d.made (.routeState ((d.slot i).route.getD 0) (some i) .entered none) e
  exit : ∀ y b, rt.exit = .boundary y b → (d.boundary b).exitSlot = some i → d.hasBoundary b →
    (e.boundary b).exitEntered = true

theorem entered_enterSlot {v : Env} {i : Nat} (rt : RouteDef) {d : Live} (ha : (d.slot i).active = true) :
    Entered v i rt d (enterSlot v i rt d) := by
  let d1 := d.setSlot i (Slot.marked v rt)
  let r := slotReport d1 i none
  let d2 := computeAspect v rt.entry (d1.report r)
  let d3 := if (d.slot i).state = .clear then d2 else raise v rt.entry .passedAtStop none d2
  let d4 := recordEntry rt i d3
  have hend : enterSlot v i rt d = if (sectionIndices rt.path).getLast?.any (fun k =>
      (markAt (d4.slot i).pathMarks k).occ) then startOverlapTimer v i d4 else d4 := rfl
  have hlt := active_lt ha
  have hself : d1.slot i = (d.slot i).marked v rt := setSlot_slot_self hlt _
  have hcalm : Calm d1 d2 := (calm_report d1 r).trans (calm_computeAspect v rt.entry _)
  have hwatched : Watched d1 d3 := by
    by_cases hc : (d.slot i).state = .clear
    · rw [show d3 = d2 from if_pos hc]
      exact hcalm.watched
    · rw [show d3 = _ from if_neg hc]
      exact hcalm.watched.trans (watched_raise v rt.entry .passedAtStop none d2)
  obtain ⟨hslots, hcontrols, hstored, hlanes⟩ := recordEntry_stands rt i d3
  have hslot4 : d4.slot i = (d.slot i).marked v rt :=
    (Live.slot_congr hslots i).trans (((hwatched.slot i).still (by rw [hself]; rfl)).trans hself)
  have hlt4 : i < d4.slots.length := by
    rw [show d4.slots = d3.slots from hslots, hwatched.slotCount]
    simpa [d1] using hlt
  obtain ⟨tcontrols, tstored, tboundaries, tlanes, tothers⟩ := startOverlapTimer_stands v i d4
  have hstands : (enterSlot v i rt d).controls = d4.controls ∧ (enterSlot v i rt d).stored = d4.stored
      ∧ (enterSlot v i rt d).boundaries = d4.boundaries ∧ (∀ l, (enterSlot v i rt d).lane l = d4.lane l)
      ∧ ∀ j, j ≠ i → (enterSlot v i rt d).slot j = d4.slot j := by
    rw [hend]
    split
    · exact ⟨tcontrols, tstored, tboundaries, tlanes, tothers⟩
    · exact ⟨rfl, rfl, rfl, fun _ => rfl, fun _ _ => rfl⟩
  obtain ⟨econtrols, estored, eboundaries, elanes, eothers⟩ := hstands
  have hcontrol (n : Nat) : (enterSlot v i rt d).control n = d3.control n := by
    unfold Live.control
    rw [econtrols, show d4.controls = d3.controls from hcontrols]
  refine ⟨?_, fun j hj => ?_, estored.trans (hstored.trans hwatched.stored), fun n => ?_, fun hc n => ?_,
    fun hc hn => ?_, ?_, fun y b hx hs hb => ?_⟩
  · rw [hend, hslot4]
    unfold Slot.entry
    split
    · rw [startOverlapTimer_slot hlt4, hslot4]
    · exact hslot4
  · rw [eothers j hj, show d4.slot j = d3.slot j from Live.slot_congr hslots j]
    have := hwatched.slot j
    rwa [show d1.slot j = d.slot j from setSlot_slot_ne hj _] at this
  · rw [hcontrol]
    exact hwatched.control n
  · rw [hcontrol, show d3 = d2 from if_pos hc]
    exact hcalm.faultsStand n
  · have hctl : d2.hasControl rt.entry := by
      unfold Live.hasControl
      rw [hcalm.watched.nums]
      exact hn
    have hraised := raise_raisedGone (v := v) rt.entry hctl
    rw [← show d3 = _ from if_neg hc] at hraised
    obtain ⟨f, hf, hrest⟩ := hraised
    exact ⟨f, by rw [hcontrol]; exact hf, hrest⟩
  · have hr : r = .routeState ((d.slot i).route.getD 0) (some i) .entered none := by
      show slotReport d1 i none = _
      unfold slotReport
      rw [hself]
      rfl
    have hmade := made_report d1 r
    have hlast : ∀ l, ((d1.report r).lane l).reports <+: ((enterSlot v i rt d).lane l).reports := by
      intro l
      rw [elanes, show d4.lane l = d3.lane l from hlanes l]
      by_cases hc : (d.slot i).state = .clear
      · rw [show d3 = d2 from if_pos hc]
        exact (calm_computeAspect v rt.entry _).appended l
      · rw [show d3 = _ from if_neg hc]
        exact ((calm_computeAspect v rt.entry _).appended l).trans ((watched_raise v _ _ _ d2).appended l)
    rw [← hr]
    exact (hmade.mono hlast).of_same (fun l => by cases l <;> rfl)
  · have hb3 : d3.boundary b = d.boundary b := Live.boundary_congr hwatched.boundaries b
    rw [Live.boundary_congr eboundaries]
    refine recordEntry_exit hx (by rw [hb3]; exact hs) ?_
    unfold Live.hasBoundary
    rw [hwatched.boundaries]
    exact hb

/-! ### A section that turns OCCUPIED (R13, R15) -/

/-- An element record after a lane's report of OCCUPIED. -/
def Env.reportedOccupied (v : Env) (l : LaneId) (e : Element) : Element := v.derive (e.setView l (some .occupied))

/-- In NORMAL a report of OCCUPIED, agreed or not, makes a section OCCUPIED. -/
theorem reportedOccupied_occupied {v : Env} {l : LaneId} {e : Element} (hm : v.mode = .normal)
    (hs : e.isSection = true) (ha : e.agreed ≠ .occupied) :
    (v.reportedOccupied l e).agreed = .occupied ∧ (v.reportedOccupied l e).occupied = true
      ∧ (v.reportedOccupied l e).isSection = true ∧ (v.reportedOccupied l e).num = e.num := by
  have hsafe : e.dfn.kind.safe = .occupied := by
    unfold Element.isSection at hs
    cases hk : e.dfn.kind <;> simp_all [KindDef.safe]
  have hagreed : v.deriveAgreed (e.setView l (some .occupied)) = .occupied := by
    rw [Env.deriveAgreed_normal hm _ l .occupied (by simp [Element.view_setView])]
    split
    · rfl
    · simpa using hsafe
  have hs' : ∀ f : Element, f.dfn = e.dfn → f.isSection = true := fun f hf => by
    unfold Element.isSection at *
    rw [hf]
    exact hs
  refine ⟨?_, ?_, hs' _ (by simp [Env.reportedOccupied]), by simp [Env.reportedOccupied]⟩
  · simpa [Env.reportedOccupied] using hagreed
  · have hne : ¬ Detection.occupied = (e.setView l (some .occupied)).agreed := by
      simpa using fun h => ha h.symm
    have hsection : ({ e.setView l (some .occupied) with agreed := .occupied } : Element).isSection = true :=
      hs' _ (by simp)
    have hfilter : (({ e.setView l (some .occupied) with agreed := .occupied } : Element).filter v.now).occupied
        = true := by
      unfold Element.filter
      rw [hsection]
      simp only [Bool.not_true, Bool.false_eq_true, if_false, if_true]
      split
      · next h => exact h
      · rfl
    unfold Env.reportedOccupied Env.derive
    rw [Env.timeDiscrepancy_occupied, hagreed]
    unfold Element.agree
    rw [if_neg hne]
    exact hfilter


/-- A DETECT of OCCUPIED for a section: the change handed on, and the end of a discrepancy. -/
theorem exec_detect_occupied {x : Exchange} {n : Nat} {e : Element} {s : State} (ho : s.env.operating = true)
    (hm : s.env.mode = .normal) (he : s.env.element? n = some e) (hs : e.isSection = true)
    (hv : e.view x.lane ≠ some .occupied) (ha : e.agreed ≠ .occupied) (hocc : e.occupied = false) :
    ∃ (v : Env) (ends : Bool), v = (s.exchange x).env.setElement n ((s.exchange x).env.reportedOccupied x.lane)
      ∧ v.occupied n = true ∧ (∀ m, m ≠ n → v.element? m = s.env.element? m)
      ∧ exec (.detect x [(n, 1)]) s = .next { s.exchange x with
          env := v
          live := serve v (if ends then endFault v n .discrepant (sectionChanged v n true true (s.exchange x).live)
            else sectionChanged v n true true (s.exchange x).live) } := by
  let u := (s.exchange x).env
  have heu : u.element? n = some e := (element?_exchange s x n).trans he
  have hmu : u.mode = .normal := by simpa [u, State.exchange_env] using hm
  have hnum : e.num = n := by simpa [Env.element?] using List.find?_some he
  obtain ⟨hagreed, hoccupied, hsection, hnums⟩ := reportedOccupied_occupied (l := x.lane) hmu hs ha
  have hkind : (u.reportedOccupied x.lane e).isSignal = false ∧ (u.reportedOccupied x.lane e).isPoint = false := by
    unfold Element.isSection at hsection
    unfold Element.isSignal Element.isPoint
    cases hk : (u.reportedOccupied x.lane e).dfn.kind <;> simp_all
  have htakes : e.dfn.kind.takes .occupied = true := by
    unfold Element.isSection at hs
    cases hk : e.dfn.kind <;> simp_all [KindDef.takes]
  have hf : ∀ f : Element, (u.reportedOccupied x.lane f).num = f.num := fun f => by simp [Env.reportedOccupied]
  let v := u.setElement n (u.reportedOccupied x.lane)
  refine ⟨v, e.discrepant && !(u.reportedOccupied x.lane e).discrepant, rfl, ?_, fun m hmn => ?_, ?_⟩
  · unfold Env.occupied
    rw [element?_setElement_self (u.reportedOccupied x.lane) hf heu]
    exact hoccupied
  · rw [element?_setElement_ne (u.reportedOccupied x.lane) hf hmn]
    exact element?_exchange s x m
  · show Host.Outcome.next ((s.exchange x).applyPairs x.lane [(n, 1)]) = _
    rw [applyPairs_one ((operating_exchange s x).trans ho) (Env.present_of_normal hmu x.lane),
      applyPair_new heu (y := .occupied) rfl htakes hv]
    unfold State.updateElement
    rw [show (s.exchange x).env.element? n = some e from heu]
    have hhand : handOnElement v true e (u.reportedOccupied x.lane e) (s.exchange x).live
        = serve v (if e.discrepant && !(u.reportedOccupied x.lane e).discrepant then
            endFault v n .discrepant (sectionChanged v n true true (s.exchange x).live)
          else sectionChanged v n true true (s.exchange x).live) := by
      unfold handOnElement
      have hne : ¬ e.agreed = (u.reportedOccupied x.lane e).agreed := by rw [hagreed]; exact ha
      simp only [hkind.1, hkind.2, if_neg hne, hocc, hoccupied, hnums, hnum, Bool.false_eq_true, if_false]
    exact congrArg (fun d => Host.Outcome.next { s.exchange x with env := v, live := d }) hhand

/-! ### A section change at the slots and after them -/

/-- Several slots' acts in order, around that of one of them. -/
theorem eachSlot_around {f : Nat → Live → Live} {i : Nat} {d : Live} (hi : i < d.slots.length)
    {R : Live → Live → Prop} (refl : ∀ d, R d d) (trans : ∀ {d e g}, R d e → R e g → R d g)
    (h : ∀ j, i ≠ j → ∀ d, R d (f j d)) : ∃ d1, R d d1 ∧ R (f i d1) (d.eachSlot f) := by
  have hfold : ∀ (l : List Nat) (d : Live), i ∉ l → R d (l.foldl (fun d j => f j d) d) := by
    intro l
    induction l with
    | nil => exact fun d _ => refl d
    | cons j l ih =>
      intro d hnot
      rw [List.mem_cons, not_or] at hnot
      exact trans (h j hnot.1 d) (ih _ hnot.2)
  obtain ⟨l1, l2, hl⟩ := List.append_of_mem (List.mem_range.2 hi)
  have hnodup : (l1 ++ i :: l2).Nodup := hl ▸ List.nodup_range
  have h1 : i ∉ l1 := fun hmem => (List.nodup_append.1 hnodup).2.2 i hmem i (by simp) rfl
  have h2 : i ∉ l2 := (List.nodup_cons.1 (List.nodup_append.1 hnodup).2.1).1
  refine ⟨l1.foldl (fun d j => f j d) d, hfold l1 d h1, ?_⟩
  unfold Live.eachSlot Live.slotIds
  rw [hl, List.foldl_append, List.foldl_cons]
  exact hfold l2 _ h2

theorem sectionAtSlot_of_enters {v : Env} {n i : Nat} {rt : RouteDef} {d : Live} (hr : d.routeOf v i = some rt)
    (hhead : rt.path.head?.any (fun y => y.element = n) = true) (hmark : (markAt (d.slot i).pathMarks 0).occ = false)
    (hs : (d.slot i).state = .clear ∨ (d.slot i).state = .held ∨ (d.slot i).state = .cancelling) :
    sectionAtSlot v n true true i d = enterSlot v i rt d := by
  unfold sectionAtSlot
  rw [hr]
  rcases hs with hs | hs | hs <;> simp [hs, hhead, hmark]

/-- What the speed records measured by a movement change: nothing else. -/
structure Measured (d e : Live) : Prop where
  slots : e.slots = d.slots
  boundaries : e.boundaries = d.boundaries
  stored : e.stored = d.stored
  lane : ∀ l, e.lane l = d.lane l
  control : ∀ m, { e.control m with speed := none } = { d.control m with speed := none }

theorem measured_measure (v : Env) (n : Nat) (d : Live) : Measured d (measure v n d) := by
  unfold measure
  refine List.foldlRecOn (motive := fun e => Measured d e) v.elements _ ⟨rfl, rfl, rfl, fun _ => rfl, fun _ => rfl⟩
    (fun e h x _ => ?_)
  split
  · dsimp only
    split
    · refine ⟨h.slots, h.boundaries, h.stored, fun l => by rw [← h.lane l]; cases l <;> rfl, fun m => ?_⟩
      rw [e.control_setControl x.num m _ (fun _ => by rfl)]
      split
      · next hm => rw [← h.control m, hm.1]
      · exact h.control m
    · exact h
  · exact h

theorem Measured.entries {k : FaultKind} {d e : Live} (h : Measured d e) : d.entriesStand k e := by
  intro m
  have : ({ e.control m with speed := none } : Control).fault? k
      = ({ d.control m with speed := none } : Control).fault? k := by rw [h.control m]
  exact this

/-- A movement marked at the berths. -/
theorem beside_berthChanged {now : Time} {i m : Nat} (v : Env) (n b : Nat) (d : Live) :
    Beside now i m d (berthChanged v n true true b d) := by
  unfold berthChanged
  split
  · exact .refl d
  · dsimp only
    split
    · exact .refl d
    · exact beside_of_same rfl rfl (fun _ => rfl)

theorem beside_endFault {now : Time} {i m : Nat} (v : Env) (n : Nat) (d : Live) :
    Beside now i m d (endFault v n .discrepant d) :=
  have h := watched_endFault v n .discrepant d
  beside_of_moves (h.slot i) h.stored (entriesStand_endFault (k := .passedAtStop) (j := .discrepant) nofun n d)


/-- Slots whose acts keep slot `i`'s route keep the number of the records too. -/
def Around (now : Time) (i m : Nat) (d e : Live) : Prop :=
  Beside now i m d e ∧ e.controls.map Control.num = d.controls.map Control.num

theorem around_sectionAtSlot {v : Env} {i j m : Nat} (hj : i ≠ j) (n : Nat) (d : Live) :
    Around v.now i m d (sectionAtSlot v n true true j d) :=
  ⟨beside_sectionAtSlot hj n true true d, (whole_sectionAtSlot v n true true j d).nums⟩

/-- What comes after the slots at a movement: the speeds measured, the berths marked, and the end of a
discrepancy. -/
def afterSlots (v : Env) (n : Nat) (ends : Bool) (d : Live) : Live :=
  let d1 := v.defs.boundaries.foldl (fun d bd => berthChanged v n true true bd.number d) (measure v n d)
  if ends then endFault v n .discrepant d1 else d1

theorem beside_afterSlots {now : Time} {i m : Nat} (v : Env) (n : Nat) (ends : Bool) (d : Live) :
    Beside now i m d (afterSlots v n ends d) := by
  have hm := measured_measure v n d
  have h1 : Beside now i m d (measure v n d) :=
    beside_of_same (Live.slot_congr hm.slots i) hm.stored hm.entries
  have h2 := h1.trans (Beside.foldl (f := fun d (bd : BoundaryDef) => berthChanged v n true true bd.number d)
    (l := v.defs.boundaries) (fun d bd _ => beside_berthChanged v n bd.number d) _)
  exact .ite (h2.trans (beside_endFault v n _)) h2

theorem sectionChanged_occupied (v : Env) (n : Nat) (ends : Bool) (d : Live) :
    (if ends then endFault v n .discrepant (sectionChanged v n true true d) else sectionChanged v n true true d)
      = afterSlots v n ends (d.eachSlot (sectionAtSlot v n true true)) := rfl

/-- The slot that a train enters, and the entry of PASSED_AT_STOP. -/
theorem eachSlot_enters {v : Env} {n i : Nat} {rt : RouteDef} {d : Live} (hr : d.routeOf v i = some rt)
    (hhead : rt.path.head?.any (fun y => y.element = n) = true) (hmark : (markAt (d.slot i).pathMarks 0).occ = false)
    (hs : (d.slot i).state = .clear ∨ (d.slot i).state = .held ∨ (d.slot i).state = .cancelling)
    (hc : d.hasControl rt.entry) :
    ∃ s1 : Slot, SlotKept (d.slot i) s1
      ∧ SlotKept (s1.entry v rt) ((d.eachSlot (sectionAtSlot v n true true)).slot i)
      ∧ (d.eachSlot (sectionAtSlot v n true true)).stored = d.stored
      ∧ ((d.slot i).state = .cancelling →
        (d.eachSlot (sectionAtSlot v n true true)).raisedGone rt.entry .passedAtStop v.now) := by
  obtain ⟨d1, ⟨h1, hnums⟩, h2, -⟩ := eachSlot_around (f := sectionAtSlot v n true true) (d := d)
    (R := Around v.now i rt.entry) (active_lt (routeOf_active hr)) (fun d => ⟨.refl d, rfl⟩)
    (fun h k => ⟨h.1.trans k.1, k.2.trans h.2⟩) (fun j hj d => around_sectionAtSlot hj n d)
  have htold := h1.slot.told
  obtain ⟨hroute, hpath, -⟩ := told_fields htold
  have hr1 : d1.routeOf v i = some rt := (routeOf_eq hroute htold.active_eq).trans hr
  have hs1 : (d1.slot i).state = .clear ∨ (d1.slot i).state = .held ∨ (d1.slot i).state = .cancelling := by
    have hgoes (hn : (d.slot i).needsExit = true) (hset : (d.slot i).state ≠ .setting) :
        (d1.slot i).state = .clear ∨ (d1.slot i).state = .held ∨ (d1.slot i).state = .cancelling := by
      have hneeds := htold.goes hn
      have hnot : (d1.slot i).state ≠ .setting := fun h => hset (htold.set h)
      unfold Slot.needsExit at hneeds
      simp only [Bool.or_eq_true, decide_eq_true_eq, hnot, false_or] at hneeds
      exact hneeds.imp_right Or.inl
    rcases hs with hs | hs | hs
    · exact hgoes (by simp [Slot.needsExit, hs]) (by rw [hs]; nofun)
    · exact hgoes (by simp [Slot.needsExit, hs]) (by rw [hs]; nofun)
    · exact Or.inr (Or.inr ((htold.still (by simp [Slot.needsExit, hs])).trans hs))
  rw [sectionAtSlot_of_enters hr1 hhead (by rw [hpath]; exact hmark) hs1] at h2
  have hentered := entered_enterSlot (v := v) rt (routeOf_active hr1)
  refine ⟨d1.slot i, h1.slot, by rw [← hentered.slot]; exact h2.slot,
    h2.stored.trans (hentered.stored.trans h1.stored), fun hcan => h2.gone (hentered.gone ?_ ?_)⟩
  · rw [htold.still (by simp [Slot.needsExit, hcan]), hcan]
    nofun
  · unfold Live.hasControl
    rw [hnums]
    exact hc


/-! ### What comes after the slots, with no berth -/

/-- What the acts after the slots leave, but for the fault map of the section. -/
structure Handed (n : Nat) (d e : Live) : Prop where
  slot : ∀ j, SlotMoves (d.slot j) (e.slot j)
  boundaries : e.boundaries = d.boundaries
  appended : ∀ l, (d.lane l).reports <+: (e.lane l).reports
  locks : ∀ m, (e.control m).lock = (d.control m).lock ∧ (e.control m).normalCount = (d.control m).normalCount
    ∧ (e.control m).reverseCount = (d.control m).reverseCount ∧ (e.control m).holdCount = (d.control m).holdCount
  faults : ∀ m, m ≠ n → (e.control m).faults = (d.control m).faults

theorem locks_of_base {c k : Control} (h : c.base = k.base) : c.lock = k.lock ∧ c.normalCount = k.normalCount
    ∧ c.reverseCount = k.reverseCount ∧ c.holdCount = k.holdCount :=
  ⟨(congrArg Control.lock h : c.base.lock = k.base.lock),
    (congrArg Control.normalCount h : c.base.normalCount = k.base.normalCount),
    (congrArg Control.reverseCount h : c.base.reverseCount = k.base.reverseCount),
    (congrArg Control.holdCount h : c.base.holdCount = k.base.holdCount)⟩

theorem Measured.handed {n : Nat} {d e : Live} (h : Measured d e) : Handed n d e := by
  refine ⟨fun j => ?_, h.boundaries, fun l => by rw [h.lane l], fun m => ?_, fun m _ => ?_⟩
  · rw [Live.slot_congr h.slots]
    exact SlotMoves.refl _
  · obtain ⟨h1, h2, h3, h4⟩ := locks_of_base (congrArg Control.base (h.control m))
    exact ⟨h1, h2, h3, h4⟩
  · have : ({ e.control m with speed := none } : Control).faults
        = ({ d.control m with speed := none } : Control).faults := congrArg Control.faults (h.control m)
    exact this

theorem Handed.trans {n : Nat} {d e f : Live} (h : Handed n d e) (k : Handed n e f) : Handed n d f where
  slot j := (h.slot j).trans (k.slot j)
  boundaries := k.boundaries.trans h.boundaries
  appended l := (h.appended l).trans (k.appended l)
  locks m := by
    obtain ⟨h1, h2, h3, h4⟩ := h.locks m
    obtain ⟨k1, k2, k3, k4⟩ := k.locks m
    exact ⟨k1.trans h1, k2.trans h2, k3.trans h3, k4.trans h4⟩
  faults m hm := (k.faults m hm).trans (h.faults m hm)

theorem endFault_faults_ne {v : Env} {n m : Nat} {k : FaultKind} {d : Live} (hm : m ≠ n) :
    ((endFault v n k d).control m).faults = (d.control m).faults := by
  unfold endFault
  split
  · split
    · next f _ _ =>
      let d1 := d.setControl n (fun c => { c with faults := insertFault { f with active := false } c.faults })
      have h1 : (d1.control m).faults = (d.control m).faults := by
        show ((d.setControl n _).control m).faults = _
        rw [d.control_setControl n m _ (fun _ => by rfl), if_neg (fun h => hm h.1)]
      exact ((calm_faultHandOn v n k _).faultsStand m).trans (((calm_report d1 _).faultsStand m).trans h1)
    · rfl
  · rfl

theorem handed_endFault (v : Env) (n : Nat) (k : FaultKind) (d : Live) : Handed n d (endFault v n k d) :=
  have h := watched_endFault v n k d
  ⟨h.slot, h.boundaries, h.appended, fun m => locks_of_base (h.control m), fun _ hm => endFault_faults_ne hm⟩

theorem handed_afterSlots {v : Env} {n : Nat} (ends : Bool) {d : Live}
    (hberth : ∀ bd ∈ v.defs.boundaries, n ∉ bd.berth) : Handed n d (afterSlots v n ends d) := by
  have hberths : v.defs.boundaries.foldl (fun d bd => berthChanged v n true true bd.number d) (measure v n d)
      = measure v n d :=
    foldl_of_fixed (fun bd _ => berthChanged_of_not_mem true true (fun bd' hbd' =>
      hberth bd' (List.mem_of_find?_eq_some hbd')))
  unfold afterSlots
  dsimp only
  rw [hberths]
  have hm : Handed n d (measure v n d) := (measured_measure v n d).handed
  split
  · exact hm.trans (handed_endFault v n .discrepant _)
  · exact hm

/-- Settles O21: the entry at the slot, with the acts of the other slots around it. -/
theorem trainEntersSlot : Obligations.TrainEntersSlot := by
  intro x n i e rt s ho hm he hs hv ha hocc hrt hhead hmark hctl hst hstate
  obtain ⟨v, ends, hv', hvn, hothers, hexec⟩ := exec_detect_occupied ho hm he hs hv ha hocc
  obtain ⟨a, b, A, B, hx⟩ := exchange_eq s x
  rw [hx] at hv' hexec ⊢
  rw [sectionChanged_occupied] at hexec
  let d : Live := { s.live with laneA := A, laneB := B }
  let d1 := d.eachSlot (sectionAtSlot v n true true)
  have hnow : v.now = s.env.now := by rw [hv']; rfl
  have htiming : v.timing = s.env.timing := by rw [hv']; rfl
  have hdefs : v.defs = s.env.defs := by rw [hv']; rfl
  have hroutes (j : Nat) : d.routeOf v j = s.live.routeOf s.env j := by rw [hv']; rfl
  have hr : d.routeOf v i = some rt := (hroutes i).trans hrt
  obtain ⟨s1, h1, h2, hstored, hgone⟩ := eachSlot_enters (d := d) hr hhead hmark hstate hctl
  have hafter : Beside v.now i rt.entry d1 (afterSlots v n ends d1) := beside_afterSlots v n ends d1
  have hst1 : (afterSlots v n ends d1).stored = [] := hafter.stored.trans (hstored.trans hst)
  rw [show d.eachSlot (sectionAtSlot v n true true) = d1 from rfl, serve_of_no_stored _ _ hst1] at hexec
  have hkept := h2.trans hafter.slot
  obtain ⟨hentered, hreclear, hhold, hroute, hflank, hpath, hlap⟩ := s1.entry_body v rt
  have hquiet : (s1.entry v rt).needsExit = false := by unfold Slot.needsExit; rw [hentered]; rfl
  obtain ⟨troute, tpath, tlap, tflank, texpiry, thold, -⟩ := told_fields hkept.told
  obtain ⟨broute, bpath, blap, bflank, bexpiry, -⟩ := told_fields h1.told
  have hpathMarks : ((afterSlots v n ends d1).slot i).pathMarks = (s1.marked v rt).pathMarks := tpath.trans hpath
  have hlapMarks : ((afterSlots v n ends d1).slot i).overlapMarks = (s1.marked v rt).overlapMarks := tlap.trans hlap
  refine ⟨_, hexec, rfl, hvn, hothers, (hkept.told.still hquiet).trans hentered,
    (hkept.reclear hquiet).trans hreclear, thold.trans hhold, (troute.trans hroute).trans broute,
    (tflank.trans hflank).trans bflank, fun k y m hy hmk => ?_, fun k y m hy hmk => ?_, ?_, fun hcan => ?_, ?_⟩
  · exact (congrArg (fun ms : List Mark => ms[k]?) hpathMarks).trans
      (Slot.marked_pathMark hy ((congrArg (fun ms : List Mark => ms[k]?) bpath).trans hmk))
  · exact (congrArg (fun ms : List Mark => ms[k]?) hlapMarks).trans
      (Slot.marked_overlapMark hy ((congrArg (fun ms : List Mark => ms[k]?) blap).trans hmk))
  · have hexp := texpiry.trans (s1.entry_overlapExpiry v rt)
    rw [bexpiry, ← tpath, ← tlap, hnow, htiming] at hexp
    exact hexp
  · have := hafter.gone (hgone hcan)
    rw [hnow] at this
    exact this
  · intro honly hberth
    have honly' : d.onlyAt v n i := fun j hj rt' hrt' => honly j hj rt' ((hroutes j).symm.trans hrt')
    have hat := sectionAtSlot_of_enters hr hhead hmark hstate
    have entered : Entered v i rt d (enterSlot v i rt d) := entered_enterSlot rt (routeOf_active hr)
    have hD : d1 = enterSlot v i rt d := (eachSlot_sectionAtSlot_of_only honly' (active_lt (routeOf_active hr))
      (by rw [hat]; exact fun j hj => (entered.others j hj).told)).trans hat
    rw [← hD] at entered
    have handed : Handed n d1 (afterSlots v n ends d1) := handed_afterSlots ends (by rw [hdefs]; exact hberth)
    have hnumber : (s.live.slot i).route.getD 0 = rt.number := by
      unfold Live.routeOf at hrt
      split at hrt
      · obtain ⟨r, hr, hroute⟩ := Option.bind_eq_some_iff.1 hrt
        rw [hr, Option.getD_some, route?_number hroute]
      · cases hrt
    refine ⟨fun hc => ?_, fun hc m hmn => ?_, ?_, fun y b hxb hsb hbb => ?_, fun m => ?_, fun j hj => ?_, hst1⟩
    · have := hafter.gone (entered.gone hc hctl)
      rw [hnow] at this
      exact this
    · exact (handed.faults m hmn).trans (entered.silent hc m)
    · have hmade := entered.made
      rw [show (d.slot i).route.getD 0 = rt.number from hnumber] at hmade
      exact hmade.mono handed.appended
    · exact (congrArg Boundary.exitEntered (Live.boundary_congr handed.boundaries b)).trans
        (entered.exit y b hxb hsb hbb)
    · obtain ⟨h1, h2, h3, h4⟩ := handed.locks m
      obtain ⟨k1, k2, k3, k4⟩ := locks_of_base (entered.control m)
      exact ⟨h1.trans k1, h2.trans k2, h3.trans k3, h4.trans k4⟩
    · exact ((entered.others j hj).trans (handed.slot j)).judged


end Sys2Proof.Machine
end

section
/-! PROOF. What the steps of a STATUS leave of the link that it came from, of the other boundaries and of the
slots' needs (R150, R156). -/

namespace Sys2Proof.Machine

open Sys2Proof

/-! ### The needs of a slot -/

/-- The needs of a slot through the steps of a STATUS: a loss of the acceptance alone sets one. -/
structure NeedsKept (s t : Slot) : Prop where
  exits : t.needsExit = s.needsExit
  dirNeed : t.dirNeed = s.dirNeed
  accNeed : s.accNeed = true → t.accNeed = true

theorem NeedsKept.refl (s : Slot) : NeedsKept s s := ⟨rfl, rfl, id⟩

theorem NeedsKept.trans {s t u : Slot} (h : NeedsKept s t) (k : NeedsKept t u) : NeedsKept s u :=
  ⟨k.exits.trans h.exits, k.dirNeed.trans h.dirNeed, fun hs => k.accNeed (h.accNeed hs)⟩

theorem Slot.judged.needs {s t : Slot} (h : s.judged t) : NeedsKept s t := by
  obtain ⟨hrest, hstill, hgoes⟩ := h
  have hdir := congrArg Slot.dirNeed hrest
  have hacc := congrArg Slot.accNeed hrest
  refine ⟨?_, hdir, fun hs => (hacc : t.accNeed = s.accNeed).trans hs⟩
  cases hs : s.needsExit with
  | true => exact hgoes hs
  | false => rw [hstill hs, hs]

theorem SlotMoves.needs {s t : Slot} (h : SlotMoves s t) : NeedsKept s t := h.judged.needs

/-! ### What a step leaves -/

/-- What a step leaves while it leaves link `l` UP, at boundaries that do not satisfy `P`. -/
structure Heard (l : Nat) (P : Nat → Prop) (d e : Live) : Prop where
  rx : (e.link l).rx = (d.link l).rx
  stop : (e.link l).remoteStop = (d.link l).remoteStop
  silence : (e.link l).silence = (d.link l).silence
  tx : (d.link l).tx <+: (e.link l).tx
  links : ∀ j, j ≠ l → e.link j = d.link j
  bounds : ∀ k, ¬ P k → e.boundary k = d.boundary k
  nums : e.boundaries.map Boundary.num = d.boundaries.map Boundary.num
  exit : ∀ k, (e.boundary k).exitSlot = (d.boundary k).exitSlot
  ports : d.portsStand e
  needs : ∀ i, NeedsKept (d.slot i) (e.slot i)
  locks : ∀ m, (e.control m).lock = (d.control m).lock ∨ (e.control m).lock = none

theorem Heard.refl (l : Nat) (P : Nat → Prop) (d : Live) : Heard l P d d :=
  ⟨rfl, rfl, rfl, List.prefix_rfl, fun _ _ => rfl, fun _ _ => rfl, rfl, fun _ => rfl,
    fun _ => ⟨rfl, rfl, List.prefix_rfl⟩, fun _ => .refl _, fun _ => Or.inl rfl⟩

theorem Heard.trans {l : Nat} {P : Nat → Prop} {d e f : Live} (h : Heard l P d e) (k : Heard l P e f) :
    Heard l P d f where
  rx := k.rx.trans h.rx
  stop := k.stop.trans h.stop
  silence := k.silence.trans h.silence
  tx := h.tx.trans k.tx
  links j hj := (k.links j hj).trans (h.links j hj)
  bounds b hb := (k.bounds b hb).trans (h.bounds b hb)
  nums := k.nums.trans h.nums
  exit b := (k.exit b).trans (h.exit b)
  ports := portsStand_trans h.ports k.ports
  needs i := (h.needs i).trans (k.needs i)
  locks m := by
    rcases k.locks m with hk | hk
    · rw [hk]; exact h.locks m
    · exact Or.inr hk

theorem Heard.mono {l : Nat} {P Q : Nat → Prop} {d e : Live} (h : Heard l P d e) (hpq : ∀ k, P k → Q k) :
    Heard l Q d e :=
  { h with bounds := fun k hk => h.bounds k (fun hp => hk (hpq k hp)) }

theorem Heard.hasBoundary {l : Nat} {P : Nat → Prop} {d e : Live} (h : Heard l P d e) {b : Nat}
    (hb : d.hasBoundary b) : e.hasBoundary b := by
  unfold Live.hasBoundary
  rw [h.nums]
  exact hb

/-- A lock that stands after the steps stood before them. -/
theorem Heard.lock_before {l : Nat} {P : Nat → Prop} {d e : Live} (h : Heard l P d e) {n : Nat} {z : Lock}
    (hz : (e.control n).lock = some z) : (d.control n).lock = some z := by
  rcases h.locks n with hl | hl
  · rw [← hl]; exact hz
  · rw [hl] at hz; cases hz

theorem Heard.exitNeeds_dir {l : Nat} {P : Nat → Prop} {d e : Live} (h : Heard l P d e) (b : Nat) :
    exitNeeds e b Slot.dirNeed = exitNeeds d b Slot.dirNeed := by
  unfold exitNeeds
  rw [h.exit]
  cases (d.boundary b).exitSlot with
  | none => rfl
  | some i => simp only [(h.needs i).exits, (h.needs i).dirNeed]

theorem Heard.exitNeeds_any {l : Nat} {P : Nat → Prop} {d e : Live} (h : Heard l P d e) (b : Nat) :
    exitNeeds e b (fun _ => true) = exitNeeds d b (fun _ => true) := by
  unfold exitNeeds
  rw [h.exit]
  cases (d.boundary b).exitSlot with
  | none => rfl
  | some i => simp only [(h.needs i).exits]

theorem Heard.exitNeeds_acc {l : Nat} {P : Nat → Prop} {d e : Live} (h : Heard l P d e) {b : Nat}
    (hd : exitNeeds d b Slot.accNeed = true) : exitNeeds e b Slot.accNeed = true := by
  unfold exitNeeds at *
  rw [h.exit]
  cases hx : (d.boundary b).exitSlot with
  | none => rw [hx] at hd; cases hd
  | some i =>
    rw [hx] at hd
    obtain ⟨h1, h2⟩ := Bool.and_eq_true_iff.1 hd
    exact Bool.and_eq_true_iff.2 ⟨(h.needs i).exits.trans h1, (h.needs i).accNeed h2⟩

theorem exitNeeds_imp_any {d : Live} {b : Nat} {f : Slot → Bool} (h : exitNeeds d b f = true) :
    exitNeeds d b (fun _ => true) = true := by
  unfold exitNeeds at *
  cases hx : (d.boundary b).exitSlot with
  | none => rw [hx] at h; cases h
  | some i =>
    rw [hx] at h
    simpa using (Bool.and_eq_true_iff.1 h).1

/-- A boundary is idle for an offer of its direction: nothing of it is in use at either end (R154, R161). -/
theorem boundaryBusy_eq_false {d : Live} {b : Nat} :
    boundaryBusy d b = false ↔ exitNeeds d b (fun _ => true) = false ∧ (d.boundary b).acceptance = .none
      ∧ ∃ e, (d.boundary b).views = some e ∧ e.berthLocked = false := by
  unfold boundaryBusy exitNeeds
  dsimp only
  cases (d.boundary b).exitSlot <;> cases (d.boundary b).views <;> simp [and_assoc]

/-- A step that sends at most `n` frames on link `l`. -/
structure Sends (l : Nat) (P : Nat → Prop) (n : Nat) (d e : Live) : Prop where
  room : (d.link l).state = .up → (d.link l).tx.length + n ≤ 16 →
    (e.link l).state = .up ∧ (e.link l).tx.length ≤ (d.link l).tx.length + n
  heard : (e.link l).state = .up → (d.link l).state = .up ∧ Heard l P d e
  stored : e.stored = d.stored

theorem Sends.trans {l n m : Nat} {P : Nat → Prop} {d e f : Live} (h : Sends l P n d e) (k : Sends l P m e f) :
    Sends l P (n + m) d f where
  room hu ht := by
    obtain ⟨h1, h2⟩ := h.room hu (by omega)
    obtain ⟨k1, k2⟩ := k.room h1 (by omega)
    exact ⟨k1, by omega⟩
  heard hu := by
    obtain ⟨k1, k2⟩ := k.heard hu
    obtain ⟨h1, h2⟩ := h.heard k1
    exact ⟨h1, h2.trans k2⟩
  stored := k.stored.trans h.stored

theorem Sends.mono {l n m : Nat} {P Q : Nat → Prop} {d e : Live} (h : Sends l P n d e) (hpq : ∀ k, P k → Q k)
    (hnm : n ≤ m) : Sends l Q m d e where
  room hu ht := by
    obtain ⟨h1, h2⟩ := h.room hu (by omega)
    exact ⟨h1, by omega⟩
  heard hu := (h.heard hu).imp id (fun k => k.mono hpq)
  stored := h.stored

/-- A step that sends nothing. -/
theorem sends_of_links {l : Nat} {P : Nat → Prop} {d e : Live} (hl : e.links = d.links) (hs : e.stored = d.stored)
    (hb : ∀ k, ¬ P k → e.boundary k = d.boundary k)
    (hn : e.boundaries.map Boundary.num = d.boundaries.map Boundary.num)
    (hx : ∀ k, (e.boundary k).exitSlot = (d.boundary k).exitSlot) (hp : d.portsStand e)
    (hneeds : ∀ i, NeedsKept (d.slot i) (e.slot i))
    (hlocks : ∀ m, (e.control m).lock = (d.control m).lock ∨ (e.control m).lock = none) : Sends l P 0 d e := by
  have hlink := Live.link_congr hl
  refine ⟨fun hu _ => ⟨by rw [hlink]; exact hu, by rw [hlink]; omega⟩, fun hu => ⟨by rw [← hlink]; exact hu, ?_⟩, hs⟩
  exact ⟨by rw [hlink], by rw [hlink], by rw [hlink], by rw [hlink], fun j _ => hlink j, hb, hn, hx, hp, hneeds, hlocks⟩

theorem Sends.refl (l : Nat) (P : Nat → Prop) (d : Live) : Sends l P 0 d d :=
  ⟨fun hu _ => ⟨hu, by omega⟩, fun hu => ⟨hu, .refl l P d⟩, rfl⟩

theorem Sends.ite {l n : Nat} {P : Nat → Prop} {d e f : Live} {c : Prop} [Decidable c] (h : Sends l P n d e)
    (k : Sends l P n d f) : Sends l P n d (if c then e else f) := by
  split
  · exact h
  · exact k

theorem Watched.sends {l : Nat} {P : Nat → Prop} {d e : Live} (h : Watched d e) : Sends l P 0 d e :=
  sends_of_links h.links h.stored (fun k _ => Live.boundary_congr h.boundaries k) (by rw [h.boundaries])
    (fun k => by rw [Live.boundary_congr h.boundaries]) h.portsStand (fun i => (h.slot i).needs)
    (fun m => Or.inl (locks_of_base (h.control m)).1)

theorem Quiet.sends {l : Nat} {P : Nat → Prop} {d e : Live} (h : Quiet d e) : Sends l P 0 d e := by
  have hb : e.boundaries = d.boundaries := h.boundaries
  have hloc : Local 0 0 d e := h.loc
  exact sends_of_links h.links h.stored (fun k _ => Live.boundary_congr hb k) (by rw [hb])
    (fun k => by rw [Live.boundary_congr hb]) hloc.ports (fun i => (h.slot i).needs)
    (fun m => Or.inl (lock_of_claims hloc.frames.1 m))

section boundary

variable {v : Env} {l b : Nat}

theorem sends_setBoundary (d : Live) {f : Boundary → Boundary} (hf : ∀ x, (f x).num = x.num)
    (hx : ∀ x, (f x).exitSlot = x.exitSlot) : Sends l (· = b) 0 d (d.setBoundary b f) :=
  sends_of_links rfl rfl (fun _ hk => d.boundary_setBoundary_ne hk f hf) (d.setBoundary_nums b f hf)
    (fun k => by
      rw [d.boundary_setBoundary b k f hf]
      split
      · next h => rw [hx, h.1]
      · rfl)
    (fun k => by cases k <;> exact ⟨rfl, rfl, List.prefix_rfl⟩) (fun _ => .refl _) (fun _ => Or.inl rfl)

theorem sends_setNeeds (d : Live) {f : Slot → Slot} (hf : ∀ s, NeedsKept s (f s)) (P : Nat → Prop) :
    Sends l P 0 d (setNeeds b f d) := by
  unfold setNeeds
  split
  · next i _ =>
    refine sends_of_links rfl rfl (fun _ _ => rfl) rfl (fun _ => rfl)
      (fun k => by cases k <;> exact ⟨rfl, rfl, List.prefix_rfl⟩) (fun j => ?_) (fun _ => Or.inl rfl)
    rw [d.slot_setSlot]
    split
    · exact hf _
    · exact .refl _
  · exact .refl l P d

theorem sends_setInward (d : Live) : Sends l (· = b) 0 d (setDirection b .inward d) :=
  sends_setBoundary d (fun _ => by rfl) (fun _ => by rfl)

/-- A change of the acceptance to NONE or REQUESTED. -/
theorem sends_setAcceptance {acc : Acceptance} (h : acc ≠ .held) (t : Option Time) (d : Live) :
    Sends l (· = b) 0 d (setAcceptance b acc t d) := by
  have hset : Sends l (· = b) 0 d (d.setBoundary b (fun x => { x with
      acceptance := acc, accExpiry := t, awaiting := if acc = .none then false else x.awaiting })) :=
    sends_setBoundary d (fun _ => by rfl) (fun _ => by rfl)
  unfold setAcceptance
  dsimp only
  rw [if_neg h]
  refine .ite (hset.trans (sends_setNeeds _ (fun s => ?_) _)) hset
  split
  · exact ⟨rfl, rfl, fun _ => rfl⟩
  · exact .refl s

theorem lt_of_link_up {d : Live} (h : (d.link l).state = .up) : l < d.links.length := by
  by_contra hn
  unfold Live.link at h
  rw [List.getD_eq_default _ _ (by omega)] at h
  cases h

/-- A frame sent on a link that is UP afterwards was queued. -/
theorem sendFrom_of_up {bd : BoundaryDef} (hbd : v.boundary? b = some bd) (f : Nat → NFrame) {d : Live}
    (hu : ((sendFrom v b f d).link bd.link).state = .up) :
    (d.link bd.link).state = .up
      ∧ sendFrom v b f d = d.setLink bd.link (fun k => { k with tx := k.tx ++ [f bd.linkNumber] }) := by
  have hsend : sendFrom v b f d = enqueue v bd.link (f bd.linkNumber) d := by
    unfold sendFrom
    rw [hbd]
  rw [hsend] at hu ⊢
  unfold enqueue at hu ⊢
  by_cases hs : (d.link bd.link).state = .up
  · rw [if_pos hs] at hu ⊢
    by_cases ht : (d.link bd.link).tx.length < Config.transmitCapacity
    · rw [if_pos ht]
      exact ⟨hs, rfl⟩
    · rw [if_neg ht, (leaveUp_all v bd.link d .lost (lt_of_link_up hs)).1] at hu
      cases hu
  · rw [if_neg hs] at hu
    exact absurd hu hs

theorem sends_sendFrom {bd : BoundaryDef} (hbd : v.boundary? b = some bd) (f : Nat → NFrame) (d : Live)
    (P : Nat → Prop) : Sends bd.link P 1 d (sendFrom v b f d) := by
  refine ⟨fun hu ht => ?_, fun hu => ?_, (sent_sendFrom v b f d).stored⟩
  · rw [sendFrom_eq hbd f d hu (by omega), d.link_setLink_self (lt_of_link_up hu)]
    exact ⟨hu, by simp⟩
  · obtain ⟨hs, heq⟩ := sendFrom_of_up hbd f hu
    rw [heq]
    have hloc : Local bd.link b d (d.setLink bd.link (fun k => { k with tx := k.tx ++ [f bd.linkNumber] })) :=
      loc_send _ _ _ _
    exact ⟨hs, hloc.rx, hloc.stop, hloc.silence, hloc.tx, hloc.links, fun _ _ => rfl, rfl, fun _ => rfl, hloc.ports,
      fun _ => .refl _, fun _ => Or.inl rfl⟩

theorem linkUp_eq {bd : BoundaryDef} (hbd : v.boundary? b = some bd) (d : Live) :
    linkUp v d b = decide ((d.link bd.link).state = .up) := by
  unfold linkUp
  rw [hbd]

end boundary

end Sys2Proof.Machine
end

section
/-! PROOF. The steps of a STATUS at one boundary, on a link that they leave UP (R156). -/

namespace Sys2Proof.Machine

open Sys2Proof

/-! ### A boundary record after each act -/

/-- A boundary that has offered its direction. -/
def Boundary.offered (o : Bool) (x : Boundary) : Boundary :=
  if o then { x with waiting := false, direction := .inward } else x

/-- A boundary that has asked for the direction. -/
def Boundary.sought (q : Bool) (t : Time) (x : Boundary) : Boundary :=
  if q then { x with reqExpiry := some t } else x

/-- A boundary that has asked for the acceptance. -/
def Boundary.asked (a : Bool) (t : Time) (x : Boundary) : Boundary :=
  if a then { x with acceptance := .requested, accExpiry := some t } else x

/-- A boundary whose acceptance is consumed. -/
def Boundary.used (x : Boundary) : Boundary := { x with acceptance := .none, accExpiry := none, awaiting := false }

section acts

variable {v : Env} {bd : BoundaryDef} (hbd : v.boundary? bd.number = some bd) {d : Live}

include hbd

omit hbd in
theorem mem_tx_send {e : Live} (f : NFrame) (hl : bd.link < e.links.length) :
    f ∈ ((e.setLink bd.link (fun k => { k with tx := k.tx ++ [f] })).link bd.link).tx := by
  rw [e.link_setLink_self hl]
  simp

/-- A frame sent on a link that is UP afterwards stands in the transmit queue, and no boundary has changed. -/
theorem sent_of_up (f : Nat → NFrame) (hu : ((sendFrom v bd.number f d).link bd.link).state = .up) :
    (sendFrom v bd.number f d).boundary bd.number = d.boundary bd.number
      ∧ f bd.linkNumber ∈ ((sendFrom v bd.number f d).link bd.link).tx := by
  obtain ⟨hs, heq⟩ := sendFrom_of_up hbd f hu
  rw [heq]
  exact ⟨rfl, mem_tx_send _ (lt_of_link_up hs)⟩

theorem sends_tryOffer (d : Live) : Sends bd.link (· = bd.number) 1 d (tryOffer v bd.number d) := by
  unfold tryOffer
  refine .ite ?_ ((Sends.refl _ _ d).mono (fun _ => id) (by omega))
  exact ((sends_setBoundary d (fun _ => by rfl) (fun _ => by rfl)).trans (sends_setInward _)).trans
    (sends_sendFrom hbd _ _ _)

theorem tryOffer_record (hb : d.hasBoundary bd.number) (hu : ((tryOffer v bd.number d).link bd.link).state = .up) :
    ∃ o : Bool, (tryOffer v bd.number d).boundary bd.number = (d.boundary bd.number).offered o
      ∧ (o = true ↔ (d.boundary bd.number).direction = .outward ∧ (d.boundary bd.number).waiting = true
        ∧ boundaryBusy d bd.number = false)
      ∧ (o = true → .dirOffer bd.linkNumber ∈ ((tryOffer v bd.number d).link bd.link).tx) := by
  have hup := ((sends_tryOffer hbd d).heard hu).1
  unfold tryOffer at hu ⊢
  dsimp only at hu ⊢
  rw [linkUp_eq hbd, decide_eq_true hup, Bool.and_true] at hu ⊢
  by_cases hc : (decide ((d.boundary bd.number).direction = .outward) && (d.boundary bd.number).waiting
      && !boundaryBusy d bd.number) = true
  · rw [if_pos hc] at hu ⊢
    obtain ⟨hsame, hmem⟩ := sent_of_up hbd _ hu
    have hb' : (d.setBoundary bd.number (fun x => { x with waiting := false })).hasBoundary bd.number := by
      unfold Live.hasBoundary
      rw [d.setBoundary_nums _ _ (fun _ => by rfl)]
      exact hb
    refine ⟨true, ?_, by simpa [and_assoc] using hc, fun _ => hmem⟩
    rw [hsame, boundary_setDirection _ _ _ hb', d.boundary_setBoundary_self hb _ (fun _ => by rfl)]
    rfl
  · rw [if_neg hc]
    exact ⟨false, rfl, ⟨nofun, fun h => absurd (by simpa [and_assoc] using h) hc⟩, nofun⟩

theorem sends_tryAccept (d : Live) : Sends bd.link (· = bd.number) 1 d (tryAccept v bd.number d) := by
  unfold tryAccept
  refine .ite ?_ ((Sends.refl _ _ d).mono (fun _ => id) (by omega))
  exact (sends_setAcceptance (acc := .requested) nofun _ d).trans (sends_sendFrom hbd _ _ _)

theorem tryAccept_record (hb : d.hasBoundary bd.number) (hu : ((tryAccept v bd.number d).link bd.link).state = .up) :
    ∃ a : Bool, (tryAccept v bd.number d).boundary bd.number
        = (d.boundary bd.number).asked a (after v.now v.timing.response)
      ∧ (a = true ↔ exitNeeds d bd.number Slot.accNeed = true ∧ (d.boundary bd.number).direction = .outward
        ∧ (d.boundary bd.number).acceptance = .none ∧ (d.boundary bd.number).restricted = false)
      ∧ (a = true → .acceptRequest bd.linkNumber ∈ ((tryAccept v bd.number d).link bd.link).tx) := by
  have hup := ((sends_tryAccept hbd d).heard hu).1
  unfold tryAccept at hu ⊢
  dsimp only at hu ⊢
  rw [linkUp_eq hbd, decide_eq_true hup, Bool.and_true] at hu ⊢
  by_cases hc : (exitNeeds d bd.number Slot.accNeed && decide ((d.boundary bd.number).direction = .outward)
      && decide ((d.boundary bd.number).acceptance = .none) && !(d.boundary bd.number).restricted) = true
  · rw [if_pos hc] at hu ⊢
    obtain ⟨hsame, hmem⟩ := sent_of_up hbd _ hu
    refine ⟨true, ?_, by simpa [and_assoc] using hc, fun _ => hmem⟩
    rw [hsame, boundary_setAcceptance _ _ _ _ hb]
    rfl
  · rw [if_neg hc]
    exact ⟨false, rfl, ⟨nofun, fun h => absurd (by simpa [and_assoc] using h) hc⟩, nofun⟩

theorem trySeek_eq (d : Live) : trySeek v bd.number d
    = if exitNeeds d bd.number Slot.dirNeed && (d.boundary bd.number).reqExpiry.isNone
          && !(d.boundary bd.number).restricted && !(d.boundary bd.number).berthLocked && linkUp v d bd.number then
        sendFrom v bd.number (fun n => .dirRequest n bd.seniority)
          (d.setBoundary bd.number (fun x => { x with reqExpiry := some (after v.now v.timing.response) }))
      else d := by
  unfold trySeek sendFrom
  simp only [hbd]

theorem sends_trySeek (d : Live) : Sends bd.link (· = bd.number) 1 d (trySeek v bd.number d) := by
  rw [trySeek_eq hbd]
  refine .ite ?_ ((Sends.refl _ _ d).mono (fun _ => id) (by omega))
  exact (sends_setBoundary d (fun _ => by rfl) (fun _ => by rfl)).trans (sends_sendFrom hbd _ _ _)

theorem trySeek_record (hb : d.hasBoundary bd.number) (hu : ((trySeek v bd.number d).link bd.link).state = .up) :
    ∃ q : Bool, (trySeek v bd.number d).boundary bd.number
        = (d.boundary bd.number).sought q (after v.now v.timing.response)
      ∧ (q = true ↔ exitNeeds d bd.number Slot.dirNeed = true ∧ (d.boundary bd.number).reqExpiry = none
        ∧ (d.boundary bd.number).restricted = false ∧ (d.boundary bd.number).berthLocked = false)
      ∧ (q = true → .dirRequest bd.linkNumber bd.seniority ∈ ((trySeek v bd.number d).link bd.link).tx) := by
  have hup := ((sends_trySeek hbd d).heard hu).1
  rw [trySeek_eq hbd] at hu ⊢
  rw [linkUp_eq hbd, decide_eq_true hup, Bool.and_true] at hu ⊢
  by_cases hc : (exitNeeds d bd.number Slot.dirNeed && (d.boundary bd.number).reqExpiry.isNone
      && !(d.boundary bd.number).restricted && !(d.boundary bd.number).berthLocked) = true
  · rw [if_pos hc] at hu ⊢
    obtain ⟨hsame, hmem⟩ := sent_of_up hbd _ hu
    refine ⟨true, ?_, by simpa [and_assoc] using hc, fun _ => hmem⟩
    rw [hsame, d.boundary_setBoundary_self hb _ (fun _ => by rfl)]
    rfl
  · rw [if_neg hc]
    exact ⟨false, rfl, ⟨nofun, fun h => absurd (by simpa [and_assoc] using h) hc⟩, nofun⟩

/-! ### Consumption (step 3) -/

/-- The consumption of an acceptance, and the offer that it may free. -/
def consumed (v : Env) (b : Nat) (c : Bool) (d : Live) : Live :=
  if c then tryOffer v b (setAcceptance b .none none d) else d

theorem sends_consumed (c : Bool) (d : Live) : Sends bd.link (· = bd.number) 1 d (consumed v bd.number c d) := by
  unfold consumed
  exact .ite (((sends_setAcceptance (acc := .none) nofun none d).trans (sends_tryOffer hbd _)).mono (fun _ => id) (by omega))
    ((Sends.refl _ _ d).mono (fun _ => id) (by omega))

theorem consumed_record (c : Bool) (hb : d.hasBoundary bd.number)
    (hu : ((consumed v bd.number c d).link bd.link).state = .up) :
    ∃ o : Bool, (consumed v bd.number c d).boundary bd.number
        = (if c then (d.boundary bd.number).used.offered o else d.boundary bd.number)
      ∧ (c = true → o = true → (d.boundary bd.number).direction = .outward
        ∧ exitNeeds d bd.number (fun _ => true) = false) := by
  cases c with
  | false => exact ⟨false, rfl, nofun⟩
  | true =>
    let d1 := setAcceptance bd.number .none none d
    have h1 : Sends bd.link (· = bd.number) 0 d d1 :=
      sends_setAcceptance (acc := .none) nofun none d
    have hu1 : ((tryOffer v bd.number d1).link bd.link).state = .up := hu
    have heard := (h1.heard ((sends_tryOffer hbd d1).heard hu1).1).2
    have hself : d1.boundary bd.number = (d.boundary bd.number).used := boundary_setAcceptance _ _ _ _ hb
    obtain ⟨o, hrec, ho, -⟩ := tryOffer_record hbd (heard.hasBoundary hb) hu1
    rw [hself] at hrec ho
    refine ⟨o, hrec, fun _ hot => ?_⟩
    obtain ⟨hdir, -, hbusy⟩ := ho.1 hot
    exact ⟨hdir, by rw [← heard.exitNeeds_any]; exact (boundaryBusy_eq_false.1 hbusy).1⟩

/-! ### The re-requests (step 5) -/

theorem sends_reRequest (prev : Option StatusEntry) (e : StatusEntry) (first : Bool) (d : Live) :
    Sends bd.link (· = bd.number) 2 d (reRequest v bd.number prev e first d) := by
  unfold reRequest
  dsimp only
  have h1 : Sends bd.link (· = bd.number) 1 d (if e.direction != .outward then trySeek v bd.number d else d) :=
    .ite (sends_trySeek hbd d) ((Sends.refl _ _ d).mono (fun _ => id) (by omega))
  exact .ite (h1.trans (sends_tryAccept hbd _)) (h1.mono (fun _ => id) (by omega))

/-- Berth ready has risen. -/
def risen (prev : Option StatusEntry) (e : StatusEntry) : Bool := e.berthReady && prev.any (fun p => !p.berthReady)

theorem reRequest_record (prev : Option StatusEntry) (e : StatusEntry) (first : Bool) (hb : d.hasBoundary bd.number)
    (hu : ((reRequest v bd.number prev e first d).link bd.link).state = .up) :
    ∃ q a : Bool, (reRequest v bd.number prev e first d).boundary bd.number
        = ((d.boundary bd.number).sought q (after v.now v.timing.response)).asked a (after v.now v.timing.response)
      ∧ (q = true ↔ e.direction ≠ .outward ∧ exitNeeds d bd.number Slot.dirNeed = true
        ∧ (d.boundary bd.number).reqExpiry = none ∧ (d.boundary bd.number).restricted = false
        ∧ (d.boundary bd.number).berthLocked = false)
      ∧ (a = true → (first || risen prev e) = true ∧ exitNeeds d bd.number (fun _ => true) = true
        ∧ (d.boundary bd.number).acceptance = .none)
      ∧ ((first || risen prev e) = true → exitNeeds d bd.number Slot.accNeed = true →
        (d.boundary bd.number).direction = .outward → (d.boundary bd.number).acceptance = .none →
        (d.boundary bd.number).restricted = false → a = true)
      ∧ (q = true → .dirRequest bd.linkNumber bd.seniority
        ∈ ((reRequest v bd.number prev e first d).link bd.link).tx)
      ∧ (a = true → .acceptRequest bd.linkNumber ∈ ((reRequest v bd.number prev e first d).link bd.link).tx) := by
  let d1 := if e.direction != .outward then trySeek v bd.number d else d
  have h1 : Sends bd.link (· = bd.number) 1 d d1 :=
    .ite (sends_trySeek hbd d) ((Sends.refl _ _ d).mono (fun _ => id) (by omega))
  have hend : reRequest v bd.number prev e first d
      = if first || risen prev e then tryAccept v bd.number d1 else d1 := rfl
  have hseek (hu1 : (d1.link bd.link).state = .up) : ∃ q : Bool,
      d1.boundary bd.number = (d.boundary bd.number).sought q (after v.now v.timing.response)
        ∧ (q = true ↔ e.direction ≠ .outward ∧ exitNeeds d bd.number Slot.dirNeed = true
          ∧ (d.boundary bd.number).reqExpiry = none ∧ (d.boundary bd.number).restricted = false
          ∧ (d.boundary bd.number).berthLocked = false)
        ∧ (q = true → .dirRequest bd.linkNumber bd.seniority ∈ (d1.link bd.link).tx) := by
    by_cases hdir : (e.direction != .outward) = true
    · have hd1 : d1 = trySeek v bd.number d := if_pos hdir
      rw [hd1] at hu1 ⊢
      obtain ⟨q, hrec, hq, hmem⟩ := trySeek_record hbd hb hu1
      exact ⟨q, hrec, hq.trans ⟨fun h => ⟨by simpa using hdir, h⟩, fun h => h.2⟩, hmem⟩
    · have hd1 : d1 = d := if_neg hdir
      rw [hd1]
      exact ⟨false, rfl, ⟨nofun, fun h => absurd (by simpa using h.1) hdir⟩, nofun⟩
  have hsame (q : Bool) (x : Boundary) (t : Time) : (x.sought q t).direction = x.direction
      ∧ (x.sought q t).acceptance = x.acceptance ∧ (x.sought q t).restricted = x.restricted := by
    unfold Boundary.sought
    split <;> exact ⟨rfl, rfl, rfl⟩
  rw [hend] at hu ⊢
  by_cases hc : (first || risen prev e) = true
  · rw [if_pos hc] at hu ⊢
    obtain ⟨hu1, heard2⟩ := (sends_tryAccept hbd d1).heard hu
    have heard1 := (h1.heard hu1).2
    obtain ⟨q, hrec1, hq, hmem1⟩ := hseek hu1
    obtain ⟨a, hrec2, ha, hmem2⟩ := tryAccept_record hbd (heard1.hasBoundary hb) hu
    obtain ⟨k1, k2, k3⟩ := hsame q (d.boundary bd.number) (after v.now v.timing.response)
    rw [hrec1] at hrec2 ha
    rw [k1, k2, k3] at ha
    refine ⟨q, a, hrec2, hq, fun hat => ?_, fun _ hneed hd ha' hr => ha.2 ⟨heard1.exitNeeds_acc hneed, hd, ha', hr⟩,
      fun hqt => heard2.tx.subset (hmem1 hqt), hmem2⟩
    obtain ⟨hneed, -, hacc, -⟩ := ha.1 hat
    exact ⟨hc, by rw [← heard1.exitNeeds_any]; exact exitNeeds_imp_any hneed, hacc⟩
  · rw [if_neg hc] at hu ⊢
    obtain ⟨q, hrec1, hq, hmem1⟩ := hseek hu
    exact ⟨q, false, hrec1, hq, nofun, fun h => absurd h hc, hmem1, nofun⟩

/-! ### Neighbour waiting (step 6) -/

theorem sends_waitingStep (e : StatusEntry) (d : Live) :
    Sends bd.link (· = bd.number) 1 d (waitingStep v bd.number e d) := by
  have hrefl : Sends bd.link (· = bd.number) 1 d d := (Sends.refl _ _ d).mono (fun _ => id) (by omega)
  have hset (w : Bool) : Sends bd.link (· = bd.number) 0 d
      (d.setBoundary bd.number (fun x => { x with waiting := w })) :=
    sends_setBoundary d (fun _ => by rfl) (fun _ => by rfl)
  unfold waitingStep
  exact .ite hrefl (.ite (.ite (((hset true).trans (sends_tryOffer hbd _)).mono (fun _ => id) (by omega)) hrefl)
    ((hset false).mono (fun _ => id) (by omega)))

/-- The boundary record after step 6, with the offer that may follow it. -/
def Boundary.heardWaiting (e : StatusEntry) (o : Bool) (x : Boundary) : Boundary :=
  if e.waiting then if x.direction = .outward then ({ x with waiting := true }).offered o else x
  else { x with waiting := false }

theorem waitingStep_record (e : StatusEntry) (hb : d.hasBoundary bd.number)
    (hu : ((waitingStep v bd.number e d).link bd.link).state = .up) :
    ∃ o : Bool, (waitingStep v bd.number e d).boundary bd.number = (d.boundary bd.number).heardWaiting e o
      ∧ (e.waiting = true → (d.boundary bd.number).direction = .outward →
        (o = true ↔ boundaryBusy d bd.number = false))
      ∧ (e.waiting = true → (d.boundary bd.number).direction = .outward → o = true →
        .dirOffer bd.linkNumber ∈ ((waitingStep v bd.number e d).link bd.link).tx) := by
  have hup := ((sends_waitingStep hbd e d).heard hu).1
  unfold waitingStep Boundary.heardWaiting at *
  rw [linkUp_eq hbd, decide_eq_true hup] at hu ⊢
  simp only [Bool.not_true, Bool.false_eq_true, if_false] at hu ⊢
  by_cases hw : e.waiting = true
  · rw [if_pos hw] at hu ⊢
    by_cases hdir : (d.boundary bd.number).direction = .outward
    · rw [if_pos hdir] at hu ⊢
      let d1 := d.setBoundary bd.number (fun x => { x with waiting := true })
      have hself : d1.boundary bd.number = { d.boundary bd.number with waiting := true } :=
        d.boundary_setBoundary_self hb _ (fun _ => by rfl)
      have hb1 : d1.hasBoundary bd.number := by
        unfold Live.hasBoundary
        rw [d.setBoundary_nums _ _ (fun _ => by rfl)]
        exact hb
      have hbusy : boundaryBusy d1 bd.number = boundaryBusy d bd.number := by
        unfold boundaryBusy
        rw [hself]
        rfl
      obtain ⟨o, hrec, ho, hmem⟩ := tryOffer_record hbd hb1 hu
      rw [hself] at hrec ho
      rw [hbusy] at ho
      refine ⟨o, ?_, fun _ _ => ho.trans ⟨fun h => h.2.2, fun h => ⟨hdir, rfl, h⟩⟩, fun _ _ => hmem⟩
      rw [if_pos hw, if_pos hdir]
      exact hrec
    · rw [if_neg hdir]
      exact ⟨false, by rw [if_pos hw, if_neg hdir], fun _ h => absurd h hdir, fun _ h => absurd h hdir⟩
  · rw [if_neg hw]
    refine ⟨false, ?_, fun h => absurd h hw, fun h => absurd h hw⟩
    rw [if_neg hw]
    exact d.boundary_setBoundary_self hb _ (fun _ => by rfl)

/-! ### The consistency timer (step 7) -/

omit hbd in
theorem sends_consistencyStep (e : Option StatusEntry) (d : Live) :
    Sends bd.link (· = bd.number) 0 d (consistencyStep v bd.number e d) := by
  have hset (t : Option Time) : Sends bd.link (· = bd.number) 0 d
      (d.setBoundary bd.number (fun x => { x with consExpiry := t })) :=
    sends_setBoundary d (fun _ => by rfl) (fun _ => by rfl)
  unfold consistencyStep
  exact .ite (Sends.refl _ _ d) (.ite (hset none) (.ite (Sends.refl _ _ d) (hset _)))

/-- The boundary record after step 7. -/
def Boundary.timedAgainst (now : Time) (response : Nat) (e : Option StatusEntry) (x : Boundary) : Boundary :=
  if x.restricted then x
  else { x with consExpiry := if consistent x e then none else some (x.consExpiry.getD (after now response)) }

theorem consistencyStep_record (e : Option StatusEntry) (hb : d.hasBoundary bd.number)
    (hu : (d.link bd.link).state = .up) :
    (consistencyStep v bd.number e d).boundary bd.number
      = (d.boundary bd.number).timedAgainst v.now v.timing.response e := by
  unfold consistencyStep Boundary.timedAgainst
  rw [linkUp_eq hbd, decide_eq_true hu]
  simp only [Bool.not_true, Bool.or_false]
  have hset (t : Option Time) : (d.setBoundary bd.number (fun x => { x with consExpiry := t })).boundary bd.number
      = { d.boundary bd.number with consExpiry := t } :=
    d.boundary_setBoundary_self hb (fun x => { x with consExpiry := t }) (fun _ => by rfl)
  by_cases hr : (d.boundary bd.number).restricted = true
  · rw [if_pos hr, if_pos hr]
  rw [if_neg hr, if_neg hr]
  by_cases hc : consistent (d.boundary bd.number) e = true
  · rw [if_pos hc, if_pos hc, hset]
  rw [if_neg hc, if_neg hc]
  by_cases ht : (d.boundary bd.number).consExpiry.isSome = true
  · obtain ⟨t, ht'⟩ := Option.isSome_iff_exists.1 ht
    rw [if_pos ht, ht', Option.getD_some, ← ht']
  · rw [if_neg ht, hset, Option.not_isSome_iff_eq_none.1 ht, Option.getD_none]

end acts

end Sys2Proof.Machine
end

section
/-! PROOF. A STATUS applied to one boundary, in the order of its steps (R156, R166). -/

namespace Sys2Proof.Machine

open Sys2Proof

/-! ### The record that steps 3 to 6 leave -/

/-- A boundary after the consumption that an entry shows (step 3). -/
def Boundary.afterUse (e : StatusEntry) (o : Bool) (x : Boundary) : Boundary :=
  if consumes x e then x.used.offered o else x

/-- A boundary after the release of a berth that the neighbour holds nothing for (step 4). -/
def Boundary.afterBerth (e : StatusEntry) (x : Boundary) : Boundary := if abandons x e then x.berthGone else x

/-- What steps 3 to 6 decide at a boundary `x`, with what the exit slot needs: whether the direction is offered
after a consumption, asked for, the acceptance asked for, and the direction offered to a neighbour that waits. -/
structure Decided (e : StatusEntry) (t : Time) (again any dir acc : Bool) (x : Boundary) (offer seek ask yield : Bool) :
    Prop where
  offers : consumes x e = true → offer = true → x.direction = .outward ∧ any = false
  seeks : seek = true ↔ e.direction ≠ .outward ∧ dir = true ∧ x.reqExpiry = none
    ∧ ((x.afterUse e offer).afterBerth e).restricted = false ∧ ((x.afterUse e offer).afterBerth e).berthLocked = false
  asks : ask = true → again = true ∧ any = true ∧ (x.afterUse e offer).acceptance = .none
  mustAsk : again = true → acc = true → ((x.afterUse e offer).afterBerth e).direction = .outward →
    (x.afterUse e offer).acceptance = .none → ((x.afterUse e offer).afterBerth e).restricted = false → ask = true
  yields : e.waiting = true → ((x.afterUse e offer).afterBerth e).direction = .outward →
    (yield = true ↔ any = false ∧ (((x.afterUse e offer).afterBerth e).asked ask t).acceptance = .none
      ∧ ∃ p, x.views = some p ∧ p.berthLocked = false)

/-- A boundary after steps 3 to 6. -/
def Boundary.viewed (e : StatusEntry) (t : Time) (offer seek ask yield : Bool) (x : Boundary) : Boundary :=
  (((((x.afterUse e offer).afterBerth e).sought seek t).asked ask t)).heardWaiting e yield

/-! ### What the acts leave of a record's other fields -/

theorem Boundary.offered_fields (o : Bool) (x : Boundary) : x.offered o = { x with
    waiting := !o && x.waiting, direction := if o then .inward else x.direction } := by
  cases o <;> rfl

theorem Boundary.sought_fields (q : Bool) (t : Time) (x : Boundary) : x.sought q t = { x with
    reqExpiry := if q then some t else x.reqExpiry } := by
  cases q <;> rfl

theorem Boundary.asked_fields (a : Bool) (t : Time) (x : Boundary) : x.asked a t = { x with
    acceptance := if a then .requested else x.acceptance, accExpiry := if a then some t else x.accExpiry } := by
  cases a <;> rfl

theorem Boundary.berthGone_fields (x : Boundary) : x.berthGone = { x with
    berthLocked := false, marks := [], resetExpiry := none
    direction := if x.resetExpiry.isSome then .neutral else x.direction
    restricted := x.restricted && !x.resetExpiry.isSome } := by
  unfold Boundary.berthGone Boundary.resetDone
  dsimp only
  split
  · next h => rw [h]; simp
  · next h =>
    have hn : x.resetExpiry = none := by simpa using h
    obtain ⟨⟩ := x
    simp_all

theorem Boundary.afterUse_fields (e : StatusEntry) (o : Bool) (x : Boundary) :
    (x.afterUse e o).exitSlot = x.exitSlot ∧ (x.afterUse e o).berthLocked = x.berthLocked
      ∧ (x.afterUse e o).marks = x.marks ∧ (x.afterUse e o).restricted = x.restricted
      ∧ (x.afterUse e o).reqExpiry = x.reqExpiry ∧ (x.afterUse e o).resetExpiry = x.resetExpiry
      ∧ (x.afterUse e o).consExpiry = x.consExpiry ∧ (x.afterUse e o).views = x.views
      ∧ (x.afterUse e o).home = x.home := by
  unfold Boundary.afterUse
  rw [Boundary.offered_fields]
  split <;> exact ⟨rfl, rfl, rfl, rfl, rfl, rfl, rfl, rfl, rfl⟩

theorem abandons_afterUse (e : StatusEntry) (o : Bool) (x : Boundary) :
    abandons (x.afterUse e o) e = abandons x e := by
  obtain ⟨-, hlock, hmarks, -⟩ := x.afterUse_fields e o
  unfold abandons
  rw [hlock, hmarks]

theorem Boundary.afterBerth_fields (e : StatusEntry) (x : Boundary) :
    (x.afterBerth e).acceptance = x.acceptance ∧ (x.afterBerth e).accExpiry = x.accExpiry
      ∧ (x.afterBerth e).reqExpiry = x.reqExpiry ∧ (x.afterBerth e).waiting = x.waiting
      ∧ (x.afterBerth e).consExpiry = x.consExpiry ∧ (x.afterBerth e).views = x.views
      ∧ (x.afterBerth e).home = x.home := by
  unfold Boundary.afterBerth
  rw [Boundary.berthGone_fields]
  split <;> exact ⟨rfl, rfl, rfl, rfl, rfl, rfl, rfl⟩

/-! ### The steps at a boundary -/

section acts

variable {v : Env} {bd : BoundaryDef} (hbd : v.boundary? bd.number = some bd) {d : Live}

include hbd

/-- The berth released where the entry shows that the neighbour holds nothing for it. -/
def berthStep (v : Env) (b : Nat) (e : StatusEntry) (d : Live) : Release :=
  if abandons (d.boundary b) e then berthWhole v b (Release.start d) else Release.start d

theorem sends_berthStep (e : StatusEntry) (d : Live) :
    Sends bd.link (· = bd.number) 0 d (berthStep v bd.number e d).live := by
  unfold berthStep
  split
  · have h := unlocked_berthWhole hbd d
    have hslot (i : Nat) : (berthWhole v bd.number (Release.start d)).live.slot i = d.slot i := by
      unfold Live.slot
      rw [h.slots]
    refine sends_of_links h.same.links h.same.stored h.bounds h.nums (fun k => ?_) h.same.portsStand
      (fun i => hslot i ▸ .refl _) (fun m => ?_)
    · by_cases hk : k = bd.number
      · subst hk
        by_cases hb : d.hasBoundary bd.number
        · rw [h.boundary hb, Boundary.berthGone_exit]
        · have hb' : ¬ (berthWhole v bd.number (Release.start d)).live.hasBoundary bd.number := by
            unfold Live.hasBoundary
            rw [h.nums]
            exact hb
          rw [Live.boundary_of_no_record _ hb, Live.boundary_of_no_record _ hb']
      · rw [h.bounds k hk]
    · rw [h.lock]
      split
      · exact Or.inr rfl
      · exact Or.inl rfl
  · exact .refl _ _ d

theorem berthStep_record (e : StatusEntry) (hb : d.hasBoundary bd.number) :
    (berthStep v bd.number e d).live.boundary bd.number = (d.boundary bd.number).afterBerth e := by
  unfold berthStep Boundary.afterBerth
  split
  · exact (unlocked_berthWhole hbd d).boundary hb
  · rfl

/-- A berth released holds no section. -/
theorem berthStep_lock {e : StatusEntry} (h : abandons (d.boundary bd.number) e = true) {k : Nat} (hk : k ∈ bd.berth)
    {z : Lock} (hz : ((berthStep v bd.number e d).live.control k).lock = some z) : z.holder ≠ .berth bd.number := by
  unfold berthStep at hz
  rw [if_pos h, (unlocked_berthWhole hbd d).lock] at hz
  intro hh
  split at hz
  · cases hz
  · next hn => exact hn ⟨hk, by rw [hz]; simpa using hh⟩

omit hbd in
theorem sends_finishBerth {l b : Nat} (P : Nat → Prop) (x : Boundary) (done : Bool) (r : Release)
    (hst : r.live.stored = []) : Sends l P 0 r.live (finishBerth v b x done r) := by
  obtain ⟨h1, h2, h3, -, h5, h6, h7⟩ := finishBerth_all v b x done r hst
  exact sends_of_links h2 (h1.trans hst.symm) (fun k _ => Live.boundary_congr h3 k) (by rw [h3])
    (fun k => by rw [Live.boundary_congr h3]) h6 (fun i => (h7 i).needs) (fun m => Or.inl (lock_of_claims h5 m))

omit hbd in
theorem applyViews_eq (b : Nat) (prev : Option StatusEntry) (e : StatusEntry) (first : Bool) (d : Live) :
    ∃ (x : Boundary) (done : Bool) (r : Release), applyViews v b prev e first d = finishBerth v b x done { r with
      live := waitingStep v b e (reRequest v b prev e first
        (berthStep v b e (consumed v b (consumes (d.boundary b) e) d)).live) } :=
  ⟨_, _, _, rfl⟩

theorem sends_applyViews (prev : Option StatusEntry) (e : StatusEntry) (first : Bool) {d : Live}
    (hst : d.stored = []) : Sends bd.link (· = bd.number) 4 d (applyViews v bd.number prev e first d) := by
  obtain ⟨x, done, r, heq⟩ := applyViews_eq (v := v) bd.number prev e first d
  have h := (((sends_consumed hbd (consumes (d.boundary bd.number) e) d).trans (sends_berthStep hbd e _)).trans
    (sends_reRequest hbd prev e first _)).trans (sends_waitingStep hbd e _)
  rw [heq]
  exact h.trans (sends_finishBerth _ x done { r with live := _ } (h.stored.trans hst))

/-- Steps 3 to 6 of a STATUS at a boundary of a link that they leave UP. -/
theorem applyViews_record (prev : Option StatusEntry) (e : StatusEntry) (first : Bool) (hst : d.stored = [])
    (hb : d.hasBoundary bd.number)
    (hu : ((applyViews v bd.number prev e first d).link bd.link).state = .up) :
    ∃ offer seek ask yield : Bool,
      (applyViews v bd.number prev e first d).boundary bd.number
        = (d.boundary bd.number).viewed e (after v.now v.timing.response) offer seek ask yield
      ∧ Decided e (after v.now v.timing.response) (first || risen prev e) (exitNeeds d bd.number (fun _ => true))
        (exitNeeds d bd.number Slot.dirNeed) (exitNeeds d bd.number Slot.accNeed) (d.boundary bd.number)
        offer seek ask yield
      ∧ (seek = true → .dirRequest bd.linkNumber bd.seniority
        ∈ ((applyViews v bd.number prev e first d).link bd.link).tx)
      ∧ (ask = true → .acceptRequest bd.linkNumber ∈ ((applyViews v bd.number prev e first d).link bd.link).tx)
      ∧ (e.waiting = true → (((d.boundary bd.number).afterUse e offer).afterBerth e).direction = .outward →
        yield = true → .dirOffer bd.linkNumber ∈ ((applyViews v bd.number prev e first d).link bd.link).tx)
      ∧ (abandons (d.boundary bd.number) e = true → ∀ k ∈ bd.berth, ∀ z,
        ((applyViews v bd.number prev e first d).control k).lock = some z → z.holder ≠ .berth bd.number) := by
  obtain ⟨x, done, r, heq⟩ := applyViews_eq (v := v) bd.number prev e first d
  let d1 := consumed v bd.number (consumes (d.boundary bd.number) e) d
  let d2 := (berthStep v bd.number e d1).live
  let d3 := reRequest v bd.number prev e first d2
  let d4 := waitingStep v bd.number e d3
  have s1 : Sends bd.link (· = bd.number) 1 d d1 := sends_consumed hbd _ d
  have s2 : Sends bd.link (· = bd.number) 0 d1 d2 := sends_berthStep hbd e d1
  have s3 : Sends bd.link (· = bd.number) 2 d2 d3 := sends_reRequest hbd prev e first d2
  have s4 : Sends bd.link (· = bd.number) 1 d3 d4 := sends_waitingStep hbd e d3
  have hst4 : d4.stored = [] := (((s1.trans s2).trans s3).trans s4).stored.trans hst
  have s5 : Sends bd.link (fun _ => False) 0 d4 (finishBerth v bd.number x done { r with live := d4 }) :=
    sends_finishBerth _ x done { r with live := d4 } hst4
  rw [heq] at hu ⊢
  change ((finishBerth v bd.number x done { r with live := d4 }).link bd.link).state = .up at hu
  show ∃ offer seek ask yield : Bool, (finishBerth v bd.number x done { r with live := d4 }).boundary _ = _ ∧ _
  generalize finishBerth v bd.number x done { r with live := d4 } = f at s5 hu ⊢
  obtain ⟨u4, k5⟩ := s5.heard hu
  obtain ⟨u3, k4⟩ := s4.heard u4
  obtain ⟨u2, k3⟩ := s3.heard u3
  obtain ⟨u1, k2⟩ := s2.heard u2
  obtain ⟨-, k1⟩ := s1.heard u1
  have b1 := k1.hasBoundary hb
  have b2 := k2.hasBoundary b1
  have b3 := k3.hasBoundary b2
  obtain ⟨offer, r1, hoffer⟩ := consumed_record hbd _ hb u1
  obtain ⟨seek, ask, r3, hseek, hask, hmust, mseek, mask⟩ := reRequest_record hbd prev e first b2 u3
  obtain ⟨yield, r4, hyield, myield⟩ := waitingStep_record hbd e b3 u4
  have hx1 : d1.boundary bd.number = (d.boundary bd.number).afterUse e offer := r1
  have hx2 : d2.boundary bd.number = ((d.boundary bd.number).afterUse e offer).afterBerth e :=
    (berthStep_record hbd e b1).trans (by rw [hx1])
  have k12 := k1.trans k2
  have k35 := (k3.trans k4).trans (k5.mono (fun _ h => h.elim))
  have hany3 : exitNeeds d3 bd.number (fun _ => true) = exitNeeds d bd.number (fun _ => true) :=
    (k12.trans k3).exitNeeds_any _
  obtain ⟨-, -, -, -, huse, -, -, hviews, -⟩ := (d.boundary bd.number).afterUse_fields e offer
  obtain ⟨bacc, -, breq, -, -, bviews, -⟩ := ((d.boundary bd.number).afterUse e offer).afterBerth_fields e
  rw [hx2] at r3 hseek hask hmust
  rw [r3] at hyield myield
  rw [k12.exitNeeds_dir, breq, huse] at hseek
  rw [k12.exitNeeds_any, bacc] at hask
  rw [bacc] at hmust
  have hdir3 (q a : Bool) (t : Time) (x : Boundary) : ((x.sought q t).asked a t).direction = x.direction := by
    rw [Boundary.asked_fields, Boundary.sought_fields]
  rw [hdir3] at hyield myield
  refine ⟨offer, seek, ask, yield, ?_, ⟨hoffer, hseek, hask, fun h1 h2 => hmust h1 (k12.exitNeeds_acc h2), ?_⟩,
    fun h => (k4.trans (k5.mono (fun _ h => h.elim))).tx.subset (mseek h),
    fun h => (k4.trans (k5.mono (fun _ h => h.elim))).tx.subset (mask h),
    fun h1 h2 h3 => k5.tx.subset (myield h1 h2 h3), fun h k hk z hz => ?_⟩
  · rw [k5.bounds _ id, r4, r3]
    rfl
  · intro hw hdir
    rw [hyield hw hdir, boundaryBusy_eq_false, hany3, r3, Boundary.asked_fields, Boundary.sought_fields]
    simp only [bviews, hviews, Boundary.asked_fields, bacc]
  · exact berthStep_lock hbd (by rw [hx1, abandons_afterUse]; exact h) hk (k35.lock_before hz)

end acts

/-! ### The whole of one entry -/

/-- A boundary with the views of an entry, or with none (steps 1 and 2). -/
def Boundary.shown (entry : Option StatusEntry) (x : Boundary) : Boundary :=
  { x with views := entry, home := match entry with | some e => e.home | none => x.home }

/-- What an entry of a STATUS leaves of a boundary, from a state `d` to a state `f`, with what was decided. -/
structure ViewedAs (v : Env) (bd : BoundaryDef) (e : StatusEntry) (first : Bool) (d f : Live)
    (offer seek ask yield : Bool) : Prop where
  record : f.boundary bd.number
    = (((d.boundary bd.number).shown (some e)).viewed e (after v.now v.timing.response) offer seek ask
      yield).timedAgainst v.now v.timing.response (some e)
  decided : Decided e (after v.now v.timing.response) (first || risen (d.boundary bd.number).views e)
    (exitNeeds d bd.number (fun _ => true)) (exitNeeds d bd.number Slot.dirNeed) (exitNeeds d bd.number Slot.accNeed)
    ((d.boundary bd.number).shown (some e)) offer seek ask yield
  sought : seek = true → .dirRequest bd.linkNumber bd.seniority ∈ (f.link bd.link).tx
  asked : ask = true → .acceptRequest bd.linkNumber ∈ (f.link bd.link).tx
  yielded : e.waiting = true →
    ((((d.boundary bd.number).shown (some e)).afterUse e offer).afterBerth e).direction = .outward →
    yield = true → .dirOffer bd.linkNumber ∈ (f.link bd.link).tx
  freed : abandons (d.boundary bd.number) e = true → ∀ k ∈ bd.berth, ∀ z,
    (f.control k).lock = some z → z.holder ≠ .berth bd.number

/-- What a STATUS without an entry for a boundary leaves of it. -/
structure UnviewedAs (v : Env) (bd : BoundaryDef) (first : Bool) (d f : Live) (ask : Bool) : Prop where
  record : f.boundary bd.number
    = (((d.boundary bd.number).shown none).asked ask (after v.now v.timing.response)).timedAgainst v.now
      v.timing.response none
  asks : ask = true → first = true
  mustAsk : first = true → exitNeeds d bd.number Slot.accNeed = true →
    (d.boundary bd.number).direction = .outward → (d.boundary bd.number).acceptance = .none →
    (d.boundary bd.number).restricted = false → ask = true
  asked : ask = true → .acceptRequest bd.linkNumber ∈ (f.link bd.link).tx

/-- What a STATUS leaves of one boundary of its link. -/
def HeardAt (v : Env) (bd : BoundaryDef) (first : Bool) (d f : Live) : Option StatusEntry → Prop
  | some e => ∃ offer seek ask yield, ViewedAs v bd e first d f offer seek ask yield
  | none => ∃ ask, UnviewedAs v bd first d f ask

/-- What a STATUS leaves of one boundary stands through the acts before and after it at other boundaries. -/
theorem HeardAt.between {v : Env} {bd : BoundaryDef} {first : Bool} {P Q : Nat → Prop} {c d f g : Live}
    {entry : Option StatusEntry} (h : HeardAt v bd first d f entry) (hcd : Heard bd.link P c d)
    (hfg : Heard bd.link Q f g) (hp : ¬ P bd.number) (hq : ¬ Q bd.number) : HeardAt v bd first c g entry := by
  have hx := hcd.bounds _ hp
  have hy := hfg.bounds _ hq
  cases entry with
  | none =>
    obtain ⟨ask, k⟩ := h
    refine ⟨ask, ?_, k.asks, fun h1 h2 => ?_, fun h1 => hfg.tx.subset (k.asked h1)⟩
    · rw [hy, k.record, hx]
    · rw [← hx]
      exact k.mustAsk h1 (hcd.exitNeeds_acc h2)
  | some e =>
    obtain ⟨offer, seek, ask, yield, k⟩ := h
    have hdec := k.decided
    have hyielded := k.yielded
    have hfreed := k.freed
    rw [hx, hcd.exitNeeds_any, hcd.exitNeeds_dir] at hdec
    rw [hx] at hyielded hfreed
    refine ⟨offer, seek, ask, yield, ?_, { hdec with mustAsk := fun h1 h2 => hdec.mustAsk h1 (hcd.exitNeeds_acc h2) },
      fun h1 => hfg.tx.subset (k.sought h1), fun h1 => hfg.tx.subset (k.asked h1),
      fun h1 h2 h3 => hfg.tx.subset (hyielded h1 h2 h3), fun h1 n hn z hz => hfreed h1 n hn z (hfg.lock_before hz)⟩
    rw [hy, k.record, hx]

section entry

variable {v : Env} {bd : BoundaryDef} (hbd : v.boundary? bd.number = some bd) {d : Live}

/-- The views of a boundary taken, and the aspect at its exit signal computed where the home aspect has changed. -/
def takeViews (v : Env) (b : Nat) (entry : Option StatusEntry) (d : Live) : Live :=
  let d1 := d.setBoundary b (Boundary.shown entry)
  if neighbourHome v d1 b != neighbourHome v d b then exitAspect v b d1 else d1

theorem sends_takeViews (l : Nat) (v : Env) (b : Nat) (entry : Option StatusEntry) (d : Live) :
    Sends l (· = b) 0 d (takeViews v b entry d) := by
  have h : Sends l (· = b) 0 d (d.setBoundary b (Boundary.shown entry)) :=
    sends_setBoundary d (fun _ => by rfl) (fun _ => by rfl)
  exact .ite (h.trans (calm_exitAspect v b _).watched.sends) h

theorem takeViews_record {b : Nat} (entry : Option StatusEntry) (hb : d.hasBoundary b) :
    (takeViews v b entry d).boundary b = (d.boundary b).shown entry := by
  have hself := d.boundary_setBoundary_self hb (Boundary.shown entry) (fun _ => by rfl)
  unfold takeViews
  dsimp only
  split
  · exact (Live.boundary_congr (calm_exitAspect v b _).boundaries b).trans hself
  · exact hself

/-- Steps 3 to 6 with an entry or without one. -/
def actOnViews (v : Env) (b : Nat) (prev entry : Option StatusEntry) (first : Bool) (d : Live) : Live :=
  match entry with
  | some e => applyViews v b prev e first d
  | none => if first then boundaryEvent v b none (tryAccept v b) d else d

theorem applyEntry_eq (b : Nat) (entry : Option StatusEntry) (first : Bool) (d : Live) :
    applyEntry v b entry first d = if !linkUp v d b then d
      else consistencyStep v b entry (actOnViews v b (d.boundary b).views entry first (takeViews v b entry d)) := by
  unfold applyEntry actOnViews
  cases entry <;> rfl

include hbd

theorem sends_acceptEvent (d : Live) :
    Sends bd.link (· = bd.number) 1 d (boundaryEvent v bd.number none (tryAccept v bd.number) d) :=
  (sends_tryAccept hbd d).trans (quiet_boundaryEvent v bd.number none (tryAccept v bd.number) d).sends

theorem sends_actOnViews (prev entry : Option StatusEntry) (first : Bool) (hst : d.stored = []) :
    Sends bd.link (· = bd.number) 4 d (actOnViews v bd.number prev entry first d) := by
  unfold actOnViews
  split
  · exact sends_applyViews hbd prev _ first hst
  · exact .ite ((sends_acceptEvent hbd d).mono (fun _ => id) (by omega))
      ((Sends.refl _ _ d).mono (fun _ => id) (by omega))

theorem sends_applyEntry (entry : Option StatusEntry) (first : Bool) (hst : d.stored = []) :
    Sends bd.link (· = bd.number) 4 d (applyEntry v bd.number entry first d) := by
  have h1 := sends_takeViews bd.link v bd.number entry d
  rw [applyEntry_eq]
  exact .ite ((Sends.refl _ _ d).mono (fun _ => id) (by omega))
    ((h1.trans (sends_actOnViews hbd _ entry first (h1.stored.trans hst))).trans (sends_consistencyStep entry _))

/-- An entry, or none, applied to a boundary of a link that it leaves UP. -/
theorem heardAt_applyEntry (entry : Option StatusEntry) (first : Bool) (hst : d.stored = [])
    (hb : d.hasBoundary bd.number) (hu : ((applyEntry v bd.number entry first d).link bd.link).state = .up) :
    HeardAt v bd first d (applyEntry v bd.number entry first d) entry := by
  have hup := ((sends_applyEntry hbd entry first hst).heard hu).1
  rw [applyEntry_eq, linkUp_eq hbd, decide_eq_true hup] at hu ⊢
  simp only [Bool.not_true, Bool.false_eq_true, if_false] at hu ⊢
  let d1 := takeViews v bd.number entry d
  let d2 := actOnViews v bd.number (d.boundary bd.number).views entry first d1
  have s1 : Sends bd.link (· = bd.number) 0 d d1 := sends_takeViews _ _ _ _ _
  have hst1 : d1.stored = [] := s1.stored.trans hst
  have s2 : Sends bd.link (· = bd.number) 4 d1 d2 := sends_actOnViews hbd _ entry first hst1
  obtain ⟨u2, k3⟩ := (sends_consistencyStep entry d2).heard hu
  obtain ⟨u1, k2⟩ := s2.heard u2
  obtain ⟨-, k1⟩ := s1.heard u1
  have b1 := k1.hasBoundary hb
  have r1 : d1.boundary bd.number = (d.boundary bd.number).shown entry := takeViews_record entry hb
  have r3 := consistencyStep_record hbd entry (k2.hasBoundary b1) u2
  cases entry with
  | some e =>
    obtain ⟨offer, seek, ask, yield, r2, hdec, mseek, mask, myield, hfree⟩ :=
      applyViews_record hbd (d.boundary bd.number).views e first hst1 b1 u2
    rw [r1, k1.exitNeeds_any, k1.exitNeeds_dir] at hdec
    rw [r1] at r2 myield hfree
    refine ⟨offer, seek, ask, yield, r3.trans (congrArg _ r2),
      { hdec with mustAsk := fun h1 h2 => hdec.mustAsk h1 (k1.exitNeeds_acc h2) },
      fun h => k3.tx.subset (mseek h), fun h => k3.tx.subset (mask h),
      fun h1 h2 h3 => k3.tx.subset (myield h1 h2 h3), fun h n hn z hz => hfree h n hn z (k3.lock_before hz)⟩
  | none =>
    cases first with
    | false => exact ⟨false, r3.trans (congrArg _ r1), nofun, nofun, nofun⟩
    | true =>
      let d3 := tryAccept v bd.number d1
      have hq : Quiet d3 d2 := quiet_boundaryEvent v bd.number none (tryAccept v bd.number) d1
      obtain ⟨u3, kq⟩ := (hq.sends (l := bd.link) (P := fun _ => False)).heard u2
      obtain ⟨ask, r2, hask, mask⟩ := tryAccept_record hbd b1 u3
      rw [r1] at r2 hask
      refine ⟨ask, r3.trans ?_, fun _ => rfl, fun _ h2 h3 h4 h5 => hask.2 ⟨k1.exitNeeds_acc h2, h3, h4, h5⟩,
        fun h => k3.tx.subset (kq.tx.subset (mask h))⟩
      rw [show d2.boundary bd.number = _ from (kq.bounds _ id).trans r2]

end entry

end Sys2Proof.Machine
end

section
/-! PROOF. A STATUS taken from a receive queue: the link brought UP, and every boundary of it in turn (R151, R152,
R156). -/

namespace Sys2Proof.Machine

open Sys2Proof

/-! ### The boundaries of a link in turn -/

section turns

variable {v : Env} {l : Nat} (entry : BoundaryDef → Option StatusEntry) (first : Bool)

/-- The entries of a STATUS applied to boundaries in turn. -/
def applyEntries (v : Env) (entry : BoundaryDef → Option StatusEntry) (first : Bool) (bs : List BoundaryDef)
    (d : Live) : Live :=
  bs.foldl (fun d bd => applyEntry v bd.number (entry bd) first d) d

theorem sends_applyEntries {bs : List BoundaryDef}
    (hbs : ∀ bd ∈ bs, v.boundary? bd.number = some bd ∧ bd.link = l) {d : Live} (hst : d.stored = []) :
    Sends l (fun k => ∃ bd ∈ bs, bd.number = k) (4 * bs.length) d (applyEntries v entry first bs d) := by
  induction bs generalizing d with
  | nil => exact (Sends.refl l _ d).mono (fun _ => id) (by omega)
  | cons bd bs ih =>
    obtain ⟨hbd, rfl⟩ := hbs bd (by simp)
    have h1 := sends_applyEntry hbd (entry bd) first hst
    have h2 := ih (fun b hb => hbs b (by simp [hb])) (h1.stored.trans hst)
    have h := (h1.mono (fun k hk => ⟨bd, by simp, hk.symm⟩) le_rfl).trans
      (h2.mono (Q := fun k => ∃ b ∈ bd :: bs, b.number = k) (fun k ⟨b, hb, hk⟩ => ⟨b, by simp [hb], hk⟩) le_rfl)
    exact h.mono (fun _ => id) (by simp only [List.length_cons]; omega)

/-- Each boundary of a link that stays UP hears its own entry. -/
theorem heardAt_applyEntries {bs : List BoundaryDef}
    (hbs : ∀ bd ∈ bs, v.boundary? bd.number = some bd ∧ bd.link = l) (hn : (bs.map BoundaryDef.number).Nodup)
    {d : Live} (hst : d.stored = []) (hu : ((applyEntries v entry first bs d).link l).state = .up)
    {bd : BoundaryDef} (hm : bd ∈ bs) (hb : d.hasBoundary bd.number) :
    HeardAt v bd first d (applyEntries v entry first bs d) (entry bd) := by
  obtain ⟨bs1, bs2, rfl⟩ := List.append_of_mem hm
  obtain ⟨hbd, rfl⟩ := hbs bd hm
  rw [List.map_append, List.map_cons, List.nodup_append, List.nodup_cons] at hn
  obtain ⟨-, ⟨hnot2, -⟩, hnot1⟩ := hn
  let d1 := applyEntries v entry first bs1 d
  let d2 := applyEntry v bd.number (entry bd) first d1
  have hall : applyEntries v entry first (bs1 ++ bd :: bs2) d = applyEntries v entry first bs2 d2 := by
    simp [applyEntries, d2, d1]
  rw [hall] at hu ⊢
  have s1 := sends_applyEntries entry first (fun b hb => hbs b (by simp [hb])) hst (bs := bs1)
  have hst1 : d1.stored = [] := s1.stored.trans hst
  have s2 : Sends bd.link (· = bd.number) 4 d1 d2 := sends_applyEntry hbd (entry bd) first hst1
  obtain ⟨u2, k3⟩ := (sends_applyEntries entry first (fun b hb => hbs b (by simp [hb]))
    (s2.stored.trans hst1) (bs := bs2)).heard hu
  obtain ⟨-, k1⟩ := s1.heard (s2.heard u2).1
  refine (heardAt_applyEntry hbd (entry bd) first hst1 (k1.hasBoundary hb) u2).between k1 k3 ?_ ?_
  · rintro ⟨b, hb, he⟩
    exact hnot1 b.number (List.mem_map_of_mem hb) bd.number (by simp) he
  · rintro ⟨b, hb, he⟩
    exact hnot2 (List.mem_map.2 ⟨b, hb, he⟩)

end turns

/-! ### The link before the boundaries -/

/-- An act that leaves the links does the same on a link changed besides. -/
theorem Watched.setLink {d e : Live} (h : Watched d e) (l : Nat) (f : Link → Link) :
    Watched (d.setLink l f) (e.setLink l f) :=
  { h with
    links := by unfold Live.setLink; rw [h.links]
    slot := h.slot }

/-- A link that has taken a STATUS. -/
def Link.opened (v : Env) (stop : Bool) (fs : List NFrame) (k : Link) : Link :=
  { k with state := .up, rx := fs, remoteStop := stop, silence := some (after v.now v.timing.linkTimeout) }

/-- A link brought UP by a STATUS, with the groups that its area-stop flag latches (R131, R152). -/
theorem watched_becomeUp_edge {v : Env} {l : Nat} {d : Live} (stop was : Bool) (hst : d.stored = []) :
    Watched (d.setLink l (fun k => { k with
        rx := k.rx.drop 1, state := .up, silence := some (after v.now v.timing.linkTimeout), remoteStop := stop }))
      (edge v (.link l) was ((serve v (becomeUp v l (popFrame l d))).setLink l
        (fun k => { k with remoteStop := stop }))) := by
  have hup := becomeUp_watched v l (popFrame l d)
  have hserve : Watched (becomeUp v l (popFrame l d)) (serve v (becomeUp v l (popFrame l d))) := by
    rw [serve_of_no_stored v _ (hup.stored.trans hst)]
    exact watched_setReeval _ false
  have h := (hup.trans hserve).setLink l (fun k => { k with remoteStop := stop })
  unfold popFrame at *
  rw [Live.setLink_setLink, Live.setLink_setLink] at h
  exact h.trans (watched_edge v (.link l) was _)

/-- A STATUS taken on a link that is not DISABLED: the link is opened, and its boundaries hear it in turn. -/
theorem takeStatus_eq {v : Env} {l : Nat} {stop : Bool} {es : List StatusEntry} {fs : List NFrame} {d : Live}
    (hrx : (d.link l).rx = .status stop es :: fs) (hst : d.stored = []) (hdis : (d.link l).state ≠ .disabled) :
    ∃ f e, f (d.link l) = (d.link l).opened v stop fs ∧ Watched (d.setLink l f) e
      ∧ takeStatus v l d = applyEntries v (fun bd => es.find? (fun e => e.number = bd.linkNumber))
        (decide ((d.link l).state ≠ .up)) (v.linkBoundaries l) e := by
  have hhead : (d.link l).rx.head? = some (.status stop es) := by rw [hrx]; rfl
  have hdrop : (d.link l).rx.drop 1 = fs := by rw [hrx]; rfl
  unfold takeStatus
  rw [hhead]
  dsimp only
  cases hs : (d.link l).state with
  | disabled => exact absurd hs hdis
  | up =>
    refine ⟨fun k => { k with
      rx := k.rx.drop 1, silence := some (after v.now v.timing.linkTimeout), remoteStop := stop }, _, ?_, ?_, rfl⟩
    · show ({ d.link l with rx := _, silence := _, remoteStop := _ } : Link) = _
      unfold Link.opened
      rw [hdrop, ← hs]
    · have h := watched_edge v (.link l) (d.linkAsserted l)
        ((restartSilence v l (popFrame l d)).setLink l (fun k => { k with remoteStop := stop }))
      unfold restartSilence popFrame at *
      rw [Live.setLink_setLink, Live.setLink_setLink] at *
      exact h
  | connecting | lost =>
    refine ⟨_, _, ?_, watched_becomeUp_edge stop (d.linkAsserted l) hst, rfl⟩
    show ({ d.link l with rx := _, state := _, silence := _, remoteStop := _ } : Link) = _
    unfold Link.opened
    rw [hdrop]

end Sys2Proof.Machine
end

section
/-! PROOF. What a boundary record shows after a STATUS (R156, R166). -/

namespace Sys2Proof.Machine

open Sys2Proof

/-! ### The fields of a record after each step -/

theorem Boundary.afterUse_eq (e : StatusEntry) (o : Bool) (x : Boundary) : x.afterUse e o = { x with
    acceptance := if consumes x e then .none else x.acceptance
    accExpiry := if consumes x e then none else x.accExpiry
    awaiting := !consumes x e && x.awaiting
    waiting := !(consumes x e && o) && x.waiting
    direction := if consumes x e && o then .inward else x.direction } := by
  unfold Boundary.afterUse
  rw [Boundary.offered_fields]
  cases consumes x e <;> rfl

theorem Boundary.afterBerth_eq (e : StatusEntry) (x : Boundary) : x.afterBerth e = { x with
    berthLocked := !abandons x e && x.berthLocked
    marks := if abandons x e then [] else x.marks
    resetExpiry := if abandons x e then none else x.resetExpiry
    direction := if abandons x e && x.resetExpiry.isSome then .neutral else x.direction
    restricted := x.restricted && !(abandons x e && x.resetExpiry.isSome) } := by
  unfold Boundary.afterBerth
  rw [Boundary.berthGone_fields]
  cases abandons x e <;> simp

theorem Boundary.heardWaiting_eq (e : StatusEntry) (o : Bool) (x : Boundary) : x.heardWaiting e o = { x with
    waiting := if e.waiting then (if x.direction = .outward then !o else x.waiting) else false
    direction := if e.waiting = true ∧ x.direction = .outward ∧ o = true then .inward else x.direction } := by
  unfold Boundary.heardWaiting
  rw [Boundary.offered_fields]
  by_cases hw : e.waiting = true
  · by_cases hd : x.direction = .outward
    · simp [hw, hd]
    · simp [hw, hd]
  · simp [hw]

/-- The record after steps 3 to 6, from the record after step 4. -/
theorem Boundary.viewed_eq (e : StatusEntry) (t : Time) (offer seek ask yield : Bool) (x : Boundary) :
    let z := (x.afterUse e offer).afterBerth e
    x.viewed e t offer seek ask yield = { z with
      reqExpiry := if seek then some t else z.reqExpiry
      acceptance := if ask then .requested else z.acceptance
      accExpiry := if ask then some t else z.accExpiry
      waiting := if e.waiting then (if z.direction = .outward then !yield else z.waiting) else false
      direction := if e.waiting = true ∧ z.direction = .outward ∧ yield = true then .inward else z.direction } := by
  unfold Boundary.viewed
  rw [Boundary.heardWaiting_eq, Boundary.asked_fields, Boundary.sought_fields]

theorem Boundary.timedAgainst_eq (now : Time) (response : Nat) (entry : Option StatusEntry) (x : Boundary) :
    x.timedAgainst now response entry = { x with
      consExpiry := if x.restricted then x.consExpiry
        else if consistent x entry then none else some (x.consExpiry.getD (after now response)) } := by
  unfold Boundary.timedAgainst
  split <;> rfl

theorem consistent_iff {x : Boundary} {e : StatusEntry} : consistent x (some e) = true
    ↔ ((x.direction = .outward ∧ e.direction = .inward) ∨ (x.direction = .inward ∧ e.direction = .outward)
        ∨ (x.direction = .neutral ∧ e.direction = .neutral))
      ∧ (x.acceptance = .held → e.berthLocked = true ∨ x.exitEntered = true ∨ x.awaiting = true)
      ∧ (e.acceptance = .held → x.berthLocked = true) := by
  unfold consistent
  simp [or_assoc, and_assoc, imp_iff_not_or]

theorem consumes_iff {x : Boundary} {e : StatusEntry} : consumes x e = true
    ↔ x.acceptance = .held ∧ (x.exitEntered = true ∨ x.awaiting = true)
      ∧ (e.berthEntered = true ∨ e.berthLocked = false) := by
  unfold consumes
  simp [and_assoc]

theorem abandons_iff {x : Boundary} {e : StatusEntry} : abandons x e = true
    ↔ x.berthLocked = true ∧ (∀ m ∈ x.marks, m.occ = false) ∧ e.acceptance = .none := by
  unfold abandons
  simp [and_assoc]

/-! ### What steps 3 to 6 leave of a record -/

section decided

variable {e : StatusEntry} {t : Time} {again any dir acc offer seek ask yield : Bool} {x : Boundary}
  (h : Decided e t again any dir acc x offer seek ask yield)

include h

omit h in
/-- A boundary with nothing to consume and no berth to release comes to step 5 as it was. -/
theorem afterBerth_of_idle (hc : consumes x e = false) (ha : abandons x e = false) :
    (x.afterUse e offer).afterBerth e = x := by
  unfold Boundary.afterBerth
  rw [abandons_afterUse, ha]
  unfold Boundary.afterUse
  rw [hc]
  rfl

theorem Decided.ask_of_needed (hagain : again = true) (hacc : acc = true) (hd : x.direction = .outward)
    (hx : x.acceptance = .none) (hr : x.restricted = false) (hb : x.berthLocked = false) : ask = true := by
  have hc : consumes x e = false := by
    unfold consumes
    rw [hx]
    rfl
  have ha : abandons x e = false := by
    unfold abandons
    rw [hb]
    rfl
  have hidle := afterBerth_of_idle (offer := offer) hc ha
  refine h.mustAsk hagain hacc ?_ ?_ ?_
  · rw [hidle, hd]
  · rw [Boundary.afterUse_eq, hc]
    exact hx
  · rw [hidle, hr]

theorem Decided.seek_of_needed (hdir : dir = true) (hx : x.reqExpiry = none) (hr : x.restricted = false)
    (hb : x.berthLocked = false) (he : e.direction ≠ .outward) : seek = true := by
  have ha : abandons x e = false := by
    unfold abandons
    rw [hb]
    rfl
  refine h.seeks.2 ⟨he, hdir, hx, ?_, ?_⟩
  · rw [Boundary.afterBerth_eq, abandons_afterUse, ha, Boundary.afterUse_eq, hr]
    rfl
  · rw [Boundary.afterBerth_eq, abandons_afterUse, ha, Boundary.afterUse_eq, hb]
    rfl

theorem Decided.seek_eq_false (hn : dir = false ∨ x.reqExpiry ≠ none ∨ e.direction = .outward) : seek = false := by
  rw [← Bool.not_eq_true]
  intro hs
  obtain ⟨h1, h2, h3, -⟩ := h.seeks.1 hs
  rcases hn with hn | hn | hn
  · rw [hn] at h2; cases h2
  · exact hn h3
  · exact h1 hn

/-- An idle OUTWARD boundary offers its direction to a neighbour that waits (R161). -/
theorem Decided.yield_of_idle (hw : e.waiting = true) (hd : x.direction = .outward) (hx : x.acceptance = .none)
    (hany : any = false) (hb : x.berthLocked = false) (hv : x.views = some e) (he : e.berthLocked = false) :
    yield = true ∧ ((x.afterUse e offer).afterBerth e).direction = .outward := by
  have hc : consumes x e = false := by
    unfold consumes
    rw [hx]
    rfl
  have ha : abandons x e = false := by
    unfold abandons
    rw [hb]
    rfl
  have hidle := afterBerth_of_idle (offer := offer) hc ha
  have hask : ask = false := by
    rw [← Bool.not_eq_true]
    intro hs
    obtain ⟨-, h2, -⟩ := h.asks hs
    rw [hany] at h2
    cases h2
  have hdz := (congrArg Boundary.direction hidle).trans hd
  refine ⟨(h.yields hw hdz).2 ⟨hany, ?_, e, hv, he⟩, hdz⟩
  rw [hidle, hask]
  exact hx

/-- The direction that steps 3 and 4 leave, with no reset in progress. -/
theorem Decided.direction_afterBerth (hr : x.resetExpiry = none) :
    ((x.afterUse e offer).afterBerth e).direction = x.direction
      ∨ (x.direction = .outward ∧ ((x.afterUse e offer).afterBerth e).direction = .inward) := by
  have hz : ((x.afterUse e offer).afterBerth e).direction
      = if consumes x e && offer then .inward else x.direction := by
    rw [Boundary.afterBerth_eq, Boundary.afterUse_eq, hr]
    simp
  rw [hz]
  split
  · next hc =>
    obtain ⟨h1, h2⟩ := Bool.and_eq_true_iff.1 hc
    exact Or.inr ⟨(h.offers h1 h2).1, rfl⟩
  · exact Or.inl rfl

end decided

/-! ### What one boundary shows -/

/-- The consistency timer is judged on the record that the steps before it leave (step 7). -/
theorem HeardAt.timed {v : Env} {bd : BoundaryDef} {first : Bool} {d f : Live} {entry : Option StatusEntry}
    (h : HeardAt v bd first d f entry) : ∃ r : Boundary, r.consExpiry = (d.boundary bd.number).consExpiry
      ∧ r.views = entry ∧ f.boundary bd.number = r.timedAgainst v.now v.timing.response entry := by
  cases entry with
  | some e =>
    obtain ⟨offer, seek, ask, yield, k⟩ := h
    obtain ⟨-, -, -, -, ucons, uviews, -⟩ :=
      (((d.boundary bd.number).shown (some e)).afterUse e offer).afterBerth_fields e
    refine ⟨_, ?_, ?_, k.record⟩
    · rw [Boundary.viewed_eq]
      show (Boundary.afterBerth _ _).consExpiry = _
      rw [ucons, Boundary.afterUse_eq]
      rfl
    · rw [Boundary.viewed_eq]
      show (Boundary.afterBerth _ _).views = _
      rw [uviews, Boundary.afterUse_eq]
      rfl
  | none =>
    obtain ⟨ask, k⟩ := h
    refine ⟨_, ?_, ?_, k.record⟩ <;> rw [Boundary.asked_fields] <;> rfl

theorem consExpiry_timedAgainst (now : Time) (response : Nat) (entry : Option StatusEntry) (r : Boundary) :
    (r.timedAgainst now response entry).consExpiry = if (r.timedAgainst now response entry).restricted then r.consExpiry
      else if consistent (r.timedAgainst now response entry) entry then none
      else some (r.consExpiry.getD (after now response)) := by
  have hsame : consistent (r.timedAgainst now response entry) entry = consistent r entry := by
    rw [Boundary.timedAgainst_eq]
    cases entry <;> rfl
  have hrestricted : (r.timedAgainst now response entry).restricted = r.restricted := by
    rw [Boundary.timedAgainst_eq]
  rw [hsame, hrestricted, Boundary.timedAgainst_eq]

theorem exists_consistent_iff {x : Boundary} {entry : Option StatusEntry} : consistent x entry = true
    ↔ ∃ e, entry = some e
      ∧ ((x.direction = .outward ∧ e.direction = .inward) ∨ (x.direction = .inward ∧ e.direction = .outward)
        ∨ (x.direction = .neutral ∧ e.direction = .neutral))
      ∧ (x.acceptance = .held → e.berthLocked = true ∨ x.exitEntered = true ∨ x.awaiting = true)
      ∧ (e.acceptance = .held → x.berthLocked = true) := by
  cases entry with
  | none => exact ⟨nofun, fun ⟨e, he, _⟩ => nomatch he⟩
  | some e =>
    rw [consistent_iff]
    exact ⟨fun h => ⟨e, rfl, h⟩, fun ⟨e', he, h⟩ => Option.some.inj he ▸ h⟩

/-- The fields that steps 3 to 6 leave, beside the waiting mark and the direction. -/
theorem Boundary.viewed_fields (e : StatusEntry) (t : Time) (offer seek ask yield : Bool) (x : Boundary) :
    let y := x.viewed e t offer seek ask yield
    y.reqExpiry = (if seek then some t else x.reqExpiry)
    ∧ y.acceptance = (if ask then .requested else if consumes x e then .none else x.acceptance)
    ∧ (ask = true → y.accExpiry = some t)
    ∧ y.berthLocked = (!abandons x e && x.berthLocked)
    ∧ y.marks = (if abandons x e then [] else x.marks)
    ∧ (abandons x e = true → y.resetExpiry = none)
    ∧ (abandons x e = false → y.restricted = x.restricted)
    ∧ y.views = x.views ∧ y.home = x.home := by
  rw [Boundary.viewed_eq, Boundary.afterBerth_eq, abandons_afterUse, Boundary.afterUse_eq]
  dsimp only
  refine ⟨rfl, rfl, fun h => if_pos h, rfl, rfl, fun h => if_pos h, fun h => ?_, rfl, rfl⟩
  rw [h]
  simp

theorem ViewedAs.fields {v : Env} {bd : BoundaryDef} {e : StatusEntry} {first : Bool} {d f : Live}
    {offer seek ask yield : Bool} (k : ViewedAs v bd e first d f offer seek ask yield) :
    let x := d.boundary bd.number
    let y := f.boundary bd.number
    let z := ((x.shown (some e)).afterUse e offer).afterBerth e
    y.reqExpiry = (if seek then some (after v.now v.timing.response) else x.reqExpiry)
    ∧ y.acceptance = (if ask then .requested else if consumes x e then .none else x.acceptance)
    ∧ (ask = true → y.accExpiry = some (after v.now v.timing.response))
    ∧ y.berthLocked = (!abandons x e && x.berthLocked)
    ∧ y.marks = (if abandons x e then [] else x.marks)
    ∧ (abandons x e = true → y.resetExpiry = none)
    ∧ (abandons x e = false → y.restricted = x.restricted)
    ∧ y.home = e.home
    ∧ y.waiting = (if e.waiting then (if z.direction = .outward then !yield else z.waiting) else false)
    ∧ y.direction = (if e.waiting = true ∧ z.direction = .outward ∧ yield = true then .inward else z.direction) := by
  intro x y z
  obtain ⟨h1, h2, h3, h4, h5, h6, h7, -, h8⟩ :=
    (x.shown (some e)).viewed_fields e (after v.now v.timing.response) offer seek ask yield
  have hy : y = _ := k.record.trans (Boundary.timedAgainst_eq _ _ _ _)
  rw [hy]
  refine ⟨h1, h2, h3, h4, h5, h6, h7, h8, ?_, ?_⟩ <;> dsimp only <;> rw [Boundary.viewed_eq]

end Sys2Proof.Machine
end

section
/-! PROOF. A STATUS applied to each boundary of its link, claim by claim (R156, R166). -/

namespace Sys2Proof.Machine

open Sys2Proof

/-! ### The claims at one boundary -/

/-- Without an entry, only the first STATUS may ask for the acceptance. -/
theorem HeardAt.without_entry {v : Env} {bd : BoundaryDef} {first : Bool} {d f : Live}
    (h : HeardAt v bd first d f none) :
    let x := d.boundary bd.number
    let y := f.boundary bd.number
    y.home = x.home ∧ y.waiting = x.waiting ∧ y.direction = x.direction ∧ y.berthLocked = x.berthLocked
      ∧ y.marks = x.marks ∧ y.restricted = x.restricted ∧ y.reqExpiry = x.reqExpiry
      ∧ (first = false → y.acceptance = x.acceptance ∧ y.accExpiry = x.accExpiry) := by
  intro x y
  obtain ⟨ask, k⟩ := h
  have hy : y = _ := k.record.trans (Boundary.timedAgainst_eq _ _ _ _)
  rw [hy, Boundary.asked_fields]
  refine ⟨rfl, rfl, rfl, rfl, rfl, rfl, rfl, fun hf => ?_⟩
  have hask : ask = false := by
    rw [← Bool.not_eq_true]
    intro ha
    rw [k.asks ha] at hf
    cases hf
  rw [hask]
  exact ⟨rfl, rfl⟩

/-- The acceptance is asked for at the first STATUS, and where berth ready has risen (R162). -/
theorem HeardAt.acceptance_asked {v : Env} {bd : BoundaryDef} {first : Bool} {d f : Live}
    {entry : Option StatusEntry} (h : HeardAt v bd first d f entry)
    (hagain : first = true ∨ ∃ e p, entry = some e ∧ e.berthReady = true ∧ (d.boundary bd.number).views = some p
      ∧ p.berthReady = false)
    (hneed : exitNeeds d bd.number Slot.accNeed = true) (hdir : (d.boundary bd.number).direction = .outward)
    (hacc : (d.boundary bd.number).acceptance = .none) (hr : (d.boundary bd.number).restricted = false)
    (hb : (d.boundary bd.number).berthLocked = false) :
    (f.boundary bd.number).acceptance = .requested
      ∧ (f.boundary bd.number).accExpiry = some (after v.now v.timing.response)
      ∧ .acceptRequest bd.linkNumber ∈ (f.link bd.link).tx := by
  cases entry with
  | none =>
    obtain ⟨ask, k⟩ := h
    have hfirst : first = true := hagain.resolve_right (fun ⟨_, _, he, _⟩ => nomatch he)
    have hask : ask = true := k.mustAsk hfirst hneed hdir hacc hr
    refine ⟨?_, ?_, k.asked hask⟩ <;>
      rw [k.record, Boundary.timedAgainst_eq, Boundary.asked_fields, hask] <;> rfl
  | some e =>
    obtain ⟨offer, seek, ask, yield, k⟩ := h
    have hagain' : (first || risen (d.boundary bd.number).views e) = true := by
      rcases hagain with hfirst | ⟨e', p, he, hready, hp, hbefore⟩
      · rw [hfirst]; rfl
      · obtain rfl := Option.some.inj he
        unfold risen
        simp [hp, hready, hbefore]
    have hask : ask = true := k.decided.ask_of_needed hagain' hneed hdir hacc hr hb
    obtain ⟨-, h2, h3, -⟩ := k.fields
    refine ⟨?_, h3 hask, k.asked hask⟩
    rw [h2, hask]
    rfl

section shown

variable {v : Env} {bd : BoundaryDef} {e : StatusEntry} {first : Bool} {d f : Live} {offer seek ask yield : Bool}
  (k : ViewedAs v bd e first d f offer seek ask yield)

include k

theorem ViewedAs.acceptance_used (h : consumes (d.boundary bd.number) e = true) :
    (f.boundary bd.number).acceptance ≠ .held := by
  obtain ⟨-, h2, -⟩ := k.fields
  rw [h2, h]
  cases ask <;> nofun

theorem ViewedAs.acceptance_kept (h : consumes (d.boundary bd.number) e = false) (hf : first = false)
    (hr : risen (d.boundary bd.number).views e = false) :
    (f.boundary bd.number).acceptance = (d.boundary bd.number).acceptance := by
  have hask : ask = false := by
    rw [← Bool.not_eq_true]
    intro ha
    obtain ⟨h1, -⟩ := k.decided.asks ha
    rw [hf, hr] at h1
    cases h1
  obtain ⟨-, h2, -⟩ := k.fields
  rw [h2, h, hask]
  rfl

theorem ViewedAs.berth_freed (h : abandons (d.boundary bd.number) e = true) :
    (f.boundary bd.number).berthLocked = false ∧ (f.boundary bd.number).marks = []
      ∧ (f.boundary bd.number).resetExpiry = none := by
  obtain ⟨-, -, -, h4, h5, h6, -⟩ := k.fields
  exact ⟨by rw [h4, h]; rfl, by rw [h5, h]; rfl, h6 h⟩

theorem ViewedAs.berth_kept (h : abandons (d.boundary bd.number) e = false) :
    (f.boundary bd.number).berthLocked = (d.boundary bd.number).berthLocked
      ∧ (f.boundary bd.number).marks = (d.boundary bd.number).marks
      ∧ (f.boundary bd.number).restricted = (d.boundary bd.number).restricted := by
  obtain ⟨-, -, -, h4, h5, -, h7, -⟩ := k.fields
  exact ⟨by rw [h4, h]; rfl, by rw [h5, h]; rfl, h7 h⟩

theorem ViewedAs.direction_sought (hneed : exitNeeds d bd.number Slot.dirNeed = true)
    (hx : (d.boundary bd.number).reqExpiry = none) (hr : (d.boundary bd.number).restricted = false)
    (hb : (d.boundary bd.number).berthLocked = false) (he : e.direction ≠ .outward) :
    (f.boundary bd.number).reqExpiry = some (after v.now v.timing.response)
      ∧ .dirRequest bd.linkNumber bd.seniority ∈ (f.link bd.link).tx := by
  have hseek : seek = true := k.decided.seek_of_needed hneed hx hr hb he
  obtain ⟨h1, -⟩ := k.fields
  exact ⟨by rw [h1, hseek]; rfl, k.sought hseek⟩

theorem ViewedAs.reqExpiry_kept (h : exitNeeds d bd.number Slot.dirNeed = false
      ∨ (d.boundary bd.number).reqExpiry ≠ none ∨ e.direction = .outward) :
    (f.boundary bd.number).reqExpiry = (d.boundary bd.number).reqExpiry := by
  have hseek : seek = false := k.decided.seek_eq_false h
  obtain ⟨h1, -⟩ := k.fields
  rw [h1, hseek]
  rfl

/-- Neighbour waiting follows the entry on a boundary that stays OUTWARD (step 6). -/
theorem ViewedAs.waiting_follows : (e.waiting = false → (f.boundary bd.number).waiting = false)
    ∧ (e.waiting = true → (f.boundary bd.number).direction = .outward → (f.boundary bd.number).waiting = true) := by
  obtain ⟨-, -, -, -, -, -, -, -, hw, hdir⟩ := k.fields
  refine ⟨fun he => by rw [hw, he]; rfl, fun he hout => ?_⟩
  rw [hdir] at hout
  rw [hw, if_pos he]
  split at hout
  · cases hout
  · next hn =>
    rw [if_pos hout]
    cases yield with
    | false => rfl
    | true => exact absurd ⟨he, hout, rfl⟩ hn

/-- An idle OUTWARD boundary offers its direction (step 6, R161). -/
theorem ViewedAs.direction_offered (he : e.waiting = true) (hdir : (d.boundary bd.number).direction = .outward)
    (hacc : (d.boundary bd.number).acceptance = .none) (hany : exitNeeds d bd.number (fun _ => true) = false)
    (hb : (d.boundary bd.number).berthLocked = false) (hfree : e.berthLocked = false) :
    (f.boundary bd.number).direction = .inward ∧ (f.boundary bd.number).waiting = false
      ∧ .dirOffer bd.linkNumber ∈ (f.link bd.link).tx := by
  obtain ⟨hyield, hz⟩ := k.decided.yield_of_idle he hdir hacc hany hb rfl hfree
  obtain ⟨-, -, -, -, -, -, -, -, h9, h10⟩ := k.fields
  refine ⟨by rw [h10, if_pos ⟨he, hz, hyield⟩], ?_, k.yielded he hz hyield⟩
  rw [h9, if_pos he, if_pos hz, hyield]
  rfl

/-- Only an OUTWARD boundary changes its direction, to INWARD, while no reset is in progress. -/
theorem ViewedAs.direction_moves (hr : (d.boundary bd.number).resetExpiry = none) :
    (f.boundary bd.number).direction = (d.boundary bd.number).direction
      ∨ ((d.boundary bd.number).direction = .outward ∧ (f.boundary bd.number).direction = .inward) := by
  obtain ⟨-, -, -, -, -, -, -, -, -, h10⟩ := k.fields
  rw [h10]
  rcases k.decided.direction_afterBerth hr with hz | ⟨hx, hz⟩
  · split
    · next h => exact Or.inr ⟨hz.symm.trans h.2.1, rfl⟩
    · exact Or.inl hz
  · refine Or.inr ⟨hx, ?_⟩
    rw [if_neg (fun h => by rw [hz] at h; cases h.2.1), hz]

end shown

/-! ### The whole command -/

/-- What a boundary hears does not read the links of the state before. -/
theorem HeardAt.of_setLink {v : Env} {bd : BoundaryDef} {first : Bool} {l : Nat} {g : Link → Link} {d f : Live}
    {entry : Option StatusEntry} (h : HeardAt v bd first (d.setLink l g) f entry) : HeardAt v bd first d f entry := by
  cases entry with
  | none =>
    obtain ⟨ask, k⟩ := h
    exact ⟨ask, k.record, k.asks, k.mustAsk, k.asked⟩
  | some e =>
    obtain ⟨offer, seek, ask, yield, k⟩ := h
    exact ⟨offer, seek, ask, yield, k.record, k.decided, k.sought, k.asked, k.yielded, k.freed⟩

/-- A STATUS taken on a link that is not DISABLED, with nothing stored. -/
theorem exec_status {l : Nat} {stop : Bool} {es : List StatusEntry} {fs : List NFrame} {s : State}
    (hrx : (s.live.link l).rx = .status stop es :: fs) (hst : s.live.stored = []) 
    (hdis : (s.live.link l).state ≠ .disabled) (hn : (s.env.defs.boundaries.map BoundaryDef.number).Nodup) :
    ∃ t f, exec (.status l) s = .next t ∧ t.env = s.env ∧ t.pending = s.pending
      ∧ f (s.live.link l) = (s.live.link l).opened s.env stop fs
      ∧ Sends l (fun k => ∃ bd ∈ s.env.linkBoundaries l, bd.number = k) (4 * (s.env.linkBoundaries l).length)
        (s.live.setLink l f) t.live
      ∧ ((t.live.link l).state = .up → ∀ bd ∈ s.env.linkBoundaries l, s.live.hasBoundary bd.number →
        HeardAt s.env bd (decide ((s.live.link l).state ≠ .up)) s.live t.live
          (es.find? (fun e => e.number = bd.linkNumber))) := by
  obtain ⟨f, e, hf, hw, htake⟩ := takeStatus_eq (v := s.env) hrx hst hdis
  let d0 := s.live.setLink l f
  let bs := s.env.linkBoundaries l
  let r := applyEntries s.env (fun bd => es.find? (fun e => e.number = bd.linkNumber))
    (decide ((s.live.link l).state ≠ .up)) bs e
  have hbs (bd : BoundaryDef) (hm : bd ∈ bs) : s.env.boundary? bd.number = some bd ∧ bd.link = l := by
    obtain ⟨hmem, hlink⟩ := List.mem_filter.1 hm
    exact ⟨boundary?_of_mem hmem hn, by simpa using hlink⟩
  have hnodup : (bs.map BoundaryDef.number).Nodup := hn.sublist (List.filter_sublist.map _)
  have hste : e.stored = [] := hw.stored.trans hst
  have s1 : Sends l (fun _ => False) 0 d0 e := hw.sends
  have s2 : Sends l _ _ e r := sends_applyEntries _ _ hbs hste
  have hstr : r.stored = [] := s2.stored.trans hste
  have s3 : Sends l (fun _ => False) 0 r (serve s.env r) := by
    rw [serve_of_no_stored _ _ hstr]
    exact (watched_setReeval r false).sends
  have hexec : exec (.status l) s = .next { s with live := serve s.env r } := by
    rw [exec_of_effect (f := fun v => takeStatus v l) rfl, show r = _ from htake.symm]
    rfl
  refine ⟨_, f, hexec, rfl, rfl, hf, ?_, fun hu bd hm hb => ?_⟩
  · have hnone (k : Nat) (h : False) : ∃ bd ∈ bs, bd.number = k := h.elim
    exact (((s1.mono hnone le_rfl).trans s2).trans (s3.mono hnone le_rfl)).mono (fun _ => id)
      (by show 0 + 4 * bs.length + 0 ≤ 4 * bs.length; omega)
  · obtain ⟨u2, k3⟩ := s3.heard hu
    obtain ⟨-, k1⟩ := s1.heard (s2.heard u2).1
    have h := heardAt_applyEntries _ _ hbs hnodup hste u2 hm (k1.hasBoundary (d := d0) hb)
    obtain rfl := (hbs bd hm).2
    exact (h.between (c := d0) k1 k3 id id).of_setLink

/-- Settles O59. A DISABLED link discards the frame. On any other the claims are read off what each of the link's
boundaries hears, in turn, while the link stays UP. -/
theorem statusAppliedToEachBoundary : Obligations.StatusAppliedToEachBoundary := by
  intro l stop es fs s hrx hst hre hl
  refine ⟨fun hdis => ?_, fun hdis hn => ?_⟩
  · have htake : takeStatus s.env l s.live = s.live.setLink l (fun y => { y with rx := fs }) := by
      unfold takeStatus
      rw [hrx]
      dsimp only [List.head?_cons]
      rw [hdis]
      exact Live.setLink_congr (by rw [hrx]; rfl)
    exact ⟨_, exec_of_effect_alone (f := fun v => takeStatus v l) rfl (by rw [htake]; exact hre), rfl, rfl, htake⟩
  obtain ⟨t, f, hexec, henv, hpending, hf, hsends, hheard⟩ := exec_status hrx hst hdis hn
  have hopened : (s.live.setLink l f).link l = _ := (s.live.link_setLink_self hl f).trans hf
  have hstate : ((s.live.setLink l f).link l).state = .up := by rw [hopened]; rfl
  have htx : ((s.live.setLink l f).link l).tx = (s.live.link l).tx := by rw [hopened]; rfl
  refine ⟨t, hexec, henv, hpending, fun hroom => (hsends.room hstate (by rw [htx]; exact hroom)).1, fun hu => ?_⟩
  obtain ⟨-, heard⟩ := hsends.heard hu
  refine ⟨heard.rx.trans (by rw [hopened]; rfl), heard.stop.trans (by rw [hopened]; rfl),
    heard.silence.trans (by rw [hopened]; rfl), htx ▸ heard.tx,
    fun j hj => (heard.links j hj).trans (s.live.link_setLink_ne (Ne.symm hj) f),
    fun b hb => heard.bounds b (fun ⟨bd, hm, he⟩ => hb bd hm he), fun m => ?_, hsends.stored.trans hst, ?_⟩
  · have := heard.ports m
    cases m <;> exact this
  intro bd hm _ hb x y entry first rfl rfl hentry rfl
  obtain rfl : bd.link = l := by simpa using (List.mem_filter.1 hm).2
  have h := hheard hu bd hm hb
  rw [← hentry] at h
  obtain ⟨r, hcons, hviews, hy⟩ := h.timed
  have htimed := consExpiry_timedAgainst s.env.now s.env.timing.response entry r
  rw [← hy, hcons] at htimed
  refine ⟨?_, fun he => (he ▸ h : HeardAt _ _ _ _ _ none).without_entry, h.acceptance_asked, fun e he => ?_,
    fun hr => htimed.trans (if_pos hr), fun hr => ?_⟩
  · rw [hy, Boundary.timedAgainst_eq]
    exact hviews
  · subst he
    obtain ⟨offer, seek, ask, yield, k⟩ := h
    obtain ⟨-, -, -, -, -, -, -, hhome, -⟩ := k.fields
    obtain ⟨hwait, hfollow⟩ := k.waiting_follows
    refine ⟨hhome, fun h1 h2 h3 => k.acceptance_used (consumes_iff.2 ⟨h1, h2, h3⟩),
      fun h1 h2 h3 => k.acceptance_kept (Bool.eq_false_of_not_eq_true fun hc => ?_) h2 ?_,
      fun h1 h2 h3 => ?_, fun h1 => k.berth_kept (Bool.eq_false_of_not_eq_true fun hc => ?_),
      k.direction_sought, k.reqExpiry_kept, hwait, hfollow, k.direction_offered, fun h1 h2 => ?_, fun h1 h2 => ?_⟩
    · obtain ⟨c1, c2, c3⟩ := consumes_iff.1 hc
      rcases h1 with h1 | ⟨h1, h1'⟩ | ⟨h1, h1'⟩
      · exact h1 c1
      · simp [h1, h1'] at c2
      · simp [h1, h1'] at c3
    · unfold risen
      rcases h3 with h3 | h3 | ⟨p, hp, h3⟩
      · simp [h3]
      · simp [h3]
      · simp [hp, h3]
    · have ha := abandons_iff.2 ⟨h1, h2, h3⟩
      obtain ⟨b1, b2, b3⟩ := k.berth_freed ha
      exact ⟨b1, b2, b3, k.freed ha⟩
    · obtain ⟨-, c2, c3⟩ := abandons_iff.1 hc
      rcases h1 with ⟨m, hm, ho⟩ | h1
      · rw [c2 m hm] at ho; cases ho
      · exact h1 c3
    · exact (k.direction_moves h2).resolve_right (fun h3 => h1 h3.1)
    · rcases k.direction_moves h2 with h3 | h3
      · exact Or.inl (h3.trans h1)
      · exact Or.inr h3.2
  · rw [htimed, if_neg (by rw [hr]; nofun)]
    by_cases hc : consistent (t.live.boundary bd.number) entry = true
    · rw [if_pos hc, if_pos (exists_consistent_iff.1 hc)]
    · rw [if_neg hc, if_neg (fun hn => hc (exists_consistent_iff.2 hn))]

end Sys2Proof.Machine
end
